-- ==== Sys2Proof/Word.lean ====
section
/-! DEFINITION. The bit vectors of the Psilar D9 and their plainest arithmetic (R5, R6, R9). -/

namespace Sys2Proof

/-- A byte (R6). -/
abbrev Byte := BitVec 8
/-- A word of 32 bits (R6): one lane of a vector register, and one instruction word. -/
abbrev Word := BitVec 32
/-- A dword of 64 bits (R6): a uniform register. -/
abbrev Dword := BitVec 64

/-- Bits `[lo + n - 1 : lo]` of a natural number (R9). -/
def natBits (v lo n : Nat) : Nat := (v / 2 ^ lo) % 2 ^ n

/-- The little-endian bytes of the low `n` bytes of `v` (R5). -/
def natBytes : Nat → Nat → List Byte
  | 0, _ => []
  | n + 1, v => BitVec.ofNat 8 v :: natBytes n (v / 256)

/-- The natural number that little-endian bytes hold (R5). -/
def bytesNat : List Byte → Nat
  | [] => 0
  | b :: bs => b.toNat + 256 * bytesNat bs

/-- The signed value of the low `n` bits of `v` (R9, `sext`). -/
def sextNat (v n : Nat) : Int :=
  let m := v % 2 ^ n
  if 2 * m < 2 ^ n then (m : Int) else (m : Int) - (2 ^ n : Nat)

/-- An integer modulo `2^n`, as a natural number. -/
def wrapInt (n : Nat) (i : Int) : Nat := (i % ((2 ^ n : Nat) : Int)).toNat

/-- The exact integer `i` clamped to `[lo, hi]`. -/
def clampInt (lo hi i : Int) : Int := if i < lo then lo else if hi < i then hi else i

/-- Ceiling of `a ÷ b`. -/
def ceilDiv (a b : Nat) : Nat := (a + b - 1) / b

/-- The number of bits of `n` (0 for 0), by fuel. -/
def bitLenAux : Nat → Nat → Nat
  | 0, _ => 0
  | f + 1, n => if n = 0 then 0 else 1 + bitLenAux f (n / 2)

/-- The number of bits of `n`: 0 for 0, else the place of the highest set bit plus 1. -/
def bitLen (n : Nat) : Nat := if n = 0 then 0 else n.log2 + 1

/-- The element at place `i` of a list, or a default. -/
def getD' {α : Type} (l : List α) (i : Nat) (d : α) : α := l.getD i d

/-- `l` with its element at place `i` changed by `f`. -/
def updAt {α : Type} (f : α → α) : List α → Nat → List α
  | [], _ => []
  | x :: xs, 0 => f x :: xs
  | x :: xs, i + 1 => x :: updAt f xs i

/-- The first element of `l` that `p` accepts, with every such element changed by `f`. -/
def updWhere {α : Type} (p : α → Bool) (f : α → α) (l : List α) : List α :=
  l.map fun x => if p x then f x else x

/-- The least `i` in `[lo, lo + n)` that `p` accepts. -/
def findFrom (p : Nat → Bool) : Nat → Nat → Option Nat
  | _, 0 => none
  | lo, n + 1 => if p lo then some lo else findFrom p (lo + 1) n

end Sys2Proof
end

