-- ==== Sys2Proof/Config.lean ====
section
/-! DEFINITION. What the D9 leaves open (free values, without a body) and the constants that the spec fixes. -/

namespace Sys2Proof.Config

/-- A fresh 64-bit value of the machine's own choosing, by the counter `State.free`. Free value; log entry 9. -/
opaque freeDword : Nat → BitVec 64
/-- A fresh choice below a bound that the spec leaves to a unit (R42, R330), by the counter `State.free`.
The use takes it modulo the number of candidates. Free value; log entry 9. -/
opaque freeChoice : Nat → Nat
/-- The digest SHAKE256 with 64 bytes of output (R454, R455). The spec names the function and gives no
definition of it. Free value; log entry 10. -/
opaque shake256 : List (BitVec 8) → List (BitVec 8)
/-- The signature that the signing engine makes of a statement (R456). Free value; log entry 10. -/
opaque signature : List (BitVec 8) → List (BitVec 8)
/-- Whether the ML-DSA-65 signature of a flash image verifies (R454): public key, signature, digest.
Free value; log entry 10. -/
opaque mlDsaVerify : List (BitVec 8) → List (BitVec 8) → List (BitVec 8) → Bool
/-- The 1,952-byte identity public key of the device (R456). Free value; log entry 10. -/
opaque identityKey : Nat → BitVec 8
/-- The bytes of the fused digest of the public key (R454). Free value; log entry 10. -/
opaque fusedDigest : Nat → BitVec 8
/-- The L2 slice that holds a line, by bits [38:6] of its local address: the use takes it modulo 16 (R190, R408). Free value; log
entry 9. -/
opaque l2Slice : Nat → Nat
/-- The fused minimum security version (R454). Free value; log entry 10. -/
opaque fusedMinVersion : Nat → Nat
/-- Whether the second copy of a redundant MMA differs from the first, and the first differing cell (R322): an error of
an array, by the counter `State.free`. Free value; log entry 17. -/
opaque arrayError : Nat → Option (Nat × Nat)
/-- A correctly rounded FEXP2 result where the series of the model does not decide the rounding.
Free value; log entry 11. -/
opaque exp2Tie : Nat → BitVec 32
/-- A correctly rounded FLOG2 result where the series of the model does not decide the rounding.
Free value; log entry 11. -/
opaque log2Tie : Nat → BitVec 32

end Sys2Proof.Config
end

