-- ==== Sys2Proof/Machine/Float.lean ====
section
/-! DEFINITION. Floating point (R160 to R163, R176 to R184): exact dyadic values, one rounding, flushing, NaNs. -/

namespace Sys2Proof.Machine

/-- A floating-point format (R176): exponent and fraction widths; `e4m3` has no infinity. -/
structure Fmt where
  ebits : Nat
  fbits : Nat
  noInf : Bool
  deriving DecidableEq, Repr

def f64 : Fmt := ⟨11, 52, false⟩
def f32 : Fmt := ⟨8, 23, false⟩
def f16 : Fmt := ⟨5, 10, false⟩
def bf16 : Fmt := ⟨8, 7, false⟩
def e4m3 : Fmt := ⟨4, 3, true⟩
def e5m2 : Fmt := ⟨5, 2, false⟩

/-- The format of a code of R106; codes of integers do not occur. -/
def fmtOf (c : Nat) : Fmt :=
  match c with
  | 8 => f16
  | 9 => bf16
  | 10 => f32
  | 11 => f64
  | 12 => e4m3
  | _ => e5m2

/-- The bias of a format (R176). -/
def Fmt.bias (f : Fmt) : Nat := 2 ^ (f.ebits - 1) - 1
/-- The width of a format in bits. -/
def Fmt.width (f : Fmt) : Nat := 1 + f.ebits + f.fbits
/-- The sign bit's weight. -/
def Fmt.signBit (f : Fmt) : Nat := 2 ^ (f.ebits + f.fbits)
/-- The encoding of +∞, or for E4M3 of the encoding above its largest finite value. -/
def Fmt.top (f : Fmt) : Nat := if f.noInf then 2 ^ (f.ebits + f.fbits) - 1 else (2 ^ f.ebits - 1) * 2 ^ f.fbits
/-- The quiet bit (R177). -/
def Fmt.quiet (f : Fmt) : Nat := 2 ^ (f.fbits - 1)
/-- The default NaN (R177). -/
def Fmt.dnan (f : Fmt) : Nat := if f.noInf then f.top else f.top + f.quiet
/-- The exponent of the smallest subnormal. -/
def Fmt.qmin (f : Fmt) : Int := 1 - (f.bias : Int) - (f.fbits : Int)

/-- A value: NaN, an infinity, or (-1)^s × m × 2^e exactly; a zero has a sign. -/
inductive FV where
  | nan
  | inf (s : Bool)
  | fin (s : Bool) (m : Nat) (e : Int)
  deriving DecidableEq, Repr

/-- The sign of an encoding. -/
def Fmt.neg (f : Fmt) (x : Nat) : Bool := x / f.signBit % 2 = 1
/-- An encoding without its sign. -/
def Fmt.mag (f : Fmt) (x : Nat) : Nat := x % f.signBit
/-- Whether an encoding is a NaN (R176). -/
def Fmt.isNan (f : Fmt) (x : Nat) : Bool := if f.noInf then f.mag x = f.top else f.top < f.mag x

/-- The value of an encoding (R176). -/
def Fmt.val (f : Fmt) (x : Nat) : FV :=
  let m := f.mag x
  if f.isNan x then .nan
  else if !f.noInf && m = f.top then .inf (f.neg x)
  else
    let e := m / 2 ^ f.fbits
    let r := m % 2 ^ f.fbits
    if e = 0 then .fin (f.neg x) r f.qmin else .fin (f.neg x) (r + 2 ^ f.fbits) (f.qmin + (e : Int) - 1)

/-- An encoding from a sign and a magnitude. -/
def Fmt.mk' (f : Fmt) (s : Bool) (m : Nat) : Nat := (if s then f.signBit else 0) + m

/-- The rounding modes (R181). -/
inductive RMode where
  | rn | rz | ru | rd
  deriving DecidableEq, Repr

/-- The mode of a word: RND, or RM of $fpmode when RND is 0 (R181, R182). -/
def modeOf (rnd rm : Nat) : RMode :=
  match rnd with
  | 0 => (match rm with | 0 => .rn | 1 => .rz | 2 => .ru | _ => .rd)
  | 1 => .rn
  | 2 => .rz
  | 3 => .ru
  | _ => .rd

/-- Whether the magnitude is rounded up: `n` is the truncated value, `r` the rest out of `2^k` (R181). -/
def roundUp (md : RMode) (s : Bool) (n r k : Nat) : Bool :=
  match md with
  | .rn => decide (2 ^ k < 2 * r) || (decide (2 * r = 2 ^ k) && decide (n % 2 = 1))
  | .rz => false
  | .ru => !s && decide (r ≠ 0)
  | .rd => s && decide (r ≠ 0)

/-- The magnitude encoding of a value beyond the largest finite one (R160, R168). -/
def Fmt.over (f : Fmt) (md : RMode) (s : Bool) : Nat :=
  if f.noInf then f.top - 1
  else
    match md with
    | .rn => f.top
    | .rz => f.top - 1
    | .ru => if s then f.top - 1 else f.top
    | .rd => if s then f.top else f.top - 1

/-- `n × 2^q` for a shift that may be negative: the truncated value, the rest and the number of bits of the rest. -/
def shiftTo (m : Nat) (e q : Int) : Nat × Nat × Nat :=
  if q ≤ e then (m * 2 ^ (e - q).toNat, 0, 0)
  else
    let k := (q - e).toNat
    (m / 2 ^ k, m % 2 ^ k, k)

/-- The magnitude encoding of m × 2^e, m ≠ 0, rounded once (R181); `none` where it is beyond the largest finite one. -/
def Fmt.roundMag (f : Fmt) (md : RMode) (s : Bool) (m : Nat) (e : Int) : Option Nat :=
  let top := e + (bitLen m : Int) - 1
  let q := max (top - (f.fbits : Int)) f.qmin
  match shiftTo m e q with
  | (n, r, k) =>
    let n' := if roundUp md s n r k then n + 1 else n
    let enc := n' + (q - f.qmin).toNat * 2 ^ f.fbits
    if f.top ≤ enc then none else some enc

/-- The encoding of (-1)^s × m × 2^e rounded once; overflow as R160 states, or with `sat` to the largest finite value. -/
def Fmt.round (f : Fmt) (md : RMode) (sat : Bool) (s : Bool) (m : Nat) (e : Int) : Nat :=
  if m = 0 then f.mk' s 0
  else
    match f.roundMag md s m e with
    | some x => f.mk' s x
    | none => f.mk' s (if sat then f.top - 1 else f.over md s)

/-- Whether an encoding is subnormal and not zero. -/
def Fmt.subnormal (f : Fmt) (x : Nat) : Bool := f.mag x ≠ 0 && f.mag x < 2 ^ f.fbits

/-- Whether a format's subnormals lie below the bound of R183: binary64, and binary32 and bfloat16 among the others. -/
def Fmt.flushes (f : Fmt) : Bool := f = f64 || f = f32 || f = bf16

/-- Flushing of an operand or a rounded result under a flush bit: a zero of its own sign (R183). -/
def Fmt.flush (f : Fmt) (fz : Bool) (x : Nat) : Nat :=
  if fz && f.flushes && f.subnormal x then f.mk' (f.neg x) 0 else x

/-- A NaN made quiet (R184). -/
def Fmt.quieted (f : Fmt) (x : Nat) : Nat := if f.noInf then x else x ||| f.quiet

/-- The first NaN among operands, made quiet (R184). -/
def Fmt.firstNan (f : Fmt) : List Nat → Option Nat
  | [] => none
  | x :: xs => if f.isNan x then some (f.quieted x) else f.firstNan xs

/-- The exact sum of two dyadic values; the sign of an exact zero is as IEEE 754 gives it (R160, R186). -/
def addExact (md : RMode) (s1 : Bool) (m1 : Nat) (e1 : Int) (s2 : Bool) (m2 : Nat) (e2 : Int) : Bool × Nat × Int :=
  let e := min e1 e2
  let a : Int := (if s1 then -1 else 1) * (m1 * 2 ^ (e1 - e).toNat : Nat)
  let b : Int := (if s2 then -1 else 1) * (m2 * 2 ^ (e2 - e).toNat : Nat)
  let c := a + b
  if c = 0 then ((if m1 = 0 && m2 = 0 && s1 = s2 then s1 else md = .rd), 0, e)
  else (decide (c < 0), c.natAbs, e)

/-- The environment of a floating-point word: mode, flush bit. -/
structure FEnv where
  md : RMode
  fz : Bool
  deriving DecidableEq, Repr

/-- A rounded and flushed result (R181, R183). -/
def Fmt.result (f : Fmt) (v : FEnv) (s : Bool) (m : Nat) (e : Int) : Nat := f.flush v.fz (f.round v.md false s m e)

/-- a + b (R160, R161). -/
def Fmt.add (f : Fmt) (v : FEnv) (a b : Nat) : Nat :=
  match f.firstNan [a, b] with
  | some x => x
  | none =>
    match f.val (f.flush v.fz a), f.val (f.flush v.fz b) with
    | .inf s, .inf t => if s = t then f.mk' s f.top else f.dnan
    | .inf s, _ => f.mk' s f.top
    | _, .inf t => f.mk' t f.top
    | .fin s m e, .fin t n g =>
      match addExact v.md s m e t n g with
      | (u, k, h) => f.result v u k h
    | _, _ => f.dnan

/-- An encoding with its sign inverted. -/
def Fmt.negate (f : Fmt) (x : Nat) : Nat := if f.neg x then x - f.signBit else x + f.signBit

/-- a - b: a NaN in b is taken as it stands (R184). -/
def Fmt.sub (f : Fmt) (v : FEnv) (a b : Nat) : Nat :=
  match f.firstNan [a, b] with
  | some x => x
  | none => f.add v a (f.negate b)

/-- a × b. -/
def Fmt.mul (f : Fmt) (v : FEnv) (a b : Nat) : Nat :=
  match f.firstNan [a, b] with
  | some x => x
  | none =>
    match f.val (f.flush v.fz a), f.val (f.flush v.fz b) with
    | .inf s, .inf t => f.mk' (s != t) f.top
    | .inf s, .fin t n _ => if n = 0 then f.dnan else f.mk' (s != t) f.top
    | .fin s m _, .inf t => if m = 0 then f.dnan else f.mk' (s != t) f.top
    | .fin s m e, .fin t n g => f.result v (s != t) (m * n) (e + g)
    | _, _ => f.dnan

/-- a × b + d with one rounding; NaNs in the order a, b, d (R184). -/
def Fmt.fma (f : Fmt) (v : FEnv) (a b d : Nat) : Nat :=
  match f.firstNan [a, b, d] with
  | some x => x
  | none =>
    let dv := f.val (f.flush v.fz d)
    let infProd (s : Bool) : Nat :=
      match dv with
      | .inf t => if s = t then f.mk' s f.top else f.dnan
      | _ => f.mk' s f.top
    match f.val (f.flush v.fz a), f.val (f.flush v.fz b) with
    | .inf s, .inf t => infProd (s != t)
    | .inf s, .fin t n _ => if n = 0 then f.dnan else infProd (s != t)
    | .fin s m _, .inf t => if m = 0 then f.dnan else infProd (s != t)
    | .fin s m e, .fin t n g =>
      match dv with
      | .inf u => f.mk' u f.top
      | .fin u k h =>
        (match addExact v.md (s != t) (m * n) (e + g) u k h with
         | (w, x, y) => f.result v w x y)
      | .nan => f.dnan
    | _, _ => f.dnan

/-- A positive quotient m ÷ n as a dyadic value with a sticky last bit, exact enough for one rounding to `p` bits. -/
def divSticky (p m n : Nat) : Nat × Int :=
  let k := p + 4 + bitLen n
  let x := m * 2 ^ k
  (2 * (x / n) + (if x % n = 0 then 0 else 1), -(k : Int) - 1)

/-- a ÷ b (R161). -/
def Fmt.div (f : Fmt) (v : FEnv) (a b : Nat) : Nat :=
  match f.firstNan [a, b] with
  | some x => x
  | none =>
    match f.val (f.flush v.fz a), f.val (f.flush v.fz b) with
    | .inf _, .inf _ => f.dnan
    | .inf s, .fin t _ _ => f.mk' (s != t) f.top
    | .fin s _ _, .inf t => f.mk' (s != t) 0
    | .fin s m e, .fin t n g =>
      if n = 0 then (if m = 0 then f.dnan else f.mk' (s != t) f.top)
      else
        (match divSticky f.fbits m n with
         | (q, k) => f.result v (s != t) q (e - g + k))
    | _, _ => f.dnan

/-- The integer square root by bits: the largest r with r² ≤ n among r0 + values below 2^k. -/
def isqrtAux (n : Nat) : Nat → Nat → Nat
  | 0, r => r
  | k + 1, r =>
    let r' := r + 2 ^ k
    isqrtAux n k (if r' * r' ≤ n then r' else r)

/-- The integer square root. -/
def isqrt (n : Nat) : Nat := isqrtAux n (bitLen n / 2 + 1) 0

/-- √(m × 2^e) as a dyadic value with a sticky last bit, exact enough for one rounding to `p` bits. -/
def sqrtSticky (p m : Nat) (e : Int) : Nat × Int :=
  let k := 2 * p + 8
  let odd := (e - (k : Int)) % 2 ≠ 0
  let k' := if odd then k + 1 else k
  let x := m * 2 ^ k'
  let r := isqrt x
  (2 * r + (if r * r = x then 0 else 1), (e - (k' : Int)) / 2 - 1)

/-- √a (R161, R162). -/
def Fmt.sqrt (f : Fmt) (v : FEnv) (a : Nat) : Nat :=
  if f.isNan a then f.quieted a
  else
    match f.val (f.flush v.fz a) with
    | .inf s => if s then f.dnan else f.mk' false f.top
    | .fin s m e =>
      if m = 0 then f.mk' s 0
      else if s then f.dnan
      else
        (match sqrtSticky f.fbits m e with
         | (q, k) => f.result v false q k)
    | .nan => f.dnan

/-- 1 ÷ a (R161, R162). -/
def Fmt.rcp (f : Fmt) (v : FEnv) (a : Nat) : Nat :=
  if f.isNan a then f.quieted a
  else
    match f.val (f.flush v.fz a) with
    | .inf s => f.mk' s 0
    | .fin s m e =>
      if m = 0 then f.mk' s f.top
      else
        (match divSticky f.fbits 1 m with
         | (q, k) => f.result v s q (k - e))
    | .nan => f.dnan

/-- 1 ÷ √(m × 2^e) as a dyadic value with a sticky last bit. -/
def rsqSticky (p m : Nat) (e : Int) : Nat × Int :=
  let odd := e % 2 ≠ 0
  let m' := if odd then 2 * m else m
  let e' := if odd then e - 1 else e
  let k := p + 6 + bitLen m'
  let r := isqrt (2 ^ (2 * k) / m')
  (2 * r + (if r * r * m' = 2 ^ (2 * k) then 0 else 1), -(k : Int) - e' / 2 - 1)

/-- 1 ÷ √a (R161, R162). -/
def Fmt.rsq (f : Fmt) (v : FEnv) (a : Nat) : Nat :=
  if f.isNan a then f.quieted a
  else
    match f.val (f.flush v.fz a) with
    | .inf s => if s then f.dnan else f.mk' false 0
    | .fin s m e =>
      if m = 0 then f.mk' s f.top
      else if s then f.dnan
      else
        (match rsqSticky f.fbits m e with
         | (q, k) => f.result v false q k)
    | .nan => f.dnan

/-! ### 2^x and log2 x, correctly rounded (R161)

Fixed-point lower bounds with `prec` bits after the point; each sum's error is below its number of terms plus 2 units
of the last place, so that a lower and an upper bound that round alike give the correctly rounded result. -/

/-- Bits after the point. -/
def prec : Nat := 320

/-- A lower bound of atanh z for z = n ÷ d in fixed point: Σ z^(2i+1) ÷ (2i+1), `t` terms. `pw` is z^(2i+1). -/
def atanhAux (n d : Nat) : Nat → Nat → Nat → Nat
  | 0, _, _ => 0
  | t + 1, i, pw => pw / (2 * i + 1) + atanhAux n d t (i + 1) (pw * n * n / (d * d))

/-- A lower bound of atanh (n ÷ d), for n ÷ d ≤ 1 ÷ 3. -/
def atanhLo (n d : Nat) : Nat := atanhAux n d 110 0 (n * 2 ^ prec / d)

/-- A lower bound of ln 2 = 2 atanh (1 ÷ 3); the upper bound is `slack` above. -/
def ln2Lo : Nat := 2 * atanhLo 1 3

/-- More than the error of any of these sums, in units of the last place. -/
def slack : Nat := 2 ^ 20

/-- A lower bound of e^y for 0 ≤ y < 1 in fixed point: Σ y^i ÷ i!, `t` terms. -/
def expAux (y : Nat) : Nat → Nat → Nat → Nat
  | 0, _, _ => 0
  | t + 1, i, term => term + expAux y t (i + 1) (term * y / (2 ^ prec * (i + 1)))

/-- Bounds of 2^f for f = n ÷ 2^k in [0, 1), in fixed point. -/
def exp2Bounds (n k : Nat) : Nat × Nat :=
  let lo := expAux (ln2Lo * n / 2 ^ k) 80 0 (2 ^ prec)
  (lo, lo + slack)

/-- round(2^a) in binary32 (R161, R162). -/
def fexp2 (v : FEnv) (a : Nat) : Nat :=
  if f32.isNan a then f32.quieted a
  else
    match f32.val (f32.flush v.fz a) with
    | .inf s => if s then 0 else f32.top
    | .fin s m e =>
      let big := decide (9 ≤ e + (bitLen m : Int))
      let k := (-e).toNat
      let i : Int := (if s then -1 else 1) * (m * 2 ^ e.toNat : Nat)
      if m = 0 then f32.result v false 1 0
      else if big then (if s then f32.result v false 1 (-400) else f32.result v false 1 400)
      else
        let fl := i / ((2 ^ k : Nat) : Int)
        let fr := (i - fl * ((2 ^ k : Nat) : Int)).toNat
        if fr = 0 then f32.result v false 1 fl
        else
          (match exp2Bounds fr k with
           | (lo, hi) =>
             let x := f32.result v false (2 * lo + 1) (fl - (prec : Int) - 1)
             let y := f32.result v false (2 * hi + 1) (fl - (prec : Int) - 1)
             if x = y then x else (Config.exp2Tie a).toNat)
    | .nan => f32.dnan

/-- round(log2 a) in binary32 (R161, R162): k + ln m ÷ ln 2 for a = 2^k × m with m in [1, 2). -/
def flog2 (v : FEnv) (a : Nat) : Nat :=
  if f32.isNan a then f32.quieted a
  else
    match f32.val (f32.flush v.fz a) with
    | .inf s => if s then f32.dnan else f32.top
    | .fin s m e =>
      if m = 0 then f32.mk' true f32.top
      else if s then f32.dnan
      else
        let l := bitLen m
        let k : Int := e + (l : Int) - 1
        let one := 2 ^ (l - 1)
        if m = one then f32.result v (decide (k < 0)) k.natAbs 0
        else
          let ln := 2 * atanhLo (m - one) (m + one)
          let q := ln * 2 ^ prec / ln2Lo
          let lo : Int := k * ((2 ^ prec : Nat) : Int) + (q : Int) - (slack * slack : Nat)
          let hi : Int := k * ((2 ^ prec : Nat) : Int) + (q : Int) + (slack * slack : Nat)
          let r (x : Int) : Nat := f32.result v (decide (x < 0)) (2 * x.natAbs + 1) (-(prec : Int) - 1)
          if r lo = r hi then r lo else (Config.log2Tie a).toNat
    | .nan => f32.dnan

/-! ### Minimum and maximum (R163) -/

/-- The order of two finite or infinite encodings, with -0 below +0: an integer that grows with the value. -/
def Fmt.key (f : Fmt) (x : Nat) : Int := if f.neg x then -(f.mag x : Int) - 1 else (f.mag x : Int)

/-- FMIN and FMAX (R163): the other operand of one NaN; both NaN as R184; else by value. Nothing is flushed. -/
def Fmt.minmax (f : Fmt) (mx : Bool) (a b : Nat) : Nat :=
  if f.isNan a && f.isNan b then f.quieted a
  else if f.isNan a then b
  else if f.isNan b then a
  else if mx then (if f.key a < f.key b then b else a)
  else (if f.key b < f.key a then b else a)

/-- The smaller or larger value of operands that are read under a flush bit: HMIN2, HMAX2 and the lane operations, which R160 does
not exempt (R163, R183). -/
def Fmt.minmaxFz (f : Fmt) (mx : Bool) (v : FEnv) (a b : Nat) : Nat := f.minmax mx (f.flush v.fz a) (f.flush v.fz b)

/-- Whether two encodings compare as less and as equal; neither is a NaN; -0 equals +0 (R169). -/
def Fmt.lt (f : Fmt) (a b : Nat) : Bool := f.key a < f.key b && !(f.mag a = 0 && f.mag b = 0)
def Fmt.eq (f : Fmt) (a b : Nat) : Bool := f.key a = f.key b || (f.mag a = 0 && f.mag b = 0)

/-! ### Conversion (R167, R168, R184) -/

/-- A NaN moved from one format to another (R184). -/
def nanMove (src dst : Fmt) (x : Nat) : Nat :=
  if dst.noInf then dst.mk' (src.neg x) dst.top
  else if src.noInf then dst.mk' (src.neg x) dst.dnan
  else
    let frac := src.mag x % src.quiet
    let below := src.fbits - 1
    let db := dst.fbits - 1
    let pay := if db ≤ below then frac / 2 ^ (below - db) else frac * 2 ^ (db - below)
    dst.mk' (src.neg x) (dst.top + dst.quiet + pay)

/-- The flush bit that applies to a format (R182, R183). -/
def Fmt.fz (f : Fmt) (fpmode : Dword) : Bool := if f = f64 then fpmode.getLsbD 3 else fpmode.getLsbD 2

/-- Float to float (R168). `sfz` and `dfz` are the flush bits for source and destination. -/
def cvtFF (src dst : Fmt) (md : RMode) (sat sfz dfz : Bool) (x : Nat) : Nat :=
  if src.isNan x then nanMove src dst x
  else
    match src.val (src.flush sfz x) with
    | .inf s => if dst.noInf then dst.mk' s (dst.top - 1) else dst.mk' s dst.top
    | .fin s m e => dst.flush dfz (dst.round md sat s m e)
    | .nan => dst.dnan

/-- Integer to float (R168). -/
def cvtIF (dst : Fmt) (md : RMode) (sat dfz : Bool) (i : Int) : Nat :=
  dst.flush dfz (dst.round md sat (decide (i < 0)) i.natAbs 0)

/-- A dyadic value rounded to an integer (R181). -/
def roundInt (md : RMode) (s : Bool) (m : Nat) (e : Int) : Int :=
  match shiftTo m e 0 with
  | (n, r, k) =>
    let n' := if roundUp md s n r k then n + 1 else n
    if s then -(n' : Int) else (n' : Int)

/-- Float to integer (R168): NaN gives 0, else rounded and clamped to the range. -/
def cvtFI (src : Fmt) (md : RMode) (sfz signed : Bool) (n : Nat) (x : Nat) : Int :=
  let lo : Int := if signed then -(2 ^ (n - 1) : Nat) else 0
  let hi : Int := if signed then ((2 ^ (n - 1) : Nat) : Int) - 1 else ((2 ^ n : Nat) : Int) - 1
  match src.val (src.flush sfz x) with
  | .nan => 0
  | .inf s => if s then lo else hi
  | .fin s m e => clampInt lo hi (roundInt md s m e)

end Sys2Proof.Machine
end

