-- ==== Sys2Proof/Syntax.lean ====
section
/-! DEFINITION. The syntax of the machine: one constructor for each row of the opcode table.
Instruction words carry their header (the C and S bits and what prefixes supply, R85, R101) and their fields;
the steps of the part that are no instruction words carry what tells one such step from another. -/

namespace Sys2Proof

/-- What a modifier prefix supplies (R101). A field whose valid bit is clear is `none`. -/
structure ModPfx where
  /-- MV and MSK: the overriding governing mask. -/
  mv : Option (BitVec 3)
  /-- TV and TYPE: a format code of R106. -/
  ty : Option (BitVec 4)
  /-- RND: 0 as $fpmode, 1 nearest-even, 2 toward zero, 3 up, 4 down. -/
  rnd : BitVec 3
  /-- SAT. -/
  sat : Bool
  /-- SV and SCOPE. -/
  sc : Option (BitVec 3)
  deriving DecidableEq, Repr

/-- The header of an instruction word: C and S (R85), and what its prefixes supply (R101, R102). -/
structure Hd where
  /-- Chain: the word is tied to the next word of its packet. -/
  c : Bool
  /-- Switch marker: the word ends the current run. -/
  s : Bool
  /-- The modifier prefix, if there is one. -/
  md : Option ModPfx
  /-- IMMH of the immediate prefix, if there is one. -/
  im : Option (BitVec 23)
  deriving DecidableEq, Repr

/-- A team of a block: the block's identity and $team (R31). -/
structure TRef where
  b : Nat
  t : Nat
  deriving DecidableEq, Repr

/-- A request on the board management bus (R460). -/
inductive I3cReq where
  | dawnStatus
  | identityKey
  | sens (e : BitVec 2) (n : BitVec 4)
  | pwr (e : BitVec 2)
  | cerr (e : BitVec 2) (u : BitVec 5)
  | evstat (e : BitVec 2)
  /-- A request of 64 bytes for die 0's Bureau firmware. -/
  | request (bytes : List Byte)
  deriving DecidableEq, Repr

/-- One line of a migrating page: source and destination physical address of the line (R207). Equal addresses say that
translations no longer lead to the line, so that accesses to it are redirected no more. -/
structure MigLine where
  src : Nat
  dst : Nat
  deriving DecidableEq, Repr

/-- An access of the host through the PHL: a read of `n` bytes, or a write of the bytes, at a local address (R419). -/
inductive HostReq where
  | read (a n : Nat)
  | write (a : Nat) (bytes : List Byte)
  deriving DecidableEq, Repr

/-- An atomic that comes from a remote module: operation and type as R218 numbers them, with its operands. -/
structure RemAtom where
  op : BitVec 4
  ty : BitVec 4
  v : BitVec 64
  cmp : BitVec 64
  deriving DecidableEq, Repr

/-- An access over the fabric (R423): one of our teams' own, or one of another module to this module's HBM. -/
inductive FabReq where
  | own (r : TRef) (n : Nat)
  | read (t : BitVec 12) (a n : Nat)
  | write (t : BitVec 12) (a : Nat) (bytes : List Byte)
  | atom (t : BitVec 12) (a : Nat) (op : RemAtom)
  deriving DecidableEq, Repr

/-- The two sets of invalidation registers (R201). -/
inductive InvPort where
  | host
  | die0
  deriving DecidableEq, Repr

/-- The structures of a core whose entries carry the tag of a block's context (R401). -/
inductive BlockUnit where
  | registers | scratchpad | chest | operandCache | accumulator | operandLog
  deriving DecidableEq, Repr

/-- The structures of a die whose entries carry one context's tag (R401). -/
inductive EntryUnit where
  | l1 | tlb | shelf | hutch | futures | bins | queues | matcher | levels | merge | area
  deriving DecidableEq, Repr

/-- The units of R409. -/
inductive ErrUnit where
  | registers | scratchpad | chest | accumulator | l1 | l2 | tlb | hbm | shelf | hutch | futures | bins | queues | matcher
  | levels | router | shadow | tce | pipeline | area
  deriving DecidableEq, Repr

/-- Where an uncorrectable error is found (R404), with the structure or unit (R409), the die, the index in the die and the
failing entry that the report names (R408). -/
inductive ErrAt where
  /-- A tagged entry of a block. -/
  | block (unit : BlockUnit) (b : Nat) (entry : Nat)
  /-- A tagged entry of a unit of a die, and its tag. -/
  | entry (unit : EntryUnit) (e : BitVec 2) (idx : BitVec 12) (entry : Nat) (t : BitVec 12)
  /-- An L2 line, by physical address. -/
  | l2 (line : Nat)
  /-- An HBM line found by a fill, and the requester tags in the fill. -/
  | hbm (line : Nat) (tags : List (BitVec 12))
  /-- A router flit or buffer entry, and its tags. -/
  | flit (e : BitVec 2) (idx : BitVec 12) (tags : List (BitVec 12))
  /-- The shadow slot of a core. -/
  | shadow (core : Nat)
  /-- Untagged control logic, and the contexts that have an operation inside it. -/
  | logic (unit : ErrUnit) (e : BitVec 2) (idx : BitVec 12) (tags : List (BitVec 12))
  deriving DecidableEq, Repr

/-- A register with no behaviour of its own but holding its fields (R8); or the measured log, to which die 0's firmware
appends an entry of 80 bytes (R455). -/
inductive DevReg where
  | filter (e : BitVec 2)
  | blkid0 (e : BitVec 2)
  | hangwd (e : BitVec 2)
  | stopbrk (e : BitVec 2) (i : BitVec 6)
  | cerr (e : BitVec 2) (u : BitVec 5)
  | hint
  | invaddr (p : InvPort)
  | cmpCtl (core : BitVec 10) (i : BitVec 3)
  | cmpAddr (core : BitVec 10) (i : BitVec 3)
  | stall (core : BitVec 10) (c : BitVec 4)
  | measured (entry : List Byte)
  deriving DecidableEq, Repr

/-- What system software supplies when it creates a context (R37, R199, R362, R380, R408, R411). -/
structure CtxSpec where
  tag : BitVec 12
  /-- Physical root of the page table. -/
  root : Nat
  /-- Trap area: virtual base and frame count. -/
  tarea : Nat
  frames : Nat
  /-- Report area: physical base and size in bytes. -/
  rbase : Nat
  rsize : Nat
  /-- Accepted feature words 0, 2 and 3. -/
  acc0 : BitVec 64
  acc2 : BitVec 64
  acc3 : BitVec 64
  /-- The bytes of the host port's pattern record (R357), with its constants. -/
  pattern : List Byte
  deriving DecidableEq, Repr

/-- What the outside presents, or the register write being performed: the argument of the steps that take one from
outside the machine (host, board, fabric, sensors, system software, management registers). Each such step reads the
fields it needs. -/
structure Input where
  /-- A die. -/
  die : BitVec 2
  /-- An index: a port, a sensor, a core, a routing-table entry, an owner tag or a $block. -/
  idx : BitVec 32
  /-- The value written. -/
  val : BitVec 64
  /-- The set of invalidation registers. -/
  inv : InvPort
  i3c : I3cReq
  host : HostReq
  fab : FabReq
  mig : MigLine
  err : ErrAt
  reg : DevReg
  ctx : CtxSpec
  deriving DecidableEq, Repr

/-- One constructor for each row of the opcode table. The rows whose argument comes from outside read it from
`State.input`. -/
inductive Instr where
  /-- BLOCK_PLACEMENT (R49): The placement scan places the next unplaced block on the first core that fits it, and is retried whenever a core of the set frees resources. -/
  | blockPlacement (d : Nat)
  /-- BLOCK_END (R33): Once its last team has ended and all its issued accesses are performed, a block frees its resources and counts as done in its level. -/
  | blockEnd (b : Nat)
  /-- CENSUS (R67): The Hallstand walks a new tree launch, checks it and computes the needs before any block runs. -/
  | census (l : Nat)
  /-- SHELF_RESERVATION (R70): A launch whose census has passed receives CAP zeroed Shelf entries once they are free, and its root opens. -/
  | shelfReservation (l : Nat)
  /-- NODE_DISPATCH (R73): Ready tree nodes are placed in increasing node index on the cores of the Hallstand's die. -/
  | nodeDispatch (l : Nat)
  /-- SWEEP_END (R24): At the end of a sweep, the completion maps are written, waiting on absent pages, and the launch level completes. -/
  | sweepEnd (l : Nat)
  /-- STEAL_REQUEST (R363): An idle cluster's scheduler sends a steal request to its next victim. -/
  | stealRequest (c : Nat)
  /-- STEAL_REPLY (R364): A victim answers a steal request with up to four held dispatches that fit the requester. -/
  | stealReply (c : Nat)
  /-- DONATED_DISPATCH_ARRIVAL (R364): A donated dispatch arrives and becomes held by the requester for placement. -/
  | donatedDispatchArrival (d : Nat)
  /-- RESULT_ARRIVAL (R92): A scoreboarded result arrives, writes its register and clears the pending bit. -/
  | resultArrival (r : TRef) (n : Nat)
  /-- TRAP_ENTRY (R381): A raised trap claims a frame, waits for pending registers, writes the frame and enters the handler, or ends the block if no handler is installed. -/
  | trapEntry (r : TRef)
  /-- INTERRUPT_ENTRY (R372): A Bureau team takes a pending interrupt at its next run boundary and enters its handler. -/
  | interruptEntry (r : TRef)
  /-- LOG_RETRY (R204): Logged operand-log entries are retried after an invalidation or page-ready write. -/
  | logRetry (b n : Nat)
  /-- DRAWER_RESERVATION (R310): A drawer copy parked on a full drawer reserves the tile at the producer pointer once it is free. -/
  | drawerReservation (r : TRef)
  /-- COPY_COMPLETION (R235): A copy whose elements are all performed posts its bytes to the bench and writes its status word. -/
  | copyCompletion (n : Nat)
  /-- MMA_TAKE (R315): A parked MMA takes its tiles once counted tiles are present, after checking their formats. -/
  | mmaTake (r : TRef)
  /-- TILE_OP_PERFORM (R318): A tile operation (MMA, MZERO, MLOAD, MDRAIN) is performed whole in the tile's order, and MMAs fire and retire. -/
  | tileOpPerform (b : Nat) (z : BitVec 4)
  /-- CCLAIM_GRANT (R308): Claimed Chest slots are bound and the handle is written when enough physical slots are free. -/
  | cclaimGrant (b : Nat)
  /-- RCLAIM_GRANT (R129): A parked RCLAIM takes slabs from the pool when enough are free. -/
  | rclaimGrant (b : Nat)
  /-- NRED_CONTRIBUTION_ARRIVAL (R282): A network-reduction contribution reaches its instance and is combined or refused. -/
  | nredContributionArrival (n : Nat)
  /-- PATTERN_FIRING (R358): The Hutch fires complete patterns by priority and index, taking the messages and starting the handler, and waits for two free level slots. -/
  | patternFiring (e : BitVec 2)
  /-- HELD_MESSAGE_APPEND (R361): A device-generated message held for a full port is appended when a message leaves it. -/
  | heldMessageAppend (e : BitVec 2) (p : BitVec 12)
  /-- BIN_TIMER_EXPIRY (R351): On timer expiry, a bin dispatches all its held records. -/
  | binTimerExpiry (e : BitVec 2) (n : Nat)
  /-- INVALIDATION_DONE (R201): An invalidation completes its effects and clears BUSY. -/
  | invalidationDone (p : InvPort)
  /-- TICK_EXPIRY (R370): The countdown reaches zero and sets ISTAT.TIMER. -/
  | tickExpiry (e : BitVec 2)
  /-- STOP_COMPLETE (R445): When every team of a stopped block has halted, a stop record is written. -/
  | stopComplete (b : Nat)
  /-- HANG_WATCHDOG_EXPIRY (R447): A context with no retired word for LIMIT × 65,536 cycles produces a hang record and interrupt. -/
  | hangWatchdogExpiry (e : BitVec 2) (t : BitVec 12)
  /-- DUSK_RESUME (R399): A Dusk-saved block resumes on a fitting core of its partition. -/
  | duskResume (b : Nat)
  /-- NOP (R107): No effect but issue. -/
  | nop (h : Hd)
  /-- TRAP (R388): Raises SWTRAP with INFO n. -/
  | trap (h : Hd) (n : BitVec 6)
  /-- TRET (R390): Returns from a handler to the frame's resume address. -/
  | tret (h : Hd)
  /-- TRIG (R452): Writes a trigger record with n and w[a]. -/
  | trig (h : Hd) (a n : BitVec 6)
  /-- WFI (R392): Parks the Bureau team until an interrupt is pending. -/
  | wfi (h : Hd)
  /-- CSWAP (R396): Exchanges the live state of the named clusters with their shadow slots. -/
  | cswap (h : Hd) (d a : BitVec 6)
  /-- DUSK (R397): Vacates the named cores, saving their blocks. -/
  | dusk (h : Hd) (d a : BitVec 6)
  /-- DUSK_RET (R397): Returns cores vacated by Dusk. -/
  | duskRet (h : Hd) (d a : BitVec 6)
  /-- SAMPLE (R452): Forces sampling of the team's next memory word. -/
  | sample (h : Hd)
  /-- UADD (R117): Uniform 64-bit add of two registers. -/
  | uadd (h : Hd) (d a b : BitVec 6)
  /-- USUB (R117): Uniform 64-bit subtract. -/
  | usub (h : Hd) (d a b : BitVec 6)
  /-- UMUL (R117): Uniform 64-bit multiply, low half. -/
  | umul (h : Hd) (d a b : BitVec 6)
  /-- UMULH (R117): Uniform high half of the 128-bit product. -/
  | umulh (h : Hd) (u : BitVec 1) (d a b : BitVec 6)
  /-- UAND (R117): Uniform AND. -/
  | uand (h : Hd) (d a b : BitVec 6)
  /-- UOR (R117): Uniform OR. -/
  | uor (h : Hd) (d a b : BitVec 6)
  /-- UXOR (R117): Uniform XOR. -/
  | uxor (h : Hd) (d a b : BitVec 6)
  /-- USHL (R117): Uniform shift left. -/
  | ushl (h : Hd) (d a b : BitVec 6)
  /-- USHR (R117): Uniform logical shift right. -/
  | ushr (h : Hd) (d a b : BitVec 6)
  /-- USAR (R117): Uniform arithmetic shift right. -/
  | usar (h : Hd) (d a b : BitVec 6)
  /-- UMIN (R117): Uniform minimum. -/
  | umin (h : Hd) (u : BitVec 1) (d a b : BitVec 6)
  /-- UMAX (R117): Uniform maximum. -/
  | umax (h : Hd) (u : BitVec 1) (d a b : BitVec 6)
  /-- UCMP (R117): Uniform three-way compare. -/
  | ucmp (h : Hd) (u : BitVec 1) (d a b : BitVec 6)
  /-- UBFX (R117): Uniform bit-field extract. -/
  | ubfx (h : Hd) (u : BitVec 1) (d a b : BitVec 6)
  /-- UBFI (R117): Uniform bit-field insert. -/
  | ubfi (h : Hd) (d a b : BitVec 6)
  /-- UADD_IMM (R118): Uniform add of an immediate. -/
  | uaddImm (h : Hd) (d a : BitVec 6) (i : BitVec 9)
  /-- UAND_IMM (R118): Uniform AND with an immediate. -/
  | uandImm (h : Hd) (d a : BitVec 6) (i : BitVec 9)
  /-- UOR_IMM (R118): Uniform OR with an immediate. -/
  | uorImm (h : Hd) (d a : BitVec 6) (i : BitVec 9)
  /-- UXOR_IMM (R118): Uniform XOR with an immediate. -/
  | uxorImm (h : Hd) (d a : BitVec 6) (i : BitVec 9)
  /-- USHL_IMM (R118): Uniform shift left by an immediate. -/
  | ushlImm (h : Hd) (d a : BitVec 6) (i : BitVec 9)
  /-- USHR_IMM (R118): Uniform logical shift right by an immediate. -/
  | ushrImm (h : Hd) (d a : BitVec 6) (i : BitVec 9)
  /-- USAR_IMM (R118): Uniform arithmetic shift right by an immediate. -/
  | usarImm (h : Hd) (d a : BitVec 6) (i : BitVec 9)
  /-- UMUL_IMM (R118): Uniform multiply by an immediate. -/
  | umulImm (h : Hd) (d a : BitVec 6) (i : BitVec 9)
  /-- ULUI (R119): Loads an upper constant shifted left by 24. -/
  | ului (h : Hd) (d : BitVec 6) (i : BitVec 19)
  /-- JMP (R122): Unconditional branch. -/
  | jmp (h : Hd) (o : BitVec 18)
  /-- CALL (R122): Writes the link and branches. -/
  | call (h : Hd) (w : BitVec 6) (o : BitVec 15)
  /-- RET (R122): Indirect branch to w[T]. -/
  | ret (h : Hd) (w : BitVec 6)
  /-- BRM_ANY (R122): Branches if any m0 lane of mK is set. -/
  | brmAny (h : Hd) (k : BitVec 3) (o : BitVec 18)
  /-- BRM_ALL (R122): Branches if every m0 lane is in mK. -/
  | brmAll (h : Hd) (k : BitVec 3) (o : BitVec 18)
  /-- BRM_NONE (R122): Branches if no m0 lane is in mK. -/
  | brmNone (h : Hd) (k : BitVec 3) (o : BitVec 18)
  /-- VBR (R123): Divergent branch that pushes a reconvergence entry. -/
  | vbr (h : Hd) (k : BitVec 3) (o : BitVec 18)
  /-- RECON (R123): Switches to the pending path or pops the reconvergence entry. -/
  | recon (h : Hd)
  /-- BRU_Z (R122): Branches if w[T] is zero. -/
  | bruZ (h : Hd) (w : BitVec 6) (o : BitVec 15)
  /-- BRU_NZ (R122): Branches if w[T] is nonzero. -/
  | bruNz (h : Hd) (w : BitVec 6) (o : BitVec 15)
  /-- BRU_NEG (R122): Branches if w[T] is negative. -/
  | bruNeg (h : Hd) (w : BitVec 6) (o : BitVec 15)
  /-- BRU_NNEG (R122): Branches if w[T] is not negative. -/
  | bruNneg (h : Hd) (w : BitVec 6) (o : BitVec 15)
  /-- MAND (R125): Mask AND. -/
  | mand (h : Hd) (l : BitVec 1) (d a b : BitVec 3)
  /-- MOR (R125): Mask OR. -/
  | mor (h : Hd) (l : BitVec 1) (d a b : BitVec 3)
  /-- MXOR (R125): Mask XOR. -/
  | mxor (h : Hd) (l : BitVec 1) (d a b : BitVec 3)
  /-- MANDN (R125): Mask AND NOT. -/
  | mandn (h : Hd) (l : BitVec 1) (d a b : BitVec 3)
  /-- MLEAD (R125): Keeps only the lowest lane of a mask. -/
  | mlead (h : Hd) (d a : BitVec 3)
  /-- MFIRST (R125): Writes the index of a mask's lowest lane. -/
  | mfirst (h : Hd) (d : BitVec 6) (a : BitVec 3)
  /-- MCOUNT (R125): Counts a mask's lanes. -/
  | mcount (h : Hd) (d : BitVec 6) (a : BitVec 3)
  /-- MSETW (R125): Sets one lane word of a mask. -/
  | msetw (h : Hd) (d : BitVec 3) (a b : BitVec 6)
  /-- MGETW (R125): Reads one lane word or the summary word of a mask. -/
  | mgetw (h : Hd) (d : BitVec 6) (a : BitVec 3) (b : BitVec 6)
  /-- VADD (R158): Vector add. -/
  | vadd (h : Hd) (k : BitVec 3) (d a b : BitVec 6)
  /-- VSUB (R158): Vector subtract. -/
  | vsub (h : Hd) (k : BitVec 3) (d a b : BitVec 6)
  /-- VMUL (R158): Vector multiply, low half. -/
  | vmul (h : Hd) (k : BitVec 3) (d a b : BitVec 6)
  /-- VMULH (R158): Vector multiply, high half. -/
  | vmulh (h : Hd) (k : BitVec 3) (d a b : BitVec 6)
  /-- VAND (R158): Vector AND. -/
  | vand (h : Hd) (k : BitVec 3) (d a b : BitVec 6)
  /-- VOR (R158): Vector OR. -/
  | vor (h : Hd) (k : BitVec 3) (d a b : BitVec 6)
  /-- VXOR (R158): Vector XOR. -/
  | vxor (h : Hd) (k : BitVec 3) (d a b : BitVec 6)
  /-- VSHL (R158): Vector shift left. -/
  | vshl (h : Hd) (k : BitVec 3) (d a b : BitVec 6)
  /-- VSHR (R158): Vector logical shift right. -/
  | vshr (h : Hd) (k : BitVec 3) (d a b : BitVec 6)
  /-- VSAR (R158): Vector arithmetic shift right. -/
  | vsar (h : Hd) (k : BitVec 3) (d a b : BitVec 6)
  /-- VMIN (R158): Vector minimum. -/
  | vmin (h : Hd) (k : BitVec 3) (d a b : BitVec 6)
  /-- VMAX (R158): Vector maximum. -/
  | vmax (h : Hd) (k : BitVec 3) (d a b : BitVec 6)
  /-- VABS (R158): Vector absolute value. -/
  | vabs (h : Hd) (k : BitVec 3) (d a : BitVec 6)
  /-- VBFX (R158): Vector bit-field extract. -/
  | vbfx (h : Hd) (k : BitVec 3) (d a b : BitVec 6)
  /-- VBFI (R158): Vector bit-field insert. -/
  | vbfi (h : Hd) (k : BitVec 3) (d a b : BitVec 6)
  /-- VADD_IMM (R159): Vector add of an immediate. -/
  | vaddImm (h : Hd) (d a : BitVec 6) (i : BitVec 9)
  /-- VAND_IMM (R159): Vector AND with an immediate. -/
  | vandImm (h : Hd) (d a : BitVec 6) (i : BitVec 9)
  /-- VOR_IMM (R159): Vector OR with an immediate. -/
  | vorImm (h : Hd) (d a : BitVec 6) (i : BitVec 9)
  /-- VXOR_IMM (R159): Vector XOR with an immediate. -/
  | vxorImm (h : Hd) (d a : BitVec 6) (i : BitVec 9)
  /-- VSHL_IMM (R159): Vector shift left by an immediate. -/
  | vshlImm (h : Hd) (d a : BitVec 6) (i : BitVec 9)
  /-- VSHR_IMM (R159): Vector logical shift right by an immediate. -/
  | vshrImm (h : Hd) (d a : BitVec 6) (i : BitVec 9)
  /-- VSAR_IMM (R159): Vector arithmetic shift right by an immediate. -/
  | vsarImm (h : Hd) (d a : BitVec 6) (i : BitVec 9)
  /-- VMUL_IMM (R159): Vector multiply by an immediate. -/
  | vmulImm (h : Hd) (d a : BitVec 6) (i : BitVec 9)
  /-- VMOV_IMM (R159): Writes an immediate to every active lane. -/
  | vmovImm (h : Hd) (d : BitVec 6) (i : BitVec 9)
  /-- FADD (R161): Binary32 add. -/
  | fadd (h : Hd) (k : BitVec 3) (d a b : BitVec 6)
  /-- FSUB (R161): Binary32 subtract. -/
  | fsub (h : Hd) (k : BitVec 3) (d a b : BitVec 6)
  /-- FMUL (R161): Binary32 multiply. -/
  | fmul (h : Hd) (k : BitVec 3) (d a b : BitVec 6)
  /-- FFMA (R161): Binary32 fused multiply-add. -/
  | ffma (h : Hd) (k : BitVec 3) (d a b : BitVec 6)
  /-- FMIN (R163): Binary32 minimum. -/
  | fmin (h : Hd) (k : BitVec 3) (d a b : BitVec 6)
  /-- FMAX (R163): Binary32 maximum. -/
  | fmax (h : Hd) (k : BitVec 3) (d a b : BitVec 6)
  /-- FABS (R161): Clears the sign bit. -/
  | fabs (h : Hd) (k : BitVec 3) (d a : BitVec 6)
  /-- FRCP (R161): Binary32 reciprocal. -/
  | frcp (h : Hd) (k : BitVec 3) (d a : BitVec 6)
  /-- FRSQ (R161): Binary32 reciprocal square root. -/
  | frsq (h : Hd) (k : BitVec 3) (d a : BitVec 6)
  /-- FSQRT (R161): Binary32 square root. -/
  | fsqrt (h : Hd) (k : BitVec 3) (d a : BitVec 6)
  /-- FDIV (R161): Binary32 divide. -/
  | fdiv (h : Hd) (k : BitVec 3) (d a b : BitVec 6)
  /-- FEXP2 (R161): Binary32 power of two. -/
  | fexp2 (h : Hd) (k : BitVec 3) (d a : BitVec 6)
  /-- FLOG2 (R161): Binary32 base-2 logarithm. -/
  | flog2 (h : Hd) (k : BitVec 3) (d a : BitVec 6)
  /-- FNEG (R161): Inverts the sign bit. -/
  | fneg (h : Hd) (k : BitVec 3) (d a : BitVec 6)
  /-- DADD (R164): Binary64 add on pairs. -/
  | dadd (h : Hd) (k : BitVec 3) (d a b : BitVec 6)
  /-- DSUB (R164): Binary64 subtract. -/
  | dsub (h : Hd) (k : BitVec 3) (d a b : BitVec 6)
  /-- DMUL (R164): Binary64 multiply. -/
  | dmul (h : Hd) (k : BitVec 3) (d a b : BitVec 6)
  /-- DFMA (R164): Binary64 fused multiply-add. -/
  | dfma (h : Hd) (k : BitVec 3) (d a b : BitVec 6)
  /-- DMIN (R164): Binary64 minimum. -/
  | dmin (h : Hd) (k : BitVec 3) (d a b : BitVec 6)
  /-- DMAX (R164): Binary64 maximum. -/
  | dmax (h : Hd) (k : BitVec 3) (d a b : BitVec 6)
  /-- DDIV (R164): Binary64 divide. -/
  | ddiv (h : Hd) (k : BitVec 3) (d a b : BitVec 6)
  /-- DSQRT (R164): Binary64 square root. -/
  | dsqrt (h : Hd) (k : BitVec 3) (d a : BitVec 6)
  /-- HADD2 (R165): Packed half add. -/
  | hadd2 (h : Hd) (k : BitVec 3) (d a b : BitVec 6)
  /-- HSUB2 (R165): Packed half subtract. -/
  | hsub2 (h : Hd) (k : BitVec 3) (d a b : BitVec 6)
  /-- HMUL2 (R165): Packed half multiply. -/
  | hmul2 (h : Hd) (k : BitVec 3) (d a b : BitVec 6)
  /-- HFMA2 (R165): Packed half fused multiply-add. -/
  | hfma2 (h : Hd) (k : BitVec 3) (d a b : BitVec 6)
  /-- HMIN2 (R165): Packed half minimum. -/
  | hmin2 (h : Hd) (k : BitVec 3) (d a b : BitVec 6)
  /-- HMAX2 (R165): Packed half maximum. -/
  | hmax2 (h : Hd) (k : BitVec 3) (d a b : BitVec 6)
  /-- VDOT4 (R166): Adds a four-way byte dot product to each lane. -/
  | vdot4 (h : Hd) (k : BitVec 3) (d a b : BitVec 6)
  /-- CVT (R168): Converts each active lane between formats. -/
  | cvt (h : Hd) (t : BitVec 4) (k : BitVec 3) (d a : BitVec 6) (f : BitVec 4)
  /-- VCMP_EQ (R169): Compares for equality into a mask. -/
  | vcmpEq (h : Hd) (k d : BitVec 3) (a b : BitVec 6)
  /-- VCMP_NE (R169): Compares for inequality into a mask. -/
  | vcmpNe (h : Hd) (k d : BitVec 3) (a b : BitVec 6)
  /-- VCMP_LT (R169): Compares for less-than into a mask. -/
  | vcmpLt (h : Hd) (k d : BitVec 3) (a b : BitVec 6)
  /-- VCMP_LE (R169): Compares for less-or-equal into a mask. -/
  | vcmpLe (h : Hd) (k d : BitVec 3) (a b : BitVec 6)
  /-- VCMP_GT (R169): Compares for greater-than into a mask. -/
  | vcmpGt (h : Hd) (k d : BitVec 3) (a b : BitVec 6)
  /-- VCMP_GE (R169): Compares for greater-or-equal into a mask. -/
  | vcmpGe (h : Hd) (k d : BitVec 3) (a b : BitVec 6)
  /-- VCMP_UN (R169): Tests whether either operand is NaN. -/
  | vcmpUn (h : Hd) (k d : BitVec 3) (a b : BitVec 6)
  /-- VCMP_ORD (R169): Tests whether neither operand is NaN. -/
  | vcmpOrd (h : Hd) (k d : BitVec 3) (a b : BitVec 6)
  /-- VTEST (R169): Tests a AND b for nonzero. -/
  | vtest (h : Hd) (k d : BitVec 3) (a b : BitVec 6)
  /-- VSHUF (R170): Lane shuffle by index. -/
  | vshuf (h : Hd) (k : BitVec 3) (d a b : BitVec 6)
  /-- VBCAST (R170): Broadcasts one lane. -/
  | vbcast (h : Hd) (k : BitVec 3) (d a b : BitVec 6)
  /-- VRED (R173): Reduces the active lanes over a fixed tree into a w register. -/
  | vred (h : Hd) (k : BitVec 3) (d a : BitVec 6) (o : BitVec 4)
  /-- VSCAN (R174): Scans the active lanes over a fixed tree. -/
  | vscan (h : Hd) (k : BitVec 3) (d a : BitVec 6) (e : BitVec 1) (o : BitVec 4)
  /-- VSEL (R170): Selects per lane by a mask. -/
  | vsel (h : Hd) (k : BitVec 3) (d a b : BitVec 6)
  /-- VMOV (R170): Copies a vector register. -/
  | vmov (h : Hd) (k : BitVec 3) (d a : BitVec 6)
  /-- VMOVW (R170): Broadcasts a w register to the lanes. -/
  | vmovw (h : Hd) (k : BitVec 3) (d a : BitVec 6)
  /-- LDG (R213): Lane load from memory. -/
  | ldg (h : Hd) (k : BitVec 3) (d : BitVec 6) (x : BitVec 3) (o : BitVec 6) (e : BitVec 1) (z : BitVec 2)
  /-- LDS (R213): Lane load from scratchpad. -/
  | lds (h : Hd) (k : BitVec 3) (d o : BitVec 6) (e : BitVec 1) (z : BitVec 2)
  /-- LDS_FE (R215): Consuming scratchpad load that waits for full and clears. -/
  | ldsFe (h : Hd) (k : BitVec 3) (d o : BitVec 6) (e : BitVec 1) (z : BitVec 2)
  /-- LDS_FK (R215): Consuming scratchpad load that waits for full and keeps. -/
  | ldsFk (h : Hd) (k : BitVec 3) (d o : BitVec 6) (e : BitVec 1) (z : BitVec 2)
  /-- LDW (R213): Uniform load from memory. -/
  | ldw (h : Hd) (d : BitVec 6) (x : BitVec 3) (o : BitVec 6) (e : BitVec 1) (z : BitVec 2)
  /-- LDWS (R213): Uniform load from scratchpad. -/
  | ldws (h : Hd) (d o : BitVec 6) (e : BitVec 1) (z : BitVec 2)
  /-- PREF (R246): Prefetches lines into L1 and L2, or L2 only. -/
  | pref (h : Hd) (k x : BitVec 3) (o : BitVec 6) (l : BitVec 1)
  /-- STG (R213): Lane store to memory. -/
  | stg (h : Hd) (k : BitVec 3) (d : BitVec 6) (x : BitVec 3) (o : BitVec 6) (z : BitVec 2)
  /-- STS (R213): Lane store to scratchpad. -/
  | sts (h : Hd) (k : BitVec 3) (d o : BitVec 6) (z : BitVec 2)
  /-- STW (R213): Uniform store to memory. -/
  | stw (h : Hd) (d : BitVec 6) (x : BitVec 3) (o : BitVec 6) (z : BitVec 2)
  /-- STWS (R213): Uniform store to scratchpad. -/
  | stws (h : Hd) (d o : BitVec 6) (z : BitVec 2)
  /-- FESET (R216): Sets the full bits of a scratchpad range. -/
  | feset (h : Hd) (d o : BitVec 6)
  /-- FECLR (R216): Clears the full bits of a scratchpad range. -/
  | feclr (h : Hd) (d o : BitVec 6)
  /-- ATOM (R219): Lane atomic that returns the old value. -/
  | atom (h : Hd) (p : BitVec 4) (k : BitVec 3) (d : BitVec 6) (x : BitVec 3) (o : BitVec 6) (y : BitVec 1)
  /-- RED (R219): Lane atomic that returns no value. -/
  | red (h : Hd) (p : BitVec 4) (k : BitVec 3) (d : BitVec 6) (x : BitVec 3) (o : BitVec 6) (y : BitVec 1)
  /-- FENCE (R221): Orders path-L accesses at a scope. -/
  | fence (h : Hd)
  /-- XFENCE (R222): Orders operations on two paths at a scope. -/
  | xfence (h : Hd) (q p : BitVec 3)
  /-- SPFENCE (R223): Waits for scratchpad writes and invalidates the operand cache. -/
  | spfence (h : Hd)
  /-- BINIT (R225): Initialises a bench. -/
  | binit (h : Hd) (d o : BitVec 6)
  /-- BARRIVE (R227): Posts one arrival to a bench. -/
  | barrive (h : Hd) (o : BitVec 6)
  /-- BWAIT (R228): Waits until a bench passes a phase. -/
  | bwait (h : Hd) (d o : BitVec 6)
  /-- SGJOIN (R242): Joins a sharing group and waits until it is full. -/
  | sgjoin (h : Hd) (d : BitVec 6)
  /-- SGLEAVE (R243): Leaves the block's sharing group. -/
  | sgleave (h : Hd)
  /-- CPY (R237): Copies n bytes in granules. -/
  | cpy (h : Hd) (u b : BitVec 6) (k : BitVec 3) (t r : BitVec 2)
  /-- TCPY (R238): Copies one tensor tile. -/
  | tcpy (h : Hd) (u b : BitVec 6) (k : BitVec 3) (t r : BitVec 2)
  /-- GCPY (R239): Gathers rows by an index list. -/
  | gcpy (h : Hd) (u b : BitVec 6) (k : BitVec 3) (t r : BitVec 2)
  /-- SCPY (R240): Scatters rows by an index list. -/
  | scpy (h : Hd) (u b : BitVec 6) (k : BitVec 3) (t r : BitVec 2)
  /-- ISECT (R276): Intersects two sorted streams and writes the matches. -/
  | isect (h : Hd) (d b : BitVec 6) (z : BitVec 2)
  /-- ISECTN (R276): Counts the matches of two sorted streams. -/
  | isectn (h : Hd) (d b : BitVec 6) (z : BitVec 2)
  /-- VCONF (R268): Marks lanes that repeat an earlier lane's index. -/
  | vconf (h : Hd) (k d : BitVec 3) (a : BitVec 6)
  /-- SCATC (R270): Conflict-aware combining scatter. -/
  | scatc (h : Hd) (k : BitVec 3) (d : BitVec 6) (x : BitVec 3) (o : BitVec 6) (y : BitVec 1) (q : BitVec 2)
  /-- MPATH (R272): Merge-path count per lane. -/
  | mpath (h : Hd) (k : BitVec 3) (d a b : BitVec 6)
  /-- VSEGRED (R273): Segmented reduction by keys. -/
  | vsegred (h : Hd) (k : BitVec 3) (d a b : BitVec 6)
  /-- VSEGSCAN (R273): Segmented inclusive scan by keys. -/
  | vsegscan (h : Hd) (k : BitVec 3) (d a b : BitVec 6)
  /-- VCOMPRESS (R274): Packs the active lanes downward. -/
  | vcompress (h : Hd) (k : BitVec 3) (d a : BitVec 6)
  /-- VEXPAND (R274): Spreads low lanes to the active lanes. -/
  | vexpand (h : Hd) (k : BitVec 3) (d a : BitVec 6)
  /-- NRED_ORD (R282): Ordered network reduction contribution. -/
  | nredOrd (h : Hd) (u b : BitVec 6) (o : BitVec 5) (r : BitVec 1)
  /-- NRED_ANY (R282): Unordered network reduction contribution. -/
  | nredAny (h : Hd) (u b : BitVec 6) (o : BitVec 5) (r : BitVec 1)
  /-- MMA (R315): Matrix multiply-accumulate into a tile. -/
  | mma (h : Hd) (t : BitVec 4) (b : BitVec 6) (p : BitVec 1) (n k : BitVec 2) (u : BitVec 1)
  /-- MMA_Z (R315): Matrix multiply into a zeroed tile. -/
  | mmaZ (h : Hd) (t : BitVec 4) (b : BitVec 6) (p : BitVec 1) (n k : BitVec 2) (u : BitVec 1)
  /-- MZERO (R325): Zeroes a tile. -/
  | mzero (h : Hd) (t : BitVec 4) (p : BitVec 1)
  /-- MLOAD (R325): Loads a tile from scratchpad. -/
  | mload (h : Hd) (t : BitVec 4) (b : BitVec 6) (p : BitVec 1)
  /-- MDRAIN (R292): Drains a tile to scratchpad and posts a bench. -/
  | mdrain (h : Hd) (t : BitVec 4) (b : BitVec 6) (p : BitVec 1)
  /-- MPAIR (R317): Reads the block's pairing state. -/
  | mpair (h : Hd) (d : BitVec 6)
  /-- MSTAT (R324): Reads a tile's state, optionally clearing PERMR. -/
  | mstat (h : Hd) (d : BitVec 6) (t : BitVec 4) (l : BitVec 1)
  /-- MPERM (R291): Sets the permutation table for later MMAs. -/
  | mperm (h : Hd) (b : BitVec 6)
  /-- CCLAIM (R308): Claims Chest slots. -/
  | cclaim (h : Hd) (d b : BitVec 6)
  /-- CRELEASE (R309): Returns Chest slots. -/
  | crelease (h : Hd) (b : BitVec 6)
  /-- DINIT (R312): Initialises a drawer over Chest slots. -/
  | dinit (h : Hd) (n : BitVec 4) (b : BitVec 6)
  /-- DSTAT (R313): Snapshots a drawer's state. -/
  | dstat (h : Hd) (d : BitVec 6) (n : BitVec 4)
  /-- SPAWN (R342): Starts a task with region dependences and no future. -/
  | spawn (h : Hd) (d b : BitVec 6)
  /-- SPAWNF (R334): Starts a task with a future. -/
  | spawnf (h : Hd) (d b : BitVec 6)
  /-- FREF (R345): Adds a consumer to a future. -/
  | fref (h : Hd) (b : BitVec 6)
  /-- FDROP (R336): Drops a consumer of a future, possibly reclaiming its task. -/
  | fdrop (h : Hd) (b : BitVec 6)
  /-- FWAIT (R336): Waits for a future's value. -/
  | fwait (h : Hd) (d b : BitVec 6)
  /-- FPOLL (R346): Reads a future's state and value without waiting. -/
  | fpoll (h : Hd) (d b : BitVec 6)
  /-- RPOINT (R337): Reclamation point. -/
  | rpoint (h : Hd)
  /-- BINPOST (R350): Posts a record to a bin. -/
  | binpost (h : Hd) (wh b : BitVec 6) (n : BitVec 3) (l : BitVec 1)
  /-- SEND (R331): Appends a message to a port. -/
  | send (h : Hd) (p b : BitVec 6)
  /-- SENDT (R360): Tries to append a message and reports refusal. -/
  | sendt (h : Hd) (d b : BitVec 6)
  /-- RECV (R331): Waits for and takes a port's oldest message. -/
  | recv (h : Hd) (d p : BitVec 6)
  /-- PATSET (R331): Activates a join pattern over ports. -/
  | patset (h : Hd) (d b : BitVec 6)
  /-- PORTOPEN (R331): Opens a port on a die's Hutch. -/
  | portopen (h : Hd) (d b : BitVec 6)
  /-- QCREATE (R353): Creates a queue. -/
  | qcreate (h : Hd) (d b : BitVec 6)
  /-- QCREATE_FREE (R353): Frees a queue. -/
  | qcreateFree (h : Hd) (b : BitVec 6)
  /-- QPUSH (R354): Pushes an entry onto a queue. -/
  | qpush (h : Hd) (d b : BitVec 6)
  /-- QPOP (R355): Waits for and takes a queue entry. -/
  | qpop (h : Hd) (d b : BitVec 6)
  /-- NRES (R143): Writes the node's own Shelf entry dword. -/
  | nres (h : Hd) (a : BitVec 6) (w : BitVec 3)
  /-- NRES_K (R143): Writes a child's Shelf entry dword. -/
  | nresK (h : Hd) (a : BitVec 6) (p : BitVec 4) (w : BitVec 3)
  /-- NCHILD (R143): Reads a child's Shelf entry dword. -/
  | nchild (h : Hd) (d : BitVec 6) (p : BitVec 4) (w : BitVec 3)
  /-- NPARENT (R143): Reads the node's own Shelf entry dword. -/
  | nparent (h : Hd) (d : BitVec 6) (w : BitVec 3)
  /-- RDC (R127): Reads a control register into a w register. -/
  | rdc (h : Hd) (d a : BitVec 6)
  /-- RDC_V (R127): Reads a control register into the lanes of m0. -/
  | rdcV (h : Hd) (d a : BitVec 6)
  /-- WRC (R127): Writes a control register. -/
  | wrc (h : Hd) (d a : BitVec 6)
  /-- RGIVE (R129): Gives register slabs to the block pool. -/
  | rgive (h : Hd) (b : BitVec 6)
  /-- RCLAIM (R129): Claims register slabs from the pool. -/
  | rclaim (h : Hd) (b : BitVec 6)
  /-- BAR (R131): Block barrier. -/
  | bar (h : Hd)
  /-- LAUNCH_FLAT (R136): Launches a flat grid of blocks. -/
  | launchFlat (h : Hd) (d a : BitVec 6) (p g : BitVec 1)
  /-- LAUNCH_TREE (R136): Hands a tree launch to the Hallstand. -/
  | launchTree (h : Hd) (d a : BitVec 6) (p g : BitVec 1)
  /-- LAUNCH_BIN (R349): Opens a work bin launch. -/
  | launchBin (h : Hd) (d a : BitVec 6) (p g : BitVec 1)
  /-- LVLWAIT (R139): Waits for a level instance to complete. -/
  | lvlwait (h : Hd) (d a : BitVec 6)
  /-- LVLWAIT_POLL (R139): Reads a level instance's status without waiting. -/
  | lvlwaitPoll (h : Hd) (d a : BitVec 6)
  /-- LVLCANCEL (R140): Cancels a level instance and all below it. -/
  | lvlcancel (h : Hd) (a : BitVec 6)
  /-- EXIT (R141): Ends the team. -/
  | exit (h : Hd)
  /-- XLAT (R244): Translates a virtual address into a translation register. -/
  | xlat (h : Hd) (d : BitVec 3) (a : BitVec 6)
  /-- XINV (R245): Invalidates translations over a range. -/
  | xinv (h : Hd) (a b : BitVec 6)
  /-- EXTN (R112): Executes an extension feature word, or traps with NOFEAT. -/
  | extn (h : Hd) (f : BitVec 7) (n : BitVec 4) (d a : BitVec 6) (k : BitVec 1)
  /-- RUN_BOUND_WRITE (R91): A run-bound result is written once its latency has passed, and a team's SWITCH park ends when the last result of its run is written. -/
  | runBoundWrite (r : TRef)
  /-- ACCESS_PERFORMED (R221): An issued store, atomic without return, message or other path-L access is performed at its scope, and this releases FENCE and XFENCE parks and lets a block end. -/
  | accessPerformed (r : TRef) (n : Nat)
  /-- DAWN (R453): On power-on, the dies run the boot steps in order: ROM, firmware verification and copy, measurement, topology, features, and the start of the Bureaus. -/
  | dawn
  /-- I3C_REQUEST (R460): A request on the board management bus reads status, the identity key or sensors, or queues a request for die 0's firmware. -/
  | i3cRequest
  /-- PAGE_MIGRATION_LINE (R207): One line of a migrating page is copied, and its home switches to the destination indivisibly. -/
  | pageMigrationLine
  /-- HOST_ACCESS (R419): A host access through the PHL reads or writes a local address, or receives an error completion. -/
  | hostAccess
  /-- FABRIC_REMOTE_ACCESS (R423): An access to a remote module is performed at the line's home, and its reply returns. -/
  | fabricRemoteAccess
  /-- POST (R420): A dword write to a port window posts a message, or is refused or lost and counted. -/
  | post
  /-- PAGERDY (R421): A write to PAGERDY retries the context's logged entries on that page. -/
  | pagerdy
  /-- TERMQ (R421): A read of TERMQ takes the oldest ended-context entry. -/
  | termq
  /-- TERMACK (R407): A write acknowledges a termination report and frees the owner tag. -/
  | termack
  /-- INVLEN (R201): A write to INVLEN starts an invalidation of a range for a context across the module. -/
  | invlen
  /-- ROUTING_TABLE_WRITE (R425): A write to a routing-table entry takes effect once earlier accesses to that module are acknowledged. -/
  | routingTableWrite
  /-- MODID (R426): A write to MODID sets the system identifier and pod index before the topology step. -/
  | modid
  /-- SENSOR_SAMPLE (R370): Every 10 µs a sensor samples into SENS and may set its ALRT bit. -/
  | sensorSample
  /-- TICK (R370): A write to TICK starts, restarts or stops the countdown. -/
  | tick
  /-- ALERT (R370): A write to ALERT sets the alert threshold and re-arms the first-sample alert. -/
  | alert
  /-- ISTAT (R370): A W1C write clears the written interrupt status bits. -/
  | istat
  /-- THROT (R371): A write to THROT sets the die's issue-throttle level. -/
  | throt
  /-- EVSTAT (R457): A W1C write clears management event status bits. -/
  | evstat
  /-- TERMB (R457): A read of TERMB takes the oldest ended-context entry. -/
  | termb
  /-- SIGNCTL (R456): A write to SIGNCTL starts signing the statement at the given SRAM offset. -/
  | signctl
  /-- SIGN_COMPLETE (R457): The signing engine writes the signature and clears BUSY. -/
  | signComplete
  /-- PART (R458): A write to PART sets or clears a core's partition owner, unless it is discarded. -/
  | part
  /-- UNCORRECTABLE_ERROR (R404): An uncorrectable error ends the contexts that R404 names and repairs or poisons the entry. -/
  | uncorrectableError
  /-- VCTL (R437): A write to VCTL starts or stops capture and sets the trigger sources. -/
  | vctl
  /-- SAMPCTL (R432): A write to SAMPCTL sets sampling and restarts every count. -/
  | sampctl
  /-- BLKID1_STOP (R443): A BLKID1 write with CMD 1 stops the named block. -/
  | blkid1Stop
  /-- BLKID1_RESUME (R443): A BLKID1 write with CMD 2 resumes the named block. -/
  | blkid1Resume
  /-- REGISTER_WRITE (R8): A write to a register with no behaviour of its own sets its fields. -/
  | registerWrite
  /-- BRK (R389): Raises BREAK, or stops the block when stop-on-break is set. -/
  | brk
  /-- CONTEXT_CREATION (R37): System software creates a context: its job instance and phase 0, page-table root, trap and report areas, accepted feature words, host port with its pattern, and pager port. -/
  | contextCreation
  /-- CONTEXT_END (R42): A context ends other than by an error, and its job slot, ports, patterns and remaining network-reduction state are reclaimed. -/
  | contextEnd
  deriving DecidableEq, Repr

end Sys2Proof
end

