-- ==== Sys2Proof/WellFormed.lean ====
section
/-! DEFINITION. Which instruction words are legal by themselves: the modifiers a word accepts (R102, R103, R156, R218,
R267, R305, R340), the parity of pair operands (R97, R154) and the register bounds each word states. What fails here
raises ILLOP at the word (R107). The C bit of a word that must end its chain is checked here too (R87). -/

namespace Sys2Proof

/-- Format codes of the 64-bit types: .s64, .n64 and .b64, .f64 (R106, R154). -/
def is64 (t : BitVec 4) : Bool := t = 6#4 || t = 7#4 || t = 11#4

/-- Format codes of the signed integer types (R106). -/
def isSigned (t : BitVec 4) : Bool := t = 0#4 || t = 2#4 || t = 4#4 || t = 6#4

/-- Format codes of floating-point types that CVT and the vector words take (R106). -/
def isFloat (t : BitVec 4) : Bool := 8#4 ≤ t && t ≤ 13#4

/-- The type of a word: the prefix's TYPE, else the default (R156). -/
def Hd.ty (h : Hd) (d : BitVec 4) : BitVec 4 :=
  match h.md with
  | some m => m.ty.getD d
  | none => d

/-- The RND field that applies to a word: 0 without a prefix (R181). -/
def Hd.rnd (h : Hd) : BitVec 3 := match h.md with | some m => m.rnd | none => 0#3

/-- The SAT field that applies to a word. -/
def Hd.sat (h : Hd) : Bool := match h.md with | some m => m.sat | none => false

/-- The scope that a prefix supplies (R214). -/
def Hd.sc (h : Hd) : Option (BitVec 3) := match h.md with | some m => m.sc | none => none

/-- The overriding governing mask of a class 7 word (R101), m0 without one. -/
def Hd.mk0 (h : Hd) : BitVec 3 := match h.md with | some m => m.mv.getD 0#3 | none => 0#3

/-- What a word accepts from its prefixes. -/
structure Acc where
  /-- Whether any prefix may stand before the word. -/
  pf : Bool := true
  /-- The default type, which a TYPE may repeat. -/
  dflt : Option (BitVec 4) := none
  /-- The other accepted TYPE codes. -/
  tys : List (BitVec 4) := []
  rnd : Bool := false
  sat : Bool := false
  /-- Whether SV is accepted, and whether SCOPE 7 is. -/
  sv : Bool := false
  sv7 : Bool := false
  mv : Bool := false
  im : Bool := false
  deriving DecidableEq, Repr

/-- Whether a modifier prefix is accepted (R103). -/
def modOk (a : Acc) (m : ModPfx) : Bool :=
  a.pf && (m.mv.isNone || a.mv)
  && (match m.ty with | none => true | some t => a.dflt = some t || a.tys.contains t)
  && (m.rnd = 0#3 || (m.rnd ≤ 4#3 && a.rnd))
  && (!m.sat || a.sat)
  && (match m.sc with | none => true | some s => a.sv && (s ≠ 7#3 || a.sv7))

/-- Whether a word's header is accepted (R102, R103). -/
def hdOk (a : Acc) (h : Hd) : Bool :=
  (match h.md with | none => true | some m => modOk a m) && (h.im.isNone || (a.pf && a.im))

/-- An even register where the type is 64-bit (R97, R154). -/
def pairOk (w : Bool) (r : BitVec 6) : Bool := !w || r.toNat % 2 = 0

/-- Three pair operands. -/
def pair3 (w : Bool) (d a b : BitVec 6) : Bool := pairOk w d && pairOk w a && pairOk w b

/-- A word whose chain it must end: C is 0 (R87). -/
def last (h : Hd) : Bool := !h.c

/-- Accepts nothing but a prefix of zero fields. -/
def acc0 : Acc := {}
/-- Accepts no prefix at all (R305, R340). -/
def accE : Acc := { pf := false }
/-- A memory word's acceptance: an immediate prefix, and a scope where the word takes one. -/
def accM (sv : Bool) : Acc := { sv := sv, im := true }

/-- VINT, fn 0 to 11 (R156). -/
def accVint (sat : Bool) : Acc := { dflt := some 4#4, tys := [5#4, 6#4, 7#4], sat := sat }
/-- VIMM (R156). -/
def accVimm (sat : Bool) : Acc := { dflt := some 4#4, tys := [5#4], sat := sat, mv := true, im := true }
/-- VF32 (R156). -/
def accF (rnd : Bool) : Acc := { dflt := some 10#4, rnd := rnd }
/-- VF64 (R156). -/
def accD (rnd : Bool) : Acc := { dflt := some 11#4, rnd := rnd }
/-- VH16, fn 0 to 5 (R156). -/
def accH (rnd : Bool) : Acc := { dflt := some 8#4, tys := [9#4], rnd := rnd }
/-- VCMP (R156). -/
def accCmp : Acc := { dflt := some 4#4, tys := [5#4, 6#4, 7#4, 10#4, 11#4] }
/-- VLANE words that take .b64 (R156). -/
def accL : Acc := { dflt := some 5#4, tys := [7#4] }
/-- VSEGRED, VSEGSCAN and SCATC (R267). -/
def accSeg (rnd : Bool) : Acc := { dflt := some 4#4, tys := [5#4, 6#4, 7#4, 10#4, 11#4], rnd := rnd }

/-- CVT (R156, R168): the destination code `t`, the source code `f`. R156 accepts everywhere a TYPE equal to the default and says
that CVT's default is set by the word itself; that it is the destination's code, and not the source's, is the model's choice
(log entry 102). -/
def accCvt (t f : BitVec 4) : Acc :=
  { dflt := some t
    rnd := isFloat t || isFloat f
    sat := t ≤ 7#4 || (t ≠ f && (t = 8#4 || t = 9#4 || t = 10#4 || t = 13#4)) }

/-- The default type of an atomic (R218). -/
def atomDflt (p : BitVec 4) : BitVec 4 := if 8#4 ≤ p then 10#4 else 5#4

/-- ATOM and RED (R218). -/
def accAtom (p : BitVec 4) : Acc :=
  { dflt := some (atomDflt p)
    tys := if p ≤ 2#4 then [4#4, 5#4, 6#4, 7#4] else if p ≤ 7#4 then [5#4, 7#4] else [10#4, 11#4]
    sv := true, im := true }

/-- The data register of an atomic: a pair for 64-bit types, and the blocks of cas (R219). -/
def atomData (p t : BitVec 4) (d : BitVec 6) : Bool :=
  if p = 7#4 then (if is64 t then d.toNat % 4 = 0 else d.toNat % 2 = 0) else pairOk (is64 t) d

/-- Whether the operation of VRED and VSCAN is a 64-bit one (R172). -/
def laneOp64 (o : BitVec 4) : Bool := 11#4 ≤ o && o ≤ 14#4

/-- The operation of VRED and VSCAN that rounds (R156). -/
def accLaneOp (o : BitVec 4) : Acc := { dflt := some 5#4, rnd := o = 8#4 || o = 12#4 }

/-- SIZE and SX of a load (R212); `lane` for a lane form. -/
def sizeOk (lane : Bool) (e : BitVec 1) (z : BitVec 2) (d : BitVec 6) : Bool :=
  !(e = 1#1 && z = 3#2) && !(e = 1#1 && z = 2#2 && lane) && (!lane || pairOk (z = 3#2) d)

/-- Whether DIR, TK and the operand block of a copy word are accepted (R229). `f` is 0 CPY, 1 TCPY, 2 GCPY, 3 SCPY. -/
def copyOk (f : Nat) (b : BitVec 6) (t r : BitVec 2) : Bool :=
  (match f with
   | 0 => (r = 0#2 && t ≠ 3#2) || (r = 1#2 && (t = 0#2 || t = 2#2)) || (r = 2#2 && t = 0#2)
   | 1 => (r = 0#2 && t ≠ 3#2) || (r = 1#2 && (t = 0#2 || t = 2#2))
   | 2 => r = 0#2 && t ≠ 3#2
   | _ => r = 1#2 && (t = 0#2 || t = 2#2))
  && b.toNat + (match f with | 0 => 3 | 1 => 4 | _ => 5) ≤ 63

/-- MMA and MMA.z: the operand block, NC and KI (R289). -/
def mmaOk (b : BitVec 6) (n k : BitVec 2) : Bool := b ≤ 61#6 && n ≠ 3#2 && k ≠ 3#2

/-- The legality of an instruction by itself. The steps of the part are no words, and are always well formed. -/
def Instr.wf : Instr → Bool
  | .nop h => hdOk acc0 h
  | .trap h _ | .tret h | .trig h _ _ | .wfi h | .cswap h _ _ | .dusk h _ _ | .duskRet h _ _ | .sample h =>
    hdOk acc0 h && last h
  | .brk => true
  | .uadd h _ _ _ | .usub h _ _ _ | .umul h _ _ _ | .uand h _ _ _ | .uor h _ _ _ | .uxor h _ _ _
  | .ushl h _ _ _ | .ushr h _ _ _ | .usar h _ _ _ | .ubfi h _ _ _ => hdOk acc0 h
  | .umulh h _ _ _ _ | .umin h _ _ _ _ | .umax h _ _ _ _ | .ucmp h _ _ _ _ | .ubfx h _ _ _ _ => hdOk acc0 h
  | .uaddImm h _ _ _ | .uandImm h _ _ _ | .uorImm h _ _ _ | .uxorImm h _ _ _ | .ushlImm h _ _ _
  | .ushrImm h _ _ _ | .usarImm h _ _ _ | .umulImm h _ _ _ => hdOk { im := true } h
  | .ului h _ _ => hdOk { im := true } h
  | .jmp h _ | .recon h => hdOk acc0 h && last h
  | .call h _ _ | .bruZ h _ _ | .bruNz h _ _ | .bruNeg h _ _ | .bruNneg h _ _ => hdOk acc0 h && last h
  | .ret h _ => hdOk acc0 h && last h
  | .brmAny h _ _ | .brmAll h _ _ | .brmNone h _ _ | .vbr h _ _ => hdOk acc0 h && last h
  | .mand h l _ a _ | .mor h l _ a _ | .mxor h l _ a _ | .mandn h l _ a _ =>
    hdOk acc0 h && (l = 0#1 || a = 0#3)
  | .mlead h _ _ => hdOk acc0 h
  | .mfirst h _ _ | .mcount h _ _ => hdOk acc0 h
  | .msetw h _ _ _ => hdOk acc0 h
  | .mgetw h _ _ _ => hdOk acc0 h
  | .vadd h _ d a b | .vsub h _ d a b | .vmul h _ d a b =>
    hdOk (accVint (!is64 (h.ty 4#4))) h && pair3 (is64 (h.ty 4#4)) d a b
  | .vmulh h _ d a b | .vand h _ d a b | .vor h _ d a b | .vxor h _ d a b | .vshl h _ d a b | .vshr h _ d a b
  | .vsar h _ d a b | .vmin h _ d a b | .vmax h _ d a b =>
    hdOk (accVint false) h && pair3 (is64 (h.ty 4#4)) d a b
  | .vabs h _ _ _ => hdOk { dflt := some 4#4, sat := true } h
  | .vbfx h _ _ _ _ | .vbfi h _ _ _ _ => hdOk { dflt := some 4#4, tys := [5#4] } h
  | .vaddImm h _ _ _ | .vmulImm h _ _ _ => hdOk (accVimm true) h
  | .vandImm h _ _ _ | .vorImm h _ _ _ | .vxorImm h _ _ _ | .vshlImm h _ _ _ | .vshrImm h _ _ _
  | .vsarImm h _ _ _ => hdOk (accVimm false) h
  | .vmovImm h _ _ => hdOk (accVimm false) h
  | .fadd h _ _ _ _ | .fsub h _ _ _ _ | .fmul h _ _ _ _ | .ffma h _ _ _ _ | .fdiv h _ _ _ _ =>
    hdOk (accF true) h
  | .fmin h _ _ _ _ | .fmax h _ _ _ _ => hdOk (accF false) h
  | .fabs h _ _ _ | .fneg h _ _ _ => hdOk (accF false) h
  | .frcp h _ _ _ | .frsq h _ _ _ | .fsqrt h _ _ _ | .fexp2 h _ _ _ | .flog2 h _ _ _ => hdOk (accF true) h
  | .dadd h _ d a b | .dsub h _ d a b | .dmul h _ d a b | .dfma h _ d a b | .ddiv h _ d a b =>
    hdOk (accD true) h && pair3 true d a b
  | .dmin h _ d a b | .dmax h _ d a b => hdOk (accD false) h && pair3 true d a b
  | .dsqrt h _ d a => hdOk (accD true) h && pairOk true d && pairOk true a
  | .hadd2 h _ _ _ _ | .hsub2 h _ _ _ _ | .hmul2 h _ _ _ _ | .hfma2 h _ _ _ _ => hdOk (accH true) h
  | .hmin2 h _ _ _ _ | .hmax2 h _ _ _ _ => hdOk (accH false) h
  | .vdot4 h _ _ _ _ => hdOk { dflt := some 0#4, tys := [1#4], sat := true } h
  | .cvt h t _ d a f =>
    hdOk (accCvt t f) h && t ≤ 13#4 && f ≤ 13#4 && pairOk (is64 t) d && pairOk (is64 f) a
  | .vcmpEq h _ _ a b | .vcmpNe h _ _ a b | .vcmpLt h _ _ a b | .vcmpLe h _ _ a b | .vcmpGt h _ _ a b
  | .vcmpGe h _ _ a b => hdOk accCmp h && pairOk (is64 (h.ty 4#4)) a && pairOk (is64 (h.ty 4#4)) b
  | .vcmpUn h _ _ a b | .vcmpOrd h _ _ a b =>
    hdOk accCmp h && isFloat (h.ty 4#4) && pairOk (is64 (h.ty 4#4)) a && pairOk (is64 (h.ty 4#4)) b
  | .vtest h _ _ _ _ => hdOk { dflt := some 4#4 } h
  | .vshuf h _ d a _ => hdOk accL h && pairOk (is64 (h.ty 5#4)) d && pairOk (is64 (h.ty 5#4)) a
  | .vbcast h _ d a _ => hdOk accL h && pairOk (is64 (h.ty 5#4)) d && pairOk (is64 (h.ty 5#4)) a
  | .vred h _ _ a o => hdOk (accLaneOp o) h && o ≠ 15#4 && pairOk (laneOp64 o) a
  | .vscan h _ d a _ o => hdOk (accLaneOp o) h && o ≠ 15#4 && pairOk (laneOp64 o) d && pairOk (laneOp64 o) a
  | .vsel h _ d a b => hdOk accL h && pair3 (is64 (h.ty 5#4)) d a b
  | .vmov h _ d a => hdOk accL h && pairOk (is64 (h.ty 5#4)) d && pairOk (is64 (h.ty 5#4)) a
  | .vmovw h _ d _ => hdOk accL h && pairOk (is64 (h.ty 5#4)) d
  | .ldg h _ d _ _ e z => hdOk (accM true) h && sizeOk true e z d
  | .lds h _ d _ e z => hdOk (accM true) h && sizeOk true e z d
  | .ldsFe h _ d _ e z | .ldsFk h _ d _ e z => hdOk (accM true) h && last h && sizeOk true e z d
  | .ldw h d _ _ e z => hdOk (accM true) h && sizeOk false e z d
  | .ldws h d _ e z => hdOk (accM true) h && sizeOk false e z d
  | .pref h _ _ _ _ => hdOk (accM false) h
  | .stg h _ d _ _ z => hdOk (accM true) h && pairOk (z = 3#2) d
  | .sts h _ d _ z => hdOk (accM true) h && pairOk (z = 3#2) d
  | .stw h _ _ _ _ => hdOk (accM true) h
  | .stws h _ _ _ => hdOk (accM true) h
  | .feset h _ _ | .feclr h _ _ => hdOk (accM false) h
  | .atom h p _ d x _ y =>
    hdOk (accAtom p) h && p ≤ 10#4 && (y = 0#1 || x = 0#3) && atomData p (h.ty (atomDflt p)) d
  | .red h p _ d x _ y =>
    hdOk (accAtom p) h && p ≤ 10#4 && p ≠ 6#4 && p ≠ 7#4 && (y = 0#1 || x = 0#3)
      && atomData p (h.ty (atomDflt p)) d
  | .fence h => hdOk { sv := true, sv7 := true } h
  | .xfence h q p => hdOk { sv := true, sv7 := true } h && q ≤ 5#3 && p ≤ 5#3
  | .spfence h => hdOk acc0 h
  | .binit h _ _ => hdOk (accM false) h
  | .barrive h _ => hdOk (accM false) h
  | .bwait h _ _ => hdOk (accM false) h && last h
  | .sgjoin h _ => hdOk acc0 h && last h
  | .sgleave h => hdOk acc0 h
  | .cpy h _ b _ t r => hdOk acc0 h && copyOk 0 b t r
  | .tcpy h _ b _ t r => hdOk acc0 h && copyOk 1 b t r
  | .gcpy h _ b _ t r => hdOk acc0 h && copyOk 2 b t r
  | .scpy h _ b _ t r => hdOk acc0 h && copyOk 3 b t r
  | .isect h _ b z => hdOk { dflt := some (if z = 2#2 then 5#4 else 7#4) } h && b ≤ 61#6 && 2#2 ≤ z
  | .isectn h _ b z => hdOk { dflt := some (if z = 2#2 then 5#4 else 7#4) } h && b ≤ 62#6 && 2#2 ≤ z
  | .vconf h _ _ _ => hdOk { dflt := some 5#4 } h
  | .scatc h _ d x _ y q =>
    hdOk (accSeg (isFloat (h.ty 4#4) && q = 1#2)) h && (y = 0#1 || x = 0#3) && pairOk (is64 (h.ty 4#4)) d
  | .mpath h _ _ _ _ => hdOk { dflt := some 4#4 } h
  | .vsegred h _ d a _ | .vsegscan h _ d a _ =>
    hdOk (accSeg (isFloat (h.ty 4#4))) h && pairOk (is64 (h.ty 4#4)) d && pairOk (is64 (h.ty 4#4)) a
  | .vcompress h _ d a | .vexpand h _ d a =>
    hdOk accL h && pairOk (is64 (h.ty 5#4)) d && pairOk (is64 (h.ty 5#4)) a
  | .nredOrd h u b o _ | .nredAny h u b o _ => hdOk acc0 h && u ≤ 62#6 && b ≤ 62#6 && o ≤ 16#5
  | .mma h _ b _ n k _ | .mmaZ h _ b _ n k _ => hdOk accE h && mmaOk b n k
  | .mzero h _ _ => hdOk accE h
  | .mload h _ b _ | .mdrain h _ b _ => hdOk accE h && b ≤ 62#6
  | .mpair h _ => hdOk accE h
  | .mstat h _ _ _ => hdOk accE h
  | .mperm h _ => hdOk accE h
  | .cclaim h _ _ => hdOk accE h
  | .crelease h _ => hdOk accE h
  | .dinit h _ _ => hdOk accE h
  | .dstat h _ _ => hdOk accE h
  | .spawn h _ b | .spawnf h _ b => hdOk accE h && b ≤ 62#6
  | .fref h _ | .fdrop h _ => hdOk accE h
  | .fwait h _ _ => hdOk accE h && last h
  | .fpoll h d _ => hdOk accE h && d ≤ 62#6
  | .rpoint h => hdOk accE h && last h
  | .binpost h _ b n _ => hdOk accE h && b.toNat + n.toNat ≤ 63
  | .send h _ _ => hdOk accE h
  | .sendt h _ b => hdOk accE h && b ≤ 62#6
  | .recv h _ _ => hdOk accE h && last h
  | .patset h _ _ | .portopen h _ _ => hdOk accE h
  | .qcreate h _ b => hdOk accE h && b ≤ 62#6
  | .qcreateFree h _ => hdOk accE h
  | .qpush h _ _ => hdOk accE h
  | .qpop h _ _ => hdOk accE h && last h
  | .nres h _ _ => hdOk acc0 h
  | .nresK h _ _ _ | .nchild h _ _ _ => hdOk acc0 h
  | .nparent h _ _ => hdOk acc0 h
  | .rdc h _ a => hdOk acc0 h && a ≠ 0#6 && a ≤ 26#6
  | .rdcV h _ a => hdOk acc0 h && a ≤ 26#6
  | .wrc h d _ => hdOk acc0 h && d ≤ 26#6
  | .rgive h b | .rclaim h b => hdOk acc0 h && 1#6 ≤ b && b ≤ 7#6
  | .bar h | .exit h => hdOk acc0 h && last h
  | .launchFlat h _ _ _ _ | .launchTree h _ _ _ _ | .launchBin h _ _ _ _ => hdOk acc0 h
  | .lvlwait h _ _ | .lvlwaitPoll h _ _ => hdOk acc0 h && last h
  | .lvlcancel h _ => hdOk acc0 h
  | .xlat h _ _ => hdOk acc0 h
  | .xinv h _ _ => hdOk acc0 h
  | .extn h _ _ _ _ _ => !h.c && h.md.isNone && h.im.isNone
  | .dawn | .i3cRequest | .blockPlacement _ | .blockEnd _ | .census _ | .shelfReservation _ | .nodeDispatch _
  | .sweepEnd _ | .stealRequest _ | .stealReply _ | .donatedDispatchArrival _ | .resultArrival _ _
  | .trapEntry _ | .interruptEntry _ | .logRetry _ _ | .drawerReservation _ | .copyCompletion _ | .mmaTake _
  | .tileOpPerform _ _ | .cclaimGrant _ | .rclaimGrant _ | .nredContributionArrival _ | .patternFiring _
  | .heldMessageAppend _ _ | .binTimerExpiry _ _ | .pageMigrationLine | .hostAccess | .fabricRemoteAccess
  | .post | .pagerdy | .termq | .termack | .invlen | .invalidationDone _ | .routingTableWrite | .modid
  | .sensorSample | .tickExpiry _ | .tick | .alert | .istat | .throt | .evstat | .termb | .signctl
  | .signComplete | .part | .uncorrectableError | .vctl | .sampctl | .blkid1Stop | .blkid1Resume
  | .stopComplete _ | .hangWatchdogExpiry _ _ | .duskResume _ | .registerWrite | .contextCreation
  | .contextEnd | .runBoundWrite _ | .accessPerformed _ _ => true

end Sys2Proof
end

