-- ==== Sys2Proof/Decode.lean ====
section
/-! DEFINITION. Decoding: from bytes to words, from words to an instruction or a refusal by name, total on any bytes
(R85, R98 to R110); and, after it, the encoder, written from the same tables of the spec. -/

namespace Sys2Proof

/-- Why words are no instruction: the trap that the spec raises for them (R107), or too few bytes. -/
inductive Reject where
  | illop
  | illpkt
  | short
  deriving DecidableEq, Repr

/-- The outcome of decoding. -/
inductive Decoded where
  | ok (i : Instr)
  | bad (r : Reject)
  deriving DecidableEq, Repr

/-- The fields of format A (R98). -/
structure FA where
  fn : BitVec 4
  sub : BitVec 3
  d : BitVec 6
  a : BitVec 6
  b : BitVec 6
  deriving DecidableEq, Repr

/-- A word's body split as format A (R98). -/
def splitA (w : Word) : FA :=
  { fn := w.extractLsb' 21 4, sub := w.extractLsb' 18 3, d := w.extractLsb' 12 6, a := w.extractLsb' 6 6, b := w.extractLsb' 0 6 }

/-- A word of format A put together from its fields (R85, R98). -/
def joinA (c s : Bool) (cls : BitVec 5) (fn : BitVec 4) (sub : BitVec 3) (d : BitVec 6) (a : BitVec 6) (b : BitVec 6) : Word :=
  ((BitVec.ofBool c ++ BitVec.ofBool s ++ cls ++ fn ++ sub ++ d ++ a ++ b) : BitVec 32)

/-- The fields of format I (R98). -/
structure FI where
  fn : BitVec 4
  d : BitVec 6
  a : BitVec 6
  imm : BitVec 9
  deriving DecidableEq, Repr

/-- A word's body split as format I (R98). -/
def splitI (w : Word) : FI :=
  { fn := w.extractLsb' 21 4, d := w.extractLsb' 15 6, a := w.extractLsb' 9 6, imm := w.extractLsb' 0 9 }

/-- A word of format I put together from its fields (R85, R98). -/
def joinI (c s : Bool) (cls : BitVec 5) (fn : BitVec 4) (d : BitVec 6) (a : BitVec 6) (imm : BitVec 9) : Word :=
  ((BitVec.ofBool c ++ BitVec.ofBool s ++ cls ++ fn ++ d ++ a ++ imm) : BitVec 32)

/-- The fields of format L (R98). -/
structure FL where
  d : BitVec 6
  imm : BitVec 19
  deriving DecidableEq, Repr

/-- A word's body split as format L (R98). -/
def splitL (w : Word) : FL :=
  { d := w.extractLsb' 19 6, imm := w.extractLsb' 0 19 }

/-- A word of format L put together from its fields (R85, R98). -/
def joinL (c s : Bool) (cls : BitVec 5) (d : BitVec 6) (imm : BitVec 19) : Word :=
  ((BitVec.ofBool c ++ BitVec.ofBool s ++ cls ++ d ++ imm) : BitVec 32)

/-- The fields of format B (R98). -/
structure FB where
  fn : BitVec 4
  sub : BitVec 3
  off : BitVec 18
  deriving DecidableEq, Repr

/-- A word's body split as format B (R98). -/
def splitB (w : Word) : FB :=
  { fn := w.extractLsb' 21 4, sub := w.extractLsb' 18 3, off := w.extractLsb' 0 18 }

/-- A word of format B put together from its fields (R85, R98). -/
def joinB (c s : Bool) (cls : BitVec 5) (fn : BitVec 4) (sub : BitVec 3) (off : BitVec 18) : Word :=
  ((BitVec.ofBool c ++ BitVec.ofBool s ++ cls ++ fn ++ sub ++ off) : BitVec 32)

/-- The fields of format BW (R98). -/
structure FBW where
  fn : BitVec 4
  w : BitVec 6
  off : BitVec 15
  deriving DecidableEq, Repr

/-- A word's body split as format BW (R98). -/
def splitBW (w : Word) : FBW :=
  { fn := w.extractLsb' 21 4, w := w.extractLsb' 15 6, off := w.extractLsb' 0 15 }

/-- A word of format BW put together from its fields (R85, R98). -/
def joinBW (c s : Bool) (cls : BitVec 5) (fn : BitVec 4) (w : BitVec 6) (off : BitVec 15) : Word :=
  ((BitVec.ofBool c ++ BitVec.ofBool s ++ cls ++ fn ++ w ++ off) : BitVec 32)

/-- The fields of format M (R98). -/
structure FM where
  fn : BitVec 4
  sub : BitVec 3
  data : BitVec 6
  x : BitVec 3
  off : BitVec 6
  qual : BitVec 3
  deriving DecidableEq, Repr

/-- A word's body split as format M (R98). -/
def splitM (w : Word) : FM :=
  { fn := w.extractLsb' 21 4, sub := w.extractLsb' 18 3, data := w.extractLsb' 12 6, x := w.extractLsb' 9 3, off := w.extractLsb' 3 6, qual := w.extractLsb' 0 3 }

/-- A word of format M put together from its fields (R85, R98). -/
def joinM (c s : Bool) (cls : BitVec 5) (fn : BitVec 4) (sub : BitVec 3) (data : BitVec 6) (x : BitVec 3) (off : BitVec 6) (qual : BitVec 3) : Word :=
  ((BitVec.ofBool c ++ BitVec.ofBool s ++ cls ++ fn ++ sub ++ data ++ x ++ off ++ qual) : BitVec 32)

/-- The fields of format E (R98). -/
structure FE where
  fn : BitVec 4
  u : BitVec 6
  v2 : BitVec 6
  shape : BitVec 5
  flags : BitVec 4
  deriving DecidableEq, Repr

/-- A word's body split as format E (R98). -/
def splitE (w : Word) : FE :=
  { fn := w.extractLsb' 21 4, u := w.extractLsb' 15 6, v2 := w.extractLsb' 9 6, shape := w.extractLsb' 4 5, flags := w.extractLsb' 0 4 }

/-- A word of format E put together from its fields (R85, R98). -/
def joinE (c s : Bool) (cls : BitVec 5) (fn : BitVec 4) (u : BitVec 6) (v2 : BitVec 6) (shape : BitVec 5) (flags : BitVec 4) : Word :=
  ((BitVec.ofBool c ++ BitVec.ofBool s ++ cls ++ fn ++ u ++ v2 ++ shape ++ flags) : BitVec 32)

/-- The fields of format X (R110) (R98). -/
structure FX where
  feat : BitVec 7
  fn : BitVec 4
  d : BitVec 6
  a : BitVec 6
  k : BitVec 1
  r : BitVec 1
  deriving DecidableEq, Repr

/-- A word's body split as format X (R98). -/
def splitX (w : Word) : FX :=
  { feat := w.extractLsb' 18 7, fn := w.extractLsb' 14 4, d := w.extractLsb' 8 6, a := w.extractLsb' 2 6, k := w.extractLsb' 1 1, r := w.extractLsb' 0 1 }

/-- A word of format X put together from its fields (R85, R98). -/
def joinX (c s : Bool) (cls : BitVec 5) (feat : BitVec 7) (fn : BitVec 4) (d : BitVec 6) (a : BitVec 6) (k : BitVec 1) (r : BitVec 1) : Word :=
  ((BitVec.ofBool c ++ BitVec.ofBool s ++ cls ++ feat ++ fn ++ d ++ a ++ k ++ r) : BitVec 32)

/-- The CLASS field (R85). -/
def wordClass (w : Word) : BitVec 5 := w.extractLsb' 25 5
/-- The C bit (R85). -/
def wordC (w : Word) : Bool := w.extractLsb' 31 1 = 1#1
/-- The S bit (R85). -/
def wordS (w : Word) : Bool := w.extractLsb' 30 1 = 1#1

/-- Class 0 (R104): the word whose body splits into these fields. -/
def decSys (h : Hd) (f : FA) : Option Instr :=
  match f.fn.toNat with
  | 0 => if f.sub = 0#3 ∧ f.d = 0#6 ∧ f.a = 0#6 ∧ f.b = 0#6 then some (.nop h) else none
  | 1 => if f.sub = 0#3 ∧ f.d = 0#6 ∧ f.a = 0#6 then some (.trap h f.b) else none
  | 2 => if f.sub = 0#3 ∧ f.d = 0#6 ∧ f.a = 0#6 ∧ f.b = 0#6 then some (.tret h) else none
  | 3 => if f.sub = 0#3 ∧ f.d = 0#6 then some (.trig h f.a f.b) else none
  | 4 => if f.sub = 0#3 ∧ f.d = 0#6 ∧ f.a = 0#6 ∧ f.b = 0#6 then some (.wfi h) else none
  | 5 => if f.sub = 0#3 ∧ f.b = 0#6 then some (.cswap h f.d f.a) else none
  | 6 =>
      if f.sub = 0#3 ∧ f.b = 0#6 then some (.dusk h f.d f.a)
      else if f.sub = 1#3 ∧ f.b = 0#6 then some (.duskRet h f.d f.a)
      else none
  | 7 => if f.sub = 0#3 ∧ f.d = 0#6 ∧ f.a = 0#6 ∧ f.b = 0#6 then some (.sample h) else none
  | _ => none

/-- Class 1 (R104): the word whose body splits into these fields. -/
def decUalu (h : Hd) (f : FA) : Option Instr :=
  match f.fn.toNat with
  | 0 => if f.sub = 0#3 then some (.uadd h f.d f.a f.b) else none
  | 1 => if f.sub = 0#3 then some (.usub h f.d f.a f.b) else none
  | 2 => if f.sub = 0#3 then some (.umul h f.d f.a f.b) else none
  | 3 => if f.sub.extractLsb' 1 2 = 0#2 then some (.umulh h (f.sub.extractLsb' 0 1) f.d f.a f.b) else none
  | 4 => if f.sub = 0#3 then some (.uand h f.d f.a f.b) else none
  | 5 => if f.sub = 0#3 then some (.uor h f.d f.a f.b) else none
  | 6 => if f.sub = 0#3 then some (.uxor h f.d f.a f.b) else none
  | 7 => if f.sub = 0#3 then some (.ushl h f.d f.a f.b) else none
  | 8 => if f.sub = 0#3 then some (.ushr h f.d f.a f.b) else none
  | 9 => if f.sub = 0#3 then some (.usar h f.d f.a f.b) else none
  | 10 => if f.sub.extractLsb' 1 2 = 0#2 then some (.umin h (f.sub.extractLsb' 0 1) f.d f.a f.b) else none
  | 11 => if f.sub.extractLsb' 1 2 = 0#2 then some (.umax h (f.sub.extractLsb' 0 1) f.d f.a f.b) else none
  | 12 => if f.sub.extractLsb' 1 2 = 0#2 then some (.ucmp h (f.sub.extractLsb' 0 1) f.d f.a f.b) else none
  | 13 => if f.sub.extractLsb' 1 2 = 0#2 then some (.ubfx h (f.sub.extractLsb' 0 1) f.d f.a f.b) else none
  | 14 => if f.sub = 0#3 then some (.ubfi h f.d f.a f.b) else none
  | _ => none

/-- Class 2 (R104): the word whose body splits into these fields. -/
def decUimm (h : Hd) (f : FI) : Option Instr :=
  match f.fn.toNat with
  | 0 => some (.uaddImm h f.d f.a f.imm)
  | 1 => some (.uandImm h f.d f.a f.imm)
  | 2 => some (.uorImm h f.d f.a f.imm)
  | 3 => some (.uxorImm h f.d f.a f.imm)
  | 4 => some (.ushlImm h f.d f.a f.imm)
  | 5 => some (.ushrImm h f.d f.a f.imm)
  | 6 => some (.usarImm h f.d f.a f.imm)
  | 7 => some (.umulImm h f.d f.a f.imm)
  | _ => none

/-- Class 3 (R104): the word whose body splits into these fields. -/
def decUlong (h : Hd) (f : FL) : Option Instr :=
  some (.ului h f.d f.imm)

/-- Class 4 (R104): the word whose body splits into these fields. -/
def decFlow (h : Hd) (f : FB) (g : FBW) : Option Instr :=
  match f.fn.toNat with
  | 0 => if f.sub = 0#3 then some (.jmp h f.off) else none
  | 1 => some (.call h g.w g.off)
  | 2 => if g.off = 0#15 then some (.ret h g.w) else none
  | 3 => some (.brmAny h f.sub f.off)
  | 4 => some (.brmAll h f.sub f.off)
  | 5 => some (.brmNone h f.sub f.off)
  | 6 => some (.vbr h f.sub f.off)
  | 7 => if f.sub = 0#3 ∧ f.off = 0#18 then some (.recon h) else none
  | 8 => some (.bruZ h g.w g.off)
  | 9 => some (.bruNz h g.w g.off)
  | 10 => some (.bruNeg h g.w g.off)
  | 11 => some (.bruNneg h g.w g.off)
  | _ => none

/-- Class 5 (R104): the word whose body splits into these fields. -/
def decMask (h : Hd) (f : FA) : Option Instr :=
  match f.fn.toNat with
  | 0 =>
      if f.sub.extractLsb' 1 2 = 0#2 ∧ f.d.extractLsb' 3 3 = 0#3 ∧ f.a.extractLsb' 3 3 = 0#3 ∧ f.b.extractLsb' 3 3 = 0#3 then some (.mand h (f.sub.extractLsb' 0 1) (f.d.extractLsb' 0 3) (f.a.extractLsb' 0 3) (f.b.extractLsb' 0 3))
      else none
  | 1 =>
      if f.sub.extractLsb' 1 2 = 0#2 ∧ f.d.extractLsb' 3 3 = 0#3 ∧ f.a.extractLsb' 3 3 = 0#3 ∧ f.b.extractLsb' 3 3 = 0#3 then some (.mor h (f.sub.extractLsb' 0 1) (f.d.extractLsb' 0 3) (f.a.extractLsb' 0 3) (f.b.extractLsb' 0 3))
      else none
  | 2 =>
      if f.sub.extractLsb' 1 2 = 0#2 ∧ f.d.extractLsb' 3 3 = 0#3 ∧ f.a.extractLsb' 3 3 = 0#3 ∧ f.b.extractLsb' 3 3 = 0#3 then some (.mxor h (f.sub.extractLsb' 0 1) (f.d.extractLsb' 0 3) (f.a.extractLsb' 0 3) (f.b.extractLsb' 0 3))
      else none
  | 3 =>
      if f.sub.extractLsb' 1 2 = 0#2 ∧ f.d.extractLsb' 3 3 = 0#3 ∧ f.a.extractLsb' 3 3 = 0#3 ∧ f.b.extractLsb' 3 3 = 0#3 then some (.mandn h (f.sub.extractLsb' 0 1) (f.d.extractLsb' 0 3) (f.a.extractLsb' 0 3) (f.b.extractLsb' 0 3))
      else none
  | 4 =>
      if f.sub = 0#3 ∧ f.d.extractLsb' 3 3 = 0#3 ∧ f.a.extractLsb' 3 3 = 0#3 ∧ f.b = 0#6 then some (.mlead h (f.d.extractLsb' 0 3) (f.a.extractLsb' 0 3))
      else none
  | 5 =>
      if f.sub = 0#3 ∧ f.a.extractLsb' 3 3 = 0#3 ∧ f.b = 0#6 then some (.mfirst h f.d (f.a.extractLsb' 0 3))
      else none
  | 6 =>
      if f.sub = 0#3 ∧ f.a.extractLsb' 3 3 = 0#3 ∧ f.b = 0#6 then some (.mcount h f.d (f.a.extractLsb' 0 3))
      else none
  | 7 =>
      if f.sub = 0#3 ∧ f.d.extractLsb' 3 3 = 0#3 then some (.msetw h (f.d.extractLsb' 0 3) f.a f.b)
      else none
  | 8 =>
      if f.sub = 0#3 ∧ f.a.extractLsb' 3 3 = 0#3 then some (.mgetw h f.d (f.a.extractLsb' 0 3) f.b)
      else none
  | _ => none

/-- Class 6 (R104): the word whose body splits into these fields. -/
def decVint (h : Hd) (f : FA) : Option Instr :=
  match f.fn.toNat with
  | 0 => some (.vadd h f.sub f.d f.a f.b)
  | 1 => some (.vsub h f.sub f.d f.a f.b)
  | 2 => some (.vmul h f.sub f.d f.a f.b)
  | 3 => some (.vmulh h f.sub f.d f.a f.b)
  | 4 => some (.vand h f.sub f.d f.a f.b)
  | 5 => some (.vor h f.sub f.d f.a f.b)
  | 6 => some (.vxor h f.sub f.d f.a f.b)
  | 7 => some (.vshl h f.sub f.d f.a f.b)
  | 8 => some (.vshr h f.sub f.d f.a f.b)
  | 9 => some (.vsar h f.sub f.d f.a f.b)
  | 10 => some (.vmin h f.sub f.d f.a f.b)
  | 11 => some (.vmax h f.sub f.d f.a f.b)
  | 12 => if f.b = 0#6 then some (.vabs h f.sub f.d f.a) else none
  | 13 => some (.vbfx h f.sub f.d f.a f.b)
  | 14 => some (.vbfi h f.sub f.d f.a f.b)
  | _ => none

/-- Class 7 (R104): the word whose body splits into these fields. -/
def decVimm (h : Hd) (f : FI) : Option Instr :=
  match f.fn.toNat with
  | 0 => some (.vaddImm h f.d f.a f.imm)
  | 1 => some (.vandImm h f.d f.a f.imm)
  | 2 => some (.vorImm h f.d f.a f.imm)
  | 3 => some (.vxorImm h f.d f.a f.imm)
  | 4 => some (.vshlImm h f.d f.a f.imm)
  | 5 => some (.vshrImm h f.d f.a f.imm)
  | 6 => some (.vsarImm h f.d f.a f.imm)
  | 7 => some (.vmulImm h f.d f.a f.imm)
  | 8 => if f.a = 0#6 then some (.vmovImm h f.d f.imm) else none
  | _ => none

/-- Class 8 (R104): the word whose body splits into these fields. -/
def decVf32 (h : Hd) (f : FA) : Option Instr :=
  match f.fn.toNat with
  | 0 => some (.fadd h f.sub f.d f.a f.b)
  | 1 => some (.fsub h f.sub f.d f.a f.b)
  | 2 => some (.fmul h f.sub f.d f.a f.b)
  | 3 => some (.ffma h f.sub f.d f.a f.b)
  | 4 => some (.fmin h f.sub f.d f.a f.b)
  | 5 => some (.fmax h f.sub f.d f.a f.b)
  | 6 => if f.b = 0#6 then some (.fabs h f.sub f.d f.a) else none
  | 7 => if f.b = 0#6 then some (.frcp h f.sub f.d f.a) else none
  | 8 => if f.b = 0#6 then some (.frsq h f.sub f.d f.a) else none
  | 9 => if f.b = 0#6 then some (.fsqrt h f.sub f.d f.a) else none
  | 10 => some (.fdiv h f.sub f.d f.a f.b)
  | 11 => if f.b = 0#6 then some (.fexp2 h f.sub f.d f.a) else none
  | 12 => if f.b = 0#6 then some (.flog2 h f.sub f.d f.a) else none
  | 13 => if f.b = 0#6 then some (.fneg h f.sub f.d f.a) else none
  | _ => none

/-- Class 9 (R104): the word whose body splits into these fields. -/
def decVf64 (h : Hd) (f : FA) : Option Instr :=
  match f.fn.toNat with
  | 0 => some (.dadd h f.sub f.d f.a f.b)
  | 1 => some (.dsub h f.sub f.d f.a f.b)
  | 2 => some (.dmul h f.sub f.d f.a f.b)
  | 3 => some (.dfma h f.sub f.d f.a f.b)
  | 4 => some (.dmin h f.sub f.d f.a f.b)
  | 5 => some (.dmax h f.sub f.d f.a f.b)
  | 6 => some (.ddiv h f.sub f.d f.a f.b)
  | 7 => if f.b = 0#6 then some (.dsqrt h f.sub f.d f.a) else none
  | _ => none

/-- Class 10 (R104): the word whose body splits into these fields. -/
def decVh16 (h : Hd) (f : FA) : Option Instr :=
  match f.fn.toNat with
  | 0 => some (.hadd2 h f.sub f.d f.a f.b)
  | 1 => some (.hsub2 h f.sub f.d f.a f.b)
  | 2 => some (.hmul2 h f.sub f.d f.a f.b)
  | 3 => some (.hfma2 h f.sub f.d f.a f.b)
  | 4 => some (.hmin2 h f.sub f.d f.a f.b)
  | 5 => some (.hmax2 h f.sub f.d f.a f.b)
  | 6 => some (.vdot4 h f.sub f.d f.a f.b)
  | _ => none

/-- Class 11 (R104): the word whose body splits into these fields. -/
def decVcvt (h : Hd) (f : FA) : Option Instr :=
  if f.b.extractLsb' 4 2 = 0#2 then some (.cvt h f.fn f.sub f.d f.a (f.b.extractLsb' 0 4)) else none

/-- Class 12 (R104): the word whose body splits into these fields. -/
def decVcmp (h : Hd) (f : FA) : Option Instr :=
  match f.fn.toNat with
  | 0 => if f.d.extractLsb' 3 3 = 0#3 then some (.vcmpEq h f.sub (f.d.extractLsb' 0 3) f.a f.b) else none
  | 1 => if f.d.extractLsb' 3 3 = 0#3 then some (.vcmpNe h f.sub (f.d.extractLsb' 0 3) f.a f.b) else none
  | 2 => if f.d.extractLsb' 3 3 = 0#3 then some (.vcmpLt h f.sub (f.d.extractLsb' 0 3) f.a f.b) else none
  | 3 => if f.d.extractLsb' 3 3 = 0#3 then some (.vcmpLe h f.sub (f.d.extractLsb' 0 3) f.a f.b) else none
  | 4 => if f.d.extractLsb' 3 3 = 0#3 then some (.vcmpGt h f.sub (f.d.extractLsb' 0 3) f.a f.b) else none
  | 5 => if f.d.extractLsb' 3 3 = 0#3 then some (.vcmpGe h f.sub (f.d.extractLsb' 0 3) f.a f.b) else none
  | 6 => if f.d.extractLsb' 3 3 = 0#3 then some (.vcmpUn h f.sub (f.d.extractLsb' 0 3) f.a f.b) else none
  | 7 => if f.d.extractLsb' 3 3 = 0#3 then some (.vcmpOrd h f.sub (f.d.extractLsb' 0 3) f.a f.b) else none
  | 8 => if f.d.extractLsb' 3 3 = 0#3 then some (.vtest h f.sub (f.d.extractLsb' 0 3) f.a f.b) else none
  | _ => none

/-- Class 13 (R104): the word whose body splits into these fields. -/
def decVlane (h : Hd) (f : FA) : Option Instr :=
  match f.fn.toNat with
  | 0 => some (.vshuf h f.sub f.d f.a f.b)
  | 1 => some (.vbcast h f.sub f.d f.a f.b)
  | 2 => if f.b.extractLsb' 4 2 = 0#2 then some (.vred h f.sub f.d f.a (f.b.extractLsb' 0 4)) else none
  | 3 =>
      if f.b.extractLsb' 5 1 = 0#1 then some (.vscan h f.sub f.d f.a (f.b.extractLsb' 4 1) (f.b.extractLsb' 0 4))
      else none
  | 4 => some (.vsel h f.sub f.d f.a f.b)
  | 5 => if f.b = 0#6 then some (.vmov h f.sub f.d f.a) else none
  | 6 => if f.b = 0#6 then some (.vmovw h f.sub f.d f.a) else none
  | _ => none

/-- Class 14 (R104): the word whose body splits into these fields. -/
def decLoad (h : Hd) (f : FM) : Option Instr :=
  match f.fn.toNat with
  | 0 => some (.ldg h f.sub f.data f.x f.off (f.qual.extractLsb' 2 1) (f.qual.extractLsb' 0 2))
  | 1 =>
      if f.x = 0#3 then some (.lds h f.sub f.data f.off (f.qual.extractLsb' 2 1) (f.qual.extractLsb' 0 2))
      else none
  | 2 =>
      if f.x = 0#3 then some (.ldsFe h f.sub f.data f.off (f.qual.extractLsb' 2 1) (f.qual.extractLsb' 0 2))
      else none
  | 3 =>
      if f.x = 0#3 then some (.ldsFk h f.sub f.data f.off (f.qual.extractLsb' 2 1) (f.qual.extractLsb' 0 2))
      else none
  | 4 =>
      if f.sub = 0#3 then some (.ldw h f.data f.x f.off (f.qual.extractLsb' 2 1) (f.qual.extractLsb' 0 2))
      else none
  | 5 =>
      if f.sub = 0#3 ∧ f.x = 0#3 then some (.ldws h f.data f.off (f.qual.extractLsb' 2 1) (f.qual.extractLsb' 0 2))
      else none
  | 6 =>
      if f.data = 0#6 ∧ f.qual.extractLsb' 1 2 = 0#2 then some (.pref h f.sub f.x f.off (f.qual.extractLsb' 0 1))
      else none
  | _ => none

/-- Class 15 (R104): the word whose body splits into these fields. -/
def decStore (h : Hd) (f : FM) : Option Instr :=
  match f.fn.toNat with
  | 0 =>
      if f.qual.extractLsb' 2 1 = 0#1 then some (.stg h f.sub f.data f.x f.off (f.qual.extractLsb' 0 2))
      else none
  | 1 =>
      if f.x = 0#3 ∧ f.qual.extractLsb' 2 1 = 0#1 then some (.sts h f.sub f.data f.off (f.qual.extractLsb' 0 2))
      else none
  | 2 =>
      if f.sub = 0#3 ∧ f.qual.extractLsb' 2 1 = 0#1 then some (.stw h f.data f.x f.off (f.qual.extractLsb' 0 2))
      else none
  | 3 =>
      if f.sub = 0#3 ∧ f.x = 0#3 ∧ f.qual.extractLsb' 2 1 = 0#1 then some (.stws h f.data f.off (f.qual.extractLsb' 0 2))
      else none
  | 4 => if f.sub = 0#3 ∧ f.x = 0#3 ∧ f.qual = 0#3 then some (.feset h f.data f.off) else none
  | 5 => if f.sub = 0#3 ∧ f.x = 0#3 ∧ f.qual = 0#3 then some (.feclr h f.data f.off) else none
  | _ => none

/-- Class 16 (R104): the word whose body splits into these fields. -/
def decAtom (h : Hd) (f : FM) : Option Instr :=
  if f.qual.extractLsb' 1 2 = 0#2 then some (.atom h f.fn f.sub f.data f.x f.off (f.qual.extractLsb' 0 1)) else if f.qual.extractLsb' 1 2 = 1#2 then some (.red h f.fn f.sub f.data f.x f.off (f.qual.extractLsb' 0 1)) else none

/-- Class 17 (R104): the word whose body splits into these fields. -/
def decFence (h : Hd) (f : FM) : Option Instr :=
  match f.fn.toNat with
  | 0 =>
      if f.sub = 0#3 ∧ f.data = 0#6 ∧ f.x = 0#3 ∧ f.off = 0#6 ∧ f.qual = 0#3 then some (.fence h)
      else none
  | 1 =>
      if f.sub = 0#3 ∧ f.x = 0#3 ∧ f.off = 0#6 ∧ f.qual = 0#3 then some (.xfence h (f.data.extractLsb' 3 3) (f.data.extractLsb' 0 3))
      else none
  | 2 =>
      if f.sub = 0#3 ∧ f.data = 0#6 ∧ f.x = 0#3 ∧ f.off = 0#6 ∧ f.qual = 0#3 then some (.spfence h)
      else none
  | _ => none

/-- Class 18 (R104): the word whose body splits into these fields. -/
def decSpad (h : Hd) (f : FM) : Option Instr :=
  match f.fn.toNat with
  | 0 => if f.sub = 0#3 ∧ f.x = 0#3 ∧ f.qual = 0#3 then some (.binit h f.data f.off) else none
  | 1 => if f.sub = 0#3 ∧ f.data = 0#6 ∧ f.x = 0#3 ∧ f.qual = 0#3 then some (.barrive h f.off) else none
  | 2 => if f.sub = 0#3 ∧ f.x = 0#3 ∧ f.qual = 0#3 then some (.bwait h f.data f.off) else none
  | 3 => if f.sub = 0#3 ∧ f.x = 0#3 ∧ f.off = 0#6 ∧ f.qual = 0#3 then some (.sgjoin h f.data) else none
  | 4 =>
      if f.sub = 0#3 ∧ f.data = 0#6 ∧ f.x = 0#3 ∧ f.off = 0#6 ∧ f.qual = 0#3 then some (.sgleave h)
      else none
  | _ => none

/-- Class 19 (R104): the word whose body splits into these fields. -/
def decCopy (h : Hd) (f : FE) : Option Instr :=
  match f.fn.toNat with
  | 0 =>
      if f.flags.extractLsb' 2 2 = 0#2 then some (.cpy h f.u f.v2 (f.shape.extractLsb' 2 3) (f.shape.extractLsb' 0 2) (f.flags.extractLsb' 0 2))
      else none
  | 1 =>
      if f.flags.extractLsb' 2 2 = 0#2 then some (.tcpy h f.u f.v2 (f.shape.extractLsb' 2 3) (f.shape.extractLsb' 0 2) (f.flags.extractLsb' 0 2))
      else none
  | 2 =>
      if f.flags.extractLsb' 2 2 = 0#2 then some (.gcpy h f.u f.v2 (f.shape.extractLsb' 2 3) (f.shape.extractLsb' 0 2) (f.flags.extractLsb' 0 2))
      else none
  | 3 =>
      if f.flags.extractLsb' 2 2 = 0#2 then some (.scpy h f.u f.v2 (f.shape.extractLsb' 2 3) (f.shape.extractLsb' 0 2) (f.flags.extractLsb' 0 2))
      else none
  | _ => none

/-- Class 20 (R104): the word whose body splits into these fields. -/
def decSparse (h : Hd) (f : FM) (g : FA) : Option Instr :=
  match f.fn.toNat with
  | 0 =>
      if f.sub = 0#3 ∧ f.x = 0#3 ∧ f.qual.extractLsb' 2 1 = 0#1 then some (.isect h f.data f.off (f.qual.extractLsb' 0 2))
      else none
  | 1 =>
      if f.sub = 0#3 ∧ f.x = 0#3 ∧ f.qual.extractLsb' 2 1 = 0#1 then some (.isectn h f.data f.off (f.qual.extractLsb' 0 2))
      else none
  | 2 =>
      if g.d.extractLsb' 3 3 = 0#3 ∧ g.b = 0#6 then some (.vconf h g.sub (g.d.extractLsb' 0 3) g.a)
      else none
  | 3 => some (.scatc h f.sub f.data f.x f.off (f.qual.extractLsb' 2 1) (f.qual.extractLsb' 0 2))
  | 4 => some (.mpath h g.sub g.d g.a g.b)
  | 5 => some (.vsegred h g.sub g.d g.a g.b)
  | 6 => some (.vsegscan h g.sub g.d g.a g.b)
  | 7 => if g.b = 0#6 then some (.vcompress h g.sub g.d g.a) else none
  | 8 => if g.b = 0#6 then some (.vexpand h g.sub g.d g.a) else none
  | _ => none

/-- Class 21 (R104): the word whose body splits into these fields. -/
def decNred (h : Hd) (f : FE) : Option Instr :=
  match f.fn.toNat with
  | 0 =>
      if f.flags.extractLsb' 1 3 = 0#3 then some (.nredOrd h f.u f.v2 f.shape (f.flags.extractLsb' 0 1))
      else none
  | 1 =>
      if f.flags.extractLsb' 1 3 = 0#3 then some (.nredAny h f.u f.v2 f.shape (f.flags.extractLsb' 0 1))
      else none
  | _ => none

/-- Class 22 (R104): the word whose body splits into these fields. -/
def decMma (h : Hd) (f : FE) : Option Instr :=
  match f.fn.toNat with
  | 0 =>
      if f.u.extractLsb' 4 2 = 0#2 ∧ f.flags.extractLsb' 1 3 = 0#3 then some (.mma h (f.u.extractLsb' 0 4) f.v2 (f.shape.extractLsb' 4 1) (f.shape.extractLsb' 2 2) (f.shape.extractLsb' 0 2) (f.flags.extractLsb' 0 1))
      else none
  | 1 =>
      if f.u.extractLsb' 4 2 = 0#2 ∧ f.flags.extractLsb' 1 3 = 0#3 then some (.mmaZ h (f.u.extractLsb' 0 4) f.v2 (f.shape.extractLsb' 4 1) (f.shape.extractLsb' 2 2) (f.shape.extractLsb' 0 2) (f.flags.extractLsb' 0 1))
      else none
  | 2 =>
      if f.u.extractLsb' 4 2 = 0#2 ∧ f.v2 = 0#6 ∧ f.shape = 0#5 ∧ f.flags.extractLsb' 1 3 = 0#3 then some (.mzero h (f.u.extractLsb' 0 4) (f.flags.extractLsb' 0 1))
      else none
  | 3 =>
      if f.u.extractLsb' 4 2 = 0#2 ∧ f.shape = 0#5 ∧ f.flags.extractLsb' 1 3 = 0#3 then some (.mload h (f.u.extractLsb' 0 4) f.v2 (f.flags.extractLsb' 0 1))
      else none
  | 4 =>
      if f.u.extractLsb' 4 2 = 0#2 ∧ f.shape = 0#5 ∧ f.flags.extractLsb' 1 3 = 0#3 then some (.mdrain h (f.u.extractLsb' 0 4) f.v2 (f.flags.extractLsb' 0 1))
      else none
  | 5 => if f.v2 = 0#6 ∧ f.shape = 0#5 ∧ f.flags = 0#4 then some (.mpair h f.u) else none
  | 6 =>
      if f.v2.extractLsb' 4 2 = 0#2 ∧ f.shape = 0#5 ∧ f.flags.extractLsb' 1 3 = 0#3 then some (.mstat h f.u (f.v2.extractLsb' 0 4) (f.flags.extractLsb' 0 1))
      else none
  | 7 => if f.u = 0#6 ∧ f.shape = 0#5 ∧ f.flags = 0#4 then some (.mperm h f.v2) else none
  | _ => none

/-- Class 23 (R104): the word whose body splits into these fields. -/
def decChest (h : Hd) (f : FE) : Option Instr :=
  match f.fn.toNat with
  | 0 => if f.shape = 0#5 ∧ f.flags = 0#4 then some (.cclaim h f.u f.v2) else none
  | 1 => if f.u = 0#6 ∧ f.shape = 0#5 ∧ f.flags = 0#4 then some (.crelease h f.v2) else none
  | 2 =>
      if f.u.extractLsb' 4 2 = 0#2 ∧ f.shape = 0#5 ∧ f.flags = 0#4 then some (.dinit h (f.u.extractLsb' 0 4) f.v2)
      else none
  | 3 =>
      if f.v2.extractLsb' 4 2 = 0#2 ∧ f.shape = 0#5 ∧ f.flags = 0#4 then some (.dstat h f.u (f.v2.extractLsb' 0 4))
      else none
  | _ => none

/-- Class 24 (R104): the word whose body splits into these fields. -/
def decTask (h : Hd) (f : FE) : Option Instr :=
  match f.fn.toNat with
  | 0 => if f.shape = 0#5 ∧ f.flags = 0#4 then some (.spawn h f.u f.v2) else none
  | 1 => if f.shape = 0#5 ∧ f.flags = 0#4 then some (.spawnf h f.u f.v2) else none
  | 2 => if f.u = 0#6 ∧ f.shape = 0#5 ∧ f.flags = 0#4 then some (.fref h f.v2) else none
  | 3 => if f.u = 0#6 ∧ f.shape = 0#5 ∧ f.flags = 0#4 then some (.fdrop h f.v2) else none
  | 4 => if f.shape = 0#5 ∧ f.flags = 0#4 then some (.fwait h f.u f.v2) else none
  | 5 => if f.shape = 0#5 ∧ f.flags = 0#4 then some (.fpoll h f.u f.v2) else none
  | 6 => if f.u = 0#6 ∧ f.v2 = 0#6 ∧ f.shape = 0#5 ∧ f.flags = 0#4 then some (.rpoint h) else none
  | 7 =>
      if f.shape.extractLsb' 3 2 = 0#2 ∧ f.flags.extractLsb' 1 3 = 0#3 then some (.binpost h f.u f.v2 (f.shape.extractLsb' 0 3) (f.flags.extractLsb' 0 1))
      else none
  | _ => none

/-- Class 25 (R104): the word whose body splits into these fields. -/
def decMsg (h : Hd) (f : FE) : Option Instr :=
  match f.fn.toNat with
  | 0 => if f.shape = 0#5 ∧ f.flags = 0#4 then some (.send h f.u f.v2) else none
  | 1 => if f.shape = 0#5 ∧ f.flags = 0#4 then some (.sendt h f.u f.v2) else none
  | 2 => if f.shape = 0#5 ∧ f.flags = 0#4 then some (.recv h f.u f.v2) else none
  | 3 => if f.shape = 0#5 ∧ f.flags = 0#4 then some (.patset h f.u f.v2) else none
  | 4 => if f.shape = 0#5 ∧ f.flags = 0#4 then some (.portopen h f.u f.v2) else none
  | _ => none

/-- Class 26 (R104): the word whose body splits into these fields. -/
def decQueue (h : Hd) (f : FE) : Option Instr :=
  match f.fn.toNat with
  | 0 =>
      if f.shape = 0#5 ∧ f.flags = 0#4 then some (.qcreate h f.u f.v2)
      else if f.u = 0#6 ∧ f.shape = 0#5 ∧ f.flags = 1#4 then some (.qcreateFree h f.v2)
      else none
  | 1 => if f.shape = 0#5 ∧ f.flags = 0#4 then some (.qpush h f.u f.v2) else none
  | 2 => if f.shape = 0#5 ∧ f.flags = 0#4 then some (.qpop h f.u f.v2) else none
  | _ => none

/-- Class 27 (R104): the word whose body splits into these fields. -/
def decTree (h : Hd) (f : FI) : Option Instr :=
  match f.fn.toNat with
  | 0 =>
      if f.d = 0#6 ∧ f.imm.extractLsb' 3 6 = 0#6 then some (.nres h f.a (f.imm.extractLsb' 0 3))
      else if f.d = 0#6 ∧ f.imm.extractLsb' 7 2 = 1#2 then some (.nresK h f.a (f.imm.extractLsb' 3 4) (f.imm.extractLsb' 0 3))
      else none
  | 1 =>
      if f.a = 0#6 ∧ f.imm.extractLsb' 7 2 = 0#2 then some (.nchild h f.d (f.imm.extractLsb' 3 4) (f.imm.extractLsb' 0 3))
      else none
  | 2 =>
      if f.a = 0#6 ∧ f.imm.extractLsb' 3 6 = 0#6 then some (.nparent h f.d (f.imm.extractLsb' 0 3))
      else none
  | _ => none

/-- Class 28 (R104): the word whose body splits into these fields. -/
def decCtrl (h : Hd) (f : FA) : Option Instr :=
  match f.fn.toNat with
  | 0 =>
      if f.sub = 0#3 ∧ f.b = 0#6 then some (.rdc h f.d f.a)
      else if f.sub = 1#3 ∧ f.b = 0#6 then some (.rdcV h f.d f.a)
      else none
  | 1 => if f.sub = 0#3 ∧ f.b = 0#6 then some (.wrc h f.d f.a) else none
  | 2 => if f.sub = 0#3 ∧ f.d = 0#6 ∧ f.a = 0#6 then some (.rgive h f.b) else none
  | 3 => if f.sub = 0#3 ∧ f.d = 0#6 ∧ f.a = 0#6 then some (.rclaim h f.b) else none
  | 4 => if f.sub = 0#3 ∧ f.d = 0#6 ∧ f.a = 0#6 ∧ f.b = 0#6 then some (.bar h) else none
  | 5 =>
      if f.sub = 0#3 ∧ f.b.extractLsb' 2 4 = 0#4 then some (.launchFlat h f.d f.a (f.b.extractLsb' 1 1) (f.b.extractLsb' 0 1))
      else if f.sub = 1#3 ∧ f.b.extractLsb' 2 4 = 0#4 then some (.launchTree h f.d f.a (f.b.extractLsb' 1 1) (f.b.extractLsb' 0 1))
      else if f.sub = 2#3 ∧ f.b.extractLsb' 2 4 = 0#4 then some (.launchBin h f.d f.a (f.b.extractLsb' 1 1) (f.b.extractLsb' 0 1))
      else none
  | 6 =>
      if f.sub = 0#3 ∧ f.b = 0#6 then some (.lvlwait h f.d f.a)
      else if f.sub = 1#3 ∧ f.b = 0#6 then some (.lvlwaitPoll h f.d f.a)
      else none
  | 7 => if f.sub = 0#3 ∧ f.d = 0#6 ∧ f.b = 0#6 then some (.lvlcancel h f.a) else none
  | 8 => if f.sub = 0#3 ∧ f.d = 0#6 ∧ f.a = 0#6 ∧ f.b = 0#6 then some (.exit h) else none
  | _ => none

/-- Class 29 (R104): the word whose body splits into these fields. -/
def decXlat (h : Hd) (f : FA) : Option Instr :=
  match f.fn.toNat with
  | 0 =>
      if f.sub = 0#3 ∧ f.d.extractLsb' 3 3 = 0#3 ∧ f.b = 0#6 then some (.xlat h (f.d.extractLsb' 0 3) f.a)
      else none
  | 1 => if f.sub = 0#3 ∧ f.d = 0#6 then some (.xinv h f.a f.b) else none
  | _ => none

/-- Class 31 (R104): the word whose body splits into these fields. -/
def decExtn (h : Hd) (f : FX) : Option Instr :=
  if f.r = 0#1 then some (.extn h f.feat f.fn f.d f.a f.k) else none

/-- The instruction whose target word is `w`, with the prefixes' fields: `none` where fn or cond is not assigned or a
reserved field is nonzero (R104, R107). -/
def decBody (md : Option ModPfx) (im : Option (BitVec 23)) (w : Word) : Option Instr :=
  let h : Hd := { c := wordC w, s := wordS w, md := md, im := im }
  match (wordClass w).toNat with
  | 0 => decSys h (splitA w)
  | 1 => decUalu h (splitA w)
  | 2 => decUimm h (splitI w)
  | 3 => decUlong h (splitL w)
  | 4 => decFlow h (splitB w) (splitBW w)
  | 5 => decMask h (splitA w)
  | 6 => decVint h (splitA w)
  | 7 => decVimm h (splitI w)
  | 8 => decVf32 h (splitA w)
  | 9 => decVf64 h (splitA w)
  | 10 => decVh16 h (splitA w)
  | 11 => decVcvt h (splitA w)
  | 12 => decVcmp h (splitA w)
  | 13 => decVlane h (splitA w)
  | 14 => decLoad h (splitM w)
  | 15 => decStore h (splitM w)
  | 16 => decAtom h (splitM w)
  | 17 => decFence h (splitM w)
  | 18 => decSpad h (splitM w)
  | 19 => decCopy h (splitE w)
  | 20 => decSparse h (splitM w) (splitA w)
  | 21 => decNred h (splitE w)
  | 22 => decMma h (splitE w)
  | 23 => decChest h (splitE w)
  | 24 => decTask h (splitE w)
  | 25 => decMsg h (splitE w)
  | 26 => decQueue h (splitE w)
  | 27 => decTree h (splitI w)
  | 28 => decCtrl h (splitA w)
  | 29 => decXlat h (splitA w)
  | 31 => decExtn h (splitX w)
  | _ => none

/-- A modifier prefix that supplies nothing. -/
def ModPfx.zero : ModPfx := { mv := none, ty := none, rnd := 0#3, sat := false, sc := none }

/-- A class 30 word as the field that it supplies (R101); `none` for PK 2 and 3 and for a defective modifier prefix
(R103). -/
inductive Pfx where
  | mod (m : ModPfx)
  | imm (i : BitVec 23)
  deriving DecidableEq, Repr

/-- A field of a modifier prefix behind its valid bit: `none` when the bit is set without a value is not a case; a value
without its valid bit is defective (R103). -/
def validField {n : Nat} (v : BitVec 1) (x : BitVec n) : Option (Option (BitVec n)) :=
  if v = 1#1 then some (some x) else if x = 0#n then some none else none

/-- The prefix that a class 30 word is (R101, R103). -/
def decPfx (w : Word) : Option Pfx :=
  match (w.extractLsb' 23 2).toNat with
  | 1 => some (.imm (w.extractLsb' 0 23))
  | 0 =>
    if w.extractLsb' 0 6 ≠ 0#6 then none
    else
      match validField (w.extractLsb' 22 1) (w.extractLsb' 19 3), validField (w.extractLsb' 18 1) (w.extractLsb' 14 4),
        validField (w.extractLsb' 9 1) (w.extractLsb' 6 3) with
      | some mv, some ty, some sc =>
        some (.mod { mv := mv, ty := ty, rnd := w.extractLsb' 11 3, sat := w.extractLsb' 10 1 = 1#1, sc := sc })
      | _, _, _ => none
  | _ => none

/-- The BRK pattern (R107). -/
def brkWord : Word := 0xFFFFFFFF#32

/-- Whether a word is a prefix (R101). -/
def isPfx (w : Word) : Bool := wordClass w = 30#5

/-- The target word with what its prefixes supply, checked whole (R103, R107); a word whose only defect is its C bit breaks
its chain (R87). -/
def decTarget (md : Option ModPfx) (im : Option (BitVec 23)) (w : Word) : Decoded :=
  if w = brkWord then (if md.isNone && im.isNone then .ok .brk else .bad .illpkt)
  else if isPfx w then .bad .illpkt
  else
    match decBody md im w with
    | none => .bad .illop
    | some i =>
      if i.wf then .ok i
      else if wordClass w = 31#5 then .bad .illpkt
      else if wordC w && (match decBody md im (w &&& 0x7FFFFFFF#32) with | some j => j.wf | none => false) then .bad .illpkt
      else .bad .illop

/-- Whether a class 30 word is of the modifier kind, defective or not (R101). -/
def isModPfx (w : Word) : Bool := w.extractLsb' 23 2 = 0#2

/-- The instruction that a list of words is, whole: at most one prefix of each kind, then the target (R102, R103). A prefix
that is defective by itself raises ILLOP, unless a rule of placement is broken too: that comes first (R108). -/
def decodeWords (md : Option ModPfx) (im : Option (BitVec 23)) : List Word → Decoded
  | [] => .bad .short
  | [w] => decTarget md im w
  | w :: ws =>
    if isPfx w then
      if wordC w || wordS w then .bad .illpkt
      else
        match decPfx w with
        | none =>
          if isModPfx w && md.isSome then .bad .illpkt
          else if decodeWords (if isModPfx w then some ModPfx.zero else md) im ws = .bad .illpkt then .bad .illpkt
          else .bad .illop
        | some (.mod m) => if md.isSome then .bad .illpkt else decodeWords (some m) im ws
        | some (.imm i) => if im.isSome then .bad .illpkt else decodeWords md (some i) ws
    else .bad .illpkt

/-- The words that bytes hold, each little-endian, the first at the lowest address (R5); `none` where bytes are left. -/
def bytesWords : List Byte → Option (List Word)
  | [] => some []
  | b0 :: b1 :: b2 :: b3 :: bs =>
    match bytesWords bs with
    | some ws => some ((b3 ++ b2 ++ b1 ++ b0 : BitVec 32) :: ws)
    | none => none
  | _ => none

/-- The bytes of words, each little-endian (R5). -/
def wordsBytes : List Word → List Byte
  | [] => []
  | w :: ws =>
    w.extractLsb' 0 8 :: w.extractLsb' 8 8 :: w.extractLsb' 16 8 :: w.extractLsb' 24 8 :: wordsBytes ws

/-- Decoding of bytes: prefixes and target, and nothing after them. -/
def decode (bs : List Byte) : Decoded :=
  match bytesWords bs with
  | some ws => decodeWords none none ws
  | none => .bad .short

/-- The instruction that the decoder reads from the table's numbering of its bits: the first word is bits 31..0. -/
def decodeTableWord (nbits w : Nat) : Option Instr :=
  match decode (natBytes (if nbits ≤ 32 then 4 else 4 * ((nbits + 31) / 32)) (w % 2 ^ nbits)) with
  | .ok i => some i
  | .bad _ => none

/-! ### The encoder -/

/-- The header of an instruction word; the steps of the part and BRK have none. -/
def Instr.hd : Instr → Option Hd
  | .dawn => none
  | .i3cRequest => none
  | .blockPlacement _ => none
  | .blockEnd _ => none
  | .census _ => none
  | .shelfReservation _ => none
  | .nodeDispatch _ => none
  | .sweepEnd _ => none
  | .stealRequest _ => none
  | .stealReply _ => none
  | .donatedDispatchArrival _ => none
  | .resultArrival _ _ => none
  | .trapEntry _ => none
  | .interruptEntry _ => none
  | .logRetry _ _ => none
  | .drawerReservation _ => none
  | .copyCompletion _ => none
  | .mmaTake _ => none
  | .tileOpPerform _ _ => none
  | .cclaimGrant _ => none
  | .rclaimGrant _ => none
  | .nredContributionArrival _ => none
  | .patternFiring _ => none
  | .heldMessageAppend _ _ => none
  | .binTimerExpiry _ _ => none
  | .pageMigrationLine => none
  | .hostAccess => none
  | .fabricRemoteAccess => none
  | .post => none
  | .pagerdy => none
  | .termq => none
  | .termack => none
  | .invlen => none
  | .invalidationDone _ => none
  | .routingTableWrite => none
  | .modid => none
  | .sensorSample => none
  | .tickExpiry _ => none
  | .tick => none
  | .alert => none
  | .istat => none
  | .throt => none
  | .evstat => none
  | .termb => none
  | .signctl => none
  | .signComplete => none
  | .part => none
  | .uncorrectableError => none
  | .vctl => none
  | .sampctl => none
  | .blkid1Stop => none
  | .blkid1Resume => none
  | .stopComplete _ => none
  | .hangWatchdogExpiry _ _ => none
  | .duskResume _ => none
  | .registerWrite => none
  | .nop h => some h
  | .trap h _ => some h
  | .tret h => some h
  | .trig h _ _ => some h
  | .wfi h => some h
  | .cswap h _ _ => some h
  | .dusk h _ _ => some h
  | .duskRet h _ _ => some h
  | .sample h => some h
  | .brk => none
  | .uadd h _ _ _ => some h
  | .usub h _ _ _ => some h
  | .umul h _ _ _ => some h
  | .umulh h _ _ _ _ => some h
  | .uand h _ _ _ => some h
  | .uor h _ _ _ => some h
  | .uxor h _ _ _ => some h
  | .ushl h _ _ _ => some h
  | .ushr h _ _ _ => some h
  | .usar h _ _ _ => some h
  | .umin h _ _ _ _ => some h
  | .umax h _ _ _ _ => some h
  | .ucmp h _ _ _ _ => some h
  | .ubfx h _ _ _ _ => some h
  | .ubfi h _ _ _ => some h
  | .uaddImm h _ _ _ => some h
  | .uandImm h _ _ _ => some h
  | .uorImm h _ _ _ => some h
  | .uxorImm h _ _ _ => some h
  | .ushlImm h _ _ _ => some h
  | .ushrImm h _ _ _ => some h
  | .usarImm h _ _ _ => some h
  | .umulImm h _ _ _ => some h
  | .ului h _ _ => some h
  | .jmp h _ => some h
  | .call h _ _ => some h
  | .ret h _ => some h
  | .brmAny h _ _ => some h
  | .brmAll h _ _ => some h
  | .brmNone h _ _ => some h
  | .vbr h _ _ => some h
  | .recon h => some h
  | .bruZ h _ _ => some h
  | .bruNz h _ _ => some h
  | .bruNeg h _ _ => some h
  | .bruNneg h _ _ => some h
  | .mand h _ _ _ _ => some h
  | .mor h _ _ _ _ => some h
  | .mxor h _ _ _ _ => some h
  | .mandn h _ _ _ _ => some h
  | .mlead h _ _ => some h
  | .mfirst h _ _ => some h
  | .mcount h _ _ => some h
  | .msetw h _ _ _ => some h
  | .mgetw h _ _ _ => some h
  | .vadd h _ _ _ _ => some h
  | .vsub h _ _ _ _ => some h
  | .vmul h _ _ _ _ => some h
  | .vmulh h _ _ _ _ => some h
  | .vand h _ _ _ _ => some h
  | .vor h _ _ _ _ => some h
  | .vxor h _ _ _ _ => some h
  | .vshl h _ _ _ _ => some h
  | .vshr h _ _ _ _ => some h
  | .vsar h _ _ _ _ => some h
  | .vmin h _ _ _ _ => some h
  | .vmax h _ _ _ _ => some h
  | .vabs h _ _ _ => some h
  | .vbfx h _ _ _ _ => some h
  | .vbfi h _ _ _ _ => some h
  | .vaddImm h _ _ _ => some h
  | .vandImm h _ _ _ => some h
  | .vorImm h _ _ _ => some h
  | .vxorImm h _ _ _ => some h
  | .vshlImm h _ _ _ => some h
  | .vshrImm h _ _ _ => some h
  | .vsarImm h _ _ _ => some h
  | .vmulImm h _ _ _ => some h
  | .vmovImm h _ _ => some h
  | .fadd h _ _ _ _ => some h
  | .fsub h _ _ _ _ => some h
  | .fmul h _ _ _ _ => some h
  | .ffma h _ _ _ _ => some h
  | .fmin h _ _ _ _ => some h
  | .fmax h _ _ _ _ => some h
  | .fabs h _ _ _ => some h
  | .frcp h _ _ _ => some h
  | .frsq h _ _ _ => some h
  | .fsqrt h _ _ _ => some h
  | .fdiv h _ _ _ _ => some h
  | .fexp2 h _ _ _ => some h
  | .flog2 h _ _ _ => some h
  | .fneg h _ _ _ => some h
  | .dadd h _ _ _ _ => some h
  | .dsub h _ _ _ _ => some h
  | .dmul h _ _ _ _ => some h
  | .dfma h _ _ _ _ => some h
  | .dmin h _ _ _ _ => some h
  | .dmax h _ _ _ _ => some h
  | .ddiv h _ _ _ _ => some h
  | .dsqrt h _ _ _ => some h
  | .hadd2 h _ _ _ _ => some h
  | .hsub2 h _ _ _ _ => some h
  | .hmul2 h _ _ _ _ => some h
  | .hfma2 h _ _ _ _ => some h
  | .hmin2 h _ _ _ _ => some h
  | .hmax2 h _ _ _ _ => some h
  | .vdot4 h _ _ _ _ => some h
  | .cvt h _ _ _ _ _ => some h
  | .vcmpEq h _ _ _ _ => some h
  | .vcmpNe h _ _ _ _ => some h
  | .vcmpLt h _ _ _ _ => some h
  | .vcmpLe h _ _ _ _ => some h
  | .vcmpGt h _ _ _ _ => some h
  | .vcmpGe h _ _ _ _ => some h
  | .vcmpUn h _ _ _ _ => some h
  | .vcmpOrd h _ _ _ _ => some h
  | .vtest h _ _ _ _ => some h
  | .vshuf h _ _ _ _ => some h
  | .vbcast h _ _ _ _ => some h
  | .vred h _ _ _ _ => some h
  | .vscan h _ _ _ _ _ => some h
  | .vsel h _ _ _ _ => some h
  | .vmov h _ _ _ => some h
  | .vmovw h _ _ _ => some h
  | .ldg h _ _ _ _ _ _ => some h
  | .lds h _ _ _ _ _ => some h
  | .ldsFe h _ _ _ _ _ => some h
  | .ldsFk h _ _ _ _ _ => some h
  | .ldw h _ _ _ _ _ => some h
  | .ldws h _ _ _ _ => some h
  | .pref h _ _ _ _ => some h
  | .stg h _ _ _ _ _ => some h
  | .sts h _ _ _ _ => some h
  | .stw h _ _ _ _ => some h
  | .stws h _ _ _ => some h
  | .feset h _ _ => some h
  | .feclr h _ _ => some h
  | .atom h _ _ _ _ _ _ => some h
  | .red h _ _ _ _ _ _ => some h
  | .fence h => some h
  | .xfence h _ _ => some h
  | .spfence h => some h
  | .binit h _ _ => some h
  | .barrive h _ => some h
  | .bwait h _ _ => some h
  | .sgjoin h _ => some h
  | .sgleave h => some h
  | .cpy h _ _ _ _ _ => some h
  | .tcpy h _ _ _ _ _ => some h
  | .gcpy h _ _ _ _ _ => some h
  | .scpy h _ _ _ _ _ => some h
  | .isect h _ _ _ => some h
  | .isectn h _ _ _ => some h
  | .vconf h _ _ _ => some h
  | .scatc h _ _ _ _ _ _ => some h
  | .mpath h _ _ _ _ => some h
  | .vsegred h _ _ _ _ => some h
  | .vsegscan h _ _ _ _ => some h
  | .vcompress h _ _ _ => some h
  | .vexpand h _ _ _ => some h
  | .nredOrd h _ _ _ _ => some h
  | .nredAny h _ _ _ _ => some h
  | .mma h _ _ _ _ _ _ => some h
  | .mmaZ h _ _ _ _ _ _ => some h
  | .mzero h _ _ => some h
  | .mload h _ _ _ => some h
  | .mdrain h _ _ _ => some h
  | .mpair h _ => some h
  | .mstat h _ _ _ => some h
  | .mperm h _ => some h
  | .cclaim h _ _ => some h
  | .crelease h _ => some h
  | .dinit h _ _ => some h
  | .dstat h _ _ => some h
  | .spawn h _ _ => some h
  | .spawnf h _ _ => some h
  | .fref h _ => some h
  | .fdrop h _ => some h
  | .fwait h _ _ => some h
  | .fpoll h _ _ => some h
  | .rpoint h => some h
  | .binpost h _ _ _ _ => some h
  | .send h _ _ => some h
  | .sendt h _ _ => some h
  | .recv h _ _ => some h
  | .patset h _ _ => some h
  | .portopen h _ _ => some h
  | .qcreate h _ _ => some h
  | .qcreateFree h _ => some h
  | .qpush h _ _ => some h
  | .qpop h _ _ => some h
  | .nres h _ _ => some h
  | .nresK h _ _ _ => some h
  | .nchild h _ _ _ => some h
  | .nparent h _ _ => some h
  | .rdc h _ _ => some h
  | .rdcV h _ _ => some h
  | .wrc h _ _ => some h
  | .rgive h _ => some h
  | .rclaim h _ => some h
  | .bar h => some h
  | .launchFlat h _ _ _ _ => some h
  | .launchTree h _ _ _ _ => some h
  | .launchBin h _ _ _ _ => some h
  | .lvlwait h _ _ => some h
  | .lvlwaitPoll h _ _ => some h
  | .lvlcancel h _ => some h
  | .exit h => some h
  | .xlat h _ _ => some h
  | .xinv h _ _ => some h
  | .extn h _ _ _ _ _ => some h
  | .contextCreation => none
  | .contextEnd => none
  | .runBoundWrite _ => none
  | .accessPerformed _ _ => none

/-- The target word of an instruction, from the encoding tables of R98 and R104. -/
def Instr.word : Instr → Option Word
  | .nop h => some (joinA h.c h.s 0#5 0#4 0#3 0#6 0#6 0#6)
  | .trap h n => some (joinA h.c h.s 0#5 1#4 0#3 0#6 0#6 n)
  | .tret h => some (joinA h.c h.s 0#5 2#4 0#3 0#6 0#6 0#6)
  | .trig h a n => some (joinA h.c h.s 0#5 3#4 0#3 0#6 a n)
  | .wfi h => some (joinA h.c h.s 0#5 4#4 0#3 0#6 0#6 0#6)
  | .cswap h d a => some (joinA h.c h.s 0#5 5#4 0#3 d a 0#6)
  | .dusk h d a => some (joinA h.c h.s 0#5 6#4 0#3 d a 0#6)
  | .duskRet h d a => some (joinA h.c h.s 0#5 6#4 1#3 d a 0#6)
  | .sample h => some (joinA h.c h.s 0#5 7#4 0#3 0#6 0#6 0#6)
  | .uadd h d a b => some (joinA h.c h.s 1#5 0#4 0#3 d a b)
  | .usub h d a b => some (joinA h.c h.s 1#5 1#4 0#3 d a b)
  | .umul h d a b => some (joinA h.c h.s 1#5 2#4 0#3 d a b)
  | .umulh h u d a b => some (joinA h.c h.s 1#5 3#4 (0#2 ++ u) d a b)
  | .uand h d a b => some (joinA h.c h.s 1#5 4#4 0#3 d a b)
  | .uor h d a b => some (joinA h.c h.s 1#5 5#4 0#3 d a b)
  | .uxor h d a b => some (joinA h.c h.s 1#5 6#4 0#3 d a b)
  | .ushl h d a b => some (joinA h.c h.s 1#5 7#4 0#3 d a b)
  | .ushr h d a b => some (joinA h.c h.s 1#5 8#4 0#3 d a b)
  | .usar h d a b => some (joinA h.c h.s 1#5 9#4 0#3 d a b)
  | .umin h u d a b => some (joinA h.c h.s 1#5 10#4 (0#2 ++ u) d a b)
  | .umax h u d a b => some (joinA h.c h.s 1#5 11#4 (0#2 ++ u) d a b)
  | .ucmp h u d a b => some (joinA h.c h.s 1#5 12#4 (0#2 ++ u) d a b)
  | .ubfx h u d a b => some (joinA h.c h.s 1#5 13#4 (0#2 ++ u) d a b)
  | .ubfi h d a b => some (joinA h.c h.s 1#5 14#4 0#3 d a b)
  | .uaddImm h d a i => some (joinI h.c h.s 2#5 0#4 d a i)
  | .uandImm h d a i => some (joinI h.c h.s 2#5 1#4 d a i)
  | .uorImm h d a i => some (joinI h.c h.s 2#5 2#4 d a i)
  | .uxorImm h d a i => some (joinI h.c h.s 2#5 3#4 d a i)
  | .ushlImm h d a i => some (joinI h.c h.s 2#5 4#4 d a i)
  | .ushrImm h d a i => some (joinI h.c h.s 2#5 5#4 d a i)
  | .usarImm h d a i => some (joinI h.c h.s 2#5 6#4 d a i)
  | .umulImm h d a i => some (joinI h.c h.s 2#5 7#4 d a i)
  | .ului h d i => some (joinL h.c h.s 3#5 d i)
  | .jmp h o => some (joinB h.c h.s 4#5 0#4 0#3 o)
  | .call h w o => some (joinBW h.c h.s 4#5 1#4 w o)
  | .ret h w => some (joinBW h.c h.s 4#5 2#4 w 0#15)
  | .brmAny h k o => some (joinB h.c h.s 4#5 3#4 k o)
  | .brmAll h k o => some (joinB h.c h.s 4#5 4#4 k o)
  | .brmNone h k o => some (joinB h.c h.s 4#5 5#4 k o)
  | .vbr h k o => some (joinB h.c h.s 4#5 6#4 k o)
  | .recon h => some (joinB h.c h.s 4#5 7#4 0#3 0#18)
  | .bruZ h w o => some (joinBW h.c h.s 4#5 8#4 w o)
  | .bruNz h w o => some (joinBW h.c h.s 4#5 9#4 w o)
  | .bruNeg h w o => some (joinBW h.c h.s 4#5 10#4 w o)
  | .bruNneg h w o => some (joinBW h.c h.s 4#5 11#4 w o)
  | .mand h l d a b => some (joinA h.c h.s 5#5 0#4 (0#2 ++ l) (0#3 ++ d) (0#3 ++ a) (0#3 ++ b))
  | .mor h l d a b => some (joinA h.c h.s 5#5 1#4 (0#2 ++ l) (0#3 ++ d) (0#3 ++ a) (0#3 ++ b))
  | .mxor h l d a b => some (joinA h.c h.s 5#5 2#4 (0#2 ++ l) (0#3 ++ d) (0#3 ++ a) (0#3 ++ b))
  | .mandn h l d a b => some (joinA h.c h.s 5#5 3#4 (0#2 ++ l) (0#3 ++ d) (0#3 ++ a) (0#3 ++ b))
  | .mlead h d a => some (joinA h.c h.s 5#5 4#4 0#3 (0#3 ++ d) (0#3 ++ a) 0#6)
  | .mfirst h d a => some (joinA h.c h.s 5#5 5#4 0#3 d (0#3 ++ a) 0#6)
  | .mcount h d a => some (joinA h.c h.s 5#5 6#4 0#3 d (0#3 ++ a) 0#6)
  | .msetw h d a b => some (joinA h.c h.s 5#5 7#4 0#3 (0#3 ++ d) a b)
  | .mgetw h d a b => some (joinA h.c h.s 5#5 8#4 0#3 d (0#3 ++ a) b)
  | .vadd h k d a b => some (joinA h.c h.s 6#5 0#4 k d a b)
  | .vsub h k d a b => some (joinA h.c h.s 6#5 1#4 k d a b)
  | .vmul h k d a b => some (joinA h.c h.s 6#5 2#4 k d a b)
  | .vmulh h k d a b => some (joinA h.c h.s 6#5 3#4 k d a b)
  | .vand h k d a b => some (joinA h.c h.s 6#5 4#4 k d a b)
  | .vor h k d a b => some (joinA h.c h.s 6#5 5#4 k d a b)
  | .vxor h k d a b => some (joinA h.c h.s 6#5 6#4 k d a b)
  | .vshl h k d a b => some (joinA h.c h.s 6#5 7#4 k d a b)
  | .vshr h k d a b => some (joinA h.c h.s 6#5 8#4 k d a b)
  | .vsar h k d a b => some (joinA h.c h.s 6#5 9#4 k d a b)
  | .vmin h k d a b => some (joinA h.c h.s 6#5 10#4 k d a b)
  | .vmax h k d a b => some (joinA h.c h.s 6#5 11#4 k d a b)
  | .vabs h k d a => some (joinA h.c h.s 6#5 12#4 k d a 0#6)
  | .vbfx h k d a b => some (joinA h.c h.s 6#5 13#4 k d a b)
  | .vbfi h k d a b => some (joinA h.c h.s 6#5 14#4 k d a b)
  | .vaddImm h d a i => some (joinI h.c h.s 7#5 0#4 d a i)
  | .vandImm h d a i => some (joinI h.c h.s 7#5 1#4 d a i)
  | .vorImm h d a i => some (joinI h.c h.s 7#5 2#4 d a i)
  | .vxorImm h d a i => some (joinI h.c h.s 7#5 3#4 d a i)
  | .vshlImm h d a i => some (joinI h.c h.s 7#5 4#4 d a i)
  | .vshrImm h d a i => some (joinI h.c h.s 7#5 5#4 d a i)
  | .vsarImm h d a i => some (joinI h.c h.s 7#5 6#4 d a i)
  | .vmulImm h d a i => some (joinI h.c h.s 7#5 7#4 d a i)
  | .vmovImm h d i => some (joinI h.c h.s 7#5 8#4 d 0#6 i)
  | .fadd h k d a b => some (joinA h.c h.s 8#5 0#4 k d a b)
  | .fsub h k d a b => some (joinA h.c h.s 8#5 1#4 k d a b)
  | .fmul h k d a b => some (joinA h.c h.s 8#5 2#4 k d a b)
  | .ffma h k d a b => some (joinA h.c h.s 8#5 3#4 k d a b)
  | .fmin h k d a b => some (joinA h.c h.s 8#5 4#4 k d a b)
  | .fmax h k d a b => some (joinA h.c h.s 8#5 5#4 k d a b)
  | .fabs h k d a => some (joinA h.c h.s 8#5 6#4 k d a 0#6)
  | .frcp h k d a => some (joinA h.c h.s 8#5 7#4 k d a 0#6)
  | .frsq h k d a => some (joinA h.c h.s 8#5 8#4 k d a 0#6)
  | .fsqrt h k d a => some (joinA h.c h.s 8#5 9#4 k d a 0#6)
  | .fdiv h k d a b => some (joinA h.c h.s 8#5 10#4 k d a b)
  | .fexp2 h k d a => some (joinA h.c h.s 8#5 11#4 k d a 0#6)
  | .flog2 h k d a => some (joinA h.c h.s 8#5 12#4 k d a 0#6)
  | .fneg h k d a => some (joinA h.c h.s 8#5 13#4 k d a 0#6)
  | .dadd h k d a b => some (joinA h.c h.s 9#5 0#4 k d a b)
  | .dsub h k d a b => some (joinA h.c h.s 9#5 1#4 k d a b)
  | .dmul h k d a b => some (joinA h.c h.s 9#5 2#4 k d a b)
  | .dfma h k d a b => some (joinA h.c h.s 9#5 3#4 k d a b)
  | .dmin h k d a b => some (joinA h.c h.s 9#5 4#4 k d a b)
  | .dmax h k d a b => some (joinA h.c h.s 9#5 5#4 k d a b)
  | .ddiv h k d a b => some (joinA h.c h.s 9#5 6#4 k d a b)
  | .dsqrt h k d a => some (joinA h.c h.s 9#5 7#4 k d a 0#6)
  | .hadd2 h k d a b => some (joinA h.c h.s 10#5 0#4 k d a b)
  | .hsub2 h k d a b => some (joinA h.c h.s 10#5 1#4 k d a b)
  | .hmul2 h k d a b => some (joinA h.c h.s 10#5 2#4 k d a b)
  | .hfma2 h k d a b => some (joinA h.c h.s 10#5 3#4 k d a b)
  | .hmin2 h k d a b => some (joinA h.c h.s 10#5 4#4 k d a b)
  | .hmax2 h k d a b => some (joinA h.c h.s 10#5 5#4 k d a b)
  | .vdot4 h k d a b => some (joinA h.c h.s 10#5 6#4 k d a b)
  | .cvt h t k d a f => some (joinA h.c h.s 11#5 t k d a (0#2 ++ f))
  | .vcmpEq h k d a b => some (joinA h.c h.s 12#5 0#4 k (0#3 ++ d) a b)
  | .vcmpNe h k d a b => some (joinA h.c h.s 12#5 1#4 k (0#3 ++ d) a b)
  | .vcmpLt h k d a b => some (joinA h.c h.s 12#5 2#4 k (0#3 ++ d) a b)
  | .vcmpLe h k d a b => some (joinA h.c h.s 12#5 3#4 k (0#3 ++ d) a b)
  | .vcmpGt h k d a b => some (joinA h.c h.s 12#5 4#4 k (0#3 ++ d) a b)
  | .vcmpGe h k d a b => some (joinA h.c h.s 12#5 5#4 k (0#3 ++ d) a b)
  | .vcmpUn h k d a b => some (joinA h.c h.s 12#5 6#4 k (0#3 ++ d) a b)
  | .vcmpOrd h k d a b => some (joinA h.c h.s 12#5 7#4 k (0#3 ++ d) a b)
  | .vtest h k d a b => some (joinA h.c h.s 12#5 8#4 k (0#3 ++ d) a b)
  | .vshuf h k d a b => some (joinA h.c h.s 13#5 0#4 k d a b)
  | .vbcast h k d a b => some (joinA h.c h.s 13#5 1#4 k d a b)
  | .vred h k d a o => some (joinA h.c h.s 13#5 2#4 k d a (0#2 ++ o))
  | .vscan h k d a e o => some (joinA h.c h.s 13#5 3#4 k d a (0#1 ++ e ++ o))
  | .vsel h k d a b => some (joinA h.c h.s 13#5 4#4 k d a b)
  | .vmov h k d a => some (joinA h.c h.s 13#5 5#4 k d a 0#6)
  | .vmovw h k d a => some (joinA h.c h.s 13#5 6#4 k d a 0#6)
  | .ldg h k d x o e z => some (joinM h.c h.s 14#5 0#4 k d x o (e ++ z))
  | .lds h k d o e z => some (joinM h.c h.s 14#5 1#4 k d 0#3 o (e ++ z))
  | .ldsFe h k d o e z => some (joinM h.c h.s 14#5 2#4 k d 0#3 o (e ++ z))
  | .ldsFk h k d o e z => some (joinM h.c h.s 14#5 3#4 k d 0#3 o (e ++ z))
  | .ldw h d x o e z => some (joinM h.c h.s 14#5 4#4 0#3 d x o (e ++ z))
  | .ldws h d o e z => some (joinM h.c h.s 14#5 5#4 0#3 d 0#3 o (e ++ z))
  | .pref h k x o l => some (joinM h.c h.s 14#5 6#4 k 0#6 x o (0#2 ++ l))
  | .stg h k d x o z => some (joinM h.c h.s 15#5 0#4 k d x o (0#1 ++ z))
  | .sts h k d o z => some (joinM h.c h.s 15#5 1#4 k d 0#3 o (0#1 ++ z))
  | .stw h d x o z => some (joinM h.c h.s 15#5 2#4 0#3 d x o (0#1 ++ z))
  | .stws h d o z => some (joinM h.c h.s 15#5 3#4 0#3 d 0#3 o (0#1 ++ z))
  | .feset h d o => some (joinM h.c h.s 15#5 4#4 0#3 d 0#3 o 0#3)
  | .feclr h d o => some (joinM h.c h.s 15#5 5#4 0#3 d 0#3 o 0#3)
  | .atom h p k d x o y => some (joinM h.c h.s 16#5 p k d x o (0#2 ++ y))
  | .red h p k d x o y => some (joinM h.c h.s 16#5 p k d x o (1#2 ++ y))
  | .fence h => some (joinM h.c h.s 17#5 0#4 0#3 0#6 0#3 0#6 0#3)
  | .xfence h q p => some (joinM h.c h.s 17#5 1#4 0#3 (q ++ p) 0#3 0#6 0#3)
  | .spfence h => some (joinM h.c h.s 17#5 2#4 0#3 0#6 0#3 0#6 0#3)
  | .binit h d o => some (joinM h.c h.s 18#5 0#4 0#3 d 0#3 o 0#3)
  | .barrive h o => some (joinM h.c h.s 18#5 1#4 0#3 0#6 0#3 o 0#3)
  | .bwait h d o => some (joinM h.c h.s 18#5 2#4 0#3 d 0#3 o 0#3)
  | .sgjoin h d => some (joinM h.c h.s 18#5 3#4 0#3 d 0#3 0#6 0#3)
  | .sgleave h => some (joinM h.c h.s 18#5 4#4 0#3 0#6 0#3 0#6 0#3)
  | .cpy h u b k t r => some (joinE h.c h.s 19#5 0#4 u b (k ++ t) (0#2 ++ r))
  | .tcpy h u b k t r => some (joinE h.c h.s 19#5 1#4 u b (k ++ t) (0#2 ++ r))
  | .gcpy h u b k t r => some (joinE h.c h.s 19#5 2#4 u b (k ++ t) (0#2 ++ r))
  | .scpy h u b k t r => some (joinE h.c h.s 19#5 3#4 u b (k ++ t) (0#2 ++ r))
  | .isect h d b z => some (joinM h.c h.s 20#5 0#4 0#3 d 0#3 b (0#1 ++ z))
  | .isectn h d b z => some (joinM h.c h.s 20#5 1#4 0#3 d 0#3 b (0#1 ++ z))
  | .vconf h k d a => some (joinA h.c h.s 20#5 2#4 k (0#3 ++ d) a 0#6)
  | .scatc h k d x o y q => some (joinM h.c h.s 20#5 3#4 k d x o (y ++ q))
  | .mpath h k d a b => some (joinA h.c h.s 20#5 4#4 k d a b)
  | .vsegred h k d a b => some (joinA h.c h.s 20#5 5#4 k d a b)
  | .vsegscan h k d a b => some (joinA h.c h.s 20#5 6#4 k d a b)
  | .vcompress h k d a => some (joinA h.c h.s 20#5 7#4 k d a 0#6)
  | .vexpand h k d a => some (joinA h.c h.s 20#5 8#4 k d a 0#6)
  | .nredOrd h u b o r => some (joinE h.c h.s 21#5 0#4 u b o (0#3 ++ r))
  | .nredAny h u b o r => some (joinE h.c h.s 21#5 1#4 u b o (0#3 ++ r))
  | .mma h t b p n k u => some (joinE h.c h.s 22#5 0#4 (0#2 ++ t) b (p ++ n ++ k) (0#3 ++ u))
  | .mmaZ h t b p n k u => some (joinE h.c h.s 22#5 1#4 (0#2 ++ t) b (p ++ n ++ k) (0#3 ++ u))
  | .mzero h t p => some (joinE h.c h.s 22#5 2#4 (0#2 ++ t) 0#6 0#5 (0#3 ++ p))
  | .mload h t b p => some (joinE h.c h.s 22#5 3#4 (0#2 ++ t) b 0#5 (0#3 ++ p))
  | .mdrain h t b p => some (joinE h.c h.s 22#5 4#4 (0#2 ++ t) b 0#5 (0#3 ++ p))
  | .mpair h d => some (joinE h.c h.s 22#5 5#4 d 0#6 0#5 0#4)
  | .mstat h d t l => some (joinE h.c h.s 22#5 6#4 d (0#2 ++ t) 0#5 (0#3 ++ l))
  | .mperm h b => some (joinE h.c h.s 22#5 7#4 0#6 b 0#5 0#4)
  | .cclaim h d b => some (joinE h.c h.s 23#5 0#4 d b 0#5 0#4)
  | .crelease h b => some (joinE h.c h.s 23#5 1#4 0#6 b 0#5 0#4)
  | .dinit h n b => some (joinE h.c h.s 23#5 2#4 (0#2 ++ n) b 0#5 0#4)
  | .dstat h d n => some (joinE h.c h.s 23#5 3#4 d (0#2 ++ n) 0#5 0#4)
  | .spawn h d b => some (joinE h.c h.s 24#5 0#4 d b 0#5 0#4)
  | .spawnf h d b => some (joinE h.c h.s 24#5 1#4 d b 0#5 0#4)
  | .fref h b => some (joinE h.c h.s 24#5 2#4 0#6 b 0#5 0#4)
  | .fdrop h b => some (joinE h.c h.s 24#5 3#4 0#6 b 0#5 0#4)
  | .fwait h d b => some (joinE h.c h.s 24#5 4#4 d b 0#5 0#4)
  | .fpoll h d b => some (joinE h.c h.s 24#5 5#4 d b 0#5 0#4)
  | .rpoint h => some (joinE h.c h.s 24#5 6#4 0#6 0#6 0#5 0#4)
  | .binpost h wh b n l => some (joinE h.c h.s 24#5 7#4 wh b (0#2 ++ n) (0#3 ++ l))
  | .send h p b => some (joinE h.c h.s 25#5 0#4 p b 0#5 0#4)
  | .sendt h d b => some (joinE h.c h.s 25#5 1#4 d b 0#5 0#4)
  | .recv h d p => some (joinE h.c h.s 25#5 2#4 d p 0#5 0#4)
  | .patset h d b => some (joinE h.c h.s 25#5 3#4 d b 0#5 0#4)
  | .portopen h d b => some (joinE h.c h.s 25#5 4#4 d b 0#5 0#4)
  | .qcreate h d b => some (joinE h.c h.s 26#5 0#4 d b 0#5 0#4)
  | .qcreateFree h b => some (joinE h.c h.s 26#5 0#4 0#6 b 0#5 1#4)
  | .qpush h d b => some (joinE h.c h.s 26#5 1#4 d b 0#5 0#4)
  | .qpop h d b => some (joinE h.c h.s 26#5 2#4 d b 0#5 0#4)
  | .nres h a w => some (joinI h.c h.s 27#5 0#4 0#6 a (0#6 ++ w))
  | .nresK h a p w => some (joinI h.c h.s 27#5 0#4 0#6 a (1#2 ++ p ++ w))
  | .nchild h d p w => some (joinI h.c h.s 27#5 1#4 d 0#6 (0#2 ++ p ++ w))
  | .nparent h d w => some (joinI h.c h.s 27#5 2#4 d 0#6 (0#6 ++ w))
  | .rdc h d a => some (joinA h.c h.s 28#5 0#4 0#3 d a 0#6)
  | .rdcV h d a => some (joinA h.c h.s 28#5 0#4 1#3 d a 0#6)
  | .wrc h d a => some (joinA h.c h.s 28#5 1#4 0#3 d a 0#6)
  | .rgive h b => some (joinA h.c h.s 28#5 2#4 0#3 0#6 0#6 b)
  | .rclaim h b => some (joinA h.c h.s 28#5 3#4 0#3 0#6 0#6 b)
  | .bar h => some (joinA h.c h.s 28#5 4#4 0#3 0#6 0#6 0#6)
  | .launchFlat h d a p g => some (joinA h.c h.s 28#5 5#4 0#3 d a (0#4 ++ p ++ g))
  | .launchTree h d a p g => some (joinA h.c h.s 28#5 5#4 1#3 d a (0#4 ++ p ++ g))
  | .launchBin h d a p g => some (joinA h.c h.s 28#5 5#4 2#3 d a (0#4 ++ p ++ g))
  | .lvlwait h d a => some (joinA h.c h.s 28#5 6#4 0#3 d a 0#6)
  | .lvlwaitPoll h d a => some (joinA h.c h.s 28#5 6#4 1#3 d a 0#6)
  | .lvlcancel h a => some (joinA h.c h.s 28#5 7#4 0#3 0#6 a 0#6)
  | .exit h => some (joinA h.c h.s 28#5 8#4 0#3 0#6 0#6 0#6)
  | .xlat h d a => some (joinA h.c h.s 29#5 0#4 0#3 (0#3 ++ d) a 0#6)
  | .xinv h a b => some (joinA h.c h.s 29#5 1#4 0#3 0#6 a b)
  | .extn h f n d a k => some (joinX h.c h.s 31#5 f n d a k 0#1)
  | .brk => some 0xFFFFFFFF#32
  | .dawn => none
  | .i3cRequest => none
  | .blockPlacement _ => none
  | .blockEnd _ => none
  | .census _ => none
  | .shelfReservation _ => none
  | .nodeDispatch _ => none
  | .sweepEnd _ => none
  | .stealRequest _ => none
  | .stealReply _ => none
  | .donatedDispatchArrival _ => none
  | .resultArrival _ _ => none
  | .trapEntry _ => none
  | .interruptEntry _ => none
  | .logRetry _ _ => none
  | .drawerReservation _ => none
  | .copyCompletion _ => none
  | .mmaTake _ => none
  | .tileOpPerform _ _ => none
  | .cclaimGrant _ => none
  | .rclaimGrant _ => none
  | .nredContributionArrival _ => none
  | .patternFiring _ => none
  | .heldMessageAppend _ _ => none
  | .binTimerExpiry _ _ => none
  | .pageMigrationLine => none
  | .hostAccess => none
  | .fabricRemoteAccess => none
  | .post => none
  | .pagerdy => none
  | .termq => none
  | .termack => none
  | .invlen => none
  | .invalidationDone _ => none
  | .routingTableWrite => none
  | .modid => none
  | .sensorSample => none
  | .tickExpiry _ => none
  | .tick => none
  | .alert => none
  | .istat => none
  | .throt => none
  | .evstat => none
  | .termb => none
  | .signctl => none
  | .signComplete => none
  | .part => none
  | .uncorrectableError => none
  | .vctl => none
  | .sampctl => none
  | .blkid1Stop => none
  | .blkid1Resume => none
  | .stopComplete _ => none
  | .hangWatchdogExpiry _ _ => none
  | .duskResume _ => none
  | .registerWrite => none
  | .contextCreation => none
  | .contextEnd => none
  | .runBoundWrite _ => none
  | .accessPerformed _ _ => none

/-- A field with its valid bit (R101). -/
def encField {n : Nat} (x : Option (BitVec n)) : BitVec (1 + n) :=
  match x with
  | some v => 1#1 ++ v
  | none => 0#1 ++ 0#n

/-- The word of a modifier prefix (R101). -/
def ModPfx.word (m : ModPfx) : Word :=
  (0#2 ++ 30#5 ++ 0#2 ++ encField m.mv ++ encField m.ty ++ m.rnd ++ BitVec.ofBool m.sat ++ encField m.sc ++ 0#6 :
    BitVec 32)

/-- The word of an immediate prefix (R101). -/
def immWord (i : BitVec 23) : Word := (0#2 ++ 30#5 ++ 1#2 ++ i : BitVec 32)

/-- The prefix words of a header, the modifier prefix first. -/
def Hd.words (h : Hd) : List Word :=
  (match h.md with | some m => [m.word] | none => []) ++ (match h.im with | some i => [immWord i] | none => [])

/-- The words of an instruction: its prefixes, then its target; no words for a step of the part. -/
def encode (i : Instr) : List Word :=
  match i.word with
  | some w => (match i.hd with | some h => h.words | none => []) ++ [w]
  | none => []

end Sys2Proof
end

