-- ==== Sys2Proof/Machine/State.lean ====
section
/-! DEFINITION. The state of the machine as plain data: all that the spec gives the machine, and the model's own fields
(the schedule, what is issuing now, the counters). -/

namespace Sys2Proof.Machine

/-- Memory: addresses strictly rising, no byte equal to what an unlisted address reads as (log entry 1). -/
abbrev Memory := List Host.Cell

/-- A mask register of up to 1,024 lanes (R29). -/
abbrev Mask := BitVec 1024

/-- Why the machine stops with a fault. -/
inductive Fault where
  /-- Raised by the meaning of an instruction word when no team is issuing: the schedule named none. Safe: the hardware
  issues a word only for a team. -/
  | noTeam
  deriving DecidableEq, Repr

/-- Why the model refuses. -/
inductive Refusal where
  /-- Raised by an arm of `exec` whose instruction has no meaning yet. Safe: nothing is claimed of it. -/
  | notModelled (mnemonic : String)
  deriving DecidableEq, Repr

/-- The cause codes of R376. -/
inductive Cause where
  | illop | illpkt | illreg | badpc | nofeat | fetch | priv | break | swtrap | intr | sysarg
  | xinvalid | align | unmapped | perm | window | noroute | sprange
  | rstack | regpool | lvlfull | launchrec | lvlown | lvlstale | lvlself | treearg
  | bencharg | copyarg | sgroup | sparg | redarg | redcount
  | chestarg | mmaarg | mmafmt | mmamis
  | taskrec | futarg | futdead | portarg | portfull | patarg | binfull | binarg | qarg | qscope
  deriving DecidableEq, Repr

/-- The stall reasons of R448. -/
inductive Reason where
  | idle | fetch | pipe | switch | future | queue | msg | drawer | bench | fewait | score | replay | xlate | throttle
  | debug
  deriving DecidableEq, Repr

/-- A register as chains, pending bits and checks name it (R96). -/
inductive RegName where
  | w (r : Nat)
  | v (r : Nat)
  | m (r : Nat)
  | x (r : Nat)
  deriving DecidableEq, Repr

/-- A translation register (R197). -/
structure XReg where
  vbase : BitVec 56
  frame : BitVec 57
  limit : BitVec 30
  cls : BitVec 3
  val : Bool
  rd : Bool
  wr : Bool
  at' : Bool
  deriving DecidableEq, Repr

/-- One register write: a uniform register, lanes of a vector register (`none` keeps a lane), a mask, one lane word of a
mask, the clearing of some of a mask's lanes, a translation register, a control register of the team, the setting of LSF. -/
inductive RegWrite where
  | w (r : Nat) (v : Dword)
  | v (r : Nat) (lanes : List (Option Word))
  | m (r : Nat) (v : Mask)
  | mw (r j : Nat) (v : Word)
  | mc (r : Nat) (v : Mask)
  | x (r : Nat) (v : XReg)
  | ctl (r : Nat) (v : Dword)
  | lsf
  deriving DecidableEq, Repr

/-- A run-bound result that is not written yet, and the clock at which its latency has passed (R91, R94). -/
structure RunWrite where
  write : RegWrite
  at' : Nat
  deriving DecidableEq, Repr

/-- The current run of a team (R89): words counted, results outstanding, and whether the run has ended and the team
parks with SWITCH until the results are written (R91). `carry` counts the words that have issued after the run's last
one, in its chain: they begin the next run (log entry 101). -/
structure Run where
  count : Nat
  writes : List RunWrite
  ended : Bool
  carry : Nat
  deriving DecidableEq, Repr

/-- A scoreboarded result (R92): the registers whose pending bits it holds, and its writes once it is ready to arrive.
`nred` marks a network-reduction result, whose SCORE park is a reclamation point (R285); `copy` the status word of a copy,
which an XFENCE on path C awaits (R222). -/
structure Pend where
  id : Nat
  regs : List RegName
  ready : Option (List RegWrite)
  nred : Bool
  copy : Bool := false
  deriving DecidableEq, Repr

/-- The paths of R222. -/
inductive Path where
  | l | c | x | s | n | q
  deriving DecidableEq, Repr

/-- What an access does; FESET and FECLR change the granules of a range, one lane for each (R216); BINIT and BARRIVE write a bench or
post to it (R225, R227). -/
inductive AccKind where
  | load | store | atom | scatc | isect | feset | feclr | binit | barrive
  deriving DecidableEq, Repr

/-- One lane of an issued access: its virtual address, its physical address (`none` while its page is absent), whether
it is performed, and the value: operand before, the value read after (loads and atomics). `cmp` is cas's comparand. For a
scratchpad access `va` is the scratchpad address and `pa` the offset in the allocation of `blk`. -/
structure LaneAcc where
  lane : Nat
  va : Nat
  pa : Option Nat
  done : Bool
  val : Nat
  cmp : Nat
  /-- For a scratchpad access the block that it reaches. -/
  blk : Nat
  deriving DecidableEq, Repr

/-- An issued memory access that is not performed whole (R93, R203, R214). `pend` names the result it will make ready,
`scope` its scope where it has one, `logged` that it holds an entry of the operand log. -/
structure MemOp where
  id : Nat
  path : Path
  /-- A scratchpad access of path S: the lanes' `pa` are offsets in the allocations of their blocks (R271, R277). -/
  sp : Bool
  kind : AccKind
  size : Nat
  sx : Bool
  op : Nat
  ty : BitVec 4
  rnd : Nat
  dest : Option RegName
  pend : Option Nat
  scope : Option Nat
  lanes : List LaneAcc
  logged : Bool
  replays : Nat
  sampled : Bool
  /-- A retry is due (R204). -/
  retry : Bool
  pc : BitVec 56
  time : Nat
  /-- $barphase at issue, for the sample record (R430). -/
  phase : Nat
  deriving DecidableEq, Repr

/-- An entry of the reconvergence stack (R123). -/
structure Recon where
  outer : Mask
  pending : Mask
  pc : BitVec 56
  deriving DecidableEq, Repr

/-- A raised trap that waits to enter (R381): cause, INFO, reported address, resume address, the fault records of the
lanes (cause code, address, scratchpad mark), the EXTN word for NOFEAT, the mismatch record for MMAMIS. -/
structure TrapReq where
  cause : Cause
  info : Nat
  pc : BitVec 56
  resume : BitVec 56
  lanes : List (Nat × Nat × Nat × Bool)
  extn : Option Word
  misrec : Dword
  deriving DecidableEq, Repr

/-- What a team waits for after its word has issued (R9, R448). -/
inductive Wait where
  /-- BAR: until the block's barrier phase passes the number (R131). -/
  | bar (phase : Nat)
  /-- LVLWAIT: level slot and generation, the destination register, the pending result (R139). -/
  | level (slot gen d id : Nat)
  /-- BWAIT: the bench's block and offset, and k (R228). -/
  | bench (blk off k : Nat)
  /-- LDS.fe and LDS.fk: the lanes' addresses, size, destination, whether the granules are emptied (R215), and for a
  sampled word the time and $barphase of its issue (R433). -/
  | consume (lanes : List LaneAcc) (size : Nat) (sx : Bool) (dest : Nat) (empty : Bool) (id : Nat)
      (smp : Option (Nat × Nat))
  /-- FWAIT: the future's die and identity, the destination, the pending result, the word's address (R336). -/
  | future (die fut d id : Nat) (pc : BitVec 56)
  /-- RECV: port, destination (R331). -/
  | recv (die port d id : Nat)
  /-- QPOP: queue, destination, the pending result, the word's address and its chain's first word (R355, R376). -/
  | qpop (die q d id : Nat) (pc first : BitVec 56)
  /-- SGJOIN: the key (R242). -/
  | sgjoin (key count : Nat)
  /-- WFI (R392). -/
  | wfi
  /-- TRET, until the stores of its own chain to the frame are performed: the word's address and its chain's first word (R390). -/
  | tret (pc first : BitVec 56)
  deriving DecidableEq, Repr

/-- The operands of an MMA as read at issue (R289, R315): tile, MMA.z, DUP, PR, NC, KI; the drawers, the extents, the
scale table, FZ32 and FZ64; the word's address and its chain's first word. -/
structure MmaReq where
  z : Nat
  zero : Bool
  dup : Bool
  pair : Bool
  nc : Nat
  ki : Nat
  ad : Nat
  bd : Nat
  m : Nat
  n : Nat
  k : Nat
  scale : Nat
  fz : Nat
  pc : BitVec 56
  first : BitVec 56
  deriving DecidableEq, Repr

/-- What a team that is parked before issue waits to be given by a unit: slabs (R129), the tile at a drawer's producer
pointer (R310), the tiles of an MMA (R315); or room in a queue, in its turn (R354). -/
inductive Want where
  | none
  | slabs (k : Nat)
  | drawer (d : Nat)
  | mma (q : MmaReq)
  | push (die q : Nat)
  deriving DecidableEq, Repr

/-- The values of a team's registers at a taking of a watched branch (R55). -/
structure RegVals where
  w : List Dword
  v : List (List Word)
  m : List Mask
  x : List XReg
  deriving DecidableEq, Repr

/-- The spin detector of a team (R55): the branch and target watched, the register values at the last taking, unchanged
iterations, recorded memory lines and scratchpad granules, whether more than 8 of either were read, demotion. -/
structure Spin where
  branch : BitVec 56
  target : BitVec 56
  count : Nat
  vals : Option RegVals
  lines : List Nat
  granules : List (Nat × Nat)
  many : Bool
  demoted : Bool
  deriving DecidableEq, Repr

/-- A team (R27, R31, R32). -/
structure Team where
  idx : Nat
  slot : Nat
  lanes : Nat
  role : BitVec 4
  pc : BitVec 56
  w : List Dword
  v : List (List Word)
  m : List Mask
  x : List XReg
  stack : List Recon
  status : Dword
  fpmode : Dword
  trapcause : Dword
  trappc : Dword
  ended : Bool
  /-- The claimed frame while the team is in its handler (R385). -/
  handler : Option Nat
  trap : Option TrapReq
  /-- The frame that the team's trap entry has claimed (R381). -/
  frame : Option Nat
  /-- An MMAMIS or NOROUTE that the team takes at its next run boundary (R323, R425). -/
  defer : Option TrapReq
  /-- The deferred traps that have come after it, in order: each is taken at a run boundary of its own. -/
  defers : List TrapReq
  run : Run
  pend : List Pend
  ops : List MemOp
  wait : Option Wait
  /-- What a park before issue waits for, and whether the unit has given it: the word's re-issue then completes
  (R129, R310, R315). -/
  want : Want
  granted : Bool
  spin : Spin
  /-- The address of the word that issued last. -/
  word : BitVec 56
  /-- Set by SAMPLE (R452). -/
  sample : Bool
  /-- Set where a comparator's stop suppressed the team's chain: that chain issues at resumption without hitting again
  (R442). -/
  nohit : Bool
  /-- The packet that retired last (R410). -/
  retired : Option (BitVec 56)
  /-- Why the team's last turn did not issue, and whether it parked the team. -/
  reason : Reason
  parked : Bool
  /-- Whether the team has issued a word in this cycle (R448). -/
  issued : Bool
  /-- Whether the present park on a network-reduction result has been counted (R335). -/
  counted : Bool
  /-- The range of an XINV whose retried accesses the team's fetch awaits (R245). -/
  xinv : Option (Nat × Nat)
  /-- The team's code in the last cycle (R448). -/
  code : Nat
  deriving DecidableEq, Repr

/-- The state of a Chest slot of a block (R306, R308): its block-relative index, its physical slot once bound, and
its bytes. -/
structure Chest where
  idx : Nat
  phys : Option Nat
  bytes : Memory
  deriving DecidableEq, Repr

/-- A tile of a drawer's ring (R310): free, being filled by a copy, counted, or taken by an MMA; with the format and
extents that the filling layout recorded (R311). -/
inductive DTileSt where
  | free | filling | counted | taken
  deriving DecidableEq, Repr

structure DTile where
  st : DTileSt
  fmt : Nat
  t0 : Nat
  t1 : Nat
  t2 : Nat
  /-- The occupancy bitmap of a BSR tile (R302); none is all ones. -/
  bits : Option Nat
  deriving DecidableEq, Repr

/-- A drawer (R287, R310). -/
structure Drawer where
  init : Bool
  first : Nat
  count : Nat
  size : Nat
  ring : List DTile
  prod : Nat
  cons : Nat
  deriving DecidableEq, Repr

/-- Operations placed on an accumulator tile and not performed yet, in the tile's order (R318). -/
inductive TileKind where
  | mma | mzero | mload | mdrain
  deriving DecidableEq, Repr

/-- One such operation: its block and, where it is paired, the follower's; for an MMA the drawers and the ring places
taken on both, the extents, the scale table, the permutation table bound, FZ32 and FZ64; for the others their address
and bench. -/
structure TileOp where
  id : Nat
  kind : TileKind
  lead : Nat
  team : Nat
  follower : Option Nat
  zero : Bool
  dup : Bool
  ad : Nat
  ap : Nat
  bd : Nat
  bp : Nat
  fap : Nat
  fbp : Nat
  m : Nat
  n : Nat
  k : Nat
  scale : Nat
  perm : Option (Nat × Nat)
  fz : Nat
  addr : Nat
  bench : Option (Nat × Nat)
  pc : BitVec 56
  /-- The granules that an MLOAD has read or an MDRAIN has written (R258). -/
  done : List Nat
  deriving DecidableEq, Repr

/-- An accumulator tile of a block (R97, R307, R322, R324). -/
structure Tile where
  phys : Nat
  bytes : Memory
  retired : Nat
  permr : Bool
  mismatch : Bool
  dupst : Bool
  misrec : Dword
  ops : List TileOp
  deriving DecidableEq, Repr

/-- A member's place in a sharing group (R242). -/
structure Group where
  key : Nat
  count : Nat
  deriving DecidableEq, Repr

/-- A memory region of a task (R343): base, length, whether it is written. -/
structure Region where
  base : Nat
  len : Nat
  write : Bool
  deriving DecidableEq, Repr

/-- Where a block is (R394, R397); `moving` onto the core that it is about to resume on (R396, R399). -/
inductive Place where
  | resident
  | saved
  | swapped
  | moving
  deriving DecidableEq, Repr

/-- A block that has been dispatched and has not ended (R31 to R36). -/
structure Block where
  id : Nat
  core : Nat
  place : Place
  tag : BitVec 12
  /-- The Bureau's block of a die (R367). -/
  bureau : Option Nat
  /-- The level slot of its launch. -/
  slot : Nat
  block : BitVec 32
  /-- The index by which the launch's status word names it (R43, R351). -/
  index : Nat
  node : Option Nat
  /-- The tree launch a node block belongs to. -/
  tree : Option Nat
  entry : BitVec 56
  wm : Nat
  teams : List Team
  spadSize : Nat
  spad : Memory
  /-- Full granules, rising (R32, R193). -/
  full : List Nat
  pages : List Nat
  chest : List Chest
  /-- CCLAIMs in their order: team, pending result, first index and number (R308). -/
  claims : List (Nat × Nat × Nat × Nat)
  drawers : List Drawer
  tiles : List Tile
  perm : Option (Nat × Nat)
  /-- Lines of scratchpad held by the operand cache (R320): line number and bytes. -/
  ocache : List (Nat × List Byte)
  pool : Nat
  slabs : Nat
  /-- Parked RCLAIMs in order: team and k (R129). -/
  rclaims : List (Nat × Nat)
  barArr : List Nat
  barPhase : Nat
  group : Option Group
  /-- The other block of a pair, and whether this one is the leader (R137, R317). -/
  partner : Option (Nat × Bool)
  /-- The future of the block's task: die and identity (R334). -/
  future : Option (Nat × Nat)
  pcount : Nat
  /-- Futures that the block holds for reclamation of children (R347): die and identity. -/
  holds : List (Nat × Nat)
  regions : List Region
  reclaim : Bool
  cancelled : Bool
  /-- The cause that ended the block, if one did (R45). -/
  fault : Option (Cause × BitVec 56 × Nat)
  stopped : Bool
  /-- A stop that waits for its record (R445): cause, comparator, team, address. -/
  stopping : Option (Nat × Nat × Nat × Dword)
  /-- The cycle in which a comparator stopped the block (R442). -/
  stopTime : Nat
  /-- A command has resumed the block, which goes on once its copies and tile operations are performed (R464). -/
  resuming : Bool
  halt : Bool
  deriving DecidableEq, Repr

/-- The kinds of dispatch (R48, R49, R73, R341, R351, R359). -/
inductive DKind where
  | flat | task | bin | handler | node
  deriving DecidableEq, Repr

/-- The shape and resources that a block needs (R48). -/
structure Shape where
  teams : Nat
  wm : Nat
  regs : Nat
  spad : Nat
  slots : Nat
  tiles : Nat
  role : BitVec 64
  entry : BitVec 56
  deriving DecidableEq, Repr

/-- Work that has been formed and not yet placed whole (R49, R363): the blocks `next` up to `total`, the cursor of the
scan, and the cluster that holds it, if one does; `flying` while it travels to a cluster (R364). `after` names the
tasks whose ends it waits for (R344). -/
structure Dispatch where
  id : Nat
  kind : DKind
  tag : BitVec 12
  slot : Nat
  shape : Shape
  args : List Dword
  next : Nat
  total : Nat
  /-- A bin dispatch's number (R351). -/
  num : Nat
  first : Nat
  count : Nat
  pair : Bool
  cursor : Nat
  held : Option Nat
  flying : Bool
  node : Option Nat
  tree : Option Nat
  future : Option (Nat × Nat)
  regions : List Region
  after : List Nat
  rspad : Nat
  records : List Dword
  rw : Nat
  deriving DecidableEq, Repr

/-- The kinds of launch, which decide the status word's layout (R43). -/
inductive LKind where
  | flat | tree | task | bin | group
  deriving DecidableEq, Repr

/-- A used slot of a context's level table (R37 to R43): kind 1 launch, 2 graph, 3 phase, 4 job. `bad` counts members
whose END was not 0 and `low` is the lowest faulted index. `auto` marks a graph that a pattern firing opened (R40). -/
structure Level where
  slot : Nat
  gen : BitVec 32
  kind : Nat
  lkind : LKind
  parent : Option Nat
  counter : Nat
  complete : Bool
  status : Dword
  cancelled : Bool
  ndone : Nat
  bad : Nat
  low : Option Nat
  pfault : Bool
  phase : Nat
  auto : Bool
  /-- The die on which a graph was created (R344). -/
  die : Nat
  deriving DecidableEq, Repr

/-- A context (R37, R42, R199, R380, R408, R411). -/
structure Ctx where
  tag : BitVec 12
  root : Nat
  tarea : Nat
  frames : Nat
  claimed : List Nat
  rbase : Nat
  rsize : Nat
  acc0 : Dword
  acc2 : Dword
  acc3 : Dword
  trapvec : Dword
  emuvec : Dword
  hostPort : Nat
  pagerPort : Nat
  levels : List Level
  /-- The generations of slots that were freed (R42). -/
  gens : List (Nat × BitVec 32)
  /-- Status words of freed instances that a team still waits for (the model's own): slot, generation, status. -/
  past : List (Nat × BitVec 32 × Dword)
  job : Nat
  latest : Nat
  phases : Nat
  /-- Pages for which an absence message is outstanding (R203). -/
  absent : List Nat
  /-- The cycle at which a team last retired a word, on each die (R447). -/
  alive : List Nat
  deriving DecidableEq, Repr

/-- A message port (R330, R331, R361, R420). -/
structure Port where
  gen : BitVec 32
  owner : Option (BitVec 12)
  msgs : List Dword
  held : List Dword
  refused : Nat
  waiting : List TRef
  deriving DecidableEq, Repr

/-- An active pattern (R331, R357). -/
structure Pattern where
  gen : BitVec 32
  owner : Option (BitVec 12)
  ports : List Nat
  prio : Nat
  shape : Shape
  consts : List Dword
  deriving DecidableEq, Repr

/-- A future's state (R334). -/
inductive FState where
  | pending | done | faulted | reclaimed
  deriving DecidableEq, Repr

/-- A future entry (R330, R334): its identity (the model's own), the owner of an entry in use, the owner of its record,
the record's physical address and fields, the task's launch slot. -/
structure Future where
  id : Nat
  gen : BitVec 32
  owner : Option (BitVec 12)
  tag : BitVec 12
  addr : Nat
  count : Nat
  pcount : Nat
  st : FState
  value : Dword
  task : BitVec 48
  slot : Nat
  deriving DecidableEq, Repr

/-- A work-graph bin (R349 to R351). -/
structure Bin where
  idx : Nat
  tag : BitVec 12
  slot : Nat
  shape : Shape
  rw : Nat
  coal : Nat
  rspad : Nat
  timer : Nat
  deadline : Option Nat
  records : List (List Dword)
  formed : Nat
  /-- The cursor of the placement scan (R49). -/
  cursor : Nat
  deriving DecidableEq, Repr

/-- A queue (R353 to R355). -/
structure Queue where
  gen : BitVec 32
  owner : Option (BitVec 12)
  ring : Nat
  log : Nat
  ew : Nat
  scope : Nat
  core : Nat
  head : Nat
  tail : Nat
  waiting : List TRef
  pushing : List TRef
  deriving DecidableEq, Repr

/-- The state of a tree node (R71). -/
inductive NState where
  | unopened | opened | ready | running | done | faulted
  deriving DecidableEq, Repr

/-- A node of a tree launch whose census has passed: its record, its children by position, its opening order, need,
budget, state, doom, release, its Shelf entry, the refusal of a child in the latest opening pass, whether CAPSTALL counts it,
whether it is dispatched, and its children's entries by position in a downward sweep. -/
structure Node where
  idx : Nat
  kind : Nat
  teams : Nat
  args : List Dword
  children : List Nat
  order : List Nat
  parent : Option Nat
  need : Nat
  budget : Nat
  st : NState
  doomed : Bool
  released : Bool
  entry : Option Nat
  refused : Bool
  counted : Bool
  dispatched : Bool
  entries : List (Option Nat)
  deriving DecidableEq, Repr

/-- Where a tree launch stands (R67, R70, R80): waiting for a census, with a census that an absent page delays, waiting
for the Shelf, sweeping, reporting a census fault, or ending. -/
inductive TPhase where
  | waiting | census | shelf | sweeping | report | ending
  deriving DecidableEq, Repr

/-- Memory as it stood at a moment, with the lines whose home had switched by then (R207). -/
structure Snap where
  mem : Memory
  homes : List (Nat × Nat)
  deriving DecidableEq, Repr

/-- A tree launch (R62 to R80). `snap` is memory as it stood at LAUNCH.tree, with the lines that had moved (`homes`). `gaps` are the
pages of its arrays that were absent then, and `fills` those of them that have become resident, each with memory as it stood
when it was seen so; `seen` is what the census has read before an absent page delayed it: address, length, value (R64, R67). -/
structure Tree where
  id : Nat
  die : Nat
  tag : BitVec 12
  slot : Nat
  record : Nat
  phase : TPhase
  snap : Memory
  homes : List (Nat × Nat)
  gaps : List Nat
  fills : List (Nat × Snap)
  seen : List (Nat × Nat × Nat)
  nodes : List Node
  shelf : List (List Dword)
  free : List Nat
  capstall : Nat
  cause : Nat
  at' : Nat
  cancelled : Bool
  /-- Nodes that a cancel cut while their block ran (R79). -/
  cutRunning : List Nat
  /-- The cursor of the placement scan (R49, R73). -/
  cursor : Nat
  written : List Nat
  deriving DecidableEq, Repr

/-- The kinds of copy (R229). -/
inductive CKind where
  | cpy | tcpy | gcpy | scpy
  deriving DecidableEq, Repr

/-- A tensor layout record (R231). -/
structure Layout where
  perm : Nat
  fmt : Nat
  kind : Nat
  d0 : Nat
  d1 : Nat
  d2 : Nat
  t0 : Nat
  t1 : Nat
  t2 : Nat
  s0 : Int
  s1 : Int
  s2 : Int
  fill : Nat
  aux0 : Nat
  aux1 : Nat
  rsvd : Nat
  deriving DecidableEq, Repr

/-- The on-chip side of a copy (R233): none for `.mm`; a block's scratchpad; a drawer's ring tile; a team's register
window. -/
inductive OnChip where
  | none
  | spad (blk off : Nat)
  | drawer (d ring : Nat)
  | reg (t off : Nat)
  deriving DecidableEq, Repr

/-- How far the reads of one block row of a compressed tile have come (R301, R302): its two offsets once read and whether one of them
failed; the stored indices that are read, by their place in the row, with the tile column of a block that lands in the tile; the
stored values that are read, by that place and the value's place in the block, none for one that failed. -/
structure XRow where
  lo : Option Nat
  hi : Option Nat
  fail : Bool
  cols : List (Nat × Option Nat)
  vals : List ((Nat × Nat) × Option Nat)
  deriving DecidableEq, Repr

/-- A unit that a copy holds, its page having been absent when the engine reached it (R234): its turn, its address, and
whether a retry is due (R204). -/
structure HeldElem where
  turn : Nat
  va : Nat
  due : Bool
  deriving DecidableEq, Repr

/-- A copy in flight (R229 to R240, R296 to R304), as its word read and checked it: direction 0 `.ld`, 1 `.st`, 2 `.mm`;
the memory addresses of CPY; the layout, the tensor base and the origin; the index list and the permutation entries from
coordinate `plo` up; then how far it has come: the units written, those read and not yet written, those held, whether the
status word has been given, what it says (R230), and the rows of a compressed tile. -/
structure Copy where
  id : Nat
  b : Nat
  team : Nat
  kind : CKind
  dir : Nat
  chip : OnChip
  u : Nat
  pend : Option Nat
  bench : Option (Nat × Nat)
  bytes : Nat
  src : Nat
  dst : Nat
  lay : Layout
  base : Nat
  x : Int
  y : Int
  z : Int
  list : List Nat
  plo : Nat
  perm : List Nat
  /-- w[b] and w[b + 1] as the word read them, for the termination report (R410). -/
  wb0 : Nat
  wb1 : Nat
  done : List Nat
  got : List (Nat × Nat)
  held : List HeldElem
  told : Bool
  xlate : Bool
  tagErr : Bool
  range : Bool
  first : Option Nat
  rows : Option (List XRow)
  deriving DecidableEq, Repr

/-- A network-reduction instance (R279, R282). -/
structure NInst where
  tag : BitVec 12
  key : Nat
  epoch : Bool
  count : Nat
  op : Nat
  ord : Bool
  got : List (Nat × Dword × TRef × Nat × Nat)
  deriving DecidableEq, Repr

/-- A contribution on its way (R282): its team, pending result and destination. -/
structure NMsg where
  id : Nat
  tag : BitVec 12
  key : Nat
  epoch : Bool
  index : Nat
  count : Nat
  op : Nat
  ord : Bool
  /-- Sent only once the team's earlier accesses of path L are performed (R284). -/
  rel : Bool
  val : Dword
  r : TRef
  pend : Nat
  d : Nat
  deriving DecidableEq, Repr

/-- What a core had free when a steal request was sent (R418): its partition, team slots, register bytes, scratchpad bytes,
Chest slots, accumulator tiles. -/
structure CoreFree where
  tag : Option (BitVec 12)
  teams : Nat
  regs : Nat
  spad : Nat
  slots : Nat
  tiles : Nat
  deriving DecidableEq, Repr

/-- A steal request in flight (R363): the requester, the victim, and what each of the requester's cores had free. -/
structure Steal where
  thief : Nat
  victim : Nat
  cores : List CoreFree
  deriving DecidableEq, Repr

/-- A record before the unit numbers it (R430, R431): its kind, the place of the event and the kind's fields. -/
structure Rec where
  kind : Nat
  core : Nat
  slot : Nat
  team : Nat
  time : Nat
  launch : Nat
  tag : Nat
  block : Nat
  phase : Nat
  pc : Nat
  f0 : Nat
  f1 : Nat
  f2 : Nat
  deriving DecidableEq, Repr

/-- The registers of a die's Bureau window, management page and debug window (R369, R428, R457), and its Vespers unit. -/
structure Die where
  sens : List (BitVec 16)
  armed : List Bool
  alert : BitVec 16
  istat : BitVec 17
  throt : BitVec 4
  tick : BitVec 16
  tickEnd : Option Nat
  tripped : Bool
  evstat : BitVec 4
  pwr : BitVec 16
  cerr : List (BitVec 48)
  vctl : Dword
  vstate : BitVec 2
  wptr : Nat
  tidx : Nat
  wrap : Bool
  dropped : Nat
  left : Nat
  sampctl : Dword
  filter : Dword
  blkid0 : Dword
  hangwd : Dword
  stopbrk : List Dword
  seq : BitVec 32
  recs : List (Nat × List Dword)
  /-- The records produced in this cycle, and those accepted and not yet stored (R438), each with the VCTL bit of the trigger source
  whose event it is, if it is one. -/
  made : List (Rec × Option Nat)
  queue : List (Rec × Option Nat)
  capstall : List (Dword × Nat × Nat)
  /-- The ports that the Hutch has just changed, in its sequence (R358). -/
  hseq : List Nat
  ports : List (Nat × Port)
  patterns : List (Nat × Pattern)
  futures : List (Nat × Future)
  /-- Futures whose entry is freed while the task is still pending, or while a team has not yet seen their end (R336). -/
  oldFuts : List Future
  bins : List Bin
  queues : List (Nat × Queue)
  /-- The Bureau's $trapvec and $emuvec (R128, R367). -/
  trapvec : Dword
  emuvec : Dword
  deriving DecidableEq, Repr

/-- A core's debug registers and counters (R433, R440, R449), and what its entries hold that belong to no block: bytes of
scratchpad pages, full granules, bytes of Chest slots and of accumulator tiles, by their places in the core window (R191,
R192). -/
structure Core where
  idx : Nat
  cmp : List (Dword × Dword)
  stall : List (BitVec 48)
  mwords : Nat
  spad : Memory
  full : List Nat
  chest : Memory
  tiles : Memory
  deriving DecidableEq, Repr

/-- A flash image of a die (R454). No test of the four reads `magic`. -/
structure Image where
  die : Nat
  magic : BitVec 32
  length : BitVec 32
  load : Nat
  entry : Nat
  param : Nat
  version : BitVec 32
  key : List Byte
  sig : List Byte
  bytes : List Byte
  deriving DecidableEq, Repr

/-- Dawn (R453): the step last ended, the die whose image failed, the flash, the chain value and the log's length. -/
structure Dawn where
  step : Nat
  failed : Option Nat
  flash : List Image
  chain : List Byte
  log : Nat
  deriving DecidableEq, Repr

/-- An L2 line (R402): its address, its tag set, and the bytes of HBM that a dirty line has not written back. -/
structure L2 where
  line : Nat
  tags : List (BitVec 12)
  old : Option (List Byte)
  /-- The line's stored tag at that write-back. -/
  oldTag : Option (BitVec 12)
  deriving DecidableEq, Repr

/-- A TLB entry (R200): context, page's virtual address, page size, frame, permissions X, R, W, A. -/
structure TlbEntry where
  tag : BitVec 12
  page : Nat
  size : Nat
  frame : Nat
  perm : BitVec 4
  deriving DecidableEq, Repr

/-- An invalidation register set (R201). `going` is the range of an invalidation whose retried accesses are not performed yet. -/
structure Inval where
  addr : Dword
  len : BitVec 48
  busy : Bool
  going : Option (Nat × Nat)
  deriving DecidableEq, Repr

/-- What is issuing now (the model's own): the team, the word's address, the chain's first word, the address after the
chain, the identity counter and the run's outstanding results at the chain's start (results of the chain itself are not
awaited, R88), and how the word ended. -/
inductive Res where
  | none | issued | parked | trapped
  /-- By a stop of this cause, of this comparator (R445). -/
  | stopped (cause cmp : Nat)
  deriving DecidableEq, Repr

structure Issue where
  r : TRef
  addr : BitVec 56
  first : BitVec 56
  next : BitVec 56
  base : Nat
  old : List RunWrite
  res : Res
  /-- The trap that ended the word. -/
  req : Option TrapReq
  deriving DecidableEq, Repr

/-- What a cache does by itself (R2, R402): a core's L1 drops a line; an L2 slice writes a line back to HBM, or writes it back and drops
it. -/
inductive CacheMove where
  | l1Drop (core line : Nat)
  | l2Back (line : Nat)
  | l2Drop (line : Nat)
  deriving DecidableEq, Repr

/-- A write of a unit that a write of its module's routing entry holds (R425): the tag it carries, its place and bytes, and the
identity under which it was made. -/
structure UnitWrite where
  tag : Option (BitVec 12)
  addr : Nat
  bytes : List Byte
  id : Nat
  deriving DecidableEq, Repr

/-- A move of the machine (the model's own): a team's chain, a unit's step, a step whose argument comes from outside,
a clock cycle. -/
inductive Turn where
  | issue (r : TRef)
  /-- A team's chain, whose scratchpad word joins the team's accesses and is performed lane by lane (R255, R461). -/
  | apart (r : TRef)
  | unit (i : Instr)
  | outside (i : Instr) (q : Input)
  /-- One lane of an issued access performed, or one granule of a full-empty range, by the access's identity (R216, R255). -/
  | lane (r : TRef) (n l : Nat)
  /-- One unit of a copy moved, by the copy's identity (R258). -/
  | element (n k : Nat)
  /-- One unit of a tile operation that drains performed. -/
  | granule (b : Nat) (z : BitVec 4) (g : Nat)
  /-- A cache drops a line or writes one back. -/
  | cache (m : CacheMove)
  | tick
  deriving DecidableEq, Repr

/-- What the sequencer of CSWAP and DUSK is doing (R395, R396, R397): halting the blocks of a swap of the cores, or of a Dusk of
the cores that it newly vacates, of those that its map names. `ids` are the blocks that it has halted. -/
structure Move where
  cores : List Nat
  named : List Nat
  ids : List Nat
  deriving DecidableEq, Repr

/-- The state of the machine. -/
structure State where
  clock : Nat
  mem : Memory
  ctxs : List Ctx
  blocks : List Block
  dispatches : List Dispatch
  trees : List Tree
  copies : List Copy
  ninsts : List NInst
  nmsgs : List NMsg
  steals : List Steal
  victims : List (Nat × Nat)
  dies : List Die
  cores : List Core
  /-- PART of each core that is not 0 (R457). -/
  parts : List (Nat × BitVec 13)
  /-- Cores under an active Dusk (R397). -/
  dusked : List Nat
  /-- The Bureau teams whose CSWAP or DUSK has reached the sequencer, in order, and what it does for the first (R395). -/
  movers : List TRef
  moving : Option Move
  /-- The team whose MMA has just been taken, or whose drawer tile reserved, and whose chain issues in the same step (R310, R315). -/
  due : Option TRef
  /-- Whether the scratchpad word of the chain that is issuing joins its team's accesses (the model's own, log entry 34). -/
  apart : Bool
  tlb1 : List (Nat × List TlbEntry)
  tlb2 : List (Nat × List TlbEntry)
  /-- The lines of each core's L1 data cache (R2, R401): the context whose access filled the line, and the line. -/
  l1 : List (Nat × List (BitVec 12 × Nat))
  l2 : List L2
  hbmTags : List (Nat × BitVec 12)
  poison : List Nat
  /-- Fills of poisoned lines by a context that the step has met (R404). -/
  hurt : List (Nat × BitVec 12)
  migrations : List (Nat × Nat)
  routes : List Dword
  /-- Modules whose entry was written while accesses to them were outstanding, each time with the identity from which
  accesses are held until those are acknowledged (R425). -/
  routeHolds : List (Nat × Nat)
  /-- Writes of units that such a hold keeps back, in order. -/
  unitQ : List UnitWrite
  sysid : BitVec 20
  pod : BitVec 9
  leafmap : BitVec 512
  podmap : BitVec 512
  offer0 : Dword
  offer1 : Dword
  offer2 : Dword
  offer3 : Dword
  termq : List (BitVec 12)
  termb : List (BitVec 12)
  /-- Ended contexts whose report is not acknowledged: tag and the address of its NERR dword (R407). -/
  unacked : List (BitVec 12 × Nat)
  lost : BitVec 32
  hint : Bool
  /-- Whether the PHL has sent the interrupt message that HINT allows (R421). -/
  hostIrq : Bool
  invHost : Inval
  invDie0 : Inval
  signing : Option Nat
  dawn : Dawn
  /-- The last reply to the host and to the board bus (the model's own): the value, or none for an error. -/
  hostReply : Option (List Byte)
  i3cReply : List Byte
  /-- The requests that the board interface has queued (R460). -/
  i3cCount : Nat
  cur : Issue
  input : Input
  schedule : List Turn
  turns : Nat
  free : Nat
  nextId : Nat
  deriving DecidableEq, Repr

/-! ### Reset -/

/-- A die right after reset (R369, R428, R457). -/
def Die.reset : Die :=
  { sens := List.replicate 16 0#16, armed := List.replicate 16 false, alert := 0xFFFF#16, istat := 0#17, throt := 0#4
    tick := 0#16, tickEnd := none, tripped := false, evstat := 0#4, pwr := 0#16, cerr := List.replicate 21 0#48
    vctl := 0#64, vstate := 0#2, wptr := 0, tidx := 0, wrap := false, dropped := 0, left := 0
    sampctl := 0x400#64, filter := 0#64, blkid0 := 0#64, hangwd := 0#64, stopbrk := List.replicate 64 0#64
    seq := 0#32, recs := [], made := [], queue := [], capstall := List.replicate 64 (0#64, 0, 0), hseq := [], ports := [], patterns := []
    futures := [], oldFuts := [], bins := [], queues := [], trapvec := 0#64, emuvec := 0#64 }

/-- A context specification of zeros. -/
def CtxSpec.zero : CtxSpec :=
  { tag := 0#12, root := 0, tarea := 0, frames := 0, rbase := 0, rsize := 0, acc0 := 0#64, acc2 := 0#64, acc3 := 0#64
    pattern := [] }

/-- An input that presents nothing. -/
def Input.zero : Input :=
  { die := 0#2, idx := 0#32, val := 0#64, inv := .host, i3c := .dawnStatus, host := .read 0 0
    fab := .own ⟨0, 0⟩ 0, mig := ⟨0, 0⟩, err := .l2 0, reg := .hint, ctx := CtxSpec.zero }

/-- Nothing is issuing. -/
def Issue.zero : Issue :=
  { r := ⟨0, 0⟩, addr := 0#56, first := 0#56, next := 0#56, base := 0, old := [], res := .none, req := none }

/-- The machine right after power-on, before Dawn's first step (R453): no context, no block, no image in the flash. -/
def State.reset : State :=
  { clock := 0, mem := [], ctxs := [], blocks := [], dispatches := [], trees := [], copies := [], ninsts := []
    nmsgs := [], steals := [], victims := [], dies := List.replicate 4 Die.reset, cores := [], parts := []
    dusked := [], movers := [], moving := none, due := none, apart := false, tlb1 := [], tlb2 := [], l1 := [], l2 := [], hbmTags := [], poison := [], hurt := [], migrations := []
    routes := List.replicate 512 0#64, routeHolds := [], unitQ := [], sysid := 0#20, pod := 0#9, leafmap := 0#512
    podmap := 0#512, offer0 := 0#64, offer1 := 0#64, offer2 := 0#64, offer3 := 0#64, termq := [], termb := []
    unacked := [], lost := 0#32, hint := false, hostIrq := false, invHost := ⟨0#64, 0#48, false, none⟩, invDie0 := ⟨0#64, 0#48, false, none⟩
    signing := none, dawn := { step := 0, failed := none, flash := [], chain := List.replicate 64 0#8, log := 0 }
    hostReply := none, i3cReply := [], i3cCount := 0, cur := Issue.zero, input := Input.zero, schedule := [], turns := 0, free := 0
    nextId := 0 }

end Sys2Proof.Machine
end

