-- ==== Sys2Proof/Machine/Vespers.lean ====
section
/-! DEFINITION. Vespers capture: how a die's unit stores a record (R430, R437, R438). -/

namespace Sys2Proof.Machine

/-- The numeric code of a cause (R376). -/
def Cause.code : Cause → Nat
  | .illop => 0x01 | .illpkt => 0x02 | .illreg => 0x03 | .badpc => 0x04 | .nofeat => 0x05 | .fetch => 0x06
  | .priv => 0x07 | .break => 0x08 | .swtrap => 0x09 | .intr => 0x0A | .sysarg => 0x0B
  | .xinvalid => 0x10 | .align => 0x11 | .unmapped => 0x12 | .perm => 0x13 | .window => 0x14 | .noroute => 0x15
  | .sprange => 0x16
  | .rstack => 0x20 | .regpool => 0x21 | .lvlfull => 0x22 | .launchrec => 0x23 | .lvlown => 0x24 | .lvlstale => 0x25
  | .lvlself => 0x26 | .treearg => 0x27
  | .bencharg => 0x30 | .copyarg => 0x31 | .sgroup => 0x32 | .sparg => 0x33 | .redarg => 0x34 | .redcount => 0x35
  | .chestarg => 0x40 | .mmaarg => 0x41 | .mmafmt => 0x42 | .mmamis => 0x43
  | .taskrec => 0x50 | .futarg => 0x51 | .futdead => 0x52 | .portarg => 0x53 | .portfull => 0x54 | .patarg => 0x55
  | .binfull => 0x56 | .binarg => 0x57 | .qarg => 0x58 | .qscope => 0x59

/-- The numeric code of a stall reason (R448). -/
def Reason.code : Reason → Nat
  | .idle => 0 | .fetch => 1 | .pipe => 2 | .switch => 3 | .future => 4 | .queue => 5 | .msg => 6 | .drawer => 7
  | .bench => 8 | .fewait => 9 | .score => 10 | .replay => 11 | .xlate => 12 | .throttle => 13 | .debug => 14

/-- The eight dwords of a record with its TRG mark and SEQ (R430). -/
def Rec.dwords (r : Rec) (trg : Bool) (seq : BitVec 32) : List Dword :=
  [ BitVec.ofNat 64 (r.kind + (if trg then 256 else 0) + r.core % 1024 * 2 ^ 9 + r.slot % 16 * 2 ^ 19
      + r.team % 16 * 2 ^ 23 + seq.toNat * 2 ^ 32),
    BitVec.ofNat 64 r.time,
    BitVec.ofNat 64 (r.launch % 2 ^ 48 + r.tag % 4096 * 2 ^ 48),
    BitVec.ofNat 64 (r.block % 2 ^ 32 + r.phase % 2 ^ 32 * 2 ^ 32),
    BitVec.ofNat 64 r.pc, BitVec.ofNat 64 r.f0, BitVec.ofNat 64 r.f1, BitVec.ofNat 64 r.f2 ]

/-- The records of the ring with the record at place `i` replaced. -/
def recPut (i : Nat) (d : List Dword) (l : List (Nat × List Dword)) : List (Nat × List Dword) :=
  l.filter (fun p => p.1 < i) ++ [(i, d)] ++ l.filter (fun p => i < p.1)

/-- Capture states (R436). -/
def capRunning : BitVec 2 := 1#2
def capTriggered : BitVec 2 := 2#2
def capStopped : BitVec 2 := 3#2

/-- Whether a die's unit captures records. -/
def Die.captures (d : Die) : Bool := d.vstate = capRunning || d.vstate = capTriggered

/-- A record produced on a die (R437, R438): it reaches the queue at the end of the cycle. `src` is the VCTL bit of the trigger
source whose event it is, if it is one. -/
def Die.record (d : Die) (r : Rec) (src : Option Nat) : Die :=
  if d.captures then { d with made := d.made ++ [(r, src)] } else d

/-- The write of a record to a die's capture ring: whether its source is enabled is judged then (R437). -/
def Die.store (d : Die) (r : Rec) (src : Option Nat) : Die :=
  if d.captures then
    let trg := d.vstate = capRunning && src.any fun i => d.vctl.getLsbD i
    let wp := (d.wptr + 1) % 65536
    let d1 := { d with recs := recPut d.wptr (r.dwords trg d.seq) d.recs, seq := d.seq + 1#32, wptr := wp
                       wrap := d.wrap || wp = 0 }
    if trg then
      let post := natBits d.vctl.toNat 32 16
      { d1 with tidx := d.wptr, left := post, evstat := d.evstat ||| 2#4
                vstate := if post = 0 then capStopped else capTriggered }
    else if d.vstate = capTriggered then
      { d1 with left := d.left - 1, vstate := if d.left - 1 = 0 then capStopped else capTriggered }
    else d1
  else d

/-- Records in the order of one cycle (R438): by core number and then by team slot. -/
def recOrder (l : List (Rec × Option Nat)) : List (Rec × Option Nat) :=
  let key (x : Rec × Option Nat) : Nat := x.1.core * 16 + x.1.slot
  l.foldl (fun r x => r.takeWhile (fun y => decide (key y ≤ key x)) ++ [x] ++ r.dropWhile fun y => decide (key y ≤ key x)) []

/-- The records of the queue (R438). -/
def capQueue : Nat := 256

/-- The records produced in a cycle enter the queue; those that find it full are lost and counted (R436, R438). -/
def Die.enqueue (d : Die) : Die :=
  let room := capQueue - d.queue.length
  let l := recOrder d.made
  { d with made := [], queue := d.queue ++ l.take room, dropped := min 65535 (d.dropped + (l.length - room)) }

/-- The end of a cycle: the unit takes one record from the queue and stores it (R438). -/
def Die.capture (d : Die) : Die :=
  let d1 := d.enqueue
  match d1.queue with
  | [] => d1
  | x :: xs => { d1 with queue := xs }.store x.1 x.2

/-- Every queued record stored, as a write of EN = 0 awaits it (R438). -/
def Die.drain (d : Die) : Die :=
  let d1 := d.enqueue
  d1.queue.foldl (fun e x => e.store x.1 x.2) { d1 with queue := [] }

end Sys2Proof.Machine
end

