-- ==== Sys2Proof/Machine/Ops.lean ====
section
/-! DEFINITION. The named operations over memory, registers, masks and the pieces of the state; translation and fetch;
how a word issues, parks and traps; taking a trap, and the return from one. -/

namespace Sys2Proof.Machine

/-- The outcome of a step. -/
abbrev Out := Host.Outcome State Fault Refusal

/-- Distinct elements of a list of numbers. -/
def distinct : List Nat → List Nat
  | [] => []
  | x :: xs => if xs.contains x then distinct xs else x :: distinct xs

/-! ### Memory (R5, R6; log entry 1) -/

/-- Whether memory is in its canonical form: addresses strictly rising, and no byte 0 listed. -/
def Memory.wfAux : Nat → Memory → Bool
  | _, [] => true
  | lo, (a, b) :: m => decide (lo ≤ a) && (b != 0#8) && Memory.wfAux (a + 1) m

/-- The canonical form of memory. -/
def Memory.wf (m : Memory) : Bool := Memory.wfAux 0 m

/-- What an address that is not listed reads as (log entry 1). -/
def Memory.empty : Byte := 0#8

/-- The byte at an address. -/
def Memory.rd : Memory → Nat → Byte
  | [], _ => Memory.empty
  | (a, b) :: m, x => if a = x then b else Memory.rd m x

/-- The cells that bytes make from an address up, without the bytes that an unlisted address reads as. -/
def cellsFrom : Nat → List Byte → Memory
  | _, [] => []
  | a, b :: bs => if b = Memory.empty then cellsFrom (a + 1) bs else (a, b) :: cellsFrom (a + 1) bs

/-- Bytes written from an address up. -/
def Memory.wr (m : Memory) (a : Nat) (bs : List Byte) : Memory :=
  m.filter (fun c => c.1 < a) ++ cellsFrom a bs ++ m.filter (fun c => a + bs.length ≤ c.1)

/-- `n` bytes from an address up. -/
def Memory.bytes (m : Memory) : Nat → Nat → List Byte
  | _, 0 => []
  | a, n + 1 => m.rd a :: Memory.bytes m (a + 1) n

/-- `n` bytes read as one little-endian value (R9, `mem.rd`). -/
def Memory.rdN (m : Memory) (a n : Nat) : Nat := bytesNat (m.bytes a n)

/-- The low `n` bytes of `v` written (R9, `mem.wr`). -/
def Memory.wrN (m : Memory) (a n v : Nat) : Memory := m.wr a (natBytes n v)

/-! ### Masks (R28, R29) -/

/-- The mask of the first `n` lanes. -/
def maskAll (n : Nat) : Mask := BitVec.ofNat 1024 (2 ^ n - 1)

/-- The lanes of a mask below `n`, in increasing index (R9, `active`). -/
def maskLanes (m : Mask) (n : Nat) : List Nat := (List.range n).filter fun l => m.getLsbD l

/-- Lane word `j` of a mask (R27). -/
def maskWord (m : Mask) (j : Nat) : Word := m.extractLsb' (32 * j) 32

/-- The summary word of a mask (R29). -/
def maskSummary (m : Mask) : Word :=
  BitVec.ofNat 32 (((List.range 32).filter fun j => maskWord m j != 0#32).foldl (fun s j => s + 2 ^ j) 0)

/-- A mask with lane word `j` replaced (R125). -/
def maskSetWord (m : Mask) (j : Nat) (w : Word) : Mask :=
  (m &&& ~~~((BitVec.ofNat 1024 0xFFFFFFFF) <<< (32 * j))) ||| (w.setWidth 1024 <<< (32 * j))

/-- The mask of the given lanes. -/
def maskOf (ls : List Nat) : Mask := ls.foldl (fun m l => m ||| (1#1024 <<< l)) 0#1024

/-- The number of passes of a V word: its non-empty mask words, and one for an empty mask (R30). -/
def passes (m : Mask) : Nat :=
  max 1 ((List.range 32).filter fun j => maskWord m j != 0#32).length

/-! ### Finding and changing pieces of the state -/

/-- The resident block of an identity. -/
def State.block? (s : State) (b : Nat) : Option Block := s.blocks.find? fun x => x.id == b

/-- A team of a block. -/
def Block.team? (b : Block) (t : Nat) : Option Team := b.teams.find? fun x => x.idx == t

/-- A team with its block. -/
def State.team? (s : State) (r : TRef) : Option (Block × Team) :=
  match s.block? r.b with
  | some b => match b.team? r.t with | some t => some (b, t) | none => none
  | none => none

/-- The state with a block changed. -/
def State.updBlock (s : State) (b : Nat) (f : Block → Block) : State :=
  { s with blocks := updWhere (fun x => x.id == b) f s.blocks }

/-- The block with a team changed. -/
def Block.updTeam (b : Block) (t : Nat) (f : Team → Team) : Block :=
  { b with teams := updWhere (fun x => x.idx == t) f b.teams }

/-- The state with a team changed. -/
def State.updTeam (s : State) (r : TRef) (f : Team → Team) : State :=
  s.updBlock r.b fun b => b.updTeam r.t f

/-- The context of an owner tag. -/
def State.ctx? (s : State) (t : BitVec 12) : Option Ctx := s.ctxs.find? fun c => c.tag == t

/-- The context of a block; a Bureau's block has none (R368). -/
def State.ctxOf (s : State) (b : Block) : Option Ctx := if b.bureau.isSome then none else s.ctx? b.tag

/-- The state with a context changed. -/
def State.updCtx (s : State) (t : BitVec 12) (f : Ctx → Ctx) : State :=
  { s with ctxs := updWhere (fun c => c.tag == t) f s.ctxs }

/-- A die's registers and units; a die that does not exist reads as after reset. -/
def State.die (s : State) (e : Nat) : Die := s.dies.getD e Die.reset

/-- The state with a die changed. -/
def State.updDie (s : State) (e : Nat) (f : Die → Die) : State := { s with dies := updAt f s.dies e }

/-- The die of a core (R4). -/
def coreDie (c : Nat) : Nat := c / 256

/-- The cluster of a core (R4). -/
def coreCluster (c : Nat) : Nat := c / 4

/-- A core's debug registers; a core that none was written for reads as after reset (R449). -/
def State.core (s : State) (c : Nat) : Core :=
  match s.cores.find? fun x => x.idx == c with
  | some x => x
  | none => { idx := c, cmp := List.replicate 6 (0#64, 0#64), stall := List.replicate 16 0#48, mwords := 0
              spad := [], full := [], chest := [], tiles := [] }

/-- The state with a core's debug registers changed. -/
def State.updCore (s : State) (c : Nat) (f : Core → Core) : State :=
  if s.cores.any fun x => x.idx == c then { s with cores := updWhere (fun x => x.idx == c) f s.cores }
  else { s with cores := s.cores ++ [f (s.core c)] }

/-- A fresh free value of 64 bits (log entry 9). -/
def State.fresh (s : State) : Dword × State := (Config.freeDword s.free, { s with free := s.free + 1 })

/-- A fresh choice among `n` candidates, which the spec leaves to a unit (log entry 9). -/
def State.choice (s : State) (n : Nat) : Nat × State :=
  (if n = 0 then 0 else Config.freeChoice s.free % n, { s with free := s.free + 1 })

/-- A fresh identity. -/
def State.newId (s : State) : Nat × State := (s.nextId, { s with nextId := s.nextId + 1 })

/-! ### Registers -/

/-- A uniform register (R96). -/
def Team.rw (t : Team) (r : BitVec 6) : Dword := t.w.getD r.toNat 0#64

/-- A lane of a vector register (R96). -/
def Team.rv (t : Team) (r l : Nat) : Word := (t.v.getD r []).getD l 0#32

/-- A lane of a vector register or pair, as a natural number (R97). -/
def Team.rvN (t : Team) (wide : Bool) (r l : Nat) : Nat :=
  if wide then (t.rv r l).toNat + 2 ^ 32 * (t.rv (r + 1) l).toNat else (t.rv r l).toNat

/-- A mask register (R29). -/
def Team.rm (t : Team) (r : BitVec 3) : Mask := t.m.getD r.toNat 0#1024

/-- A translation register that is invalid (R32). -/
def XReg.invalid : XReg :=
  { vbase := 0#56, frame := 0#57, limit := 0#30, cls := 0#3, val := false, rd := false, wr := false, at' := false }

/-- A translation register (R197). -/
def Team.rx (t : Team) (r : BitVec 3) : XReg := t.x.getD r.toNat XReg.invalid

/-- The register count (R36). -/
def Team.regs (t : Team) : Nat := t.v.length

/-- The mask words of a team (R27). -/
def Team.words (t : Team) : Nat := ceilDiv t.lanes 32

/-- New lane values over old ones; `none` keeps a lane. -/
def mergeLanes : List Word → List (Option Word) → List Word
  | [], _ => []
  | o :: os, [] => o :: os
  | o :: os, n :: ns => n.getD o :: mergeLanes os ns

/-- Bits of $status that a write changes: LSM as written, LSF cleared by a 1 (R379). -/
def statusWrite (old v : Dword) : Dword :=
  let lsf := old.getLsbD 8 && !v.getLsbD 8
  (old &&& ~~~0x101#64) ||| (v &&& 1#64) ||| (if lsf then 0x100#64 else 0#64)

/-- Bits of $fpmode that exist (R182). -/
def fpmodeWrite (v : Dword) : Dword := v &&& 0xF#64

/-- One register write of a team. A vector register that the team does not hold takes nothing (R130). Writes of
$trapvec and $emuvec are the context's and are made by `State.regWrite`. -/
def Team.regWrite (t : Team) : RegWrite → Team
  | .w r v => { t with w := t.w.set r v }
  | .v r ls => { t with v := updAt (fun old => mergeLanes old ls) t.v r }
  | .m r v => { t with m := t.m.set r (v &&& maskAll t.lanes) }
  | .mw r j v => { t with m := updAt (fun old => maskSetWord old j v &&& maskAll t.lanes) t.m r }
  | .mc r v => { t with m := updAt (fun old => old &&& ~~~v) t.m r }
  | .x r v => { t with x := t.x.set r v }
  | .ctl r v =>
    if r = 9 then { t with status := statusWrite t.status v }
    else if r = 10 then { t with fpmode := fpmodeWrite v }
    else t
  | .lsf => { t with status := t.status ||| 0x100#64 }

/-- The register that a write names, for pending bits; control registers have none. -/
def RegWrite.name? : RegWrite → Option RegName
  | .w r _ => some (.w r)
  | .v r _ => some (.v r)
  | .m r _ => some (.m r)
  | .mw r _ _ => some (.m r)
  | .mc r _ => some (.m r)
  | .x r _ => some (.x r)
  | .ctl _ _ => none
  | .lsf => none

/-- The spin record cleared (R55). -/
def Spin.zero : Spin :=
  { branch := 0#56, target := 0#56, count := 0, vals := none, lines := [], granules := [], many := false, demoted := false }

/-- Whether a context's spin detector is frozen: a block of it is halted by a stop (R56). -/
def State.frozen (s : State) (tag : BitVec 12) : Bool := s.blocks.any fun b => b.tag == tag && b.stopped

/-- A register write of a team: its own registers, or the context's vectors (R128). -/
def State.regWrite (s : State) (r : TRef) (w : RegWrite) : State :=
  match w with
  | .ctl 24 v =>
    match s.block? r.b with
    | some b =>
      match b.bureau with
      | some e => s.updDie e fun d => { d with trapvec := v }
      | none => s.updCtx b.tag fun c => { c with trapvec := v }
    | none => s
  | .ctl 25 v =>
    match s.block? r.b with
    | some b =>
      match b.bureau with
      | some e => s.updDie e fun d => { d with emuvec := v }
      | none => s.updCtx b.tag fun c => { c with emuvec := v }
    | none => s
  | w => s.updTeam r fun t => t.regWrite w

/-- Register writes in order. -/
def State.regWrites (s : State) (r : TRef) (ws : List RegWrite) : State := ws.foldl (fun s w => s.regWrite r w) s

/-! ### Levels and handles (R41) -/

/-- The level table's used slot. -/
def Ctx.level? (c : Ctx) (slot : Nat) : Option Level := c.levels.find? fun l => l.slot == slot

/-- The handle of a level instance (R41). -/
def levelHandle (tag : BitVec 12) (l : Level) : Dword :=
  BitVec.ofNat 64 (tag.toNat * 2 ^ 52 + l.kind % 8 * 2 ^ 48 + l.gen.toNat * 2 ^ 16 + l.slot % 65536)

/-- $level of a block: the handle of its launch instance (R128). -/
def State.levelOf (s : State) (b : Block) : Dword :=
  match s.ctxOf b with
  | some c => match c.level? b.slot with | some l => levelHandle b.tag l | none => 0#64
  | none => 0#64

/-! ### Records (R430) -/

/-- A record of an event of a team (R430). -/
def State.recordOf (s : State) (b : Block) (t : Team) (kind pc f0 f1 f2 : Nat) : Rec :=
  { kind := kind, core := b.core, slot := t.slot, team := t.idx, time := s.clock
    launch := (s.levelOf b).toNat % 2 ^ 48, tag := b.tag.toNat, block := b.block.toNat, phase := b.barPhase
    pc := pc, f0 := f0, f1 := f1, f2 := f2 }

/-- Whether a context's teams produce records (R412, R429). -/
def State.vesp (s : State) (b : Block) : Bool :=
  match s.ctxOf b with
  | some c => (c.acc0 &&& s.offer0).getLsbD 1
  | none => false

/-- A record stored by the unit of the block's die, unless the context produces none (R429). `bit` is the VCTL bit of
the event's trigger source (R435). -/
def State.record (s : State) (b : Block) (r : Rec) (bit : Nat) : State :=
  if s.vesp b then s.updDie (coreDie b.core) fun d => d.record r (some bit) else s

/-! ### Tables of units -/

/-- An entry of a sparse table of a unit. -/
def entry? {α : Type} (l : List (Nat × α)) (i : Nat) : Option α :=
  match l.find? fun p => p.1 == i with
  | some p => some p.2
  | none => none

/-- The table with an entry put, in rising order of index. -/
def entryPut {α : Type} (l : List (Nat × α)) (i : Nat) (x : α) : List (Nat × α) :=
  l.filter (fun p => p.1 < i) ++ [(i, x)] ++ l.filter (fun p => i < p.1)

/-! ### The physical map (R188, R189) -/

/-- The MODULE field of a physical address. -/
def paModule (pa : Nat) : Nat := pa / 2 ^ 48 % 512
/-- The LOCAL field of a physical address. -/
def paLocal (pa : Nat) : Nat := pa % 2 ^ 48
/-- Bytes of HBM. -/
def hbmSize : Nat := 0x8000000000
/-- First local address of the core windows. -/
def coreWin : Nat := 0x800000000000
/-- First local address of the unit windows. -/
def unitWin : Nat := 0x800200000000
/-- The end of the unit windows. -/
def unitEnd : Nat := 0x800300000000
/-- A die's Bureau window, SRAM, management page and debug window (R368, R428, R457). -/
def bureauWin (d : Nat) : Nat := 0x8002E0000000 + d * 0x1000
def sramBase (d : Nat) : Nat := 0x8002F0000000 + d * 0x40000
def mgmtPage (d : Nat) : Nat := 0x8002E0010000 + d * 0x1000
def debugWin (d : Nat) : Nat := 0x8002B0000000 + d * 0x800000
/-- The fabric page and the host page (R419). -/
def fabricPage : Nat := 0x8002C0000000
def hostPage : Nat := 0x8002D0000000

/-- Whether a local address lies in the Hutch port windows (R419). -/
def inPorts (a : Nat) : Bool := unitWin ≤ a && a < unitWin + 0x100000
/-- Whether a core-window offset is not reserved (R191). -/
def coreOffOk (o : Nat) : Bool := o < 0x440000 || (0x480000 ≤ o && o < 0x4A0000) || (0x4A0000 ≤ o && o < 0x4B0000)
/-- Whether a local address lies in a core window at an offset that is not reserved. -/
def inCoreWin (a : Nat) : Bool := coreWin ≤ a && a < unitWin && coreOffOk ((a - coreWin) % 0x800000)
/-- Whether a local address is in the unit windows that a context's translation may name: the port windows (R419). The
Bureau's windows, the management pages and the debug windows are reserved for everyone but their Bureau (R428, R457). -/
def inUnitWin (a : Nat) : Bool :=
  inPorts a || (fabricPage ≤ a && a < fabricPage + 0x2000) || (hostPage ≤ a && a < hostPage + 0x1000)
    || (bureauWin 0 ≤ a && a < bureauWin 4) || (sramBase 0 ≤ a && a < sramBase 4)
/-- Whether a local address is reserved (R189). -/
def reservedLocal (a : Nat) : Bool := !(a < hbmSize || inCoreWin a || inUnitWin a)
/-- Whether a local address lies in a window (R192). -/
def inWindow (a : Nat) : Bool := hbmSize ≤ a

/-- The routing-table entry of a module, if it is valid (R206, R424). -/
def State.route? (s : State) (m : Nat) : Option Dword :=
  let e := s.routes.getD m 0#64
  if e.getLsbD 31 && natBits e.toNat 0 18 ≠ 0 && m ≤ 319 then some e else none

/-- Whether this module has a route to a module (R199, R206): its own needs none. -/
def State.routed (s : State) (m : Nat) : Bool := m = s.pod.toNat || (s.route? m).isSome

/-- Whether a context may reach a module (R202, R412): its own, or one with a valid entry where FABRIC is accepted. -/
def State.reachable (s : State) (c : Ctx) (m : Nat) : Bool :=
  m = s.pod.toNat || ((s.route? m).isSome && (c.acc0 &&& s.offer0).getLsbD 2)

/-! ### Spin detector: a write to what a team has recorded ends its demotion (R55) -/

/-- The block with the spin records of its teams cleared where `p` holds. -/
def Block.unspin (b : Block) (p : Spin → Bool) : Block :=
  { b with teams := b.teams.map fun t => if p t.spin then { t with spin := { t.spin with count := 0, demoted := false } } else t }

/-- A write of memory that also ends demotions (R55, R56). -/
def State.unspin (s : State) (p : Spin → Bool) : State :=
  { s with blocks := s.blocks.map fun b => if s.frozen b.tag then b else b.unspin p }

/-- A write of `n` bytes at a physical address that no line's tag, poison or cache sees: the spin detectors see it (R55). -/
def State.unspinAt (s : State) (a n : Nat) : State :=
  s.unspin fun p => p.lines.any fun x => decide (a / 64 ≤ x) && decide (64 * x < a + n)

/-! ### Physical memory -/

/-- The place of a byte whose page is migrating (R207): the destination of a line that has switched. -/
def State.home (s : State) (pa : Nat) : Nat :=
  match s.migrations.find? fun m => m.1 == pa / 64 with
  | some m => m.2 * 64 + pa % 64
  | none => pa

/-- `n` bytes at a physical address, each at its current home. -/
def State.pmBytes (s : State) : Nat → Nat → List Byte
  | _, 0 => []
  | pa, n + 1 => s.mem.rd (s.home pa) :: s.pmBytes (pa + 1) n

/-- `n` bytes at a physical address as a little-endian value. -/
def State.pmRd (s : State) (pa n : Nat) : Nat := bytesNat (s.pmBytes pa n)

/-- Bytes written at a physical address, each at its current home. An access lies in one 64-byte line, or its lines are
written one after another by the caller. -/
def State.pmWr (s : State) (pa : Nat) (bs : List Byte) : State :=
  if s.migrations.isEmpty then { s with mem := s.mem.wr pa bs }
  else { s with mem := (bs.zipIdx.foldl (fun m p => Memory.wr m (s.home (pa + p.2)) [p.1]) s.mem) }

/-- The tags of a line after an access of a context (R402): the L2 set grows to four, and a fifth resets it. -/
def l2Touch (l : L2) (tag : BitVec 12) : L2 :=
  if l.tags.contains tag then l
  else if l.tags.length < 4 then { l with tags := l.tags ++ [tag] }
  else { l with tags := [tag], old := none, oldTag := none }

/-- The L2 slice of a line, by a fixed hash of its local address that is not architectural (R190, R408). -/
def sliceOf (line : Nat) : Nat := Config.l2Slice (natBits (64 * line) 6 33) % 16

/-- The stack of a line (R190). -/
def stackOf (line : Nat) : Nat := natBits (64 * line) 10 3 ^^^ natBits (64 * line) 13 3

/-- Whether two lines have one L2 slice: of one module, one die and one place in it (R190). -/
def sameSlice (a b : Nat) : Bool := a / 2 ^ 42 = b / 2 ^ 42 && stackOf a / 2 = stackOf b / 2 && sliceOf a = sliceOf b

/-- The lines of an L2 slice of 4 MiB, and of an L1 data cache of 128 KiB (R2). -/
def sliceLines : Nat := 65536
def l1Lines : Nat := 2048

/-- Room for a line in its L2 slice (R2): of a full slice, a line of the hardware's choosing is written back and dropped. -/
def State.l2Room (s : State) (line : Nat) : State :=
  if s.l2.length < sliceLines || s.l2.any fun x => x.line == line then s
  else
    let mates := s.l2.filter fun x => sameSlice x.line line
    if mates.length < sliceLines then s
    else
      match s.choice mates.length with
      | (i, s1) => match mates[i]? with | some v => { s1 with l2 := s1.l2.filter fun x => x.line != v.line } | none => s1

/-- The L2 slice's view of an access by a context, or by the host without a tag (R401, R402): the line is filled, its
tag set grows, and before its first write since its last write-back the bytes of HBM are kept. -/
def State.l2Put (s : State) (tag : Option (BitVec 12)) (line : Nat) (write : Bool) : State :=
  let l0 : L2 := match s.l2.find? fun x => x.line == line with
    | some x => x
    | none => { line := line, tags := [], old := none, oldTag := none }
  let l1 := match tag with | some t => l2Touch l0 t | none => l0
  let l2 := if write && l1.old.isNone then 
      { l1 with old := some (s.mem.bytes (64 * line) 64), oldTag := entry? s.hbmTags line } else l1
  { s with l2 := s.l2.filter (fun x => x.line < line) ++ [l2] ++ s.l2.filter (fun x => line < x.line)
           hbmTags := if write then
               (match tag with
                | some t => entryPut s.hbmTags line t
                | none => s.hbmTags.filter fun p => p.1 != line)
             else s.hbmTags }

/-- `State.l2Put` with room made for the line first; windows are not cached. -/
def State.l2Access (s : State) (tag : Option (BitVec 12)) (line : Nat) (write : Bool) : State :=
  if inWindow (paLocal (64 * line)) then s else (s.l2Room line).l2Put tag line write

/-- A core's L1 data cache after a context's load of a byte (R2, R401): a line that it does not hold is filled, and the one filled
longest ago leaves a full cache. -/
def State.l1Fill (s : State) (core : Nat) (tag : BitVec 12) (pa : Nat) : State :=
  let line := s.home pa / 64
  let l := (entry? s.l1 core).getD []
  if inWindow (paLocal (64 * line)) || l.any (fun p => p.2 == line) then s
  else { s with l1 := entryPut s.l1 core (((tag, line) :: l).take l1Lines) }

/-- What a cache does by itself: memory reads as before, and what HBM holds of a line written back is what memory has (R2, R402; log
entry 44). -/
def State.cacheMove (s : State) : CacheMove → State
  | .l1Drop core line => { s with l1 := s.l1.map fun p => if p.1 == core then (p.1, p.2.filter fun q => q.2 != line) else p }
  | .l2Back line => { s with l2 := updWhere (fun x => x.line == line) (fun x => { x with old := none, oldTag := none }) s.l2 }
  | .l2Drop line => { s with l2 := s.l2.filter fun x => x.line != line }

/-- A fill of a line that is poisoned (R404): it ends the requester, if it has a tag, and the line's stored tag. A Bureau's fill has
no tag; a host read is answered with an error and makes none. -/
def State.fill (s : State) (tag : Option (BitVec 12)) (line : Nat) : State :=
  if s.poison.contains line then
    { s with hurt := s.hurt ++ (tag.toList ++ (entry? s.hbmTags line).toList).map fun x => (line, x) }
  else s

/-- A write of memory by a context (or the host), with what goes with it: the L2 tag set, the stored tag, the spin
detectors, the clearing of poison by a write of the whole line (R55, R401, R402, R404). -/
def State.memWr (s : State) (tag : Option (BitVec 12)) (pa : Nat) (bs : List Byte) : State :=
  let line := s.home pa / 64
  let whole := decide (pa % 64 = 0) && decide (bs.length = 64)
  let s0 := if whole then { s with poison := s.poison.filter fun x => x != line } else s.fill tag line
  let s1 := s0.l2Access tag line true
  let s2 := s1.pmWr pa bs
  s2.unspin fun p => p.lines.contains line

/-- A read of memory by a context: its value, and the line filled (R402). -/
def State.memRd (s : State) (tag : Option (BitVec 12)) (pa n : Nat) : Nat × State :=
  (s.pmRd pa n, (s.fill tag (s.home pa / 64)).l2Access tag (s.home pa / 64) false)

/-- The lines of some places filled by reads of a context (R402, R404). -/
def State.touchAll (s : State) (tag : Option (BitVec 12)) (as : List Nat) : State :=
  (distinct (as.map fun a => a / 64 * 64)).foldl (fun s a => (s.memRd tag a 1).2) s

/-! ### Accesses to other modules (R423, R425) -/

/-- The module that is home to a byte. -/
def State.homeModule (s : State) (pa : Nat) : Nat := paModule (s.home pa)

/-- Whether a team still has accesses to a module that were issued before an identity, or a unit has writes to it. -/
def State.awaitsModule (s : State) (m mark : Nat) : Bool :=
  (s.unitQ.any fun w => decide (w.id < mark) && s.homeModule w.addr = m) || s.blocks.any fun b => b.teams.any fun t => t.ops.any fun o =>
    decide (o.id < mark) && !o.sp && o.lanes.any fun l => !l.done && (match l.pa with | some pa => s.homeModule pa = m | none => false)

/-- Whether an access to a module that was issued under an identity is held by a write of the module's entry (R425). -/
def State.moduleHeld (s : State) (m id : Nat) : Bool :=
  m ≠ s.pod.toNat && s.routeHolds.any fun p => p.1 = m && decide (p.2 ≤ id) && s.awaitsModule m p.2

/-- Whether a new access to a byte is held by a write of its module's entry (R425). -/
def State.held (s : State) (pa : Nat) : Bool := s.moduleHeld (s.homeModule pa) s.nextId

/-- A write of a unit (R425): made now, or after those to its module that a write of the module's entry holds. -/
def State.unitWr (s : State) (tag : Option (BitVec 12)) (pa : Nat) (bs : List Byte) : State :=
  if s.held pa || s.unitQ.any fun w => s.homeModule w.addr = s.homeModule pa then
    { s with unitQ := s.unitQ ++ [{ tag := tag, addr := pa, bytes := bs, id := s.nextId }] }
  else s.memWr tag pa bs

/-- The writes of units that nothing holds any more are made, in order (R425). Where the entry is not valid by then they are made all
the same (log entry 110). -/
def State.flushUnits (s : State) : State :=
  s.unitQ.foldl (fun s w =>
    if s.moduleHeld (s.homeModule w.addr) w.id then s else { s with unitQ := s.unitQ.erase w }.memWr w.tag w.addr w.bytes) s

/-! ### Page tables and TLBs (R199, R200) -/

/-- A page found by a walk: virtual base, size, frame and permissions. -/
structure Page where
  page : Nat
  size : Nat
  frame : Nat
  rd : Bool
  wr : Bool
  at' : Bool
  ex : Bool
  deriving DecidableEq, Repr

/-- The outcome of a walk. A walk of which a table lies on a module whose routing entry holds new accesses (R425) cannot be made now,
as one that ends at an absent page; no message reports it. -/
inductive Walk where
  | unmapped
  | absent
  | page (p : Page)
  deriving DecidableEq, Repr

/-- Index bits, table size exponent of the next level and page size exponent of a level (R199). -/
def lvlShift : Nat → Nat | 0 => 47 | 1 => 38 | 2 => 29 | 3 => 21 | _ => 16
def lvlBits : Nat → Nat | 0 => 9 | 1 => 9 | 2 => 9 | 3 => 8 | _ => 5
def lvlTable : Nat → Nat | 0 => 12 | 1 => 12 | 2 => 12 | 3 => 11 | _ => 8

/-- Whether ADDR of an entry names a reserved range or a module that is not reached (R199, R412). -/
def badAddr (ok : Nat → Bool) (pa : Nat) : Bool := reservedLocal (paLocal pa) || !ok (paModule pa)

/-- A walk from level `l` at a table (R199), each entry read at its current home (R207): `fuel` levels are left. `ok` tells
which modules the context reaches for tables; a page frame needs a valid routing-table entry alone, and an access of it by a
context without FABRIC raises NOROUTE (R202, R412). A KIND 3 entry that is malformed is unmapped, and not absent: the model's
choice, for R199 says both (log entry 120). -/
def State.walkFrom (s : State) (ok : Nat → Bool) (va : Nat) : Nat → Nat → Nat → Walk
  | 0, _, _ => .unmapped
  | fuel + 1, l, table =>
    let e := s.pmRd (table + 8 * natBits va (lvlShift l) (lvlBits l)) 8
    let kind := natBits e 5 2
    let addr := natBits e 8 49 * 256
    let sh := lvlShift l
    if natBits e 57 7 ≠ 0 || natBits e 7 1 ≠ 0 || natBits e 0 1 ≠ 0 then .unmapped
    else if kind = 0 then .unmapped
    else if kind = 1 then
      if l = 4 || addr % 2 ^ lvlTable (l + 1) ≠ 0 || badAddr ok addr then .unmapped
      else s.walkFrom ok va fuel (l + 1) addr
    else if l ≤ 1 then .unmapped
    else if addr % 2 ^ sh ≠ 0 || badAddr s.routed addr then .unmapped
    else if kind = 3 then .absent
    else .page { page := va / 2 ^ sh * 2 ^ sh, size := 2 ^ sh, frame := addr, ex := natBits e 1 1 = 1
                 rd := natBits e 2 1 = 1, wr := natBits e 3 1 = 1, at' := natBits e 4 1 = 1 }

/-- A walk of a context's page table (R199, R412). -/
def State.walk (s : State) (c : Ctx) (va : Nat) : Walk :=
  if s.reachable c (paModule c.root) then s.walkFrom (s.reachable c) (va % 2 ^ 56) 5 0 c.root else .unmapped

/-- The addresses of the table entries that a walk reads: it goes on as long as it finds a valid pointer. -/
def State.walkReads (s : State) (ok : Nat → Bool) (va : Nat) : Nat → Nat → Nat → List Nat
  | 0, _, _ => []
  | fuel + 1, l, table =>
    let a := table + 8 * natBits va (lvlShift l) (lvlBits l)
    let e := s.pmRd a 8
    let addr := natBits e 8 49 * 256
    if natBits e 57 7 = 0 && natBits e 7 1 = 0 && natBits e 0 1 = 0 && natBits e 5 2 = 1 && l ≠ 4
        && addr % 2 ^ lvlTable (l + 1) = 0 && !badAddr ok addr then a :: s.walkReads ok va fuel (l + 1) addr
    else [a]

/-- The addresses of the entries that a walk of a context's page table reads. -/
def State.tableReads (s : State) (c : Ctx) (va : Nat) : List Nat :=
  if s.reachable c (paModule c.root) then s.walkReads (s.reachable c) (va % 2 ^ 56) 5 0 c.root else []

/-- The page that holds an address as its table has it, absent or resident: first byte and end. An address that is unmapped
lies in a page of 64 KiB. -/
def State.pageAt (s : State) (c : Ctx) (va : Nat) : Nat × Nat :=
  let z := match s.walk c va with
    | .unmapped => 2 ^ 16
    | _ => 2 ^ lvlShift ((s.tableReads c va).length - 1)
  (va % 2 ^ 56 / z * z, va % 2 ^ 56 / z * z + z)

/-- A walk with what its reads do to the lines of the table (R402, R404). -/
def State.walked (s : State) (c : Ctx) (va : Nat) : Walk × State :=
  (s.walk c va, (s.tableReads c va).foldl (fun s a => (s.memRd (some c.tag) a 8).2) s)

/-- A TLB entry as the page it holds. -/
def TlbEntry.toPage (e : TlbEntry) : Page :=
  { page := e.page, size := e.size, frame := e.frame, ex := e.perm.getLsbD 0, rd := e.perm.getLsbD 1
    wr := e.perm.getLsbD 2, at' := e.perm.getLsbD 3 }

/-- A page as the TLB entry of a context. -/
def Page.toEntry (p : Page) (t : BitVec 12) : TlbEntry :=
  { tag := t, page := p.page, size := p.size, frame := p.frame
    perm := BitVec.ofBool p.at' ++ BitVec.ofBool p.wr ++ BitVec.ofBool p.rd ++ BitVec.ofBool p.ex }

/-- The entry of a TLB that maps an address for a context (R200). -/
def tlbFind (l : List TlbEntry) (t : BitVec 12) (va : Nat) : Option TlbEntry :=
  l.find? fun e => e.tag == t && decide (e.page ≤ va) && decide (va < e.page + e.size)

/-- A TLB with an entry filled; the oldest of its kind leaves when it is full (log entry 12). -/
def tlbFill (cap : Nat) (l : List TlbEntry) (e : TlbEntry) : List TlbEntry := (e :: l).take cap

/-- A per-place list of TLBs with one of them changed. -/
def tlbPut (ls : List (Nat × List TlbEntry)) (i : Nat) (l : List TlbEntry) : List (Nat × List TlbEntry) := entryPut ls i l

/-- A page found resident: its absence is over, and a later one is reported anew (R203). -/
def State.present (s : State) (tag : BitVec 12) (p : Page) : State :=
  s.updCtx tag fun c =>
    { c with absent := c.absent.filter fun x => decide (x * 65536 < p.page) || decide (p.page + p.size ≤ x * 65536) }

/-- Whether a walk would read a table on a module whose routing entry holds new accesses (R425). -/
def State.tablesHeld (s : State) (c : Ctx) (va : Nat) : Bool := !s.routeHolds.isEmpty && (s.tableReads c va).any s.held

/-- Translation of an address for a context on a core (R198, R200): the core's TLB, the die's, then a walk, unless a table of it is
held (R425). Resident pages fill both. -/
def State.tlb (s : State) (c : Ctx) (core va : Nat) : Walk × State :=
  let va := va % 2 ^ 56
  let t1 := (entry? s.tlb1 core).getD []
  let t2 := (entry? s.tlb2 (coreDie core)).getD []
  match tlbFind t1 c.tag va with
  | some e => (.page e.toPage, s)
  | none =>
    match tlbFind t2 c.tag va with
    | some e => (.page e.toPage, { s with tlb1 := tlbPut s.tlb1 core (tlbFill 64 t1 e) })
    | none =>
      match (if s.tablesHeld c va then (.absent, s) else s.walked c va) with
      | (.page p, s0) =>
        let e := p.toEntry c.tag
        let big := t2.filter fun x => x.size == 2 ^ 29
        let small := t2.filter fun x => x.size != 2 ^ 29
        let t2' := if p.size = 2 ^ 29 then tlbFill 1024 big e ++ small else big ++ tlbFill 8192 small e
        let s1 := { s0 with tlb1 := tlbPut s.tlb1 core (tlbFill 64 t1 e), tlb2 := tlbPut s.tlb2 (coreDie core) t2' }
        (.page p, s1.present c.tag p)
      | w => w

/-- The class of a page (R197). -/
def pageClass (p : Page) : BitVec 3 :=
  if inWindow (paLocal p.frame) then 3#3 else if p.size = 2 ^ 16 then 0#3 else if p.size = 2 ^ 21 then 1#3 else 2#3

/-- The size of the aligned region of the Bureau's fixed map that holds a local address (R368). -/
def bureauRegion (a : Nat) : Nat :=
  if (bureauWin 0 ≤ a && a < bureauWin 4) || (mgmtPage 0 ≤ a && a < mgmtPage 4)
    || (hostPage ≤ a && a < hostPage + 0x1000) || (fabricPage ≤ a && a < fabricPage + 0x2000) then 0x1000
  else if sramBase 0 ≤ a && a < sramBase 4 then 0x40000
  else if (coreWin ≤ a && a < unitWin) || (debugWin 0 ≤ a && a < debugWin 4) then 0x800000
  else 0x10000

/-- The Bureau's fixed map (R368): an address whose bits [55:48] are 0 names that local address. -/
def State.bureauMap (s : State) (e va : Nat) : Walk :=
  let a := va % 2 ^ 56
  if 2 ^ 48 ≤ a then .unmapped
  else
    let z := bureauRegion a
    .page { page := a / z * z, size := z, frame := s.pod.toNat * 2 ^ 48 + a / z * z, rd := true, wr := true, at' := false
            ex := sramBase e ≤ a && a < sramBase e + 0x40000 }

/-- Whether a physical address is reserved for a requester (R189): a management page and a debug window are reserved for
everyone but their own die's Bureau (R428, R457). -/
def reservedFor (bureau : Option Nat) (pa : Nat) : Bool :=
  reservedLocal (paLocal pa) && match bureau with
    | some e => !((mgmtPage e ≤ paLocal pa && paLocal pa < mgmtPage e + 0x1000)
        || (debugWin e ≤ paLocal pa && paLocal pa < debugWin e + 0x800000))
    | none => true

/-- A translation that leads to a reserved address is treated as unmapped (R189). -/
def Walk.unreserved (w : Walk) (bureau : Option Nat) (va : Nat) : Walk :=
  match w with
  | .page p => if reservedFor bureau (p.frame + (va % 2 ^ 56 - p.page)) then .unmapped else .page p
  | w => w

/-- Translation for a block: its context's page table, or the Bureau's fixed map (R368). -/
def State.xlate (s : State) (b : Block) (va : Nat) : Walk × State :=
  match b.bureau with
  | some e => ((s.bureauMap e va).unreserved b.bureau va, s)
  | none =>
    match s.ctxOf b with
    | some c => match s.tlb c b.core va with | (w, s1) => (w.unreserved none va, s1)
    | none => (.unmapped, s)

/-! ### How a word issues, parks and traps (R88 to R95) -/

/-- The meaning of a word for the team that is issuing. -/
def State.onTeam (s : State) (f : Block → Team → Out) : Out :=
  match s.team? s.cur.r with
  | some (b, t) => f b t
  | none => .fault .noTeam

/-- The team parks before its word issues until a unit gives it something. -/
def State.parkFor (s : State) (why : Reason) (w : Want) : State :=
  let s1 := s.updTeam s.cur.r fun t => { t with reason := why, parked := true, want := w, granted := false }
  { s1 with cur := { s1.cur with res := .parked } }

/-- The team parks before its word issues, with a stall reason: nothing of the chain takes effect. -/
def State.park (s : State) (why : Reason) : State :=
  let s1 := s.updTeam s.cur.r fun t => { t with reason := why, parked := true }
  { s1 with cur := { s1.cur with res := .parked } }

/-- Whether any of the registers has its pending bit set by an earlier chain (R88, R92). -/
def Team.pending (t : Team) (base : Nat) (rs : List RegName) : Bool :=
  t.pend.any fun p => decide (p.id < base) && rs.any fun r => p.regs.contains r

/-- Whether one of the registers has a run-bound write whose latency has not passed (R92). -/
def Team.runBusy (t : Team) (clock : Nat) (rs : List RegName) : Bool :=
  t.run.writes.any fun w => decide (clock < w.at') &&
    (match w.write.name? with | some n => rs.contains n | none => false)

/-- The number of a vector register that a name is; other registers always exist (R96). -/
def RegName.v? : RegName → Option Nat
  | .v r => some r
  | _ => none

/-- Whether a register operand is absent (R36, R97). -/
def Team.absent (t : Team) (rs : List RegName) : Bool :=
  rs.any fun r => match r.v? with | some n => decide (t.regs ≤ n) | none => false

/-- A run after one more of its words has issued: it counts, and ends the run by S, by being an implicit switch or by being
the 24th word. A word that issues in a chain after the run's last one begins the next run (R89; log entry 101). -/
def Run.word (r : Run) (s switch : Bool) : Run :=
  if r.ended then { r with carry := if s || switch then 0 else r.carry + 1 }
  else { r with count := r.count + 1, ended := s || switch || decide (24 ≤ r.count + 1) }

/-- The word has issued: it counts in its run (R89), and the team goes on after the chain. -/
def Team.retire (t : Team) (h : Hd) (switch : Bool) (next : BitVec 56) : Team :=
  { t with pc := next, reason := .pipe, parked := false, issued := true, counted := false, want := .none, granted := false
           nohit := false, run := t.run.word h.s switch }

/-- The state after the team's word has issued, with `f` applied to the team. -/
def State.issue (s : State) (h : Hd) (switch : Bool) (f : Team → Team) : State :=
  let s1 := s.updTeam s.cur.r fun t => (f t).retire h switch s.cur.next
  { s1 with cur := { s1.cur with res := .issued } }

/-- Run-bound results added to a team's run, their latency counted from now (R91, R94). -/
def Team.addRun (t : Team) (due : Nat) (ws : List RegWrite) : Team :=
  { t with run := { t.run with writes := t.run.writes ++ ws.map fun w => { write := w, at' := due } } }

/-- The run-bound writes of the given registers made now: the chain that has issued makes them pending (R92). -/
def Team.settle (t : Team) (rs : List RegName) : Team :=
  let hit (w : RunWrite) : Bool := match w.write.name? with | some n => rs.contains n | none => false
  let t1 := (t.run.writes.filter hit).foldl (fun t w => t.regWrite w.write) t
  { t1 with run := { t1.run with writes := t1.run.writes.filter fun w => !hit w } }

/-- A scoreboarded result: its registers become pending (R92). -/
def Team.addPend (t : Team) (id : Nat) (rs : List RegName) (ready : Option (List RegWrite)) (nred : Bool)
    (copy : Bool := false) : Team :=
  { t with pend := t.pend ++ [{ id := id, regs := rs, ready := ready, nred := nred, copy := copy }] }

/-- A scoreboarded result becomes ready to arrive. -/
def Team.answer (t : Team) (id : Nat) (ws : List RegWrite) : Team :=
  { t with pend := updWhere (fun p => p.id == id) (fun p => { p with ready := some ws }) t.pend }

/-- The result that a team has waited for arrives as its wait ends: written, its pending bits cleared (R92). -/
def Team.deliver (t : Team) (id : Nat) (ws : List RegWrite) : Team :=
  { (ws.foldl Team.regWrite t) with pend := t.pend.filter fun p => p.id != id, wait := none }

/-- Whether every run-bound result is written. -/
def Team.runDone (t : Team) : Bool := t.run.writes.isEmpty

/-- A write of a context's vectors, which takes effect once the run's park ends (R128). -/
def RegWrite.late : RegWrite → Bool
  | .ctl 24 _ => true
  | .ctl 25 _ => true
  | _ => false

/-- Whether every run-bound result that a trap entry awaits is written: all but those of the vectors, which a trap of the run
itself does not see (R95, R128). -/
def Team.trapDone (t : Team) : Bool := t.run.writes.all fun w => w.write.late

/-- A fresh run. -/
def Run.fresh : Run := { count := 0, writes := [], ended := false, carry := 0 }

/-- The latency of a class of words, in cycles (R94). -/
def latU : Nat := 2
def latV : Nat := 4
def latF : Nat := 16
def latD : Nat := 8
def latDD : Nat := 32

/-- Whether the teams of a block end at their next reclamation points: its task is reclaimed or cancelled (R46, R336). -/
def Block.dying (b : Block) : Bool := b.reclaim || b.cancelled

/-! ### The Hutch: ports and complete patterns (R331, R333, R358 to R361) -/

/-- The slots of a level table (R42). -/
def levelSlots : Nat := 65536

/-- Whether a context has `n` free level slots. -/
def State.slotsFree (s : State) (tag : BitVec 12) (n : Nat) : Bool :=
  match s.ctx? tag with | some c => c.levels.length + n ≤ levelSlots | none => false

/-- Whether a port holds a message. -/
def Die.holds (d : Die) (p : Nat) : Bool := match entry? d.ports p with | some x => !x.msgs.isEmpty | none => false

/-- Whether an active pattern is complete. -/
def Pattern.complete (q : Pattern) (d : Die) : Bool := q.owner.isSome && q.ports.all d.holds

/-- Whether a pattern is a candidate of the current sequence (R358, R359). -/
def State.candidate (s : State) (e : Nat) (q : Pattern) : Bool :=
  q.complete (s.die e) && q.ports.any (s.die e).hseq.contains
    && (match q.owner with | some t => s.slotsFree t 2 | none => false)

/-- Whether a firing is due on a die's Hutch: until it is made, no later arrival is tested (R358). -/
def State.firing (s : State) (e : Nat) : Bool := (s.die e).patterns.any fun p => s.candidate e p.2

/-- The sequence of a Hutch keeps the changed ports that a complete pattern lists. -/
def Die.trim (d : Die) : Die :=
  { d with hseq := d.hseq.filter fun p => d.patterns.any fun q => q.2.complete d && q.2.ports.contains p }

/-- A port changed. -/
def Die.updPort (d : Die) (p : Nat) (f : Port → Port) : Die :=
  match entry? d.ports p with | some x => { d with ports := entryPut d.ports p (f x) } | none => d

/-- Whether a team takes part in waits: its block is on its core and no stop holds it (R60, R443). -/
def Block.live (b : Block) : Bool := b.place = .resident && !b.stopped && !b.halt

/-- Whether a team waits in RECV for a port; be its block saved, halted or stopped, a message is its own in its turn (R60, R361). -/
def State.receives (s : State) (e p : Nat) (r : TRef) : Bool :=
  match s.team? r with
  | some (b, t) => !b.dying && (match t.wait with | some (.recv x y _ _) => x == e && y == p | _ => false)
  | none => false

/-- The oldest message of a port goes to the RECV that parked first (R331, R361). -/
def State.serve (s : State) (e p : Nat) : State :=
  match entry? (s.die e).ports p with
  | none => s
  | some x =>
    match x.msgs, x.waiting.find? (s.receives e p) with
    | m :: ms, some r =>
      let s1 := s.updDie e fun d => d.updPort p fun y => { y with msgs := ms, waiting := y.waiting.filter fun q => q != r }
      s1.updTeam r fun u =>
        match u.wait with
        | some (.recv _ _ d id) => u.deliver id [.w d m]
        | _ => u
    | _, _ => s

/-- A port accepts a message (R333, R358). -/
def State.acceptMsg (s : State) (e p : Nat) (v : Dword) : State :=
  (s.updDie e fun d =>
    let d1 := d.updPort p fun x => { x with msgs := x.msgs ++ [v] }
    Die.trim { d1 with hseq := p :: d1.hseq.filter fun y => y != p }).serve e p

/-- A message of the D9's own, appended, or held for a full port or while a firing is due (R361). -/
def State.ownMsg (s : State) (e p : Nat) (v : Dword) : State :=
  match entry? (s.die e).ports p with
  | none => s
  | some x =>
    if x.msgs.length < 16 && x.held.isEmpty && !s.firing e then s.acceptMsg e p v
    else s.updDie e fun d => d.updPort p fun x => { x with held := x.held ++ [v] }

/-- Whether the translation of an address is held for a table's sake (R425): it is not known whether its page is absent. -/
def State.tableWait (s : State) (tag : BitVec 12) (va : Nat) : Bool :=
  match s.ctx? tag with
  | some c => s.tablesHeld c va
  | none => false

/-- The absence message of the page that holds an address, unless one is outstanding for it (R203, R362). -/
def State.postAbsent (s : State) (tag : BitVec 12) (va : Nat) : State :=
  match s.ctx? tag with
  | none => s
  | some c =>
    let page := (s.pageAt c va).1 / 65536
    if c.absent.contains page then s
    else
      let s1 := s.updCtx tag fun c => { c with absent := page :: c.absent }
      s1.ownMsg 0 c.pagerPort (BitVec.ofNat 64 (page * 65536 + tag.toNat))

/-- The absence message of the page that holds an address, once per page while it stays absent (R203, R362); none for one that is
only held. -/
def State.absence (s : State) (tag : BitVec 12) (va : Nat) : State :=
  match s.ctx? tag with
  | none => s
  | some c => if s.walk c va != .absent then s else s.postAbsent tag va

/-- The pages of a context that the walk no longer finds absent: what is outstanding for them is over, and a later absence is
reported anew (R203). -/
def State.clearAbsent (s : State) : State :=
  { s with ctxs := s.ctxs.map fun (c : Ctx) => { c with absent := c.absent.filter fun p => s.walk c (65536 * p) == .absent } }

/-! ### Taking a trap, and the return from one (R376 to R390) -/

/-- Whether a vector installs a handler (R377). -/
def installed (v : Dword) : Bool := v ≠ 0#64 && v.toNat % 12 = 0

/-- $trapvec and $emuvec of a block's context (R128), or of its Bureau. -/
def State.vectors (s : State) (b : Block) : Dword × Dword :=
  match b.bureau with
  | some e => ((s.die e).trapvec, (s.die e).emuvec)
  | none => match s.ctxOf b with | some c => (c.trapvec, c.emuvec) | none => (0#64, 0#64)

/-- The vector of a cause (R377). -/
def State.vectorOf (s : State) (b : Block) (c : Cause) : Dword :=
  if c = .nofeat then (s.vectors b).2 else (s.vectors b).1

/-- $trapcause of a trap (R378). -/
def trapcauseOf (q : TrapReq) : Dword := BitVec.ofNat 64 (q.cause.code + q.info % 65536 * 256)

/-- TAREA and the number of frames of a block's context (R380). -/
def State.tarea (s : State) (b : Block) : Nat × Nat :=
  match b.bureau with
  | some e => (sramBase e + 0x30000, 1)
  | none => match s.ctxOf b with | some c => (c.tarea, c.frames) | none => (0, 0)

/-- The frames that are claimed in a block's context (R380). -/
def State.claimedFrames (s : State) (b : Block) : List Nat :=
  match b.bureau with
  | some _ => b.teams.filterMap fun t => t.handler <|> t.frame
  | none => match s.ctxOf b with | some c => c.claimed | none => []

/-- The lowest free frame of a block's context (R381). -/
def State.freeFrame (s : State) (b : Block) : Option Nat :=
  findFrom (fun f => !(s.claimedFrames b).contains f) 0 (s.tarea b).2

/-- The dwords of a translation register: bits [63:0], [127:64], [191:128] of R197. -/
def XReg.bits (x : XReg) : Nat :=
  x.vbase.toNat * 2 ^ 136 + x.frame.toNat * 2 ^ 79 + x.limit.toNat * 2 ^ 40 + x.cls.toNat * 2 ^ 5
    + (if x.val then 16 else 0) + (if x.rd then 8 else 0) + (if x.wr then 4 else 0) + (if x.at' then 2 else 0)

/-- The bytes of a mask's frame area: lane words, the summary word at +0x80, zeros between (R382). -/
def maskArea (m : Mask) (w : Nat) : List Byte :=
  natBytes 128 ((m &&& maskAll (32 * w)).toNat) ++ natBytes 4 (maskSummary m).toNat

/-- The frame's areas that a trap writes: offset and bytes (R382 to R384). The registers, those that a NOFEAT frame holds as D, A and
m0 (R112) among them, are saved as they stand once the results of the run's earlier words are written (R95, R381): where an
earlier word of the run writes one of them, the frame has the new value; the model's choice (log entry 121). -/
def frameAreas (t : Team) (q : TrapReq) : List (Nat × List Byte) :=
  let ext := match q.extn with | some w => w.toNat | none => 0
  let dr := natBits ext 8 6
  let ar := natBits ext 2 6
  let k := natBits ext 1 1 = 1
  let hdr := natBytes 8 (trapcauseOf q).toNat ++ natBytes 8 q.pc.toNat ++ natBytes 8 q.resume.toNat
    ++ natBytes 8 t.status.toNat ++ natBytes 8 t.fpmode.toNat ++ natBytes 8 t.stack.length
    ++ natBytes 8 (t.lanes + t.regs * 2 ^ 16) ++ natBytes 8 ext
    ++ natBytes 8 (if q.extn.isSome && !k then (t.w.getD dr 0#64).toNat else 0)
    ++ natBytes 8 (if q.extn.isSome && !k then (t.w.getD ar 0#64).toNat else 0)
    ++ natBytes 8 q.misrec.toNat ++ List.replicate 0xA8 0#8
  let ws := (t.w.zipIdx.map fun p => (0x100 + 8 * p.2, natBytes 8 p.1.toNat))
  let xs := (t.x.zipIdx.map fun p => (0x300 + 24 * p.2, natBytes 24 p.1.bits))
  let ms := (t.m.zipIdx.map fun p => (0x400 + 0x100 * p.2, maskArea p.1 t.words))
  let st := (t.stack.zipIdx.map fun p =>
    (0x1000 + 0x200 * p.2, natBytes 128 p.1.outer.toNat ++ natBytes 128 p.1.pending.toNat ++ natBytes 8 p.1.pc.toNat))
  let fl := if 0x10 ≤ q.cause.code && q.cause.code ≤ 0x16 then
      (List.range t.lanes).map fun l =>
        match q.lanes.find? fun x => x.1 == l with
        | some (_, c, a, sp) => (0x5000 + 16 * l, natBytes 8 a ++ natBytes 8 (c + (if sp then 256 else 0)))
        | none => (0x5000 + 16 * l, List.replicate 16 0#8)
    else []
  let ex := if q.extn.isSome && k then
      (List.range t.lanes).map (fun l => (0x9000 + 4 * l, natBytes 4 (t.rv dr l).toNat))
        ++ (List.range t.lanes).map (fun l => (0xA000 + 4 * l, natBytes 4 (t.rv ar l).toNat))
    else []
  (0, hdr) :: (ws ++ xs ++ ms ++ st ++ fl ++ ex)

/-- A frame is written in 64-byte pieces of one line each: a list of bytes cut at line boundaries. -/
def cutLines (a : Nat) (bs : List Byte) : List (Nat × List Byte) :=
  (List.range ((a % 64 + bs.length + 63) / 64)).map fun i =>
    if i = 0 then (a, bs.take (64 - a % 64))
    else (a / 64 * 64 + 64 * i, (bs.drop (64 * i - a % 64)).take 64)

/-- Bytes written at a physical address by a context, line by line. -/
def State.memWrAll (s : State) (tag : Option (BitVec 12)) (pa : Nat) (bs : List Byte) : State :=
  (cutLines pa bs).foldl (fun s p => s.memWr tag p.1 p.2) s

/-- The areas of a frame written at the frame's physical address. -/
def State.writeFrame (s : State) (tag : Option (BitVec 12)) (pa : Nat) (as : List (Nat × List Byte)) : State :=
  as.foldl (fun s p => s.memWrAll tag (pa + p.1) p.2) s

/-- The frame that a team holds, or that its trap entry has claimed. -/
def Team.frame? (t : Team) : Option Nat := t.handler <|> t.frame

/-- A frame given back (R380). -/
def State.freeFrameOf (s : State) (b : Block) (t : Team) : State :=
  match t.frame? with
  | some f =>
    if b.bureau.isSome then s
    else s.updCtx b.tag fun c => { c with claimed := c.claimed.filter fun x => x != f }
  | none => s

/-- A team that has ended: its registers are the pool's, and results still pending are discarded (R33, R141). The
run-bound results of its run are still written (R95). -/
def Team.finish (t : Team) : Team :=
  { t with ended := true, wait := none, want := .none, granted := false, trap := none, defer := none, defers := [], xinv := none
           handler := none, frame := none, v := [], pend := [], run := { t.run with ended := true }, reason := .idle, parked := true }

/-- What a unit gave a parked team is given back: the team's chain trapped, or the team ends. A drawer's tile is reserved, and an MMA
is taken, in the move in which the chain issues, so that nothing of them is ever given back (R310, R315). -/
def Block.ungrant (b : Block) (t : Team) : Block :=
  if !t.granted then b
  else
    match t.want with
    | .none => b
    | .slabs k => { b with pool := b.pool + k }
    | .drawer _ => b
    | .push _ _ => b
    | .mma _ => b

/-- `Block.ungrant` in the block of a team. -/
def State.ungrant (s : State) (r : TRef) : State :=
  match s.team? r with
  | none => s
  | some (b, t) =>
    (s.updBlock b.id fun x => x.ungrant t).updTeam r fun t => { t with want := .none, granted := false }

/-- The block ends at a trap that no handler takes (R45, R377, R385). The frames of
its teams are freed, and what it issued is still performed before it counts as ended (R33). -/
def State.faultBlock (s : State) (b : Block) (q : TrapReq) : State :=
  let s1 := b.teams.foldl (fun s t => (s.ungrant ⟨b.id, t.idx⟩).freeFrameOf b t) s
  s1.updBlock b.id fun x =>
    { x with fault := some (q.cause, q.pc, q.info), teams := x.teams.map Team.finish, rclaims := [], barArr := [] }

/-- The team after it has entered its handler (R381): no other register changes. A new run begins. -/
def Team.enter (t : Team) (q : TrapReq) (f : Nat) (vec : Dword) : Team :=
  { t with trapcause := trapcauseOf q, trappc := q.pc.setWidth 64
           status := (t.status &&& ~~~0x3FFF0000#64) ||| BitVec.ofNat 64 (f % 2 ^ 14 * 2 ^ 16)
           handler := some f, frame := none, pc := vec.setWidth 56, trap := none, wait := none
           run := Run.fresh, reason := .fetch, parked := false, counted := false, nohit := false }

/-- The registers whose results a trap entry awaits: w, m and x (R381). -/
def Pend.awaited (p : Pend) : Bool := p.regs.any fun r => match r with | .v _ => false | _ => true

/-- The fault record of a trap (R431, KIND 4): `entered` tells whether a handler was entered. -/
def State.faultRecord (s : State) (b : Block) (t : Team) (q : TrapReq) (entered : Bool) : State :=
  if q.cause = .intr then s
  else s.record b (s.recordOf b t 4 q.pc.toNat (trapcauseOf q).toNat q.pc.toNat (if entered then 1 else 0)) 5

/-- The write of a frame at its virtual address (R381, R382): a page that is absent or held (R425), a write that fails R202, or the
frame written. -/
inductive FrameOut where
  | absent (s : State)
  | bad (s : State)
  | ok (s : State)

/-- The frame `f` of a block's context written for a trap. -/
def State.frameWrite (s : State) (b : Block) (t : Team) (q : TrapReq) (f : Nat) : FrameOut :=
  let va := (s.tarea b).1 + 0x10000 * f
  match s.xlate b va with
  | (.absent, s1) => .absent (s1.absence b.tag va)
  | (.unmapped, s1) => .bad s1
  | (.page p, s1) =>
    let pa := p.frame + (va - p.page)
    let win := inWindow (paLocal pa) && b.bureau.isNone
    let gone := match s1.ctxOf b with
      | some c => !s1.reachable c (paModule pa)
      | none => b.bureau.isNone
    if !p.wr || win || gone then .bad s1
    else if s1.held pa then .absent s1
    else .ok (s1.writeFrame (if b.bureau.isSome then none else some b.tag) pa (frameAreas t q))

/-- A frame claimed by a team's trap entry (R381). -/
def State.claimFrame (s : State) (r : TRef) (b : Block) (f : Nat) : State :=
  (if b.bureau.isSome then s else s.updCtx b.tag fun c => { c with claimed := f :: c.claimed }).updTeam r fun t =>
    { t with frame := some f }

/-! ### The end of a team (R33, R129, R131, R141) -/

/-- The barrier's phase completes once every team has arrived or ended (R131), and every access of path L of those that have
arrived, those of BAR's own chain among them, is performed (R132, R463). -/
def Block.barCheck (b : Block) : Block :=
  if !b.barArr.isEmpty && b.teams.all (fun t => t.ended || (b.barArr.contains t.idx && t.ops.all fun o => o.path != .l)) then
    { b with barArr := [], barPhase := b.barPhase + 1 }
  else b

/-- The end of a team of a block: its slabs return to the pool, and it counts as arrived at the barrier. -/
def Block.endTeam (b : Block) (ti : Nat) : Block :=
  match b.team? ti with
  | none => b
  | some t =>
    if t.ended then b
    else
      let b1 := b.updTeam ti Team.finish
      Block.barCheck { b1 with pool := b.pool + t.regs / 8, barArr := b.barArr.filter fun i => i != ti
                               rclaims := b.rclaims.filter fun q => q.1 != ti }

/-- The end of a team: what a unit gave it is given back, and its frame is free (R385). -/
def State.endTeam (s : State) (r : TRef) : State :=
  match s.team? r with
  | none => s
  | some (b, t) => ((s.ungrant r).freeFrameOf b t).updBlock r.b fun x => x.endTeam r.t

/-! ### Traps that wait for a run boundary (R323, R425) -/

/-- Whether two such traps are one: lanes of one word that return one after another (R425). -/
def TrapReq.joins (p q : TrapReq) : Bool := p.cause = .noroute && q.cause = .noroute && p.pc == q.pc

/-- The two as one: INFO names the lowest lane (R202). -/
def TrapReq.join (p q : TrapReq) : TrapReq := { p with info := min p.info q.info, lanes := p.lanes ++ q.lanes }

/-- A trap that a team takes at a run boundary to come, after those that already wait. -/
def Team.later (t : Team) (q : TrapReq) : Team :=
  if t.ended then t
  else match t.defer with
    | none => { t with defer := some q }
    | some p =>
      if p.joins q then { t with defer := some (p.join q) }
      else if t.defers.any fun x => x.joins q then { t with defers := updWhere (fun x => x.joins q) (fun x => x.join q) t.defers }
      else { t with defers := t.defers ++ [q] }

/-- A team whose first waiting trap is taken: the next one waits for a run boundary of its own. -/
def Team.shiftDefer (t : Team) : Team := { t with defer := t.defers.head?, defers := t.defers.drop 1 }

/-! ### Trap entry (R381) -/

/-- A team's park on its way into a handler. -/
def State.entryPark (s : State) (r : TRef) (why : Reason) : State := s.updTeam r fun t => { t with reason := why, parked := true }

/-- One more reclamation point that a team of the block reaches (R335). -/
def State.countPoint (s : State) (b : Block) : State := s.updBlock b.id fun x => { x with pcount := x.pcount + 1 }

/-- The writes of the vectors that a trap's run has left are made, and are made no more (R128). -/
def State.lateWrites (s : State) (r : TRef) (t : Team) : State :=
  (s.updTeam r fun u => { u with run := { u.run with writes := [] } }).regWrites r (t.run.writes.map fun w => w.write)

/-- The block of a team whose trap no handler takes ends (R45, R377); its run's writes of the vectors are made (R128). -/
def State.failTrap (s : State) (r : TRef) (b : Block) (t : Team) (q : TrapReq) : State :=
  ((s.faultRecord b t q false).lateWrites r t).faultBlock b q

/-- A SCORE park of a trap entry: on a network-reduction result it is a reclamation point, counted once, at which a reclaimed or
cancelled team ends (R285, R335, R336). -/
def State.entryScore (s : State) (r : TRef) (b : Block) (t : Team) : State :=
  let s1 := s.entryPark r .score
  if !t.pend.any (fun p => p.nred && p.awaited) then s1
  else
    let s2 := if t.counted then s1 else (s1.countPoint b).updTeam r fun u => { u with counted := true }
    if b.dying then s2.endTeam r else s2

/-- Trap entry once its frame `f` is claimed (R381): it waits for the pending w, m and x registers and for an absent page of the
frame, and enters; or the block ends. The vector is read at the last step; writes of the vectors by the run itself come
after it (R128). -/
def State.enterFrame (s : State) (r : TRef) (q : TrapReq) (f : Nat) : State :=
  match s.team? r with
  | none => s
  | some (b, t) =>
    if t.pend.any Pend.awaited then s.entryScore r b t
    else
      match s.frameWrite b t q f with
      | .absent s1 => s1.entryPark r .fetch
      | .bad s1 => s1.failTrap r b t q
      | .ok s1 =>
        ((s1.updTeam r fun u => u.enter q f (s1.vectorOf b q.cause)).faultRecord b t q true).regWrites r
          (t.run.writes.map fun w => w.write)

/-- Trap entry (R381), for the trap that a team has raised: it waits for the run-bound results of the run (R95) and claims the
lowest free frame; or the block ends. -/
def State.enterTrap (s : State) (r : TRef) : State :=
  match s.team? r with
  | none => s
  | some (b, t) =>
    match t.trap with
    | none => s
    | some q =>
      if !t.trapDone then s.entryPark r .switch
      else
        match t.frame with
        | some f => s.enterFrame r q f
        | none =>
          if !installed (s.vectorOf b q.cause) || t.handler.isSome then s.failTrap r b t q
          else
            match s.freeFrame b with
            | none => s.entryPark r .fetch
            | some f => (s.claimFrame r b f).enterFrame r q f

/-- A trap raised at a word (R88): nothing of the chain takes effect, the run ends with what earlier words wrote, and the
entry is made at once where nothing stands in its way. -/
def State.raise (s : State) (r : TRef) (q : TrapReq) : State :=
  let s1 := (s.ungrant r).updTeam r fun t => { t with trap := some q, run := { t.run with ended := true }, counted := false }
  s1.enterTrap r

/-- A trap of the word that is issuing. -/
def State.trapReq (s : State) (q : TrapReq) : State :=
  let s1 := s.raise s.cur.r q
  { s1 with cur := { s1.cur with res := .trapped, req := some q } }

/-- A trap of the word that is issuing, which resumes at the chain's first word (R88, R376). -/
def State.trapAt (s : State) (c : Cause) (info : Nat) (lanes : List (Nat × Nat × Nat × Bool)) : State :=
  s.trapReq { cause := c, info := info, pc := s.cur.addr, resume := s.cur.first, lanes := lanes, extn := none, misrec := 0#64 }

/-- A trap without lanes and without INFO. -/
def State.trap (s : State) (c : Cause) : State := s.trapAt c 0 []

/-- A trap whose resume address is the word after the trapping word (R376, R388, R389). -/
def State.trapNext (s : State) (c : Cause) (info : Nat) (extn : Option Word) : State :=
  s.trapReq { cause := c, info := info, pc := s.cur.addr, resume := s.cur.addr + 4#56, lanes := [], extn := extn, misrec := 0#64 }

/-! ### Reclamation points (R335 to R337) -/

/-- At a word that is a reclamation point, a team whose task is reclaimed or cancelled ends (R336, R337). -/
def State.atPoint (s : State) (h : Hd) (b : Block) (f : Out) : Out :=
  if b.dying then .next (((s.countPoint b).issue h true id).endTeam s.cur.r) else f

/-- Whether one of the registers awaits a network-reduction result (R285). -/
def Team.pendNred (t : Team) (base : Nat) (rs : List RegName) : Bool :=
  t.pend.any fun p => p.nred && decide (p.id < base) && rs.any fun r => p.regs.contains r

/-- The park on a pending register. On a network-reduction result it is a reclamation point, counted each time the team
parks there, at which a reclaimed or cancelled team ends (R285, R335). -/
def State.scorePark (s : State) (b : Block) (t : Team) (rs : List RegName) : State :=
  if t.pendNred s.cur.base rs then
    let s1 := if t.counted then s
      else (s.countPoint b).updTeam s.cur.r fun u => { u with counted := true }
    if b.dying then
      let s2 := s1.endTeam s.cur.r
      { s2 with cur := { s2.cur with res := .parked } }
    else s1.park .score
  else s.park .score

/-- The checks that every word makes on its register operands (R92, R97): an absent register raises ILLREG; a pending
one parks with SCORE; a scoreboarded write over a run-bound write that is not done parks with SWITCH. -/
def State.chk (s : State) (reads writes : List RegName) (scored : Bool) (f : Block → Team → Out) : Out :=
  s.onTeam fun b t =>
    if t.absent (reads ++ writes) then .next (s.trap .illreg)
    else if t.pending s.cur.base (reads ++ writes) then .next (s.scorePark b t (reads ++ writes))
    else if scored && t.runBusy s.clock writes then .next (s.park .switch)
    else f b t

/-! ### Stops (R442 to R444) -/

/-- The stop that waits for its record (R445), after one more hit in the cycle of a comparator's stop: it names the lowest
team (R442). -/
def Block.stopBy (b : Block) (now cause cmp ti : Nat) (addr : Dword) : Block :=
  if !b.stopped then { b with stopped := true, stopping := some (cause, cmp, ti, addr), stopTime := now }
  else match b.stopping with
    | some (1, _, t, _) =>
      if cause = 1 && b.stopTime = now && decide (ti < t) then { b with stopping := some (cause, cmp, ti, addr) } else b
    | _ => b

/-- A team's chain is suppressed and its block is stopped (R442): the run ends with what earlier words wrote, the team
halts there, and the stop waits for its record. -/
def State.stopAt (s : State) (b : Block) (t : Team) (cause cmp : Nat) : State :=
  let s1 := s.updTeam ⟨b.id, t.idx⟩ fun t =>
    { t with run := { t.run with ended := true }, reason := .pipe, parked := true, nohit := t.nohit || decide (cause = 1) }
  let s2 := s1.updBlock b.id fun b => b.stopBy s.clock cause cmp t.idx (s.cur.first.setWidth 64)
  { s2 with cur := { s2.cur with res := .stopped cause cmp } }

/-! ### Instruction fetch (R86, R387) -/

/-- The outcome of fetching bytes. -/
inductive Fetched where
  | ok (w : Word)
  | absent
  | bad
  deriving DecidableEq, Repr

/-- The instruction word at a virtual address, through the block's translation, with X permission, in the order of R202; a
context's fetch is an access of its line (R387, R402), and waits where a write of its module's entry holds it (R425). -/
def State.fetchWord (s : State) (b : Block) (va : Nat) : Fetched × State :=
  if va % 4 ≠ 0 then (.bad, s)
  else
    match s.xlate b va with
    | (.absent, s1) => (.absent, s1.absence b.tag va)
    | (.unmapped, s1) => (.bad, s1)
    | (.page p, s1) =>
      let pa := p.frame + (va % 2 ^ 56 - p.page)
      if !p.ex || (inWindow (paLocal pa) && b.bureau.isNone) then (.bad, s1)
      else
        match s1.ctxOf b with
        | some c =>
          if !s1.reachable c (paModule pa) then (.bad, s1)
          else if s1.held pa then (.absent, s1)
          else match s1.memRd (some c.tag) pa 4 with | (v, s2) => (.ok (BitVec.ofNat 32 v), s2)
        | none => if b.bureau.isSome then (.ok (BitVec.ofNat 32 (s1.pmRd pa 4)), s1) else (.bad, s1)

end Sys2Proof.Machine
end

