-- ==== Sys2Proof/Machine/Flags.lean ====
section
/-! DEFINITION. Comparisons and tests. The D9 has no flag register: what other machines keep in flags it keeps in mask
registers and in the values that UCMP writes; these are the tests that fill them (R117, R122, R169). -/

namespace Sys2Proof.Machine

/-- Signed or unsigned order of two values of `n` bits given as naturals (R117, R158, R169). -/
def ltN (signed : Bool) (n a b : Nat) : Bool := if signed then sextNat a n < sextNat b n else a < b

/-- The three-way comparison of UCMP, as a 64-bit two's-complement value (R117). -/
def cmp3 (signed : Bool) (a b : Dword) : Dword :=
  if a = b then 0#64 else if (if signed then a.slt b else a.ult b) then BitVec.allOnes 64 else 1#64

/-- The tests of VCMP (R169). -/
inductive Test where
  | eq | ne | lt | le | gt | ge | un | ord
  deriving DecidableEq, Repr

/-- A test on an order: `lt` and `eq` of the two operands, neither a NaN. -/
def Test.onOrder (t : Test) (lt eq : Bool) : Bool :=
  match t with
  | .eq => eq
  | .ne => !eq
  | .lt => lt
  | .le => lt || eq
  | .gt => !lt && !eq
  | .ge => !lt
  | .un => false
  | .ord => true

/-- A test when an operand is a NaN: false but for .ne and .un (R169). -/
def Test.onNan (t : Test) : Bool :=
  match t with
  | .ne => true
  | .un => true
  | _ => false

/-- The conditions of BRM (R122): on the lanes of m0. -/
def brmAny (mk m0 : Mask) : Bool := mk &&& m0 != 0#1024
def brmAll (mk m0 : Mask) : Bool := mk &&& m0 == m0
def brmNone (mk m0 : Mask) : Bool := mk &&& m0 == 0#1024

end Sys2Proof.Machine
end

