-- ==== Sys2Proof/Machine/Operands.lean ====
section
/-! DEFINITION. Operand forms: the lanes of vector words and their pairs (R153, R154), immediates (R102), the addresses
of memory and scratchpad words (R194, R198), their legality (R202), and the accesses that result. -/

namespace Sys2Proof.Machine

/-! ### Vector words (R153, R154) -/

/-- The registers that a vector operand names: one, or a pair (R97). -/
def vName (wide : Bool) (r : BitVec 6) : List RegName := if wide then [.v r.toNat, .v (r.toNat + 1)] else [.v r.toNat]

/-- The writes of a vector destination: lane values of 32 bits, or of 64 bits to a pair; `none` keeps a lane. -/
def vWrite (wide : Bool) (d n : Nat) (g : Nat → Option Nat) : List RegWrite :=
  let vs := (List.range n).map g
  if wide then
    [.v d (vs.map fun o => o.map fun x => BitVec.ofNat 32 x)
     , .v (d + 1) (vs.map fun o => o.map fun x => BitVec.ofNat 32 (x / 2 ^ 32))]
  else [.v d (vs.map fun o => o.map fun x => BitVec.ofNat 32 x)]

/-- The cycles from issue to a V result: its passes, two cycles each for a pair word, then the latency (R94, R154). -/
def vDue (m : Mask) (wide : Bool) (lat : Nat) : Nat := passes m * (if wide then 2 else 1) - 1 + lat

/-- A vector word with one vector destination: each active lane receives `f` (R153). -/
def State.vOp (s : State) (h : Hd) (k : BitVec 3) (wide : Bool) (lat : Nat) (d : BitVec 6) (srcs : List RegName)
    (f : Team → Nat → Nat) : Out :=
  s.chk (.m k.toNat :: srcs) (vName wide d) false fun _ t =>
    .next (s.issue h false fun u =>
      u.addRun (s.clock + vDue (t.rm k) wide lat)
        (vWrite wide d.toNat t.lanes fun l => if (t.rm k).getLsbD l then some (f t l) else none))

/-- A value of a type read as an integer (R158). -/
def rdInt (signed : Bool) (n x : Nat) : Int := if signed then sextNat x n else ((x % 2 ^ n : Nat) : Int)

/-- An exact integer written to `n` bits: wrapped, or clamped to the type's range with SAT (R158). -/
def wrInt (signed sat : Bool) (n : Nat) (i : Int) : Nat :=
  if sat then
    (if signed then wrapInt n (clampInt (-(2 ^ (n - 1) : Nat)) ((2 ^ (n - 1) : Nat) - 1) i)
     else wrapInt n (clampInt 0 ((2 ^ n : Nat) - 1) i))
  else wrapInt n i

/-- The immediate of a class 7 word: 32 bits (R102, R159). -/
def vimm (h : Hd) (i : BitVec 9) : Word :=
  match h.im with
  | none => i.signExtend 32
  | some p => p ++ i

/-! ### Addresses (R194, R198, R202) -/

/-- The constant byte offset of a format M word (R102, R209). -/
def moff (h : Hd) : Int := match h.im with | none => 0 | some p => p.toInt

/-- A failing lane: the lane, the cause, the address, and whether it is a scratchpad address (R384). -/
abbrev Bad := Nat × Cause × Nat × Bool

/-- Fault records for a trap. -/
def badLanes (l : List Bad) : List (Nat × Nat × Nat × Bool) := l.map fun x => (x.1, x.2.1.code, x.2.2.1, x.2.2.2)

/-- The access kinds that R202 tests against permissions. -/
inductive Need where
  | rd | wr | at'
  deriving DecidableEq, Repr

/-- Whether permissions allow an access. -/
def Need.ok (n : Need) (rd wr at' : Bool) : Bool := match n with | .rd => rd | .wr => wr | .at' => at'

/-- The verdict on one address: a failure, an absent page, or a physical address. -/
inductive Verdict where
  | bad (c : Cause)
  | absent
  | pa (a : Nat)
  deriving DecidableEq, Repr

/-- Items 3 to 6 of R202 for a physical address: reserved (R189), permission, window, route. `win` permits windows
(R368). -/
def State.legalPa (s : State) (b : Block) (need : Need) (rd wr at' : Bool) (win : Nat → Bool) (pa : Nat) : Verdict :=
  if reservedFor b.bureau pa then .bad .unmapped
  else if !need.ok rd wr at' then .bad .perm
  else if inWindow (paLocal pa) && !win (paLocal pa) then .bad .window
  else
    match s.ctxOf b with
    | some c => if s.reachable c (paModule pa) then .pa pa else .bad .noroute
    | none => if b.bureau.isSome then .pa pa else .bad .noroute

/-- The legality of an access of `n` bytes at a virtual address through the page table, in the order of R202. -/
def State.legalVa (s : State) (b : Block) (need : Need) (n va : Nat) : Verdict × State :=
  let va := va % 2 ^ 56
  if va % n ≠ 0 then (.bad .align, s)
  else
    match s.xlate b va with
    | (.unmapped, s1) => (.bad .unmapped, s1)
    | (.absent, s1) => (.absent, s1)
    | (.page p, s1) => (s1.legalPa b need p.rd p.wr p.at' (fun _ => false) (p.frame + (va - p.page)), s1)

/-- The windows that a Bureau's uniform words may reach (R368). -/
def bureauMay (e a : Nat) : Bool :=
  (bureauWin e ≤ a && a < bureauWin e + 0x1000) || (sramBase e ≤ a && a < sramBase e + 0x40000)
    || (mgmtPage e ≤ a && a < mgmtPage e + 0x1000) || (debugWin e ≤ a && a < debugWin e + 0x800000)
    || (coreWin ≤ a && a < unitWin && (a - coreWin) / 0x800000 / 256 = e && coreOffOk ((a - coreWin) % 0x800000))
    || (e = 0 && ((hostPage ≤ a && a < hostPage + 0x1000) || (fabricPage ≤ a && a < fabricPage + 0x2000)))

/-- The legality of one lane of a memory word through a translation register (R198, R202): the virtual address and the
verdict. -/
def State.legalX (s : State) (b : Block) (x : XReg) (need : Need) (n : Nat) (o : Int) : Nat × Verdict × State :=
  let e := wrapInt 56 (x.vbase.toNat + o)
  let may : Nat → Bool := match b.bureau with | some d => bureauMay d | none => fun _ => false
  if !x.val then (e, .bad .xinvalid, s)
  else if e % n ≠ 0 then (e, .bad .align, s)
  else if 0 ≤ o && o < x.limit.toNat then
    (e, s.legalPa b need x.rd x.wr x.at' may ((x.frame.toNat + o.toNat) % 2 ^ 57), s)
  else
    match s.xlate b e with
    | (.unmapped, s1) => (e, .bad .unmapped, s1)
    | (.absent, s1) => (e, .absent, s1)
    | (.page p, s1) => (e, s1.legalPa b need p.rd p.wr p.at' may (p.frame + (e - p.page)), s1)

/-- What the lanes of a word come to: the accesses that pass, and the lanes that fail (R202). -/
structure Checked where
  ok : List LaneAcc
  bad : List Bad
  deriving DecidableEq, Repr

/-- The lanes of a memory word checked one after another (R202). `off` is the lane's offset, `val` and `cmp` its
operands. -/
def State.checkX (s : State) (b : Block) (x : XReg) (need : Need) (n : Nat) (off : Nat → Int) (val cmp : Nat → Nat) :
    List Nat → Checked × State
  | [] => (⟨[], []⟩, s)
  | l :: ls =>
    match s.legalX b x need n (off l) with
    | (e, v, s1) =>
      match s1.checkX b x need n off val cmp ls with
      | (r, s2) =>
        match v with
        | .bad c => ({ r with bad := (l, c, e, false) :: r.bad }, s2)
        | .absent => ({ r with ok := { lane := l, va := e, pa := none, done := false, val := val l, cmp := cmp l, blk := 0 } :: r.ok }, s2)
        | .pa a => ({ r with ok := { lane := l, va := e, pa := some a, done := false, val := val l, cmp := cmp l, blk := 0 } :: r.ok }, s2)

/-- The member of a block's sharing group at a core position, or the block itself (R194, R196, R242). -/
def State.groupMember (s : State) (b : Block) (pos : Nat) : Option Block :=
  match b.group with
  | none => none
  | some g =>
    s.blocks.find? fun x => x.tag == b.tag && coreCluster x.core == coreCluster b.core && x.core % 4 == pos
      && (match x.group with | some g' => g'.key == g.key | none => false)

/-- The block that a scratchpad address reaches and the byte offset in its allocation; `none` raises SPRANGE (R194). -/
def State.spTarget (s : State) (b : Block) (a : Nat) : Option (Block × Nat) :=
  if a / 2 ^ 21 ≠ 0 then none
  else if natBits a 20 1 = 0 then
    (if natBits a 18 2 = 0 && natBits a 0 18 < b.spadSize then some (b, natBits a 0 18) else none)
  else
    match s.groupMember b (natBits a 18 2) with
    | some x => if natBits a 0 18 < x.spadSize then some (x, natBits a 0 18) else none
    | none => none

/-- A scratchpad range of `n` bytes at an address: the block and the offset, if all of it lies in one allocation. -/
def State.spRange (s : State) (b : Block) (a n : Nat) : Option (Block × Nat) :=
  match s.spTarget b a with
  | some (x, o) => if o + n ≤ x.spadSize then some (x, o) else none
  | none => none

/-- The verdict on one scratchpad access (R194): SPRANGE where OFF is not below the size, then ALIGN; else the block reached and the
offset. An aligned access below the size lies in the allocation whole. -/
def State.legalSp (s : State) (b : Block) (n a : Nat) : Except Cause (Nat × Nat) :=
  match s.spTarget b a with
  | none => .error .sprange
  | some (x, o) => if a % n ≠ 0 then .error .align else if x.spadSize < o + n then .error .sprange else .ok (x.id, o)

/-- The lanes of a scratchpad word checked (R194). -/
def State.checkSp (s : State) (b : Block) (n : Nat) (addr : Nat → Nat) (val cmp : Nat → Nat) : List Nat → Checked
  | [] => ⟨[], []⟩
  | l :: ls =>
    let r := s.checkSp b n addr val cmp ls
    match s.legalSp b n (addr l) with
    | .error c => { r with bad := (l, c, addr l, true) :: r.bad }
    | .ok (x, o) =>
      { r with ok := { lane := l, va := addr l, pa := some o, done := false, val := val l, cmp := cmp l, blk := x } :: r.ok }

/-- The offset of a lane of a memory word: the offset register as a signed 32-bit value and the constant (R198). -/
def Team.laneOff (t : Team) (h : Hd) (o : BitVec 6) (l : Nat) : Int :=
  (if o = 63#6 then 0 else (t.rv o.toNat l).toInt) + moff h

/-- The offset of a uniform memory word (R198). -/
def Team.uniOff (t : Team) (h : Hd) (o : BitVec 6) : Int := (if o = 63#6 then 0 else (t.rw o).toInt) + moff h

/-- A scratchpad address (R194). -/
def spAddr (i : Int) : Nat := wrapInt 32 i

/-- The offset register of a lane form, as an operand. -/
def offV (o : BitVec 6) : List RegName := if o = 63#6 then [] else [.v o.toNat]

/-- The offset register of a uniform form, as an operand. -/
def offW (o : BitVec 6) : List RegName := if o = 63#6 then [] else [.w o.toNat]

/-- The cause that a word raises: the first in the order of R202 for the lowest failing lane. -/
def firstBad (l : List Bad) : Option Bad := l.head?

end Sys2Proof.Machine
end

