-- ==== Sys2Proof/Machine/Observe.lean ====
section
/-! DEFINITION. What Vespers sees of a word that issues: comparators (R440 to R442) and sampled memory words
(R432 to R434, R452). -/

namespace Sys2Proof.Machine

/-- A record stored as `State.record` stores it; it is an event of source `bit` only where `ev` holds. -/
def State.recordIf (s : State) (b : Block) (r : Rec) (ev : Bool) (bit : Nat) : State :=
  if s.vesp b then s.updDie (coreDie b.core) fun d => d.record r (if ev then some bit else none) else s

/-! ### Comparators -/

/-- Whether a comparator is enabled and its owner test allows a context (R440). -/
def cmpArmed (ctl : Dword) (tag : BitVec 12) : Bool :=
  ctl.getLsbD 0 && (!ctl.getLsbD 14 || ctl.extractLsb' 15 12 == tag)

/-- Whether a lane is qualified by a comparator (R441). -/
def cmpLaneOk (ctl : Dword) (l : Nat) : Bool := l / 32 = natBits ctl.toNat 27 5 && ctl.getLsbD (32 + l % 32)

/-- The bytes that a data comparator matches: LEN, with 0 meaning 64. -/
def cmpLen (ctl : Dword) : Nat := let n := natBits ctl.toNat 8 6; if n = 0 then 64 else n

/-- The KIND 3 record of a hit by comparator `i` (R431). -/
def State.hitRecord (s : State) (b : Block) (t : Team) (i : Nat) (ctl : Dword) (lanes : List Nat) (addr : Nat) : State :=
  let q := (lanes.filter (cmpLaneOk ctl)).foldl (fun x l => x + 2 ^ (l % 32)) 0
  s.recordIf b (s.recordOf b t 3 s.cur.addr.toNat (q + i * 2 ^ 32) addr 0) (ctl.getLsbD 5) 4

/-- One comparator's hit: the record, and the comparator that stops the block, if this is the first that does. -/
def State.hit (s : State) (b : Block) (t : Team) (i : Nat) (ctl : Dword) (lanes : List Nat) (addr : Nat)
    (stop : Option Nat) : State × Option Nat :=
  (s.hitRecord b t i ctl lanes addr, match stop with | some j => some j | none => if ctl.getLsbD 4 then some i else none)

/-- The data comparators tested on the lanes that passed their checks: (lane, address) pairs of one word (R441).
`rd` and `wr` tell the word's kind. -/
def State.dataHits (s : State) (b : Block) (t : Team) (rd wr : Bool) (size : Nat) (acc : List (Nat × Nat)) :
    State × Option Nat :=
  if t.nohit || b.bureau.isSome then (s, none)
  else
    [4, 5].foldl (fun p i =>
      match ((s.core b.core).cmp.getD i (0#64, 0#64)) with
      | (ctl, adr) =>
        let a := adr.toNat % 2 ^ 56
        let q := acc.filter fun x => cmpLaneOk ctl x.1
        let touch := q.any fun x => decide (x.2 < a + cmpLen ctl) && decide (a < x.2 + size)
        if cmpArmed ctl b.tag && ((rd && ctl.getLsbD 6) || (wr && ctl.getLsbD 7)) && touch then
          p.1.hit b t i ctl (acc.map fun x => x.1) (match q with | x :: _ => x.2 | [] => 0) p.2
        else p) (s, none)

/-- The PC comparators tested on a word about to issue, with its active lanes (R441). -/
def State.pcHits (s : State) (b : Block) (t : Team) (lanes : List Nat) : State × Option Nat :=
  if t.nohit || b.bureau.isSome then (s, none)
  else
    [0, 1, 2, 3].foldl (fun p i =>
      match ((s.core b.core).cmp.getD i (0#64, 0#64)) with
      | (ctl, adr) =>
        if cmpArmed ctl b.tag && adr.toNat % 2 ^ 56 = s.cur.addr.toNat && lanes.any (cmpLaneOk ctl) then
          p.1.hit b t i ctl lanes 0 p.2
        else p) (s, none)

/-! ### Sampling -/

/-- A memory word counted on its core (R433, R452): whether it is sampled. -/
def State.countWord (s : State) (b : Block) (t : Team) : Bool × State :=
  let c := (s.die (coreDie b.core)).sampctl
  let n := natBits c.toNat 8 5
  if !s.vesp b then (false, s)
  else if t.sample then (true, s)
  else if c.getLsbD 0 && (!c.getLsbD 28 || c.extractLsb' 16 12 == b.tag) then
    let k := ((s.core b.core).mwords + 1) % 2 ^ n
    (k = 0, s.updCore b.core fun x => { x with mwords := k })
  else (false, s)

/-- The 32-byte sectors that accesses touch (R433); an aligned access of at most 8 bytes lies in one. -/
def sectors (as : List Nat) : Nat := (distinct (as.map fun a => a / 32)).length

/-- The words of scratchpad that an access of `n` bytes at an offset of a block's allocation addresses. -/
def spWords (n : Nat) (x : LaneAcc) : List (Nat × Nat) :=
  let o := x.pa.getD 0
  (List.range (ceilDiv (o % 4 + n) 4)).map fun i => (x.blk, o / 4 + i)

/-- The bank cycles of one pass (R195): in each bank of each member's scratchpad, the distinct words addressed. -/
def bankCycles (ws : List (Nat × Nat)) : Nat :=
  let d := ws.eraseDups
  (d.map fun w => (d.filter fun v => v.1 = w.1 && v.2 % 32 = w.2 % 32).length).foldl max 0

/-- The bank cycles of a scratchpad word, over its passes; a uniform word makes one access. -/
def spCycles (n : Nat) (acc : List LaneAcc) : Nat :=
  ((List.range 32).map fun j =>
    bankCycles ((acc.filter fun x => x.lane / 32 = j).flatMap (spWords n))).foldl (· + ·) 0

/-- The sectors or bank cycles that a sample reports (R433). -/
def sampleSectors (sp : Bool) (size : Nat) (ls : List LaneAcc) : Nat :=
  if sp then spCycles size ls else sectors (ls.map fun a => a.va)

/-- The KIND 1 record of a sampled word (R431, R433, R434): `sec` are its sectors or bank cycles, `acc` its lanes with their addresses. The cycles in queues and the lane whose data returned last
are timing: free values for a memory word. -/
def State.sampleRecord (s : State) (b : Block) (t : Team) (pc time phase replays : Nat) (sp : Bool) (sec : Nat)
    (acc : List (Nat × Nat)) : State :=
  match s.fresh, acc with
  | (q, s1), acc =>
    let lastLane := match s1.choice acc.length with | (i, _) => (acc.getD i (0, 0)).1
    let s2 := (s1.choice acc.length).2
    let queue := if sp then 0 else q.toNat
    let rep := min replays 255
    let f0 := acc.length + sec % 2 ^ 11 * 2 ^ 16 + rep * 2 ^ 32 + lastLane * 2 ^ 48
    let addr := match acc with | x :: _ => x.2 % 2 ^ 56 | [] => 0
    let f := (s.die (coreDie b.core)).filter.toNat
    let field := match natBits f 0 3 with
      | 1 => some rep
      | 2 => some (natBits queue 0 16)
      | 3 => some (natBits queue 16 16)
      | 4 => some (natBits queue 32 16)
      | 5 => some (natBits queue 48 16)
      | 6 => some sec
      | _ => none
    let ev := match field with | some x => decide (natBits f 16 16 ≤ x) | none => false
    s2.recordIf b { s2.recordOf b t 1 pc f0 queue addr with time := time, phase := phase } ev 7

end Sys2Proof.Machine
end

