-- ==== Sys2Proof/Machine/Memory.lean ====
section
/-! DEFINITION. Issue of the memory, full-empty, atomic and fence words of classes 14 to 17 (R209 to R223), and what has to be
performed before what. Memory accesses, and the granules of FESET and FECLR, wait in `Team.ops` until they are performed. A
scratchpad word is performed whole at its issue, or joins them there and is performed lane by lane: as the move says, and always where
an earlier access has to be performed first (R214, R255, R461; log entry 34). -/

namespace Sys2Proof.Machine

/-! ### Scratchpad (R193, R194) -/

/-- `n` bytes of a block's scratchpad as a little-endian value. -/
def State.spadRd (s : State) (b o n : Nat) : Nat :=
  match s.block? b with
  | some x => x.spad.rdN o n
  | none => 0

/-- Bytes written into a block's scratchpad; a write to a recorded granule ends a demotion (R55). -/
def State.spadWr (s : State) (b o : Nat) (bs : List Byte) : State :=
  (s.updBlock b fun x => { x with spad := x.spad.wr o bs }).unspin fun p =>
    p.granules.any fun g => g.1 = b && decide (o / 16 ≤ g.2) && decide (g.2 * 16 < o + bs.length)

/-- The granules of a range (R193). -/
def granulesOf (o n : Nat) : List Nat := if n = 0 then [] else (List.range ((o + n - 1) / 16 - o / 16 + 1)).map (o / 16 + ·)

/-- Full bits set for granules, in a rising list. -/
def fullSet (fs gs : List Nat) : List Nat :=
  gs.foldl (fun fs g => if fs.contains g then fs else fs.filter (· < g) ++ [g] ++ fs.filter (g < ·)) fs

/-- Full bits cleared. -/
def fullClr (fs gs : List Nat) : List Nat := fs.filter fun g => !gs.contains g

/-! ### Ordering within a team (R205, R214, R220, R222, R466) -/

/-- Whether an access is an acquire: a scoped load or atomic (R214, R220). -/
def MemOp.acquires (o : MemOp) : Bool := o.path = .l && o.scope.isSome && o.kind != .store

/-- Whether an access is a release: FESET and BARRIVE (R216, R227). -/
def MemOp.releases (o : MemOp) : Bool := o.kind = .feset || o.kind = .barrive

/-- Accesses of a path that an earlier chain issued and that are not performed (R222). -/
def Team.outstanding (t : Team) (base : Nat) (p : Path) : Bool := t.ops.any fun o => o.path = p && decide (o.id < base)

/-- Whether an access changes the full bits of a range (R216). -/
def MemOp.isFe (o : MemOp) : Bool := o.kind = .feset || o.kind = .feclr

/-- Whether an access is a scratchpad word's of path L: these are performed in issue order (R214). -/
def MemOp.spWord (o : MemOp) : Bool := o.sp && o.path = .l

/-- Whether an earlier access of path L comes before a later one whatever they touch: it is an acquire, or the later one has a scope or
is a release (R214, R216, R220, R227, R251). -/
def MemOp.orders (p o : MemOp) : Bool := p.path = .l && o.path = .l && (p.acquires || o.scope.isSome || o.releases)

/-- Whether a scratchpad word of path L cannot be performed at its issue (R214, R251): an earlier acquire or scratchpad word is not
performed, or the word has a scope or is a release and an earlier access of path L is not. -/
def Team.spHeld (t : Team) (base : Nat) (sc : Bool) : Bool :=
  (t.ops.any fun o => (o.acquires || o.spWord) && decide (o.id < base)) || (sc && t.outstanding base .l)

/-- Whether a team has an acquire or a scratchpad word of path L that is not performed: what a consuming load and BWAIT come after
(R214, R251). -/
def Team.spLeft (t : Team) : Bool := t.ops.any fun o => o.acquires || o.spWord

/-- The place that a lane reaches: an offset in scratchpad, or a physical address at its current home (R207). -/
def State.spot (s : State) (o : MemOp) (l : LaneAcc) : Option Nat := if o.sp then l.pa else l.pa.map s.home

/-- Whether two lanes touch one 64-byte line, by their addresses or at its home (R205, R207). -/
def State.sameLine (s : State) (a b : LaneAcc) : Bool :=
  a.va / 64 = b.va / 64 ||
    (match a.pa, b.pa with | some x, some y => s.home x / 64 = s.home y / 64 | _, _ => false)

/-- Whether two ranges share a byte. -/
def rangesMeet (a b : Nat × Nat) : Bool := decide (a.1 < b.2) && decide (b.1 < a.2)

/-- Whether two lanes of accesses of `n` and `m` bytes share a byte, by their addresses or at its home (R207, R252, R259). -/
def State.meets (s : State) (a : LaneAcc) (n : Nat) (b : LaneAcc) (m : Nat) : Bool :=
  rangesMeet (a.va, a.va + n) (b.va, b.va + m)
    || (match a.pa, b.pa with | some x, some y => rangesMeet (s.home x, s.home x + n) (s.home y, s.home y + m) | _, _ => false)

/-- Whether an earlier access of the team has to be performed before a lane of a later one that reaches memory (R205, R214, R251): it
orders all that follows, or what precedes; or it shares a location with the lane on one path; or it is logged and the two share a
line. -/
def State.holds (s : State) (p o : MemOp) (l : LaneAcc) : Bool :=
  let ps := p.lanes.filter fun x => !x.done
  p.orders o
    || (!p.sp && ((p.path = o.path && ps.any fun x => s.meets x p.size l o.size)
      || (p.logged && ps.any fun x => o.lanes.any fun y => s.sameLine x y)))

/-- Whether an earlier access touches a lane's line (R466). -/
def State.lineHolds (s : State) (p : MemOp) (l : LaneAcc) : Bool := !p.sp && p.lanes.any fun x => !x.done && s.sameLine x l

/-- Whether a lane reaches another module. -/
def State.far (s : State) (l : LaneAcc) : Bool := match l.pa with | some pa => s.homeModule pa ≠ s.pod.toNat | none => false

/-- Whether an earlier access of the team lets a lane of a later one be performed. A scratchpad word of path L comes after every earlier
one of path L (R214), a word of path S after every earlier scratchpad access (R271, R277); accesses to one line of another module
come in their order (R466). -/
def State.lets (s : State) (p o : MemOp) (l : LaneAcc) : Bool :=
  if o.sp then !(p.orders o || (if o.path = .l then p.spWord else p.sp))
  else !(s.holds p o l || (s.far l && s.lineHolds p l))

/-- Whether a lane of an access may be performed now. A Bureau's accesses are performed in issue order (R368); of an atomic, the lanes
of one location are in their order (R220). -/
def State.laneMay (s : State) (b : Block) (t : Team) (o : MemOp) (l : LaneAcc) : Bool :=
  let before := t.ops.takeWhile fun p => p.id != o.id
  (if b.bureau.isSome then before.isEmpty else before.all fun p => s.lets p o l)
    && (o.kind != .atom || o.lanes.all fun x => x.done || l.lane ≤ x.lane || s.spot o x != s.spot o l || x.blk != l.blk)

/-- Whether an access touches a line that a logged access of the team touches (R205). -/
def State.behindLog (s : State) (t : Team) (ls : List LaneAcc) : Bool :=
  t.ops.any fun o => o.logged && o.lanes.any fun x => !x.done && ls.any fun y => s.sameLine x y

/-- Whether a lane waits for its page. -/
def LaneAcc.gone (l : LaneAcc) : Bool := !l.done && l.pa.isNone

/-- The entries of the operand log that an access holds (R203): one, or one for each store of a scatter that waits (R270; log
entry 113). -/
def MemOp.entries (o : MemOp) : Nat :=
  if !o.logged then 0
  else if o.kind = .scatc then max 1 (distinct ((o.lanes.filter LaneAcc.gone).map fun l => l.va)).length
  else 1

/-- Entries of the operand log in use on a core (R203). -/
def State.logUsed (s : State) (core : Nat) : Nat :=
  ((s.blocks.filter fun b => b.core = core && b.place = .resident).map fun b =>
    (b.teams.map fun t => (t.ops.map MemOp.entries).foldl (· + ·) 0).foldl (· + ·) 0).foldl (· + ·) 0

/-! ### Destinations (R213) -/

/-- A loaded value widened to its destination. -/
def loadExt (sx : Bool) (size width x : Nat) : Nat := if sx then wrapInt width (sextNat x (8 * size)) else x

/-- The register writes of a load's or an atomic's lanes; `n` is the lane count. -/
def loadWrites (dest : RegName) (n size : Nat) (sx : Bool) (ls : List LaneAcc) : List RegWrite :=
  match dest with
  | .v d =>
    vWrite (size = 8) d n fun l =>
      match ls.find? fun a => a.lane == l with
      | some a => some (loadExt sx size (if size = 8 then 64 else 32) a.val)
      | none => none
  | .w d => match ls with | a :: _ => [.w d (BitVec.ofNat 64 (loadExt sx size 64 a.val))] | [] => []
  | _ => []

/-- The registers that a destination of a size makes pending. -/
def destRegs (dest : Option RegName) (size : Nat) : List RegName :=
  match dest with
  | some (.v d) => if size = 8 then [.v d, .v (d + 1)] else [.v d]
  | some r => [r]
  | none => []

/-! ### Atomics (R218) -/

/-- Rounding and flushing of fadd: nearest-even, never flushed. -/
def atomEnv : FEnv := { md := .rn, fz := false }

/-- The new value of an atomic: operation, type, old value, operand and comparand (R218). -/
def atomNew (op : Nat) (ty : BitVec 4) (old v cmp : Nat) : Nat :=
  let n := if is64 ty then 64 else 32
  let f := if ty = 11#4 then f64 else f32
  match op with
  | 0 => (old + v) % 2 ^ n
  | 1 => if ltN (isSigned ty) n v old then v else old
  | 2 => if ltN (isSigned ty) n old v then v else old
  | 3 => old &&& v
  | 4 => old ||| v
  | 5 => old ^^^ v
  | 6 => v
  | 7 => if old = cmp then v else old
  | 8 => f.add atomEnv old v
  | 9 => f.minmax false old v
  | _ => f.minmax true old v

/-! ### Lanes that fail (R202, R386) -/

/-- The team after lane-suppress mode has taken failing lanes out of its governing mask: the mask and LSF are run-bound writes, as every
write of a register that is not scoreboarded is (R90, R386). -/
def Team.suppress (t : Team) (now : Nat) (k : BitVec 3) (bad : List Bad) : Team :=
  t.addRun now [.mc k.toNat (maskOf (bad.map fun x => x.1)), .lsf]

/-- A word's lanes after their checks: a trap, or the word on the lanes that passed, with what lane-suppress mode does
to the team. `lane` is the governing mask of a lane form. -/
def State.onLanes (s : State) (t : Team) (lane : Option (BitVec 3)) (c : Checked)
    (f : List LaneAcc → (Team → Team) → Out) : Out :=
  match c.bad with
  | [] => f c.ok id
  | x :: xs =>
    match lane with
    | some k =>
      if t.status.getLsbD 0 then f c.ok fun u => u.suppress s.clock k (x :: xs)
      else .next (s.trapAt x.2.1 x.1 (badLanes (x :: xs)))
    | none => .next (s.trapAt x.2.1 x.1 (badLanes (x :: xs)))

/-- The lanes that a sample sees: those that passed, each with its address; a uniform word makes one access (R209). -/
def sampledLanes (ls : List LaneAcc) : List (Nat × Nat) := ls.map fun a => (a.lane, a.va)

/-- The lanes that a word's comparators see: the lanes that passed, or for a uniform word the lanes of m0 at the one
address (R441). -/
def seenLanes (t : Team) (lane : Option (BitVec 3)) (ls : List LaneAcc) : List (Nat × Nat) :=
  match lane with
  | some _ => ls.map fun a => (a.lane, a.va)
  | none =>
    match ls with
    | a :: _ => (maskLanes (t.rm 0#3) t.lanes).map fun l => (l, a.va)
    | [] => []

/-! ### Memory words -/

/-- What a memory word does, but for its lanes. -/
structure MSpec where
  path : Path
  kind : AccKind
  size : Nat
  sx : Bool
  op : Nat
  ty : BitVec 4
  rnd : Nat
  dest : Option RegName
  scope : Option Nat
  deriving DecidableEq, Repr

/-- The spin detector's record of lines that loads read (R55). -/
def Spin.readLines (p : Spin) (ls : List Nat) : Spin :=
  let new := distinct (ls.filter fun x => !p.lines.contains x)
  { p with lines := (p.lines ++ new).take 8, many := p.many || decide (8 < p.lines.length + new.length) }

/-- The spin detector's record of granules that loads read. -/
def Spin.readGranules (p : Spin) (gs : List (Nat × Nat)) : Spin :=
  let new := (gs.filter fun x => !p.granules.contains x).eraseDups
  { p with granules := (p.granules ++ new).take 8, many := p.many || decide (8 < p.granules.length + new.length) }

/-- A memory word issues (R203, R213, R214): it joins the team's accesses, absent pages are reported, the destination
becomes pending. Without lanes it has no effect (R209). While a lane's translation is held (R425) its check is not complete
(R202). -/
def State.memGo (s : State) (h : Hd) (b : Block) (t : Team) (lane : Option (BitVec 3)) (m : MSpec)
    (ls : List LaneAcc) (upd : Team → Team) : Out :=
  let seen := seenLanes t lane ls
  if ls.any fun a => a.pa.isNone && s.tableWait b.tag a.va then .next (s.park .xlate) else
  match s.dataHits b t (m.kind = .load || m.kind = .atom) (m.kind != .load) m.size seen with
  | (s0, some i) => .next (s0.stopAt b t 1 i)
  | (s0, none) =>
    let logged := ls.any (fun a => a.pa.isNone) || s.behindLog t ls
    if logged && 32 ≤ s0.logUsed b.core then .next (s.park .xlate)
    else
      match s0.countWord b t, s0.nextId with
      | (smp, s1), id =>
        let s2 := { s1 with nextId := id + 1 }
        let s3 := ls.foldl (fun s a => if a.pa.isNone then s.absence b.tag a.va else s) s2
        let clear (u : Team) : Team := { u with sample := false }
        if ls.isEmpty then
          let s4 := if smp then s3.sampleRecord b t s.cur.addr.toNat s.clock b.barPhase 0 false 0 [] else s3
          .next (s4.issue h false fun u => upd (clear u))
        else
          let o : MemOp :=
            { id := id, path := m.path, sp := false, kind := m.kind, size := m.size, sx := m.sx, op := m.op, ty := m.ty, rnd := m.rnd
              dest := m.dest, pend := if m.dest.isSome then some id else none, scope := m.scope, lanes := ls
              logged := logged, replays := 0, sampled := smp, retry := false, pc := s.cur.addr, time := s.clock
              phase := b.barPhase }
          let regs := destRegs m.dest m.size
          .next (s3.issue h false fun u =>
            let u1 := upd (clear u)
            let u2 := { u1 with ops := u1.ops ++ [o]
                                spin := if m.kind = .load && !s.frozen b.tag then
                                    u1.spin.readLines ((ls.filterMap fun a => a.pa).map fun x => s.home x / 64)
                                  else u1.spin }
            if m.dest.isSome then u2.addPend id regs none false else u2)

/-- A lane form on memory. -/
def State.memLanes (s : State) (h : Hd) (k x : BitVec 3) (o : BitVec 6) (need : Need) (reads writes : List RegName)
    (m : MSpec) (val cmp : Team → Nat → Nat) : Out :=
  s.chk (.m k.toNat :: .x x.toNat :: (offV o ++ reads)) writes (!writes.isEmpty) fun b t =>
    match s.checkX b (t.rx x) need m.size (t.laneOff h o) (val t) (cmp t) (maskLanes (t.rm k) t.lanes) with
    | (c, s1) => s1.onLanes t (some k) c fun ls upd => s1.memGo h b t (some k) m ls upd

/-- A uniform form on memory. -/
def State.memUni (s : State) (h : Hd) (x : BitVec 3) (o : BitVec 6) (need : Need) (reads writes : List RegName)
    (m : MSpec) (val : Team → Nat) : Out :=
  s.chk (.x x.toNat :: (offW o ++ reads)) writes (!writes.isEmpty) fun b t =>
    match s.checkX b (t.rx x) need m.size (fun _ => t.uniOff h o) (fun _ => val t) (fun _ => 0) [0] with
    | (c, s1) => s1.onLanes t none c fun ls upd => s1.memGo h b t none m ls upd

/-- The scope that a word's prefix supplies. -/
def scopeOf (h : Hd) : Option Nat := h.sc.map fun x => x.toNat

/-- A load's or store's specification. -/
def accSpec (kind : AccKind) (h : Hd) (z : BitVec 2) (e : BitVec 1) (dest : Option RegName) : MSpec :=
  { path := .l, kind := kind, size := 2 ^ z.toNat, sx := e = 1#1, op := 0, ty := 0#4, rnd := 0, dest := dest
    scope := scopeOf h }

def execLdg (h : Hd) (k : BitVec 3) (d : BitVec 6) (x : BitVec 3) (o : BitVec 6) (e : BitVec 1) (z : BitVec 2)
    (s : State) : Out :=
  s.memLanes h k x o .rd [] (vName (z = 3#2) d) (accSpec .load h z e (some (.v d.toNat))) (fun _ _ => 0) fun _ _ => 0

def execLdw (h : Hd) (d : BitVec 6) (x : BitVec 3) (o : BitVec 6) (e : BitVec 1) (z : BitVec 2) (s : State) : Out :=
  s.memUni h x o .rd [] [.w d.toNat] (accSpec .load h z e (some (.w d.toNat))) fun _ => 0

/-- STG: the store's data is the low bytes of its lane or pair. -/
def execStg (h : Hd) (k : BitVec 3) (d : BitVec 6) (x : BitVec 3) (o : BitVec 6) (z : BitVec 2) (s : State) : Out :=
  s.memLanes h k x o .wr (vName (z = 3#2) d) [] (accSpec .store h z 0#1 none)
    (fun t l => t.rvN (z = 3#2) d.toNat l % 2 ^ (8 * 2 ^ z.toNat)) fun _ _ => 0

def execStw (h : Hd) (d : BitVec 6) (x : BitVec 3) (o : BitVec 6) (z : BitVec 2) (s : State) : Out :=
  s.memUni h x o .wr [.w d.toNat] [] (accSpec .store h z 0#1 none) fun t => (t.rw d).toNat % 2 ^ (8 * 2 ^ z.toNat)

/-- PREF changes no visible state except timing (R246). -/
def execPref (h : Hd) (k x : BitVec 3) (o : BitVec 6) (_ : BitVec 1) (s : State) : Out :=
  s.chk (.m k.toNat :: .x x.toNat :: offV o) [] false fun _ _ => .next (s.issue h false id)

/-! ### Scratchpad words -/

/-- A scratchpad word on its lanes: comparators and the sampling count, then what it does (R214, R433). `f` is told whether the word
is sampled. -/
def State.spTest (s : State) (b : Block) (t : Team) (lane : Option (BitVec 3)) (rd wr : Bool) (size : Nat)
    (ls : List LaneAcc) (f : Bool → State → Out) : Out :=
  match s.dataHits b t rd wr size (seenLanes t lane ls) with
  | (s0, some i) => .next (s0.stopAt b t 1 i)
  | (s0, none) =>
    match s0.countWord b t with
    | (smp, s1) => f smp (s1.updTeam s.cur.r fun u => { u with sample := false })

/-- A scratchpad word that is performed at its issue. -/
def State.spGo (s : State) (b : Block) (t : Team) (lane : Option (BitVec 3)) (rd wr : Bool) (size : Nat)
    (ls : List LaneAcc) (f : State → Out) : Out :=
  s.spTest b t lane rd wr size ls fun smp s2 =>
        f (if smp then
            s2.sampleRecord b t s.cur.addr.toNat s.clock b.barPhase 0 true (spCycles size ls) (sampledLanes ls)
          else s2)

/-- A lane's scratchpad address (R194): base `sp`, which reads as 0. -/
def Team.spLane (t : Team) (h : Hd) (o : BitVec 6) (l : Nat) : Nat := spAddr (t.laneOff h o l)

/-- A uniform word's scratchpad address. -/
def Team.spUni (t : Team) (h : Hd) (o : BitVec 6) : Nat := spAddr (t.uniOff h o)

/-- The values that lanes read from scratchpad. -/
def State.spRead (s : State) (size : Nat) (ls : List LaneAcc) : List LaneAcc :=
  ls.map fun a => { a with val := s.spadRd a.blk (a.pa.getD 0) size, done := true }

/-- The granules, with their blocks, that lanes touch. -/
def spGranules (ls : List LaneAcc) : List (Nat × Nat) := (ls.map fun a => (a.blk, a.pa.getD 0 / 16)).eraseDups

/-- A scratchpad access joins the team's accesses; its destination becomes pending. -/
def State.spJoin (s : State) (h : Hd) (b : Block) (m : MSpec) (smp : Bool) (ls : List LaneAcc) (upd : Team → Team) : State :=
  match s.newId with
  | (id, s1) =>
    let o : MemOp :=
      { id := id, path := m.path, sp := true, kind := m.kind, size := m.size, sx := m.sx, op := m.op, ty := m.ty, rnd := m.rnd
        dest := m.dest, pend := if m.dest.isSome then some id else none, scope := m.scope, lanes := ls, logged := false, replays := 0
        sampled := smp, retry := false, pc := s.cur.addr, time := s.clock, phase := b.barPhase }
    s1.issue h false fun u =>
      let u1 := upd u
      let u2 := { u1 with ops := u1.ops ++ [o]
                          spin := if m.kind = .load && !s.frozen b.tag then u1.spin.readGranules (spGranules ls) else u1.spin }
      if m.dest.isSome then u2.addPend id (destRegs m.dest m.size) none false else u2

/-- A load, store or atomic on scratchpad: it joins the team's accesses, to be performed lane by lane, where the move has it so or an
earlier access has to be performed first; or it is performed now, whole (R214, R255, R461; log entry 34). -/
def State.spWord (s : State) (h : Hd) (b : Block) (t : Team) (lane : Option (BitVec 3)) (m : MSpec) (ls : List LaneAcc)
    (upd : Team → Team) (now : State → Out) : Out :=
  let rd := m.kind = .load || m.kind = .atom
  let wr := m.kind != .load
  if (s.apart || t.spHeld s.cur.base h.sc.isSome) && !ls.isEmpty then
    s.spTest b t lane rd wr m.size ls fun smp s1 => .next (s1.spJoin h b m smp ls upd)
  else s.spGo b t lane rd wr m.size ls now

/-- A scratchpad load; one that is performed at once returns into its scoreboarded destination. -/
def State.spLoad (s : State) (h : Hd) (b : Block) (lane : Option (BitVec 3)) (e : BitVec 1) (z : BitVec 2)
    (dest : RegName) (ls : List LaneAcc) (upd : Team → Team) : Out :=
  match s.team? s.cur.r with
  | none => .fault .noTeam
  | some (_, t) =>
    let size := 2 ^ z.toNat
    s.spWord h b t lane (accSpec .load h z e (some dest)) ls upd fun s1 =>
      if ls.isEmpty then .next (s1.issue h false upd)
      else
        match s1.newId with
        | (id, s2) =>
          .next (s2.issue h false fun u =>
            let u1 := upd u
            let u2 := { u1 with spin := if s.frozen b.tag then u1.spin else u1.spin.readGranules (spGranules ls) }
            u2.addPend id (destRegs (some dest) size)
              (some (loadWrites dest t.lanes size (e = 1#1) (s.spRead size ls))) false)

def execLds (h : Hd) (k : BitVec 3) (d o : BitVec 6) (e : BitVec 1) (z : BitVec 2) (s : State) : Out :=
  s.chk (.m k.toNat :: offV o) (vName (z = 3#2) d) true fun b t =>
    let c := s.checkSp b (2 ^ z.toNat) (t.spLane h o) (fun _ => 0) (fun _ => 0) (maskLanes (t.rm k) t.lanes)
    s.onLanes t (some k) c fun ls upd => s.spLoad h b (some k) e z (.v d.toNat) ls upd

def execLdws (h : Hd) (d o : BitVec 6) (e : BitVec 1) (z : BitVec 2) (s : State) : Out :=
  s.chk (offW o) [.w d.toNat] true fun b t =>
    let c := s.checkSp b (2 ^ z.toNat) (fun _ => t.spUni h o) (fun _ => 0) (fun _ => 0) [0]
    s.onLanes t none c fun ls upd => s.spLoad h b none e z (.w d.toNat) ls upd

/-- The lanes' stores into scratchpad in increasing order: the highest lane's value remains (R213). -/
def State.spStore (s : State) (size : Nat) (ls : List LaneAcc) : State :=
  ls.foldl (fun s a => s.spadWr a.blk (a.pa.getD 0) (natBytes size a.val)) s

def execSts (h : Hd) (k : BitVec 3) (d o : BitVec 6) (z : BitVec 2) (s : State) : Out :=
  s.chk (.m k.toNat :: (offV o ++ vName (z = 3#2) d)) [] false fun b t =>
    let c := s.checkSp b (2 ^ z.toNat) (t.spLane h o) (t.rvN (z = 3#2) d.toNat) (fun _ => 0)
      (maskLanes (t.rm k) t.lanes)
    s.onLanes t (some k) c fun ls upd =>
      s.spWord h b t (some k) (accSpec .store h z 0#1 none) ls upd fun s1 =>
        .next ((s1.spStore (2 ^ z.toNat) ls).issue h false upd)

def execStws (h : Hd) (d o : BitVec 6) (z : BitVec 2) (s : State) : Out :=
  s.chk (.w d.toNat :: offW o) [] false fun b t =>
    let c := s.checkSp b (2 ^ z.toNat) (fun _ => t.spUni h o) (fun _ => (t.rw d).toNat) (fun _ => 0) [0]
    s.onLanes t none c fun ls upd =>
      s.spWord h b t none (accSpec .store h z 0#1 none) ls upd fun s1 =>
        .next ((s1.spStore (2 ^ z.toNat) ls).issue h false upd)

/-! ### Consuming loads (R215) -/

/-- Whether every granule of a list is full. -/
def State.allFull (s : State) (gs : List (Nat × Nat)) : Bool :=
  gs.all fun g => match s.block? g.1 with | some b => b.full.contains g.2 | none => false

/-- Granules emptied. -/
def State.emptyAll (s : State) (gs : List (Nat × Nat)) : State :=
  gs.foldl (fun s g => s.updBlock g.1 fun b => { b with full := fullClr b.full [g.2] }) s

/-- A team that waits in a consuming load: once its earlier scratchpad words are performed (R214) and every granule is full, in one
step, the lanes read and .fe empties. -/
def State.wakeConsume (s : State) (r : TRef) : State :=
  match s.team? r with
  | some (b, t) =>
    match t.wait with
    | some (.consume ls size sx d empty id smp) =>
      let gs := spGranules ls
      if s.allFull gs && !t.spLeft then
        let ws := loadWrites (.v d) t.lanes size sx (s.spRead size ls)
        let s1 := if empty then s.emptyAll gs else s
        let s2 := match smp with
          | some (time, phase) =>
            s1.sampleRecord b t t.word.toNat time phase 0 true (spCycles size ls) (sampledLanes ls)
          | none => s1
        s2.updTeam r fun u => { (u.answer id ws) with wait := none }
      else s
    | _ => s
  | none => s

/-- LDS.fe and LDS.fk (R215): an implicit switch; the team waits with FEWAIT until every granule is full. -/
def State.consume (s : State) (h : Hd) (k : BitVec 3) (d o : BitVec 6) (e : BitVec 1) (z : BitVec 2) (empty : Bool) :
    Out :=
  s.chk (.m k.toNat :: offV o) (vName (z = 3#2) d) true fun b t => s.atPoint h b <|
    let c := s.checkSp b (2 ^ z.toNat) (t.spLane h o) (fun _ => 0) (fun _ => 0) (maskLanes (t.rm k) t.lanes)
    s.onLanes t (some k) c fun ls upd =>
      s.spTest b t (some k) true false (2 ^ z.toNat) ls fun smp s0 =>
        let s1 := s0.countPoint b
        if ls.isEmpty then
          .next ((if smp then s1.sampleRecord b t s.cur.addr.toNat s.clock b.barPhase 0 true 0 [] else s1).issue h true upd)
        else
          match s1.newId with
          | (id, s2) =>
            .next ((s2.issue h true fun u =>
              let u1 := upd u
              let u2 := { u1 with spin := if s.frozen b.tag then u1.spin else u1.spin.readGranules (spGranules ls)
                                  word := s.cur.addr
                                  wait := some (.consume ls (2 ^ z.toNat) (e = 1#1) d.toNat empty id
                                    (if smp then some (s.clock, b.barPhase) else none)) }
              u2.addPend id (vName (z = 3#2) d) none false).wakeConsume s.cur.r)

def execLdsFe (h : Hd) (k : BitVec 3) (d o : BitVec 6) (e : BitVec 1) (z : BitVec 2) (s : State) : Out :=
  s.consume h k d o e z true
def execLdsFk (h : Hd) (k : BitVec 3) (d o : BitVec 6) (e : BitVec 1) (z : BitVec 2) (s : State) : Out :=
  s.consume h k d o e z false

/-! ### Full bits of a range (R216) -/

/-- The accesses that change the granules of a range, one for each (R216). -/
def feLanes (a blk off n : Nat) : List LaneAcc :=
  (List.range (n / 16)).map fun i =>
    { lane := i, va := a + 16 * i, pa := some (off + 16 * i), done := false, val := 0, cmp := 0, blk := blk }

/-- The record of a sampled FESET or FECLR: one access at the range's first address, of one bank cycle (log entry 103). -/
def State.feSample (s : State) (b : Block) (t : Team) (pc time phase a : Nat) : State :=
  s.sampleRecord b t pc time phase 0 true 1 [(0, a)]

/-- FESET and FECLR (R216): the granules of a range change one by one, the data does not; FESET, a release, after the accesses before
it. Of an address that is both misaligned and outside the addressed block, ALIGN is raised: the model's choice, for
R216 gives the two no order (log entry 122). -/
def State.feRange (s : State) (h : Hd) (d o : BitVec 6) (kind : AccKind) : Out :=
  s.chk (.w d.toNat :: offW o) [] false fun b t =>
    let a := t.spUni h o
    let n := (t.rw d).toNat
    if a % 16 ≠ 0 || n % 16 ≠ 0 then .next (s.trap .align)
    else if 262144 < n then .next (s.trap .sprange)
    else
      match s.spRange b a n with
      | none => .next (s.trap .sprange)
      | some (x, off) =>
        match s.countWord b t with
        | (smp, s1) =>
          let clear (u : Team) : Team := { u with sample := false }
          if n = 0 then
            .next ((if smp then s1.feSample b t s.cur.addr.toNat s.clock b.barPhase a else s1).issue h false clear)
          else
            match s1.newId with
            | (id, s2) =>
              let op : MemOp :=
                { id := id, path := .l, sp := true, kind := kind, size := 16, sx := false, op := 0, ty := 0#4, rnd := 0
                  dest := none, pend := none, scope := none, lanes := feLanes a x.id off n, logged := false, replays := 0
                  sampled := smp, retry := false, pc := s.cur.addr, time := s.clock, phase := b.barPhase }
              .next (s2.issue h false fun u => { (clear u) with ops := u.ops ++ [op] })

def execFeset (h : Hd) (d o : BitVec 6) (s : State) : Out := s.feRange h d o .feset
def execFeclr (h : Hd) (d o : BitVec 6) (s : State) : Out := s.feRange h d o .feclr

/-! ### Atomics (R217 to R220) -/

/-- The bytes of an atomic's type. -/
def atomSize (ty : BitVec 4) : Nat := if is64 ty then 8 else 4

/-- The registers that an atomic's data field names: for cas a block of two registers or pairs (R219). -/
def atomRegs (p ty : BitVec 4) (d : BitVec 6) : List RegName :=
  vName (is64 ty) d ++ (if p = 7#4 then
    (if is64 ty then [.v (d.toNat + 2), .v (d.toNat + 3)] else [.v (d.toNat + 1)]) else [])

/-- The operand v of a lane: swp for cas. -/
def atomVal (p ty : BitVec 4) (d : BitVec 6) (t : Team) (l : Nat) : Nat :=
  if p = 7#4 then t.rvN (is64 ty) (d.toNat + (if is64 ty then 2 else 1)) l else t.rvN (is64 ty) d.toNat l

/-- The comparand of a lane. -/
def atomCmp (ty : BitVec 4) (d : BitVec 6) (t : Team) (l : Nat) : Nat := t.rvN (is64 ty) d.toNat l

/-- Atomics on scratchpad, lane after lane: the lanes with the old values (R219). -/
def State.spAtoms (s : State) (size op : Nat) (ty : BitVec 4) : List LaneAcc → List LaneAcc × State
  | [] => ([], s)
  | a :: as =>
    let o := a.pa.getD 0
    let old := s.spadRd a.blk o size
    match (s.spadWr a.blk o (natBytes size (atomNew op ty old a.val a.cmp))).spAtoms size op ty as with
    | (r, s1) => ({ a with val := old, done := true } :: r, s1)

/-- ATOM and RED (R219). -/
def State.atomWord (s : State) (h : Hd) (p : BitVec 4) (k : BitVec 3) (d : BitVec 6) (x : BitVec 3) (o : BitVec 6)
    (sp ret : Bool) : Out :=
  let ty := h.ty (atomDflt p)
  let size := atomSize ty
  let writes := if ret then vName (is64 ty) d else []
  let dest : Option RegName := if ret then some (.v d.toNat) else none
  let spec : MSpec :=
    { path := .l, kind := .atom, size := size, sx := false, op := p.toNat, ty := ty, rnd := 0, dest := dest, scope := scopeOf h }
  if sp then
    s.chk (.m k.toNat :: (offV o ++ atomRegs p ty d)) writes ret fun b t =>
      let c := s.checkSp b size (t.spLane h o) (atomVal p ty d t) (atomCmp ty d t) (maskLanes (t.rm k) t.lanes)
      s.onLanes t (some k) c fun ls upd =>
        s.spWord h b t (some k) spec ls upd fun s1 =>
          match s1.spAtoms size p.toNat ty ls with
          | (r, s2) =>
            if !ret || ls.isEmpty then .next (s2.issue h false upd)
            else
              match s2.newId with
              | (id, s3) =>
                .next (s3.issue h false fun u =>
                  (upd u).addPend id writes (some (loadWrites (.v d.toNat) t.lanes size false r)) false)
  else
    s.memLanes h k x o .at' (atomRegs p ty d) writes spec (fun t l => atomVal p ty d t l) fun t l => atomCmp ty d t l

def execAtom (h : Hd) (p : BitVec 4) (k : BitVec 3) (d : BitVec 6) (x : BitVec 3) (o : BitVec 6) (y : BitVec 1)
    (s : State) : Out := s.atomWord h p k d x o (y = 1#1) true
def execRed (h : Hd) (p : BitVec 4) (k : BitVec 3) (d : BitVec 6) (x : BitVec 3) (o : BitVec 6) (y : BitVec 1)
    (s : State) : Out := s.atomWord h p k d x o (y = 1#1) false

/-! ### Fences (R221 to R223) -/

/-- FENCE: the team waits for its logged entries with REPLAY, then for every earlier access of path L with PIPE. The
model performs an access at every scope at once, so that the fence's scope selects nothing more (log entry 15). -/
def execFence (h : Hd) (s : State) : Out :=
  s.chk [] [] false fun _ t =>
    if t.ops.any fun o => o.logged && decide (o.id < s.cur.base) then .next (s.park .replay)
    else if t.outstanding s.cur.base .l then .next (s.park .pipe)
    else .next (s.issue h false id)

/-- The path that a code names (R222). -/
def pathOf (c : BitVec 3) : Path := match c.toNat with | 0 => .l | 1 => .c | 2 => .x | 3 => .s | 4 => .n | _ => .q

/-- Whether a team has an operation on a path that an earlier chain issued and that is not performed (R222). The
operations of path Q are performed when they issue. An NRED is performed once its contribution has joined, be its result still to
come: the model's choice, for R222 does not say which (log entry 123). -/
def State.pathBusy (s : State) (b : Block) (t : Team) (p : Path) : Bool :=
  match p with
  | .l => t.outstanding s.cur.base .l
  | .s => t.outstanding s.cur.base .s
  | .c => (s.copies.any fun c => c.b = b.id && c.team = t.idx && decide (c.id < s.cur.base))
      || t.pend.any fun p => p.copy && decide (p.id < s.cur.base)
  | .x => b.tiles.any fun z => z.ops.any fun o => o.team = t.idx && decide (o.id < s.cur.base)
  | .n => s.nmsgs.any fun m => m.r = s.cur.r && decide (m.id < s.cur.base)
  | .q => false

def execXfence (h : Hd) (q p : BitVec 3) (s : State) : Out :=
  s.chk [] [] false fun b t =>
    if s.pathBusy b t (pathOf p) || s.pathBusy b t (pathOf q) then .next (s.park .pipe)
    else .next (s.issue h false id)

/-- Whether a copy writes scratchpad. -/
def Copy.toSpad (c : Copy) : Bool := c.dir = 0 && (match c.chip with | .spad _ _ => true | _ => false)

/-- Whether a team has a scratchpad write that an earlier chain issued and that is not performed: a store, an atomic, FESET, FECLR, a
word of path S, or a copy into scratchpad (R223). -/
def State.spadBusy (s : State) (b : Block) (t : Team) : Bool :=
  (t.ops.any fun o => o.sp && o.kind != .load && decide (o.id < s.cur.base))
    || s.copies.any fun c => c.b = b.id && c.team = t.idx && decide (c.id < s.cur.base) && c.toSpad

/-- SPFENCE: the team's earlier scratchpad writes are awaited, and the core's operand cache is emptied (R223). -/
def execSpfence (h : Hd) (s : State) : Out :=
  s.chk [] [] false fun b t =>
    if s.spadBusy b t then .next (s.park .pipe)
    else
      let s1 := { s with blocks := s.blocks.map fun (x : Block) =>
        if x.core = b.core && x.place = Place.resident then { x with ocache := [] } else x }
      .next (s1.issue h false id)

end Sys2Proof.Machine
end

