-- ==== Sys2Proof/Machine/Bench.lean ====
section
/-! DEFINITION. Benches and sharing groups: class 18 (R224 to R228, R242, R243). -/

namespace Sys2Proof.Machine

/-- A bench's fields (R224). -/
def benchExpa (x : Nat) : Nat := natBits x 0 16
def benchExpb (x : Nat) : Nat := natBits x 16 32
def benchArr (x : Nat) : Nat := natBits x 64 16
def benchBytes (x : Nat) : Nat := natBits x 80 32
def benchPhase (x : Nat) : Nat := natBits x 112 15
def benchOvf (x : Nat) : Nat := natBits x 127 1

/-- A bench from its fields; the reserved bits are kept as they stand. -/
def benchMk (low phase bytes arr ovf : Nat) : Nat :=
  low % 2 ^ 64 + arr % 2 ^ 16 * 2 ^ 64 + bytes % 2 ^ 32 * 2 ^ 80 + phase % 2 ^ 15 * 2 ^ 112 + ovf % 2 * 2 ^ 127

/-- How many phases counts complete (R226): each takes the expectations from the counts. -/
def benchRounds (ea eb arr bytes : Nat) : Nat :=
  if ea = 0 then (if eb = 0 then 0 else bytes / eb)
  else if eb = 0 then arr / ea
  else min (arr / ea) (bytes / eb)

/-- A post (R226). -/
def benchPost (x na nb : Nat) : Nat :=
  let arr := benchArr x + na
  let bytes := benchBytes x + nb
  let past := 65535 < arr || 2 ^ 32 - 1 < bytes
  let arr' := min arr 65535
  let bytes' := min bytes (2 ^ 32 - 1)
  let m := benchRounds (benchExpa x) (benchExpb x) arr' bytes'
  benchMk x (benchPhase x + m) (bytes' - m * benchExpb x) (arr' - m * benchExpa x) (if past then 1 else benchOvf x)

/-- A post to a bench at a place in a block's scratchpad. -/
def State.post (s : State) (blk off na nb : Nat) : State :=
  s.spadWr blk off (natBytes 16 (benchPost (s.spadRd blk off 16) na nb))

/-- The bench that a word names: its block and offset, or the trap (R228). -/
def State.benchAt (s : State) (b : Block) (a : Nat) : Except Cause (Nat × Nat) := s.legalSp b 16 a

/-- A word on a bench joins the team's accesses: BINIT with the bench's new value, or BARRIVE. -/
def State.benchJoin (s : State) (h : Hd) (b : Block) (kind : AccKind) (a blk off val : Nat) : State :=
  match s.newId with
  | (id, s1) =>
    let o : MemOp :=
      { id := id, path := .l, sp := true, kind := kind, size := 16, sx := false, op := 0, ty := 0#4, rnd := 0, dest := none, pend := none
        scope := none, lanes := [{ lane := 0, va := a, pa := some off, done := false, val := val, cmp := 0, blk := blk }], logged := false
        replays := 0, sampled := false, retry := false, pc := s.cur.addr, time := s.clock, phase := b.barPhase }
    s1.issue h false fun u => { u with ops := u.ops ++ [o] }

/-- BINIT (R225), performed now or among the team's accesses, as a store of scratchpad is. -/
def execBinit (h : Hd) (d o : BitVec 6) (s : State) : Out :=
  s.chk (.w d.toNat :: offW o) [] false fun b t =>
    match s.benchAt b (t.spUni h o) with
    | .error c => .next (s.trap c)
    | .ok (x, off) =>
      let e := (t.rw d).toNat % 2 ^ 48
      if e = 0 then .next (s.trap .bencharg)
      else if s.apart || t.spHeld s.cur.base false then .next (s.benchJoin h b .binit (t.spUni h o) x off e)
      else .next ((s.spadWr x off (natBytes 16 e)).issue h false id)

/-- BARRIVE (R227): a release, so that its post comes after every earlier access of path L (R463). -/
def execBarrive (h : Hd) (o : BitVec 6) (s : State) : Out :=
  s.chk (offW o) [] false fun b t =>
    match s.benchAt b (t.spUni h o) with
    | .error c => .next (s.trap c)
    | .ok (x, off) =>
      if s.apart || t.spHeld s.cur.base true then .next (s.benchJoin h b .barrive (t.spUni h o) x off 0)
      else .next ((s.post x off 1 0).issue h false id)

/-- Whether a bench is past phase k (R228). -/
def benchPast (x k : Nat) : Bool :=
  let d := (benchPhase x + 2 ^ 15 - k % 2 ^ 15) % 2 ^ 15
  1 ≤ d && d ≤ 2 ^ 14

/-- A team that waits in BWAIT continues once its earlier scratchpad words are performed (R214) and the bench is past its phase. -/
def State.wakeBench (s : State) (r : TRef) : State :=
  match s.team? r with
  | some (_, t) =>
    match t.wait with
    | some (.bench x off k) =>
      if benchPast (s.spadRd x off 16) k && !t.spLeft then s.updTeam r fun u => { u with wait := none } else s
    | _ => s
  | none => s

/-- BWAIT (R228): an implicit switch. -/
def execBwait (h : Hd) (d o : BitVec 6) (s : State) : Out :=
  s.chk (.w d.toNat :: offW o) [] false fun b t => s.atPoint h b <|
    match s.benchAt b (t.spUni h o) with
    | .error c => .next (s.trap c)
    | .ok (x, off) =>
      .next (((s.countPoint b).issue h true fun u =>
        { u with wait := some (.bench x off ((t.rw d).toNat % 2 ^ 15)) }).wakeBench s.cur.r)

/-! ### Sharing groups -/

/-- The members of a key's group in a block's context and cluster (R242). -/
def State.groupOf (s : State) (b : Block) (key : Nat) : List Block :=
  s.blocks.filter fun x => x.tag == b.tag && x.bureau == b.bureau && coreCluster x.core = coreCluster b.core &&
    (match x.group with | some g => g.key = key | none => false)

/-- Whether SGJOIN raises SGROUP (R242). -/
def State.sgBad (s : State) (b : Block) (key count : Nat) : Bool :=
  let ms := s.groupOf b key
  count = 0 || 4 < count
    || (match b.group with | some g => g.key ≠ key | none => false)
    || (ms.any fun x => x.id != b.id && x.core = b.core)
    || (ms.any fun x => match x.group with | some g => g.count ≠ count | none => false)
    || (decide (count ≤ ms.length) && ms.all fun x => x.id != b.id)

/-- A team of a member of a group that waits in SGJOIN goes on. -/
def Team.sgOn (t : Team) (key count : Nat) : Team := if t.wait = some (.sgjoin key count) then { t with wait := none } else t

/-- A team that waits in SGJOIN continues once its group holds COUNT members, and with it every other that waits there (R242). -/
def State.wakeSg (s : State) (r : TRef) : State :=
  match s.team? r with
  | some (b, t) =>
    match t.wait with
    | some (.sgjoin key count) =>
      let ms := s.groupOf b key
      if count ≤ ms.length then
        { s with blocks := s.blocks.map fun (x : Block) =>
            if ms.any fun y => y.id == x.id then { x with teams := x.teams.map fun u => u.sgOn key count } else x }
      else s
    | _ => s
  | none => s

/-- SGJOIN (R242): an implicit switch. The team's earlier scratchpad words are performed before the block is a member (R261, R462): the
team waits for them with BENCH, as it does for its group (R242, R448). -/
def execSgjoin (h : Hd) (d : BitVec 6) (s : State) : Out :=
  s.chk [.w d.toNat] [] false fun b t => s.atPoint h b <|
    let key := (t.rw d).toNat % 2 ^ 16
    let count := natBits (t.rw d).toNat 16 3
    if s.sgBad b key count then .next (s.trap .sgroup)
    else if t.ops.any fun o => o.sp && decide (o.id < s.cur.base) then .next (s.park .bench)
    else
      let s1 := (s.countPoint b).updBlock b.id fun x => { x with group := some { key := key, count := count } }
      .next ((s1.issue h true fun u => { u with wait := some (.sgjoin key count) }).wakeSg s.cur.r)

/-- SGLEAVE (R243): no effect in a block that is no member. -/
def execSgleave (h : Hd) (s : State) : Out :=
  s.chk [] [] false fun b _ => .next ((s.updBlock b.id fun x => { x with group := none }).issue h false id)

end Sys2Proof.Machine
end

