-- ==== Sys2Proof/Machine/VectorFloat.lean ====
section
/-! DEFINITION. The floating-point vector words of classes 8 to 10, conversion and comparison (R160 to R165, R167 to
R169). -/

namespace Sys2Proof.Machine

/-- The environment of a floating-point word of a format: its mode, and the flush bit (R181 to R183). -/
def Team.fenv (t : Team) (h : Hd) (f : Fmt) : FEnv :=
  { md := modeOf h.rnd.toNat (t.fpmode.toNat % 4), fz := f.fz t.fpmode }

/-- A two-operand word on binary32 or, with pairs, binary64 (R161, R164). -/
def State.fBin (s : State) (h : Hd) (k : BitVec 3) (lat : Nat) (f : Fmt) (d a b : BitVec 6)
    (op : FEnv → Nat → Nat → Nat) : Out :=
  let w := f.width = 64
  s.vOp h k w lat d (vName w a ++ vName w b) fun t l =>
    op (t.fenv h f) (t.rvN w a.toNat l) (t.rvN w b.toNat l)

/-- A three-operand word: d is also read (R161). -/
def State.fTri (s : State) (h : Hd) (k : BitVec 3) (lat : Nat) (f : Fmt) (d a b : BitVec 6) : Out :=
  let w := f.width = 64
  s.vOp h k w lat d (vName w a ++ vName w b ++ vName w d) fun t l =>
    f.fma (t.fenv h f) (t.rvN w a.toNat l) (t.rvN w b.toNat l) (t.rvN w d.toNat l)

/-- A one-operand word. -/
def State.fUn (s : State) (h : Hd) (k : BitVec 3) (lat : Nat) (f : Fmt) (d a : BitVec 6) (op : FEnv → Nat → Nat) : Out :=
  let w := f.width = 64
  s.vOp h k w lat d (vName w a) fun t l => op (t.fenv h f) (t.rvN w a.toNat l)

/-- FABS: the sign bit 0 (R161). -/
def fabs (x : Nat) : Nat := f32.mag x
/-- FNEG: the sign bit inverted (R161). -/
def fneg (x : Nat) : Nat := f32.negate x

def execFadd (h : Hd) (k : BitVec 3) (d a b : BitVec 6) (s : State) : Out := s.fBin h k latV f32 d a b f32.add
def execFsub (h : Hd) (k : BitVec 3) (d a b : BitVec 6) (s : State) : Out := s.fBin h k latV f32 d a b f32.sub
def execFmul (h : Hd) (k : BitVec 3) (d a b : BitVec 6) (s : State) : Out := s.fBin h k latV f32 d a b f32.mul
def execFfma (h : Hd) (k : BitVec 3) (d a b : BitVec 6) (s : State) : Out := s.fTri h k latV f32 d a b
def execFmin (h : Hd) (k : BitVec 3) (d a b : BitVec 6) (s : State) : Out :=
  s.fBin h k latV f32 d a b fun _ => f32.minmax false
def execFmax (h : Hd) (k : BitVec 3) (d a b : BitVec 6) (s : State) : Out :=
  s.fBin h k latV f32 d a b fun _ => f32.minmax true
def execFabs (h : Hd) (k : BitVec 3) (d a : BitVec 6) (s : State) : Out := s.fUn h k latV f32 d a fun _ => fabs
def execFneg (h : Hd) (k : BitVec 3) (d a : BitVec 6) (s : State) : Out := s.fUn h k latV f32 d a fun _ => fneg
def execFrcp (h : Hd) (k : BitVec 3) (d a : BitVec 6) (s : State) : Out := s.fUn h k latF f32 d a f32.rcp
def execFrsq (h : Hd) (k : BitVec 3) (d a : BitVec 6) (s : State) : Out := s.fUn h k latF f32 d a f32.rsq
def execFsqrt (h : Hd) (k : BitVec 3) (d a : BitVec 6) (s : State) : Out := s.fUn h k latF f32 d a f32.sqrt
def execFdiv (h : Hd) (k : BitVec 3) (d a b : BitVec 6) (s : State) : Out := s.fBin h k latF f32 d a b f32.div
def execFexp2 (h : Hd) (k : BitVec 3) (d a : BitVec 6) (s : State) : Out := s.fUn h k latF f32 d a fexp2
def execFlog2 (h : Hd) (k : BitVec 3) (d a : BitVec 6) (s : State) : Out := s.fUn h k latF f32 d a flog2

def execDadd (h : Hd) (k : BitVec 3) (d a b : BitVec 6) (s : State) : Out := s.fBin h k latD f64 d a b f64.add
def execDsub (h : Hd) (k : BitVec 3) (d a b : BitVec 6) (s : State) : Out := s.fBin h k latD f64 d a b f64.sub
def execDmul (h : Hd) (k : BitVec 3) (d a b : BitVec 6) (s : State) : Out := s.fBin h k latD f64 d a b f64.mul
def execDfma (h : Hd) (k : BitVec 3) (d a b : BitVec 6) (s : State) : Out := s.fTri h k latD f64 d a b
def execDmin (h : Hd) (k : BitVec 3) (d a b : BitVec 6) (s : State) : Out :=
  s.fBin h k latD f64 d a b fun _ => f64.minmax false
def execDmax (h : Hd) (k : BitVec 3) (d a b : BitVec 6) (s : State) : Out :=
  s.fBin h k latD f64 d a b fun _ => f64.minmax true
def execDdiv (h : Hd) (k : BitVec 3) (d a b : BitVec 6) (s : State) : Out := s.fBin h k latDD f64 d a b f64.div
def execDsqrt (h : Hd) (k : BitVec 3) (d a : BitVec 6) (s : State) : Out := s.fUn h k latDD f64 d a f64.sqrt

/-! ### Packed halves (R165) -/

/-- Half `i` of a lane word. -/
def half (x i : Nat) : Nat := natBits x (16 * i) 16

/-- Two halves computed alone. -/
def halves (f : Nat → Nat) : Nat := f 0 + 2 ^ 16 * f 1

/-- A VH16 word of two operands; the format is binary16 or, by TYPE, bfloat16. -/
def State.hBin (s : State) (h : Hd) (k : BitVec 3) (d a b : BitVec 6) (op : Fmt → FEnv → Nat → Nat → Nat) : Out :=
  let f := fmtOf (h.ty 8#4).toNat
  s.vOp h k false latD d [.v a.toNat, .v b.toNat] fun t l =>
    halves fun i => op f (t.fenv h f) (half (t.rvN false a.toNat l) i) (half (t.rvN false b.toNat l) i)

def execHadd2 (h : Hd) (k : BitVec 3) (d a b : BitVec 6) (s : State) : Out := s.hBin h k d a b Fmt.add
def execHsub2 (h : Hd) (k : BitVec 3) (d a b : BitVec 6) (s : State) : Out := s.hBin h k d a b Fmt.sub
def execHmul2 (h : Hd) (k : BitVec 3) (d a b : BitVec 6) (s : State) : Out := s.hBin h k d a b Fmt.mul
def execHmin2 (h : Hd) (k : BitVec 3) (d a b : BitVec 6) (s : State) : Out :=
  s.hBin h k d a b fun f => f.minmaxFz false
def execHmax2 (h : Hd) (k : BitVec 3) (d a b : BitVec 6) (s : State) : Out :=
  s.hBin h k d a b fun f => f.minmaxFz true

/-- HFMA2: d is also read. -/
def execHfma2 (h : Hd) (k : BitVec 3) (d a b : BitVec 6) (s : State) : Out :=
  let f := fmtOf (h.ty 8#4).toNat
  s.vOp h k false latD d [.v a.toNat, .v b.toNat, .v d.toNat] fun t l =>
    halves fun i => f.fma (t.fenv h f) (half (t.rvN false a.toNat l) i) (half (t.rvN false b.toNat l) i)
      (half (t.rvN false d.toNat l) i)

/-! ### Conversion (R167, R168) -/

/-- The width of an integer format code (R106). -/
def intWidth (c : Nat) : Nat := match c / 2 with | 0 => 8 | 1 => 16 | 2 => 32 | _ => 64

/-- An integer result of `n` bits extended to its lane, or to its pair (R167). -/
def extLane (signed : Bool) (n x : Nat) : Nat :=
  if 32 ≤ n then x else if signed then wrapInt 32 (sextNat x n) else x

/-- One lane of CVT: destination and source codes, the mode, SAT, $fpmode and the source's bits (R168). -/
def cvtLane (dst src : Nat) (md : RMode) (sat : Bool) (fpmode : Dword) (x : Nat) : Nat :=
  let ds := dst % 2 = 0
  let n := intWidth dst
  if src ≤ 7 then
    let i := rdInt (src % 2 = 0) (intWidth src) x
    if dst ≤ 7 then extLane ds n (wrInt ds sat n i)
    else cvtIF (fmtOf dst) md sat ((fmtOf dst).fz fpmode) i
  else
    let f := fmtOf src
    let y := x % 2 ^ f.width
    if dst ≤ 7 then extLane ds n (wrapInt n (cvtFI f md (f.fz fpmode) ds n y))
    else if dst = src then f.flush (f.fz fpmode) y
    else cvtFF f (fmtOf dst) md sat (f.fz fpmode) ((fmtOf dst).fz fpmode) y

/-- CVT: the source's width and the destination's may differ, so the writes are of the destination's (R167). -/
def execCvt (h : Hd) (c : BitVec 4) (k : BitVec 3) (d a : BitVec 6) (f : BitVec 4) (s : State) : Out :=
  s.chk (.m k.toNat :: vName (is64 f) a) (vName (is64 c) d) false fun _ t =>
    .next (s.issue h false fun u =>
      u.addRun (s.clock + vDue (t.rm k) (is64 c || is64 f) latV)
        (vWrite (is64 c) d.toNat t.lanes fun l =>
          if (t.rm k).getLsbD l then
            some (cvtLane c.toNat f.toNat (modeOf h.rnd.toNat (t.fpmode.toNat % 4)) h.sat t.fpmode
              (t.rvN (is64 f) a.toNat l))
          else none))

/-! ### Comparison (R169) -/

/-- One lane of VCMP for a type: floating-point operands are read under the flush bit (R183). -/
def cmpLane (ty : BitVec 4) (q : Test) (v : FEnv) (a b : Nat) : Bool :=
  if isFloat ty then
    let f := fmtOf ty.toNat
    let x := f.flush v.fz a
    let y := f.flush v.fz b
    if f.isNan x || f.isNan y then q.onNan else q.onOrder (f.lt x y) (f.eq x y)
  else q.onOrder (ltN (isSigned ty) (if is64 ty then 64 else 32) a b) (a = b)

/-- A word of class 12: for each existing lane the test on governed lanes, else 0. -/
def State.vTest (s : State) (h : Hd) (k d : BitVec 3) (a b : BitVec 6) (wide : Bool)
    (f : Team → Nat → Nat → Bool) : Out :=
  s.chk (.m k.toNat :: (vName wide a ++ vName wide b)) [.m d.toNat] false fun _ t =>
    .next (s.issue h false fun u =>
      u.addRun (s.clock + vDue (t.rm k) wide latV)
        [.m d.toNat (maskOf ((maskLanes (t.rm k) t.lanes).filter fun l =>
          f t (t.rvN wide a.toNat l) (t.rvN wide b.toNat l)))])

/-- A VCMP word. -/
def State.vCmp (s : State) (h : Hd) (k d : BitVec 3) (a b : BitVec 6) (q : Test) : Out :=
  s.vTest h k d a b (is64 (h.ty 4#4)) fun t => cmpLane (h.ty 4#4) q (t.fenv h (fmtOf (h.ty 4#4).toNat))

def execVcmpEq (h : Hd) (k d : BitVec 3) (a b : BitVec 6) (s : State) : Out := s.vCmp h k d a b .eq
def execVcmpNe (h : Hd) (k d : BitVec 3) (a b : BitVec 6) (s : State) : Out := s.vCmp h k d a b .ne
def execVcmpLt (h : Hd) (k d : BitVec 3) (a b : BitVec 6) (s : State) : Out := s.vCmp h k d a b .lt
def execVcmpLe (h : Hd) (k d : BitVec 3) (a b : BitVec 6) (s : State) : Out := s.vCmp h k d a b .le
def execVcmpGt (h : Hd) (k d : BitVec 3) (a b : BitVec 6) (s : State) : Out := s.vCmp h k d a b .gt
def execVcmpGe (h : Hd) (k d : BitVec 3) (a b : BitVec 6) (s : State) : Out := s.vCmp h k d a b .ge
def execVcmpUn (h : Hd) (k d : BitVec 3) (a b : BitVec 6) (s : State) : Out := s.vCmp h k d a b .un
def execVcmpOrd (h : Hd) (k d : BitVec 3) (a b : BitVec 6) (s : State) : Out := s.vCmp h k d a b .ord

/-- VTEST: (a AND b) ≠ 0. -/
def execVtest (h : Hd) (k d : BitVec 3) (a b : BitVec 6) (s : State) : Out :=
  s.vTest h k d a b false fun _ x y => x &&& y != 0

end Sys2Proof.Machine
end

