-- ==== Sys2Proof/Machine/Lane.lean ====
section
/-! DEFINITION. The lane words of class 13 (R170 to R174): moves across lanes, the fixed-tree reduction and scan. -/

namespace Sys2Proof.Machine

/-! ### The operations of R172 -/

/-- Combine (R172): the environment is used by the rounding operations. -/
def laneComb (o : Nat) (v : FEnv) (x y : Nat) : Nat :=
  match o with
  | 0 => (x + y) % 2 ^ 32
  | 1 => if ltN true 32 y x then y else x
  | 2 => if ltN true 32 x y then y else x
  | 3 => if y < x then y else x
  | 4 => if x < y then y else x
  | 5 => x &&& y
  | 6 => x ||| y
  | 7 => x ^^^ y
  | 8 => f32.add v x y
  | 9 => f32.minmaxFz false v x y
  | 10 => f32.minmaxFz true v x y
  | 11 => (x + y) % 2 ^ 64
  | 12 => f64.add v x y
  | 13 => f64.minmaxFz false v x y
  | _ => f64.minmaxFz true v x y

/-- The identity (R172). -/
def laneId (o : Nat) : Nat :=
  match o with
  | 1 => 0x7FFFFFFF
  | 2 => 0x80000000
  | 3 => 0xFFFFFFFF
  | 5 => 0xFFFFFFFF
  | 9 => f32.top
  | 10 => f32.mk' true f32.top
  | 13 => f64.top
  | 14 => f64.mk' true f64.top
  | _ => 0

/-- An operand as an operation of R172 reads it: floating-point operands under the flush bit (R160, R183). It
leaves a signalling NaN as it is: a lone contributing lane's is the result unquieted, which is the model's choice (log entry 134). -/
def laneRead (o : Nat) (v : FEnv) (x : Nat) : Nat :=
  if o = 8 || o = 9 || o = 10 then f32.flush v.fz x else if o = 12 || o = 13 || o = 14 then f64.flush v.fz x else x

/-- The extension of VRED's result into w (R172). -/
def laneExt (o x : Nat) : Dword :=
  if o ≤ 2 then BitVec.ofInt 64 (sextNat x 32) else BitVec.ofNat 64 x

/-- comb of R173, with EMPTY as none. -/
def combOpt (f : Nat → Nat → Nat) : Option Nat → Option Nat → Option Nat
  | some x, some y => some (f x y)
  | some x, none => some x
  | none, y => y

/-- One level of the tree: neighbours combined. -/
def treeLevel (f : Nat → Nat → Nat) : List (Option Nat) → List (Option Nat)
  | x :: y :: r => combOpt f x y :: treeLevel f r
  | l => l

/-- The tree's root after `k` levels over 2^k leaves. -/
def treeRoot (f : Nat → Nat → Nat) : Nat → List (Option Nat) → Option Nat
  | 0, l => (l.head?).getD none
  | k + 1, l => treeRoot f k (treeLevel f l)

/-- The exponent of the smallest power of two that is at least `n`. -/
def ceilLog2 (n : Nat) : Nat := if n ≤ 1 then 0 else (n - 1).log2 + 1

/-- The leaves of lanes `lo` up to `lo + n`. -/
def leaves (g : Nat → Option Nat) (lo n : Nat) : List (Option Nat) := (List.range n).map fun i => g (lo + i)

/-- The reduction of R173 over P leaves, P the smallest power of two ≥ 32 × W. -/
def treeRed (f : Nat → Nat → Nat) (g : Nat → Option Nat) (w : Nat) : Option Nat :=
  let k := ceilLog2 (32 * w)
  treeRoot f k (leaves g 0 (2 ^ k))

/-- The value of a span of `n` lanes from `lo` (R174): aligned blocks, largest first, combined from the left. `k` counts
the binary digits left. -/
def spanRed (f : Nat → Nat → Nat) (g : Nat → Option Nat) : Nat → Nat → Nat → Option Nat → Option Nat
  | 0, _, _, acc => acc
  | k + 1, lo, n, acc =>
    if n / 2 ^ k % 2 = 1 then spanRed f g k (lo + 2 ^ k) n (combOpt f acc (treeRoot f k (leaves g lo (2 ^ k))))
    else spanRed f g k lo n acc

/-- The scan of R174 at lane `l`. -/
def scanAt (f : Nat → Nat → Nat) (g : Nat → Option Nat) (ex : Bool) (l : Nat) : Option Nat :=
  spanRed f g 11 0 (if ex then l else l + 1) none

/-! ### The words -/

/-- A governed lane's value. -/
def Team.govern (t : Team) (k : BitVec 3) (wide : Bool) (a : BitVec 6) (l : Nat) : Option Nat :=
  if l < t.lanes && (t.rm k).getLsbD l then some (t.rvN wide a.toNat l) else none

/-- Lane `j` of a register, or 0 beyond the lanes (R170). -/
def Team.pick (t : Team) (wide : Bool) (a : BitVec 6) (j : Nat) : Nat := if j < t.lanes then t.rvN wide a.toNat j else 0

def execVshuf (h : Hd) (k : BitVec 3) (d a b : BitVec 6) (s : State) : Out :=
  let w := is64 (h.ty 5#4)
  s.vOp h k w latV d (vName w a ++ [.v b.toNat]) fun t l => t.pick w a (t.rvN false b.toNat l)

def execVbcast (h : Hd) (k : BitVec 3) (d a b : BitVec 6) (s : State) : Out :=
  let w := is64 (h.ty 5#4)
  s.vOp h k w latV d (vName w a ++ [.w b.toNat]) fun t _ => t.pick w a (t.rw b).toNat

/-- A governed lane's value as an operation reads it (R172). -/
def Team.leaf (t : Team) (h : Hd) (k : BitVec 3) (wide : Bool) (a : BitVec 6) (o l : Nat) : Option Nat :=
  (t.govern k wide a l).map (laneRead o (t.fenv h (if wide then f64 else f32)))

/-- VRED (R173). -/
def execVred (h : Hd) (k : BitVec 3) (d a : BitVec 6) (o : BitVec 4) (s : State) : Out :=
  let w := laneOp64 o
  s.chk (.m k.toNat :: vName w a) [.w d.toNat] false fun _ t =>
    let f := laneComb o.toNat (t.fenv h (if w then f64 else f32))
    let x := (treeRed f (t.leaf h k w a o.toNat) t.words).getD (laneId o.toNat)
    .next (s.issue h false fun u =>
      u.addRun (s.clock + vDue (t.rm k) w latD) [.w d.toNat (laneExt o.toNat x)])

/-- VSCAN (R174). -/
def execVscan (h : Hd) (k : BitVec 3) (d a : BitVec 6) (e : BitVec 1) (o : BitVec 4) (s : State) : Out :=
  let w := laneOp64 o
  s.vOp h k w latD d (vName w a) fun t l =>
    (scanAt (laneComb o.toNat (t.fenv h (if w then f64 else f32))) (t.leaf h k w a o.toNat) (e = 1#1) l).getD (laneId o.toNat)

/-- VSEL writes every existing lane, in one pass for each mask word with an existing lane (R170). -/
def execVsel (h : Hd) (k : BitVec 3) (d a b : BitVec 6) (s : State) : Out :=
  let w := is64 (h.ty 5#4)
  s.chk (.m k.toNat :: (vName w a ++ vName w b)) (vName w d) false fun _ t =>
    .next (s.issue h false fun u =>
      u.addRun (s.clock + vDue (maskAll t.lanes) w latV)
        (vWrite w d.toNat t.lanes fun l =>
          some (if (t.rm k).getLsbD l then t.rvN w a.toNat l else t.rvN w b.toNat l)))

def execVmov (h : Hd) (k : BitVec 3) (d a : BitVec 6) (s : State) : Out :=
  let w := is64 (h.ty 5#4)
  s.vOp h k w latV d (vName w a) fun t l => t.rvN w a.toNat l

def execVmovw (h : Hd) (k : BitVec 3) (d a : BitVec 6) (s : State) : Out :=
  let w := is64 (h.ty 5#4)
  s.vOp h k w latV d [.w a.toNat] fun t _ => if w then (t.rw a).toNat else (t.rw a).toNat % 2 ^ 32

end Sys2Proof.Machine
end

