-- ==== Sys2Proof/Machine/Sparse.lean ====
section
/-! DEFINITION. The sparse words of class 20 (R266 to R277). SCATC and ISECT join the team's accesses on path S and are
performed by a later step. -/

namespace Sys2Proof.Machine

/-! ### V-pipe words (R268, R272 to R274) -/

/-- Whether a governed lane repeats the index of an earlier governed lane (R268). -/
def confLane (t : Team) (k : BitVec 3) (a : BitVec 6) (l : Nat) : Bool :=
  (t.rm k).getLsbD l && (List.range l).any fun j => (t.rm k).getLsbD j && t.rv a.toNat j = t.rv a.toNat l

def execVconf (h : Hd) (k d : BitVec 3) (a : BitVec 6) (s : State) : Out :=
  s.chk [.m k.toNat, .v a.toNat] [.m d.toNat] false fun _ t =>
    .next (s.issue h false fun u =>
      u.addRun (s.clock + vDue (t.rm k) false latD)
        [.m d.toNat (maskOf ((List.range t.lanes).filter fun l => confLane t k a l))])

/-- The number of merge positions below a target (R272). -/
def mpathCount (t : Team) (a b : BitVec 6) (l : Nat) : Nat :=
  ((List.range t.lanes).filter fun j => decide ((t.rv a.toNat j).toInt + j < (t.rv b.toNat l).toInt)).length

def execMpath (h : Hd) (k : BitVec 3) (d a b : BitVec 6) (s : State) : Out :=
  s.vOp h k false latD d [.v a.toNat, .v b.toNat] fun t l => mpathCount t a b l

/-- Whether lanes `j` up to `l` are one run of active lanes with equal keys (R273). -/
def segRun (t : Team) (k : BitVec 3) (b : BitVec 6) (j l : Nat) : Bool :=
  (List.range (l + 1 - j)).all fun i => (t.rm k).getLsbD (j + i) && t.rv b.toNat (j + i) = t.rv b.toNat l

/-- Whether two lanes lie in one segment. -/
def sameSeg (t : Team) (k : BitVec 3) (b : BitVec 6) (j l : Nat) : Bool :=
  decide (l < t.lanes) && decide (j < t.lanes) && (if j ≤ l then segRun t k b j l else segRun t k b l j)

/-- The sum of a type (R273). -/
def segAdd (ty : BitVec 4) (t : Team) (h : Hd) (x y : Nat) : Nat :=
  if ty = 10#4 then f32.add (t.fenv h f32) x y
  else if ty = 11#4 then f64.add (t.fenv h f64) x y
  else if is64 ty then (x + y) % 2 ^ 64 else (x + y) % 2 ^ 32

/-- The values of a lane's segment, a floating-point operand read under the flush bit (R160, R183; log entry 14); the other lanes are
EMPTY. A lone lane's signalling NaN is the result unquieted (log entry 134). -/
def segVal (ty : BitVec 4) (t : Team) (h : Hd) (k : BitVec 3) (a b : BitVec 6) (l j : Nat) : Option Nat :=
  let x := t.rvN (is64 ty) a.toNat j
  if sameSeg t k b j l then
    some (if ty = 10#4 then f32.flush (t.fenv h f32).fz x else if ty = 11#4 then f64.flush (t.fenv h f64).fz x else x)
  else none

def execVsegred (h : Hd) (k : BitVec 3) (d a b : BitVec 6) (s : State) : Out :=
  let ty := h.ty 4#4
  let w := is64 ty
  s.vOp h k w latD d (vName w a ++ [.v b.toNat]) fun t l =>
    (treeRed (segAdd ty t h) (segVal ty t h k a b l) t.words).getD 0

def execVsegscan (h : Hd) (k : BitVec 3) (d a b : BitVec 6) (s : State) : Out :=
  let ty := h.ty 4#4
  let w := is64 ty
  s.vOp h k w latD d (vName w a ++ [.v b.toNat]) fun t l =>
    (scanAt (segAdd ty t h) (segVal ty t h k a b l) false l).getD 0

/-- VCOMPRESS (R274): lanes 0 up to the number of active lanes are written. -/
def execVcompress (h : Hd) (k : BitVec 3) (d a : BitVec 6) (s : State) : Out :=
  let w := is64 (h.ty 5#4)
  s.chk (.m k.toNat :: vName w a) (vName w d) false fun _ t =>
    let act := maskLanes (t.rm k) t.lanes
    .next (s.issue h false fun u =>
      u.addRun (s.clock + vDue (t.rm k) w latD)
        (vWrite w d.toNat t.lanes fun j => (act[j]?).map fun l => t.rvN w a.toNat l))

/-- VEXPAND (R274): the j-th active lane receives lane j. -/
def execVexpand (h : Hd) (k : BitVec 3) (d a : BitVec 6) (s : State) : Out :=
  let w := is64 (h.ty 5#4)
  s.vOp h k w latD d (vName w a) fun t l => t.rvN w a.toNat (maskLanes (t.rm k) l).length

/-! ### SCATC (R269 to R271) -/

/-- The combining step of SCATC (R270): operation, type, environment. -/
def scatOp (q : Nat) (ty : BitVec 4) (t : Team) (h : Hd) (v x : Nat) : Nat :=
  let n := if is64 ty then 64 else 32
  let f := if ty = 11#4 then f64 else f32
  let fl := ty = 10#4 || ty = 11#4
  match q with
  | 0 => v
  | 1 => segAdd ty t h v x
  | 2 => if fl then f.minmax false v x else if ltN (isSigned ty) n x v then x else v
  | _ => if fl then f.minmax true v x else if ltN (isSigned ty) n v x then x else v

/-- The combined value of the lanes that formed an address. -/
def scatSum (f : Nat → Nat → Nat) (ls : List LaneAcc) (va : Nat) : Nat :=
  match ls.filter fun a => a.va == va with
  | [] => 0
  | x :: xs => xs.foldl (fun v a => f v a.val) x.val

/-- The lanes with the combined value of their address. -/
def scatLanes (f : Nat → Nat → Nat) (ls : List LaneAcc) : List LaneAcc :=
  ls.map fun a => { a with val := scatSum f ls a.va }

/-- A word of path S on scratchpad (R222): it is performed after every earlier scratchpad access of the team (R271, R277). -/
def specS (kind : AccKind) (size : Nat) (sx : Bool) (dest : RegName) : MSpec :=
  { path := .s, kind := kind, size := size, sx := sx, op := 0, ty := 0#4, rnd := 0, dest := some dest, scope := none }

def execScatc (h : Hd) (k : BitVec 3) (d : BitVec 6) (x : BitVec 3) (o : BitVec 6) (y : BitVec 1) (q : BitVec 2)
    (s : State) : Out :=
  let ty := h.ty 4#4
  let size := atomSize ty
  let w := is64 ty
  let regs := vName w d
  if y = 1#1 then
    s.chk (.m k.toNat :: (offV o ++ regs)) regs true fun b t =>
      let c := s.checkSp b size (t.spLane h o) (t.rvN w d.toNat) (fun _ => 0) (maskLanes (t.rm k) t.lanes)
      s.onLanes t (some k) c fun ls upd =>
        match s.dataHits b t false true size (seenLanes t (some k) ls) with
        | (s0, some i) => .next (s0.stopAt b t 1 i)
        | (s0, none) =>
          match s0.countWord b t with
          | (smp, s1) =>
            let clear (u : Team) : Team := upd { u with sample := false }
            if ls.isEmpty then
              let s2 := if smp then s1.sampleRecord b t s.cur.addr.toNat s.clock b.barPhase 0 true 0 [] else s1
              .next (s2.issue h false clear)
            else
              .next (s1.spJoin h b (specS .scatc size false (.v d.toNat)) smp (scatLanes (scatOp q.toNat ty t h) ls) clear)
  else
    s.chk (.m k.toNat :: .x x.toNat :: (offV o ++ regs)) regs true fun b t =>
      match s.checkX b (t.rx x) .wr size (t.laneOff h o) (t.rvN w d.toNat) (fun _ => 0) (maskLanes (t.rm k) t.lanes) with
      | (c, s1) => s1.onLanes t (some k) c fun ls upd =>
          s1.memGo h b t (some k)
            { path := .s, kind := .scatc, size := size, sx := false, op := 0, ty := ty, rnd := 0
              dest := some (.v d.toNat), scope := none }
            (scatLanes (scatOp q.toNat ty t h) ls) upd

/-! ### ISECT and ISECTN (R275 to R277) -/

/-- One range of an intersection: COUNT of 0 names no bytes; else SPRANGE, then ALIGN (R194). That
SPRANGE comes first here too, and that the first failing range decides, is the model's choice (log entry 139). -/
def State.isectRange (s : State) (b : Block) (lane v unit al : Nat) : Except Cause LaneAcc :=
  let n := natBits v 32 16
  let acc (blk off : Nat) : LaneAcc :=
    { lane := lane, va := v % 2 ^ 32, pa := some off, done := false, val := n, cmp := unit * n, blk := blk }
  if n = 0 then .ok (acc b.id 0)
  else
    match s.spRange b (v % 2 ^ 32) (unit * n) with
    | none => .error .sprange
    | some (x, o) => if v % al ≠ 0 then .error .align else .ok (acc x.id o)

/-- Whether two ranges overlap; a range of no bytes overlaps nothing. -/
def LaneAcc.clash (a b : LaneAcc) : Bool :=
  a.val ≠ 0 && b.val ≠ 0 && a.blk = b.blk && decide (a.pa.getD 0 < b.pa.getD 0 + b.cmp)
    && decide (b.pa.getD 0 < a.pa.getD 0 + a.cmp)

/-- The walk of R276 over two streams of keys: the matches, by fuel. -/
def isectWalk (ka kb : Nat → Nat) (ca cb : Nat) : Nat → Nat → Nat → List (Nat × Nat)
  | 0, _, _ => []
  | fuel + 1, i, j =>
    if i < ca && j < cb then
      if ka i < kb j then isectWalk ka kb ca cb fuel (i + 1) j
      else if kb j < ka i then isectWalk ka kb ca cb fuel i (j + 1)
      else (i, j) :: isectWalk ka kb ca cb fuel (i + 1) (j + 1)
    else []

/-- The two words' checks at issue (R276). -/
def State.isectWord (s : State) (h : Hd) (d b : BitVec 6) (z : BitVec 2) (out : Bool) : Out :=
  s.chk (.w b.toNat :: .w (b.toNat + 1) :: (if out then [.w (b.toNat + 2)] else [])) [.w d.toNat] true fun bl t =>
    let e := 2 ^ z.toNat
    let reg (i : Nat) : Nat := (t.w.getD (b.toNat + i) 0#64).toNat
    match s.isectRange bl 0 (reg 0) e e, s.isectRange bl 1 (reg 1) e e,
        s.isectRange bl 2 (if out then reg 2 else 0) 4 4 with
    | .error c, _, _ => .next (s.trap c)
    | _, .error c, _ => .next (s.trap c)
    | _, _, .error c => .next (s.trap c)
    | .ok x, .ok y, .ok o =>
      if o.clash x || o.clash y then .next (s.trap .sparg)
      else .next (s.spJoin h bl (specS .isect e out (.w d.toNat)) false [x, y, o] id)

def execIsect (h : Hd) (d b : BitVec 6) (z : BitVec 2) (s : State) : Out := s.isectWord h d b z true
def execIsectn (h : Hd) (d b : BitVec 6) (z : BitVec 2) (s : State) : Out := s.isectWord h d b z false

/-! ### Performing the accesses of path S on scratchpad -/

/-- The distinct addresses of a scatter, one lane for each; the stores of addresses that alias are in no order (R270). -/
def scatStores (ls : List LaneAcc) : List LaneAcc :=
  ls.foldl (fun r a => if r.any fun x => x.va == a.va then r else r ++ [a]) []

/-- What an intersection has read of its streams, by element: the elements of the first, then those of the second. They follow the
three ranges among its lanes. -/
def MemOp.seen (o : MemOp) (i : Nat) : Option Nat := (o.lanes.find? fun a => a.lane == 3 + i).map fun a => a.val

/-- An element of a stream as it stands in scratchpad. -/
def State.isectKey (s : State) (o : MemOp) (x : LaneAcc) (i : Nat) : Nat := s.spadRd x.blk (x.pa.getD 0 + o.size * i) o.size

/-- The matches of an intersection (R276): an element that has not been read is read now. -/
def State.isectMatches (s : State) (o : MemOp) (x y : LaneAcc) : List (Nat × Nat) :=
  isectWalk (fun i => (o.seen i).getD (s.isectKey o x i)) (fun i => (o.seen (x.val + i)).getD (s.isectKey o y i))
    x.val y.val (x.val + y.val + 1) 0 0

/-- Output `j` of an intersection, if it has it. -/
def isectOut (o : MemOp) (w : LaneAcc) (ms : List (Nat × Nat)) (j : Nat) : Option Nat :=
  if o.sx && decide (j < w.val) then (ms[j]?).map fun p => p.1 + 2 ^ 16 * p.2 else none

/-- Output `j` of an intersection written. -/
def State.isectPut (s : State) (o : MemOp) (w : LaneAcc) (ms : List (Nat × Nat)) (j : Nat) : State :=
  match isectOut o w ms j with
  | some v => s.spadWr w.blk (w.pa.getD 0 + 4 * j) (natBytes 4 v)
  | none => s

/-- One element of an intersection at a moment of its own: an element of a stream read, or, once all are read, an output
written (R277). -/
def State.isectLane (s : State) (o : MemOp) (i : Nat) : MemOp × State :=
  match o.lanes with
  | x :: y :: w :: _ =>
    let mark (v : Nat) : MemOp := { o with lanes := o.lanes ++ [{ x with lane := 3 + i, val := v, done := true }] }
    if (o.seen i).isSome then (o, s)
    else if i < x.val then (mark (s.isectKey o x i), s)
    else if i < x.val + y.val then (mark (s.isectKey o y (i - x.val)), s)
    else if (List.range (x.val + y.val)).all fun i => (o.seen i).isSome then
      let ms := s.isectMatches o x y
      let j := i - (x.val + y.val)
      if (isectOut o w ms j).isSome then (mark 0, s.isectPut o w ms j) else (o, s)
    else (o, s)
  | _ => (o, s)

/-- An intersection performed: what is left of its reads and outputs, and the result (R276). -/
def State.isectRun (s : State) (o : MemOp) : State × Nat :=
  match o.lanes with
  | x :: y :: w :: _ =>
    let ms := s.isectMatches o x y
    let s1 := ((List.range (min w.val ms.length)).filter fun j => (o.seen (x.val + y.val + j)).isNone).foldl
      (fun s j => s.isectPut o w ms j) s
    (s1, ms.length + (if o.sx && w.val < ms.length then 2 ^ 32 else 0))
  | _ => (s, 0)

/-- The lanes of a scatter that formed an address, once its store is performed. -/
def storeDone (va : Nat) (ls : List LaneAcc) : List LaneAcc := ls.map fun a => if a.va = va then { a with done := true } else a

end Sys2Proof.Machine
end

