-- ==== Sys2Proof/Machine/Nred.lean ====
section
/-! DEFINITION. Network reductions: class 21 (R278 to R286). -/

namespace Sys2Proof.Machine

/-- The bits of an operation's contributions and results (R280). -/
def nredBits (o : Nat) : Nat :=
  match o with
  | 0 => 32 | 2 => 32 | 3 => 32 | 4 => 32 | 5 => 32 | 13 => 32 | 14 => 32 | 15 => 32 | 16 => 16 | _ => 64

/-- The combination of two values (R280). -/
def nredOp (o x y : Nat) : Nat :=
  match o with
  | 0 => (x + y) % 2 ^ 32
  | 1 => (x + y) % 2 ^ 64
  | 2 => if ltN true 32 y x then y else x
  | 3 => if y < x then y else x
  | 4 => if ltN true 32 x y then y else x
  | 5 => if x < y then y else x
  | 6 => if ltN true 64 y x then y else x
  | 7 => if y < x then y else x
  | 8 => if ltN true 64 x y then y else x
  | 9 => if x < y then y else x
  | 10 => x &&& y
  | 11 => x ||| y
  | 12 => x ^^^ y
  | 13 => f32.add atomEnv x y
  | 14 => f32.minmax false x y
  | 15 => f32.minmax true x y
  | _ => bf16.add atomEnv x y

/-- The identity (R280). -/
def nredId (o : Nat) : Nat :=
  match o with
  | 2 => 0x7FFFFFFF
  | 3 => 0xFFFFFFFF
  | 4 => 0x80000000
  | 6 => 0x7FFFFFFFFFFFFFFF
  | 7 => 2 ^ 64 - 1
  | 8 => 0x8000000000000000
  | 10 => 2 ^ 64 - 1
  | 14 => f32.top
  | 15 => f32.mk' true f32.top
  | _ => 0

/-- A value as it is written to wd: sign-extended for the .s32 operations (R280). -/
def nredExt (o x : Nat) : Dword :=
  if o = 2 || o = 4 then BitVec.ofInt 64 (sextNat x 32) else BitVec.ofNat 64 (x % 2 ^ nredBits o)

/-- The status word: NCOMB and the marks (R281). -/
def nredStat (ncomb : Nat) (mismatch dup empty : Bool) : Dword :=
  BitVec.ofNat 64 (1 + (if empty then 2 else 0) + (if dup then 4 else 0) + (if mismatch then 8 else 0) + ncomb * 2 ^ 16)

/-- Whether a core belongs to a context's partition and is not named by an active Dusk (R48, R458). -/
def State.coreIn (s : State) (tag : BitVec 12) (c : Nat) : Bool :=
  !s.dusked.contains c &&
    (match entry? s.parts c with | some p => p.getLsbD 12 && p.extractLsb' 0 12 == tag | none => false)

/-- The clusters of the module that a context's partition has cores in, not named by an active Dusk (R282). A cluster only some of
whose partition cores are named by one counts as live: the model's choice (log entry 142). -/
def State.liveClusters (s : State) (tag : BitVec 12) : Nat :=
  ((List.range 256).filter fun k => (List.range 4).any fun i => s.coreIn tag (4 * k + i)).length

/-- The two results of a contribution as they are written. -/
def nredWrites (d o x : Nat) (st : Dword) : List RegWrite := [.w d (nredExt o x), .w (d + 1) st]

/-- What a contribution of COUNT 0 or 1 gives its team (R282): the identity, or its own bits. -/
def nredAlone (d o count v : Nat) : List RegWrite :=
  if count = 0 then nredWrites d o (nredId o) (nredStat 0 false false true) else nredWrites d o v (nredStat 1 false false false)

/-- NRED (R278 to R284). One of COUNT 0 or 1 touches no instance and is answered at once (R282), or with REL after the team's earlier
accesses of path L (R284, R462). -/
def State.nredWord (s : State) (h : Hd) (u b : BitVec 6) (o : BitVec 5) (r : BitVec 1) (ord : Bool) : Out :=
  let regs : List RegName := [.w u.toNat, .w (u.toNat + 1)]
  s.chk [.w b.toNat, .w (b.toNat + 1)] regs true fun bl t =>
    let v := (t.w.getD b.toNat 0#64)
    let q := (t.w.getD (b.toNat + 1) 0#64).toNat
    let count := natBits q 16 9
    let idx := natBits q 32 8
    if natBits q 41 23 ≠ 0 || natBits q 25 7 ≠ 0 || (1 ≤ count && count ≤ idx) then .next (s.trap .redarg)
    else if s.liveClusters bl.tag < count then .next (s.trap .redcount)
    else
      match s.newId with
      | (id, s1) =>
        if count ≤ 1 && !(r = 1#1 && t.outstanding s.cur.base .l) then
          .next (s1.issue h false fun t => t.addPend id regs (some (nredAlone u.toNat o.toNat count v.toNat)) false)
        else
          let m : NMsg :=
            { id := id, tag := bl.tag, key := natBits q 0 16, epoch := natBits q 40 1 = 1, index := idx, count := count
              op := o.toNat, ord := ord, rel := r = 1#1, val := v, r := s.cur.r, pend := id, d := u.toNat }
          .next (({ s1 with nmsgs := s1.nmsgs ++ [m] }).issue h false fun t => t.addPend id regs none true)

def execNredOrd (h : Hd) (u b : BitVec 6) (o : BitVec 5) (r : BitVec 1) (s : State) : Out := s.nredWord h u b o r true
def execNredAny (h : Hd) (u b : BitVec 6) (o : BitVec 5) (r : BitVec 1) (s : State) : Out := s.nredWord h u b o r false

/-! ### Arrival (R282, R283) -/

/-- The root over contributor indices 0 to COUNT - 1 (R283). -/
def nredTree (o count : Nat) (got : List (Nat × Nat)) : Nat :=
  let leaf (i : Nat) : Option Nat := (got.find? fun g => g.1 == i).map fun g => g.2
  let k := ceilLog2 count
  (treeRoot (nredOp o) k ((List.range (2 ^ k)).map fun i => if i < count then leaf i else none)).getD 0

/-- Some binary tree over the values: two of them, freely chosen, are combined until one is left (R283). With
fmin and fmax and nothing but NaNs the tree may give another NaN than the ordered one: the model's choice (log entry 143). -/
def State.nredFree (s : State) (o : Nat) : Nat → List Nat → Nat × State
  | 0, l => (l.head?.getD 0, s)
  | n + 1, l =>
    match l with
    | _ :: _ :: _ =>
      (match s.choice l.length with
       | (i, s1) =>
         let x := l.getD i 0
         let l1 := l.eraseIdx i
         (match s1.choice l1.length with
          | (j, s2) => s2.nredFree o n (nredOp o x (l1.getD j 0) :: l1.eraseIdx j)))
    | _ => (l.head?.getD 0, s)

/-- The results of a contribution written to its team. -/
def State.nredAnswer (s : State) (r : TRef) (pend d o x : Nat) (st : Dword) : State :=
  s.updTeam r fun t => t.answer pend (nredWrites d o x st)

/-- The contribution as the instance keeps it. -/
def NMsg.got (m : NMsg) : Nat × Dword × TRef × Nat × Nat := (m.index, m.val, m.r, m.pend, m.d)

/-- Whether an instance is the one that a contribution names (R279). -/
def NMsg.names (m : NMsg) (i : NInst) : Bool := i.tag == m.tag && i.key == m.key && i.epoch == m.epoch

/-- A contribution has joined its instance, which closes when it holds COUNT of them. -/
def State.nredJoin (s : State) (m : NMsg) (i : NInst) : State :=
  let s0 := { s with ninsts := s.ninsts.filter fun x => !m.names x }
  if i.got.length < i.count then { s0 with ninsts := s0.ninsts ++ [i] }
  else
    let vals := i.got.map fun g => (g.1, g.2.1.toNat % 2 ^ nredBits i.op)
    let r := if i.ord then (nredTree i.op i.count vals, s0)
      else s0.nredFree i.op vals.length (vals.map fun v => v.2)
    i.got.foldl (fun s g => s.nredAnswer g.2.2.1 g.2.2.2.1 g.2.2.2.2 i.op r.1 (nredStat i.count false false false)) r.2

/-- Whether a release contribution has to wait before it is sent (R284). -/
def State.nredHeld (s : State) (m : NMsg) : Bool :=
  m.rel && (match s.team? m.r with
    | some (_, t) => t.ops.any fun o => o.path = .l && decide (o.id < m.id)
    | none => false)

/-- NRED_CONTRIBUTION_ARRIVAL (R282). -/
def execNredContributionArrival (n : Nat) (s : State) : Out :=
  match s.nmsgs.find? fun m => m.id == n with
  | none => .next s
  | some m =>
    if s.nredHeld m then .next s
    else
      let s1 := { s with nmsgs := s.nmsgs.filter fun x => x.id != n }
      let own := m.val.toNat
      if m.count ≤ 1 then .next (s1.updTeam m.r fun t => t.answer m.pend (nredAlone m.d m.op m.count own))
      else
      match s1.ninsts.find? m.names with
      | none =>
        .next (s1.nredJoin m { tag := m.tag, key := m.key, epoch := m.epoch, count := m.count, op := m.op, ord := m.ord
                               got := [m.got] })
      | some i =>
        if i.count ≠ m.count || i.op ≠ m.op then
          .next (s1.nredAnswer m.r m.pend m.d m.op own (nredStat 0 true false false))
        else if i.got.any fun g => g.1 == m.index then
          .next (s1.nredAnswer m.r m.pend m.d m.op own (nredStat 0 false true false))
        else .next (s1.nredJoin m { i with ord := i.ord || m.ord, got := i.got ++ [m.got] })

end Sys2Proof.Machine
end

