-- ==== Sys2Proof/Machine/Levels.lean ====
section
/-! DEFINITION. Level instances and their completion (R37 to R46), future records (R334 to R336, R345 to R348), cancels and
reclamation. -/

namespace Sys2Proof.Machine

/-! ### Level instances (R37 to R43) -/

/-- A level put in place of the one of its slot. -/
def Ctx.putLevel (c : Ctx) (l : Level) : Ctx := { c with levels := updWhere (fun x => x.slot == l.slot) (fun _ => l) c.levels }

/-- The smaller of two optional numbers. -/
def optMin : Option Nat → Option Nat → Option Nat
  | some a, some b => some (min a b)
  | some a, none => some a
  | none, b => b

/-- END of an instance (R43, R44, R46). -/
def Level.endCode (l : Level) : Nat :=
  if l.cancelled then 3 else if l.pfault then 2 else if l.bad = 0 then 0 else 1

/-- The status word that the counts give (R43). -/
def Level.statusOf (l : Level) : Dword :=
  let low := if l.kind = 1 && (l.lkind = .flat || l.lkind = .bin) then l.low.getD 0 else 0
  BitVec.ofNat 64 (low % 2 ^ 24 * 2 ^ 40 + l.ndone % 2 ^ 25 * 2 ^ 15 + l.endCode)

/-- A level with one member ended with code `e`; `low` is the index of a faulted member. -/
def Level.member (l : Level) (e : Nat) (low : Option Nat) : Level :=
  { l with counter := l.counter - 1, ndone := l.ndone + (if e = 0 then 1 else 0), bad := l.bad + (if e = 0 then 0 else 1)
           low := optMin l.low low }

/-- Whether slot `x` is `top` or lies below it. -/
def Ctx.under (c : Ctx) (top : Nat) : Nat → Nat → Bool
  | 0, x => x == top
  | fuel + 1, x =>
    x == top || (match c.level? x with
      | some l => (match l.parent with | some p => c.under top fuel p | none => false)
      | none => false)

/-- Whether a slot is `top` or lies below it, to any depth. -/
def Ctx.below (c : Ctx) (top x : Nat) : Bool := c.under top c.levels.length x

/-- Slots freed: their generations advance (R42). -/
def Ctx.dropSlots (c : Ctx) (p : Level → Bool) : Ctx :=
  { c with levels := c.levels.filter fun l => !p l
           past := c.past ++ (c.levels.filter p).map fun l => (l.slot, l.gen, l.status)
           gens := (c.levels.filter p).foldl (fun g l => entryPut g l.slot (l.gen + 1#32)) c.gens }

/-- An instance completes (R38, R42, R43): its status word, the slots that it frees, and its end in its parent. A status
word given stands as it is. -/
def Ctx.finish : Nat → Ctx → Nat → Option Dword → Ctx
  | 0, c, _, _ => c
  | fuel + 1, c, slot, st =>
    match c.level? slot with
    | none => c
    | some l =>
      if l.complete then c
      else
        let l1 := { l with complete := true, counter := 0, status := st.getD l.statusOf }
        let c1 := c.putLevel l1
        let c2 := if l.auto then c1.dropSlots (fun x => c1.below slot x.slot) else c1.dropSlots fun x => x.parent == some slot
        match l.parent with
        | none => c2
        | some p =>
          match c2.level? p with
          | none => c2
          | some q =>
            let q1 := q.member (l1.status.toNat % 4) none
            let c3 := c2.putLevel q1
            if q1.counter = 0 then Ctx.finish fuel c3 p none else c3

/-- An instance completes, with its parents to any depth. -/
def Ctx.close (c : Ctx) (slot : Nat) (st : Option Dword) : Ctx := Ctx.finish (c.levels.length + 1) c slot st

/-- A member of an instance ends (R38). -/
def Ctx.leave (c : Ctx) (slot e : Nat) (low : Option Nat) : Ctx :=
  match c.level? slot with
  | none => c
  | some l =>
    if l.complete then c
    else
      let l1 := l.member e low
      let c1 := c.putLevel l1
      if l1.counter = 0 then c1.close slot none else c1

/-- `n` members that never ran leave an instance (R46). -/
def Ctx.leaveN (c : Ctx) (slot : Nat) : Nat → Ctx
  | 0 => c
  | n + 1 => (c.leave slot 3 none).leaveN slot n

/-- Members that are no ends leave a phase: the patterns, when a new phase takes them (R40). -/
def Ctx.moveOut (c : Ctx) (slot n : Nat) : Ctx :=
  match c.level? slot with
  | none => c
  | some l =>
    let l1 := { l with counter := l.counter - n }
    let c1 := c.putLevel l1
    if l1.counter = 0 && !l.complete then c1.close slot none else c1

/-- A free slot, found from a starting point of the table's choosing (R42). -/
def Ctx.freeSlot (c : Ctx) (start : Nat) : Nat :=
  let ok (x : Nat) : Bool := (c.level? x).isNone
  match findFrom ok start (levelSlots - start) with
  | some x => x
  | none => (findFrom ok 0 start).getD 0

/-- The current generation of a slot that is not used: what its last use left, or a value of the table's choosing
(log entry 3). -/
def State.slotGen (s : State) (c : Ctx) (slot : Nat) : BitVec 32 × State :=
  match entry? c.gens slot with
  | some g => (g, s)
  | none => match s.fresh with | (x, s1) => (x.setWidth 32, s1)

/-- A new instance with `n` members (R37, R38): it counts in its parent, and is cancelled where its parent is (R46). -/
def State.newLevel (s : State) (tag : BitVec 12) (kind : Nat) (lk : LKind) (parent : Option Nat) (n phase : Nat) (auto : Bool)
    (die : Nat) : Nat × State :=
  match s.choice levelSlots with
  | (start, s1) =>
    match s1.ctx? tag with
    | none => (0, s1)
    | some c =>
      let slot := c.freeSlot start
      match s1.slotGen c slot with
      | (g, s2) =>
        let up := match parent with | some p => c.level? p | none => none
        let l : Level :=
          { slot := slot, gen := g, kind := kind, lkind := lk, parent := parent, counter := n, complete := false
            status := 0#64, cancelled := (match up with | some q => q.cancelled | none => false), ndone := 0, bad := 0
            low := none, pfault := false, phase := phase, auto := auto, die := die }
        let c1 := match up with | some q => c.putLevel { q with counter := q.counter + 1 } | none => c
        (slot, s2.updCtx tag fun _ => { c1 with levels := c1.levels ++ [l] })

/-- The active patterns of a context (R40). -/
def State.patternCount (s : State) (tag : BitVec 12) : Nat :=
  (s.dies.map fun d => (d.patterns.filter fun p => p.2.owner == some tag).length).foldl (· + ·) 0

/-- A new phase after the job's latest one, which takes the patterns' membership (R37, R40). -/
def State.newPhase (s : State) (tag : BitVec 12) (die : Nat) : Nat × State :=
  match s.ctx? tag with
  | none => (0, s)
  | some c =>
    let n := s.patternCount tag
    match s.newLevel tag 3 .group (some c.job) n c.phases false die with
    | (p, s1) => (p, s1.updCtx tag fun x => ({ x with latest := p, phases := x.phases + 1 }).moveOut c.latest n)

/-- The slots that a launch needs (R136). -/
def slotsNeeded (ng np : Bool) : Nat := if np then 3 else if ng then 2 else 1

/-- A new launch of `n` members for an issuer of launch slot `src` (R37, R136): the launch's slot and the slot of the
newest instance. A new graph lies in the issuer's graph; one in a new phase lies in that phase. -/
def State.newLaunch (s : State) (tag : BitVec 12) (src : Nat) (ng np : Bool) (lk : LKind) (n die : Nat) :
    Nat × Nat × State :=
  match s.ctx? tag with
  | none => (0, 0, s)
  | some c =>
    let own := c.level? src
    let graph := match own with | some l => l.parent | none => none
    let ph := match own with | some l => l.phase | none => 0
    if np then
      match s.newPhase tag die with
      | (p, s1) =>
        match s1.newLevel tag 2 .group (some p) 0 c.phases false die with
        | (g, s2) =>
          match s2.newLevel tag 1 lk (some g) n c.phases false die with
          | (x, s3) => (x, p, s3)
    else if ng then
      match s.newLevel tag 2 .group graph 0 ph false die with
      | (g, s1) =>
        match s1.newLevel tag 1 lk (some g) n ph false die with
        | (x, s2) => (x, g, s2)
    else
      match s.newLevel tag 1 lk graph n ph false die with
      | (x, s1) => (x, x, s1)

/-- Whether an instance is cancelled. -/
def State.levelCancelled (s : State) (tag : BitVec 12) (slot : Nat) : Bool :=
  match s.ctx? tag with
  | some c => (match c.level? slot with | some l => l.cancelled | none => false)
  | none => false

/-- An instance closed with a given END (R43). -/
def State.closeLevel (s : State) (tag : BitVec 12) (slot : Nat) (st : Option Dword) : State :=
  s.updCtx tag fun c => c.close slot st

/-- A placement fault: END = 2 before any block runs (R44). -/
def State.placeFault (s : State) (tag : BitVec 12) (slot : Nat) : State :=
  s.updCtx tag fun c =>
    match c.level? slot with
    | some l => (c.putLevel { l with pfault := true }).close slot none
    | none => c

/-- Whether the work of an instance's phase may be dispatched: the previous phase is complete (R39). -/
def State.phaseReady (s : State) (tag : BitVec 12) (slot : Nat) : Bool :=
  match s.ctx? tag with
  | none => true
  | some c =>
    match c.level? slot with
    | none => true
    | some l => c.levels.all fun x => x.kind != 3 || x.phase + 1 != l.phase || x.complete

/-! ### Futures (R330, R334 to R336, R345 to R348) -/

/-- STATE codes (R334). -/
def FState.code : FState → Nat
  | .pending => 0 | .done => 1 | .faulted => 2 | .reclaimed => 3

/-- The 32 bytes of a future's record (R334). A PCOUNT above its field is a free value (log entry 21). -/
def Future.bytes (f : Future) (pcount : Nat) : List Byte :=
  natBytes 8 f.value.toNat ++ natBytes 8 f.task.toNat
    ++ natBytes 8 (f.st.code + pcount % 2 ^ 16 * 2 ^ 20 + f.count % 2 ^ 16 * 2 ^ 36 + f.tag.toNat * 2 ^ 52)
    ++ List.replicate 8 0#8

/-- A future's record written at module scope (R334), once no write of its module's routing entry holds it (R425). -/
def State.futWrite (s : State) (f : Future) : State :=
  match (if f.pcount < 2 ^ 16 then (f.pcount, s) else ((s.fresh).1.toNat % 2 ^ 16, (s.fresh).2)) with
  | (p, s1) => s1.unitWr (some f.tag) f.addr (f.bytes p)

/-- A future by its identity. -/
def State.future? (s : State) (die fut : Nat) : Option Future :=
  match (s.die die).futures.find? fun p => p.2.id == fut && p.2.owner.isSome with
  | some p => some p.2
  | none => (s.die die).oldFuts.find? fun f => f.id == fut

/-- A future changed. -/
def State.updFuture (s : State) (die fut : Nat) (f : Future → Future) : State :=
  s.updDie die fun d =>
    { d with futures := d.futures.map fun p => if p.2.id == fut && p.2.owner.isSome then (p.1, f p.2) else p
             oldFuts := updWhere (fun x => x.id == fut) f d.oldFuts }

/-- Whether some team waits for a future. -/
def State.awaited (s : State) (die fut : Nat) : Bool :=
  s.blocks.any fun b => b.teams.any fun t =>
    match t.wait with | some (.future d x _ _ _) => d == die && x == fut && !t.ended | _ => false

/-- Futures whose entry is freed are forgotten once the task has ended and no team waits for them. -/
def State.futForget (s : State) (die : Nat) : State :=
  s.updDie die fun d => { d with oldFuts := d.oldFuts.filter fun f => f.st = .pending || s.awaited die f.id }

/-- The entry of a future freed: its generation advances (R336). -/
def State.futFree (s : State) (die fut : Nat) : State :=
  s.updDie die fun d =>
    match d.futures.find? fun p => p.2.id == fut && p.2.owner.isSome with
    | none => d
    | some p =>
      { d with futures := entryPut d.futures p.1 { p.2 with owner := none, gen := p.2.gen + 1#32 }
               oldFuts := d.oldFuts ++ [{ p.2 with owner := none }] }

/-- The end of a future's task (R335, R336, R348): a future that is no longer pending keeps its state. -/
def State.futEnd (s : State) (f : Option (Nat × Nat)) (st : FState) (value : Dword) (pcount : Nat) : State :=
  match f with
  | none => s
  | some (die, x) =>
    match s.future? die x with
    | none => s
    | some g =>
      if g.st = .pending then
        let g1 := { g with st := st, value := value, pcount := pcount }
        ((s.updFuture die x fun _ => g1).futWrite g1).futForget die
      else s

/-- One consumer fewer (R336): what remains to be done is the reclamation of the task where the count reaches 0. -/
def State.futLower (s : State) (die fut : Nat) : Bool × State :=
  match s.future? die fut with
  | none => (false, s)
  | some f =>
    if f.count = 0 then (false, s)
    else
      let f1 := { f with count := f.count - 1 }
      let s1 := (s.updFuture die fut fun _ => f1).futWrite f1
      if f1.count = 0 then (f.st = .pending, (s1.futFree die fut).futForget die) else (false, s1)

/-- A launch marked as cancelled, as a reclaimed task's is: it ends with END = 3. -/
def State.markCancelled (s : State) (tag : BitVec 12) (slot : Nat) : State :=
  s.updCtx tag fun c => match c.level? slot with | some l => c.putLevel { l with cancelled := true } | none => c

/-- The work of a dispatch never starts (R46, R336): its members leave, its future is reclaimed. -/
def State.dropDispatch (s : State) (d : Dispatch) : State :=
  let s1 := { s with dispatches := s.dispatches.filter fun x => x.id != d.id }
  (s1.updCtx d.tag fun c => c.leaveN d.slot (d.total - d.next)).futEnd d.future .reclaimed 0#64 0

/-- The task of a future is reclaimed (R336): a dispatch never starts; a block ends at its teams' next reclamation points.
The futures that a block held are returned. -/
def State.reclaimTask (s : State) (die fut : Nat) : List (Nat × Nat) × State :=
  match s.dispatches.find? fun d => d.future == some (die, fut) with
  | some d => ([], (s.markCancelled d.tag d.slot).dropDispatch d)
  | none =>
    match s.blocks.find? fun b => b.future == some (die, fut) with
    | some b => (b.holds, (s.markCancelled b.tag b.slot).updBlock b.id fun x => { x with reclaim := true, holds := [] })
    | none => ([], s)

/-- Consumers taken from futures one after another, with the reclamations that follow, to any depth (R336, R347). -/
def State.futDrops : Nat → State → List (Nat × Nat) → State
  | _, s, [] => s
  | 0, s, _ => s
  | fuel + 1, s, (die, x) :: rest =>
    match s.futLower die x with
    | (false, s1) => State.futDrops fuel s1 rest
    | (true, s1) =>
      match s1.reclaimTask die x with
      | (more, s2) => State.futDrops fuel s2 (more ++ rest)

/-- The futures that blocks hold, as a bound on the consumers that a reclamation can take. -/
def State.holdCount (s : State) : Nat := (s.blocks.map fun b => b.holds.length).foldl (· + ·) 0

/-- Consumers taken from futures. -/
def State.futDropAll (s : State) (l : List (Nat × Nat)) : State := State.futDrops (s.holdCount + l.length) s l

/-! ### Cancel (R46, R352) -/

/-- The bins of launches that a test accepts are closed and their records discarded (R352). -/
def State.closeBins (s : State) (tag : BitVec 12) (p : Nat → Bool) : State :=
  (List.range s.dies.length).foldl (fun s e =>
    let gone := (s.die e).bins.filter fun b => b.tag == tag && p b.slot
    gone.foldl (fun s b => s.updCtx tag fun c => c.leave b.slot 3 none)
      (s.updDie e fun d => { d with bins := d.bins.filter fun b => !(b.tag == tag && p b.slot) })) s

/-- A tree launch that a cancel reaches (R46, R79): the nodes that run are cut and awaited; a launch none of whose nodes runs, or
whose census has not passed, ends at once. -/
def Tree.cancel (t : Tree) : Tree :=
  { t with cancelled := true
           phase := if t.phase = .report || (t.phase = .sweeping && t.nodes.any fun x => x.st = .running) then t.phase
             else .ending }

/-- A node of a tree launch has ended (R38); the launch itself counts until its sweep has ended (log entry 108). -/
def Ctx.nodeLeave (c : Ctx) (slot : Nat) : Ctx :=
  match c.level? slot with
  | some l => c.putLevel { l with counter := max 1 (l.counter - 1) }
  | none => c

/-- The nodes of a tree launch become its members once its census has passed (R37, R38). -/
def Ctx.nodesJoin (c : Ctx) (slot n : Nat) : Ctx :=
  match c.level? slot with
  | some l => c.putLevel { l with counter := n }
  | none => c

/-- LVLCANCEL (R46): the instance and all below it that are not complete; unstarted work never starts; running blocks end
at their next reclamation points; the futures that they hold lose a consumer. -/
def State.cancelLevel (s : State) (tag : BitVec 12) (slot : Nat) : State :=
  match s.ctx? tag with
  | none => s
  | some c =>
    match c.level? slot with
    | none => s
    | some top =>
      if top.complete then s
      else
        let hit (x : Nat) : Bool := c.below slot x
        let s1 := s.updCtx tag fun c =>
          { c with levels := c.levels.map fun l => if !l.complete && hit l.slot then { l with cancelled := true } else l }
        let ds := s1.dispatches.filter fun d => d.tag == tag && hit d.slot && d.tree.isNone
        let bs : List Block := s1.blocks.filter fun b => b.tag == tag && b.bureau.isNone && hit b.slot
        let s2 := { s1 with
          trees := s1.trees.map fun (t : Tree) => if t.tag == tag && hit t.slot then t.cancel else t
          dispatches := s1.dispatches.filter fun (d : Dispatch) => !(d.tag == tag && hit d.slot && d.tree.isSome)
          blocks := s1.blocks.map fun (b : Block) =>
            if b.tag == tag && b.bureau.isNone && hit b.slot then { b with cancelled := true, holds := [] } else b }
        let s3 := s2.closeBins tag hit
        let s4 := ds.foldl (fun s d => s.dropDispatch d) s3
        s4.futDropAll (bs.flatMap fun b => b.holds)

/-- A launch made where a cancel already holds (R46): its work never starts, and it completes at once with END = 3. -/
def State.closeIfCancelled (s : State) (tag : BitVec 12) (slot : Nat) : State :=
  if s.levelCancelled tag slot then s.closeLevel tag slot none else s

/-! ### Level handles in instructions (R139) -/

/-- What a level handle names, or the cause it raises (R139). LVLSTALE also where the slot holds no instance, whatever its
generation (log entry 107). -/
def State.levelArg (s : State) (b : Block) (h : Dword) : Except Cause Level :=
  let kind := natBits h.toNat 48 3
  if h.extractLsb' 52 12 ≠ b.tag || kind = 0 || 5 ≤ kind then .error .lvlown
  else
    match s.ctxOf b with
    | none => .error .lvlstale
    | some c =>
      match c.level? (natBits h.toNat 0 16) with
      | some l => if l.gen = h.extractLsb' 16 32 then .ok l else .error .lvlstale
      | none => .error .lvlstale

end Sys2Proof.Machine
end

