-- ==== Sys2Proof/Machine/Uniform.lean ====
section
/-! DEFINITION. The uniform arithmetic of classes 1 to 3 (R116 to R119). -/

namespace Sys2Proof.Machine

/-- A uniform word of two sources and one run-bound destination (R117). -/
def State.uBin (s : State) (h : Hd) (d a b : BitVec 6) (f : Dword → Dword → Dword) : Out :=
  s.chk [.w a.toNat, .w b.toNat] [.w d.toNat] false fun _ t =>
    .next (s.issue h false fun u => u.addRun (s.clock + latU) [.w d.toNat (f (t.rw a) (t.rw b))])

/-- The immediate of UIMM: imm9 or, with a prefix, IMMH ∥ imm9 as a 32-bit value, sign-extended (R102, R118). -/
def uimm (h : Hd) (i : BitVec 9) : Dword :=
  match h.im with
  | none => i.signExtend 64
  | some p => ((p ++ i : BitVec 32)).signExtend 64

/-- A uniform word of one source and the immediate (R118). -/
def State.uImm (s : State) (h : Hd) (d a : BitVec 6) (i : BitVec 9) (f : Dword → Dword → Dword) : Out :=
  s.chk [.w a.toNat] [.w d.toNat] false fun _ t =>
    .next (s.issue h false fun u => u.addRun (s.clock + latU) [.w d.toNat (f (t.rw a) (uimm h i))])

/-- The shift count of USHL, USHR and USAR: bits [5:0] (R117). -/
def shamt (b : Dword) : Nat := (b.extractLsb' 0 6).toNat

def uadd (a b : Dword) : Dword := a + b
def usub (a b : Dword) : Dword := a - b
def umul (a b : Dword) : Dword := a * b
/-- Bits [127:64] of the exact product (R117). -/
def umulh (signed : Bool) (a b : Dword) : Dword :=
  if signed then ((a.signExtend 128 * b.signExtend 128).extractLsb' 64 64)
  else ((a.setWidth 128 * b.setWidth 128).extractLsb' 64 64)
def ushl (a b : Dword) : Dword := a <<< shamt b
def ushr (a b : Dword) : Dword := a >>> shamt b
def usar (a b : Dword) : Dword := a.sshiftRight (shamt b)
def umin (signed : Bool) (a b : Dword) : Dword := if (if signed then b.slt a else b.ult a) then b else a
def umax (signed : Bool) (a b : Dword) : Dword := if (if signed then a.slt b else a.ult b) then b else a

/-- p and l of UBFX and UBFI (R117). -/
def bfPos (b : Dword) : Nat := (b.extractLsb' 0 6).toNat
def bfLen (b : Dword) : Nat := min (b.extractLsb' 8 7).toNat 64

/-- A field of `n`-bit `a` at `p` of length `l`, whose bits at or above bit `n` read as zero (R117, R158). -/
def bfGet (n a p l : Nat) : Nat := natBits (a % 2 ^ n) p l

/-- UBFX: the field, sign-extended or zero-extended; 0 for an empty field (R117). -/
def ubfx (signed : Bool) (a b : Dword) : Dword :=
  let l := bfLen b
  let x := bfGet 64 a.toNat (bfPos b) l
  if l = 0 then 0#64 else if signed then BitVec.ofInt 64 (sextNat x l) else BitVec.ofNat 64 x

/-- `old` of `n` bits with bits [p+l-1:p] replaced by the low bits of `a`; bits at or above bit `n` are not written. -/
def bfPut (n old a p l : Nat) : Nat :=
  ((old % 2 ^ p) + (a % 2 ^ l) * 2 ^ p + (old / 2 ^ (p + l)) * 2 ^ (p + l)) % 2 ^ n

/-- UBFI (R117). -/
def ubfi (old a b : Dword) : Dword := BitVec.ofNat 64 (bfPut 64 old.toNat a.toNat (bfPos b) (bfLen b))

/-- U of sub[0]: 0 signed, 1 unsigned (R117). -/
def isS (u : BitVec 1) : Bool := u = 0#1

def execUadd (h : Hd) (d a b : BitVec 6) (s : State) : Out := s.uBin h d a b uadd
def execUsub (h : Hd) (d a b : BitVec 6) (s : State) : Out := s.uBin h d a b usub
def execUmul (h : Hd) (d a b : BitVec 6) (s : State) : Out := s.uBin h d a b umul
def execUmulh (h : Hd) (u : BitVec 1) (d a b : BitVec 6) (s : State) : Out := s.uBin h d a b (umulh (isS u))
def execUand (h : Hd) (d a b : BitVec 6) (s : State) : Out := s.uBin h d a b fun x y => x &&& y
def execUor (h : Hd) (d a b : BitVec 6) (s : State) : Out := s.uBin h d a b fun x y => x ||| y
def execUxor (h : Hd) (d a b : BitVec 6) (s : State) : Out := s.uBin h d a b fun x y => x ^^^ y
def execUshl (h : Hd) (d a b : BitVec 6) (s : State) : Out := s.uBin h d a b ushl
def execUshr (h : Hd) (d a b : BitVec 6) (s : State) : Out := s.uBin h d a b ushr
def execUsar (h : Hd) (d a b : BitVec 6) (s : State) : Out := s.uBin h d a b usar
def execUmin (h : Hd) (u : BitVec 1) (d a b : BitVec 6) (s : State) : Out := s.uBin h d a b (umin (isS u))
def execUmax (h : Hd) (u : BitVec 1) (d a b : BitVec 6) (s : State) : Out := s.uBin h d a b (umax (isS u))
def execUcmp (h : Hd) (u : BitVec 1) (d a b : BitVec 6) (s : State) : Out := s.uBin h d a b (cmp3 (isS u))
def execUbfx (h : Hd) (u : BitVec 1) (d a b : BitVec 6) (s : State) : Out := s.uBin h d a b (ubfx (isS u))

/-- UBFI also reads its destination (R117). -/
def execUbfi (h : Hd) (d a b : BitVec 6) (s : State) : Out :=
  s.chk [.w a.toNat, .w b.toNat, .w d.toNat] [.w d.toNat] false fun _ t =>
    .next (s.issue h false fun u =>
      u.addRun (s.clock + latU) [.w d.toNat (ubfi (t.rw d) (t.rw a) (t.rw b))])

def execUaddImm (h : Hd) (d a : BitVec 6) (i : BitVec 9) (s : State) : Out := s.uImm h d a i uadd
def execUandImm (h : Hd) (d a : BitVec 6) (i : BitVec 9) (s : State) : Out := s.uImm h d a i fun x y => x &&& y
def execUorImm (h : Hd) (d a : BitVec 6) (i : BitVec 9) (s : State) : Out := s.uImm h d a i fun x y => x ||| y
def execUxorImm (h : Hd) (d a : BitVec 6) (i : BitVec 9) (s : State) : Out := s.uImm h d a i fun x y => x ^^^ y
def execUshlImm (h : Hd) (d a : BitVec 6) (i : BitVec 9) (s : State) : Out := s.uImm h d a i ushl
def execUshrImm (h : Hd) (d a : BitVec 6) (i : BitVec 9) (s : State) : Out := s.uImm h d a i ushr
def execUsarImm (h : Hd) (d a : BitVec 6) (i : BitVec 9) (s : State) : Out := s.uImm h d a i usar
def execUmulImm (h : Hd) (d a : BitVec 6) (i : BitVec 9) (s : State) : Out := s.uImm h d a i umul

/-- The value of ULUI: V × 2^24, with V from imm19 or from IMMH ∥ imm19 (R119). -/
def uluiValue (h : Hd) (i : BitVec 19) : Dword :=
  match h.im with
  | none => i.signExtend 64 <<< 24
  | some p => ((p ++ i : BitVec 42)).signExtend 64 <<< 24

def execUlui (h : Hd) (d : BitVec 6) (i : BitVec 19) (s : State) : Out :=
  s.chk [] [.w d.toNat] false fun _ _ =>
    .next (s.issue h false fun u => u.addRun (s.clock + latU) [.w d.toNat (uluiValue h i)])

end Sys2Proof.Machine
end

