-- ==== Sys2Proof/Machine/Copy.lean ====
section
/-! DEFINITION. The copy words of class 19: their checks at issue, and their completion by the cluster's engine
(R229 to R241, R296 to R304). -/

namespace Sys2Proof.Machine

/-! ### Layout records (R231) -/

/-- The layout that 64 bytes hold. -/
def layoutOf (v : Nat) : Layout :=
  { perm := natBits v 0 56, fmt := natBits v 56 4, kind := natBits v 60 2
    d0 := natBits v 64 16, d1 := natBits v 80 16, d2 := natBits v 96 16
    t0 := natBits v 128 16, t1 := natBits v 144 16, t2 := natBits v 160 16
    s0 := sextNat (natBits v 192 32) 32, s1 := sextNat (natBits v 224 32) 32, s2 := sextNat (natBits v 256 32) 32
    fill := natBits v 320 64, aux0 := natBits v 384 56, aux1 := natBits v 448 56
    rsvd := natBits v 62 2 + natBits v 112 16 + natBits v 176 16 + natBits v 288 32 + natBits v 440 8 + natBits v 504 8 }

/-- A layout of zeros, which CPY carries. -/
def Layout.zero : Layout := layoutOf 0

/-- The bytes of an element of a format 0 to 13 (R106). -/
def fmtBytes (f : Nat) : Nat :=
  match f with
  | 2 => 2 | 3 => 2 | 4 => 4 | 5 => 4 | 6 => 8 | 7 => 8 | 8 => 2 | 9 => 2 | 10 => 4 | 11 => 8 | _ => 1

/-- The format code of Q4X. -/
def fmtQ4x : Nat := 14
/-- The mark of a raw tile, which CPY leaves (R311). -/
def fmtRaw : Nat := 15

/-- The bytes of a tile of `n` elements (R238, R288). -/
def tileBytes (f n : Nat) : Nat := if f = fmtQ4x then n / 2 else n * fmtBytes f

/-- Whether a field of the record lies outside its range (R231). FORMAT 15 is such a field, although R106 says ILLOP of that code in
any position: COPYARG is the model's choice (log entry 112). -/
def Layout.badField (l : Layout) : Bool :=
  l.rsvd ≠ 0 || l.kind = 3 || l.fmt = 15 || l.d0 = 0 || l.d1 = 0 || l.d2 = 0 || l.t0 = 0 || l.t1 = 0 || l.t2 = 0

/-- Whether TCPY refuses a record (R238, R288, R296). -/
def Layout.badTcpy (l : Layout) (st : Bool) (x y z : Int) : Bool :=
  l.badField
    || (st && (l.kind ≠ 0 || l.fmt = fmtQ4x))
    || ((l.kind ≠ 0 || l.fmt = fmtQ4x) && l.perm ≠ 0)
    || (l.kind = 0 && l.fmt = fmtQ4x && (l.d0 % 64 ≠ 0 || l.t0 % 64 ≠ 0 || x % 64 ≠ 0))
    || (l.kind ≠ 0 && (l.fmt = fmtQ4x || l.d2 ≠ 1 || l.t2 ≠ 1 || z ≠ 0))
    || (l.kind = 2 && (l.d0 % 8 ≠ 0 || l.d1 % 8 ≠ 0 || l.t0 % 8 ≠ 0 || l.t1 % 8 ≠ 0 || x % 8 ≠ 0 || y % 8 ≠ 0))

/-- Whether GCPY and SCPY refuse a record (R296). -/
def Layout.badRows (l : Layout) : Bool := l.badField || l.kind ≠ 0 || l.fmt = fmtQ4x || l.perm ≠ 0

/-- The bytes of a BSR tile's occupancy bitmap in scratchpad or registers (R302). -/
def bitmapBytes (l : Layout) : Nat := ceilDiv (l.t0 / 8 * (l.t1 / 8)) 128 * 16

/-! ### Checks at issue (R233) -/

/-- The largest byte count of a tile (R238). -/
def maxCopy : Nat := 262144

/-- The on-chip side of a copy that covers `nb` bytes: TK and the register's value. -/
def State.chipChk (s : State) (b : Block) (tk : BitVec 2) (v nb : Nat) : Except Cause OnChip :=
  if tk = 0#2 then
    match s.spTarget b (v % 2 ^ 32) with
    | none => .error .sprange
    | some (x, o) =>
      if x.spadSize < o + nb then .error .sprange
      else if o % 16 ≠ 0 then .error .align
      else .ok (.spad x.id o)
  else if tk = 1#2 then
    match b.drawers[v % 16]? with
    | some w => if w.init then .ok (.drawer (v % 16) w.prod) else .error .copyarg
    | none => .error .copyarg
  else
    let o := natBits v 0 18
    let ti := natBits v 18 4
    if b.teams.length ≤ ti || o % 4 ≠ 0 || maxCopy < o + nb then .error .copyarg else .ok (.reg ti o)

/-- Whether a tile of `nb` bytes is too large for its drawer (R298, R310). -/
def Block.tooBig (b : Block) (c : OnChip) (nb : Nat) : Bool :=
  match c with
  | .drawer d _ => (match b.drawers[d]? with | some w => decide (w.size * 4096 < nb) | none => true)
  | _ => false

/-- The bench that a register names, none for all ones (R233). -/
def State.benchReg (s : State) (b : Block) (v : Nat) : Except Cause (Option (Nat × Nat)) :=
  if v % 2 ^ 32 = 2 ^ 32 - 1 then .ok none
  else match s.benchAt b (v % 2 ^ 32) with | .ok x => .ok (some x) | .error c => .error c

/-- What a read at issue of memory comes to. -/
inductive Got (α : Type) where
  | ok (a : α) (s : State)
  | bad (c : Cause)
  | absent (va : Nat)

/-- `n` bytes at a virtual address read at issue, as a number (R202, R233). A read that a write of its module's routing entry holds
(R425) waits as one of an absent page does; no message reports it. -/
def State.getVa (s : State) (b : Block) (n va : Nat) : Got Nat :=
  match s.legalVa b .rd n va with
  | (.bad c, _) => .bad c
  | (.absent, _) => .absent (va % 2 ^ 56)
  | (.pa a, s1) => if s1.held a then .absent (va % 2 ^ 56) else match s1.memRd (some b.tag) a n with | (v, s2) => .ok v s2

/-- `k` items of `n` bytes each, one after another. -/
def State.getList (s : State) (b : Block) (n : Nat) : Nat → Nat → Got (List Nat)
  | _, 0 => .ok [] s
  | va, k + 1 =>
    match s.getVa b n (va % 2 ^ 56) with
    | .bad c => .bad c
    | .absent a => .absent a
    | .ok v s1 =>
      match s1.getList b n (va + n) k with
      | .bad c => .bad c
      | .absent a => .absent a
      | .ok vs s2 => .ok (v :: vs) s2

/-- A word whose fetch stays suspended until memory has been read goes on with what was read, traps, or parks with
XLATE for an absent page (R88, R233). -/
def State.withGot {α : Type} (s : State) (b : Block) (g : Got α) (f : α → State → Out) : Out :=
  match g with
  | .ok a s1 => f a s1
  | .bad c => .next (s.trap c)
  | .absent va => .next ((s.absence b.tag va).park .xlate)

/-- A word goes on with what a check gave, or traps. -/
def State.withChk {α : Type} (s : State) (e : Except Cause α) (f : α → Out) : Out :=
  match e with
  | .ok a => f a
  | .error c => .next (s.trap c)

/-! ### The units of a copy (R258)

A copy reads its sources and writes its destinations unit by unit, each at a moment of its own: on the scratchpad side and in
drawers 16-byte granules, in register windows lane words, in memory granules for CPY and elements for the other words. A
unit of the chip side is numbered by its place in the tile, an element by its place in the copy. -/

/-- The bytes of a unit of the chip side. -/
def Copy.csize (c : Copy) : Nat := match c.chip with | .reg _ _ => 4 | _ => 16

/-- The bytes of an element as the engine moves it: of Q4X, a byte of two slots (R288). -/
def Copy.esize (c : Copy) : Nat := if c.kind = .cpy then 16 else if c.lay.fmt = fmtQ4x then 1 else fmtBytes c.lay.fmt

/-- The elements of a copy in its format's own count (R230); CPY counts none. -/
def Copy.count (c : Copy) : Nat :=
  match c.kind with
  | .cpy => 0
  | .tcpy => c.lay.t0 * c.lay.t1 * c.lay.t2
  | _ => c.lay.t0 * c.list.length

/-- The elements that the engine moves. -/
def Copy.elems (c : Copy) : Nat :=
  if c.kind = .cpy then c.bytes / 16 else if c.lay.fmt = fmtQ4x then c.count / 2 else c.count

/-- The units of the chip side. -/
def Copy.chips (c : Copy) : Nat := ceilDiv c.bytes c.csize

/-- The units that a copy writes. -/
def Copy.dests (c : Copy) : Nat := if c.dir = 0 then c.chips else c.elems

/-- The index that FIRST names for an element (R230, R288). -/
def Copy.index (c : Copy) (t : Nat) : Nat := if c.kind = .tcpy && c.lay.fmt = fmtQ4x then 2 * t else t

/-- What the low bits of FILL make of an element (R297); CPY's is zero (R234). -/
def Copy.fill (c : Copy) : Nat :=
  if c.kind = .cpy then 0 else if c.lay.fmt = fmtQ4x then c.lay.fill % 16 * 17 else c.lay.fill % 2 ^ (8 * c.esize)

/-- The units, `m` bytes each, that meet unit `k` of `n` bytes. -/
def unitSpan (n m k : Nat) : List Nat := (List.range ((n * k + n - 1) / m + 1 - n * k / m)).map (n * k / m + ·)

/-- The sources of a destination unit. -/
def Copy.sourcesOf (c : Copy) (k : Nat) : List Nat :=
  match c.dir with
  | 0 => (unitSpan c.csize c.esize k).filter (· < c.elems)
  | 1 => unitSpan c.esize c.csize k
  | _ => [k]

/-- The destinations of a source unit. -/
def Copy.destsOf (c : Copy) (j : Nat) : List Nat :=
  match c.dir with
  | 0 => unitSpan c.esize c.csize j
  | 1 => (unitSpan c.csize c.esize j).filter (· < c.elems)
  | _ => [j]

/-- Whether a coordinate lies in a dimension. -/
def inDim (c : Int) (d : Nat) : Bool := decide (0 ≤ c) && decide (c < d)

/-- A memory address of a tensor element (R238). -/
def Copy.addr (c : Copy) (c0 c1 c2 : Int) : Nat :=
  wrapInt 56 ((c.base : Int) + c0 * c.lay.s0 + c1 * c.lay.s1 + c2 * c.lay.s2)

/-- The memory side of an element: an address; or none, the element taking the fill value on `.ld` and not being written on
`.st`, and whether that counts in OOB and sets RANGE (R238 to R240). -/
inductive XPlace where
  | mem (va : Nat)
  | fill (range oob : Bool)
  deriving DecidableEq, Repr

/-- An element of a dense TCPY (R238, R300). -/
def Copy.dense (c : Copy) (t : Nat) : XPlace :=
  let l := c.lay
  let c0 := c.x + (t % l.t0 : Nat)
  let c1 := c.y + (t / l.t0 % l.t1 : Nat)
  let c2 := c.z + (t / (l.t0 * l.t1) : Nat)
  if !(inDim c0 l.d0 && inDim c1 l.d1 && inDim c2 l.d2) then .fill false true
  else if l.perm = 0 then .mem (c.addr c0 c1 c2)
  else
    let p := c.perm.getD (c0.toNat - c.plo) 0
    if l.d0 ≤ p then .fill true true else .mem (c.addr (p : Nat) c1 c2)

/-- A byte of a Q4X TCPY, which holds slots 2t and 2t + 1 (R288). Extents of 64 keep both of one kind. -/
def Copy.q4x (c : Copy) (t : Nat) : XPlace :=
  let l := c.lay
  let h0 := l.t0 / 2
  let c0 := c.x + 2 * (t % h0 : Nat)
  let c1 := c.y + (t / h0 % l.t1 : Nat)
  let c2 := c.z + (t / (h0 * l.t1) : Nat)
  if !(inDim c0 l.d0 && inDim c1 l.d1 && inDim c2 l.d2) then .fill false true
  else .mem (wrapInt 56 ((c.base : Int) + c0 / 2 + c1 * l.s1 + c2 * l.s2))

/-- An element of GCPY or SCPY: element `i0` of row `j` (R239, R240). -/
def Copy.row (c : Copy) (t : Nat) : XPlace :=
  let l := c.lay
  let r := c.list.getD (t / l.t0) 0
  let c0 := c.x + (t % l.t0 : Nat)
  if r = 0xFFFFFFFF then .fill false false
  else if l.d1 ≤ r then .fill true true
  else if !(inDim c0 l.d0 && inDim c.z l.d2) then .fill false true
  else .mem (c.addr c0 r c.z)

/-- Whether a copy expands a compressed tile (R301, R302). -/
def Copy.sparse (c : Copy) : Bool := c.kind = .tcpy && c.lay.kind ≠ 0

/-- Whether an element of a compressed tile lies in the tensor (R301). -/
def Copy.inside (c : Copy) (t : Nat) : Bool :=
  inDim (c.x + (t % c.lay.t0 : Nat)) c.lay.d0 && inDim (c.y + (t / c.lay.t0 : Nat)) c.lay.d1

/-- The memory side of an element; the elements of a compressed tile come of its expansion. -/
def Copy.place (c : Copy) (t : Nat) : XPlace :=
  match c.kind with
  | .cpy => .mem ((if c.dir = 1 then c.dst else c.src) + 16 * t)
  | .tcpy =>
    if c.sparse then .fill false (!c.inside t) else if c.lay.fmt = fmtQ4x then c.q4x t else c.dense t
  | _ => c.row t

/-! ### What the status word says (R230) -/

/-- A flagged element: FIRST is the lowest. -/
def Copy.flag (c : Copy) (t : Nat) : Copy :=
  { c with first := match c.first with | some u => some (min u t) | none => some t }

/-- XLATE at an element. -/
def Copy.flagXlate (c : Copy) (t : Nat) : Copy := { c.flag t with xlate := true }
/-- RANGE at an element. -/
def Copy.flagRange (c : Copy) (t : Nat) : Copy := { c.flag t with range := true }
/-- TAG at a byte of the tile; the bitmap after it is no element. -/
def Copy.flagTag (c : Copy) (o : Nat) : Copy :=
  let t := o / c.esize
  if t < c.elems then { c.flag (c.index t) with tagErr := true } else { c with tagErr := true }

/-- The elements that have no place in memory, counted in the account. -/
def Copy.account (c : Copy) : Copy × Nat :=
  let w := if c.kind = .tcpy && c.lay.fmt = fmtQ4x then 2 else 1
  (List.range c.elems).foldl (fun p t =>
    match c.place t with
    | .mem _ => p
    | .fill range oob => (if range then p.1.flagRange (c.index t) else p.1, if oob then p.2 + w else p.2)) (c, 0)

/-- The status word. -/
def Copy.status (c : Copy) : Nat :=
  match c.account with
  | (a, oob) =>
    1 + (if a.tagErr then 4 else 0) + (if a.xlate then 8 else 0) + (if a.range then 16 else 0)
      + (if 0 < c.count && oob = c.count then 32 else 0) + a.first.getD 0 % 2 ^ 24 * 2 ^ 16 + oob % 2 ^ 24 * 2 ^ 40

/-! ### The memory side (R234) -/

/-- What reaching a unit of memory comes to: the copy has to wait, the unit fails, or its physical address. -/
inductive Reach where
  | wait (s : State) (c : Copy)
  | bad (s : State) (c : Copy)
  | pa (a : Nat) (s : State) (c : Copy)

/-- The entry of a turn in a list of held units. -/
def heldAt (l : List HeldElem) (k : Nat) : Option HeldElem := l.find? fun x => x.turn == k

/-- A unit held from now on. -/
def Copy.hold (c : Copy) (k va : Nat) : Copy :=
  { c with held := { turn := k, va := va, due := false } :: c.held.filter fun x => x.turn != k }

/-- The engine reaches `n` bytes of memory on turn `k` (R234). An absent page holds the unit until a retry; a unit that is held
stays so, and is reported again, while its page is not resident with the permission it needs (R204). A write of the
module's routing entry holds it until earlier accesses are acknowledged (R425). -/
def State.reach (s : State) (b : Block) (c : Copy) (need : Need) (k n va : Nat) : Reach :=
  let h := heldAt c.held k
  match h with
  | some ⟨_, _, false⟩ => .wait s c
  | _ =>
    match s.legalVa b need n va with
    | (.bad _, s1) => if h.isSome then .wait (s1.postAbsent b.tag va) (c.hold k va) else .bad s1 c
    | (.absent, s1) => if s1.tableWait b.tag va then .wait s1 c else .wait (s1.absence b.tag va) (c.hold k va)
    | (.pa a, s1) =>
      if s1.held a then .wait s c
      else .pa a s1 { c with held := c.held.filter fun x => x.turn != k }

/-! ### The chip side -/

/-- Register and lane that an offset in a team's register window names (R191). -/
def regPlace (o : Nat) : Nat × Nat := (o / 0x1000, o / 0x80 % 32 * 32 + o / 4 % 32)

/-- The lane word at an offset of a team's register window; none where the team does not hold it (R130, R192). -/
def Block.regWord (b : Block) (ti o : Nat) : Option Word :=
  match b.team? ti with
  | none => none
  | some t =>
    match regPlace o with
    | (k, l) => if t.ended || t.regs ≤ k || t.lanes ≤ l then none else some (t.rv k l)

/-- The lane word at an offset written, its low bytes replaced by the bytes given (R175). -/
def State.regWordWr (s : State) (b ti o : Nat) (old : Word) (bs : List Byte) : State :=
  let w := BitVec.ofNat 32 (bfPut 32 old.toNat (bytesNat bs) 0 (8 * bs.length))
  match regPlace o with
  | (k, l) => s.regWrite ⟨b, ti⟩ (.v k (List.replicate l none ++ [some w]))

/-- The slot index that holds a byte of a drawer's tile (R287). -/
def Drawer.slotOf (w : Drawer) (ring byte : Nat) : Nat := w.first + ring * w.size + byte / 4096

/-- Bytes written into a drawer's tile. -/
def State.tileWr (s : State) (b d ring byte : Nat) (bs : List Byte) : State :=
  s.updBlock b fun x =>
    match x.drawers[d]? with
    | none => x
    | some w =>
      let hit (c : Chest) : Bool := c.idx == w.slotOf ring byte
      { x with chest := updWhere hit (fun c => { c with bytes := c.bytes.wr (byte % 4096) bs }) x.chest }

/-- Whether the scratchpad side of a copy may be reached: every earlier scratchpad access of its team is performed (R148). -/
def Block.chipReady (b : Block) (c : Copy) : Bool :=
  match c.chip with
  | .spad _ _ => match b.team? c.team with
    | some t => !t.ops.any fun o => o.sp && decide (o.id < c.id)
    | none => true
  | _ => true

/-- A unit of the chip side read; what is not held reads as 0 and sets TAG. -/
def State.chipRd (s : State) (b : Block) (c : Copy) (j : Nat) : Nat × Copy :=
  let o := c.csize * j
  match c.chip with
  | .spad x p => (s.spadRd x (p + o) c.csize, c)
  | .reg ti p => (match b.regWord ti (p + o) with | some w => (w.toNat, c) | none => (0, c.flagTag o))
  | _ => (0, c)

/-- A unit of the chip side written. A scratchpad write sets the full bits (R193); a discarded one sets TAG. -/
def State.chipWr (s : State) (b : Block) (c : Copy) (k : Nat) (bs : List Byte) : State × Copy :=
  let o := c.csize * k
  match c.chip with
  | .spad x p =>
    ((s.spadWr x (p + o) bs).updBlock x fun y => { y with full := fullSet y.full (granulesOf (p + o) bs.length) }, c)
  | .drawer d r => (s.tileWr c.b d r o bs, c)
  | .reg ti p =>
    (match b.regWord ti (p + o) with
     | some w => (s.regWordWr c.b ti (p + o) w bs, c)
     | none => (s, c.flagTag o))
  | .none => (s, c)

/-! ### A compressed tile expanded (R301 to R304)

The reads of a row follow one another only where one needs the other: an index its row's offsets, a value its block's index. Nothing
else orders them (R461). A read is numbered by its block row and its place there: the two offsets, then for each stored block its index
and its values. -/

/-- The side of a stored block: 8 for BSR, 1 for CSR. -/
def Copy.side (c : Copy) : Nat := if c.lay.kind = 2 then 8 else 1

/-- The block rows of a tile. -/
def Copy.blockRows (c : Copy) : Nat := c.lay.t1 / c.side

/-- A row of which nothing is read. -/
def XRow.zero : XRow := { lo := none, hi := none, fail := false, cols := [], vals := [] }

/-- The rows of a compressed tile before its first read. Of a tile that lies wholly outside nothing is read (R303). -/
def Copy.rows0 (c : Copy) : List XRow :=
  if (List.range (c.lay.t0 * c.lay.t1)).any c.inside then List.replicate c.blockRows XRow.zero else []

/-- A read of a row. -/
inductive XRead where
  | lo
  | hi
  | index (n : Nat)
  | value (n k : Nat)
  deriving DecidableEq, Repr

/-- The numbers that the reads of a row take: offsets are 32 bits wide, a block has at most 64 values. -/
def rowReads : Nat := 2 + 2 ^ 32 * 65

/-- The row and the read that a number names. -/
def xRead (m : Nat) : Nat × XRead :=
  let r := m % rowReads
  (m / rowReads, if r = 0 then .lo else if r = 1 then .hi
    else if (r - 2) % 65 = 0 then .index ((r - 2) / 65) else .value ((r - 2) / 65) ((r - 2) % 65 - 1))

/-- The number of a read. -/
def XRead.num (i : Nat) : XRead → Nat
  | .lo => rowReads * i
  | .hi => rowReads * i + 1
  | .index n => rowReads * i + 2 + 65 * n
  | .value n k => rowReads * i + 2 + 65 * n + 1 + k

/-- The stored blocks of a row, once its offsets are read: none of a row with a failed offset or with decreasing ones. -/
def XRow.count (x : XRow) : Option Nat :=
  match x.lo, x.hi with
  | some p, some q => some (if x.fail then 0 else q - p)
  | _, _ => none

/-- The block row of the tensor that row `i` of a tile is, if it is one. -/
def Copy.tensorRow (c : Copy) (i : Nat) : Option Nat :=
  let br : Int := c.y / c.side + i
  if inDim br (c.lay.d1 / c.side) then some br.toNat else none

/-- What a read of a row has given. -/
def XRow.got (x : XRow) (n k : Nat) : Option (Option Nat) :=
  match x.vals.find? fun q => q.1 == (n, k) with | some q => some q.2 | none => none

/-- The bytes and the address of a read that can be made now. -/
def Copy.xAt (c : Copy) (x : XRow) (i : Nat) (r : XRead) : Option (Nat × Nat) :=
  let g := c.side
  match c.tensorRow i with
  | none => none
  | some br =>
    match r with
    | .lo => if x.lo.isNone then some (4, c.lay.aux0 + 4 * br) else none
    | .hi => if x.hi.isNone then some (4, c.lay.aux0 + 4 * br + 4) else none
    | .index n =>
      if n < x.count.getD 0 && (entry? x.cols n).isNone then some (4, c.lay.aux1 + 4 * (x.lo.getD 0 + n)) else none
    | .value n k =>
      match entry? x.cols n with
      | some (some _) =>
        if k < g * g && (x.got n k).isNone then some (c.esize, c.base + c.esize * (g * g * (x.lo.getD 0 + n) + k)) else none
      | _ => none

/-- The element from which FIRST is reckoned in a row. -/
def Copy.rowFirst (c : Copy) (i : Nat) : Nat := c.side * c.lay.t0 * i

/-- A copy with one of its rows changed. -/
def Copy.putRow (c : Copy) (i : Nat) (x : XRow) : Copy := { c with rows := c.rows.map fun l => l.set i x }

/-- An offset that is read, or has failed: decreasing ones set RANGE. -/
def Copy.xOffset (c : Copy) (i : Nat) (x : XRow) : Copy :=
  let c1 := c.putRow i x
  match x.lo, x.hi with
  | some p, some q => if !x.fail && decide (q < p) then c1.flagRange (c.rowFirst i) else c1
  | _, _ => c1

/-- A stored index that is read: the column in the tile of a block that lands there; one outside the tensor sets RANGE. -/
def Copy.xIndex (c : Copy) (i n bc : Nat) (x : XRow) : Copy :=
  let col : Int := (c.side * bc : Nat) - c.x
  if c.lay.d0 / c.side ≤ bc then (c.putRow i { x with cols := (n, none) :: x.cols }).flagRange (c.rowFirst i)
  else c.putRow i { x with cols := (n, if 0 ≤ col && col < c.lay.t0 then some col.toNat else none) :: x.cols }

/-- The copy after a read of a row: its value, or none where it has failed. -/
def Copy.xPut (c : Copy) (x : XRow) (i : Nat) (r : XRead) (v : Option Nat) : Copy :=
  let fail := x.fail || v.isNone
  match r with
  | .lo => c.xOffset i { x with lo := some (v.getD 0), fail := fail }
  | .hi => c.xOffset i { x with hi := some (v.getD 0), fail := fail }
  | .index n => match v with | some bc => c.xIndex i n bc x | none => c.putRow i { x with cols := (n, none) :: x.cols }
  | .value n k => c.putRow i { x with vals := ((n, k), v) :: x.vals }

/-- A read of a compressed tile made, if it can be; one of an absent page is held (R234). -/
def State.xStep (s : State) (b : Block) (c : Copy) (rows : List XRow) (m : Nat) : State × Copy :=
  let i := (xRead m).1
  let r := (xRead m).2
  match rows[i]? with
  | none => (s, c)
  | some x =>
    match c.xAt x i r with
    | none => (s, c)
    | some (n, va) =>
      match s.reach b c .rd (2 * m) n va with
      | .wait s1 c1 => (s1, c1)
      | .bad s1 c1 => (s1, (c1.xPut x i r none).flagXlate (c.rowFirst i))
      | .pa a s1 c1 => match s1.memRd (some b.tag) a n with | (v, s2) => (s2, c1.xPut x i r (some v))

/-- Whether every read of a row that the tile needs is made. -/
def Copy.rowOver (c : Copy) (x : XRow) (i : Nat) : Bool :=
  (c.tensorRow i).isNone || match x.count with
    | none => false
    | some m => (List.range m).all fun n => match entry? x.cols n with
      | none => false
      | some none => true
      | some (some _) => (List.range (c.side * c.side)).all fun k => (x.got n k).isSome

/-- The value of an element of a row that is over: that of the last stored block that brings one, else zero. -/
def Copy.xValue (c : Copy) (x : XRow) (i t : Nat) : Nat :=
  let here (n k : Nat) : Bool := match entry? x.cols n with
    | some (some col) => col + k % c.side = t % c.lay.t0 && c.side * i + k / c.side = t / c.lay.t0
    | _ => false
  ((x.vals.filterMap fun q => match q.2 with | some v => if here q.1.1 q.1.2 then some (q.1.1, v) else none | none => none).foldl
    (fun (best : Nat × Nat) q => if best.1 ≤ q.1 + 1 then (q.1 + 1, q.2) else best) (0, 0)).2

/-- An element of a compressed tile, once its row is over; one outside the tensor has the fill value. -/
def Copy.xElem (c : Copy) (rows : List XRow) (t : Nat) : Option Nat :=
  let i := t / c.lay.t0 / c.side
  if !c.inside t then some c.fill
  else match rows[i]? with | some x => if c.rowOver x i then some (c.xValue x i t) else none | none => some 0

/-- A bit of the occupancy bitmap, once its row is over: whether a stored block lands on the sub-block (R302). -/
def Copy.xBit (c : Copy) (rows : List XRow) (n : Nat) : Option Bool :=
  let w := c.lay.t0 / 8
  if w * (c.lay.t1 / 8) ≤ n then some false
  else match rows[n / w]? with
    | some x =>
      if c.rowOver x (n / w) then
        some (x.cols.any fun q => match q.2 with | some col => col / 8 = n % w | none => false)
      else none
    | none => some false

/-- Bits `lo` up to `lo + n` of the occupancy bitmap. -/
def Copy.xBits (c : Copy) (rows : List XRow) (lo n : Nat) : Option Nat :=
  (List.range n).foldl (fun (a : Option Nat) i =>
    match a, c.xBit rows (lo + i) with | some v, some b => some (if b then v + 2 ^ i else v) | _, _ => none) (some 0)

/-! ### Sources read and destinations written -/

/-- A source unit read. -/
def State.copySrc (s : State) (b : Block) (c : Copy) (j : Nat) : State × Copy :=
  match c.rows with
  | some rows => s.xStep b c rows j
  | none =>
    if (entry? c.got j).isSome || (c.destsOf j).all c.done.contains then (s, c)
    else if c.dir = 1 then
      if b.chipReady c then match s.chipRd b c j with | (v, c1) => (s, { c1 with got := (j, v) :: c1.got }) else (s, c)
    else
      match c.place j with
      | .fill _ _ => (s, c)
      | .mem va =>
        match s.reach b c .rd (2 * j) c.esize va with
        | .wait s1 c1 => (s1, c1)
        | .bad s1 c1 =>
          let c2 := c1.flagXlate (c.index j)
          (s1, if c.dir = 0 then { c2 with got := (j, c.fill) :: c2.got } else { c2 with done := j :: c2.done })
        | .pa a s1 c1 => match s1.memRd (some b.tag) a c.esize with | (v, s2) => (s2, { c1 with got := (j, v) :: c1.got })

/-- The byte at a place of the tile, once its source is read. -/
def Copy.byteAt (c : Copy) (o : Nat) : Option Byte :=
  let e := c.esize
  if c.dir = 1 then (entry? c.got (o / c.csize)).map fun v => BitVec.ofNat 8 (natBits v (8 * (o % c.csize)) 8)
  else
    match c.rows with
    | some rows =>
      if o < e * c.elems then (c.xElem rows (o / e)).map fun v => BitVec.ofNat 8 (natBits v (8 * (o % e)) 8)
      else (c.xBits rows (8 * (o - e * c.elems)) 8).map fun v => BitVec.ofNat 8 v
    | none =>
      match c.place (o / e) with
      | .fill _ _ => some (BitVec.ofNat 8 (natBits c.fill (8 * (o % e)) 8))
      | .mem _ => (entry? c.got (o / e)).map fun v => BitVec.ofNat 8 (natBits v (8 * (o % e)) 8)

/-- The bytes of a destination unit, once all of its sources are read. -/
def Copy.unitBytes (c : Copy) (n k : Nat) : Option (List Byte) :=
  let bs := (List.range (min n (c.bytes - n * k))).map fun i => c.byteAt (n * k + i)
  if bs.all Option.isSome then some (bs.filterMap fun x => x) else none

/-- Whether an element waits for a lower one of the same address: of two the higher remains (R238, R240). -/
def Copy.behind (c : Copy) (va k : Nat) : Bool :=
  (List.range k).any fun t => c.place t = .mem va && !c.done.contains t

/-- A destination unit that is done; sources that no other needs are forgotten. -/
def Copy.did (c : Copy) (k : Nat) : Copy :=
  let c1 := { c with done := k :: c.done }
  { c1 with got := c1.got.filter fun p => !(c1.destsOf p.1).all c1.done.contains }

/-- The write of a destination unit into memory on turn `2 * k + 1`. -/
def State.memUnit (s : State) (b : Block) (c : Copy) (k va : Nat) (bs : List Byte) : State × Copy :=
  match s.reach b c .wr (2 * k + 1) bs.length va with
  | .wait s1 c1 => (s1, c1)
  | .bad s1 c1 => (s1, (c1.flagXlate (c.index k)).did k)
  | .pa a s1 c1 => (s1.memWr (some b.tag) a bs, c1.did k)

/-- A destination unit written, once its sources are read. -/
def State.copyDst (s : State) (b : Block) (c : Copy) (k : Nat) : State × Copy :=
  if c.dests ≤ k || c.done.contains k then (s, c)
  else if c.dir = 0 then
    match c.unitBytes c.csize k with
    | some bs => if b.chipReady c then match s.chipWr b c k bs with | (s1, c1) => (s1, c1.did k) else (s, c)
    | none => (s, c)
  else
    match c.place k with
    | .fill _ _ => (s, c.did k)
    | .mem va =>
      if c.dir = 2 then
        (match entry? c.got k with
         | some v => s.memUnit b c k (c.dst + 16 * k) (natBytes 16 v)
         | none => (s, c))
      else
        match c.unitBytes c.esize k with
        | some bs => if c.behind va k then (s, c) else s.memUnit b c k va bs
        | none => (s, c)

/-- A copy of the state replaced. -/
def State.putCopy (s : State) (c : Copy) : State := { s with copies := updWhere (fun x => x.id == c.id) (fun _ => c) s.copies }

/-- One turn of a copy: an even number is a source, an odd one a destination. -/
def State.element (s : State) (n k : Nat) : State :=
  match s.copies.find? fun c => c.id == n with
  | none => s
  | some c =>
    match s.block? c.b with
    | none => s
    | some b =>
      match (if k % 2 = 0 then s.copySrc b c (k / 2) else s.copyDst b c (k / 2)) with
      | (s1, c1) => s1.putCopy c1

/-! ### Completion (R235) -/

/-- A read of a compressed tile by its row and place. -/
def State.xMake (s : State) (b : Block) (c : Copy) (i : Nat) (r : XRead) : State × Copy :=
  match c.rows with | some rows => s.xStep b c rows (r.num i) | none => (s, c)

/-- The stored blocks of a row of a copy. -/
def Copy.rowCount (c : Copy) (i : Nat) : Nat := (((c.rows.getD []).getD i XRow.zero).count).getD 0

/-- The reads of a row that are left and can be made, in the order of R301. -/
def State.xRow (s : State) (b : Block) (c : Copy) (i : Nat) : State × Copy :=
  match s.xMake b c i .lo with
  | (s1, c1) =>
    match s1.xMake b c1 i .hi with
    | (s2, c2) =>
      (List.range (c2.rowCount i)).foldl (fun p n =>
        match p.1.xMake b p.2 i (.index n) with
        | (s3, c3) => (List.range (c.side * c.side)).foldl (fun p k => p.1.xMake b p.2 i (.value n k)) (s3, c3)) (s2, c2)

/-- The reads of a compressed tile that are left and can be made. -/
def State.xAll (s : State) (b : Block) (c : Copy) : State × Copy :=
  match c.rows with
  | some rows => (List.range rows.length).foldl (fun p i => p.1.xRow b p.2 i) (s, c)
  | none => (s, c)

/-- Every unit that is left and can be moved, in the order of the tile. -/
def State.moveRest (s : State) (b : Block) (c : Copy) : State × Copy :=
  ((List.range c.dests).filter fun k => !c.done.contains k).foldl (fun p k =>
    match (if p.2.rows.isSome then p else (p.2.sourcesOf k).foldl (fun p j => p.1.copySrc b p.2 j) p) with
    | (s1, c1) => s1.copyDst b c1 k) (s.xAll b c)

/-- A drawer's tile counted, with its metadata, and zero from the copy's bytes to its slots' end (R298, R310, R311). -/
def State.tileCount (s : State) (c : Copy) : State :=
  match c.chip with
  | .drawer d r =>
    let l := c.lay
    let tile : DTile := match c.kind with
      | .cpy => { st := .counted, fmt := fmtRaw, t0 := 0, t1 := 0, t2 := 0, bits := none }
      | .tcpy =>
        { st := .counted, fmt := l.fmt, t0 := l.t0, t1 := l.t1, t2 := l.t2
          bits := if l.kind = 2 then c.rows.bind fun x => c.xBits x 0 (l.t0 / 8 * (l.t1 / 8)) else none }
      | _ => { st := .counted, fmt := l.fmt, t0 := l.t0, t1 := c.list.length, t2 := 1, bits := none }
    s.updBlock c.b fun x =>
      match x.drawers[d]? with
      | none => x
      | some w =>
        let hit (q : Chest) : Bool := decide (w.slotOf r 0 ≤ q.idx) && decide (q.idx < w.slotOf r 0 + w.size)
        let cut (q : Chest) : Chest :=
          { q with bytes := q.bytes.filter fun p => decide (4096 * (q.idx - w.slotOf r 0) + p.1 < c.bytes) }
        { x with chest := updWhere hit cut x.chest
                 drawers := updAt (fun w => { w with ring := w.ring.set r tile }) x.drawers d }
  | _ => s

/-- The post of a copy's bytes. -/
def State.copyPost (s : State) (c : Copy) : State := match c.bench with | some (x, o) => s.post x o 0 c.bytes | none => s

/-- The status word of a copy, ready to arrive. -/
def State.copyTell (s : State) (c : Copy) : State :=
  match c.pend with
  | some id => s.updTeam ⟨c.b, c.team⟩ fun t => t.answer id [.w c.u (BitVec.ofNat 64 c.status)]
  | none => s

/-- A copy whose every unit is performed completes: its drawer tile is counted, its bytes are posted and its status is given, in
either order (R235). -/
def State.finishCopy (s : State) (c : Copy) : State :=
  let gone (s : State) : State := { s with copies := s.copies.filter fun x => x.id != c.id }
  if c.told then gone (s.copyPost c)
  else
    let s1 := s.tileCount c
    match s1.choice 2 with
    | (0, s2) => gone ((s2.copyPost c).copyTell c)
    | (_, s2) => (s2.copyTell c).putCopy { c with told := true }

/-- COPY_COMPLETION (R235): the units that are left are moved, and the copy completes unless one of them is held. -/
def execCopyCompletion (n : Nat) (s : State) : Out :=
  match s.copies.find? fun c => c.id == n with
  | none => .next s
  | some c =>
    match s.block? c.b with
    | none => .next { s with copies := s.copies.filter fun x => x.id != n }
    | some b =>
      match s.moveRest b c with
      | (s1, c1) =>
        if c1.done.length < c1.dests then .next (s1.putCopy c1) else .next ((s1.putCopy c1).finishCopy c1)

/-! ### Issue -/

/-- A copy that has passed its checks is handed to the engine (R233, R310): a drawer copy reserves the tile at the
producer pointer as it issues, and parks with DRAWER while it is not free. Of a tile that DRAWER_RESERVATION has reserved in this move
the issue is left. A copy of no bytes completes at once. -/
def State.copyGo (s : State) (h : Hd) (t : Team) (c : Copy) : Out :=
  let ready := match c.chip with
    | .drawer d r =>
      (match s.block? c.b with
       | some b => (match b.drawers[d]? with
         | some w => (match w.ring[r]? with
           | some x => x.st = .free || (t.granted && t.want = .drawer d && s.due.isSome)
           | none => false)
         | none => false)
       | none => false)
    | _ => true
  match c.chip, ready with
  | .drawer d _, false => .next (s.parkFor .drawer (.drawer d))
  | chip, _ =>
    match s.newId with
    | (id, s1) =>
      let s2 := match chip with
        | .drawer d r => s1.updBlock c.b fun x =>
            let take (w : Drawer) : Drawer :=
              { w with ring := updAt (fun q => { q with st := .filling }) w.ring r, prod := (w.prod + 1) % w.ring.length }
            { x with drawers := updAt take x.drawers d }
        | _ => s1
      let s2 := match chip with | .drawer _ _ => { s2 with due := none } | _ => s2
      let c1 := { c with id := id, pend := if c.u = 63 then none else some id
                         rows := if c.sparse then some c.rows0 else none }
      let s3 := { s2 with copies := s2.copies ++ [c1] }
      let s4 := s3.issue h false fun u => if c.u = 63 then u else u.addPend id [.w c.u] none false true
      .next (if c.bytes = 0 then s4.finishCopy c1 else s4)

/-- DRAWER_RESERVATION (R310): the tile at the producer pointer is reserved for a copy that parks on it, once it is
free. The copy's chain issues at the reservation (R88): it is due in the same step. -/
def execDrawerReservation (r : TRef) (s : State) : Out :=
  match s.team? r with
  | none => .next s
  | some (b, t) =>
    match t.want with
    | .drawer d =>
      match b.drawers[d]? with
      | none => .next s
      | some w =>
        if t.granted || t.ended || t.trap.isSome || !b.live then .next s
        else
          match w.ring[w.prod]? with
          | some x =>
            if x.st = .free then
              let hold (w : Drawer) : Drawer := { w with ring := updAt (fun q => { q with st := .filling }) w.ring w.prod }
              let s1 := s.updBlock b.id fun y => { y with drawers := updAt hold y.drawers d }
              .next { (s1.updTeam r fun u => { u with granted := true }) with due := some r }
            else .next s
          | none => .next s
    | _ => .next s

/-- A copy of which nothing is known and nothing is done. -/
def Copy.zero : Copy :=
  { id := 0, b := 0, team := 0, kind := .cpy, dir := 0, chip := .none, u := 0, pend := none, bench := none, bytes := 0
    src := 0, dst := 0, lay := Layout.zero, base := 0, x := 0, y := 0, z := 0, list := [], plo := 0, perm := []
    wb0 := 0, wb1 := 0, done := [], got := [], held := [], told := false, xlate := false, tagErr := false, range := false
    first := none, rows := none }

/-- The registers of a copy word. -/
def copyRegs (b : BitVec 6) (n : Nat) : List RegName := (List.range n).map fun i => .w (b.toNat + i)

/-- What every copy word does first (R233): without a lane in its mask it has no effect. -/
def State.copyWord (s : State) (h : Hd) (u b : BitVec 6) (k : BitVec 3) (n : Nat) (f : Block → Team → Out) : Out :=
  s.chk (.m k.toNat :: copyRegs b n) (if u = 63#6 then [] else [.w u.toNat]) (u != 63#6) fun x t =>
    if (maskLanes (t.rm k) t.lanes).isEmpty then .next (s.issue h false id) else f x t

/-- The register `i` places after the first of an operand block. -/
def Team.opnd (t : Team) (b : BitVec 6) (i : Nat) : Nat := (t.w.getD (b.toNat + i) 0#64).toNat

/-- CPY (R237). The 16-byte test of the on-chip side is not made of a drawer number (log entry 18). -/
def execCpy (h : Hd) (u b : BitVec 6) (k : BitVec 3) (tk dir : BitVec 2) (s : State) : Out :=
  s.copyWord h u b k 4 fun x t =>
    let src := t.opnd b 0
    let dst := t.opnd b 1
    let n := t.opnd b 2
    if src % 16 ≠ 0 || (dst % 16 ≠ 0 && tk ≠ 1#2) || n % 16 ≠ 0 then .next (s.trap .align)
    else
      s.withChk (if dir = 2#2 then .ok .none else s.chipChk x tk (if dir = 0#2 then dst else src) n) fun chip =>
        s.withChk (s.benchReg x (t.opnd b 3)) fun bench =>
          let sv := src % 2 ^ 56
          let dv := dst % 2 ^ 56
          if 2 ^ 24 < n || (dir = 2#2 && decide (sv < dv + n) && decide (dv < sv + n)) || x.tooBig chip n then
            .next (s.trap .copyarg)
          else
            s.copyGo h t
              { Copy.zero with
                b := x.id, team := t.idx, dir := dir.toNat, chip := chip, u := u.toNat
                bench := bench, bytes := n, src := sv, dst := dv, wb0 := t.opnd b 0, wb1 := t.opnd b 1 }

/-- A coordinate of an origin register. -/
def originAt (v lo : Nat) : Int := sextNat (natBits v lo 16) 16

/-- TCPY (R238, R288, R296 to R303). The permutation table is read once the other checks are made, so that its traps come last: the
model's choice, for R233 gives that read no place in its order (log entry 129). -/
def execTcpy (h : Hd) (u b : BitVec 6) (k : BitVec 3) (tk dir : BitVec 2) (s : State) : Out :=
  s.copyWord h u b k 5 fun bl t =>
    s.withGot bl (s.getVa bl 64 (t.opnd b 0 % 2 ^ 56)) fun rec s1 =>
      let l := layoutOf rec
      let o := t.opnd b 4
      let x := originAt o 0
      let y := originAt o 16
      let z := originAt o 32
      let tile := tileBytes l.fmt (l.t0 * l.t1 * l.t2)
      let nb := tile + (if l.kind = 2 && tk ≠ 1#2 then bitmapBytes l else 0)
      s1.withChk (s1.chipChk bl tk (t.opnd b 2) nb) fun chip =>
        s1.withChk (s1.benchReg bl (t.opnd b 3)) fun bench =>
          if l.badTcpy (dir = 1#2) x y z || maxCopy < nb || bl.tooBig chip tile then .next (s1.trap .copyarg)
          else
            let lo := if x < 0 then 0 else x.toNat
            let hi := min (x + l.t0) l.d0
            let cnt := if l.perm = 0 then 0 else (hi - lo).toNat
            s1.withGot bl (s1.getList bl 2 (l.perm + 2 * lo) cnt) fun perm s2 =>
              s2.copyGo h t
                { Copy.zero with
                  b := bl.id, team := t.idx, kind := .tcpy, dir := dir.toNat, chip := chip, u := u.toNat
                  bench := bench, bytes := nb, lay := l, base := t.opnd b 1 % 2 ^ 56, x := x, y := y, z := z
                  plo := lo, perm := perm, wb0 := t.opnd b 0, wb1 := t.opnd b 1 }

/-- The index list of GCPY and SCPY, read at issue from scratchpad, with the checks in the order of R194 (R239). Of a list of no entries
nothing is checked: the model's choice, for R239 does not say (log entry 137). -/
def State.indexList (s : State) (b : Block) (a n : Nat) : Except Cause (List Nat) :=
  if n = 0 then .ok []
  else
    match s.spTarget b a with
    | none => .error .sprange
    | some (x, o) =>
      if o % 4 ≠ 0 then .error .align
      else if x.spadSize < o + 4 * n then .error .sprange
      else .ok ((List.range n).map fun i => x.spad.rdN (o + 4 * i) 4)

/-- GCPY and SCPY (R239, R240): the list is read after the team's earlier scratchpad accesses (R148). -/
def State.rowsWord (s : State) (h : Hd) (kind : CKind) (u b : BitVec 6) (k : BitVec 3) (tk dir : BitVec 2) : Out :=
  s.copyWord h u b k 6 fun bl t =>
    if t.ops.any fun o => o.sp && decide (o.id < s.cur.base) then .next (s.park .pipe) else
    s.withGot bl (s.getVa bl 64 (t.opnd b 0 % 2 ^ 56)) fun rec s1 =>
      let l := layoutOf rec
      let n := natBits (t.opnd b 4) 32 16
      s1.withChk (s1.indexList bl (t.opnd b 4 % 2 ^ 32) n) fun list =>
        let nb := n * l.t0 * fmtBytes l.fmt
        s1.withChk (s1.chipChk bl tk (t.opnd b 2) nb) fun chip =>
          s1.withChk (s1.benchReg bl (t.opnd b 3)) fun bench =>
            if l.badRows || maxCopy < nb || bl.tooBig chip nb then .next (s1.trap .copyarg)
            else
              s1.copyGo h t
                { Copy.zero with
                  b := bl.id, team := t.idx, kind := kind, dir := dir.toNat, chip := chip, u := u.toNat
                  bench := bench, bytes := nb, lay := l, base := t.opnd b 1 % 2 ^ 56, x := originAt (t.opnd b 5) 0
                  z := originAt (t.opnd b 5) 32, list := list, wb0 := t.opnd b 0, wb1 := t.opnd b 1 }

def execGcpy (h : Hd) (u b : BitVec 6) (k : BitVec 3) (tk dir : BitVec 2) (s : State) : Out :=
  s.rowsWord h .gcpy u b k tk dir
def execScpy (h : Hd) (u b : BitVec 6) (k : BitVec 3) (tk dir : BitVec 2) (s : State) : Out :=
  s.rowsWord h .scpy u b k tk dir

end Sys2Proof.Machine
end

