-- ==== Sys2Proof/Machine/Matrix.lean ====
section
/-! DEFINITION. Chest, drawer and matrix words: classes 22 and 23, and the steps that take and perform tile operations
(R179, R180, R185, R186, R287 to R292, R305 to R327). -/

namespace Sys2Proof.Machine

/-! ### Q4X elements (R179, R180) -/

/-- The value q of slot `i` given the byte that holds it: a sign, a mantissa and an exponent; an element of value 0 has
no sign (log entry 19). -/
def q4xVal (byte i : Nat) : Bool × Nat × Int :=
  let lo := byte % 16
  let hi := byte / 16
  let outlier (donor : Nat) : Bool × Nat × Int := (decide (8 ≤ donor), 1, 2 * ((donor % 8 : Nat) : Int) - 6)
  let plain (x : Nat) : Bool × Nat × Int := (decide (8 < x), (sextNat x 4).natAbs, 0)
  if lo = 8 then (if i % 2 = 0 then outlier hi else (false, 0, 0))
  else if hi = 8 then (if i % 2 = 1 then outlier lo else (false, 0, 0))
  else plain (if i % 2 = 0 then lo else hi)

/-- 64 × q as an integer, for the integer path (R186). -/
def q4xInt (byte i : Nat) : Int :=
  match q4xVal byte i with
  | (s, m, e) => (if s then -1 else 1) * (m * 2 ^ (e + 6).toNat : Nat)

/-- A Q4X element times its scale as an operand is read (R180, R183, R315): a NaN or infinite scale gives NaN; below the
bound and flushed, a zero of its own sign; 2^128 or more, an infinity. -/
def q4xScaled (fz : Bool) (byte i scale : Nat) : FV :=
  match bf16.val scale with
  | .fin t n g =>
    (match q4xVal byte i with
     | (s, m, e) =>
       if m = 0 then .fin false 0 0
       else if n = 0 then .fin (s != t) 0 0
       else
         let top := (bitLen (m * n) : Int) + e + g
         if 128 < top then .inf (s != t)
         else if fz && top ≤ -126 then .fin (s != t) 0 0
         else .fin (s != t) (m * n) (e + g))
  | _ => .nan

/-! ### Sums (R185, R186) -/

/-- The exact product of two operands. -/
def FV.mul : FV → FV → FV
  | .nan, _ => .nan
  | _, .nan => .nan
  | .inf s, .inf t => .inf (s != t)
  | .inf s, .fin t n _ => if n = 0 then .nan else .inf (s != t)
  | .fin s m _, .inf t => if m = 0 then .nan else .inf (s != t)
  | .fin s m e, .fin t n g => .fin (s != t) (m * n) (e + g)

/-- The exact sum of a group (R186): an exact zero is -0 where every term is -0. -/
def groupSum (l : List FV) : FV :=
  let neg := l.any fun x => x = .inf true
  let pos := l.any fun x => x = .inf false
  if (l.any fun x => x = .nan) || (neg && pos) then .nan
  else if neg then .inf true
  else if pos then .inf false
  else
    let e := l.foldl (fun e x => match x with | .fin _ _ g => min e g | _ => e) 0
    let i : Int := l.foldl (fun i x => match x with
      | .fin s m g => i + (if s then -1 else 1) * (m * 2 ^ (g - e).toNat : Nat)
      | _ => i) 0
    let allNeg := l.all fun x => match x with | .fin s m _ => s && m = 0 | _ => false
    if i = 0 then .fin (allNeg && !l.isEmpty) 0 e else .fin (decide (i < 0)) i.natAbs e

/-- acc + s rounded once to nearest-even, with R185 for NaNs; the accumulator is never flushed. -/
def accAdd (f : Fmt) (acc : Nat) (s : FV) : Nat :=
  match f.val acc, s with
  | .nan, _ => f.dnan
  | _, .nan => f.dnan
  | .inf a, .inf b => if a = b then f.mk' a f.top else f.dnan
  | .inf a, _ => f.mk' a f.top
  | _, .inf b => f.mk' b f.top
  | .fin a m e, .fin b n g => match addExact .rn a m e b n g with | (u, k, h) => f.round .rn false u k h

/-- The positions 0 to `k` - 1 in groups of `g` (R186). -/
def groupsOf (g k : Nat) : List (List Nat) :=
  (List.range (ceilDiv k g)).map fun x => (List.range (min g (k - x * g))).map fun i => x * g + i

/-! ### Tiles (R287, R298, R314) -/

/-- Byte `o` of a drawer's tile. -/
def Block.tileByte (b : Block) (w : Drawer) (ring o : Nat) : Nat :=
  match b.chest.find? fun c => c.idx == w.slotOf ring o with
  | some c => (c.bytes.rd (o % 4096)).toNat
  | none => 0

/-- `n` bytes of a drawer's tile from byte `o`, as a number. -/
def Block.tileRd (b : Block) (w : Drawer) (ring : Nat) : Nat → Nat → Nat
  | _, 0 => 0
  | o, n + 1 => b.tileByte w ring o + 256 * b.tileRd w ring (o + 1) n

/-- The K list of a format (R289); none where the table has no entry or the format is no operand format. -/
def kOf (f ki : Nat) : Option Nat :=
  let base := match f with
    | 8 => some 16 | 9 => some 16 | 12 => some 32 | 13 => some 32 | 0 => some 32 | 1 => some 32 | 14 => some 64
    | 10 => some 8 | 11 => some 4 | _ => none
  match base with
  | some x => if (f = 10 || f = 11) && ki = 2 then none else some (x * 2 ^ ki)
  | none => none

/-- Whether A and B formats form a pair (R314). -/
def pairFmt (a b : Nat) : Bool :=
  match a with
  | 8 => b = 8
  | 9 => b = 9
  | 12 => b = 12 || b = 13
  | 13 => b = 12 || b = 13
  | 0 => b ≤ 1
  | 1 => b ≤ 1
  | 14 => b = 8 || b = 9 || b = 12 || b = 13 || b ≤ 1
  | 10 => b = 10
  | 11 => b = 11
  | _ => false

/-- The group length of a pair (R186). -/
def groupLen (a : Nat) : Nat := match a with | 8 => 4 | 9 => 4 | 14 => 16 | 10 => 1 | 11 => 1 | _ => 8

/-- N of a shape (R289). -/
def nOf (nc : Nat) : Nat := 8 * 2 ^ nc

/-- MMAFMT (R314): the A tile and the B tile of one core. -/
def mmaFmtBad (q : MmaReq) (a b : DTile) : Bool :=
  match kOf a.fmt q.ki with
  | none => true
  | some k =>
    !pairFmt a.fmt b.fmt || (q.nc = 2 && a.fmt = 11)
      || a.t0 ≠ k || a.t1 ≠ 32 || a.t2 ≠ 1 || b.t0 ≠ nOf q.nc || b.t1 ≠ k || b.t2 ≠ 1

/-! ### Scratchpad through the operand cache (R223, R320) -/

/-- A half of the block's scratchpad as an MMA reads it: where the operand cache holds its line, either the cached bytes
or the present ones (`old` says which). -/
def Block.cacheHalf (b : Block) (old : Bool) (a : Nat) : Nat :=
  match b.ocache.find? fun l => l.1 == a / 64 with
  | some l => if old then bytesNat ((l.2.drop (a % 64)).take 2) else b.spad.rdN a 2
  | none => b.spad.rdN a 2

/-- The lines of a range filled into the operand cache where they are not there. -/
def Block.cacheFill (b : Block) (a n : Nat) : Block :=
  let lines := if n = 0 then [] else (List.range ((a + n - 1) / 64 - a / 64 + 1)).map (a / 64 + ·)
  { b with ocache := lines.foldl (fun c x =>
      if c.any (fun l => l.1 == x) then c else c ++ [(x, b.spad.bytes (64 * x) 64)]) b.ocache }

/-! ### One core's part of an MMA -/

/-- What one array reads: its block's two tiles with their drawers and ring places; the scales and the permutation
entries as halves of the leader's scratchpad. -/
structure Array where
  blk : Block
  wa : Drawer
  ta : DTile
  ap : Nat
  wb : Drawer
  tb : DTile
  bp : Nat
  row0 : Nat
  k : Nat
  scale : Nat → Nat
  perm : Nat → Nat
  fz : Nat

/-- The flush bit for a format. -/
def Array.fzOf (x : Array) (f : Nat) : Bool := if f = 11 then x.fz / 2 % 2 = 1 else x.fz % 2 = 1

/-- The stored bits of element (row, position) of A: T0 is K. -/
def Array.aBits (x : Array) (i k : Nat) : Nat :=
  let t := k + x.ta.t0 * i
  if x.ta.fmt = fmtQ4x then x.blk.tileByte x.wa x.ap (t / 2)
  else x.blk.tileRd x.wa x.ap (t * fmtBytes x.ta.fmt) (fmtBytes x.ta.fmt)

/-- The stored bits of element (r, j) of B: T0 is N. -/
def Array.bBits (x : Array) (r j : Nat) : Nat :=
  x.blk.tileRd x.wb x.bp ((j + x.tb.t0 * r) * fmtBytes x.tb.fmt) (fmtBytes x.tb.fmt)

/-- Whether a tile's occupancy bitmap has a sub-block: column and row of an element (R302, R316). -/
def DTile.has (t : DTile) (c r : Nat) : Bool :=
  match t.bits with
  | none => true
  | some b => b.testBit (c / 8 + t.t0 / 8 * (r / 8))

/-- Whether a product is skipped (R316); `i` counts rows of the tile. -/
def Array.skip (x : Array) (i k j : Nat) : Bool :=
  !x.ta.has k i || (decide (x.perm k < x.tb.t1) && !x.tb.has j (x.perm k))

/-- A'(i, k) of the floating-point path (R183, R290). -/
def Array.aF (x : Array) (i k : Nat) : FV :=
  if x.ta.fmt = fmtQ4x then
    q4xScaled (x.fzOf 9) (x.aBits i k) k (x.scale (k / 64 + ceilDiv x.k 64 * (x.row0 + i)))
  else (fmtOf x.ta.fmt).val ((fmtOf x.ta.fmt).flush (x.fzOf x.ta.fmt) (x.aBits i k))

/-- B'(k, j): an entry at or above the tile's rows reads +0 (R321). -/
def Array.bF (x : Array) (k j : Nat) : FV :=
  if x.perm k < x.tb.t1 then
    (fmtOf x.tb.fmt).val ((fmtOf x.tb.fmt).flush (x.fzOf x.tb.fmt) (x.bBits (x.perm k) j))
  else .fin false 0 0

/-- A'(i, k) of the integer path. -/
def Array.aI (x : Array) (i k : Nat) : Int :=
  if x.ta.fmt = fmtQ4x then q4xInt (x.aBits i k) k else rdInt (x.ta.fmt = 0) 8 (x.aBits i k)

/-- B'(k, j) of the integer path. -/
def Array.bI (x : Array) (k j : Nat) : Int :=
  if x.perm k < x.tb.t1 then rdInt (x.tb.fmt = 0) 8 (x.bBits (x.perm k) j) else 0

/-- Whether the accumulator is a 32-bit integer (R314). -/
def Array.isInt (x : Array) : Bool := x.tb.fmt ≤ 1

/-- The format of a floating-point accumulator. -/
def Array.accFmt (x : Array) : Fmt := if x.ta.fmt = 11 then f64 else f32

/-- A cell's new value (R186). -/
def Array.cell (x : Array) (acc i j : Nat) : Nat :=
  let gs := groupsOf (groupLen x.ta.fmt) x.k
  if x.isInt then
    gs.foldl (fun acc g =>
      wrapInt 32 ((acc : Int) + g.foldl (fun s k => s + (if x.skip i k j then 0 else x.aI i k * x.bI k j)) 0)) acc
  else
    gs.foldl (fun acc g =>
      accAdd x.accFmt acc (groupSum (g.map fun k =>
        if x.skip i k j then .fin false 0 0 else (x.aF i k).mul (x.bF k j)))) acc

/-- The bytes of a cell, and its place in the tile (R314). -/
def Array.cellBytes (x : Array) : Nat := if x.ta.fmt = 11 then 8 else 4
def Array.cellAt (x : Array) (i j : Nat) : Nat := if x.ta.fmt = 11 then 8 * (16 * i + j) else 4 * (32 * i + j)

/-- The tile after an MMA over `m` rows and `n` columns; outside of them cells keep their values (R315). -/
def Array.run (x : Array) (zero : Bool) (m n : Nat) (old : Memory) : Memory :=
  (List.range m).foldl (fun t i =>
    (List.range n).foldl (fun t j =>
      let acc := if zero then 0 else t.rdN (x.cellAt i j) x.cellBytes
      if x.k = 0 && !zero then t else t.wrN (x.cellAt i j) x.cellBytes (x.cell acc i j)) t) old

/-- Whether a permutation entry that an array reads is out of range (R321, R324). -/
def Array.permOut (x : Array) : Bool := (List.range x.k).any fun k => decide (x.tb.t1 ≤ x.perm k)

/-! ### Pairs (R137, R317) -/

/-- The follower of a paired leader, while it has not ended. -/
def State.followerOf (s : State) (b : Block) : Option Block :=
  match b.partner with
  | some (f, true) => s.block? f
  | _ => none

/-- MPAIR (R317). The core of a partner that has ended is a free value (log entry 20). -/
def execMpair (h : Hd) (d : BitVec 6) (s : State) : Out :=
  s.chk [] [.w d.toNat] false fun b _ =>
    match b.partner with
    | none => .next (s.issue h false fun u => u.addRun (s.clock + latU) [.w d.toNat 0#64])
    | some (p, lead) =>
      let r := match s.block? p with | some x => (x.core, s) | none => ((s.fresh).1.toNat % 1024, (s.fresh).2)
      .next (r.2.issue h false fun u => u.addRun (s.clock + latU)
        [.w d.toNat (BitVec.ofNat 64 (1 + (if lead then 2 else 0) + r.1 % 1024 * 2 ^ 16))])

/-! ### Taking the tiles of an MMA (R290, R310, R315, R318) -/

/-- The tile at a drawer's consumer pointer, if it is counted. -/
def Block.counted (b : Block) (d : Nat) : Option (Drawer × DTile) :=
  match b.drawers[d]? with
  | some w =>
    if w.init then (match w.ring[w.cons]? with | some x => if x.st = .counted then some (w, x) else none | none => none)
    else none
  | none => none

/-- Whether a drawer of a block is initialised. -/
def Block.drawerInit (b : Block) (d : Nat) : Bool := match b.drawers[d]? with | some w => w.init | none => false

/-- Whether `n` bytes at an address lie in the block's own scratchpad; no bytes lie anywhere. -/
def Block.ownRange (b : Block) (a n : Nat) : Bool := n = 0 || a + n ≤ b.spadSize

/-- What the take of an MMA comes to. -/
inductive Take where
  | wait
  | bad (c : Cause)
  | ok
  deriving DecidableEq, Repr

/-- The checks at the take on one core's tiles. -/
def takeTiles (q : MmaReq) (a b : DTile) : Option Cause :=
  if mmaFmtBad q a b then some .mmafmt
  else if (kOf a.fmt q.ki).getD 0 < q.k then some .mmaarg
  else none

/-- The scale table's check (R315), for a Q4X A tile. -/
def scaleBad (b : Block) (q : MmaReq) (a : DTile) : Option Cause :=
  if a.fmt = fmtQ4x && q.m ≠ 0 then
    if q.scale % 2 ≠ 0 then some .align
    else if b.ownRange q.scale (2 * (ceilDiv q.k 64 * q.m)) then none else some .sprange
  else none

/-- The take of an MMA: park, trap or take. "zT is free on both" is read as: no operation that is placed on either zT is still to be
performed (log entry 144). -/
def State.takeChk (s : State) (b : Block) (q : MmaReq) : Take :=
  if !b.drawerInit q.ad || !b.drawerInit q.bd then .bad .chestarg
  else
    match b.counted q.ad, b.counted q.bd with
    | some (_, ta), some (_, tb) =>
      if !q.pair then
        match takeTiles q ta tb with
        | some c => .bad c
        | none => match scaleBad b q ta with | some c => .bad c | none => .ok
      else
        match s.followerOf b with
        | none => .bad .mmaarg
        | some f =>
          match f.counted q.ad, f.counted q.bd with
          | some (_, fa), some (_, fb) =>
            let busy (x : Block) : Bool := match x.tiles[q.z]? with | some t => !t.ops.isEmpty | none => true
            if busy b || busy f then .wait
            else
              match takeTiles q ta tb with
              | some c => .bad c
              | none =>
                match takeTiles q fa fb with
                | some c => .bad c
                | none =>
                  match (if scaleBad b q ta = none then scaleBad b q fa else scaleBad b q ta) with
                  | some c => .bad c
                  | none => .ok
          | _, _ => .wait
    | _, _ => if q.pair && (s.followerOf b).isNone then .bad .mmaarg else .wait

/-- A block whose tiles at the consumer pointers of two drawers are taken (R310). -/
def Block.hold (b : Block) (q : MmaReq) : Block :=
  let mark (w : Drawer) : Drawer := { w with ring := updAt (fun x => { x with st := .taken }) w.ring w.cons }
  { b with drawers := updAt mark (updAt mark b.drawers q.ad) q.bd }

/-- A block whose consumer pointers have passed the tiles taken. -/
def Block.pass (b : Block) (q : MmaReq) : Block :=
  let go (w : Drawer) : Drawer := { w with cons := (w.cons + 1) % w.ring.length }
  { b with drawers := updAt go (updAt go b.drawers q.ad) q.bd }

/-- An operation placed on a tile of a block (R318). -/
def Block.putOp (b : Block) (z : Nat) (o : TileOp) : Block :=
  { b with tiles := updAt (fun t => { t with ops := t.ops ++ [o] }) b.tiles z }

/-- The consumer pointer of a drawer. -/
def Block.consOf (b : Block) (d : Nat) : Nat := match b.drawers[d]? with | some w => w.cons | none => 0

/-- The tiles of both cores held for a request. -/
def State.holdTiles (s : State) (b : Block) (q : MmaReq) : State :=
  let s1 := s.updBlock b.id fun x => x.hold q
  if q.pair then (match s.followerOf b with | some f => s1.updBlock f.id fun x => x.hold q | none => s1) else s1

/-- The take of an MMA (R315): the tiles are held and passed, the permutation table is bound, and the operation takes its place
in the order of its tile, or of both tiles. -/
def State.placeMma (s : State) (b : Block) (t : Team) (q : MmaReq) : State :=
  match (s.holdTiles b q).newId with
  | (id, s1) =>
    let f := if q.pair then s.followerOf b else none
    let o : TileOp :=
      { id := id, kind := .mma, lead := b.id, team := t.idx, follower := f.map fun x => x.id, zero := q.zero
        dup := q.dup, ad := q.ad, ap := b.consOf q.ad, bd := q.bd, bp := b.consOf q.bd
        fap := (match f with | some x => x.consOf q.ad | none => 0)
        fbp := (match f with | some x => x.consOf q.bd | none => 0)
        m := q.m, n := q.n, k := q.k, scale := q.scale, perm := b.perm, fz := q.fz, addr := 0, bench := none, pc := q.pc
        done := [] }
    let s2 := s1.updBlock b.id fun x => (x.pass q).putOp q.z o
    match f with | some x => s2.updBlock x.id fun x => (x.pass q).putOp q.z o | none => s2

/-- MMA and MMA.z (R315). Of an MMA that MMA_TAKE has just taken only the issue is left. -/
def State.mmaWord (s : State) (h : Hd) (z : BitVec 4) (b : BitVec 6) (p : BitVec 1) (n k : BitVec 2) (u : BitVec 1)
    (zero : Bool) : Out :=
  s.chk (copyRegs b 3) [] false fun bl t =>
    let e := t.opnd b 1
    let q : MmaReq :=
      { z := z.toNat, zero := zero, dup := u = 1#1, pair := p = 1#1, nc := n.toNat, ki := k.toNat
        ad := natBits (t.opnd b 0) 0 4, bd := natBits (t.opnd b 0) 8 4
        m := natBits e 0 16, n := natBits e 16 16, k := natBits e 32 16, scale := t.opnd b 2 % 2 ^ 32
        fz := natBits t.fpmode.toNat 2 2, pc := s.cur.addr, first := s.cur.first }
    if bl.tiles.length ≤ q.z then .next (s.trap .illreg)
    else if q.pair && (s.followerOf bl).isNone then .next (s.trap .mmaarg)
    else if (if q.pair then 64 else 32) < q.m || nOf q.nc < q.n then .next (s.trap .mmaarg)
    else if q.ad = q.bd then .next (s.trap .mmaarg)
    else if t.granted && t.want = .mma q then .next ({ s with due := none }.issue h false id)
    else
      match s.takeChk bl q with
      | .bad c => .next (s.trap c)
      | .wait => .next (s.parkFor .drawer (.mma q))
      | .ok => .next ((s.placeMma bl t q).issue h false id)

def execMma (h : Hd) (z : BitVec 4) (b : BitVec 6) (p : BitVec 1) (n k : BitVec 2) (u : BitVec 1) (s : State) : Out :=
  s.mmaWord h z b p n k u false
def execMmaZ (h : Hd) (z : BitVec 4) (b : BitVec 6) (p : BitVec 1) (n k : BitVec 2) (u : BitVec 1) (s : State) : Out :=
  s.mmaWord h z b p n k u true

/-- MMA_TAKE (R315): a parked MMA is taken once its tiles are counted and have passed their checks; a failing check traps at
the MMA. The chain of the MMA issues at the take (R88): it is due in the same step. A team of a stopped block is tested again
when the block resumes (R444). -/
def execMmaTake (r : TRef) (s : State) : Out :=
  match s.team? r with
  | none => .next s
  | some (b, t) =>
    match t.want with
    | .mma q =>
      if t.granted || t.ended || t.trap.isSome || !b.live then .next s
      else
        match s.takeChk b q with
        | .wait => .next s
        | .bad c =>
          .next (s.raise r { cause := c, info := 0, pc := q.pc, resume := q.first, lanes := [], extn := none
                             misrec := 0#64 })
        | .ok =>
          let s1 := (s.placeMma b t q).updTeam r fun u => { u with granted := true }
          .next { s1 with due := some r }
    | _ => .next s

/-! ### The other tile words (R292, R317, R324, R325) -/

/-- The bench in the second operand register, if any. -/
def State.tileBench (s : State) (b : Block) (v : Nat) : Except Cause (Option (Nat × Nat)) := s.benchReg b v

/-- A tile operation placed by a word (R318). -/
def State.placeOp (s : State) (h : Hd) (b : Block) (t : Team) (z : Nat) (pair : Bool) (kind : TileKind) (addr : Nat)
    (bench : Option (Nat × Nat)) : State :=
  match s.newId with
  | (id, s1) =>
    let f := if pair then s.followerOf b else none
    let o : TileOp :=
      { id := id, kind := kind, lead := b.id, team := t.idx, follower := f.map fun x => x.id, zero := false, dup := false
        ad := 0, ap := 0, bd := 0, bp := 0, fap := 0, fbp := 0, m := 0, n := 0, k := 0, scale := 0, perm := none, fz := 0
        addr := addr, bench := bench, pc := s.cur.addr, done := [] }
    let s2 := s1.updBlock b.id fun x => x.putOp z o
    let s3 := match f with | some x => s2.updBlock x.id fun x => x.putOp z o | none => s2
    s3.issue h false fun u => u

/-- The checks that MLOAD and MDRAIN share (R317, R325). -/
def State.tileMove (s : State) (h : Hd) (z : BitVec 4) (b : BitVec 6) (p : BitVec 1) (kind : TileKind) : Out :=
  s.chk (copyRegs b 2) [] false fun bl t =>
    let a := t.opnd b 0 % 2 ^ 32
    if bl.tiles.length ≤ z.toNat then .next (s.trap .illreg)
    else if p = 1#1 && (s.followerOf bl).isNone then .next (s.trap .mmaarg)
    else if a % 16 ≠ 0 then .next (s.trap .align)
    else if !bl.ownRange a (if p = 1#1 then 8192 else 4096) then .next (s.trap .sprange)
    else
      s.withChk (s.tileBench bl (t.opnd b 1)) fun bench => .next (s.placeOp h bl t z.toNat (p = 1#1) kind a bench)

def execMzero (h : Hd) (z : BitVec 4) (p : BitVec 1) (s : State) : Out :=
  s.chk [] [] false fun bl t =>
    if bl.tiles.length ≤ z.toNat then .next (s.trap .illreg)
    else if p = 1#1 && (s.followerOf bl).isNone then .next (s.trap .mmaarg)
    else .next (s.placeOp h bl t z.toNat (p = 1#1) .mzero 0 none)

def execMload (h : Hd) (z : BitVec 4) (b : BitVec 6) (p : BitVec 1) (s : State) : Out := s.tileMove h z b p .mload
def execMdrain (h : Hd) (z : BitVec 4) (b : BitVec 6) (p : BitVec 1) (s : State) : Out := s.tileMove h z b p .mdrain

/-- A scoreboarded result that is ready at once. -/
def State.scoreNow (s : State) (h : Hd) (d : BitVec 6) (v : Dword) (switch : Bool := false) : State :=
  match s.newId with
  | (id, s1) => s1.issue h switch fun u => u.addPend id [.w d.toNat] (some [.w d.toNat v]) false

/-- The status word of a tile (R324). -/
def Tile.stat (t : Tile) : Nat :=
  min t.ops.length 255 + (if t.dupst then 2 ^ 9 else 0) + (if t.mismatch then 2 ^ 10 else 0)
    + (if t.permr then 2 ^ 11 else 0) + t.retired % 2 ^ 16 * 2 ^ 16

/-- MSTAT (R324); CLR clears PERMR after the read. -/
def execMstat (h : Hd) (d : BitVec 6) (z : BitVec 4) (l : BitVec 1) (s : State) : Out :=
  s.chk [] [.w d.toNat] true fun b _ =>
    match b.tiles[z.toNat]? with
    | none => .next (s.trap .illreg)
    | some t =>
      let s1 := if l = 1#1 then
          s.updBlock b.id fun x => { x with tiles := updAt (fun t => { t with permr := false }) x.tiles z.toNat }
        else s
      .next (s1.scoreNow h d (BitVec.ofNat 64 t.stat))

/-- MPERM (R291, R321): a COUNT of 0 removes the table. -/
def execMperm (h : Hd) (b : BitVec 6) (s : State) : Out :=
  s.chk [.w b.toNat] [] false fun bl t =>
    let a := t.opnd b 0 % 2 ^ 32
    let n := natBits (t.opnd b 0) 32 16
    if a % 2 ≠ 0 then .next (s.trap .align)
    else if !bl.ownRange a (2 * n) then .next (s.trap .sprange)
    else
      .next ((s.updBlock bl.id fun x => { x with perm := if n = 0 then none else some (a, n) }).issue h false fun u => u)

/-! ### Performing tile operations (R318 to R323) -/

/-- What an array of a block reads for an MMA, `lead` being the leader's block and `r0` the array's first row. -/
def arrayOf (lead x : Block) (o : TileOp) (ap bp r0 : Nat) (old : Nat → Bool) : Option Array :=
  match x.drawers[o.ad]?, x.drawers[o.bd]? with
  | some wa, some wb =>
    match wa.ring[ap]?, wb.ring[bp]? with
    | some ta, some tb =>
      some { blk := x, wa := wa, ta := ta, ap := ap, wb := wb, tb := tb, bp := bp, row0 := r0, k := o.k
             scale := fun i => lead.cacheHalf (old (o.scale + 2 * i)) (o.scale + 2 * i)
             perm := fun k => match o.perm with
               | some (a, n) => if k < n then lead.cacheHalf (old (a + 2 * k)) (a + 2 * k) else k
               | none => k
             fz := o.fz }
    | _, _ => none
  | _, _ => none

/-- The mismatch record (R322). -/
def misrecOf (core z aslot bslot row col : Nat) : Dword :=
  BitVec.ofNat 64 (col % 32 * 2 ^ 29 + row % 64 * 2 ^ 34 + bslot % 32 * 2 ^ 40 + aslot % 32 * 2 ^ 45 + z % 16 * 2 ^ 50
    + core % 1024 * 2 ^ 54)

/-- One core's tile after an MMA: the cells, RETIRED, PERMR, DUPST, and the first mismatch (R315, R321, R322, R324).
`err` is the first cell at which the second copy differs. -/
def Tile.mma (t : Tile) (x : Array) (o : TileOp) (z m : Nat) (err : Option (Nat × Nat)) : Tile :=
  let bad := match err with | some (i, j) => o.dup && decide (i < m) && decide (j < o.n) | none => false
  let cell := err.getD (0, 0)
  { t with bytes := x.run o.zero m o.n t.bytes
           retired := (t.retired + 1) % 2 ^ 16
           permr := t.permr || (o.perm.isSome && x.permOut && decide (0 < m) && decide (0 < o.n))
           dupst := t.dupst || o.dup
           mismatch := t.mismatch || bad
           misrec := if bad && !t.mismatch then
               misrecOf x.blk.core z (x.wa.slotOf x.ap 0) (x.wb.slotOf x.bp 0) (x.row0 + cell.1) cell.2
             else t.misrec
           ops := t.ops.drop 1 }

/-- A block whose two tiles have been read: they are free again (R310). -/
def Block.release (b : Block) (o : TileOp) (ap bp : Nat) : Block :=
  let free (p : Nat) (w : Drawer) : Drawer := { w with ring := updAt (fun x => { x with st := .free }) w.ring p }
  { b with drawers := updAt (free bp) (updAt (free ap) b.drawers o.ad) o.bd }

/-- One core's part of an MMA performed: `m` rows from `r0`. -/
def State.mmaPart (s : State) (lead : Block) (o : TileOp) (z x ap bp r0 m : Nat) (old : Nat → Bool) : State :=
  match s.block? x with
  | none => s
  | some b =>
    match arrayOf lead b o ap bp r0 old with
    | none => s
    | some a =>
      let err := if o.dup then Config.arrayError s.free else none
      let s1 := { s with free := if o.dup then s.free + 1 else s.free }
      s1.updBlock x fun y =>
        { (y.release o ap bp) with tiles := updAt (fun t => t.mma a o z m err) y.tiles z }

/-- A tile without its first operation, changed otherwise by `f`. -/
def State.tileDone (s : State) (x z : Nat) (f : Tile → Tile) : State :=
  s.updBlock x fun y => { y with tiles := updAt (fun t => { (f t) with ops := t.ops.drop 1 }) y.tiles z }

/-- The team that issued a drain which found MISMATCH takes MMAMIS at its next run boundary (R323). -/
def State.misTrap (s : State) (o : TileOp) (rec : Dword) : State :=
  s.updTeam ⟨o.lead, o.team⟩ fun t =>
    t.later { cause := .mmamis, info := 0, pc := o.pc, resume := o.pc, lanes := [], extn := none, misrec := rec }

/-- A tile with the marks of redundant mode cleared. -/
def Tile.clear (t : Tile) : Tile := { t with mismatch := false, dupst := false }

/-- The blocks whose tiles an operation works on, with their first row. -/
def TileOp.cores (o : TileOp) : List (Nat × Nat) :=
  (o.lead, 0) :: (match o.follower with | some f => [(f, 32)] | none => [])

/-- The granules that an MDRAIN or MLOAD moves: 256 for each core (R258). -/
def TileOp.granules (o : TileOp) : Nat := 256 * o.cores.length

/-- The core of a granule, and its place in that core's tile. -/
def TileOp.granuleAt (o : TileOp) (g : Nat) : Nat × Nat := ((o.cores.getD (g / 256) (o.lead, 0)).1, 16 * (g % 256))

/-- Whether an MDRAIN finds MISMATCH set on one of its cores (R323), and the record. With both set it is the leader's: the model's
choice, for R323 does not say which core's record the frame has (log entry 126). -/
def State.drainBad (s : State) (o : TileOp) (z : Nat) : Option Dword :=
  (o.cores.filterMap fun c =>
    match s.block? c.1 with
    | some b => (match b.tiles[z]? with | some t => if t.mismatch then some t.misrec else none | none => none)
    | none => none).head?

/-- An operation of every tile that it works on changed. -/
def State.updOp (s : State) (o : TileOp) (z : Nat) (f : TileOp → TileOp) : State :=
  o.cores.foldl (fun s c => s.updBlock c.1 fun b =>
    { b with tiles := updAt (fun t => { t with ops := updWhere (fun p => p.id == o.id) f t.ops }) b.tiles z }) s

/-- One granule of an MDRAIN written to scratchpad, its full bit set (R193), or one of an MLOAD read (R325). -/
def State.tileGranule (s : State) (o : TileOp) (z g : Nat) : State :=
  match o.granuleAt g with
  | (x, p) =>
    let a := o.addr + 16 * g
    if o.kind = .mdrain then
      let bs := match s.block? x with
        | some b => (match b.tiles[z]? with | some t => t.bytes.bytes p 16 | none => List.replicate 16 0#8)
        | none => List.replicate 16 0#8
      (s.spadWr o.lead a bs).updBlock o.lead fun b => { b with full := fullSet b.full [a / 16] }
    else
      let bs := match s.block? o.lead with | some b => b.spad.bytes a 16 | none => List.replicate 16 0#8
      s.updBlock x fun b => { b with tiles := updAt (fun t => { t with bytes := t.bytes.wr p bs }) b.tiles z }

/-- The granules that are left, in order. -/
def State.tileRest (s : State) (o : TileOp) (z : Nat) : State :=
  ((List.range o.granules).filter fun g => !o.done.contains g).foldl (fun s g => s.tileGranule o z g) s

/-- A tile operation performed (R318): it heads the order of every tile it works on. An MMA is performed whole, in one move, so that it
reads each slot as it stands between two window writes: the model's choice, for R319 lets it find some bytes of a write old and
others new (log entry 127). -/
def State.perform (s : State) (lead : Block) (o : TileOp) (z : Nat) : State :=
  let post (s : State) : State := match o.bench with | some (x, f) => s.post x f 0 (16 * o.granules) | none => s
  match o.kind with
  | .mma =>
    let seed := Config.freeChoice s.free
    let old (a : Nat) : Bool := seed.testBit a
    let fill (b : Block) : Block :=
      let b1 := match o.perm with | some (a, n) => b.cacheFill a (2 * min n o.k) | none => b
      b1.cacheFill o.scale (2 * (ceilDiv o.k 64 * o.m))
    let q4 := match lead.drawers[o.ad]? with
      | some w => (match w.ring[o.ap]? with | some x => decide (x.fmt = fmtQ4x) | none => false)
      | none => false
    let s0 := { s with free := s.free + 1 }
    let s1 := s0.mmaPart lead o z o.lead o.ap o.bp 0 (min o.m 32) old
    let s2 := match o.follower with
      | some f => s1.mmaPart lead o z f o.fap o.fbp 32 (o.m - 32) old
      | none => s1
    s2.updBlock o.lead fun b =>
      if q4 then fill b else match o.perm with | some (a, n) => b.cacheFill a (2 * min n o.k) | none => b
  | .mzero => o.cores.foldl (fun s c => s.tileDone c.1 z fun t => { t.clear with bytes := [] }) s
  | .mload => post (o.cores.foldl (fun s c => s.tileDone c.1 z Tile.clear) (s.tileRest o z))
  | .mdrain =>
    match s.drainBad o z with
    | some m => (o.cores.foldl (fun s c => s.tileDone c.1 z Tile.clear) s).misTrap o m
    | none => post (o.cores.foldl (fun s c => s.tileDone c.1 z id) (s.tileRest o z))

/-- The MMAs placed on a core's tiles, by identity (R318). -/
def State.coreMmas (s : State) (core : Nat) : List Nat :=
  (s.blocks.filter fun b => b.core = core && b.place = .resident).flatMap fun b =>
    b.tiles.flatMap fun t => (t.ops.filter fun o => o.kind = .mma).map fun o => o.id

/-- Whether an operation may be performed: it heads the order of each of its tiles, an MMA is the first that its arrays have
taken (R318), and an MLOAD comes after the team's earlier scratchpad accesses (R325). -/
def State.mayPerform (s : State) (o : TileOp) (z : Nat) : Bool :=
  (o.cores.all fun c => match s.block? c.1 with
    | none => false
    | some b =>
      (match b.tiles[z]? with
       | some t => (match t.ops with | p :: _ => p.id = o.id | [] => false)
       | none => false)
      && (o.kind != .mma || (s.coreMmas b.core).all fun i => decide (o.id ≤ i)))
    && (o.kind != .mload || match s.team? ⟨o.lead, o.team⟩ with
      | some (_, t) => !t.ops.any fun p => p.sp && decide (p.id < o.id)
      | none => true)

/-- The first operation on a tile of a block, where it may be performed, with its leader. -/
def State.tileHead (s : State) (b z : Nat) : Option (Block × TileOp) :=
  match s.block? b with
  | none => none
  | some x =>
    match x.tiles[z]? with
    | none => none
    | some t =>
      match t.ops.head? with
      | none => none
      | some o =>
        match s.block? o.lead with
        | some lead => if s.mayPerform o z then some (lead, o) else none
        | none => none

/-- One granule of the MDRAIN or MLOAD that heads a tile's order, at a moment of its own (R258). -/
def State.granule (s : State) (b z g : Nat) : State :=
  match s.tileHead b z with
  | some (_, o) =>
    if !(o.kind = .mload || (o.kind = .mdrain && (s.drainBad o z).isNone)) || o.granules ≤ g || o.done.contains g then s
    else (s.tileGranule o z g).updOp o z fun p => { p with done := g :: p.done }
  | none => s

/-- TILE_OP_PERFORM (R318): the first operation on a tile is performed, where nothing comes before it; of an MDRAIN or MLOAD the
granules that are left. -/
def execTileOpPerform (b : Nat) (z : BitVec 4) (s : State) : Out :=
  match s.tileHead b z.toNat with
  | some (lead, o) => .next (s.perform lead o z.toNat)
  | none => .next s

/-! ### Chest slots and drawers (R287, R306 to R313) -/

/-- Whether a block holds entries of its core: it is there, or on its way onto it. -/
def Block.onIt (b : Block) : Bool := b.place = .resident || b.place = .moving

/-- Physical slots of a core that no block holds. -/
def State.freeSlots (s : State) (core : Nat) : List Nat :=
  let used := (s.blocks.filter fun b => b.core = core && b.onIt).flatMap fun b =>
    b.chest.filterMap fun c => c.phys
  (List.range 32).filter fun p => !used.contains p

/-- Whether a slot index is neither held nor claimed. -/
def Block.idxFree (b : Block) (i : Nat) : Bool := !b.chest.any fun c => c.idx == i
/-- Whether a slot index is held. -/
def Block.idxHeld (b : Block) (i : Nat) : Bool := b.chest.any fun c => c.idx == i && c.phys.isSome

/-- CCLAIM (R308): the lowest indices are claimed; the team continues. -/
def execCclaim (h : Hd) (d b : BitVec 6) (s : State) : Out :=
  s.chk [.w b.toNat] [.w d.toNat] true fun bl t =>
    let n := natBits (t.rw b).toNat 0 6
    if n = 0 || 32 < n then .next (s.trap .chestarg)
    else
      match findFrom (fun f => (List.range n).all fun i => bl.idxFree (f + i)) 0 (33 - n) with
      | none => .next (s.trap .chestarg)
      | some f =>
        match s.newId with
        | (id, s1) =>
          let s2 := s1.updBlock bl.id fun x =>
            { x with chest := x.chest ++ (List.range n).map fun i => { idx := f + i, phys := none, bytes := [] }
                     claims := x.claims ++ [(t.idx, id, f, n)] }
          .next (s2.issue h false fun u => u.addPend id [.w d.toNat] none false)

/-- The register that a pending result of a team writes. -/
def Team.pendW (t : Team) (id : Nat) : Nat :=
  match t.pend.find? fun p => p.id == id with
  | some p => (match p.regs with | .w r :: _ => r | _ => 0)
  | none => 0

/-- CCLAIM_GRANT (R308): the oldest claim of the core, where this block's heads its list, is granted once that many
physical slots are free: they are bound, zeroed, and the handle is ready. -/
def execCclaimGrant (b : Nat) (s : State) : Out :=
  match s.block? b with
  | none => .next s
  | some x =>
    match x.claims with
    | [] => .next s
    | (ti, id, f, n) :: rest =>
      let oldest := s.blocks.all fun y =>
        y.core != x.core || y.place != .resident || y.claims.all fun c => decide (id ≤ c.2.1)
      let free := s.freeSlots x.core
      if !oldest || free.length < n || x.place != .resident then .next s
      else
        let bind (c : Chest) : Chest :=
          if f ≤ c.idx && c.idx < f + n then { c with phys := some (free.getD (c.idx - f) 0), bytes := [] } else c
        let s1 := s.updBlock b fun y => { y with chest := y.chest.map bind, claims := rest }
        .next (s1.updTeam ⟨b, ti⟩ fun t => t.answer id [.w (t.pendW id) (BitVec.ofNat 64 (f + 256 * n))])

/-- Whether a drawer lies over some of the indices `f` up to `f + n`. -/
def Drawer.overlaps (w : Drawer) (f n : Nat) : Bool := w.init && decide (w.first < f + n) && decide (f < w.first + w.count)

/-- Whether a drawer has a tile that a copy is filling or an MMA has taken. -/
def Drawer.busy (w : Drawer) : Bool := w.ring.any fun t => t.st = .filling || t.st = .taken

/-- An uninitialised drawer. -/
def Drawer.none : Drawer := { init := false, first := 0, count := 0, size := 0, ring := [], prod := 0, cons := 0 }

/-- A place in a block's allocation of units of `n` bytes, in its core's array. -/
def physAt (n : Nat) (units : List Nat) (a : Nat) : Nat := n * units.getD (a / n) 0 + a % n

/-- What an array of a core holds once a block has left some of its units of `n` bytes: there the block's bytes. -/
def leaveIn (n : Nat) (units : List Nat) (own : Memory) (m : Memory) : Memory :=
  own.foldl (fun m c => m.wr (physAt n units c.1) [c.2]) (m.filter fun c => !units.contains (c.1 / n))

/-- The slots of a core once a block has left some of its own: those that were bound keep their contents (R192). -/
def leaveSlots (own : List Chest) (m : Memory) : Memory :=
  (own.filterMap fun q => q.phys.map fun p => (p, q.bytes)).foldl (fun m q => leaveIn 4096 [q.1] q.2 m) m

/-- Some slots of a block returned to its core, whose array keeps their contents (R192, R309). -/
def State.leaveChest (s : State) (b : Block) (out : Chest → Bool) : State :=
  (s.updCore b.core fun c => { c with chest := leaveSlots (b.chest.filter out) c.chest }).updBlock b.id fun x =>
    { x with chest := x.chest.filter fun c => !out c }

/-- CRELEASE (R309). -/
def execCrelease (h : Hd) (b : BitVec 6) (s : State) : Out :=
  s.chk [.w b.toNat] [] false fun bl t =>
    let f := natBits (t.rw b).toNat 0 5
    let n := natBits (t.rw b).toNat 8 6
    if n = 0 || 32 < f + n || !(List.range n).all fun i => bl.idxHeld (f + i) then .next (s.trap .chestarg)
    else if bl.drawers.any fun w => w.overlaps f n && w.busy then .next (s.park .drawer)
    else
      let s1 := s.leaveChest bl fun c => decide (f ≤ c.idx) && decide (c.idx < f + n)
      .next ((s1.updBlock bl.id fun x =>
        { x with drawers := x.drawers.map fun w => if w.overlaps f n then Drawer.none else w }).issue h false fun u => u)

/-- A free tile of a drawer. -/
def DTile.zero : DTile := { st := .free, fmt := 0, t0 := 0, t1 := 0, t2 := 0, bits := none }

/-- DINIT (R287, R312). Of a drawer that is initialised and busy, the checks are made before the wait: the model's choice, for R312 gives
the two no order (log entry 128). -/
def execDinit (h : Hd) (n : BitVec 4) (b : BitVec 6) (s : State) : Out :=
  s.chk [.w b.toNat] [] false fun bl t =>
    let v := (t.rw b).toNat
    let f := natBits v 0 5
    let c := natBits v 8 6
    let z := natBits v 16 4
    let clash := bl.drawers.zipIdx.any fun p => p.2 != n.toNat && p.1.overlaps f c
    if c = 0 || z = 0 || 8 < z || c % z ≠ 0 || 32 < f + c || !((List.range c).all fun i => bl.idxHeld (f + i)) || clash then
      .next (s.trap .chestarg)
    else if bl.drawers.zipIdx.any fun p => p.2 = n.toNat && p.1.busy then .next (s.park .drawer)
    else
      let w : Drawer := { init := true, first := f, count := c, size := z, ring := List.replicate (c / z) DTile.zero
                          prod := 0, cons := 0 }
      .next ((s.updBlock bl.id fun x => { x with drawers := x.drawers.set n.toNat w }).issue h false fun u => u)

/-- The tiles of a drawer in a state. -/
def Drawer.tally (w : Drawer) (st : DTileSt) : Nat := (w.ring.filter fun t => t.st = st).length

/-- The snapshot of a drawer (R313): zero for an uninitialised one. -/
def Drawer.stat (w : Drawer) : Nat :=
  if w.init then
    w.ring.length + w.tally .counted * 2 ^ 8 + w.tally .filling * 2 ^ 16 + w.tally .taken * 2 ^ 24 + w.prod * 2 ^ 32
      + w.cons * 2 ^ 40
  else 0

def execDstat (h : Hd) (d : BitVec 6) (n : BitVec 4) (s : State) : Out :=
  s.chk [] [.w d.toNat] true fun b _ =>
    .next (s.scoreNow h d (BitVec.ofNat 64 ((b.drawers.getD n.toNat Drawer.none).stat)))

end Sys2Proof.Machine
end

