-- ==== Sys2Proof/Machine/Place.lean ====
section
/-! DEFINITION. Blocks at their start (R31, R32), what fits a core (R48), the placement scan (R49 to R51, R137, R341, R351,
R359), and the donation of held dispatches (R363 to R365, R418). -/

namespace Sys2Proof.Machine

/-! ### The start of a block (R31, R32, R341, R351) -/

/-- A drawer without slots. -/
def drawerZero : Drawer := { init := false, first := 0, count := 0, size := 0, ring := [], prod := 0, cons := 0 }

/-- A team at its start (R32): `ws` are the values of the first uniform registers. -/
def Team.start (idx slot lanes regs : Nat) (role : BitVec 4) (pc : BitVec 56) (ws : List Dword) : Team :=
  { idx := idx, slot := slot, lanes := lanes, role := role, pc := pc
    w := ws.take 64 ++ List.replicate (64 - ws.length) 0#64
    v := List.replicate regs (List.replicate lanes 0#32), m := maskAll lanes :: List.replicate 7 0#1024
    x := List.replicate 8 XReg.invalid, stack := [], status := 0#64, fpmode := 0#64, trapcause := 0#64, trappc := 0#64
    ended := false, handler := none, trap := none, frame := none, defer := none, defers := [], run := Run.fresh
    pend := [], ops := [], wait := none, want := .none, granted := false, spin := Spin.zero, word := pc, sample := false
    nohit := false, retired := none, reason := .pipe, parked := false, issued := false, counted := false, xinv := none, code := 0 }

/-- A tile at its start (R307). -/
def Tile.zero (phys : Nat) : Tile :=
  { phys := phys, bytes := [], retired := 0, permr := false, mismatch := false, dupst := false, misrec := 0#64, ops := [] }

/-- The numbers below `n` that a list does not hold. -/
def freeOf (n : Nat) (used : List Nat) : List Nat := (List.range n).filter fun i => !used.contains i

/-- The blocks that hold entries of a core; a Bureau's block is on none (R367). -/
def State.onCore (s : State) (core : Nat) : List Block :=
  s.blocks.filter fun b => b.core = core && b.onIt && b.bureau.isNone

/-- Team slots in use on a core. -/
def State.usedSlots (s : State) (core : Nat) : List Nat := (s.onCore core).flatMap fun b => b.teams.map fun t => t.slot
/-- Scratchpad pages of 1 KiB in use on a core. -/
def State.usedPages (s : State) (core : Nat) : List Nat := (s.onCore core).flatMap fun b => b.pages
/-- Accumulator tiles in use on a core. -/
def State.usedTiles (s : State) (core : Nat) : List Nat := (s.onCore core).flatMap fun b => b.tiles.map fun t => t.phys

/-- The bytes of vector registers of a block (R36). -/
def Block.regBytes (b : Block) : Nat := 128 * b.wm * 8 * b.slabs
/-- The bytes of vector registers that a shape needs (R48). -/
def Shape.regBytes (p : Shape) : Nat := p.teams * (128 * p.wm * p.regs)

/-- What a core has free (R48, R418). -/
def State.coreFree (s : State) (core : Nat) : CoreFree :=
  { tag := (match entry? s.parts core with | some p => if p.getLsbD 12 then some (p.extractLsb' 0 12) else none | none => none)
    teams := 16 - (s.usedSlots core).length
    regs := 262144 - ((s.onCore core).map fun b => b.regBytes).foldl (· + ·) 0
    spad := 262144 - 1024 * (s.usedPages core).length
    slots := (s.freeSlots core).length
    tiles := 16 - (s.usedTiles core).length }

/-- Whether a shape fits what a core has free (R48). -/
def CoreFree.fits (c : CoreFree) (p : Shape) : Bool :=
  p.teams ≤ c.teams && p.regBytes ≤ c.regs && 1024 * p.spad ≤ c.spad && p.slots ≤ c.slots && p.tiles ≤ c.tiles

/-- Whether a block fits on a core (R48); a core with blocks of a context that does not own it takes none (R396). -/
def State.fits (s : State) (tag : BitVec 12) (p : Shape) (core : Nat) : Bool :=
  s.coreIn tag core && ((s.onCore core).all fun b => b.tag == tag) && (s.coreFree core).fits p

/-- What an empty core offers (R44). -/
def CoreFree.empty : CoreFree := { tag := none, teams := 16, regs := 262144, spad := 262144, slots := 32, tiles := 16 }

/-- Whether a core is of a context's partition, whatever a Dusk names (R44, R458). -/
def State.inPart (s : State) (tag : BitVec 12) (core : Nat) : Bool := (s.coreFree core).tag == some tag

/-- The role of a team (R35). -/
def Shape.roleOf (p : Shape) (t : Nat) : BitVec 4 := p.role.extractLsb' (4 * t) 4

/-- The bytes of dwords, one after another. -/
def dwordBytes (l : List Dword) : List Byte := l.flatMap fun d => natBytes 8 d.toNat

/-- A block placed on a core (R32, R306, R307): team slots, scratchpad pages, Chest slots and tiles are the lowest free
ones (log entry 4). -/
def State.startBlock (s : State) (d : Dispatch) (id core idx : Nat) (partner : Option (Nat × Bool)) : State :=
  let p := d.shape
  let lanes := 32 * p.wm
  let slots := freeOf 16 (s.usedSlots core)
  let tiles := freeOf 16 (s.usedTiles core)
  let chest := s.freeSlots core
  let ts := (List.range p.teams).map fun t => Team.start t (slots.getD t 0) lanes p.regs (p.roleOf t) p.entry d.args
  let recs := dwordBytes d.records
  let b : Block :=
    { id := id, core := core, place := .resident, tag := d.tag, bureau := none, slot := d.slot
      block := (match d.kind with | .flat => BitVec.ofNat 32 idx | .node => BitVec.ofNat 32 (d.node.getD 0) | _ => 0#32)
      index := (match d.kind with | .flat => idx | .bin => d.num | _ => 0)
      node := d.node, tree := d.tree, entry := p.entry, wm := p.wm, teams := ts
      spadSize := 1024 * p.spad, spad := cellsFrom d.rspad recs
      full := if recs.isEmpty then [] else granulesOf d.rspad recs.length
      pages := (freeOf 256 (s.usedPages core)).take p.spad
      chest := (List.range p.slots).map fun i => { idx := i, phys := some (chest.getD i 0), bytes := [] }
      claims := [], drawers := List.replicate 16 drawerZero
      tiles := (List.range p.tiles).map fun i => Tile.zero (tiles.getD i 0)
      perm := none, ocache := [], pool := 0, slabs := p.teams * (p.regs / 8), rclaims := [], barArr := [], barPhase := 0
      group := none, partner := partner, future := d.future, pcount := 0, holds := [], regions := d.regions
      reclaim := false, cancelled := false, fault := none, stopped := false, stopping := none, stopTime := 0, resuming := false, halt := false }
  { s with blocks := s.blocks ++ [b] }

/-! ### Entries that a block leaves (R152, R192) -/

/-- The entries that a block leaves keep their contents: scratchpad with its full bits, Chest slots and tiles. -/
def State.leave (s : State) (b : Block) : State :=
  if b.bureau.isSome || !b.onIt then s
  else
    s.updCore b.core fun c =>
      { c with spad := leaveIn 1024 b.pages b.spad c.spad
               full := fullSet (c.full.filter fun g => !b.pages.contains (g / 64)) (b.full.map (physAt 64 b.pages))
               chest := leaveSlots b.chest c.chest
               tiles := b.tiles.foldl (fun m z => leaveIn 4096 [z.phys] z.bytes m) c.tiles }

/-! ### Blocks that move (R57, R58, R399, R400) -/

/-- Whether two blocks move as one: they are a pair, or members of one sharing group (R58). -/
def Block.tied (a b : Block) : Bool :=
  (match a.partner with | some (x, _) => x == b.id | none => false)
    || (match a.group, b.group with
        | some g, some h => g.key == h.key && a.tag == b.tag && coreCluster a.core == coreCluster b.core
        | _, _ => false)

/-- Blocks with all that are tied to one of them, to any depth, among `all`. -/
def tiedUp (all : List Block) : Nat → List Nat → List Nat
  | 0, ids => ids
  | fuel + 1, ids =>
    let more := all.filter fun b => !ids.contains b.id && all.any fun a => ids.contains a.id && (a.tied b || b.tied a)
    if more.isEmpty then ids else tiedUp all fuel (ids ++ more.map fun b => b.id)

/-- The blocks of a context that Dusk has saved, lowest core first and in it lowest team slot (R399). -/
def State.savedOf (s : State) (tag : BitVec 12) : List Block :=
  let key (b : Block) : Nat := b.core * 16 + (match b.teams with | t :: _ => t.slot | [] => 0)
  (s.blocks.filter fun b => b.tag == tag && b.bureau.isNone && b.place = .saved).foldl (fun l b =>
    l.takeWhile (fun x => decide (key x ≤ key b)) ++ [b] ++ l.dropWhile fun x => decide (key x ≤ key b)) []

/-- Whether the sequencer has begun a word on a core (R395, R396). -/
def State.swapping (s : State) (core : Nat) : Bool := match s.moving with | some m => m.cores.contains core | none => false

/-- Whether a core takes a saved block (R48); none that the sequencer is exchanging or vacating (R396). -/
def State.takes (s : State) (b : Block) (core : Nat) : Bool :=
  let c := s.coreFree core
  s.coreIn b.tag core && !s.swapping core && ((s.onCore core).all fun x => x.tag == b.tag) && decide (b.teams.length ≤ c.teams)
    && decide (b.regBytes ≤ c.regs) && decide (1024 * b.pages.length ≤ c.spad)
    && decide ((b.chest.filter fun q => q.phys.isSome).length ≤ c.slots) && decide (b.tiles.length ≤ c.tiles)

/-- Places given to Chest slots that are bound, in order. -/
def rebind : List Chest → List Nat → List Chest
  | [], _ => []
  | q :: qs, free =>
    match q.phys, free with
    | some _, p :: ps => { q with phys := some p } :: rebind qs ps
    | _, _ => q :: rebind qs free

/-- A saved block on its way onto a core: team slots, pages, slots and tiles there are the lowest free ones (log entry 4). -/
def State.resumeAt (s : State) (b : Block) (core : Nat) : State :=
  let slots := freeOf 16 (s.usedSlots core)
  let tiles := freeOf 16 (s.usedTiles core)
  s.updBlock b.id fun x =>
    { x with core := core, place := .moving
             teams := x.teams.zipIdx.map fun (p : Team × Nat) => { p.1 with slot := slots.getD p.2 0 }
             pages := (freeOf 256 (s.usedPages core)).take x.pages.length
             chest := rebind x.chest (s.freeSlots core)
             tiles := x.tiles.zipIdx.map fun (p : Tile × Nat) => { p.1 with phys := tiles.getD p.2 0 } }

/-- The team's run ends where it stands: its next word begins a new one (R89), once the results are written (R91). -/
def Team.cutRun (t : Team) : Team := { t with run := { t.run with ended := true } }

/-- A block goes on after a halt: its logged entries are retried (R205), each team begins a new run (R89), and its core's operand
cache holds nothing of it (R320). -/
def Block.goOn (b : Block) : Block :=
  { b with place := .resident, halt := false, ocache := []
           teams := b.teams.map fun (t : Team) => { t.cutRun with ops := t.ops.map fun (o : MemOp) => { o with retry := o.logged } } }

/-- The blocks of a unit put on the cores of the `k`-th group of `g` cores, each at its position (R58), if all fit. -/
def State.resumeUnit (s : State) (g k : Nat) : List Block → Option State
  | [] => some s
  | b :: bs =>
    let core := g * k + b.core % g
    if s.takes b core then (s.resumeAt b core).resumeUnit g k bs else none

/-- The cores that move as one for a unit: a cluster for a group and for a pair, whose blocks keep their positions in it (R293; log entry
141), else one. -/
def unitWidth (l : List Block) : Nat := if l.any fun b => b.group.isSome || b.partner.isSome then 4 else 1

/-- The unit of a saved block: those that resume with it. -/
def State.unitOf (s : State) (b : Block) : List Block :=
  let l := s.savedOf b.tag
  let ids := tiedUp l l.length [b.id]
  l.filter fun x => ids.contains x.id

/-- The places where a unit can resume. -/
def State.resumePlaces (s : State) (u : List Block) : List Nat :=
  (List.range (1024 / unitWidth u)).filter fun k => (s.resumeUnit (unitWidth u) k u).isSome

/-- The unit of a context that resumes first: the first in order of those that can (R399). -/
def State.nextResume (s : State) (tag : BitVec 12) : Option (List Block) :=
  ((s.savedOf tag).map fun b => s.unitOf b).find? fun u => !(s.resumePlaces u).isEmpty

/-! ### The placement scan (R49, R137) -/

/-- The cores of a set from a cursor on, with wrap-around. -/
def scanOrder (first count cursor : Nat) : List Nat :=
  ((List.range count).map (first + ·)).filter (cursor ≤ ·) ++ ((List.range count).map (first + ·)).filter (· < cursor)

/-- The cores that the scan of a dispatch tries, in order: its core set, or the cores of the cluster that holds it. -/
def Dispatch.scan (d : Dispatch) : List Nat :=
  match d.held with
  | some k => scanOrder (4 * k) 4 d.cursor
  | none => scanOrder d.first d.count d.cursor

/-- The scan of a dispatch in a state: a tree node held by a cluster of which Dusk has left the context no core is placed over the
cores that remain (R83). -/
def State.scanOf (s : State) (d : Dispatch) : List Nat :=
  if d.kind = .node && !d.scan.any (s.coreIn d.tag) then scanOrder d.first d.count d.cursor else d.scan

/-- The core, or the leader core of a pair, on which the next block of a dispatch fits. -/
def State.findCore (s : State) (d : Dispatch) : Option Nat :=
  if d.pair then
    (s.scanOf d).find? fun c => c % 2 = 0 && c + 1 < d.first + d.count && s.fits d.tag d.shape c && s.fits d.tag d.shape (c + 1)
  else (s.scanOf d).find? fun c => s.fits d.tag d.shape c

/-- The cursor after a placement: next(c), with wrap-around (R49); by pairs for pairs. -/
def Dispatch.next' (d : Dispatch) (c : Nat) : Nat :=
  let n := c + (if d.pair then 2 else 1)
  if n < d.first + d.count then n else d.first

/-- Whether a launch's blocks can never be placed (R44): they exceed an empty core, or the partition has no core in the core
set, or no core pair can meet a pairing request. -/
def State.neverFits (s : State) (d : Dispatch) : Bool :=
  let cores := scanOrder d.first d.count d.first
  !CoreFree.empty.fits d.shape || !(cores.any fun c => s.inPart d.tag c)
    || (d.pair && !(cores.any fun c => c % 2 = 0 && decide (c + 1 < d.first + d.count) && s.inPart d.tag c && s.inPart d.tag (c + 1)))

/-- Whether tasks that a dispatch waits for have not all ended (R344). -/
def State.awaits (s : State) (d : Dispatch) : Bool :=
  d.after.any fun i => (s.dispatches.any fun x => x.id == i) || s.blocks.any fun b => b.id == i

/-- Whether an earlier dispatch of the same bin is not placed (R351). -/
def State.behindBin (s : State) (d : Dispatch) : Bool :=
  d.kind = .bin && s.dispatches.any fun x => x.kind = .bin && x.tag == d.tag && x.slot == d.slot && decide (x.num < d.num)

/-- Whether a ready node of lower index of the same tree launch is not placed (R73). -/
def State.behindNode (s : State) (d : Dispatch) : Bool :=
  d.kind = .node && s.trees.any fun t => d.tree == some t.id && t.nodes.any fun x =>
    decide (x.st = .ready) && decide (x.idx < d.node.getD 0)

/-- Whether a dispatch may be placed at all now (R39, R73, R344, R351, R364); saved blocks come first (R399). -/
def State.mayPlace (s : State) (d : Dispatch) : Bool :=
  !d.flying && (s.nextResume d.tag).isNone && s.phaseReady d.tag d.slot && !s.awaits d && !s.behindBin d && !s.behindNode d

/-- A dispatch with its blocks up to `n` placed: gone once it is whole. -/
def State.putDispatch (s : State) (d : Dispatch) : State :=
  if d.total ≤ d.next then { s with dispatches := s.dispatches.filter fun x => x.id != d.id }
  else { s with dispatches := updWhere (fun x => x.id == d.id) (fun _ => d) s.dispatches }

/-- Whether a core lies in the core set of a dispatch. -/
def Dispatch.inSet (d : Dispatch) (c : Nat) : Bool := decide (d.first ≤ c) && decide (c < d.first + d.count)

/-- The cursor of what follows a dispatch that has been placed on a core: past it (R49). A donated dispatch moves it too where the
core lies in the set (log entry 106). -/
def Dispatch.after' (d : Dispatch) (c : Nat) : Nat := if d.inSet c then d.next' c else d.cursor

/-- The node of a tree launch is running (R71), and the launch's cursor, from which every later scan of its nodes goes on, has passed its
core (R49, R73). -/
def State.nodeRuns (s : State) (d : Dispatch) (cursor : Nat) : State :=
  match d.tree, d.node with
  | some t, some n =>
    { s with dispatches := updWhere (fun x => x.tree == some t) (fun x => { x with cursor := cursor }) s.dispatches
             trees := updWhere (fun x => x.id == t) (fun x =>
        { x with cursor := cursor, nodes := updWhere (fun y => y.idx == n) (fun y => { y with st := .running }) x.nodes }) s.trees }
  | _, _ => s

/-- The blocks of one bin share one cursor (R351): it passes to the bin's later dispatches. -/
def State.binRuns (s : State) (d : Dispatch) (cursor : Nat) : State :=
  if d.kind = .bin then
    { s with dispatches := updWhere (fun x => x.kind = .bin && x.tag == d.tag && x.slot == d.slot && x.held.isNone)
               (fun x => { x with cursor := cursor }) s.dispatches
             dies := s.dies.map fun (e : Die) =>
               { e with bins := updWhere (fun x => x.tag == d.tag && x.slot == d.slot) (fun x => { x with cursor := cursor }) e.bins } }
  else s

/-- The next block or pair of a dispatch placed on a core. A block alone in its dispatch keeps the dispatch's identity. -/
def State.placeAt (s : State) (d : Dispatch) (c : Nat) : State :=
  if d.pair then
    match s.newId with
    | (a, s1) =>
      match s1.newId with
      | (b, s2) =>
        let s3 := (s2.startBlock d a c d.next (some (b, true))).startBlock d b (c + 1) (d.next + 1) (some (a, false))
        s3.putDispatch { d with next := d.next + 2, cursor := d.next' c }
  else
    match (if d.total = 1 then (d.id, s) else s.newId) with
    | (a, s1) =>
      (((s1.startBlock d a c d.next none).nodeRuns d (d.after' c)).binRuns d (d.after' c)).putDispatch
        { d with next := d.next + 1, cursor := d.next' c }

/-- A dispatch that cannot be placed at once is held by the cluster at which its scan parked (R363): that of the first core of its
set from the cursor on. A set with no core that may take it holds nothing; a flat launch waits where it is (R49). -/
def State.parkDispatch (s : State) (d : Dispatch) : Dispatch :=
  if d.kind = .flat || d.held.isSome then d
  else { d with held := (d.scan.find? fun c => s.coreIn d.tag c).map coreCluster }

/-- A launch or task that is never placed (R44, R341): END = 2. A bin's other dispatches and the bin itself go with it. -/
def State.failDispatch (s : State) (d : Dispatch) : State :=
  let s1 := { s with
    dispatches := s.dispatches.filter fun (x : Dispatch) => !(x.tag == d.tag && x.slot == d.slot)
    dies := s.dies.map fun (e : Die) => { e with bins := e.bins.filter fun b => !(b.tag == d.tag && b.slot == d.slot) } }
  (s1.placeFault d.tag d.slot).futEnd d.future .faulted 0#64 0

/-- Whether a launch ends with a placement fault, found before any block of it runs (R44, R341). -/
def State.unplaceable (s : State) (d : Dispatch) : Bool := d.next = 0 && d.num = 0 && d.kind != .node && s.neverFits d

/-- One attempt of the scan: a dispatch that fits no core now waits. -/
def State.tryPlace (s : State) (d : Dispatch) : State :=
  match s.findCore d with
  | some c => s.placeAt d c
  | none => s.putDispatch (s.parkDispatch d)

/-- BLOCK_PLACEMENT (R49): the next unplaced block of a dispatch. -/
def execBlockPlacement (d : Nat) (s : State) : Out :=
  match s.dispatches.find? fun x => x.id == d with
  | some x =>
    if s.unplaceable x then .next (s.failDispatch x) else if s.mayPlace x then .next (s.tryPlace x) else .next s
  | none => .next s

/-! ### Donation (R363 to R365, R418) -/

/-- The place of a cluster's router in the module's grid (R414). -/
def clusterRow (k : Nat) : Nat := k % 64 / 4 / 4 + 4 * (k / 64 / 2)
def clusterCol (k : Nat) : Nat := (match k % 64 / 4 % 4 with | 0 => 0 | 1 => 1 | 2 => 4 | _ => 5) + 6 * (k / 64 % 2)

/-- The clusters of a router. -/
def routerClusters (r c : Nat) : List Nat := (List.range 256).filter fun k => clusterRow k = r && clusterCol k = c

/-- The victims of a cluster in their order (R363): its row after its own column, with wrap-around to the other clusters of its own
router, then its column after its own row. -/
def victims (k : Nat) : List Nat :=
  (((List.range 12).flatMap fun i => routerClusters (clusterRow k) ((clusterCol k + 1 + i) % 12)).filter (· != k))
    ++ (List.range 7).flatMap fun i => routerClusters ((clusterRow k + 1 + i) % 8) (clusterCol k)

/-- Whether a cluster's scheduler is idle (R363). -/
def State.idleCluster (s : State) (k : Nat) : Bool :=
  !(s.dispatches.any fun d => d.held == some k) && (List.range 4).any fun i => 0 < (s.coreFree (4 * k + i)).teams

/-- What a request tells of a core (R418): one that a Dusk names belongs to no partition (R397). -/
def State.describe (s : State) (core : Nat) : CoreFree :=
  if s.dusked.contains core then { s.coreFree core with tag := none } else s.coreFree core

/-- STEAL_REQUEST (R363): at most one is outstanding; the list resumes after the last victim asked. -/
def execStealRequest (c : Nat) (s : State) : Out :=
  if c < 256 && s.idleCluster c && !s.steals.any fun q => q.thief == c then
    let vs := victims c
    let i := ((entry? s.victims c).getD 0) % vs.length
    .next { s with steals := s.steals ++ [{ thief := c, victim := vs.getD i 0
                                            cores := (List.range 4).map fun j => s.describe (4 * c + j) }]
                   victims := entryPut s.victims c ((i + 1) % vs.length) }
  else .next s

/-- Whether a dispatch fits a core of a requester as its request described it (R364). -/
def Steal.takes (q : Steal) (d : Dispatch) : Bool := q.cores.any fun c => c.tag == some d.tag && c.fits d.shape

/-- Held tree nodes in increasing node index, then the rest, oldest first. -/
def orderHeld (l : List Dispatch) : List Dispatch :=
  (l.filter fun d => d.kind = .node).foldr (fun d r =>
    r.filter (fun x => decide (x.node.getD 0 < d.node.getD 0)) ++ [d] ++ r.filter fun x => decide (d.node.getD 0 ≤ x.node.getD 0)) []
    ++ l.filter fun d => d.kind != .node

/-- STEAL_REPLY (R364): the request of a cluster is answered with up to four held dispatches. -/
def execStealReply (c : Nat) (s : State) : Out :=
  match s.steals.find? fun q => q.thief == c with
  | none => .next s
  | some q =>
    let held := s.dispatches.filter fun d => d.held == some q.victim && !d.flying && q.takes d
    let give := ((orderHeld held).take 4).map fun d => d.id
    .next { s with steals := s.steals.filter fun x => x.thief != c
                   dispatches := s.dispatches.map fun (d : Dispatch) =>
                     if give.contains d.id then { d with held := some c, flying := true } else d }

/-- DONATED_DISPATCH_ARRIVAL (R364): the dispatch becomes held by the requester. -/
def execDonatedDispatchArrival (d : Nat) (s : State) : Out :=
  .next { s with dispatches := s.dispatches.map fun (x : Dispatch) =>
            if x.id = d && x.flying then { x with flying := false } else x }

end Sys2Proof.Machine
end

