-- ==== Sys2Proof/Machine/Tree.lean ====
section
/-! DEFINITION. The Hallstand: tree launches (R13 to R24, R62 to R84) and the handover words of class 27 (R142 to R145). -/

namespace Sys2Proof.Machine

/-! ### The record (R62) -/

/-- A field of a tree launch's record. -/
def Tree.fld (t : Tree) (lo n : Nat) : Nat := natBits t.record lo n
def Tree.nodesPtr (t : Tree) : Nat := t.fld 0 56
def Tree.childPtr (t : Tree) : Nat := t.fld 64 56
def Tree.root (t : Tree) : Nat := t.fld 128 24
def Tree.count (t : Tree) : Nat := t.fld 160 25
def Tree.down (t : Tree) : Bool := t.fld 189 1 = 1
def Tree.cap (t : Tree) : Nat := t.fld 192 13
def Tree.rsz (t : Tree) : Nat := t.fld 205 3
def Tree.entryOf (t : Tree) (kind : Nat) : Nat := t.fld (256 + 64 * kind) 48

/-- The role map: ROLE3 to ROLE0. -/
def Tree.role (t : Tree) : Nat :=
  t.fld 304 16 + t.fld 368 16 * 2 ^ 16 + t.fld 432 16 * 2 ^ 32 + t.fld 496 16 * 2 ^ 48

/-- The shape of a node's block. -/
def Tree.shape (t : Tree) (kind teams : Nat) : Shape :=
  { teams := teams, wm := t.fld 155 5 + 1, regs := 8 * (t.fld 152 3 + 1), spad := t.fld 219 9, slots := t.fld 213 6
    tiles := t.fld 208 5, role := BitVec.ofNat 64 t.role, entry := BitVec.ofNat 56 (t.entryOf kind) }

/-- Reserved fields of the record. -/
def Tree.rsvd (t : Tree) : Bool := t.fld 190 2 ≠ 0 || t.fld 185 4 ≠ 0 || t.fld 120 8 ≠ 0 || t.fld 56 8 ≠ 0

/-! ### The census (R67 to R69) -/

/-- A read or write of a unit through a context's page table as it stands (R67, R24): legality as R202 gives it. -/
def State.unitPlace (s : State) (tag : BitVec 12) (need : Need) (n va : Nat) : Verdict :=
  let va := va % 2 ^ 56
  match s.ctx? tag with
  | none => .bad .unmapped
  | some c =>
    if va % n ≠ 0 then .bad .align
    else
      match (s.walk c va).unreserved none va with
      | .unmapped => .bad .unmapped
      | .absent => .absent
      | .page p =>
        let pa := p.frame + (va - p.page)
        if !need.ok p.rd p.wr p.at' then .bad .perm
        else if inWindow (paLocal pa) then .bad .window
        else if s.reachable c (paModule pa) then .pa pa else .bad .noroute

/-- The same, where a write of a module's routing entry holds no part of it (R425); what is held waits as an absent page does. The
alignment and the route are tested of a census report too: the model's choice, for R69 names only a dword that is mapped, outside
every window and permitted, and NODES may be misaligned (log entry 130). -/
def State.unitLegal (s : State) (tag : BitVec 12) (need : Need) (n va : Nat) : Verdict :=
  if s.tableWait tag (va % 2 ^ 56) then .absent
  else
    match s.unitPlace tag need n va with
    | .pa a => if s.held a then .absent else .pa a
    | v => v

/-- Memory as it stands. -/
def State.snap (s : State) : Snap := { mem := s.mem, homes := s.migrations }

/-- What a context reads in memory as it stood at a moment; none where the page was not resident with the permission (R64, R207). -/
def State.snapRd (s : State) (z : Snap) (tag : BitVec 12) (n va : Nat) : Option Nat :=
  let q : State := { s with mem := z.mem, migrations := z.homes }
  match q.unitPlace tag .rd n va with
  | .pa a => some (q.pmRd a n)
  | _ => none

/-- Whether the page of an address is absent for a context. -/
def State.pageGone (s : State) (tag : BitVec 12) (va : Nat) : Bool :=
  match s.ctx? tag with | some c => decide (s.walk c va = .absent) | none => false

/-- The 64 KiB pages that `n` bytes at an address touch. -/
def pages64 (a n : Nat) : List Nat :=
  if n = 0 then [] else (List.range ((a + n - 1) / 65536 - a / 65536 + 1)).map fun i => (a / 65536 + i) % 2 ^ 40

/-- The pages of a launch's node and child arrays that are absent at LAUNCH.tree: what they hold is what the pager fills in (R64). -/
def State.gapsOf (s : State) (t : Tree) : List Nat :=
  if t.count = 0 || 2 ^ 24 < t.count then []
  else
    (pages64 t.nodesPtr (32 * t.count) ++ pages64 t.childPtr (4 * (2 ^ 24 + 14))).filter fun p =>
      s.pageGone t.tag (65536 * p)

/-- Whether a launch's census is still to come, or delayed. -/
def Tree.early (t : Tree) : Bool := t.phase = .waiting || t.phase = .census

/-- A launch whose absent pages have become resident: memory is kept as it stands then (R64). -/
def State.keepFills (s : State) (t : Tree) : Tree :=
  if !t.early then t
  else
    let new := t.gaps.filter fun p => !s.pageGone t.tag (65536 * p)
    if new.isEmpty then t
    else { t with gaps := t.gaps.filter fun p => !new.contains p, fills := t.fills ++ new.map fun p => (p, s.snap) }

/-- The value that a census read takes: memory as it stood at LAUNCH where the page was resident then, else as the pager filled
it, when the page became resident (R64). -/
def State.censusVal (s : State) (t : Tree) (n va pa : Nat) : Nat :=
  match s.snapRd { mem := t.snap, homes := t.homes } t.tag n va with
  | some v => v
  | none =>
    match (entry? t.fills (va % 2 ^ 56 / 65536)).bind fun z => s.snapRd z t.tag n va with
    | some v => v
    | none => s.pmRd pa n

/-- The walk: the nodes reached with their records, the failing check, an absent page. -/
structure Census where
  nodes : List Node
  err : Option (Nat × Nat)
  gone : Option Nat
  /-- The places read, with the table entries of their translations (R402). -/
  reads : List Nat
  /-- What has been read: address, length, value (R67). -/
  seen : List (Nat × Nat × Nat)
  deriving DecidableEq, Repr

/-- The table entries that a unit's translation of an address reads. -/
def State.unitReads (s : State) (tag : BitVec 12) (va : Nat) : List Nat :=
  match s.ctx? tag with | some c => s.tableReads c (va % 2 ^ 56) | none => []

/-- A census that has read a place at an address. -/
def Census.saw (c : Census) (s : State) (t : Tree) (va : Nat) (pa : Option Nat) : Census :=
  { c with reads := c.reads ++ s.unitReads t.tag va ++ pa.toList }

/-- What a census read comes to: it is not legal, its page is absent, or its value; `again` tells that the census has read it before,
with its checks passed: each record is read once (R67). -/
inductive CRead where
  | bad (c : Census)
  | gone (c : Census)
  | val (v : Nat) (again : Bool) (c : Census)

/-- A census read of `n` bytes at an address. -/
def State.censusRd (s : State) (t : Tree) (n va : Nat) (c : Census) : CRead :=
  match t.seen.find? fun x => x.1 = va && x.2.1 = n with
  | some x => .val x.2.2 true c
  | none =>
    match s.unitLegal t.tag .rd n va with
    | .bad _ => .bad (c.saw s t va none)
    | .absent => .gone { (c.saw s t va none) with gone := some (va % 2 ^ 56) }
    | .pa pa =>
      let v := s.censusVal t n va pa
      .val v false { (c.saw s t va (some pa)) with seen := c.seen ++ [(va, n, v)] }

/-- A node by its index. -/
def nodeOf (ns : List Node) (n : Nat) : Option Node := ns.find? fun x => x.idx == n

/-- Whether a node's shape fits an empty core of the partition on the die (R69 FIT). -/
def State.fitsDie (s : State) (t : Tree) (p : Shape) : Bool :=
  CoreFree.empty.fits p && (List.range 256).any fun i => s.inPart t.tag (256 * t.die + i)

/-- A node is reached: its record is read and checked (R67 item 2). The children's count is kept as places to fill. -/
def State.visit (s : State) (t : Tree) (parent : Option Nat) (n : Nat) (c : Census) : Census × Nat × Nat :=
  let va := t.nodesPtr + 32 * n
  match s.censusRd t 32 va c with
  | .bad c => ({ c with err := some (8, n) }, 0, 0)
  | .gone c => (c, 0, 0)
  | .val r again c =>
    let kind := natBits r 0 2
    let nch := natBits r 2 4
    let teams := natBits r 6 4 + 1
    let e := t.entryOf kind
    if e = 0 || e % 12 ≠ 0 then ({ c with err := some (3, n) }, 0, 0)
    else if natBits r 10 6 ≠ 0 || natBits r 40 24 ≠ 0 then ({ c with err := some (7, n) }, 0, 0)
    else if !again && !s.fitsDie t (t.shape kind teams) then ({ c with err := some (9, n) }, 0, 0)
    else
      ({ c with nodes := c.nodes ++
          [{ idx := n, kind := kind, teams := teams
             args := [BitVec.ofNat 64 (natBits r 64 64), BitVec.ofNat 64 (natBits r 128 64), BitVec.ofNat 64 (natBits r 192 64)]
             children := [], order := [], parent := parent, need := 1, budget := 0, st := .unopened, doomed := false
             released := false, entry := none, refused := false, counted := false, dispatched := false
             entries := List.replicate nch none }] }, nch, natBits r 16 24)

/-- Children in descending need, ties to the lower position (R68). -/
def openingOrder (need : Nat → Nat) (cs : List Nat) : List Nat :=
  cs.foldl (fun l c => l.takeWhile (fun x => decide (need c ≤ need x)) ++ [c] ++ l.dropWhile fun x => decide (need c ≤ need x)) []

/-- A node's need and opening order, once its last child's subtree is walked (R68). -/
def Node.setNeed (x : Node) (ns : List Node) : Node :=
  let need (c : Nat) : Nat := match nodeOf ns c with | some y => y.need | none => 0
  let o := openingOrder need x.children
  { x with order := o, need := if o.isEmpty then 1 else (o.zipIdx.map fun p => need p.1 + p.2).foldl max 0 }

/-- The depth-first walk (R67): the stack holds nodes with their child count, OFFSET and next position. -/
def State.walkTree (s : State) (t : Tree) : Nat → List (Nat × Nat × Nat × Nat) → Census → Census
  | 0, _, c => c
  | _, [], c => c
  | fuel + 1, (n, nch, off, k) :: rest, c =>
    if c.err.isSome || c.gone.isSome then c
    else if nch ≤ k then
      s.walkTree t fuel rest { c with nodes := updWhere (fun x => x.idx == n) (fun x => x.setNeed c.nodes) c.nodes }
    else
      let va := t.childPtr + 4 * (off + k)
      match s.censusRd t 4 va c with
      | .bad c => { c with err := some (8, n) }
      | .gone c => c
      | .val r _ c =>
        let ch := natBits r 0 24
        if natBits r 24 8 ≠ 0 then { c with err := some (7, n) }
        else if t.count ≤ ch then { c with err := some (4, n) }
        else if (nodeOf c.nodes ch).isSome then { c with err := some (5, n) }
        else
          let c1 := { c with nodes := updWhere (fun x => x.idx == n) (fun x => { x with children := x.children ++ [ch] }) c.nodes }
          match s.visit t (some n) ch c1 with
          | (c2, m, o) => s.walkTree t fuel ((ch, m, o, 0) :: (n, nch, off, k + 1) :: rest) c2

/-- The census of a tree (R67): its nodes in increasing index, or the failing check and its node, or an absent page. -/
def State.census (s : State) (t : Tree) : Census :=
  let start : Census := { nodes := [], err := none, gone := none, reads := [], seen := t.seen }
  let bad (c n : Nat) : Census := { start with err := some (c, n) }
  if t.count = 0 || 2 ^ 24 < t.count || t.count ≤ t.root then bad 1 0
  else if t.rsvd then bad 7 0
  else
    match s.visit t none t.root start with
    | (c0, m, o) =>
      let c := s.walkTree t (18 * t.count + 1) [(t.root, m, o, 0)] c0
      if c.err.isSome || c.gone.isSome then c
      else
        match (List.range t.count).find? fun i => (nodeOf c.nodes i).isNone with
        | some i => { c with err := some (6, i) }
        | none =>
          let need := match nodeOf c.nodes t.root with | some x => x.need | none => 0
          if t.cap = 0 || 4096 < t.cap || t.cap < need then { c with err := some (2, 0) }
          else { c with nodes := (List.range t.count).filterMap fun i => nodeOf c.nodes i }

/-- The tree launches of a die's Hallstand that are past their wait (R80). -/
def State.heldTrees (s : State) (die : Nat) : Nat := (s.trees.filter fun t => t.die = die && t.phase != .waiting).length

/-- A tree launch replaced. -/
def State.putTree (s : State) (t : Tree) : State := { s with trees := updWhere (fun x => x.id == t.id) (fun _ => t) s.trees }

/-- The CAPSTALL entry of a launch whose census has passed: the one whose launch ended longest ago (R451). Running
launches are marked with `capRuns`. -/
def capRuns : Nat := 2 ^ 64

/-- The place of the entry whose launch ended longest ago. -/
def capOldest (l : List (Dword × Nat × Nat)) : Nat :=
  (l.zipIdx.foldl (fun (b : Nat × Nat) p => if p.1.2.2 < b.1 then (p.1.2.2, p.2) else b) (2 ^ 65, 0)).2

/-- CENSUS (R67, R80): of the oldest waiting launch, where fewer than 64 are held, or of one that an absent page has delayed. An
absent page delays it, and it goes on from there; a failing check ends the launch; a launch that passes waits for the Shelf, and its nodes are the
members of its instance (R38). A waiting launch that is cancelled ends at once (R46). -/
def execCensus (l : Nat) (s : State) : Out :=
  match s.trees.find? fun t => t.id == l with
  | none => .next s
  | some t =>
    if t.phase != .waiting && t.phase != .census then .next s
    else if t.cancelled then .next (s.putTree { t with phase := .ending })
    else if t.phase = .waiting
        && (64 ≤ s.heldTrees t.die || s.trees.any fun x => x.die = t.die && x.phase = .waiting && decide (x.id < t.id)) then
      .next s
    else
      let c := s.census t
      let s0 := s.touchAll (some t.tag) c.reads
      match c.gone, c.err with
      | some va, _ => .next ((s0.putTree { t with phase := .census, seen := c.seen }).absence t.tag va)
      | none, some (e, n) => .next (s0.putTree { t with phase := .report, cause := e, at' := n })
      | none, none =>
        let h := match s.ctx? t.tag with
          | some c => (match c.level? t.slot with | some v => levelHandle t.tag v | none => 0#64)
          | none => 0#64
        let s1 := (s0.updDie t.die fun d => { d with capstall := d.capstall.set (capOldest d.capstall) (h, 0, capRuns) }).updCtx
          t.tag fun x => x.nodesJoin t.slot t.count
        .next { s1 with trees := s1.trees.filter (fun x => x.id != l) ++ [{ t with phase := .shelf, nodes := c.nodes }] }

/-! ### The sweep (R70 to R79) -/

/-- A node changed. -/
def Tree.upd (t : Tree) (n : Nat) (f : Node → Node) : Tree := { t with nodes := updWhere (fun x => x.idx == n) f t.nodes }

/-- The state of a node. -/
def Tree.stOf (t : Tree) (n : Nat) : NState := match nodeOf t.nodes n with | some x => x.st | none => .unopened

/-- Whether a node is done or faulted. -/
def NState.final (x : NState) : Bool := x = .done || x = .faulted

/-- Whether every node of a subtree has ended in a downward sweep (R76, R78). -/
def Tree.subtreeEnded (t : Tree) : Nat → Nat → Bool
  | 0, _ => true
  | fuel + 1, n =>
    match nodeOf t.nodes n with
    | none => true
    | some x => x.st = .faulted || (x.st = .done && x.children.all fun c => t.subtreeEnded fuel c)

/-- held(n) (R72, R76). -/
def Tree.held (t : Tree) (x : Node) : Nat :=
  if t.down then (x.children.filter fun c => t.stOf c = .unopened).length
  else (x.children.filter fun c => (t.stOf c).final).length

/-- open(n): the budgets of the opened children that count (R72, R76, R77). -/
def Tree.open' (t : Tree) (x : Node) : Nat :=
  (x.children.map fun c =>
    match nodeOf t.nodes c with
    | some y =>
      if t.down then (if y.st = .unopened || t.subtreeEnded t.nodes.length c then 0 else y.budget)
      else if y.st = .unopened || y.st.final || y.released then 0 else y.budget
    | none => 0).foldl (· + ·) 0

/-- The next child that a node would open: in the opening order, or in its reverse (R72, R76). -/
def Tree.nextChild (t : Tree) (x : Node) : Option Nat :=
  (if t.down then x.order.reverse else x.order).find? fun c => t.stOf c = .unopened

/-- Whether a node opens children: an opened node, or in a downward sweep a done one. -/
def Tree.opens (t : Tree) (x : Node) : Bool := (if t.down then x.st = .done else x.st = .opened) && !x.released

/-- The state in which a child opens: a leaf, and in a downward sweep any node, is ready at once (R71, R76). -/
def Tree.openState (t : Tree) (c : Node) : NState := if t.down || c.children.isEmpty then .ready else .opened

/-- One node's test of an opening pass (R72, R76). -/
def Tree.tryOpen (t : Tree) (n : Nat) : Tree × Bool :=
  match nodeOf t.nodes n with
  | none => (t, false)
  | some x =>
    match t.nextChild x with
    | none => (t, false)
    | some c =>
      match nodeOf t.nodes c with
      | none => (t, false)
      | some y =>
        let sum := t.held x + t.open' x + y.need
        if (if t.down then sum ≤ x.budget + 1 else sum ≤ x.budget) then
          (t.upd c fun y =>
            { y with budget := y.need, st := t.openState y
                     entry := if t.down then (x.entries.getD (x.children.idxOf c) none) else y.entry }, true)
        else (t.upd n fun x => { x with refused := true }, false)

/-- The repetitions of an opening pass (R72): `fuel` bounds them by the number of nodes. -/
def Tree.passLoop : Nat → Tree → Tree
  | 0, t => t
  | fuel + 1, t =>
    let ns := (t.nodes.filter fun x => t.opens x && (t.nextChild x).isSome).map fun x => x.idx
    match ns.foldl (fun (p : Tree × Bool) n => match p.1.tryOpen n with | (t1, b) => (t1, p.2 || b)) (t, false) with
    | (t1, true) => Tree.passLoop fuel t1
    | (t1, false) => t1

/-- The nearest ancestor of a node that is opened or has been (R73), by fuel. -/
def Tree.decider (t : Tree) : Nat → Node → Option Node
  | 0, _ => none
  | fuel + 1, x =>
    match x.parent with
    | none => none
    | some p =>
      match nodeOf t.nodes p with
      | none => none
      | some y => if y.st = .unopened then t.decider fuel y else some y

/-- Whether a leaf is stalled by cap (R73). -/
def Tree.stalled (t : Tree) (x : Node) : Bool :=
  x.children.isEmpty && x.st = .unopened && (match t.decider t.nodes.length x with | some y => y.refused | none => false)

/-- An opening pass, and the leaves that are newly stalled by cap counted (R17, R72, R73). -/
def Tree.pass (t : Tree) : Tree × Nat :=
  let t1 := Tree.passLoop (t.nodes.length + 1) { t with nodes := t.nodes.map fun x => { x with refused := false } }
  let new := t1.nodes.filter fun x => !x.counted && t1.stalled x
  let ids := new.map fun x => x.idx
  ({ t1 with nodes := t1.nodes.map fun x => if ids.contains x.idx then { x with counted := true } else x }, new.length)

/-- An entry's number cleared where a node holds it. -/
def Node.dropEntry (x : Node) (e : Nat) : Node :=
  { x with entry := if x.entry = some e then none else x.entry
           entries := x.entries.map fun y => if y = some e then none else y }

/-- An entry of the launch freed, in rising order; no node holds it any more. -/
def Tree.freeEntry (t : Tree) (e : Nat) : Tree :=
  { t with free := if t.free.contains e then t.free else t.free.filter (· < e) ++ [e] ++ t.free.filter (e < ·)
           nodes := t.nodes.map fun x => x.dropEntry e }

/-- A subtree's nodes. -/
def Tree.subtree (t : Tree) : Nat → Nat → List Nat
  | 0, n => [n]
  | fuel + 1, n => n :: (match nodeOf t.nodes n with | some x => x.children.flatMap fun c => t.subtree fuel c | none => [])

/-- The entries that a subtree holds, freed (R21, R78). -/
def Tree.freeSubtree (t : Tree) (n : Nat) : Tree :=
  let ns := t.subtree t.nodes.length n
  let es := t.nodes.flatMap fun x => if ns.contains x.idx then x.entry.toList ++ x.entries.filterMap (fun e => e) else []
  es.foldl (fun t e => t.freeEntry e) t

/-- Whether a node is in flight for its doomed ancestors (R77). -/
def Node.inFlight (x : Node) : Bool := !x.st.final && !x.released

/-- Doomed nodes whose descendants are all out of flight are released (R21, R77), the lowest first, by fuel. -/
def Tree.release : Nat → Tree → Tree
  | 0, t => t
  | fuel + 1, t =>
    match t.nodes.find? fun x => x.doomed && x.st = .opened && !x.released
        && (t.subtree t.nodes.length x.idx).all fun d =>
          d = x.idx || (match nodeOf t.nodes d with | some y => !y.inFlight | none => true) with
    | some x => Tree.release fuel ((t.freeSubtree x.idx).upd x.idx fun y => { y with released := true })
    | none => t

/-- Whether a sweep has ended (R75, R76, R77, R79). -/
def Tree.sweepOver (t : Tree) : Bool :=
  if t.cancelled then t.nodes.all fun x => x.st != .running
  else if t.down then t.nodes.all fun x => x.st != .ready && x.st != .running && x.st != .opened
  else match nodeOf t.nodes t.root with | some x => x.st.final || x.released | none => true

/-- A node whose children are all done becomes ready, unless it is doomed (R71). -/
def Tree.readyUp (t : Tree) : Tree :=
  { t with nodes := t.nodes.map fun x =>
      if x.st = .opened && !x.doomed && x.children.all (fun c => t.stOf c = .done) then
        { x with st := .ready, entry := match x.order with
            | c :: _ => (match nodeOf t.nodes c with | some y => y.entry | none => none)
            | [] => none }
      else x }

/-- What follows an event that changes the sweep: nodes ready, releases, an opening pass, the end of the sweep. -/
def State.settleTree (s : State) (t : Tree) : State :=
  if t.cancelled then s.putTree (if t.sweepOver then { t with phase := .ending } else t)
  else
    let t1 := if t.down then t else Tree.release t.nodes.length t.readyUp
    match t1.pass with
    | (t2, n) =>
      let h := match s.ctx? t.tag with
        | some c => (match c.level? t.slot with | some v => levelHandle t.tag v | none => 0#64)
        | none => 0#64
      let s1 := s.updDie t.die fun d =>
        { d with capstall := d.capstall.map fun e => if e.1 == h && e.2.2 == capRuns then (e.1, e.2.1 + n, e.2.2) else e }
      s1.putTree (if t2.sweepOver then { t2 with phase := .ending, capstall := t2.capstall + n }
        else { t2 with capstall := t2.capstall + n })

/-- Shelf entries of a die that launches hold (R70). -/
def State.shelfUsed (s : State) (die : Nat) : Nat :=
  ((s.trees.filter fun t => t.die = die && !t.shelf.isEmpty).map fun t => t.cap).foldl (· + ·) 0

/-- An entry of zeros. -/
def shelfZero : List Dword := List.replicate 8 0#64

/-- SHELF_RESERVATION (R70): in the order in which the censuses passed; the root opens with budget CAP (R72, R76). -/
def execShelfReservation (l : Nat) (s : State) : Out :=
  match (s.trees.filter fun t => t.phase = .shelf).find? fun t => t.id == l with
  | none => .next s
  | some t =>
    let first := match s.trees.find? fun x => x.die = t.die && x.phase = .shelf with | some x => x.id = l | none => false
    if t.cancelled then .next (s.putTree { t with phase := .ending })
    else if !first || 65536 < s.shelfUsed t.die + t.cap then .next s
    else
      let t1 := { t with phase := .sweeping, shelf := List.replicate t.cap shelfZero, free := List.range t.cap }
      let t2 := t1.upd t.root fun x => { x with budget := t.cap, st := t.openState x }
      let t3 := if t.down then
          { (t2.upd t.root fun x => { x with entry := some 0 }) with free := (List.range t.cap).drop 1 }
        else t2
      .next (s.settleTree t3)

/-- A leaf's entry at dispatch: the lowest free one, zeroed (R18, R74). -/
def Tree.leafEntry (t : Tree) (n : Nat) : Tree :=
  match nodeOf t.nodes n, t.free with
  | some x, e :: es =>
    if !t.down && x.children.isEmpty then
      { (t.upd n fun x => { x with entry := some e }) with free := es, shelf := t.shelf.set e shelfZero }
    else t
  | _, _ => t

/-- NODE_DISPATCH (R73): the ready node of lowest index, on the partition's cores of the Hallstand's die; one that fits no
core is held, and keeps back those of higher index. -/
def execNodeDispatch (l : Nat) (s : State) : Out :=
  match s.trees.find? fun t => t.id == l with
  | none => .next s
  | some t =>
    if t.phase != .sweeping || t.cancelled || !s.phaseReady t.tag t.slot then .next s
    else
      match t.nodes.find? fun x => x.st = .ready with
      | none => .next s
      | some x =>
        if x.dispatched then .next s else
        match s.newId with
        | (id, s1) =>
          let t1 := (t.upd x.idx fun x => { x with dispatched := true }).leafEntry x.idx
          let d : Dispatch :=
            { id := id, kind := .node, tag := t.tag, slot := t.slot, shape := t.shape x.kind x.teams, args := x.args
              next := 0, total := 1, num := 0, first := 256 * t.die, count := 256, pair := false, cursor := t.cursor
              held := none, flying := false, node := some x.idx, tree := some l, future := none, regions := []
              after := [], rspad := 0, records := [], rw := 0 }
          let s2 := s1.putTree t1
          let s3 := { s2 with dispatches := s2.dispatches ++ [d] }
          .next (if s3.mayPlace d then s3.tryPlace d else s3)

/-- The ancestors of a node, by fuel. -/
def ancestors (ns : List Node) : Nat → Nat → List Nat
  | 0, _ => []
  | fuel + 1, n =>
    match nodeOf ns n with
    | some x => (match x.parent with | some p => p :: ancestors ns fuel p | none => [])
    | none => []

/-- The poison record of a node's entry: the node index and the cause (R20; its layout is log entry 13). -/
def poisonRec (n : Nat) (c : Cause) : List Dword :=
  [BitVec.ofNat 64 n, BitVec.ofNat 64 c.code] ++ List.replicate 6 0#64

/-- The entries of a node's children but the first freed: what is left of them is the node's own (R72, R75). -/
def Tree.freeOthers (t : Tree) (x : Node) : Tree :=
  (x.order.drop 1).foldl (fun t c =>
    match nodeOf t.nodes c with
    | some y => (match y.entry with | some e => t.freeEntry e | none => t)
    | none => t) t

/-- A node faulted by a trap (R20, R77, R78): poison in its entry; in an upward sweep its ancestors are doomed and of its children's
entries its own is left, for which the sweep counts it (R72); in a downward one the entries of its subtree are freed. -/
def Tree.faultNode (t : Tree) (n : Nat) (c : Cause) : Tree :=
  let anc := if t.down then [] else ancestors t.nodes t.nodes.length n
  let shelf := match nodeOf t.nodes n with
    | some x => (match x.entry with | some e => t.shelf.set e (poisonRec n c) | none => t.shelf)
    | none => t.shelf
  let t1 := { t with shelf := shelf
                     nodes := t.nodes.map fun x =>
                       if x.idx = n then { x with st := .faulted }
                       else if anc.contains x.idx then { x with doomed := true } else x }
  if t.down then t1.freeSubtree n
  else match nodeOf t1.nodes n with | some x => t1.freeOthers x | none => t1

/-- A node's block has ended normally in an upward sweep (R75): the entries of its children but the first are freed. -/
def Tree.doneUp (t : Tree) (x : Node) : Tree := (t.upd x.idx fun x => { x with st := .done }).freeOthers x

/-- A child's entry in a downward sweep: its node's own for the child opened last, else one of its own, taken zeroed where
there is none yet (R76). -/
def Tree.childEntry (t : Tree) (x : Node) (pos : Nat) : Option Nat × Tree :=
  match x.entries.getD pos none with
  | some e => (some e, t)
  | none =>
    if x.order.head? = x.children[pos]? then
      (x.entry, t.upd x.idx fun y => { y with entries := y.entries.set pos x.entry })
    else
      match t.free with
      | e :: es =>
        (some e, { (t.upd x.idx fun y => { y with entries := y.entries.set pos (some e) }) with
          free := es, shelf := t.shelf.set e shelfZero })
      | [] => (none, t)

/-- A node's block has ended normally in a downward sweep (R76): a leaf's entry is freed; each child has an entry, zero
where no NRES.k wrote it. -/
def Tree.doneDown (t : Tree) (x : Node) : Tree :=
  let t1 := t.upd x.idx fun x => { x with st := .done }
  if x.children.isEmpty then
    match x.entry with
    | some e => t1.freeEntry e
    | none => t1
  else
    (List.range x.children.length).foldl (fun t pos =>
      match nodeOf t.nodes x.idx with
      | none => t
      | some y =>
        let own := decide (y.order.head? = y.children[pos]?) && (y.entries.getD pos none).isNone
        match t.childEntry y pos with
        | (some e, t2) => if own then { t2 with shelf := t2.shelf.set e shelfZero } else t2
        | (none, t2) => t2) t1

/-- A node's block has ended (R75, R76, R77, R78, R79), and its instance has one member fewer (R38). One that a cancel reached while it
ran ends as faulted, be it that its teams had executed EXIT and only accesses were left to perform: the model's choice, for R79 does
not say when such a block has ended (log entry 131). -/
def State.nodeEnd (s : State) (b : Block) : State :=
  match b.tree, b.node with
  | some l, some n =>
    (match s.trees.find? fun t => t.id == l with
     | none => s
     | some t =>
       let s1 := s.updCtx t.tag fun c => c.nodeLeave t.slot
       match nodeOf t.nodes n, b.fault with
       | none, _ => s
       | some _, some (c, _, _) => s1.settleTree (t.faultNode n c)
       | some x, none =>
         if b.dying then
           s1.settleTree { (t.upd n fun x => { x with st := .faulted }) with cutRunning := t.cutRunning ++ [n] }
         else s1.settleTree (if t.down then t.doneDown x else t.doneUp x))
  | _, _ => s

/-! ### The end of a sweep (R24, R69, R79) -/

/-- The nodes of a map: 0 done, 1 faulted, 2 never run. -/
def Tree.inMap (t : Tree) (k n : Nat) : Bool :=
  match k, t.stOf n with
  | 0, .done => true
  | 0, _ => false
  | 1, .faulted => true
  | 1, _ => false
  | _, .done => false
  | _, .faulted => false
  | _, _ => true

/-- Dword `j` of map `k`. -/
def Tree.mapDword (t : Tree) (k j : Nat) : Nat :=
  ((List.range 64).map fun b => if 64 * j + b < t.count && t.inMap k (64 * j + b) then 2 ^ b else 0).foldl (· + ·) 0

/-- What is left to be written: place, virtual address, value. Maps follow a sweep, a report a census fault. A launch that was
cancelled before its census passed writes none (log entry 47). -/
def Tree.writes (t : Tree) : List (Nat × Nat × Nat) :=
  let base := t.nodesPtr + 32 * t.count
  if t.phase = .report then
    (if 1 ≤ t.count && t.count ≤ 2 ^ 24 then [(0, base % 2 ^ 56, t.at' % 2 ^ 24 * 2 ^ 40 + t.cause)] else [])
  else if t.nodes.isEmpty then []
  else
    let n := ceilDiv t.count 64
    (List.range (3 * n)).map fun i => (i, (base + 8 * i) % 2 ^ 56, t.mapDword (i / n) (i % n))

/-- The status word of a tree launch (R14, R69, R79). A launch that is cancelled names a node that faulted by a trap (R46; log
entry 100). -/
def Tree.status (t : Tree) : Dword :=
  if t.phase = .report then (if t.cancelled then 3#64 else 2#64)
  else
    let trapped := t.nodes.find? fun x => x.st = .faulted && !t.cutRunning.contains x.idx
    let done := (t.nodes.filter fun x => x.st = .done).length
    let code := if t.cancelled then 3 else if trapped.isSome then 1 else 0
    BitVec.ofNat 64 ((match trapped with | some x => x.idx | none => 0) * 2 ^ 40 + done % 2 ^ 25 * 2 ^ 15 + code)

/-- SWEEP_END (R24, R69): dwords on resident pages are written or dropped; an absent page delays the end; then the launch
completes and its Shelf entries return (R70). -/
def execSweepEnd (l : Nat) (s : State) : Out :=
  match s.trees.find? fun t => t.id == l with
  | none => .next s
  | some t =>
    if t.phase != .ending && t.phase != .report then .next s
    else
      let todo := t.writes.filter fun w => !t.written.contains w.1
      match todo.foldl (fun (p : State × List Nat × Bool) w =>
          let s1 := p.1.touchAll (some t.tag) (p.1.unitReads t.tag w.2.1)
          match p.1.unitLegal t.tag .wr 8 w.2.1 with
          | .bad _ => (s1, p.2.1 ++ [w.1], p.2.2)
          | .absent => (s1.absence t.tag w.2.1, p.2.1, true)
          | .pa a => (s1.memWr (some t.tag) a (natBytes 8 w.2.2), p.2.1 ++ [w.1], p.2.2)) (s, t.written, false) with
      | (s1, written, true) => .next (s1.putTree { t with written := written })
      | (s1, _, false) =>
        let h := match s.ctx? t.tag with
          | some c => (match c.level? t.slot with | some v => levelHandle t.tag v | none => 0#64)
          | none => 0#64
        let s2 := s1.updDie t.die fun d =>
          { d with capstall := d.capstall.map fun e => if e.1 == h && e.2.2 == capRuns then (e.1, e.2.1, s.nextId + 1) else e }
        let s3 := { s2 with trees := s2.trees.filter (fun x => x.id != l), nextId := s.nextId + 1 }
        .next (s3.closeLevel t.tag t.slot (some t.status))

/-- LAUNCH.tree hands its record to the Hallstand of the issuing core's die (R62, R64, R136). -/
def State.newTree (s : State) (tag : BitVec 12) (slot die record : Nat) : State :=
  match s.newId with
  | (id, s1) =>
    let t : Tree :=
      { id := id, die := die, tag := tag, slot := slot, record := record, phase := .waiting, snap := s.mem, homes := s.migrations
        gaps := [], fills := [], seen := [], nodes := []
        shelf := [], free := [], capstall := 0, cause := 0, at' := 0, cancelled := false, cutRunning := [], written := []
        cursor := 256 * die }
    { s1 with trees := s1.trees ++ [{ t with gaps := s.gapsOf t }] }

/-! ### The handover words (R142 to R145) -/

/-- The tree launch and the node of a tree node block. -/
def State.treeOf (s : State) (b : Block) : Option (Tree × Node) :=
  match b.tree, b.node with
  | some l, some n =>
    (match s.trees.find? fun t => t.id == l with
     | some t => (match nodeOf t.nodes n with | some x => some (t, x) | none => none)
     | none => none)
  | _, _ => none

/-- The checks of R144: `down` is the sweep that the word needs. -/
def State.treeArg (s : State) (b : Block) (down : Bool) (pos : Option (BitVec 4)) (w : BitVec 3) : Option (Tree × Node) :=
  match s.treeOf b with
  | none => none
  | some (t, x) =>
    if t.rsz < w.toNat || t.down != down then none
    else match pos with
      | some p => if p.toNat < x.children.length then some (t, x) else none
      | none => some (t, x)

/-- A dword of an entry. -/
def Tree.rdEntry (t : Tree) (e : Option Nat) (w : BitVec 3) : Dword :=
  match e with | some i => (t.shelf.getD i []).getD w.toNat 0#64 | none => 0#64

/-- A dword of an entry written. -/
def Tree.wrEntry (t : Tree) (e : Option Nat) (w : BitVec 3) (v : Dword) : Tree :=
  match e with | some i => { t with shelf := updAt (fun d => d.set w.toNat v) t.shelf i } | none => t

def execNres (h : Hd) (a : BitVec 6) (w : BitVec 3) (s : State) : Out :=
  s.chk [.w a.toNat] [] false fun b u =>
    match s.treeArg b false none w with
    | none => .next (s.trap .treearg)
    | some (t, x) => .next ((s.putTree (t.wrEntry x.entry w (u.rw a))).issue h false fun u => u)

def execNresK (h : Hd) (a : BitVec 6) (p : BitVec 4) (w : BitVec 3) (s : State) : Out :=
  s.chk [.w a.toNat] [] false fun b u =>
    match s.treeArg b true (some p) w with
    | none => .next (s.trap .treearg)
    | some (t, x) =>
      match t.childEntry x p.toNat with
      | (e, t1) => .next ((s.putTree (t1.wrEntry e w (u.rw a))).issue h false fun u => u)

def execNchild (h : Hd) (d : BitVec 6) (p : BitVec 4) (w : BitVec 3) (s : State) : Out :=
  s.chk [] [.w d.toNat] true fun b _ =>
    match s.treeArg b false (some p) w with
    | none => .next (s.trap .treearg)
    | some (t, x) =>
      let e := match nodeOf t.nodes (x.children.getD p.toNat 0) with | some y => y.entry | none => none
      .next (s.scoreNow h d (t.rdEntry e w))

def execNparent (h : Hd) (d : BitVec 6) (w : BitVec 3) (s : State) : Out :=
  s.chk [] [.w d.toNat] true fun b _ =>
    match s.treeArg b true none w with
    | none => .next (s.trap .treearg)
    | some (t, x) => .next (s.scoreNow h d (t.rdEntry x.entry w))

end Sys2Proof.Machine
end

