-- ==== Sys2Proof/Machine/Ctrl.lean ====
section
/-! DEFINITION. Control registers, register slabs, the block barrier, launches and level waits: class 28 (R127 to R141, R349). -/

namespace Sys2Proof.Machine

/-! ### Control registers (R127, R128, R411 to R413) -/

/-- The accepted feature words of a block's context; a Bureau has what is offered. -/
def State.accepted (s : State) (b : Block) : Dword × Dword × Dword :=
  match s.ctxOf b with
  | some c => (c.acc0, c.acc2, c.acc3)
  | none => (s.offer0, s.offer2, s.offer3)

/-- $phase: the index of the phase that holds the block's launch. -/
def State.phaseOf (s : State) (b : Block) : Nat :=
  match s.ctxOf b with
  | some c => (match c.level? b.slot with | some l => l.phase | none => 0)
  | none => 0

/-- The value of a control register for a team; $lane is read by RDC.v alone. -/
def State.ctlRead (s : State) (b : Block) (t : Team) (n : Nat) : Dword :=
  match n with
  | 1 => BitVec.ofNat 64 t.idx
  | 2 => b.block.setWidth 64
  | 3 => t.role.setWidth 64
  | 4 => BitVec.ofNat 64 (s.phaseOf b)
  | 5 => b.tag.setWidth 64
  | 6 => s.levelOf b
  | 7 => s.levelOf b &&& 0xFFFFFFFFFFFF#64
  | 8 => match b.node with | some x => BitVec.ofNat 64 x | none => 0xFFFFFFFFFFFFFFFF#64
  | 9 => t.status
  | 10 => t.fpmode
  | 11 => t.trapcause
  | 12 => t.trappc
  | 13 => BitVec.ofNat 64 s.clock
  | 14 => BitVec.ofNat 64 b.core
  | 15 => BitVec.ofNat 64 t.lanes
  | 16 => BitVec.ofNat 64 t.regs
  | 17 => BitVec.ofNat 64 b.pool
  | 18 => BitVec.ofNat 64 t.stack.length
  | 19 => BitVec.ofNat 64 b.barPhase
  | 20 => s.offer0 &&& (s.accepted b).1
  | 21 => s.offer1
  | 22 => s.offer2 &&& (s.accepted b).2.1
  | 23 => s.offer3 &&& (s.accepted b).2.2
  | 24 => (s.vectors b).1
  | 25 => (s.vectors b).2
  | _ => 0#64

def execRdc (h : Hd) (d a : BitVec 6) (s : State) : Out :=
  s.chk [] [.w d.toNat] false fun b t =>
    .next (s.issue h false fun u => u.addRun (s.clock + latU) [.w d.toNat (s.ctlRead b t a.toNat)])

/-- RDC.v: bits [31:0] to the lanes of m0; for $lane its own index to each. -/
def execRdcV (h : Hd) (d a : BitVec 6) (s : State) : Out :=
  s.chk [.m 0] [.v d.toNat] false fun b t =>
    let x := (s.ctlRead b t a.toNat).setWidth 32
    let val (l : Nat) : Word := if a = 0#6 then BitVec.ofNat 32 l else x
    .next (s.issue h false fun u =>
      u.addRun (s.clock + latU)
        [.v d.toNat ((List.range t.lanes).map fun l => if (t.rm 0#3).getLsbD l then some (val l) else none)])

/-- Whether a control register takes writes (R128). -/
def ctlWritable (n : Nat) : Bool := n = 9 || n = 10 || n = 24 || n = 25

/-- WRC: a write of a read-only register is ignored (R8). -/
def execWrc (h : Hd) (d a : BitVec 6) (s : State) : Out :=
  s.chk [.w a.toNat] [] false fun _ t =>
    .next (s.issue h false fun u =>
      if ctlWritable d.toNat then u.addRun (s.clock + latU) [.ctl d.toNat (t.rw a)] else u)

/-! ### Register slabs (R129, R130) -/

/-- Whether a run-bound result that was outstanding at the chain's start has not passed its latency. -/
def State.oldBusy (s : State) (t : Team) : Bool :=
  t.run.writes.any fun w => s.cur.old.contains w && decide (s.clock < w.at')

/-- The run-bound results that were outstanding at the chain's start, written: those of the vectors alone wait for the end of the
run's park (R128; log entry 32). -/
def Team.settleOld (t : Team) (old : List RunWrite) : Team :=
  let hit (w : RunWrite) : Bool := old.contains w && !w.write.late
  let t1 := (t.run.writes.filter hit).foldl (fun t w => t.regWrite w.write) t
  { t1 with run := { t1.run with writes := t1.run.writes.filter fun w => !hit w } }

/-- RGIVE (R129): the contents of the registers given are lost. Where a consuming load of its chain has ended the team (R336), whose
slabs have all returned to the pool, nothing is left to give. -/
def execRgive (h : Hd) (k : BitVec 6) (s : State) : Out :=
  s.chk [] [] false fun b t =>
    let n := t.regs
    if t.ended then .next { s with cur := { s.cur with res := .issued } }
    else if n ≤ 8 * k.toNat then .next (s.trap .regpool)
    else if s.oldBusy t then .next (s.park .switch)
    else if t.pending s.cur.base ((List.range (8 * k.toNat)).map fun i => .v (n - 8 * k.toNat + i)) then .next (s.park .score)
    else
      let s1 := s.updBlock b.id fun x => { x with pool := x.pool + k.toNat }
      .next (s1.issue h false fun u =>
        let u1 := u.settleOld s.cur.old
        { u1 with v := u1.v.take (n - 8 * k.toNat) })

/-- A team's place among the parked RCLAIMs of its block. -/
def Block.claimQueue (b : Block) (t : Team) (k : Nat) : Block :=
  if t.want = .slabs k && b.rclaims.contains (t.idx, k) then b
  else { b with rclaims := b.rclaims.filter (fun q => q.1 != t.idx) ++ [(t.idx, k)] }

/-- RCLAIM (R129): it takes slabs that are free and that no earlier RCLAIM awaits, or parks until RCLAIM_GRANT takes them
for it. -/
def execRclaim (h : Hd) (k : BitVec 6) (s : State) : Out :=
  s.chk [] [] false fun b t =>
    if 64 < t.regs + 8 * k.toNat || b.slabs - b.teams.length < k.toNat then .next (s.trap .regpool)
    else if s.oldBusy t then .next (s.park .switch)
    else
      let given := t.granted && decide (t.want = .slabs k.toNat)
      let free := decide (k.toNat ≤ b.pool) && b.rclaims.all fun q => q.1 = t.idx
      if given || free then
        let s1 := s.updBlock b.id fun x =>
          { x with pool := if given then x.pool else x.pool - k.toNat, rclaims := x.rclaims.filter fun q => q.1 != t.idx }
        .next (s1.issue h false fun u =>
          let u1 := u.settleOld s.cur.old
          { u1 with v := u1.v ++ List.replicate (8 * k.toNat) (List.replicate u1.lanes 0#32) })
      else
        .next ((s.updBlock b.id fun x => x.claimQueue t k.toNat).parkFor .idle (.slabs k.toNat))

/-- RCLAIM_GRANT (R129): the parked RCLAIM that issued first takes its slabs. -/
def execRclaimGrant (b : Nat) (s : State) : Out :=
  match s.block? b with
  | none => .next s
  | some x =>
    let live (q : Nat × Nat) : Bool := match x.team? q.1 with | some t => decide (t.want = .slabs q.2) && !t.granted | none => false
    match x.rclaims.find? live with
    | some (t, k) =>
      if k ≤ x.pool then
        .next (s.updBlock b fun y => Block.updTeam { y with pool := y.pool - k, rclaims := y.rclaims.filter fun q => q.1 != t } t
          fun u => { u with granted := true })
      else .next s
    | none => .next s

/-! ### The block barrier (R131, R132) -/

/-- A team that waits at the barrier continues once its phase is complete (R131). -/
def State.wakeBar (s : State) (r : TRef) : State :=
  let s1 := s.updBlock r.b Block.barCheck
  match s1.team? r with
  | some (b, t) =>
    match t.wait with
    | some (.bar p) => if p < b.barPhase then s1.updTeam r fun u => { u with wait := none } else s1
    | _ => s
  | none => s

/-- BAR (R131): the phase completes after the team's accesses of path L, those in the operand log among them (R132, R463):
`Block.barCheck`. -/
def execBar (h : Hd) (s : State) : Out :=
  s.chk [] [] false fun b t => s.atPoint h b <|
      let s1 := (s.countPoint b).issue h true fun u => { u with wait := some (.bar b.barPhase) }
      .next ((s1.updBlock b.id fun x => { x with barArr := x.barArr ++ [t.idx] }).wakeBar s.cur.r)

/-! ### LAUNCH (R133 to R138, R349) -/

/-- The handle of the instance in a slot. -/
def State.handleAt (s : State) (tag : BitVec 12) (slot : Nat) : Dword :=
  match s.ctx? tag with
  | some c => (match c.level? slot with | some l => levelHandle tag l | none => 0#64)
  | none => 0#64

/-- The shape that a flat or a bin launch record gives. -/
def recShape (r : Nat) : Shape :=
  { teams := natBits r 152 4 + 1, wm := natBits r 156 5 + 1, regs := 8 * (natBits r 161 3 + 1), spad := natBits r 175 9
    slots := natBits r 169 6, tiles := natBits r 164 5, role := BitVec.ofNat 64 (natBits r 256 64)
    entry := BitVec.ofNat 56 (natBits r 64 48) }

/-- SPAD, SLOTS, TILES or ENTRY out of range (R135, R334, R349, R357). -/
def Shape.bad (p : Shape) : Bool :=
  256 < p.spad || 32 < p.slots || 16 < p.tiles || p.entry = 0#56 || p.entry.toNat % 12 ≠ 0

/-- X × Y × Z of a flat launch record. -/
def flatCount (r : Nat) : Nat := natBits r 0 24 * natBits r 24 16 * natBits r 40 16

/-- R135. -/
def flatBad (r : Nat) : Bool :=
  flatCount r = 0 || 2 ^ 24 < flatCount r || 1024 < natBits r 128 10 + natBits r 138 11 || natBits r 138 11 = 0
    || (recShape r).bad || natBits r 56 8 ≠ 0 || natBits r 112 16 ≠ 0 || natBits r 149 2 ≠ 0 || natBits r 184 8 ≠ 0
    || natBits r 192 36 ≠ 0 || (natBits r 151 1 = 1 && flatCount r % 2 = 1)

/-- The checks and parks that every LAUNCH makes, and its record (R136, R138): a release at module scope. LVLFULL comes before
LAUNCHREC, as the text of R136 has it (for LAUNCH.bin: log entry 48). The accesses of LAUNCH's own chain, which issue with it (R88), are
not awaited: the model's choice (log entry 135). -/
def State.launchWord (s : State) (d a : BitVec 6) (p g : BitVec 1) (f : Block → Nat → State → Out) : Out :=
  s.chk [.w a.toNat] [.w d.toNat] true fun b t =>
    if t.outstanding s.cur.base .l then .next (s.park .pipe)
    else
      s.withGot b (s.getVa b 64 (t.rw a).toNat) fun r s1 =>
        if !s1.slotsFree b.tag (slotsNeeded (g = 1#1) (p = 1#1)) || b.bureau.isSome then .next (s1.trap .lvlfull)
        else f b r s1

def execLaunchFlat (h : Hd) (d a : BitVec 6) (p g : BitVec 1) (s : State) : Out :=
  s.launchWord d a p g fun b r s1 =>
    if flatBad r then .next (s1.trap .launchrec)
    else
      match s1.newLaunch b.tag b.slot (g = 1#1) (p = 1#1) .flat (flatCount r) (coreDie b.core) with
      | (slot, new, s2) =>
        match s2.newId with
        | (id, s3) =>
          let q : Dispatch :=
            { id := id, kind := .flat, tag := b.tag, slot := slot, shape := recShape r
              args := (List.range 3).map fun i => BitVec.ofNat 64 (natBits r (320 + 64 * i) 64)
              next := 0, total := flatCount r, num := 0, first := natBits r 128 10, count := natBits r 138 11
              pair := natBits r 151 1 = 1, cursor := natBits r 128 10, held := none, flying := false, node := none
              tree := none, future := none, regions := [], after := [], rspad := 0, records := [], rw := 0 }
          let s4 := s3.scoreNow h d (s3.handleAt b.tag new)
          .next (if s4.levelCancelled b.tag slot then s4.closeIfCancelled b.tag slot
            else { s4 with dispatches := s4.dispatches ++ [q] })

def execLaunchTree (h : Hd) (d a : BitVec 6) (p g : BitVec 1) (s : State) : Out :=
  s.launchWord d a p g fun b r s1 =>
    match s1.newLaunch b.tag b.slot (g = 1#1) (p = 1#1) .tree 1 (coreDie b.core) with
    | (slot, new, s2) =>
      let s3 := s2.scoreNow h d (s2.handleAt b.tag new)
      .next (if s3.levelCancelled b.tag slot then s3.closeIfCancelled b.tag slot
        else s3.newTree b.tag slot (coreDie b.core) r)

/-- LAUNCHREC of a bin launch record (R349). -/
def binBad (r : Nat) : Bool :=
  natBits r 112 16 = 0 || (recShape r).bad || natBits r 320 192 ≠ 0 || natBits r 209 1 ≠ 0 || natBits r 184 12 ≠ 0
    || natBits r 128 24 ≠ 0 || natBits r 0 64 ≠ 0
    || 1024 * natBits r 175 9 < natBits r 210 18 + 8 * (natBits r 196 3 + 1) * (natBits r 199 10 + 1)

/-- A bin's place that is free among a die's 512. -/
def State.freeBin (s : State) (die : Nat) : Option Nat :=
  findFrom (fun i => !((s.die die).bins.any fun x => x.idx = i)) 0 512

def execLaunchBin (h : Hd) (d a : BitVec 6) (p g : BitVec 1) (s : State) : Out :=
  s.launchWord d a p g fun b r s1 =>
    if binBad r then .next (s1.trap .launchrec)
    else
      match s1.freeBin (coreDie b.core) with
      | none => .next (s1.trap .binfull)
      | some i =>
        match s1.newLaunch b.tag b.slot (g = 1#1) (p = 1#1) .bin 1 (coreDie b.core) with
        | (slot, new, s2) =>
          let q : Bin :=
            { idx := i, tag := b.tag, slot := slot, shape := recShape r, rw := natBits r 196 3 + 1
              coal := natBits r 199 10 + 1, rspad := natBits r 210 18, timer := natBits r 112 16, deadline := none
              records := [], formed := 0, cursor := 256 * coreDie b.core }
          let s3 := s2.scoreNow h d (s2.handleAt b.tag new)
          .next (if s3.levelCancelled b.tag slot then s3.closeIfCancelled b.tag slot
            else s3.updDie (coreDie b.core) fun e => { e with bins := e.bins ++ [q] })

/-! ### Level waits and cancels (R139, R140) -/

/-- Whether LVLWAIT raises LVLSELF (R139). -/
def State.levelSelf (s : State) (b : Block) (l : Level) : Bool :=
  match s.ctxOf b with
  | some c => c.below l.slot b.slot || (l.kind = 3 && decide (s.phaseOf b < l.phase))
  | none => false

/-- The status word of a freed instance. -/
def Ctx.pastAt (c : Ctx) (slot : Nat) (gen : BitVec 32) : Option Dword :=
  match c.past.find? fun p => p.1 == slot && p.2.1 == gen with
  | some p => some p.2.2
  | none => none

/-- The status word of an instance once it is complete, freed or not. -/
def Ctx.statusAt (c : Ctx) (slot : Nat) (gen : BitVec 32) : Option Dword :=
  match c.level? slot with
  | some l => if l.gen = gen then (if l.complete then some l.status else none) else c.pastAt slot gen
  | none => c.pastAt slot gen

/-- A team that waits in LVLWAIT continues once the instance is complete. -/
def State.wakeLevel (s : State) (r : TRef) : State :=
  match s.team? r with
  | some (b, t) =>
    match t.wait, s.ctxOf b with
    | some (.level slot gen d id), some c =>
      (match c.statusAt slot (BitVec.ofNat 32 gen) with
       | some v => s.updTeam r fun u => u.deliver id [.w d v]
       | none => s)
    | _, _ => s
  | none => s

/-- Status words of freed instances that no team waits for any more are forgotten. -/
def State.forgetPast (s : State) : State :=
  if s.ctxs.all fun c => c.past.isEmpty then s
  else
    let used (tag : BitVec 12) (slot : Nat) (gen : BitVec 32) : Bool := s.blocks.any fun b => b.tag == tag && b.teams.any fun t =>
      match t.wait with | some (.level x g _ _) => x == slot && g == gen.toNat | _ => false
    { s with ctxs := s.ctxs.map fun (c : Ctx) => { c with past := c.past.filter fun p => used c.tag p.1 p.2.1 } }

def execLvlwait (h : Hd) (d a : BitVec 6) (s : State) : Out :=
  s.chk [.w a.toNat] [.w d.toNat] true fun b t => s.atPoint h b <|
    s.withChk (s.levelArg b (t.rw a)) fun l =>
      if s.levelSelf b l then .next (s.trap .lvlself)
      else
        match (s.countPoint b).newId with
        | (id, s1) =>
          .next ((s1.issue h true fun u =>
            Team.addPend { u with wait := some (.level l.slot l.gen.toNat d.toNat id) } id [.w d.toNat] none false).wakeLevel s.cur.r)

/-- LVLWAIT.poll (R139): it does not wait, and is an implicit switch as LVLWAIT is (R89). -/
def execLvlwaitPoll (h : Hd) (d a : BitVec 6) (s : State) : Out :=
  s.chk [.w a.toNat] [.w d.toNat] true fun b t =>
    s.withChk (s.levelArg b (t.rw a)) fun l =>
      if s.levelSelf b l then .next (s.trap .lvlself)
      else .next (s.scoreNow h d (if l.complete then l.status else 0xFFFFFFFFFFFFFFFF#64) true)

def execLvlcancel (h : Hd) (a : BitVec 6) (s : State) : Out :=
  s.chk [.w a.toNat] [] false fun b t =>
    s.withChk (s.levelArg b (t.rw a)) fun l => .next ((s.cancelLevel b.tag l.slot).issue h false id)

/-- EXIT (R141): the end of the team, whatever m0 and the reconvergence stack hold. -/
def execExit (h : Hd) (s : State) : Out :=
  s.chk [] [] false fun b _ => .next (((s.countPoint b).issue h true id).endTeam s.cur.r)

end Sys2Proof.Machine
end

