-- ==== Sys2Proof/Machine/Task.lean ====
section
/-! DEFINITION. Tasks, region dependences, futures and bins: class 24 (R329 to R337, R340 to R352). -/

namespace Sys2Proof.Machine

/-! ### Entries of the units (R330) -/

/-- A free index below `n`, found from a starting point of the unit's choosing. -/
def freeIdx (n start : Nat) (used : List Nat) : Nat :=
  match findFrom (fun i => !used.contains i) start (n - start) with
  | some i => i
  | none => (findFrom (fun i => !used.contains i) 0 start).getD 0

/-- A port, pattern, future or queue handle (R330). -/
def unitHandle (tag : BitVec 12) (die : Nat) (gen : BitVec 32) (idx : Nat) : Dword :=
  BitVec.ofNat 64 (tag.toNat * 2 ^ 52 + die % 4 * 2 ^ 50 + gen.toNat * 2 ^ 16 + idx % 2 ^ 16)

/-- DIE, GEN and INDEX of a handle. -/
def hDie (h : Dword) : Nat := natBits h.toNat 50 2
def hGen (h : Dword) : BitVec 32 := h.extractLsb' 16 32
def hIdx (h : Dword) : Nat := natBits h.toNat 0 16
/-- Whether a handle's owner is a context. -/
def hOwn (h : Dword) (tag : BitVec 12) : Bool := h.extractLsb' 52 12 == tag

/-- The generation of an entry that is taken: what it has, or for one never used a value of the unit's choosing
(log entry 3). -/
def State.takeGen (s : State) (g : Option (BitVec 32)) : BitVec 32 × State :=
  match g with
  | some x => (x, s)
  | none => match s.fresh with | (x, s1) => (x.setWidth 32, s1)

/-! ### Task records (R329, R334, R343) -/

/-- The shape of a task record's header. -/
def taskShape (r : Nat) : Shape :=
  { teams := natBits r 96 4 + 1, wm := natBits r 91 5 + 1, regs := 8 * (natBits r 88 3 + 1), spad := natBits r 79 9
    slots := natBits r 73 6, tiles := natBits r 68 5, role := BitVec.ofNat 64 (natBits r 48 16)
    entry := BitVec.ofNat 56 (natBits r 0 48) }

/-- TASKREC of a record's header (R334). -/
def taskBad (r : Nat) : Bool := (taskShape r).bad || natBits r 66 2 ≠ 0

/-- ARG0 to ARG7, from the 16-byte pieces after the header. -/
def taskArgs (l : List Nat) : List Dword :=
  l.flatMap fun x => [BitVec.ofNat 64 (natBits x 0 64), BitVec.ofNat 64 (natBits x 64 64)]

/-- A region entry. -/
def regionOf (x : Nat) : Region := { base := natBits x 0 56, len := natBits x 64 40, write := natBits x 104 1 = 1 }

/-- TASKREC of a region entry (R343). -/
def regionBad (x : Nat) : Bool :=
  natBits x 56 8 ≠ 0 || natBits x 105 23 ≠ 0 || 2 ^ 56 < natBits x 0 56 + natBits x 64 40

/-- Whether two regions conflict (R344). -/
def Region.conflict (a b : Region) : Bool :=
  (a.write || b.write) && decide (a.base < b.base + b.len) && decide (b.base < a.base + a.len)

/-- The graph that a launch lies in. -/
def State.graphOf (s : State) (tag : BitVec 12) (slot : Nat) : Option Nat :=
  match s.ctx? tag with
  | some c => (match c.level? slot with | some l => l.parent | none => none)
  | none => none

/-- The tasks with regions that have not ended: identity, context, launch slot, regions. -/
def State.regionTasks (s : State) : List (Nat × BitVec 12 × Nat × List Region) :=
  ((s.blocks.filter fun b => !b.regions.isEmpty).map fun b => (b.id, b.tag, b.slot, b.regions))
    ++ (s.dispatches.filter fun d => !d.regions.isEmpty).map fun d => (d.id, d.tag, d.slot, d.regions)

/-- The earlier tasks of a graph that a task with regions waits for (R344). -/
def State.regionAfter (s : State) (tag : BitVec 12) (graph : Option Nat) (rs : List Region) : List Nat :=
  (s.regionTasks.filter fun q => q.2.1 == tag && s.graphOf tag q.2.2.1 == graph && q.2.2.2.any fun x => rs.any fun y => x.conflict y).map
    fun q => q.1

/-- The die on which the graph of a launch was created. -/
def State.graphDie (s : State) (tag : BitVec 12) (graph : Option Nat) : Nat :=
  match s.ctx? tag, graph with
  | some c, some g => (match c.level? g with | some l => l.die | none => 0)
  | _, _ => 0

/-- Entries in use in the region matcher of a die: one for each task with regions. -/
def State.matcherUsed (s : State) (die : Nat) : Nat :=
  (s.regionTasks.filter fun q => s.graphDie q.2.1 (s.graphOf q.2.1 q.2.2.1) = die).length

/-! ### SPAWN and SPAWNF -/

/-- A task's dispatch (R334, R341): over the partition, from a cursor. -/
def taskDispatch (id : Nat) (tag : BitVec 12) (slot : Nat) (kind : DKind) (shape : Shape) (args : List Dword) (cursor : Nat)
    (future : Option (Nat × Nat)) (regions : List Region) (after : List Nat) : Dispatch :=
  { id := id, kind := kind, tag := tag, slot := slot, shape := shape, args := args, next := 0, total := 1, num := 0
    first := 0, count := 1024, pair := false, cursor := cursor, held := none, flying := false, node := none, tree := none
    future := future, regions := regions, after := after, rspad := 0, records := [], rw := 0 }

/-- A task's dispatch starts its life, or never starts where a cancel already holds (R46, R348). -/
def State.startTask (s : State) (d : Dispatch) : State :=
  if s.levelCancelled d.tag d.slot then (s.closeIfCancelled d.tag d.slot).futEnd d.future .reclaimed 0#64 0
  else { s with dispatches := s.dispatches ++ [d] }

/-- The record that SPAWN and SPAWNF read, once every earlier access of path L is performed: the header and the
arguments. -/
def State.spawnWord (s : State) (d b : BitVec 6) (f : Block → Team → Nat → List Dword → State → Out) : Out :=
  s.chk [.w b.toNat, .w (b.toNat + 1)] [.w d.toNat] true fun bl t =>
    if t.outstanding s.cur.base .l then .next (s.park .pipe)
    else
      s.withGot bl (s.getList bl 16 (t.opnd b 0 % 2 ^ 56) 5) fun l s1 =>
        match l with
        | r :: as => if taskBad r then .next (s1.trap .taskrec) else f bl t r (taskArgs as) s1
        | [] => .next s1

/-- NG and NP of a task record. -/
def taskNg (r : Nat) : Bool := natBits r 64 1 = 1
def taskNp (r : Nat) : Bool := natBits r 65 1 = 1

/-- SPAWN: region entries of extent 0 are ignored (R343), and a task that has no other takes no entry of the matcher. -/
def execSpawn (h : Hd) (d b : BitVec 6) (s : State) : Out :=
  s.spawnWord d b fun bl t r args s1 =>
    let q := t.opnd b 1
    let n := natBits q 56 3
    if natBits q 59 5 ≠ 0 || 5 ≤ n || (n ≠ 0 && natBits q 0 4 ≠ 0) then .next (s1.trap .taskrec)
    else
      s1.withGot bl (s1.getList bl 16 (natBits q 0 56) n) fun rs s2 =>
        if rs.any regionBad then .next (s2.trap .taskrec)
        else if !s2.slotsFree bl.tag (slotsNeeded (taskNg r) (taskNp r)) then .next (s2.trap .lvlfull)
        else
          let regions := (rs.map regionOf).filter fun x => x.len ≠ 0
          let fresh := taskNg r || taskNp r
          let die := if fresh then coreDie bl.core else s2.graphDie bl.tag (s2.graphOf bl.tag bl.slot)
          if !regions.isEmpty && 8192 ≤ s2.matcherUsed die then .next (s2.park .queue)
          else
            match s2.newLaunch bl.tag bl.slot (taskNg r) (taskNp r) .task 1 (coreDie bl.core) with
            | (slot, _, s3) =>
              match s3.newId with
              | (id, s4) =>
                let after := s4.regionAfter bl.tag (s4.graphOf bl.tag slot) regions
                let s5 := s4.scoreNow h d (s4.handleAt bl.tag slot)
                .next (s5.startTask (taskDispatch id bl.tag slot .task (taskShape r) args bl.core none regions after))

/-- The future entries of a die that are in use. -/
def Die.futUsed (d : Die) : List Nat := (d.futures.filter fun p => p.2.owner.isSome).map fun p => p.1

def execSpawnf (h : Hd) (d b : BitVec 6) (s : State) : Out :=
  s.spawnWord d b fun bl t r args s1 =>
    let va := t.opnd b 1 % 2 ^ 56
    match s1.legalVa bl .wr 32 va with
    | (.bad c, s2) => .next (s2.trap c)
    | (.absent, s2) => .next ((s2.absence bl.tag va).park .xlate)
    | (.pa pa, s2) =>
      if s2.held pa then .next (s2.park .xlate) else
      let die := coreDie bl.core
      if 65536 ≤ (s2.die die).futUsed.length then .next (s2.trap .futarg)
      else if !s2.slotsFree bl.tag (slotsNeeded (taskNg r) (taskNp r)) then .next (s2.trap .lvlfull)
      else
        match s2.newLaunch bl.tag bl.slot (taskNg r) (taskNp r) .task 1 die with
        | (slot, _, s3) =>
          match s3.choice 65536 with
          | (start, s4) =>
            let i := freeIdx 65536 start (s4.die die).futUsed
            match s4.takeGen ((entry? (s4.die die).futures i).map fun f => f.gen) with
            | (g, s5) =>
              let id := s5.nextId
              let fu : Future :=
                { id := id, gen := g, owner := some bl.tag, tag := bl.tag, addr := pa, count := 1, pcount := 0, st := .pending
                  value := 0#64, task := (s5.handleAt bl.tag slot).setWidth 48, slot := slot }
              let s6 := { s5 with nextId := id + 2 }
              let s7 := (s6.updDie die fun e => { e with futures := entryPut e.futures i fu }).futWrite fu
              let s8 := s7.updBlock bl.id fun x => { x with holds := x.holds ++ [(die, id)] }
              let s9 := s8.scoreNow h d (unitHandle bl.tag die g i)
              .next (s9.startTask (taskDispatch (id + 1) bl.tag slot .task (taskShape r) args bl.core (some (die, id)) [] []))

/-! ### The other future words (R335 to R337, R345, R346) -/

/-- The future that a handle names: its die and the entry, if it is valid (R330). -/
def State.futArg (s : State) (b : Block) (h : Dword) : Option (Nat × Future) :=
  match entry? (s.die (hDie h)).futures (hIdx h) with
  | some f => if hOwn h b.tag && f.gen = hGen h && f.owner == some b.tag then some (hDie h, f) else none
  | none => none

/-- A word on a future goes on with it, or raises FUTARG. -/
def State.withFut (s : State) (b : Block) (h : Dword) (f : Nat → Future → Out) : Out :=
  match s.futArg b h with
  | some (e, x) => f e x
  | none => .next (s.trap .futarg)

def execFref (h : Hd) (b : BitVec 6) (s : State) : Out :=
  s.chk [.w b.toNat] [] false fun bl t =>
    s.withFut bl (t.rw b) fun e x =>
      if 65535 ≤ x.count then .next (s.trap .futarg)
      else
        let y := { x with count := x.count + 1 }
        .next (((s.updFuture e x.id fun _ => y).futWrite y).issue h false id)

/-- FDROP: the first one of the spawning task's block clears the mark of R347. -/
def execFdrop (h : Hd) (b : BitVec 6) (s : State) : Out :=
  s.chk [.w b.toNat] [] false fun bl t =>
    s.withFut bl (t.rw b) fun e x =>
      let s1 := s.updBlock bl.id fun y => { y with holds := y.holds.filter fun q => q != (e, x.id) }
      .next ((s1.issue h false id).futDropAll [(e, x.id)])

/-- A team that waits in FWAIT (R336): it receives VALUE, or FUTDEAD once the task is faulted or reclaimed. -/
def State.wakeFuture (s : State) (r : TRef) : State :=
  match s.team? r with
  | some (_, t) =>
    match t.wait with
    | some (.future e x d id pc) =>
      (match s.future? e x with
       | none => s
       | some f =>
         match f.st with
         | .pending => s
         | .done => (s.updTeam r fun u => u.deliver id [.w d f.value]).futForget e
         | _ =>
           let s1 := s.updTeam r fun u => { u with wait := none, pend := u.pend.filter fun p => p.id != id }
           (s1.futForget e).raise r
             { cause := .futdead, info := 0, pc := pc, resume := pc, lanes := [], extn := none, misrec := 0#64 })
    | _ => s
  | none => s

def execFwait (h : Hd) (d b : BitVec 6) (s : State) : Out :=
  s.chk [.w b.toNat] [.w d.toNat] true fun bl t => s.atPoint h bl <|
    s.withFut bl (t.rw b) fun e x =>
      if bl.future == some (e, x.id) then .next (s.trap .futarg)
      else
        match (s.countPoint bl).newId with
        | (id, s1) =>
          .next ((s1.issue h true fun u =>
            Team.addPend { u with wait := some (.future e x.id d.toNat id s.cur.addr) } id [.w d.toNat] none false).wakeFuture s.cur.r)

def execFpoll (h : Hd) (d b : BitVec 6) (s : State) : Out :=
  let regs : List RegName := [.w d.toNat, .w (d.toNat + 1)]
  s.chk [.w b.toNat] regs true fun bl t =>
    s.withFut bl (t.rw b) fun _ x =>
      match s.newId with
      | (id, s1) =>
        let v := if x.st = .done then x.value else 0#64
        .next (s1.issue h false fun u =>
          u.addPend id regs (some [.w d.toNat v, .w (d.toNat + 1) (BitVec.ofNat 64 x.st.code)]) false)

def execRpoint (h : Hd) (s : State) : Out :=
  s.chk [] [] false fun b _ => s.atPoint h b <| .next ((s.countPoint b).issue h true id)

/-! ### Bins (R349 to R352) -/

/-- The bin of a launch, with its die. -/
def State.binOf (s : State) (tag : BitVec 12) (slot : Nat) : Option (Nat × Bin) :=
  (List.range s.dies.length).findSome? fun e =>
    match (s.die e).bins.find? fun x => x.tag == tag && x.slot == slot with
    | some x => some (e, x)
    | none => none

/-- The bin changed. -/
def State.putBin (s : State) (e : Nat) (x : Bin) : State :=
  s.updDie e fun d => { d with bins := updWhere (fun y => y.idx = x.idx) (fun _ => x) d.bins }

/-- A member more in an instance. -/
def State.joinLevel (s : State) (tag : BitVec 12) (slot : Nat) : State :=
  s.updCtx tag fun c =>
    match c.level? slot with | some l => c.putLevel { l with counter := l.counter + 1 } | none => c

/-- The bin closed: it is gone, and no member of its launch any more (R352). -/
def State.closeBin (s : State) (e : Nat) (x : Bin) : State :=
  (s.updDie e fun d => { d with bins := d.bins.filter fun y => y.idx != x.idx }).updCtx x.tag fun c => c.moveOut x.slot 1

/-- The oldest `n` records of a bin dispatched as one block (R351), its scan going on where the bin's last one ended (R49); dispatch
2^24 - 1 closes the bin. -/
def State.binDispatch (s : State) (e : Nat) (x : Bin) (n : Nat) : State :=
  let recs := x.records.take n
  let args := [BitVec.ofNat 64 recs.length, BitVec.ofNat 64 x.rspad] ++ (recs.headD []).take 6
  match s.newId with
  | (id, s1) =>
    let d : Dispatch :=
      { taskDispatch id x.tag x.slot .bin x.shape args x.cursor none [] [] with
        num := x.formed, rspad := x.rspad, records := recs.flatten, rw := x.rw }
    let rest := x.records.drop n
    let x1 := { x with records := rest, formed := x.formed + 1, deadline := if rest.isEmpty then none else x.deadline }
    let s2 := s1.joinLevel x.tag x.slot
    let s3 := { s2 with dispatches := s2.dispatches ++ [d] }
    if 2 ^ 24 ≤ x1.formed then s3.closeBin e x1 else s3.putBin e x1

/-- A record accepted by a bin (R351): one acceptance completes at most one dispatch, since fewer than COAL + 1 were held;
`last` closes the bin. -/
def State.binAccept (s : State) (e : Nat) (x : Bin) (r : List Dword) (last : Bool) : State :=
  let x1 := { x with records := x.records ++ [r]
                     deadline := if x.records.isEmpty then some (s.clock + 64 * x.timer) else x.deadline }
  let s1 := if x1.coal ≤ x1.records.length then s.binDispatch e x1 x1.coal else s.putBin e x1
  if !last then s1
  else
    match s1.binOf x.tag x.slot with
    | none => s1
    | some (_, y) =>
      if y.records.isEmpty then s1.closeBin e y
      else
        let s2 := s1.binDispatch e y y.records.length
        match s2.binOf x.tag x.slot with | some (_, z) => s2.closeBin e z | none => s2

/-- Records that a die's work-bin unit holds. -/
def Die.binRecords (d : Die) : Nat := (d.bins.map fun x => x.records.length).foldl (· + ·) 0

/-- The open bin that BINPOST's handle names, if every check of R350 passes. -/
def State.binArg (s : State) (b : Block) (h : Dword) (n : Nat) : Option (Nat × Bin) :=
  match s.levelArg b h with
  | .error _ => none
  | .ok l =>
    if l.kind ≠ 1 || l.lkind ≠ .bin then none
    else match s.binOf b.tag l.slot with
      | some (e, x) => if x.rw = n then some (e, x) else none
      | none => none

/-- BINPOST (R350): a release at module scope; it parks with QUEUE while the die's record store is full. -/
def execBinpost (h : Hd) (wh b : BitVec 6) (n : BitVec 3) (l : BitVec 1) (s : State) : Out :=
  let m := n.toNat + 1
  s.chk (.w wh.toNat :: (List.range m).map fun i => .w (b.toNat + i)) [] false fun bl t =>
    match s.binArg bl (t.rw wh) m with
    | none => .next (s.trap .binarg)
    | some (e, x) =>
      if 65536 ≤ (s.die e).binRecords then .next (s.park .queue)
      else if t.outstanding s.cur.base .l then .next (s.park .pipe)
      else
        let r := (List.range m).map fun i => t.w.getD (b.toNat + i) 0#64
        .next ((s.issue h false id).binAccept e x r (l = 1#1))

/-- BIN_TIMER_EXPIRY (R351). -/
def execBinTimerExpiry (e : BitVec 2) (n : Nat) (s : State) : Out :=
  match (s.die e.toNat).bins.find? fun x => x.idx = n with
  | none => .next s
  | some x =>
    match x.deadline with
    | some t =>
      if t ≤ s.clock && !x.records.isEmpty then .next (s.binDispatch e.toNat { x with deadline := none } x.records.length)
      else .next s
    | none => .next s

end Sys2Proof.Machine
end

