-- ==== Sys2Proof/Machine/Hutch.lean ====
section
/-! DEFINITION. Ports and join patterns: class 25, the firing of patterns and messages from outside (R328 to R333, R357 to R362,
R420). -/

namespace Sys2Proof.Machine

/-- The port that a handle names: its die and index, if it is valid (R330). -/
def State.portArg (s : State) (b : Block) (h : Dword) : Option (Nat × Nat × Port) :=
  match entry? (s.die (hDie h)).ports (hIdx h) with
  | some p => if hOwn h b.tag && p.gen = hGen h && p.owner == some b.tag then some (hDie h, hIdx h, p) else none
  | none => none

/-- The ports and the patterns of a die that are in use. -/
def Die.portsUsed (d : Die) : List Nat := (d.ports.filter fun p => p.2.owner.isSome).map fun p => p.1
def Die.patsUsed (d : Die) : List Nat := (d.patterns.filter fun p => p.2.owner.isSome).map fun p => p.1

/-- A new port of a context on a die (R331), with its index and generation. -/
def State.openPort (s : State) (e : Nat) (tag : BitVec 12) : Nat × BitVec 32 × State :=
  match s.choice 4096 with
  | (start, s1) =>
    let i := freeIdx 4096 start (s1.die e).portsUsed
    match s1.takeGen ((entry? (s1.die e).ports i).map fun p => p.gen) with
    | (g, s2) =>
      let p : Port := { gen := g, owner := some tag, msgs := [], held := [], refused := 0, waiting := [] }
      (i, g, s2.updDie e fun d => { d with ports := entryPut d.ports i p })

def execPortopen (h : Hd) (d b : BitVec 6) (s : State) : Out :=
  s.chk [.w b.toNat] [.w d.toNat] true fun bl t =>
    let e := (t.rw b).toNat % 4
    if 4096 ≤ (s.die e).portsUsed.length then .next (s.trap .portarg)
    else match s.openPort e bl.tag with
      | (i, g, s1) => .next (s1.scoreNow h d (unitHandle bl.tag e g i))

/-- SEND (R331, R332): it waits for a firing that is due, before which no arrival is tested (R358), and for messages held for the
port (R361). -/
def execSend (h : Hd) (p b : BitVec 6) (s : State) : Out :=
  s.chk [.w p.toNat, .w b.toNat] [] false fun bl t =>
    match s.portArg bl (t.rw p) with
    | none => .next (s.trap .portarg)
    | some (e, i, x) =>
      if s.firing e then .next (s.park .pipe)
      else if 16 ≤ x.msgs.length then .next (s.trap .portfull)
      else if t.outstanding s.cur.base .l || !x.held.isEmpty then .next (s.park .pipe)
      else .next ((s.issue h false id).acceptMsg e i (t.rw b))

/-- SENDT (R360), in its turn as SEND: 0 when the message was accepted, 1 for a full port. -/
def execSendt (h : Hd) (d b : BitVec 6) (s : State) : Out :=
  s.chk [.w b.toNat, .w (b.toNat + 1)] [.w d.toNat] true fun bl t =>
    match s.portArg bl (t.rw b) with
    | none => .next (s.trap .portarg)
    | some (e, i, x) =>
      if s.firing e then .next (s.park .pipe)
      else if 16 ≤ x.msgs.length then .next (s.scoreNow h d 1#64)
      else if t.outstanding s.cur.base .l || !x.held.isEmpty then .next (s.park .pipe)
      else .next ((s.scoreNow h d 0#64).acceptMsg e i (t.w.getD (b.toNat + 1) 0#64))

/-- Whether an active pattern of a die lists a port. -/
def Die.listed (d : Die) (p : Nat) : Bool := d.patterns.any fun q => q.2.owner.isSome && q.2.ports.contains p

/-- A team that waits in RECV takes a message when it is the first that can. -/
def State.wakeRecv (s : State) (r : TRef) : State :=
  match s.team? r with
  | some (_, t) =>
    match t.wait with
    | some (.recv e p _ _) => s.serve e p
    | _ => s
  | none => s

/-- RECV (R331): a wait, and so the last member of its chain. -/
def execRecv (h : Hd) (d p : BitVec 6) (s : State) : Out :=
  s.chk [.w p.toNat] [.w d.toNat] true fun bl t => s.atPoint h bl <|
    match s.portArg bl (t.rw p) with
    | none => .next (s.trap .portarg)
    | some (e, i, _) =>
      if (s.die e).listed i then .next (s.trap .portarg)
      else
        match (s.countPoint bl).newId with
        | (id, s1) =>
          let s2 := s1.issue h true fun u =>
            Team.addPend { u with wait := some (.recv e i d.toNat id) } id [.w d.toNat] none false
          let s3 := s2.updDie e fun z => z.updPort i fun y => { y with waiting := y.waiting ++ [s.cur.r] }
          .next (s3.wakeRecv s.cur.r)

/-! ### Patterns (R357) -/

/-- Ports of a pattern record. -/
def patPorts (r : Nat) : Nat := natBits r 457 3 + 1

/-- The shape of a pattern record's handler. -/
def patShape (r : Nat) : Shape :=
  { teams := natBits r 492 4 + 1, wm := natBits r 487 5 + 1, regs := 8 * (natBits r 484 3 + 1), spad := natBits r 475 9
    slots := natBits r 469 6, tiles := natBits r 464 5, role := BitVec.ofNat 64 (natBits r 496 16)
    entry := BitVec.ofNat 56 (natBits r 392 48) }

/-- Constant `i` of a pattern record. -/
def patConst (r i : Nat) : Dword := BitVec.ofNat 64 (wrapInt 64 (sextNat (natBits r (56 * i) 56) 56))

/-- The PATARG cases of a record by itself (R357). -/
def patBad (r : Nat) : Bool :=
  (patShape r).bad || natBits r 440 17 ≠ 0
    || (List.range 7).any fun i => decide (8 - patPorts r ≤ i) && decide (natBits r (56 * i) 56 ≠ 0)

/-- A pattern made active: it joins the latest phase, and is tested at once against what its ports hold (R40, R331). -/
def State.activate (s : State) (e : Nat) (tag : BitVec 12) (r : Nat) (ports : List Nat) : Dword × State :=
  match s.choice 1024 with
  | (start, s1) =>
    let i := freeIdx 1024 start (s1.die e).patsUsed
    match s1.takeGen ((entry? (s1.die e).patterns i).map fun q => q.gen) with
    | (g, s2) =>
      let q : Pattern :=
        { gen := g, owner := some tag, ports := ports, prio := natBits r 460 4, shape := patShape r
          consts := (List.range (8 - ports.length)).map fun i => patConst r i }
      let s3 := s2.updDie e fun d =>
        Die.trim { d with patterns := entryPut d.patterns i q, hseq := ports ++ d.hseq.filter fun p => !ports.contains p }
      let latest := match s3.ctx? tag with | some c => c.latest | none => 0
      (unitHandle tag e g i, s3.joinLevel tag latest)

/-- Whether every port handle of PATSET may be listed, and the Hutch and ports that they name (R331). -/
def State.patArgs (s : State) (b : Block) (hs : List Dword) : Option (Nat × List Nat) :=
  let ps := hs.filterMap fun h => s.portArg b h
  let e := hs.headD 0#64
  let ids := ps.map fun p => p.2.1
  if ps.length ≠ hs.length || !(ps.all fun p => p.1 = hDie e) || ids.eraseDups.length ≠ ids.length
      || ps.any (fun p => p.2.2.waiting.any fun r => match s.team? r with
          | some (_, t) => (match t.wait with | some (.recv x y _ _) => x = p.1 && y = p.2.1 | _ => false)
          | none => false)
      || 1024 ≤ (s.die (hDie e)).patsUsed.length then none
  else some (hDie e, ids)

/-- PATSET (R331, R332, R357): the number of handles is the record's. -/
def execPatset (h : Hd) (d b : BitVec 6) (s : State) : Out :=
  s.chk [.w b.toNat] [.w d.toNat] true fun bl t =>
    if t.outstanding s.cur.base .l then .next (s.park .pipe)
    else
      s.withGot bl (s.getVa bl 64 (t.rw b).toNat) fun r s1 =>
        let n := patPorts r
        let regs : List RegName := (List.range n).map fun i => .w (b.toNat + 1 + i)
        if 63 < b.toNat + n || patBad r then .next (s1.trap .patarg)
        else if t.pending s.cur.base regs then .next (s1.scorePark bl t regs)
        else
          match s1.patArgs bl ((List.range n).map fun i => t.w.getD (b.toNat + 1 + i) 0#64) with
          | none => .next (s1.trap .patarg)
          | some (e, ports) =>
            if s1.firing e then .next (s1.park .pipe)
            else match s1.activate e bl.tag r ports with
              | (v, s2) => .next (s2.scoreNow h d v)

/-- The candidate of highest priority, and of those the one of lowest index (R358). -/
def firstPattern (l : List (Nat × Pattern)) : Option (Nat × Pattern) :=
  l.foldl (fun m p => match m with
    | some q => if q.2.prio < p.2.prio then some p else some q
    | none => some p) none

/-- The messages that a firing takes, and the ports without them. -/
def Die.takeAll (d : Die) : List Nat → List Dword × Die
  | [] => ([], d)
  | p :: ps =>
    let m := match entry? d.ports p with | some x => x.msgs.headD 0#64 | none => 0#64
    match (d.updPort p fun x => { x with msgs := x.msgs.drop 1 }).takeAll ps with
    | (ms, d1) => (m :: ms, d1)

/-- The index of the phase of a level slot. -/
def Ctx.phaseAt (c : Ctx) (slot : Nat) : Nat := match c.level? slot with | some l => l.phase | none => 0

/-- PATTERN_FIRING (R333, R358, R359): the messages are taken and the handler's task starts in a graph of its own. -/
def execPatternFiring (e : BitVec 2) (s : State) : Out :=
  match firstPattern ((s.die e.toNat).patterns.filter fun p => s.candidate e.toNat p.2) with
  | none => .next s
  | some (_, q) =>
    match q.owner with
    | none => .next s
    | some tag =>
      match s.ctx? tag, (s.die e.toNat).takeAll q.ports with
      | none, _ => .next s
      | some c, (ms, d1) =>
        let s1 := s.updDie e.toNat fun _ => d1.trim
        match s1.newLevel tag 2 .group (some c.latest) 0 (c.phaseAt c.latest) true e.toNat with
        | (g, s2) =>
          match s2.newLevel tag 1 .task (some g) 1 (c.phaseAt c.latest) false e.toNat with
          | (slot, s3) =>
            match s3.newId with
            | (id, s4) =>
              .next (s4.startTask (taskDispatch id tag slot .handler q.shape (ms ++ q.consts) (256 * e.toNat) none [] []))

/-- HELD_MESSAGE_APPEND (R361). -/
def execHeldMessageAppend (e : BitVec 2) (p : BitVec 12) (s : State) : Out :=
  match entry? (s.die e.toNat).ports p.toNat with
  | none => .next s
  | some x =>
    match x.held with
    | [] => .next s
    | v :: vs =>
      if x.msgs.length < 16 && !s.firing e.toNat then
        .next ((s.updDie e.toNat fun d => d.updPort p.toNat fun y => { y with held := vs }).acceptMsg e.toNat p.toNat v)
      else .next s

/-- A message that the host posts to a port (R420): accepted, refused by a full port, or lost. -/
def State.postMsg (s : State) (e p : Nat) (v : Dword) : State :=
  match entry? (s.die e).ports p with
  | some x =>
    if x.owner.isNone then { s with lost := if s.lost = 0xFFFFFFFF#32 then s.lost else s.lost + 1#32 }
    else if 16 ≤ x.msgs.length then s.updDie e fun d => d.updPort p fun y => { y with refused := min (y.refused + 1) (2 ^ 32 - 1) }
    else s.acceptMsg e p v
  | none => { s with lost := if s.lost = 0xFFFFFFFF#32 then s.lost else s.lost + 1#32 }

/-- Whether a post has to wait for a firing or for a message that is held (R358, R361). -/
def State.postBusy (s : State) (e p : Nat) : Bool :=
  match entry? (s.die e).ports p with
  | some x => s.firing e || (!x.held.isEmpty && decide (x.msgs.length < 16))
  | none => false

/-- The firings that are due, and the messages held for a port, come before a post that arrives (R358, R361). -/
def State.settlePort (e : BitVec 2) (p : BitVec 12) : Nat → State → State
  | 0, s => s
  | fuel + 1, s =>
    if !s.postBusy e.toNat p.toNat then s
    else
      match (if s.firing e.toNat then execPatternFiring e s else execHeldMessageAppend e p s) with
      | .next s1 => State.settlePort e p fuel s1
      | _ => s

/-- The messages of a die's ports, as a bound on the firings that can be due. -/
def Die.msgCount (d : Die) : Nat := (d.ports.map fun p => p.2.msgs.length + p.2.held.length).foldl (· + ·) 0

/-- A post that arrives at a port of a die (R420). -/
def State.post' (s : State) (e : BitVec 2) (p : BitVec 12) (v : Dword) : State :=
  (State.settlePort e p (2 * (s.die e.toNat).msgCount + 1) s).postMsg e.toNat p.toNat v

/-- POST (R420): the message, the die and the port are the input's. Before Dawn's last step the host's access receives an error
completion (R453). -/
def execPost (s : State) : Out :=
  if s.dawn.step < 6 then .next { s with hostReply := none }
  else .next (s.post' s.input.die (s.input.idx.setWidth 12) s.input.val)

end Sys2Proof.Machine
end

