-- ==== Sys2Proof/Machine/Queue.lean ====
section
/-! DEFINITION. Queues: class 26 (R353 to R356). Accesses of path Q are performed when the word issues or the wait ends. -/

namespace Sys2Proof.Machine

/-- The queue that a handle names: its die and index, if it is valid (R330, R353). -/
def State.queueArg (s : State) (b : Block) (h : Dword) : Option (Nat × Nat × Queue) :=
  match entry? (s.die (hDie h)).queues (hIdx h) with
  | some q => if hOwn h b.tag && q.gen = hGen h && q.owner == some b.tag then some (hDie h, hIdx h, q) else none
  | none => none

/-- Whether core `c` lies in core `a`'s instance of a scope (R248). -/
def inScope (scope a c : Nat) : Bool :=
  match scope with
  | 0 => a = c
  | 1 => coreCluster a = coreCluster c
  | 2 => clusterRow (coreCluster a) = clusterRow (coreCluster c) && clusterCol (coreCluster a) = clusterCol (coreCluster c)
  | 3 => clusterRow (coreCluster a) = clusterRow (coreCluster c) || clusterCol (coreCluster a) = clusterCol (coreCluster c)
  | _ => true

/-- The queue of a die's table changed. -/
def State.updQueue (s : State) (e i : Nat) (f : Queue → Queue) : State :=
  s.updDie e fun d => match entry? d.queues i with | some q => { d with queues := entryPut d.queues i (f q) } | none => d

/-- The queues of a die that are in use. -/
def Die.queuesUsed (d : Die) : List Nat := (d.queues.filter fun p => p.2.owner.isSome).map fun p => p.1

/-- QCREATE (R353). -/
def execQcreate (h : Hd) (d b : BitVec 6) (s : State) : Out :=
  s.chk [.w b.toNat, .w (b.toNat + 1)] [.w d.toNat] true fun bl t =>
    let ring := t.opnd b 0
    let q := t.opnd b 1
    let e := coreDie bl.core
    if ring % 64 ≠ 0 || natBits q 0 5 = 0 || 20 < natBits q 0 5 || natBits q 5 3 ≠ 0 || natBits q 11 5 ≠ 0
        || natBits q 16 3 = 7 || natBits q 19 45 ≠ 0 || 4096 ≤ (s.die e).queuesUsed.length then .next (s.trap .qarg)
    else
      match s.choice 4096 with
      | (start, s1) =>
        let i := freeIdx 4096 start (s1.die e).queuesUsed
        match s1.takeGen ((entry? (s1.die e).queues i).map fun q => q.gen) with
        | (g, s2) =>
          let x : Queue :=
            { gen := g, owner := some bl.tag, ring := ring % 2 ^ 56, log := natBits q 0 5, ew := natBits q 8 3 + 1
              scope := natBits q 16 3, core := bl.core, head := 0, tail := 0, waiting := [], pushing := [] }
          .next ((s2.updDie e fun z => { z with queues := entryPut z.queues i x }).scoreNow h d (unitHandle bl.tag e g i))

/-- Whether a team waits in QPOP on a queue. -/
def State.pops (s : State) (e i : Nat) (r : TRef) : Bool :=
  match s.team? r with
  | some (_, t) => (match t.wait with | some (.qpop x y _ _ _ _) => x == e && y == i | _ => false)
  | none => false

/-- Whether a team is parked in QPUSH on a queue. -/
def State.pushes (s : State) (e i : Nat) (r : TRef) : Bool :=
  match s.team? r with
  | some (_, t) => !t.ended && decide (t.want = .push e i)
  | none => false

/-- QCREATE.free (R353): the entry's generation advances. -/
def execQcreateFree (h : Hd) (b : BitVec 6) (s : State) : Out :=
  s.chk [.w b.toNat] [] false fun bl t =>
    match s.queueArg bl (t.rw b) with
    | none => .next (s.trap .qarg)
    | some (e, i, q) =>
      if q.head ≠ q.tail || q.waiting.any (s.pops e i) || q.pushing.any (s.pushes e i) then .next (s.trap .qarg)
      else
        .next ((s.updQueue e i fun y => { y with owner := none, gen := y.gen + 1#32, waiting := [], pushing := [] }).issue h false id)

/-- The virtual addresses of the dwords of an entry. -/
def Queue.slots (q : Queue) (n : Nat) : List Nat :=
  (List.range q.ew).map fun i => (q.ring + 8 * q.ew * (n % 2 ^ q.log) + 8 * i) % 2 ^ 56

/-- The physical addresses of an entry's dwords, the failing check, or an absent page (R202); what a write of the module's routing entry
holds (R425) waits as an absent page does. -/
def State.entryLegal (s : State) (b : Block) (need : Need) : List Nat → Got (List Nat)
  | [] => .ok [] s
  | va :: vs =>
    match s.legalVa b need 8 va with
    | (.bad c, _) => .bad c
    | (.absent, _) => .absent va
    | (.pa a, s1) =>
      if s1.held a then .absent va else
      match s1.entryLegal b need vs with
      | .ok as s2 => .ok (a :: as) s2
      | r => r

/-- The pops that wait are served in order, be their blocks saved, halted or stopped (R60), as long as entries last (R355). A pop whose entry fails its check raises the
cause at the QPOP and resumes at its chain's first word (R376), and the entry stays. -/
def State.servePop (s : State) (e i : Nat) : State :=
  match entry? (s.die e).queues i with
  | none => s
  | some q =>
    match q.waiting.find? (fun r => s.pops e i r && (match s.team? r with | some (b, _) => !b.dying | none => false)) with
    | none => s
    | some r =>
      if q.head = q.tail then s
      else
        match s.team? r with
        | none => s
        | some (b, t) =>
          match t.wait with
          | some (.qpop _ _ d id pc first) =>
            (match s.entryLegal b .rd (q.slots q.head) with
             | .absent va => (s.absence b.tag va).updTeam r fun u => { u with reason := .xlate }
             | .bad c =>
               let s1 := s.updQueue e i fun y => { y with waiting := y.waiting.filter fun x => x != r }
               let s2 := s1.updTeam r fun u => { u with wait := none, pend := u.pend.filter fun p => p.id != id }
               s2.raise r { cause := c, info := 0, pc := pc, resume := first, lanes := [], extn := none, misrec := 0#64 }
             | .ok as s1 =>
               match as.foldl (fun (p : State × List RegWrite) a =>
                   match p.1.memRd (some b.tag) a 8 with
                   | (v, s2) => (s2, p.2 ++ [.w (d + p.2.length) (BitVec.ofNat 64 v)])) (s1, []) with
               | (s2, ws) =>
                 let s3 := s2.updQueue e i fun y => { y with head := y.head + 1, waiting := y.waiting.filter fun x => x != r }
                 s3.updTeam r fun u => u.deliver id ws)
          | _ => s

/-- A team that waits in QPOP takes an entry when it is the first that can. -/
def State.wakePop (s : State) (r : TRef) : State :=
  match s.team? r with
  | some (_, t) =>
    match t.wait with
    | some (.qpop e i _ _ _ _) => s.servePop e i
    | _ => s
  | none => s

/-- QPUSH (R354): in its turn and once the queue has room; a release at the queue's scope. -/
def execQpush (h : Hd) (a b : BitVec 6) (s : State) : Out :=
  s.chk [.w b.toNat] [] false fun bl t =>
    match s.queueArg bl (t.rw b) with
    | none => .next (s.trap .qarg)
    | some (e, i, q) =>
      let regs : List RegName := (List.range q.ew).map fun j => .w (a.toNat + j)
      if 63 < a.toNat + q.ew - 1 then .next (s.trap .qarg)
      else if !inScope q.scope q.core bl.core then .next (s.trap .qscope)
      else if t.pending s.cur.base regs then .next (s.scorePark bl t regs)
      else
        s.withGot bl (s.entryLegal bl .wr (q.slots q.tail)) fun as s1 =>
          let first := match q.pushing.find? (s.pushes e i) with | some r => r = s.cur.r | none => true
          if !first || q.head + 2 ^ q.log ≤ q.tail then
            let s2 := if q.pushing.contains s.cur.r && decide (t.want = .push e i) then s1
              else s1.updQueue e i fun y => { y with pushing := y.pushing.filter (fun r => r != s.cur.r) ++ [s.cur.r] }
            .next (s2.parkFor .queue (.push e i))
          else if t.outstanding s.cur.base .l then .next (s1.park .pipe)
          else
            let s2 := as.zipIdx.foldl (fun s p =>
              s.memWr (some bl.tag) p.1 (natBytes 8 (t.w.getD (a.toNat + p.2) 0#64).toNat)) s1
            let s3 := s2.updQueue e i fun y => { y with tail := y.tail + 1, pushing := y.pushing.filter fun r => r != s.cur.r }
            .next ((s3.issue h false id).servePop e i)

/-- QPOP (R355): an implicit switch and a wait. -/
def execQpop (h : Hd) (d b : BitVec 6) (s : State) : Out :=
  s.chk [.w b.toNat] [] false fun bl t => s.atPoint h bl <|
    match s.queueArg bl (t.rw b) with
    | none => .next (s.trap .qarg)
    | some (e, i, q) =>
      let regs : List RegName := (List.range q.ew).map fun j => .w (d.toNat + j)
      if 63 < d.toNat + q.ew - 1 then .next (s.trap .qarg)
      else if !inScope q.scope q.core bl.core then .next (s.trap .qscope)
      else if t.pending s.cur.base regs then .next (s.scorePark bl t regs)
      else if t.runBusy s.clock regs then .next (s.park .switch)
      else
        match (s.countPoint bl).newId with
        | (id, s1) =>
          let s2 := s1.issue h true fun u =>
            Team.addPend { u with wait := some (.qpop e i d.toNat id s.cur.addr s.cur.first) } id regs none false
          .next ((s2.updQueue e i fun y => { y with waiting := y.waiting ++ [s.cur.r] }).wakePop s.cur.r)

end Sys2Proof.Machine
end

