-- ==== Sys2Proof/Machine/Xlat.lean ====
section
/-! DEFINITION. Translation words and invalidation: class 29, the invalidation registers, page-ready writes and the retries of
the operand log (R199 to R205, R244, R245, R368, R421). -/

namespace Sys2Proof.Machine

/-- The translation register that XLAT makes of a page (R244); a Bureau's has CLASS 3 (R368). -/
def Page.toX (p : Page) (e : Nat) (bureau : Bool) : XReg :=
  { vbase := BitVec.ofNat 56 e, frame := BitVec.ofNat 57 (p.frame + (e - p.page)), limit := BitVec.ofNat 30 (p.size - e % p.size)
    cls := if bureau then 3#3 else pageClass p, val := true, rd := p.rd, wr := p.wr, at' := p.at' }

/-- The register that XLAT writes for a page that is absent, unmapped or malformed. -/
def XReg.nowhere (e : Nat) : XReg := { XReg.invalid with vbase := BitVec.ofNat 56 e, val := true }

/-- Whether a translation of a block is held: its walk needs a table that is held, and no TLB has its page (R425). -/
def State.xlatHeld (s : State) (b : Block) (va : Nat) : Bool :=
  b.bureau.isNone && s.tableWait b.tag va && (match s.xlate b va with | (.absent, _) => true | _ => false)

/-- XLAT: no address trap and no absence message. A walk that a write of a table's routing entry holds (R425) is waited for. -/
def execXlat (h : Hd) (d : BitVec 3) (a : BitVec 6) (s : State) : Out :=
  s.chk [.w a.toNat] [.x d.toNat] true fun b t =>
    let e := (t.rw a).toNat % 2 ^ 56
    if s.xlatHeld b e then .next (s.park .xlate) else
    match s.xlate b e with
    | (w, s1) =>
      match s1.newId with
      | (id, s2) =>
        let x := match w with | .page p => p.toX e b.bureau.isSome | _ => XReg.nowhere e
        .next (s2.issue h false fun u => u.addPend id [.x d.toNat] (some [.x d.toNat x]) false)

/-! ### Invalidation (R200, R201, R245) -/

/-- The whole pages of a context that a range of `n` bytes touches, as first byte and end (R201, R245). A range that passes 2^56 is cut
off there, and does not wrap: the model's choice (log entry 138). -/
def State.pageSpan (s : State) (tag : BitVec 12) (a n : Nat) : Nat × Nat :=
  match s.ctx? tag with
  | some c => ((s.pageAt c a).1, (s.pageAt c (min (2 ^ 56) (a + n) - 1)).2)
  | none => (0, 0)

/-- What a translation register covers for an invalidation: the whole page of its base, as far as CLASS tells its size, from the first
byte to the end. That is the model's choice: R197 gives the register [VBASE, VBASE + LIMIT) alone (log entry 124). -/
def XReg.span (x : XReg) : Nat × Nat :=
  let z := match x.cls.toNat with | 0 => 2 ^ 16 | 1 => 2 ^ 21 | 2 => 2 ^ 29 | _ => 2 ^ 16
  (x.vbase.toNat / z * z, max (x.vbase.toNat / z * z + z) (x.vbase.toNat + x.limit.toNat))

/-- A translation register after an invalidation: LIMIT 0 where its page overlaps the range. -/
def XReg.invalidate (x : XReg) (g : Nat × Nat) : XReg :=
  if x.val && x.limit ≠ 0#30 && rangesMeet x.span g then { x with limit := 0#30 } else x

/-- A TLB entry that an invalidation of a context's range removes. -/
def TlbEntry.hit (e : TlbEntry) (tag : BitVec 12) (g : Nat × Nat) : Bool :=
  e.tag == tag && rangesMeet (e.page, e.page + e.size) g

/-- A register write with the translation that it brings invalidated. -/
def RegWrite.invalidate (w : RegWrite) (g : Nat × Nat) : RegWrite := match w with | .x r y => .x r (y.invalidate g) | y => y

/-- A team's translation registers after an invalidation, those among them whose result has not arrived yet (R200). -/
def Team.invalidate (t : Team) (g : Nat × Nat) : Team :=
  { t with x := t.x.map fun x => x.invalidate g
           pend := t.pend.map fun p => { p with ready := p.ready.map fun ws => ws.map fun w => w.invalidate g } }

/-- TLB entries and LIMIT fields of a context over a range invalidated. -/
def State.dropTlb (s : State) (tag : BitVec 12) (g : Nat × Nat) : State :=
  let cut (l : List (Nat × List TlbEntry)) := l.map fun p => (p.1, p.2.filter fun e => !e.hit tag g)
  { s with tlb1 := cut s.tlb1, tlb2 := cut s.tlb2
           blocks := s.blocks.map fun (b : Block) =>
             if b.tag == tag && b.bureau.isNone then { b with teams := b.teams.map fun t => t.invalidate g } else b }

/-! ### Retries of the operand log (R204) -/

/-- Whether a logged entry touches a range. -/
def MemOp.touches (o : MemOp) (g : Nat × Nat) : Bool := o.logged && o.lanes.any fun l => l.gone && decide (g.1 ≤ l.va) && decide (l.va < g.2)

/-- The kind of permission that an access needs. -/
def MemOp.need (o : MemOp) : Need := match o.kind with | .load => .rd | .atom => .at' | _ => .wr

/-- One lane retried: its page is resident and permits the access, or it stays logged; a page that is unmapped or lacks
permission is reported again as absent. -/
def State.retryLane (s : State) (b : Block) (o : MemOp) (l : LaneAcc) : LaneAcc × State :=
  if !l.gone then (l, s)
  else
    match s.legalVa b o.need o.size l.va with
    | (.pa a, s1) => ({ l with pa := some a }, s1)
    | (.absent, s1) => (l, s1.absence b.tag l.va)
    | (.bad _, s1) => (l, s1.postAbsent b.tag l.va)

/-- The lanes of an entry retried, one after another. -/
def State.retryLanes (s : State) (b : Block) (o : MemOp) : List LaneAcc → List LaneAcc × State
  | [] => ([], s)
  | l :: ls =>
    match s.retryLane b o l with
    | (x, s1) => match s1.retryLanes b o ls with | (xs, s2) => (x :: xs, s2)

/-- A logged entry retried (R204): REPLAYS counts it. The spin detector sees the lines that it may now read (R55). Where a table is
held (R425) the retry is still due. -/
def State.retryOp (s : State) (b : Block) (r : TRef) (o : MemOp) : State :=
  match s.retryLanes b o o.lanes with
  | (ls, s1) =>
    let new := (ls.filter fun l => !l.done && l.pa.isSome && (o.lanes.any fun x => x.lane = l.lane && x.gone)).filterMap fun l => l.pa
    let due := ls.any fun l => l.gone && s1.tableWait b.tag l.va
    s1.updTeam r fun t =>
      { t with ops := updWhere (fun x => x.id == o.id) (fun x => { x with lanes := ls, replays := x.replays + 1, retry := due }) t.ops
               spin := if o.kind = .load && !s.frozen b.tag then t.spin.readLines (new.map fun x => s1.home x / 64) else t.spin }

/-- The logged entries of a context that a range covers: block, team, entry. -/
def State.loggedOps (s : State) (tag : BitVec 12) (g : Nat × Nat) : List (Block × TRef × MemOp) :=
  (s.blocks.filter fun b => b.tag == tag && b.bureau.isNone && b.place = .resident).flatMap fun b =>
    b.teams.flatMap fun t => (t.ops.filter fun o => o.touches g).map fun o => (b, ⟨b.id, t.idx⟩, o)

/-- The logged entries of a context over a range retried in one order. -/
def State.retryRange (s : State) (tag : BitVec 12) (g : Nat × Nat) : State :=
  (s.loggedOps tag g).foldl (fun s q => s.retryOp q.1 q.2.1 q.2.2) s

/-- The units that a context's copies hold over a range are due for a retry (R204, R234). -/
def State.retryCopies (s : State) (tag : BitVec 12) (g : Nat × Nat) : State :=
  let mine (c : Copy) : Bool := match s.block? c.b with | some b => b.tag == tag && b.bureau.isNone | none => false
  { s with copies := s.copies.map fun (c : Copy) =>
      if mine c then
        { c with held := c.held.map fun x => if decide (g.1 ≤ x.va) && decide (x.va < g.2) then { x with due := true } else x }
      else c }

/-- The effects of XINV over whole pages of a context: TLB entries, LIMIT fields, logged entries (R245) and held units of copies. -/
def State.invalidate (s : State) (tag : BitVec 12) (g : Nat × Nat) : State :=
  ((s.dropTlb tag g).retryRange tag g).retryCopies tag g

/-- Whether lanes that a retry over a range has found resident are still to be performed (R204, R245). One that an earlier access of
its team keeps back, because a page of that access is absent, is not awaited. -/
def State.retriesLeft (s : State) (tag : BitVec 12) (g : Nat × Nat) : Bool :=
  s.blocks.any fun b => b.tag == tag && b.bureau.isNone && b.place = .resident && b.teams.any fun t => t.ops.any fun o =>
    let free := (t.ops.takeWhile fun p => p.id != o.id).all fun p => !p.lanes.any LaneAcc.gone
    o.logged && decide (0 < o.replays) && o.lanes.any fun l =>
      !l.done && l.pa.isSome && decide (g.1 ≤ l.va) && decide (l.va < g.2) && (free || s.laneMay b t o l)

/-- Whether a team's fetch is suspended by an XINV that it has issued: lanes that the XINV has retried are not performed (R245). -/
def State.xinvBusy (s : State) (b : Block) (t : Team) : Bool :=
  match t.xinv with
  | some g => s.retriesLeft b.tag g
  | none => false

/-- LOG_RETRY (R204): the logged entry of a block that a page-ready write has marked, by its identity. -/
def execLogRetry (b n : Nat) (s : State) : Out :=
  match s.block? b with
  | none => .next s
  | some x =>
    if x.place != .resident then .next s else
    match (x.teams.flatMap fun t => (t.ops.filter fun o => o.id = n && o.retry).map fun o => ((⟨b, t.idx⟩ : TRef), o)).head? with
    | some (r, o) => .next (s.retryOp x r o)
    | none => .next s

/-- XINV (R245): the team's earlier stores of path L, those in the operand log among them, are performed first (R462). The team's fetch
stays suspended until the lanes that are retried are performed (R204). A length of 0 has no effect. A Bureau has no translations to
invalidate (R368). -/
def execXinv (h : Hd) (a b : BitVec 6) (s : State) : Out :=
  s.chk [.w a.toNat, .w b.toNat] [] false fun bl t =>
    if t.ops.any fun o => o.path = .l && o.kind != .load && decide (o.id < s.cur.base) then .next (s.park .xlate)
    else
      let s1 := s.issue h false id
      if bl.bureau.isSome || t.rw b = 0#64 then .next s1
      else
        let g := s1.pageSpan bl.tag ((t.rw a).toNat % 2 ^ 56) (t.rw b).toNat
        .next ((s1.invalidate bl.tag g).updTeam s.cur.r fun u => { u with xinv := some g })

/-! ### The invalidation registers and page-ready writes (R201, R421) -/

/-- A set of invalidation registers. -/
def State.inval (s : State) (p : InvPort) : Inval := match p with | .host => s.invHost | .die0 => s.invDie0

/-- A set of invalidation registers changed. -/
def State.putInval (s : State) (p : InvPort) (x : Inval) : State :=
  match p with | .host => { s with invHost := x } | .die0 => { s with invDie0 := x }

/-- A write to INVADDR: discarded while BUSY. -/
def State.wrInvaddr (s : State) (p : InvPort) (v : Nat) : State :=
  let x := s.inval p
  if x.busy then s else s.putInval p { x with addr := BitVec.ofNat 64 (natBits v 16 40 * 65536 + v % 4096) }

/-- A write to INVLEN: discarded while BUSY; a length of 0 completes at once. -/
def State.wrInvlen (s : State) (p : InvPort) (v : Nat) : State :=
  let x := s.inval p
  if x.busy then s
  else s.putInval p { x with len := BitVec.ofNat 48 v, busy := decide (v % 2 ^ 48 ≠ 0) }

/-- INVLEN (R201): the write with the input's value to the set that the input names. -/
def execInvlen (s : State) : Out := .next (s.wrInvlen s.input.inv s.input.val.toNat)

/-- INVALIDATION_DONE (R201): the effects of the invalidation; BUSY clears once the lanes that are retried are performed (R204, R245). -/
def execInvalidationDone (p : InvPort) (s : State) : Out :=
  let x := s.inval p
  let tag := x.addr.setWidth 12
  let settle (s : State) (g : Nat × Nat) : State :=
    s.putInval p (if s.retriesLeft tag g then { x with going := some g } else { x with busy := false, going := none })
  if !x.busy then .next s
  else
    match x.going with
    | some g => .next (settle s g)
    | none =>
      let g := s.pageSpan tag (natBits x.addr.toNat 16 40 * 65536) x.len.toNat
      .next (settle (s.invalidate tag g) g)

/-- A page-ready write (R204, R421): the context's logged entries and held units of copies that touch the page are due for a
retry. -/
def State.wrPagerdy (s : State) (v : Nat) : State :=
  let tag := BitVec.ofNat 12 v
  let g := s.pageSpan tag (natBits v 16 40 * 65536) 1
  ({ s with blocks := s.blocks.map fun (b : Block) =>
      if b.tag == tag && b.bureau.isNone then
        { b with teams := b.teams.map fun t => { t with ops := t.ops.map fun o => if o.touches g then { o with retry := true } else o } }
      else b } : State).retryCopies tag g

/-- PAGERDY (R421). -/
def execPagerdy (s : State) : Out := .next (s.wrPagerdy s.input.val.toNat)

end Sys2Proof.Machine
end

