-- ==== Sys2Proof/Machine/Device.lean ====
section
/-! DEFINITION. The registers of the Bureau windows, the management pages, the debug windows, the fabric page, the host page, the
core windows and the port windows: reads and writes, and the steps that are writes to one of them (R191, R192, R369 to R371,
R419 to R426, R428 to R451, R457 to R459). Registers are read and written by dwords. -/

namespace Sys2Proof.Machine

/-- A dword of a bit vector, as a number. -/
def bitsDword {n : Nat} (x : BitVec n) (i : Nat) : Nat := natBits x.toNat (64 * i) 64

/-! ### Sensors, timer and throttle (R369 to R371, R459) -/

/-- Cycles of a microsecond (R374). -/
def cyclesUs : Nat := 1000

/-- TICK as it reads: whole microseconds left, rounded up. -/
def State.tickLeft (s : State) (e : Nat) : Nat :=
  match (s.die e).tickEnd with
  | some t => max 1 (ceilDiv (t - s.clock) cyclesUs)
  | none => 0

/-- A write to TICK. -/
def State.wrTick (s : State) (e v : Nat) : State :=
  s.updDie e fun d => { d with tick := BitVec.ofNat 16 v, tickEnd := if v % 65536 = 0 then none else some (s.clock + cyclesUs * (v % 65536)) }

/-- A write to ALERT: the first sample at or above it will be an alert sample. -/
def State.wrAlert (s : State) (e v : Nat) : State :=
  s.updDie e fun d => { d with alert := BitVec.ofNat 16 v, armed := List.replicate 16 true }

/-- W1C writes to ISTAT and EVSTAT, and a write to THROT. -/
def State.wrIstat (s : State) (e v : Nat) : State := s.updDie e fun d => { d with istat := d.istat &&& ~~~(BitVec.ofNat 17 v) }
def State.wrEvstat (s : State) (e v : Nat) : State := s.updDie e fun d => { d with evstat := d.evstat &&& ~~~(BitVec.ofNat 4 v) }
def State.wrThrot (s : State) (e v : Nat) : State := s.updDie e fun d => { d with throt := BitVec.ofNat 4 v }

/-- The trip threshold and its release (R457). -/
def tripT : Nat := 0x6E0
def tripR : Nat := 0x690

/-- A sample of a sensor (R370, R459): the value first, then the bits that it sets. -/
def Die.sample (d : Die) (i : Nat) (v : BitVec 16) : Die :=
  let prev := d.sens.getD i 0#16
  let hot := decide (d.alert.toNat ≤ v.toNat)
  let fire := hot && (decide (prev.toNat < d.alert.toNat) || d.armed.getD i false)
  let d1 := { d with sens := d.sens.set i v, armed := if hot then d.armed.set i false else d.armed
                     istat := if fire then d.istat ||| (1#17 <<< i) else d.istat }
  if tripT ≤ v.toNat then { d1 with tripped := true, evstat := d1.evstat ||| 8#4 }
  else { d1 with tripped := d1.tripped && d1.sens.any fun x => decide (tripR ≤ x.toNat) }

/-- SENSOR_SAMPLE (R370): the sensor and the sample are the input's; a sample lies between 0 and 0x0C80. -/
def execSensorSample (s : State) : Out :=
  let v := s.input.val.setWidth 16
  if s.input.idx.toNat < 16 && v.toNat ≤ 0xC80 then
    .next (s.updDie s.input.die.toNat fun d => d.sample s.input.idx.toNat v)
  else .next s

/-- TICK_EXPIRY (R370). -/
def execTickExpiry (e : BitVec 2) (s : State) : Out :=
  match (s.die e.toNat).tickEnd with
  | some t =>
    if t ≤ s.clock then .next (s.updDie e.toNat fun d => { d with tickEnd := none, tick := 0#16, istat := d.istat ||| 0x10000#17 })
    else .next s
  | none => .next s

def execTick (s : State) : Out := .next (s.wrTick s.input.die.toNat s.input.val.toNat)
def execAlert (s : State) : Out := .next (s.wrAlert s.input.die.toNat s.input.val.toNat)
def execIstat (s : State) : Out := .next (s.wrIstat s.input.die.toNat s.input.val.toNat)
def execThrot (s : State) : Out := .next (s.wrThrot s.input.die.toNat s.input.val.toNat)
def execEvstat (s : State) : Out := .next (s.wrEvstat s.input.die.toNat s.input.val.toNat)

/-! ### Vespers control (R432 to R438) -/

/-- A write to VCTL (R437); one of EN = 0 comes after every queued record (R438). -/
def State.wrVctl (s : State) (e : Nat) (v : Nat) : State :=
  let w := BitVec.ofNat 64 v &&& 0x0000FFFF000000F1#64
  s.updDie e fun d =>
    if !w.getLsbD 0 then { d.drain with vctl := w, vstate := 0#2 }
    else if d.vctl.getLsbD 0 then { d with vctl := w }
    else { d with vctl := w, vstate := capRunning, wptr := 0, tidx := 0, wrap := false, dropped := 0, made := [], queue := [] }

/-- A write to SAMPCTL (R432): N outside 4 to 20 discards it; the counts restart. -/
def State.wrSampctl (s : State) (e : Nat) (v : Nat) : State :=
  let n := natBits v 8 5
  if n < 4 || 20 < n then s
  else
    { (s.updDie e fun d => { d with sampctl := BitVec.ofNat 64 v &&& 0x1FFF1F01#64 }) with
      cores := s.cores.map fun (c : Core) => if coreDie c.idx = e then { c with mwords := 0 } else c }

/-- A write to FILTER (R434): FIELD 7 discards it. -/
def State.wrFilter (s : State) (e : Nat) (v : Nat) : State :=
  if natBits v 0 3 = 7 then s else s.updDie e fun d => { d with filter := BitVec.ofNat 64 v &&& 0xFFFF0007#64 }

def execVctl (s : State) : Out := .next (s.wrVctl s.input.die.toNat s.input.val.toNat)
def execSampctl (s : State) : Out := .next (s.wrSampctl s.input.die.toNat s.input.val.toNat)

/-- VSTAT (R436). -/
def Die.vstat (d : Die) : Nat :=
  d.vstate.toNat + (if d.wrap then 4 else 0) + d.wptr % 65536 * 2 ^ 16 + d.tidx % 65536 * 2 ^ 32 + min d.dropped 65535 * 2 ^ 48

/-! ### Stops (R443 to R445) -/

/-- The block that BLKID0 and a $block name (R430, R443). -/
def State.namedBlock (s : State) (e : Nat) (blk : BitVec 32) : Option Block :=
  s.blocks.find? fun b => b.bureau.isNone && decide ((s.levelOf b).toNat % 2 ^ 48 = (s.die e).blkid0.toNat) && b.block == blk

/-- The command that stops a block. -/
def State.stopBlock (s : State) (e : Nat) (blk : BitVec 32) : State :=
  match s.namedBlock e blk with
  | some b =>
    if b.stopped then s else s.updBlock b.id fun x => { x with stopped := true, stopping := some (3, 0, 0, 0xFFFFFFFFFFFFFFFF#64) }
  | none => s

/-- A stopped block resumed: each of its teams begins a new run (R89). -/
def Block.unstop (b : Block) : Block :=
  { b with stopped := false, stopping := none, resuming := false, teams := b.teams.map Team.cutRun }

/-- Whether copies or tile operations of a block are not performed, which the end of a stop awaits (R464). -/
def State.engineBusy (s : State) (b : Block) : Bool :=
  (s.copies.any fun c => c.b == b.id) || b.tiles.any fun z => !z.ops.isEmpty

/-- A block that a command resumes goes on now, or once its engines' work is performed. -/
def State.resumed (s : State) (b : Block) : Block := if s.engineBusy b then { b with resuming := true } else b.unstop

/-- The command that resumes a block; it has no effect on one that is not stopped. -/
def State.resumeBlock (s : State) (e : Nat) (blk : BitVec 32) : State :=
  match s.namedBlock e blk with
  | some b => if b.stopped then s.updBlock b.id fun _ => s.resumed b else s
  | none => s

/-- A write to BLKID1. -/
def State.wrBlkid1 (s : State) (e v : Nat) : State :=
  match natBits v 32 4 with
  | 1 => s.stopBlock e (BitVec.ofNat 32 v)
  | 2 => s.resumeBlock e (BitVec.ofNat 32 v)
  | _ => s

def execBlkid1Stop (s : State) : Out := .next (s.stopBlock s.input.die.toNat s.input.idx)
def execBlkid1Resume (s : State) : Out := .next (s.resumeBlock s.input.die.toNat s.input.idx)

/-- Whether a team stands at a run boundary: no result of a run is outstanding and none of its words is left (R95). -/
def Team.atBoundary (t : Team) : Bool := t.runDone && (t.run.ended || t.run.count = 0)

/-- Whether a team of a stopped or halting block has halted (R95, R444): it has ended, is parked, or stands at a run boundary. -/
def Team.halted (t : Team) : Bool := t.ended || t.parked || t.wait.isSome || t.trap.isSome || t.atBoundary

/-- Whether a team has halted with the results of its ended run written (R442, R445); a team that has ended is awaited no more. -/
def Team.stands (t : Team) : Bool := t.ended || (t.halted && (!t.run.ended || t.runDone))

/-- The stall reason of what a team waits for (R448). -/
def Wait.reason : Wait → Reason
  | .bar _ => .bench
  | .bench _ _ _ => .bench
  | .sgjoin _ _ => .bench
  | .consume _ _ _ _ _ _ _ => .fewait
  | .level _ _ _ _ => .future
  | .future _ _ _ _ _ => .future
  | .recv _ _ _ _ => .msg
  | .qpop _ _ _ _ _ _ => .queue
  | .wfi => .idle
  | .tret _ _ => .pipe

/-- The stall reason of a team by its last turn, or by what it waits for; a QPOP whose entry lies on an absent page waits with
XLATE, and a TRET as one that has not issued. -/
def Team.stall (t : Team) : Reason :=
  match t.wait with
  | some (.tret _ _) => t.reason
  | some w => if t.reason = .xlate then .xlate else w.reason
  | none => t.reason

/-- A set of teams as bits. -/
def teamBits (l : List Nat) : Nat := (l.map fun i => 2 ^ i).foldl (· + ·) 0

/-- STOP_COMPLETE (R445): the record once every team has halted. -/
def execStopComplete (b : Nat) (s : State) : Out :=
  match s.block? b with
  | none => .next s
  | some x =>
    match x.stopping with
    | none => .next s
    | some (cause, cmp, ti, at') =>
      if !(x.teams.all Team.stands) then .next s
      else
        match x.team? ti with
        | none => .next s
        | some t =>
          let arrived := teamBits (x.barArr)
          let ended := teamBits ((x.teams.filter fun t => t.ended).map fun t => t.idx)
          let pc := if cause = 3 then 0 else at'.toNat
          let r := s.recordOf x t 5 pc (arrived + ended * 2 ^ 16 + x.barArr.length * 2 ^ 32) (cause + cmp * 16 + ti * 256) at'.toNat
          .next ((s.record x r 8).updBlock b fun y => { y with stopping := none })

/-! ### The hang watchdog (R446, R447) -/

/-- Whether a context has resident teams on a die. -/
def State.residentOn (s : State) (tag : BitVec 12) (e : Nat) : Bool :=
  s.blocks.any fun b => b.tag == tag && b.bureau.isNone && b.place = .resident && coreDie b.core = e

/-- HANG_WATCHDOG_EXPIRY (R447). -/
def execHangWatchdogExpiry (e : BitVec 2) (t : BitVec 12) (s : State) : Out :=
  let lim := (s.die e.toNat).hangwd.toNat % 65536
  match s.ctx? t with
  | none => .next s
  | some c =>
    let due := c.alive.getD e.toNat 0 + lim * 65536
    if lim = 0 || !s.residentOn t e.toNat || s.frozen t || s.clock < due then .next s
    else
      let s1 := s.updCtx t fun c => { c with alive := c.alive.set e.toNat s.clock }
      let r : Rec :=
        { kind := 6, core := 0, slot := 0, team := 0, time := s.clock, launch := 0, tag := t.toNat, block := 0, phase := 0
          pc := 0, f0 := 0, f1 := 0, f2 := 0 }
      let vesp := (c.acc0 &&& s.offer0).getLsbD 1
      .next (s1.updDie e.toNat fun d =>
        let d1 := if vesp then d.record r none else d
        { d1 with evstat := d1.evstat ||| 4#4 })

/-! ### Queues of ended contexts and acknowledgement (R407, R421, R457) -/

/-- The dword that a read of TERMQ or TERMB takes. -/
def termWord (q : List (BitVec 12)) : Nat := match q with | t :: _ => 2 ^ 63 + t.toNat | [] => 0

/-- Lines of memory and of L2 lose an owner tag and keep their bytes (R407). -/
def State.untag (s : State) (tag : BitVec 12) : State :=
  { s with l2 := s.l2.map fun (l : L2) =>
             { l with tags := l.tags.filter fun t => t != tag, oldTag := if l.oldTag == some tag then none else l.oldTag }
           hbmTags := s.hbmTags.filter fun p => p.2 != tag
           unitQ := s.unitQ.map fun w => if w.tag == some tag then { w with tag := none } else w
           hurt := s.hurt.filter fun p => p.2 != tag }

/-- A write to TERMACK: the tag's report is acknowledged, its area is free for reuse and the tag is free, so that no line of the report
carries it any more; a tag without a report is ignored (R407). -/
def State.wrTermack (s : State) (v : Nat) : State :=
  let tag := BitVec.ofNat 12 v
  if s.unacked.any fun p => p.1 == tag then
    { s.untag tag with unacked := s.unacked.filter fun p => p.1 != tag }
  else s

/-- The oldest entry of TERMB taken (R457); EVSTAT.TERM stays as it is. -/
def State.takeTermb (s : State) : State := { s with termb := s.termb.drop 1 }

def execTermq (s : State) : Out :=
  .next { s with hostReply := some (natBytes 8 (termWord s.termq)), termq := s.termq.drop 1 }
def execTermb (s : State) : Out := .next s.takeTermb
def execTermack (s : State) : Out := .next (s.wrTermack s.input.val.toNat)

/-! ### Partitions, signing, routes (R424 to R426, R456 to R458) -/

/-- Whether a core holds a resident, swapped-in or Dusk-saved block of a context other than a tag. -/
def State.foreign (s : State) (core : Nat) (t : BitVec 12) : Bool :=
  s.blocks.any fun b => b.core = core && b.bureau.isNone && b.tag != t && b.place != .swapped

/-- A write to PART of a core (R458). -/
def State.wrPart (s : State) (core v : Nat) : State :=
  if s.foreign core (BitVec.ofNat 12 v) then s
  else
    let p := BitVec.ofNat 13 v
    { s with parts := if p = 0#13 then s.parts.filter fun q => q.1 != core else entryPut s.parts core p }

/-- PART: the core and the value are the input's. -/
def execPart (s : State) : Out := .next (s.wrPart (s.input.idx.toNat % 1024) s.input.val.toNat)

/-- A write to SIGNCTL (R457): discarded while the engine signs. -/
def State.wrSignctl (s : State) (v : Nat) : State :=
  if s.signing.isSome then s else { s with signing := some (v % 2 ^ 18 / 128 * 128) }

def execSignctl (s : State) : Out := .next (s.wrSignctl s.input.val.toNat)

/-- The physical address of a local one of this module. -/
def State.localPa (s : State) (a : Nat) : Nat := s.pod.toNat * 2 ^ 48 + a

/-- SIGN_COMPLETE (R456, R457): the signature over the statement's digest, at the offset + 128; what would pass the end of
the SRAM is not written. -/
def execSignComplete (s : State) : Out :=
  match s.signing with
  | none => .next s
  | some o =>
    let st := s.mem.bytes (s.localPa (sramBase 0 + o)) 128
    let sg := (List.range 3309).map fun i => (Config.signature (Config.shake256 st)).getD i 0#8
    let room := 0x40000 - (o + 128)
    let a := s.localPa (sramBase 0 + o + 128)
    .next { (s.pmWr a (sg.take room)).unspinAt a (sg.take room).length with signing := none }

/-- A write to the routing table (R424, R425): a nonzero reserved bit discards it; new accesses to the module are held
until the earlier ones are acknowledged, those that an earlier write holds among them. -/
def State.wrRoute (s : State) (m v : Nat) : State :=
  if natBits v 18 12 ≠ 0 || natBits v 32 32 ≠ 0 then s
  else { s with routes := s.routes.set (m % 512) (BitVec.ofNat 64 v)
                routeHolds := (s.routeHolds.filter fun p => s.awaitsModule p.1 p.2) ++ [(m % 512, s.nextId)] }

def execRoutingTableWrite (s : State) : Out := .next (s.wrRoute s.input.idx.toNat s.input.val.toNat)

/-- This module's memory at its physical addresses after its pod index has changed: what the index named before is remote. -/
def rehome (m : Memory) (old new : Nat) : Memory :=
  if old = new then m
  else
    let rest := m.filter fun c => c.1 / 2 ^ 48 ≠ old
    rest.filter (fun c => c.1 < new * 2 ^ 48)
      ++ (m.filter fun c => c.1 / 2 ^ 48 = old).map (fun c => (new * 2 ^ 48 + c.1 % 2 ^ 48, c.2))
      ++ rest.filter (fun c => (new + 1) * 2 ^ 48 ≤ c.1)

/-- A write to MODID (R426): ignored from the end of the topology step. -/
def State.wrModid (s : State) (v : Nat) : State :=
  if 4 ≤ s.dawn.step then s
  else
    let pod : BitVec 9 := BitVec.ofNat 9 v
    { s with sysid := BitVec.ofNat 20 (natBits v 16 20), pod := pod, mem := rehome s.mem s.pod.toNat pod.toNat }

def execModid (s : State) : Out := .next (s.wrModid s.input.val.toNat)

/-! ### The measured log (R455) -/

/-- 64 bytes of a SHAKE256 digest. -/
def digest (bs : List Byte) : List Byte := (List.range 64).map fun i => (Config.shake256 bs).getD i 0#8

/-- An entry appended to the log, and the chain value. -/
def State.appendLog (s : State) (e : List Byte) : State :=
  let a := s.localPa (sramBase 0 + 0x38000 + 80 * s.dawn.log)
  { s.unspinAt a e.length with
           mem := s.mem.wr a e
           dawn := { s.dawn with chain := digest (s.dawn.chain ++ e), log := s.dawn.log + 1 } }

/-- An entry that firmware appends once Dawn has ended; one that would pass the end of the log's area is none (log entry 109). -/
def State.measured (s : State) (e : List Byte) : State :=
  if s.dawn.step = 6 && e.length = 80 && 80 * (s.dawn.log + 1) ≤ 0x4000 then s.appendLog e else s

/-! ### Registers that only hold their fields (R8) -/

/-- A comparator's CTL as it is kept (R440): LEN is a data comparator's. -/
def cmpCtlBits (i : Nat) (v : Nat) : Dword :=
  BitVec.ofNat 64 v &&& (if i < 4 then 0xFFFFFFFFFFFFC0F1#64 else 0xFFFFFFFFFFFFFFF1#64)

/-- A write to a register without behaviour of its own. -/
def State.wrReg (s : State) (r : DevReg) (v : Nat) : State :=
  match r with
  | .filter e => s.wrFilter e.toNat v
  | .blkid0 e => s.updDie e.toNat fun d => { d with blkid0 := BitVec.ofNat 64 (v % 2 ^ 48) }
  | .hangwd e => s.updDie e.toNat fun d => { d with hangwd := BitVec.ofNat 64 (v % 65536) }
  | .stopbrk e i => s.updDie e.toNat fun d => { d with stopbrk := d.stopbrk.set i.toNat (BitVec.ofNat 64 v) }
  | .cerr e u => s.updDie e.toNat fun d => if 1 ≤ u.toNat && u.toNat ≤ 20 then { d with cerr := d.cerr.set u.toNat (BitVec.ofNat 48 v) } else d
  | .hint => { s with hint := v % 2 = 1 }
  | .invaddr p => s.wrInvaddr p v
  | .cmpCtl c i =>
    if i.toNat < 6 then s.updCore c.toNat fun x => { x with cmp := updAt (fun p => (cmpCtlBits i.toNat v, p.2)) x.cmp i.toNat } else s
  | .cmpAddr c i =>
    if i.toNat < 6 then s.updCore c.toNat fun x => { x with cmp := updAt (fun p => (p.1, BitVec.ofNat 64 (v % 2 ^ 56))) x.cmp i.toNat } else s
  | .measured e => s.measured e
  | .stall c i => s.updCore c.toNat fun x => { x with stall := x.stall.set i.toNat (BitVec.ofNat 48 v) }

/-- REGISTER_WRITE (R8): the register and the value are the input's. -/
def execRegisterWrite (s : State) : Out := .next (s.wrReg s.input.reg s.input.val.toNat)

/-! ### The debug window's core pages (R440, R449, R450) -/

/-- The team in a team slot of a core, with its block. -/
def State.slotTeam (s : State) (core slot : Nat) : Option (Block × Team) :=
  (s.onCore core).findSome? fun b => match b.teams.find? fun t => t.slot = slot with | some t => some (b, t) | none => none

/-- Team status, dword 1 (R449). -/
def statusWord (b : Block) (t : Team) : Nat :=
  t.code + (if t.spin.demoted then 16 else 0)
    + (if b.stopped then 32 else 0) + 64

/-- The binding of a physical slot or tile (R450). -/
def bindWord (b : Block) (idx : Nat) : Nat :=
  2 ^ 63 + b.tag.toNat * 2 ^ 16 + (match b.teams with | t :: _ => t.slot | [] => 0) * 2 ^ 8 + idx

/-- A dword of a core page. -/
def State.corePageRd (s : State) (core o : Nat) : Nat :=
  if o < 0x60 then
    let p := (s.core core).cmp.getD (o / 16) (0#64, 0#64)
    (if o % 16 = 0 then p.1 else p.2).toNat
  else if 0x80 ≤ o && o < 0x100 then ((s.core core).stall.getD ((o - 0x80) / 8) 0#48).toNat
  else if 0x100 ≤ o && o < 0x200 then
    (match s.slotTeam core ((o - 0x100) / 16) with
     | some (b, t) => if o % 16 = 0 then t.pc.toNat else statusWord b t
     | none => 0)
  else if 0x200 ≤ o && o < 0x300 then
    (match (s.onCore core).findSome? fun b =>
        match b.chest.find? fun c => c.phys == some ((o - 0x200) / 8) with | some c => some (b, c.idx) | none => none with
     | some (b, i) => bindWord b i
     | none => 0)
  else if 0x300 ≤ o && o < 0x380 then
    (match (s.onCore core).findSome? fun b =>
        match b.tiles.zipIdx.find? fun z => z.1.phys = (o - 0x300) / 8 with | some z => some (b, z.2) | none => none with
     | some (b, i) => bindWord b i
     | none => 0)
  else 0

/-- A write to a dword of a core page. -/
def State.corePageWr (s : State) (core o v : Nat) : State :=
  let c := BitVec.ofNat 10 core
  if o < 0x60 then s.wrReg (if o % 16 = 0 then .cmpCtl c (BitVec.ofNat 3 (o / 16)) else .cmpAddr c (BitVec.ofNat 3 (o / 16))) v
  else if 0x80 ≤ o && o < 0x100 then s.wrReg (.stall c (BitVec.ofNat 4 ((o - 0x80) / 8))) v
  else s

/-! ### The windows by dword -/

/-- A dword of die `e`'s Bureau window. -/
def State.bureauRd (s : State) (e o : Nat) : Nat :=
  let d := s.die e
  if o < 0x80 then (d.sens.getD (o / 8) 0#16).toNat
  else if o = 0x80 then d.alert.toNat
  else if o = 0x88 then d.istat.toNat
  else if o = 0x90 then d.throt.toNat
  else if o = 0x98 then s.tickLeft e
  else 0

def State.bureauWr (s : State) (e o v : Nat) : State :=
  if o = 0x80 then s.wrAlert e v
  else if o = 0x88 then s.wrIstat e v
  else if o = 0x90 then s.wrThrot e v
  else if o = 0x98 then s.wrTick e v
  else s

/-- A dword of die `e`'s management page, and what a read of it takes. -/
def State.mgmtRd (s : State) (e o : Nat) : Nat :=
  let d := s.die e
  if o = 0 then d.evstat.toNat
  else if o = 0x08 then (if e = 0 then termWord s.termb else 0)
  else if o = 0x10 then d.pwr.toNat
  else if o = 0x18 then tripT
  else if o = 0x20 then tripR
  else if o = 0x30 then (if e = 0 && s.signing.isSome then 1 else 0)
  else if o = 0x40 then s.offer0.toNat
  else if o = 0x48 then s.offer1.toNat
  else if o = 0x50 then s.offer2.toNat
  else if o = 0x58 then s.offer3.toNat
  else if 0x88 ≤ o && o < 0x128 then (d.cerr.getD ((o - 0x80) / 8) 0#48).toNat
  else if 0x200 ≤ o && o < 0x240 then bitsDword s.leafmap ((o - 0x200) / 8)
  else if 0x240 ≤ o && o < 0x280 then bitsDword s.podmap ((o - 0x240) / 8)
  else if o = 0x300 then (if e = 0 then s.invDie0.addr.toNat else 0)
  else if o = 0x310 then (if e = 0 && s.invDie0.busy then 1 else 0)
  else if 0x400 ≤ o && o < 0xC00 then
    (match entry? s.parts (256 * e + (o - 0x400) / 8) with | some p => p.toNat | none => 0)
  else 0

def State.mgmtWr (s : State) (e o v : Nat) : State :=
  if o = 0 then s.wrEvstat e v
  else if o = 0x28 then (if e = 0 then s.wrTermack v else s)
  else if o = 0x30 then (if e = 0 then s.wrSignctl v else s)
  else if 0x88 ≤ o && o < 0x128 then s.wrReg (.cerr (BitVec.ofNat 2 e) (BitVec.ofNat 5 ((o - 0x80) / 8))) v
  else if o = 0x300 then (if e = 0 then s.wrInvaddr .die0 v else s)
  else if o = 0x308 then (if e = 0 then s.wrInvlen .die0 v else s)
  else if 0x400 ≤ o && o < 0xC00 then s.wrPart (256 * e + (o - 0x400) / 8) v
  else s

/-- A dword of die `e`'s debug window. -/
def State.debugRd (s : State) (e o : Nat) : Nat :=
  let d := s.die e
  if o = 0 then d.vctl.toNat
  else if o = 0x08 then d.vstat
  else if o = 0x10 then d.sampctl.toNat
  else if o = 0x18 then d.filter.toNat
  else if o = 0x20 then d.blkid0.toNat
  else if o = 0x30 then d.hangwd.toNat
  else if 0x200 ≤ o && o < 0x400 then (d.stopbrk.getD ((o - 0x200) / 8) 0#64).toNat
  else if 0x1000 ≤ o && o < 0x101000 then s.corePageRd (256 * e + (o / 0x1000 - 1)) (o % 0x1000)
  else if 0x200000 ≤ o && o < 0x200400 then
    let c := d.capstall.getD ((o - 0x200000) / 16) (0#64, 0, 0)
    if o % 16 = 0 then c.1.toNat else c.2.1
  else if 0x400000 ≤ o then
    (match entry? d.recs ((o - 0x400000) / 64) with
     | some r => (r.getD (o / 8 % 8) 0#64).toNat
     | none => 0)
  else 0

def State.debugWr (s : State) (e o v : Nat) : State :=
  let d := BitVec.ofNat 2 e
  if o = 0 then s.wrVctl e v
  else if o = 0x10 then s.wrSampctl e v
  else if o = 0x18 then s.wrFilter e v
  else if o = 0x20 then s.wrReg (.blkid0 d) v
  else if o = 0x28 then s.wrBlkid1 e v
  else if o = 0x30 then s.wrReg (.hangwd d) v
  else if 0x200 ≤ o && o < 0x400 then s.wrReg (.stopbrk d (BitVec.ofNat 6 ((o - 0x200) / 8))) v
  else if 0x1000 ≤ o && o < 0x101000 then s.corePageWr (256 * e + (o / 0x1000 - 1)) (o % 0x1000) v
  else s

/-- A dword of the host page, and of the fabric page. -/
def State.hostPageRd (s : State) (o : Nat) : Nat :=
  if o = 0x08 then termWord s.termq
  else if o = 0x10 then s.lost.toNat
  else if o = 0x18 then (if s.hint then 1 else 0)
  else if o = 0x28 then s.invHost.addr.toNat
  else if o = 0x38 then (if s.invHost.busy then 1 else 0)
  else 0

def State.hostPageWr (s : State) (o v : Nat) : State :=
  if o = 0 then s.wrPagerdy v
  else if o = 0x18 then s.wrReg .hint v
  else if o = 0x20 then s.wrTermack v
  else if o = 0x28 then s.wrInvaddr .host v
  else if o = 0x30 then s.wrInvlen .host v
  else s

def State.fabricRd (s : State) (o : Nat) : Nat :=
  if o < 0x1000 then (s.routes.getD (o / 8) 0#64).toNat
  else if o = 0x1000 then s.sysid.toNat * 65536 + s.pod.toNat
  else 0

def State.fabricWr (s : State) (o v : Nat) : State :=
  if o < 0x1000 then s.wrRoute (o / 8) v
  else if o = 0x1000 then s.wrModid v
  else s

/-- A dword of a port window (R420). -/
def State.portRd (s : State) (o : Nat) : Nat :=
  match entry? (s.die (o / 0x40000)).ports (o % 0x40000 / 64) with
  | some p =>
    if o % 64 = 8 then (if p.owner.isSome then p.msgs.length else 0)
    else if o % 64 = 16 then p.refused else 0
  | none => 0

/-! ### Core windows, as a Bureau reaches them (R191, R192) -/

/-- The block and the offset of a physical scratchpad byte of a core. -/
def State.spadAt (s : State) (core o : Nat) : Option (Nat × Nat) :=
  (s.onCore core).findSome? fun b =>
    if b.pages.contains (o / 1024) then some (b.id, b.pages.idxOf (o / 1024) * 1024 + o % 1024) else none

/-- The value of one byte in a core window; an entry that no block holds has what was left in it (R192). -/
def State.coreByte (s : State) (core o : Nat) : Nat :=
  if o < 0x400000 then
    (match s.slotTeam core (o / 0x40000) with
     | some (_, t) =>
       let k := o / 0x1000 % 64
       if k < t.regs && o / 0x80 % 32 * 32 + o / 4 % 32 < t.lanes then
         natBits (t.rv k (o / 0x80 % 32 * 32 + o / 4 % 32)).toNat (8 * (o % 4)) 8
       else 0
     | none => 0)
  else
    let loose := s.core core
    let x : Byte :=
      if o < 0x440000 then
        (match (s.spadAt core (o - 0x400000)).bind fun p => (s.block? p.1).map fun y => y.spad.rd p.2 with
         | some v => v
         | none => loose.spad.rd (o - 0x400000))
      else if o < 0x4A0000 then
        (match (s.onCore core).findSome? fun b => b.chest.find? fun c => c.phys == some ((o - 0x480000) / 4096) with
         | some c => c.bytes.rd (o % 4096)
         | none => loose.chest.rd (o - 0x480000))
      else
        (match (s.onCore core).findSome? fun b => b.tiles.find? fun z => z.phys = (o - 0x4A0000) / 4096 with
         | some z => z.bytes.rd (o % 4096)
         | none => loose.tiles.rd (o - 0x4A0000))
    x.toNat

/-- Bytes of a core window, one after another. -/
def State.coreBytes (s : State) (core o n : Nat) : List Byte :=
  (List.range n).map fun i => BitVec.ofNat 8 (s.coreByte core (o + i))

/-- A byte of a register lane replaced. -/
def lanePut (w : Word) (i : Nat) (v : Byte) : Word :=
  (w &&& ~~~(0xFF#32 <<< (8 * i))) ||| (v.setWidth 32 <<< (8 * i))

/-- One byte written in a core window (R192, R193): a scratchpad write fills its granule. A write lands in an entry that no block
holds, too. -/
def State.coreByteWr (s : State) (core o : Nat) (v : Byte) : State :=
  if o < 0x400000 then
    match s.slotTeam core (o / 0x40000) with
    | some (b, t) =>
      let l := o / 0x80 % 32 * 32 + o / 4 % 32
      let old := t.rv (o / 0x1000 % 64) l
      s.regWrite ⟨b.id, t.idx⟩ (.v (o / 0x1000 % 64) (List.replicate l none ++ [some (lanePut old (o % 4) v)]))
    | none => s
  else if o < 0x440000 then
    match s.spadAt core (o - 0x400000) with
    | some (b, x) => (s.spadWr b x [v]).updBlock b fun y => { y with full := fullSet y.full [x / 16] }
    | none =>
      let x := o - 0x400000
      s.updCore core fun c => { c with spad := c.spad.wr x [v], full := fullSet c.full [x / 16] }
  else if o < 0x4A0000 then
    let x := o - 0x480000
    match (s.onCore core).find? fun b => b.chest.any fun c => c.phys == some (x / 4096) with
    | some b =>
      s.updBlock b.id fun y =>
        { y with chest := updWhere (fun c => c.phys == some (x / 4096)) (fun c => { c with bytes := c.bytes.wr (x % 4096) [v] }) y.chest }
    | none => s.updCore core fun c => { c with chest := c.chest.wr x [v] }
  else
    let x := o - 0x4A0000
    match (s.onCore core).find? fun b => b.tiles.any fun z => z.phys = x / 4096 with
    | some b =>
      s.updBlock b.id fun y =>
        { y with tiles := updWhere (fun z => z.phys = x / 4096) (fun z => { z with bytes := z.bytes.wr (x % 4096) [v] }) y.tiles }
    | none => s.updCore core fun c => { c with tiles := c.tiles.wr x [v] }

/-- Bytes written in a core window, one after another. -/
def State.coreBytesWr (s : State) (core o : Nat) : List Byte → State
  | [] => s
  | v :: vs => (s.coreByteWr core o v).coreBytesWr core (o + 1) vs

/-! ### Accesses of local addresses -/

/-- Whether a local address lies in a register page, and not in memory or a core window. -/
def isRegister (a : Nat) : Bool := unitWin ≤ a && a < unitEnd && !(sramBase 0 ≤ a && a < sramBase 4)

/-- A dword of a register page. -/
def State.regRd (s : State) (a : Nat) : Nat :=
  if inPorts a then s.portRd (a - unitWin)
  else if bureauWin 0 ≤ a && a < bureauWin 4 then s.bureauRd ((a - bureauWin 0) / 0x1000) (a % 0x1000)
  else if mgmtPage 0 ≤ a && a < mgmtPage 4 then s.mgmtRd ((a - mgmtPage 0) / 0x1000) (a % 0x1000)
  else if debugWin 0 ≤ a && a < debugWin 4 then s.debugRd ((a - debugWin 0) / 0x800000) (a % 0x800000)
  else if fabricPage ≤ a && a < fabricPage + 0x2000 then s.fabricRd (a - fabricPage)
  else if hostPage ≤ a && a < hostPage + 0x1000 then s.hostPageRd (a - hostPage)
  else 0

/-- What a read of a dword takes: the oldest entry of TERMQ or of TERMB. -/
def State.regTake (s : State) (a : Nat) : State :=
  if a = hostPage + 8 then { s with termq := s.termq.drop 1 }
  else if a = mgmtPage 0 + 8 then s.takeTermb
  else s

/-- A write of a dword of a register page. -/
def State.regWr (s : State) (a v : Nat) : State :=
  if bureauWin 0 ≤ a && a < bureauWin 4 then s.bureauWr ((a - bureauWin 0) / 0x1000) (a % 0x1000) v
  else if mgmtPage 0 ≤ a && a < mgmtPage 4 then s.mgmtWr ((a - mgmtPage 0) / 0x1000) (a % 0x1000) v
  else if debugWin 0 ≤ a && a < debugWin 4 then s.debugWr ((a - debugWin 0) / 0x800000) (a % 0x800000) v
  else if fabricPage ≤ a && a < fabricPage + 0x2000 then s.fabricWr (a - fabricPage) v
  else if hostPage ≤ a && a < hostPage + 0x1000 then s.hostPageWr (a - hostPage) v
  else s

/-- Whether the bytes that a narrow write leaves out count as 0: a register of W1C bits, or one that only takes commands; the
others keep them (log entry 22). -/
def oneShot (a : Nat) : Bool :=
  (bureauWin 0 ≤ a && a < bureauWin 4 && a % 0x1000 = 0x88) || (mgmtPage 0 ≤ a && a < mgmtPage 4 && (a % 0x1000 = 0 || a % 0x1000 = 0x28 || a % 0x1000 = 0x30 || a % 0x1000 = 0x308))
    || (hostPage ≤ a && a < hostPage + 0x1000 && a % 0x1000 ≠ 0x18 && a % 0x1000 ≠ 0x28)
    || (debugWin 0 ≤ a && a < debugWin 4 && a % 0x800000 = 0x28)

/-- `n` bytes at a local address read by a Bureau or the host. -/
def State.localRd (s : State) (a n : Nat) : List Byte × State :=
  if isRegister a then ((natBytes 8 (s.regRd (a / 8 * 8))).drop (a % 8) |>.take n, s.regTake (a / 8 * 8))
  else if coreWin ≤ a && a < unitWin then (s.coreBytes ((a - coreWin) / 0x800000) ((a - coreWin) % 0x800000) n, s)
  else (s.pmBytes (s.localPa a) n, (s.memRd none (s.localPa a) n).2)

/-- Bytes within one dword at a local address written by a Bureau or the host. -/
def State.localWr (s : State) (a : Nat) (bs : List Byte) : State :=
  if isRegister a then
    let base := a / 8 * 8
    let old := if oneShot base then List.replicate 8 0#8 else natBytes 8 (s.regRd base)
    (s.regWr base (bytesNat (old.take (a % 8) ++ bs ++ old.drop (a % 8 + bs.length)))).unspinAt (s.localPa a) bs.length
  else if coreWin ≤ a && a < unitWin then
    (s.coreBytesWr ((a - coreWin) / 0x800000) ((a - coreWin) % 0x800000) bs).unspinAt (s.localPa a) bs.length
  else s.memWr none (s.localPa a) bs

end Sys2Proof.Machine
end

