-- ==== Sys2Proof/Machine/System.lean ====
section
/-! DEFINITION. The system words of class 0 that any team issues, WFI, BRK and the extension words
(R107, R110 to R112, R388 to R392, R452). -/

namespace Sys2Proof.Machine

/-- NOP: no effect but issue; C and S keep their meaning (R107). -/
def execNop (h : Hd) (s : State) : Out := s.chk [] [] false fun _ _ => .next (s.issue h false id)

/-- TRAP raises SWTRAP with INFO n; the resume address is the next word (R388). -/
def execTrap (_ : Hd) (n : BitVec 6) (s : State) : Out :=
  s.chk [] [] false fun _ _ => .next (s.trapNext .swtrap n.toNat none)

/-- Whether an access that is not performed writes, in part, the 64 KiB frame at a virtual and a physical address. -/
def MemOp.inFrame (o : MemOp) (va pa : Nat) : Bool :=
  let in' (a z : Nat) : Bool := decide (a ≤ z) && decide (z < a + 0x10000)
  !o.sp && o.kind != .load && o.lanes.any fun l =>
    !l.done && (in' va l.va || match l.pa with | some a => in' pa a | none => false)

/-- The new w or v register of a TRET that returns from NOFEAT (R390), from the frame at a physical address. -/
def tretWrites (s : State) (t : Team) (pa : Nat) : List RegWrite :=
  if s.pmRd pa 1 = 0x05 then
    let ext := s.pmRd (pa + 0x38) 8
    let d := natBits ext 8 6
    if natBits ext 1 1 = 0 then [.w d (BitVec.ofNat 64 (s.pmRd (pa + 0x40) 8))]
    else
      let m0 : Mask := BitVec.ofNat 1024 (s.pmRd (pa + 0x400) 128)
      [.v d ((List.range t.lanes).map fun l =>
        if m0.getLsbD l then some (BitVec.ofNat 32 (s.pmRd (pa + 0x9000 + 4 * l) 4)) else none)]
  else []

/-- The places in its frame that TRET reads (R390): the header, and for NOFEAT the new values. -/
def tretReads (s : State) (t : Team) (pa : Nat) : List Nat :=
  let hdr := [pa, pa + 0x38]
  if s.pmRd pa 1 ≠ 0x05 then [pa]
  else if natBits (s.pmRd (pa + 0x38) 8) 1 1 = 0 then hdr ++ [pa + 0x40]
  else
    let m0 : Mask := BitVec.ofNat 1024 (s.pmRd (pa + 0x400) 128)
    hdr ++ [pa + 0x400, pa + 0x440] ++
      ((List.range t.lanes).filter fun l => m0.getLsbD l).map fun l => pa + 0x9000 + 4 * l

/-- What TRET does in the handler of frame `f` (R390): the frame as it stands in memory, the team's earlier stores to it performed, gives
the resume address; the frame is freed, and the team leaves its handler as `go` has it. The register that it writes is awaited as any
destination is (R92). A frame that cannot be read and a resume address that is not a multiple of 4 raise SYSARG. `stay` is what becomes
of a TRET that has stores of its own chain to await. -/
def State.tretGo (s : State) (b : Block) (t : Team) (f : Nat) (stay : State → State)
    (go : State → BitVec 56 → List RegWrite → State) : Out :=
  let va := (s.tarea b).1 + 0x10000 * f
  match s.xlate b va with
  | (.absent, s1) => .next ((s1.absence b.tag va).park .fetch)
  | (.unmapped, s1) => .next (s1.trap .sysarg)
  | (.page p, s1) =>
    let pa := p.frame + (va - p.page)
    let win := inWindow (paLocal pa) && b.bureau.isNone
    let gone := match s1.ctxOf b with
      | some c => !s1.reachable c (paModule pa)
      | none => b.bureau.isNone
    if !p.rd || win || gone then .next (s1.trap .sysarg)
    else if t.ops.any fun o => decide (o.id < s.cur.base) && o.inFrame va pa then .next (s1.park .pipe)
    else if t.ops.any fun o => o.inFrame va pa then .next (stay s1)
    else if s1.held pa then .next (s1.park .fetch)
    else
      let r := s1.pmRd (pa + 0x10) 8
      let ws := tretWrites s1 t pa
      let s2 := s1.touchAll (if b.bureau.isSome then none else some b.tag) (tretReads s1 t pa)
      if r % 4 ≠ 0 then .next (s2.trap .sysarg)
      else if t.pending s.cur.base (ws.filterMap RegWrite.name?) then .next (s2.scorePark b t (ws.filterMap RegWrite.name?))
      else .next (go (s2.freeFrameOf b t) (BitVec.ofNat 56 r) ws)

/-- The team leaves its handler at TRET (R390). -/
def Team.leaveHandler (t : Team) (now : Nat) (ws : List RegWrite) : Team := { (t.addRun now ws) with handler := none }

/-- TRET (R390), in a team's handler; outside it, SYSARG. Where stores of its own chain, which issue with it (R88), reach the frame, the
team waits until they are performed (R462; log entry 136). -/
def execTret (h : Hd) (s : State) : Out :=
  s.chk [] [] false fun b t =>
    match t.handler with
    | none => .next (s.trap .sysarg)
    | some f =>
      s.tretGo b t f (fun s1 => s1.issue h true fun u => { u with wait := some (.tret s.cur.addr s.cur.first) }) fun s1 r ws =>
        (s1.issue h true fun u => u.leaveHandler s.clock ws).updTeam s.cur.r fun u => { u with pc := r }

/-- A TRET that has issued and waits for the stores of its own chain goes on once they are performed. -/
def State.wakeTret (s : State) (r : TRef) (pc first : BitVec 56) : Out :=
  match s.team? r with
  | none => .next s
  | some (b, t) =>
    let s0 := { s with cur := { r := r, addr := pc, first := first, next := t.pc, base := s.nextId, old := [], res := .none, req := none } }
    match t.handler with
    | none => .next s
    | some f =>
      s0.tretGo b t f id fun s1 at' ws =>
        s1.updTeam r fun u =>
          { (u.leaveHandler s.clock ws) with wait := none, pc := at', reason := .pipe, parked := false, counted := false }

/-- TRIG writes a KIND 2 record, a trigger event when TTRIG is set (R452). -/
def execTrig (h : Hd) (a n : BitVec 6) (s : State) : Out :=
  s.chk [.w a.toNat] [] false fun b t =>
    .next ((s.record b (s.recordOf b t 2 s.cur.addr.toNat n.toNat (t.rw a).toNat 0) 6).issue h true id)

/-- SAMPLE: the team's next memory word is sampled (R452), unless the context has no capture (R429). -/
def execSample (h : Hd) (s : State) : Out :=
  s.chk [] [] false fun b _ => .next (s.issue h true fun u => { u with sample := u.sample || s.vesp b })

/-- Whether a Bureau has an interrupt pending (R370, R457). -/
def Die.interrupt (d : Die) : Bool := d.istat ≠ 0#17 || d.evstat ≠ 0#4

/-- WFI: only a Bureau's; parks until an interrupt is pending; no effect in a handler (R385, R391, R392). -/
def execWfi (h : Hd) (s : State) : Out :=
  s.chk [] [] false fun b t =>
    match b.bureau with
    | none => .next (s.trap .priv)
    | some e =>
      if t.handler.isSome || (s.die e).interrupt then .next (s.issue h true id)
      else .next (s.issue h true fun u => { u with wait := some .wfi })

/-- Whether stop-on-break is set for a tag on a die (R389, R428). -/
def Die.stopOnBreak (d : Die) (t : BitVec 12) : Bool := (d.stopbrk.getD (t.toNat / 64) 0#64).getLsbD (t.toNat % 64)

/-- BRK: BREAK, or the stop of the block where the context's stop-on-break control is set (R389). -/
def execBrk (s : State) : Out :=
  s.chk [] [] false fun b t =>
    if b.bureau.isNone && (s.die (coreDie b.core)).stopOnBreak b.tag then .next (s.stopAt b t 2 0)
    else .next (s.trapNext .break 0 none)

/-- An extension word: no feature is effective on the D9, so NOFEAT with the word and its operands (R111, R112). -/
def execExtn (h : Hd) (f : BitVec 7) (n : BitVec 4) (d a : BitVec 6) (k : BitVec 1) (s : State) : Out :=
  let ops : List RegName := if k = 1#1 then [.v d.toNat, .v a.toNat] else [.w d.toNat, .w a.toNat]
  s.chk ops [] false fun _ _ =>
    .next (s.trapNext .nofeat f.toNat (some (joinX h.c h.s 31#5 f n d a k 0#1)))

end Sys2Proof.Machine
end

