-- ==== Sys2Proof/Machine/Perform.lean ====
section
/-! DEFINITION. Accesses performed, results that arrive, run-bound writes, trap and interrupt entry: the steps of the machine that
follow the issue of words (R91 to R95, R203 to R207, R213, R214, R218 to R222, R372, R381, R423). -/

namespace Sys2Proof.Machine

/-! ### One lane performed -/

/-- A lane's access of a Bureau, which reaches registers, windows, SRAM and memory by local address (R368). -/
def State.bureauLane (s : State) (o : MemOp) (l : LaneAcc) (pa : Nat) : LaneAcc × State :=
  if o.kind = .load then
    match s.localRd (paLocal pa) o.size with
    | (bs, s1) => ({ l with val := bytesNat bs, done := true }, s1)
  else ({ l with done := true }, s.localWr (paLocal pa) (natBytes o.size l.val))

/-- An access with one lane replaced. -/
def MemOp.putLane (o : MemOp) (l : LaneAcc) : MemOp := { o with lanes := updWhere (fun x => x.lane == l.lane) (fun _ => l) o.lanes }

/-- Whether a higher lane of a store has been performed on the same bytes: its value remains (R213). -/
def State.overwritten (s : State) (o : MemOp) (l : LaneAcc) : Bool :=
  o.lanes.any fun x => x.done && decide (l.lane < x.lane) && s.spot o x == s.spot o l && x.blk == l.blk

/-- A lane of an access of a context performed at its place `pa`: a load's value, which every lane that reads the same bytes
receives (R213); a store; an atomic as one read and write (R219); a scatter's one store for an address (R270); the full bit
of a granule (R216); a bench's new value, or a post to it (R225, R227). `pa` of a scratchpad access is the offset in its block's
allocation. -/
def State.ctxLane (s : State) (tag : BitVec 12) (o : MemOp) (l : LaneAcc) (pa : Nat) : MemOp × State :=
  let get : Nat × State := if o.sp then (s.spadRd l.blk pa o.size, s) else s.memRd (some tag) pa o.size
  let put (s : State) (v : Nat) : State :=
    if o.sp then s.spadWr l.blk pa (natBytes o.size v) else s.memWr (some tag) pa (natBytes o.size v)
  let same (x : LaneAcc) : Bool := !x.done && s.spot o x == s.spot o l && x.blk == l.blk
  match o.kind with
  | .load =>
    match get with
    | (v, s1) => ({ o with lanes := o.lanes.map fun x => if same x then { x with val := v, done := true } else x }, s1)
  | .atom =>
    match get with
    | (v, s1) => (o.putLane { l with val := v, done := true }, put s1 (atomNew o.op o.ty v l.val l.cmp))
  | .scatc => ({ o with lanes := storeDone l.va o.lanes }, put s l.val)
  | .feset => (o.putLane { l with done := true }, s.updBlock l.blk fun x => { x with full := fullSet x.full [pa / 16] })
  | .feclr => (o.putLane { l with done := true }, s.updBlock l.blk fun x => { x with full := fullClr x.full [pa / 16] })
  | .binit => (o.putLane { l with done := true }, put s l.val)
  | .barrive => (o.putLane { l with done := true }, s.post l.blk pa 1 0)
  | .store => (o.putLane { l with done := true }, if s.overwritten o l then s else put s l.val)
  | .isect => (o, s)

/-- A lane of an access of a block performed; what a load reads of memory is filled into the core's L1 (R401). -/
def State.coreLane (s : State) (b : Block) (o : MemOp) (l : LaneAcc) (pa : Nat) : MemOp × State :=
  match s.ctxLane b.tag o l pa with
  | (o1, s1) => (o1, if !o.sp && o.kind = .load then s1.l1Fill b.core b.tag pa else s1)

/-- Whether a lane can be performed at this module, or over the fabric. -/
def State.laneDue (s : State) (own : Bool) (l : LaneAcc) : Bool :=
  !l.done && (match l.pa with | some pa => (s.homeModule pa = s.pod.toNat) == own | none => false)

/-- Lane `n` of an access performed, if it is due and nothing holds it (R425). -/
def State.oneLane (s : State) (b : Block) (t : Team) (own : Bool) (o : MemOp) (n : Nat) : MemOp × State :=
  match o.lanes.find? fun x => x.lane == n with
  | none => (o, s)
  | some l =>
    match l.pa with
    | none => (o, s)
    | some pa =>
      if l.done || !s.laneMay b t o l then (o, s)
      else if o.sp then s.coreLane b o l pa
      else if !s.laneDue own l || s.moduleHeld (s.homeModule pa) o.id then (o, s)
      else if b.bureau.isSome then match s.bureauLane o l pa with | (x, s1) => (o.putLane x, s1)
      else s.coreLane b o l pa

/-- Lanes of an access performed one after another. -/
def State.runLanes (s : State) (b : Block) (t : Team) (own : Bool) (o : MemOp) : List Nat → MemOp × State
  | [] => (o, s)
  | n :: ns => match s.oneLane b t own o n with | (o1, s1) => s1.runLanes b t own o1 ns

/-! ### An access performed -/

/-- The record of a sampled access (R431, R433): FESET and FECLR make one access at their first address (log entry 103). -/
def State.opSample (s : State) (b : Block) (t : Team) (o : MemOp) : State :=
  if !o.sampled then s
  else if o.isFe then s.feSample b t o.pc.toNat o.time o.phase ((o.lanes.head?.map fun a => a.va).getD 0)
  else
    s.sampleRecord b t o.pc.toNat o.time o.phase o.replays o.sp (sampleSectors o.sp o.size o.lanes) (sampledLanes o.lanes)

/-- An access that is performed whole leaves the team: its result is ready, its sample is recorded (R92, R433). -/
def State.opGone (s : State) (r : TRef) (b : Block) (t : Team) (o : MemOp) (ws : List RegWrite) : State :=
  (s.updTeam r fun u =>
    let u1 := { u with ops := u.ops.filter fun x => x.id != o.id }
    match o.pend with | some id => u1.answer id ws | none => u1).opSample b t o

/-- What an access has come to: it is performed whole, or it stays with the lanes that it has left. -/
def State.settleOp (s : State) (r : TRef) (b : Block) (t : Team) (o : MemOp) : State :=
  if o.lanes.all fun l => l.done then
    s.opGone r b t o (match o.dest with | some d => loadWrites d t.lanes o.size o.sx o.lanes | none => [])
  else s.updTeam r fun u => { u with ops := updWhere (fun x => x.id == o.id) (fun _ => o) u.ops }

/-- What is left of an intersection performed, and its result (R276). -/
def State.isectDone (s : State) (r : TRef) (b : Block) (t : Team) (o : MemOp) : State :=
  match o.lanes.head?, o.dest with
  | some l, some (.w d) =>
    if s.laneMay b t o l then match s.isectRun o with | (s1, v) => s1.opGone r b t o [.w d (BitVec.ofNat 64 v)] else s
  | _, _ => s

/-- The lanes of an access that can be performed at this module, or over the fabric, in increasing index. -/
def State.performOp (s : State) (r : TRef) (b : Block) (t : Team) (o : MemOp) (own : Bool) : State :=
  if o.kind = .isect then s.isectDone r b t o
  else match s.runLanes b t own o (o.lanes.map fun l => l.lane) with | (o1, s1) => s1.settleOp r b t o1

/-- The access of a team by its identity; a block off its cores performs none (R57). -/
def State.dueOp (s : State) (r : TRef) (n : Nat) : Option (Block × Team × MemOp) :=
  match s.team? r with
  | none => none
  | some (b, t) =>
    match t.ops.find? fun o => o.id = n with
    | some o => if b.place = .resident then some (b, t, o) else none
    | none => none

/-- ACCESS_PERFORMED (R221): the lanes whose home is this module, and those of scratchpad. -/
def execAccessPerformed (r : TRef) (n : Nat) (s : State) : Out :=
  match s.dueOp r n with
  | none => .next s
  | some (b, t, o) => .next (s.performOp r b t o true)

/-! ### The fabric (R423, R425) -/

/-- Whether a lane is returned as it leaves (R425): it was held by a write of its module's entry, and the entry is not valid now. -/
def State.returned (s : State) (o : MemOp) (l : LaneAcc) : Bool :=
  s.laneDue false l && (match l.pa with
    | some pa =>
      let m := s.homeModule pa
      (s.route? m).isNone && !s.moduleHeld m o.id && s.routeHolds.any fun p => p.1 = m && decide (p.2 ≤ o.id)
    | none => false)

/-- The lanes that are returned leave the access, and the team takes NOROUTE for them at its next run boundary (R425; log
entry 110). -/
def State.returnLanes (s : State) (r : TRef) (o : MemOp) : MemOp × State :=
  match o.lanes.filter (s.returned o) with
  | [] => (o, s)
  | l :: ls =>
    let q : TrapReq :=
      { cause := .noroute, info := l.lane, pc := o.pc, resume := o.pc
        lanes := (l :: ls).map fun x => (x.lane, Cause.code .noroute, x.va, false), extn := none, misrec := 0#64 }
    ({ o with lanes := o.lanes.filter fun x => !s.returned o x }
    , s.updTeam r fun u => u.later q)

/-- An access that leaves for other modules: what is returned, and what is performed there. -/
def State.remoteOp (s : State) (r : TRef) (b : Block) (t : Team) (o : MemOp) : State :=
  match s.returnLanes r o with
  | (o1, s1) =>
    match s1.runLanes b t false o1 (o1.lanes.map fun l => l.lane) with
    | (o2, s2) => s2.settleOp r b t o2

/-- One lane of an access at a moment of its own, wherever its home is; of an intersection, one element (R213, R255, R277). -/
def State.laneTurn (s : State) (r : TRef) (n l : Nat) : State :=
  match s.dueOp r n with
  | none => s
  | some (b, t, o) =>
    if o.kind = .isect then
      (if o.lanes.head?.any (s.laneMay b t o) then
        match s.isectLane o l with
        | (o1, s1) => s1.updTeam r fun u => { u with ops := updWhere (fun x => x.id == o.id) (fun _ => o1) u.ops }
       else s)
    else
      match s.returnLanes r o with
      | (o1, s1) =>
        match s1.oneLane b t true o1 l with
        | (o2, s2) => match s2.oneLane b t false o2 l with | (o3, s3) => s3.settleOp r b t o3

/-- A write of this module that reaches another module's HBM: the spin detectors see it (R55). -/
def State.remoteWr (s : State) (a : Nat) (bs : List Byte) : State :=
  (cutLines a bs).foldl (fun s p => (s.pmWr p.1 p.2).unspin fun q => q.lines.contains (s.home p.1 / 64)) s

/-- FABRIC_REMOTE_ACCESS (R423): a team's own access is performed at its line's home on another module; or another module's
access is performed on this module's HBM. A write that names another module's HBM is that module's own. -/
def execFabricRemoteAccess (s : State) : Out :=
  match s.input.fab with
  | .own r n =>
    (match s.dueOp r n with
     | none => .next s
     | some (b, t, o) => if o.sp then .next s else .next (s.remoteOp r b t o))
  | .read tag a n =>
    if paModule a = s.pod.toNat && paLocal a + n ≤ hbmSize then
      match s.memRd (some tag) a n with | (v, s1) => .next { s1 with hostReply := some (natBytes n v) }
    else .next s
  | .write tag a bs =>
    if hbmSize < paLocal a + bs.length then .next s
    else if paModule a = s.pod.toNat then .next (s.memWrAll (some tag) a bs)
    else .next (s.remoteWr a bs)
  | .atom tag a q =>
    let n := atomSize q.ty
    if paModule a = s.pod.toNat && paLocal a + n ≤ hbmSize && a % n = 0 && q.op.toNat ≤ 10 then
      match s.memRd (some tag) a n with
      | (v, s1) =>
        let w := atomNew q.op.toNat q.ty v (q.v.toNat % 2 ^ (8 * n)) (q.cmp.toNat % 2 ^ (8 * n))
        .next { (s1.memWr (some tag) a (natBytes n w)) with hostReply := some (natBytes n v) }
    else .next s

/-! ### Migration (R207) -/

/-- Whether a translation that a TLB or a register holds, or an access, carries a line's frame. -/
def State.carried (s : State) (line : Nat) : Bool :=
  let in' (f n : Nat) : Bool := decide (f / 64 ≤ line) && decide (64 * line < f + n)
  let tlb (l : List (Nat × List TlbEntry)) : Bool := l.any fun p => p.2.any fun e => in' e.frame e.size
  let team (t : Team) : Bool :=
    (t.x.any fun x => x.val && x.limit != 0#30 && in' x.frame.toNat x.limit.toNat)
      || t.ops.any fun o => !o.sp && o.lanes.any fun l => !l.done && (match l.pa with | some pa => pa / 64 = line | none => false)
  tlb s.tlb1 || tlb s.tlb2 || s.blocks.any fun b => b.teams.any team

/-- A line moved with its bytes, its stored tag and its poison (R401, R404); its home switches. Lines whose home it was move on. -/
def State.moveLine (s : State) (src dst : Nat) : State :=
  let tags := s.hbmTags.filter fun p => p.1 != dst
  let spin (p : Spin) : Spin := { p with lines := p.lines.map fun x => if x = src then dst else x }
  { s with mem := s.mem.wr (64 * dst) (s.mem.bytes (64 * src) 64)
           hbmTags := match entry? s.hbmTags src with | some t => entryPut tags dst t | none => tags
           poison := (s.poison.filter fun x => x != dst) ++ (if s.poison.contains src then [dst] else [])
           l1 := s.l1.map fun p => (p.1, p.2.filter fun q => q.2 != src && q.2 != dst)
           l2 := s.l2.filter fun l => l.line != src && l.line != dst
           blocks := s.blocks.map fun (b : Block) => { b with teams := b.teams.map fun t => { t with spin := spin t.spin } }
           migrations := ((s.migrations.filter fun p => p.1 != dst).map fun p => if p.2 = src then (p.1, dst) else p) ++ [(src, dst)] }

/-- PAGE_MIGRATION_LINE (R207): the line is copied, and its home switches indivisibly. A line may move back. With one line as source
and destination, software has changed the translations: the line's redirection ends, unless something still carries the
old frame (log entry 111). -/
def execPageMigrationLine (s : State) : Out :=
  let src := s.input.mig.src / 64
  let dst := s.input.mig.dst / 64
  if src = dst then .next { s with migrations := s.migrations.filter fun p => p.1 != src || s.carried src }
  else if s.migrations.any fun p => p.1 = src || p.2 = dst || (p.1 = dst && p.2 != src) then .next s
  else .next (s.moveLine src dst)

/-! ### Results (R91, R92) -/

/-- RESULT_ARRIVAL (R92): by the result's identity. A team of a reclaimed or cancelled block that is parked on a network-reduction result
is at a reclamation point: it ends there, and the result is discarded (R285, R336). -/
def execResultArrival (r : TRef) (n : Nat) (s : State) : Out :=
  match s.team? r with
  | none => .next s
  | some (b, t) =>
    match t.pend.find? fun p => p.id = n with
    | some p =>
      (match p.ready with
       | some ws =>
         if p.nred && b.dying && t.counted && t.parked then .next (s.endTeam r) else
         .next ((s.updTeam r fun u => { u with pend := u.pend.filter fun q => q.id != n }).regWrites r ws)
       | none => .next s)
    | none => .next s

/-- RUN_BOUND_WRITE (R91): the oldest result, once its latency has passed; writes of the vectors come with the run's last, and after
the entry of a trap that the run has raised (R128). -/
def execRunBoundWrite (r : TRef) (s : State) : Out :=
  match s.team? r with
  | none => .next s
  | some (_, t) =>
    if !t.run.ended then .next s
    else
      match t.run.writes.find? fun w => !w.write.late with
      | some w =>
        if s.clock < w.at' then .next s
        else .next ((s.updTeam r fun u => { u with run := { u.run with writes := u.run.writes.erase w } }).regWrites r [w.write])
      | none =>
        if t.trap.isSome || t.run.writes.isEmpty || t.run.writes.any fun w => decide (s.clock < w.at') then .next s
        else
          .next ((s.updTeam r fun u => { u with run := { u.run with writes := [] } }).regWrites r (t.run.writes.map fun w => w.write))

/-! ### Traps and interrupts -/

/-- TRAP_ENTRY (R381): a trap that a team has raised and that waits. -/
def execTrapEntry (r : TRef) (s : State) : Out :=
  match s.team? r with
  | some (b, _) => if b.live then .next (s.enterTrap r) else .next s
  | none => .next s

/-- Whether the CSWAP or DUSK of a team has reached the sequencer: the team's fetch is suspended until it is performed (R395). -/
def State.moveBegun (s : State) (r : TRef) : Bool := s.movers.contains r

/-- Whether a team takes a pending interrupt (R372, R393): it is a Bureau's, outside a handler, at a run boundary or in WFI, with no trap
to enter and none that waits for a boundary; not while its CSWAP or DUSK is with the sequencer (R395). -/
def State.interruptDue (s : State) (b : Block) (t : Team) : Bool :=
  match b.bureau with
  | none => false
  | some e =>
    (s.die e).interrupt && !t.ended && t.handler.isNone && t.trap.isNone && t.defer.isNone && t.atBoundary
      && (t.wait.isNone || t.wait = some .wfi) && !s.moveBegun ⟨b.id, t.idx⟩

/-- INTERRUPT_ENTRY (R372, R393). A trap of the chain at the same boundary comes first: `State.interruptTurn`. -/
def execInterruptEntry (r : TRef) (s : State) : Out :=
  match s.team? r with
  | none => .next s
  | some (b, t) =>
    if !s.interruptDue b t then .next s
    else
      .next ((s.updTeam r fun u => { u with wait := none }).raise r
        { cause := .intr, info := 0, pc := t.pc, resume := t.pc, lanes := [], extn := none, misrec := 0#64 })

end Sys2Proof.Machine
end

