-- ==== Sys2Proof/Machine/Finish.lean ====
section
/-! DEFINITION. BLOCK_END (R33): a block whose teams have ended and whose accesses are performed leaves its core. -/

namespace Sys2Proof.Machine

/-! ### What keeps a block (R33, R196) -/

/-- Whether a copy was issued by a block, or has its scratchpad or a bench in it. -/
def Copy.names (c : Copy) (b : Nat) : Bool :=
  c.b == b || (match c.chip with | .spad x _ => x == b | _ => false)
    || (match c.bench with | some (x, _) => x == b | none => false)

/-- Whether a tile operation of another block takes from a block or posts to it (R226, R317). -/
def TileOp.names (o : TileOp) (b : Nat) : Bool :=
  o.lead == b || o.follower == some b || (match o.bench with | some (x, _) => x == b | none => false)

/-- Whether a team has an access to a block's scratchpad that is not performed, or waits for a granule or a bench there. -/
def Team.reaches (t : Team) (b : Nat) : Bool :=
  t.ops.any (fun o => o.sp && o.lanes.any fun l => !l.done && l.blk == b)
    || (match t.wait with
        | some (.consume ls _ _ _ _ _ _) => ls.any fun l => l.blk == b
        | some (.bench x _ _) => x == b
        | _ => false)

/-- Whether another block still reaches a block (R196). -/
def State.reached (s : State) (b : Nat) : Bool :=
  s.blocks.any fun x => x.id != b
    && (x.tiles.any (fun z => z.ops.any fun o => o.names b) || x.teams.any fun t => t.reaches b)

/-- Whether a block's teams have ended and everything that they issued has been performed. -/
def State.spent (s : State) (b : Block) : Bool :=
  b.teams.all (fun t => t.ended && t.runDone && t.ops.isEmpty) && b.tiles.all (fun z => z.ops.isEmpty)
    && !(s.copies.any fun c => c.names b.id) && !(s.nmsgs.any fun m => m.r.b == b.id) && !s.reached b.id

/-! ### The end -/

/-- How a block's end counts in its level (R43, R45, R46): the END code of the member, and the index of a faulted one. -/
def Block.endsAs (b : Block) : Nat × Option Nat :=
  match b.fault with
  | some _ => (1, some b.index)
  | none => if b.dying then (3, none) else (0, none)

/-- w0 of team 0, a future's value (R335). -/
def Block.value (b : Block) : Dword := match b.team? 0 with | some t => t.w.getD 0 0#64 | none => 0#64

/-- The future of a block's task at its end (R335, R336). -/
def State.endFuture (s : State) (b : Block) : State :=
  match b.fault with
  | some _ => s.futEnd b.future .faulted 0#64 b.pcount
  | none => if b.dying then s.futEnd b.future .reclaimed 0#64 b.pcount else s.futEnd b.future .done b.value b.pcount

/-- The block counts in its level: a node in its tree, any other as a member of its launch. -/
def State.countEnd (s : State) (b : Block) : State :=
  if b.tree.isSome then s.nodeEnd b
  else s.updCtx b.tag fun c => c.leave b.slot b.endsAs.1 b.endsAs.2

/-- The block's team slots, registers, scratchpad, Chest slots and tiles are free; what they hold stays (R152, R192). -/
def State.removeBlock (s : State) (b : Nat) : State :=
  let s1 := match s.block? b with | some x => s.leave x | none => s
  { s1 with blocks := s1.blocks.filter fun x => x.id != b }

/-- The futures that a reclaimed or cancelled block still holds lose a consumer (R347); a normal end or a fault drops none. -/
def State.dropHolds (s : State) (b : Block) : State :=
  if b.dying && b.fault.isNone then s.futDropAll b.holds else s

/-- BLOCK_END (R33). A Bureau's block is no member of a level (R367). -/
def execBlockEnd (b : Nat) (s : State) : Out :=
  match s.block? b with
  | none => .next s
  | some x =>
    if x.place != .resident || !s.spent x then .next s
    else if x.bureau.isSome then .next (s.removeBlock b)
    else .next ((((s.endFuture x).removeBlock b).dropHolds x).countEnd x)

end Sys2Proof.Machine
end

