-- ==== Sys2Proof/Machine/Contain.lean ====
section
/-! DEFINITION. Uncorrectable errors, the termination of contexts, the termination report, and what the end of a context frees
(R42, R401 to R410). -/

namespace Sys2Proof.Machine

/-! ### What a context's end frees (R42, R401, R407 step 5) -/

/-- A port of a context freed (R330). -/
def Port.drop (p : Port) (tag : BitVec 12) : Port :=
  if p.owner == some tag then { p with owner := none, gen := p.gen + 1#32, msgs := [], held := [], waiting := [] } else p
/-- A pattern of a context freed. -/
def Pattern.drop (p : Pattern) (tag : BitVec 12) : Pattern :=
  if p.owner == some tag then { p with owner := none, gen := p.gen + 1#32 } else p
/-- A future entry of a context freed. -/
def Future.drop (f : Future) (tag : BitVec 12) : Future :=
  if f.owner == some tag then { f with owner := none, gen := f.gen + 1#32 } else f
/-- A queue of a context freed. -/
def Queue.drop (q : Queue) (tag : BitVec 12) : Queue :=
  if q.owner == some tag then { q with owner := none, gen := q.gen + 1#32, waiting := [], pushing := [] } else q

/-- The entry of a launch that is marked as running, as one of a launch that ended now (R451). -/
def capEnd (tag : BitVec 12) (now : Nat) (e : Dword × Nat × Nat) : Dword × Nat × Nat :=
  if e.1.extractLsb' 52 12 == tag && e.2.2 == capRuns then (e.1, e.2.1, now) else e

/-- A die's units without a context's entries. -/
def Die.drop (d : Die) (tag : BitVec 12) (now : Nat) : Die :=
  let d1 := { d with
    ports := d.ports.map fun (p : Nat × Port) => (p.1, p.2.drop tag)
    patterns := d.patterns.map fun (p : Nat × Pattern) => (p.1, p.2.drop tag)
    futures := d.futures.map fun (p : Nat × Future) => (p.1, p.2.drop tag)
    oldFuts := d.oldFuts.filter fun (f : Future) => f.tag != tag
    bins := d.bins.filter fun (b : Bin) => b.tag != tag
    queues := d.queues.map fun (p : Nat × Queue) => (p.1, p.2.drop tag)
    capstall := d.capstall.map (capEnd tag now) }
  d1.trim

/-- Whether a block is a context's. -/
def Block.isOf (b : Block) (tag : BitVec 12) : Bool := b.tag == tag && b.bureau.isNone

/-- The blocks of a context. -/
def State.blocksOf (s : State) (tag : BitVec 12) : List Block := s.blocks.filter fun b => b.isOf tag

/-- The entries of a block that a context's end takes away are zero (R407). -/
def State.wipe (s : State) (b : Block) : State :=
  s.leave { b with spad := [], full := [], chest := b.chest.map fun (c : Chest) => { c with bytes := [] }
                   tiles := b.tiles.map fun (z : Tile) => { z with bytes := [] } }

/-- The state without a context and all that is tagged with it. L2 and HBM lines lose the tag and keep their bytes. -/
def State.eraseCtx (s : State) (tag : BitVec 12) : State :=
  let ids := (s.blocksOf tag).map fun b => b.id
  { ((s.blocksOf tag).foldl State.wipe s).untag tag with
    ctxs := s.ctxs.filter fun c => c.tag != tag
    blocks := s.blocks.filter fun (b : Block) => !b.isOf tag
    dispatches := s.dispatches.filter fun (d : Dispatch) => d.tag != tag
    trees := s.trees.filter fun (t : Tree) => t.tag != tag
    copies := s.copies.filter fun (c : Copy) => !ids.contains c.b
    ninsts := s.ninsts.filter fun (n : NInst) => n.tag != tag
    nmsgs := s.nmsgs.filter fun (n : NMsg) => n.tag != tag
    dies := s.dies.map fun (d : Die) => d.drop tag (s.nextId + 1)
    parts := s.parts.map fun p => if p.2 == (1#1 ++ tag) then (p.1, 0#1 ++ tag) else p
    l1 := s.l1.map fun p => (p.1, p.2.filter fun q => q.1 != tag)
    tlb1 := s.tlb1.map fun p => (p.1, p.2.filter fun e => e.tag != tag)
    tlb2 := s.tlb2.map fun p => (p.1, p.2.filter fun e => e.tag != tag)
    nextId := s.nextId + 1 }

/-! ### The records of a report (R410) -/

/-- Records put in ascending order of their first identifier. -/
def sortRecs (l : List (Nat × List Nat)) : List (List Nat) :=
  (l.foldl (fun (o : List (Nat × List Nat)) r =>
    o.takeWhile (fun x => decide (x.1 ≤ r.1)) ++ [r] ++ o.dropWhile fun x => decide (x.1 ≤ r.1)) []).map fun r => r.2

/-- All ones. -/
def allOnes : Nat := 2 ^ 64 - 1

/-- LEVEL records. -/
def Ctx.levelRecs (c : Ctx) : List (List Nat) :=
  sortRecs (c.levels.map fun l =>
    (l.slot, [1 + l.slot % 65536 * 2 ^ 8 + l.kind % 8 * 2 ^ 24, (levelHandle c.tag l).toNat, l.counter,
              if l.complete then l.status.toNat else allOnes]))

/-- Whether the census of a tree launch has passed: it has brought the nodes. -/
def Tree.censused (t : Tree) : Bool := t.phase != .report && !t.nodes.isEmpty

/-- The nodes of a tree that are running. -/
def Tree.runningNodes (t : Tree) : List Nat := (t.nodes.filter fun x => x.st = .running).map fun x => x.idx

/-- TREE records. -/
def State.treeRecs (s : State) (c : Ctx) : List (List Nat) :=
  sortRecs ((s.trees.filter fun t => t.tag == c.tag).map fun t =>
    let h := match c.level? t.slot with | some l => (levelHandle c.tag l).toNat | none => 0
    (t.slot, [2 + t.slot % 65536 * 2 ^ 8, h, if t.censused then (t.nodesPtr + 32 * t.count) % 2 ^ 56 else 0,
              if t.censused then t.runningNodes.length else 0]))

/-- Whether every unit of a copy is written. -/
def Copy.whole (c : Copy) : Bool := decide (c.dests ≤ c.done.length)

/-- COPY records: a copy in flight is abandoned unless all of its units are written, and then has the status word of R230. -/
def State.copyRecs (s : State) (tag : BitVec 12) : List (List Nat) :=
  sortRecs (s.copies.filterMap fun c =>
    match s.blocks.find? fun b => b.id == c.b with
    | some b =>
      if b.isOf tag then
        let slot := match b.team? c.team with | some t => t.slot | none => 0
        some (b.core * 2 ^ 10 + slot * 2 ^ 6 + c.u % 64,
              [3 + (if c.whole then 0 else 2 ^ 8) + b.core % 1024 * 2 ^ 9 + slot % 16 * 2 ^ 19 + c.u % 64 * 2 ^ 23
              , if c.whole then c.status else 0, c.wb0 % 2 ^ 64, c.wb1 % 2 ^ 64])
      else none
    | none => none)

/-- FUTURE records, of the entries in use; a pending one is shown as faulted. -/
def State.futRecs (s : State) (tag : BitVec 12) : List (List Nat) :=
  sortRecs ((s.dies.flatMap fun d => d.futures).filterMap fun p =>
    if p.2.owner == some tag then
      let f := if p.2.st = .pending then { p.2 with st := .faulted } else p.2
      some (p.1, (4 + p.1 % 65536 * 2 ^ 8) :: (List.range 3).map fun i => bytesNat ((f.bytes f.pcount).drop (8 * i) |>.take 8))
    else none)

/-- TEAM records. -/
def State.teamRecs (s : State) (tag : BitVec 12) : List (List Nat) :=
  sortRecs ((s.blocksOf tag).flatMap fun b => b.teams.map fun t =>
    (b.core * 16 + t.slot,
     [5 + b.core % 1024 * 2 ^ 8 + t.slot % 16 * 2 ^ 18, (s.levelOf b).toNat % 2 ^ 48,
        b.block.toNat + b.barPhase % 2 ^ 32 * 2 ^ 32,
        match t.retired with | some a => a.toNat | none => allOnes]))

/-! ### The report (R408) -/

/-- A piece of the report of a context written at system scope, with the context's tag (R401): a line in a reserved range, or
poisoned and not covered, drops it. -/
def State.reportPiece (s : State) (tag : BitVec 12) (pa : Nat) (bs : List Byte) : State :=
  let bad := reservedLocal (paLocal pa) || inWindow (paLocal pa)
    || (s.poison.contains (s.home pa / 64) && !(pa % 64 = 0 && bs.length = 64))
  if bad then s else s.unitWr (some tag) pa bs

/-- Bytes of a report written line by line. -/
def State.reportWr (s : State) (tag : BitVec 12) (pa : Nat) (bs : List Byte) : State :=
  (cutLines pa bs).foldl (fun s p => s.reportPiece tag p.1 p.2) s

/-- The bytes of a list of dwords. -/
def natDwords (l : List Nat) : List Byte := l.flatMap fun x => natBytes 8 x

/-- The header and the records that fit: `rs` are the lists of the five kinds, in order. A count is cut to its 16 bits (log entry
140). -/
def reportBytes (rsize cause wher time : Nat) (rs : List (List (List Nat))) : List Byte :=
  let room := (rsize - 256) / 32
  let all := rs.flatMap fun l => l
  let fit (i : Nat) : Nat :=
    min (rs.getD i []).length (room - ((rs.take i).map fun l => l.length).foldl (· + ·) 0) % 2 ^ 16
  natDwords [cause, wher, time, 0, fit 0 + fit 1 * 2 ^ 16 + fit 2 * 2 ^ 32 + fit 3 * 2 ^ 48, fit 4,
             if room < all.length then 1 else 0] ++ List.replicate 0xC8 0#8
    ++ (all.take room).flatMap natDwords

/-- The CAUSE dword. -/
def causeWord (kind unit die idx : Nat) : Nat := kind % 256 + unit % 256 * 2 ^ 8 + die % 4 * 2 ^ 16 + idx % 4096 * 2 ^ 20

/-! ### Termination (R407) -/

/-- The completion maps of a tree launch whose census has passed (R24, R410): running nodes are faulted. A dword on a page
that is not resident is dropped. -/
def State.endTree (s : State) (t : Tree) : State :=
  if !t.censused then s
  else
    let t1 : Tree := { t with
      phase := .ending
      nodes := t.nodes.map fun (x : Node) => if x.st = .running then { x with st := .faulted } else x }
    (t1.writes.filter fun w => !t.written.contains w.1).foldl (fun s w =>
      match s.unitPlace t.tag .wr 8 w.2.1 with
      | .pa a => s.unitWr (some t.tag) a (natBytes 8 w.2.2)
      | _ => s) s

/-- The pending futures of a context written with STATE faulted. -/
def State.endFutures (s : State) (tag : BitVec 12) : State :=
  (s.dies.flatMap fun d => (d.futures.map fun p => p.2).filter (fun f => f.owner.isSome) ++ d.oldFuts).foldl (fun s f =>
    if f.tag == tag && f.st = .pending then s.futWrite { f with st := .faulted } else s) s

/-- The queues and the interrupt that announce an ended context (R407, R421, R457). -/
def State.announce (s : State) (tag : BitVec 12) (nerr : Nat) : State :=
  { (s.updDie 0 fun d => { d with evstat := d.evstat ||| 1#4 }) with
    termq := s.termq ++ [tag], termb := s.termb ++ [tag], unacked := s.unacked ++ [(tag, nerr)] }

/-- A context ends (R407): what its units had not performed by now does not happen, so that of an abandoned copy the units that it
has written are new, and the others old (R410). -/
def State.terminate (s : State) (c : Ctx) (cause wher : Nat) : State :=
  let rs := [c.levelRecs, s.treeRecs c, s.copyRecs c.tag, s.futRecs c.tag, s.teamRecs c.tag]
  let s1 := (s.trees.filter fun t => t.tag == c.tag).foldl (fun s t => s.endTree t) s
  let s2 := (s1.endFutures c.tag).eraseCtx c.tag
  (s2.reportWr c.tag c.rbase (reportBytes c.rsize cause wher s.clock rs)).announce c.tag (c.rbase + 0x18)

/-- A second error adds 1 to NERR of the report that is not acknowledged (R407). -/
def State.again (s : State) (tag : BitVec 12) : State :=
  match s.unacked.find? fun p => p.1 == tag with
  | some p => s.reportPiece tag p.2 (natBytes 8 (s.pmRd p.2 8 + 1))
  | none => s

/-- An error reaches a context. -/
def State.strike (s : State) (cause wher : Nat) (tag : BitVec 12) : State :=
  match s.ctx? tag with
  | some c => s.terminate c cause wher
  | none => s.again tag

/-- An error reaches the contexts of a list, each once. -/
def State.strikes (s : State) (cause wher : Nat) (tags : List (BitVec 12)) : State :=
  tags.eraseDups.foldl (fun s t => s.strike cause wher t) s

/-! ### Errors (R404) -/

/-- The UNIT codes (R409). -/
def errCode : ErrUnit → Nat
  | .registers => 1 | .scratchpad => 2 | .chest => 3 | .accumulator => 4 | .l1 => 5 | .l2 => 6 | .tlb => 7 | .hbm => 8
  | .shelf => 9 | .hutch => 10 | .futures => 11 | .bins => 12 | .queues => 13 | .matcher => 14 | .levels => 15
  | .router => 16 | .shadow => 17 | .tce => 18 | .pipeline => 19 | .area => 20

/-- The unit of a structure of a core. -/
def blockUnit : BlockUnit → ErrUnit
  | .registers => .registers | .scratchpad => .scratchpad | .chest => .chest | .operandCache => .chest
  | .accumulator => .accumulator | .operandLog => .l1

/-- The unit of a structure of a die; network-reduction merge state is the routers' (R401; log entry 114). -/
def entryUnit : EntryUnit → ErrUnit
  | .l1 => .l1 | .tlb => .tlb | .shelf => .shelf | .hutch => .hutch | .futures => .futures | .bins => .bins
  | .queues => .queues | .matcher => .matcher | .levels => .levels | .merge => .router | .area => .area

/-- The CAUSE dword of an error in a tagged entry. -/
def entryCause (u : ErrUnit) (die idx : Nat) : Nat := causeWord 1 (errCode u) die idx

/-- A poisoned line found by the fill of a context, or of several (R404): the line's stored tag and every requester tag. -/
def State.fillError (s : State) (line : Nat) (tags : List (BitVec 12)) : State :=
  let own := match entry? s.hbmTags line with | some t => [t] | none => []
  s.strikes (entryCause .hbm (stackOf line / 2) (stackOf line % 2)) (64 * line) (own ++ tags)

/-- An L2 line lost (R404): its unwritten bytes are gone, and HBM keeps what was last written back. -/
def State.loseLine (s : State) (l : L2) : State :=
  let s1 := { s with l2 := s.l2.filter fun x => x.line != l.line }
  match l.old with
  | none => s1
  | some bs =>
    { s1 with mem := s1.mem.wr (64 * l.line) bs
              hbmTags := match l.oldTag with
                | some t => entryPut s1.hbmTags l.line t
                | none => s1.hbmTags.filter fun p => p.1 != l.line }

/-- The blocks that a core's shadow slot holds (R394). -/
def State.slotBlocks (s : State) (core : Nat) : List Block :=
  s.blocks.filter fun b => b.core = core && (b.place = .saved || b.place = .swapped) && b.bureau.isNone

/-- Whether a die's unit holds an entry of a context (R401): an error in an entry that an earlier termination has untagged ends
nothing (R404). `i` tells the core of an L1 data cache in its die; a report area serves its context until it is acknowledged. -/
def State.holdsEntry (s : State) (u : EntryUnit) (e i : Nat) (t : BitVec 12) : Bool :=
  let d := s.die e
  match u with
  | .l1 => ((entry? s.l1 (256 * e + i % 256)).getD []).any fun q => q.1 == t
  | .tlb => (s.tlb1.any fun p => coreDie p.1 = e && p.2.any fun x => x.tag == t) || ((entry? s.tlb2 e).getD []).any fun x => x.tag == t
  | .shelf => s.trees.any fun x => x.die = e && x.tag == t && !x.shelf.isEmpty
  | .hutch => (d.ports.any fun p => p.2.owner == some t) || d.patterns.any fun p => p.2.owner == some t
  | .futures => (d.futures.any fun p => p.2.owner == some t) || d.oldFuts.any fun f => f.tag == t
  | .bins => d.bins.any fun x => x.tag == t
  | .queues => d.queues.any fun p => p.2.owner == some t
  | .matcher => (s.dispatches.any fun x => x.tag == t && !x.regions.isEmpty) || (s.blocksOf t).any fun b => !b.regions.isEmpty
  | .levels => match s.ctx? t with | some c => !c.levels.isEmpty | none => false
  | .merge => (s.ninsts.any fun n => n.tag == t) || s.nmsgs.any fun n => n.tag == t
  | .area => (s.ctx? t).isSome || s.unacked.any fun p => p.1 == t

/-- UNCORRECTABLE_ERROR (R404). An error in an untagged entry, or in one that holds nothing, ends no context. -/
def execUncorrectableError (s : State) : Out :=
  match s.input.err with
  | .block u b n =>
    (match s.blocks.find? fun x => x.id == b && x.bureau.isNone with
     | some x => .next (s.strikes (entryCause (blockUnit u) (coreDie x.core) (x.core % 256)) n [x.tag])
     | none => .next s)
  | .entry u e i n t =>
    .next (if s.holdsEntry u e.toNat i.toNat t then s.strikes (entryCause (entryUnit u) e.toNat i.toNat) n [t] else s)
  | .l2 line =>
    (match s.l2.find? fun x => x.line == line with
     | some l => .next ((s.loseLine l).strikes (entryCause .l2 (stackOf line / 2) (sliceOf line)) (64 * line) l.tags)
     | none => .next s)
  | .hbm line tags =>
    let s1 := { s with l2 := s.l2.filter fun (x : L2) => x.line != line
                       poison := if s.poison.contains line then s.poison else s.poison ++ [line] }
    .next (if tags.isEmpty then s1 else s1.fillError line tags)
  | .flit e i tags => (match s.fresh with | (n, s1) => .next (s1.strikes (entryCause .router e.toNat i.toNat) n.toNat tags))
  | .shadow core =>
    (match s.fresh with
     | (n, s1) =>
       .next (s1.strikes (entryCause .shadow (coreDie core) (core % 256)) n.toNat ((s.slotBlocks core).map fun b => b.tag)))
  | .logic u e i tags => (match s.fresh with | (n, s1) => .next (s1.strikes (causeWord 2 (errCode u) e.toNat i.toNat) n.toNat tags))

/-- The contexts whose fills have met poison in the step just made end (R404). -/
def State.settleHurt (s : State) : State :=
  (distinct (s.hurt.map fun p => p.1)).foldl (fun z line =>
    z.fillError line (((s.hurt.filter fun p => p.1 = line).map fun p => p.2).filter fun t => (z.ctx? t).isSome)) { s with hurt := [] }

end Sys2Proof.Machine
end

