-- ==== Sys2Proof/Machine/Context.lean ====
section
/-! DEFINITION. Contexts made and ended by system software (R37, R42, R199, R362, R380, R407, R408, R411). -/

namespace Sys2Proof.Machine

/-! ### CONTEXT_CREATION -/

/-- Whether system software may create a context so: the tag is free (R407), the areas are aligned and of a legal size
(R199, R380, R408), the host port's pattern record is legal, of one port and priority 0 (R357, R362), and die 0's Hutch has room. -/
def State.mayCreate (s : State) (q : CtxSpec) : Bool :=
  let r := bytesNat q.pattern
  decide (s.dawn.step = 6) && (s.ctx? q.tag).isNone && !(s.unacked.any fun p => p.1 == q.tag)
    && decide (q.root % 4096 = 0) && decide (q.tarea % 65536 = 0) && decide (q.tarea < 2 ^ 56)
    && decide (1 ≤ q.frames) && decide (q.frames ≤ 16384)
    && decide (q.rbase % 65536 = 0) && decide (q.rsize % 65536 = 0) && decide (65536 ≤ q.rsize) && decide (q.rsize ≤ 16777216)
    && decide (q.pattern.length = 64) && !patBad r && decide (patPorts r = 1) && decide (natBits r 460 4 = 0)
    && decide ((s.die 0).portsUsed.length + 2 ≤ 4096) && decide ((s.die 0).patsUsed.length < 1024)

/-- A context without level instances and ports. -/
def ctxOfSpec (q : CtxSpec) (clock : Nat) : Ctx :=
  { tag := q.tag, root := q.root, tarea := q.tarea, frames := q.frames, claimed := [], rbase := q.rbase, rsize := q.rsize
    acc0 := q.acc0, acc2 := q.acc2, acc3 := q.acc3, trapvec := 0#64, emuvec := 0#64, hostPort := 0, pagerPort := 0
    levels := [], gens := [], past := [], job := 0, latest := 0, phases := 1, absent := [], alive := List.replicate 4 clock }

/-- The job instance and phase 0 of a new context (R37). -/
def State.startJob (s : State) (tag : BitVec 12) : State :=
  match s.newLevel tag 4 .group none 0 0 false 0 with
  | (j, s1) =>
    match s1.newLevel tag 3 .group (some j) 0 0 false 0 with
    | (p, s2) => s2.updCtx tag fun c => { c with job := j, latest := p }

/-- The host port with its pattern, and the pager port (R362). -/
def State.startPorts (s : State) (q : CtxSpec) : State :=
  match s.openPort 0 q.tag with
  | (h, _, s1) =>
    match s1.openPort 0 q.tag with
    | (p, _, s2) =>
      (((s2.updCtx q.tag fun c => { c with hostPort := h, pagerPort := p }).activate 0 q.tag (bytesNat q.pattern) [h]).2)

/-- CONTEXT_CREATION: the specification is the input's. -/
def execContextCreation (s : State) : Out :=
  let q := s.input.ctx
  if s.mayCreate q then
    .next ((({ s with ctxs := s.ctxs ++ [ctxOfSpec q s.clock] } : State).startJob q.tag).startPorts q)
  else .next s

/-! ### CONTEXT_END -/

/-- Whether a context has work that is not ended: such a context is not ended but by an error. -/
def State.busyCtx (s : State) (tag : BitVec 12) : Bool :=
  !(s.blocksOf tag).isEmpty || (s.dispatches.any fun d => d.tag == tag) || (s.trees.any fun t => t.tag == tag)
    || (s.nmsgs.any fun m => m.tag == tag) || (s.dies.any fun d => d.bins.any fun b => b.tag == tag)

/-- CONTEXT_END (R42): the tag is the input's. Cores keep their PART, which the Bureau's firmware sets. -/
def execContextEnd (s : State) : Out :=
  let tag := s.input.idx.setWidth 12
  if (s.ctx? tag).isSome && !s.busyCtx tag then .next { (s.eraseCtx tag) with parts := s.parts } else .next s

end Sys2Proof.Machine
end

