-- ==== Sys2Proof/Machine/Dusk.lean ====
section
/-! DEFINITION. The shadow store and Dusk: CSWAP, DUSK, DUSK.ret and the resumption of saved blocks (R57 to R60, R391,
R394 to R400). A core's shadow slot holds the blocks that name the core and are not resident. -/

namespace Sys2Proof.Machine

/-! ### Halting blocks (R57, R95, R205, R326) -/

/-- Whether an access need not be awaited at a halt: it is in the operand log and waits for an absent page, or for another that
does. -/
def State.travels (s : State) (b : Block) (t : Team) (o : MemOp) : Bool :=
  o.logged && !(o.lanes.any fun l => !l.done && l.pa.isSome && s.laneMay b t o l)

/-- Whether a team stands at a run boundary, or has a trap to enter, with its results written and its accesses performed, or logged. What
a trap's run has left to write of the vectors comes after its entry (R128), and moves with the team. -/
def State.teamQuiet (s : State) (b : Block) (t : Team) : Bool :=
  (t.atBoundary || (t.trap.isSome && t.trapDone)) && (t.pend.all fun p => p.ready.isNone) && t.ops.all (s.travels b t)

/-- Whether a block's state may be saved. -/
def State.blockQuiet (s : State) (b : Block) : Bool :=
  b.teams.all (s.teamQuiet b) && b.tiles.all (fun z => z.ops.isEmpty) && !(s.copies.any fun c => c.names b.id)

/-- A team of a halting block that has halted: a run that it is parked in ends there (R60, R285). -/
def Team.cut (t : Team) : Team := if t.halted then t.cutRun else t

/-- Blocks that are to halt: their teams issue no more than what is left of their runs. -/
def State.haltBlocks (s : State) (ids : List Nat) : State :=
  { s with blocks := s.blocks.map fun (b : Block) =>
      if ids.contains b.id then { b with halt := true, teams := b.teams.map Team.cut } else b }

/-- The resident blocks on cores. -/
def State.on (s : State) (cores : List Nat) : List Block :=
  s.blocks.filter fun b => cores.contains b.core && b.place = .resident && b.bureau.isNone

/-- The blocks that a Dusk of cores halts (R58): those on the cores, and those tied to one of them. -/
def State.toSave (s : State) (cores : List Nat) : List Nat :=
  let all := s.blocks.filter fun b => b.place = .resident && b.bureau.isNone
  tiedUp all 64 ((s.on cores).map fun b => b.id)

/-- The blocks that are left of those that the sequencer has halted, and those that it halts now (R397): a block that another was tied to
stays halted when that one ends or leaves its group. -/
def State.halting (s : State) (old new : List Nat) : List Nat :=
  (s.blocks.filter fun b => b.place = .resident && (old.contains b.id || new.contains b.id)).map fun b => b.id

/-- Whether all of the blocks named are quiet. -/
def State.allQuiet (s : State) (ids : List Nat) : Bool :=
  s.blocks.all fun b => !ids.contains b.id || s.blockQuiet b

/-! ### The sequencer (R395) -/

/-- The numbers of the bits that are set in a map of `n` bits in memory. -/
def bitsAt (v n : Nat) : List Nat := (List.range n).filter fun i => natBits v i 1 = 1

/-- The cores of a list of clusters. -/
def clusterCores (l : List Nat) : List Nat := l.flatMap fun c => (List.range 4).map fun i => 4 * c + i

/-- The sequencer has performed its word: the next one is served. -/
def State.moved (s : State) : State := { s with movers := s.movers.drop 1, moving := none }

/-- The word parks until the sequencer has performed it. -/
def State.movePark (s : State) : State := s.park .pipe

/-- A word of the sequencer: only a Bureau's (R391); it waits for its turn (R395) and for the accesses of the team's earlier chains; the
map lies in the Bureau's SRAM, aligned to its size. `f` goes on with the map. -/
def State.moveWord (s : State) (d a : BitVec 6) (n : Nat) (f : Nat → State → Out) : Out :=
  s.chk [.w a.toNat] [.w d.toNat] false fun b t =>
    match b.bureau with
    | none => .next (s.trap .priv)
    | some e =>
      let s1 := if s.movers.contains s.cur.r then s else { s with movers := s.movers ++ [s.cur.r] }
      let va := (t.rw a).toNat % 2 ^ 48
      if s1.movers.head? != some s.cur.r || t.ops.any fun o => decide (o.id < s.cur.base) then .next s1.movePark
      else if va % n ≠ 0 || va < sramBase e || sramBase e + 0x40000 ≤ va then .next (s1.moved.trap .sysarg)
      else f (s1.pmRd (s1.localPa va) n) s1

/-- The word is performed: w[d] is written before any later word of the team issues. -/
def State.moveDone (s : State) (h : Hd) (d : BitVec 6) (v : Nat) : State :=
  s.moved.issue h true fun u => u.addRun s.clock [.w d.toNat (BitVec.ofNat 64 v)]

/-! ### CSWAP (R396) -/

/-- Blocks leave their cores: what they held there stays (R192), and the core's operand cache drops their lines (R320). -/
def State.vacate (s : State) (ids : List Nat) (p : Place) : State :=
  let s1 := (s.blocks.filter fun b => ids.contains b.id).foldl State.leave s
  { s1 with blocks := s1.blocks.map fun (b : Block) => if ids.contains b.id then { b with place := p, ocache := [] } else b }

/-- The live state of cores exchanged with their shadow slots: a swap image comes back to its own team slots. -/
def State.exchange (s : State) (cores : List Nat) : State :=
  let back := (s.blocks.filter fun b => cores.contains b.core && b.place = .swapped).map fun b => b.id
  let s1 := s.vacate ((s.on cores).map fun b => b.id) .swapped
  { s1 with blocks := s1.blocks.map fun (b : Block) => if back.contains b.id then b.goOn else b }

/-- Whether a saved block is on its way onto one of the cores (R396). -/
def State.movingOnto (s : State) (cores : List Nat) : Bool := s.blocks.any fun b => cores.contains b.core && b.place = .moving

/-- Whether CSWAP refuses a set of cores. -/
def State.swapBad (s : State) (cores : List Nat) : Bool :=
  cores.isEmpty || s.movingOnto cores || cores.any fun c => s.dusked.contains c || (s.slotBlocks c).any fun b => b.place = .saved

def execCswap (h : Hd) (d a : BitVec 6) (s : State) : Out :=
  s.moveWord d a 32 fun v s1 =>
    let fresh := clusterCores (bitsAt v 256)
    let cores := match s1.moving with | some m => m.cores | none => fresh
    if s1.moving.isNone && s1.swapBad cores then .next (s1.moved.trap .sysarg)
    else
      let old := match s1.moving with | some m => m.ids | none => []
      let ids := s1.halting old ((s1.on cores).map fun b => b.id)
      let s2 := { (s1.haltBlocks ids) with moving := some { cores := cores, named := cores, ids := ids } }
      if !s2.allQuiet ids then .next s2.movePark
      else
        let s3 := s2.exchange cores
        .next (s3.moveDone h d (cores.filter fun c => (s3.slotBlocks c).any fun b => b.place = .swapped).length)

/-! ### DUSK and DUSK.ret (R397, R398) -/

/-- Whether DUSK refuses the cores that it would newly vacate. -/
def State.duskBad (s : State) (new : List Nat) : Bool :=
  new.any fun c => !(s.slotBlocks c).isEmpty || (s.onCore c).any fun b => !s.inPart b.tag c

/-- Held dispatches of clusters whose partition cores are all among the cores that the map names go back to the units that formed
them (R397). -/
def State.releaseHeld (s : State) (named : List Nat) : State :=
  { s with dispatches := s.dispatches.map fun (d : Dispatch) =>
      match d.held with
      | some k =>
        let own := (List.range 4).filter fun i => s.inPart d.tag (4 * k + i)
        if !own.isEmpty && own.all fun i => named.contains (4 * k + i) then { d with held := none } else d
      | none => d }

/-- DUSK waits for blocks that are on their way onto the cores: they arrive, and halt. -/
def execDusk (h : Hd) (d a : BitVec 6) (s : State) : Out :=
  s.moveWord d a 128 fun v s1 =>
    let m := match s1.moving with
      | some m => m
      | none => { named := bitsAt v 1024, cores := (bitsAt v 1024).filter fun c => !s1.dusked.contains c, ids := [] }
    if s1.moving.isNone && s1.duskBad m.cores then .next (s1.moved.trap .sysarg)
    else
      let ids := s1.halting m.ids (s1.toSave m.cores)
      let s2 := { s1 with moving := some { m with ids := ids }, dusked := s1.dusked ++ m.cores.filter fun c => !s1.dusked.contains c }
      let s3 := s2.haltBlocks ids
      if s3.movingOnto m.cores || !s3.allQuiet ids then .next s3.movePark
      else .next (((s3.vacate ids .saved).releaseHeld m.named).moveDone h d (ids.length % 2 ^ 16 + m.cores.length * 2 ^ 16))

def execDuskRet (h : Hd) (d a : BitVec 6) (s : State) : Out :=
  s.moveWord d a 128 fun v s1 =>
    let back := (bitsAt v 1024).filter fun c => s1.dusked.contains c
    .next ({ s1 with dusked := s1.dusked.filter fun c => !back.contains c }.moveDone h d back.length)

/-! ### DUSK_RESUME (R399) -/

/-- The blocks that arrive with a block on its way: its unit (R58). -/
def State.arriving (s : State) (b : Nat) : List Nat :=
  let l := s.blocks.filter fun x => x.place = .moving
  tiedUp l l.length [b]

/-- A saved block's unit, when it is the context's first that can resume, takes its places: where, of those that fit, is the
hardware's choice. A unit that has its places arrives, and goes on. -/
def execDuskResume (b : Nat) (s : State) : Out :=
  match s.block? b with
  | none => .next s
  | some x =>
    match x.place with
    | .moving =>
      let ids := s.arriving b
      .next { s with blocks := s.blocks.map fun (y : Block) => if ids.contains y.id then y.goOn else y }
    | .saved =>
      (match s.nextResume x.tag with
       | none => .next s
       | some u =>
         if !(u.any fun y => y.id == b) then .next s
         else
           match s.choice (s.resumePlaces u).length with
           | (i, s1) =>
             match s1.resumeUnit (unitWidth u) ((s.resumePlaces u).getD i 0) u with
             | some s2 => .next s2
             | none => .next s)
    | _ => .next s

end Sys2Proof.Machine
end

