-- ==== Sys2Proof/Machine/Dawn.lean ====
section
/-! DEFINITION. Dawn (R453 to R455), the host's accesses through the PHL (R419, R420, R422) and the board interface (R460). -/

namespace Sys2Proof.Machine

/-! ### Dawn -/

/-- The digest of the public key that is fused into the base die. -/
def fusedKey : List Byte := (List.range 64).map Config.fusedDigest

/-- Whether an image is verified (R454): its key and signature have their lengths, and its length field tells its bytes. -/
def Image.verified (i : Image) : Bool :=
  decide (i.key.length = 1952) && decide (i.sig.length = 3309) && decide (i.length.toNat = i.bytes.length)
    && decide (digest i.key = fusedKey) && Config.mlDsaVerify i.key i.sig (digest i.bytes)
    && decide (Config.fusedMinVersion 0 ≤ i.version.toNat)
    && decide (sramBase i.die ≤ i.load) && decide (i.load + i.bytes.length ≤ sramBase i.die + 0x40000)

/-- The image of a die in the flash. -/
def State.image? (s : State) (e : Nat) : Option Image := s.dawn.flash.find? fun i => i.die = e

/-- Whether a die's image is there and verified. -/
def State.imageOk (s : State) (e : Nat) : Bool := match s.image? e with | some i => i.verified | none => false

/-- Dawn at a step. -/
def State.dawnAt (s : State) (n : Nat) : State := { s with dawn := { s.dawn with step := n } }

/-- Step 1: the registers of every die as after reset, the signing engine and the queues of the management page among them (R457),
every PART invalid, the SRAMs zero. -/
def State.dawnRom (s : State) : State :=
  { (s.dawnAt 1) with
    dies := List.replicate 4 Die.reset, cores := [], parts := [], signing := none, termb := [], invDie0 := ⟨0#64, 0#48, false, none⟩
    mem := s.mem.filter fun c => decide (c.1 < s.localPa (sramBase 0)) || decide (s.localPa (sramBase 4) ≤ c.1) }

/-- Step 2: each verified image is copied; a failing one stops Dawn, and the lowest die that fails is reported. -/
def State.dawnFirmware (s : State) : State :=
  match (List.range 4).find? fun e => !s.imageOk e with
  | some e => { (s.dawnAt 2) with dawn := { s.dawn with step := 2, failed := some e } }
  | none =>
    (List.range 4).foldl (fun s e =>
      match s.image? e with | some i => { s with mem := s.mem.wr (s.localPa i.load) i.bytes } | none => s) (s.dawnAt 2)

/-- An entry of the measured log (R455). -/
def logEntry (i : Image) : List Byte :=
  natBytes 8 (3 + i.die * 2 ^ 8 + i.version.toNat * 2 ^ 32) ++ natBytes 8 0 ++ digest i.bytes

/-- Step 3. -/
def State.dawnMeasure (s : State) : State :=
  (List.range 4).foldl (fun s e => match s.image? e with | some i => s.appendLog (logEntry i) | none => s) (s.dawnAt 3)

/-- The modules of a scope level, as bits (R427): the module's own bit is always set. -/
def State.scopeMap (s : State) (p : Nat → Bool) : BitVec 512 :=
  (List.range 512).foldl (fun m i =>
    let on := i = s.pod.toNat || p i
    if on then m ||| (1#512 <<< i) else m) 0#512

/-- Step 4: MODID is closed from here on (R426), LEAFMAP and PODMAP are taken from the routing table: level 5 by VALID and LEAF alone,
level 6 by the entries that are valid (R424, R427). -/
def State.dawnTopology (s : State) : State :=
  { (s.dawnAt 4) with
    leafmap := s.scopeMap fun m => (s.routes.getD m 0#64).getLsbD 31 && (s.routes.getD m 0#64).getLsbD 30
    podmap := s.scopeMap fun m => (s.route? m).isSome }

/-- Step 5: the offered feature words (R411 to R413). -/
def State.dawnFeatures (s : State) : State :=
  { (s.dawnAt 5) with offer0 := 0xF#64, offer1 := 0x901#64, offer2 := 0#64, offer3 := 0#64 }

/-- The block of a die's Bureau (R367): one team of 32 lanes with 8 registers; w0 names the parameter block, w1 the Bureau
window. -/
def bureauBlock (id e : Nat) (entry : BitVec 56) (param : Nat) : Block :=
  { id := id, core := 256 * e, place := .resident, tag := 0#12, bureau := some e, slot := 0, block := 0#32, index := 0
    node := none, tree := none, entry := entry, wm := 1
    teams := [Team.start 0 0 32 8 0#4 entry [BitVec.ofNat 64 param, BitVec.ofNat 64 (bureauWin e)]]
    spadSize := 0, spad := [], full := [], pages := [], chest := [], claims := [], drawers := List.replicate 16 drawerZero
    tiles := [], perm := none, ocache := [], pool := 0, slabs := 1, rclaims := [], barArr := [], barPhase := 0, group := none
    partner := none, future := none, pcount := 0, holds := [], regions := [], reclaim := false, cancelled := false
    fault := none, stopped := false, stopping := none, stopTime := 0, resuming := false, halt := false }

/-- A die's Bureau started at its image's entry. -/
def State.startBureau (s : State) (i : Image) : State :=
  match s.newId with
  | (id, s1) =>
    { s1 with blocks := s1.blocks ++ [bureauBlock id i.die (BitVec.ofNat 56 (i.load + i.entry)) (i.load + i.param)] }

/-- Step 6. -/
def State.dawnStart (s : State) : State :=
  (List.range 4).foldl (fun s e => match s.image? e with | some i => s.startBureau i | none => s) (s.dawnAt 6)

/-- DAWN (R453): the next step, once the one before it has ended; a failed image stops Dawn after step 2. -/
def execDawn (s : State) : Out :=
  if s.dawn.failed.isSome then .next s
  else
    match s.dawn.step with
    | 0 => .next s.dawnRom
    | 1 => .next s.dawnFirmware
    | 2 => .next s.dawnMeasure
    | 3 => .next s.dawnTopology
    | 4 => .next s.dawnFeatures
    | 5 => .next s.dawnStart
    | _ => .next s

/-! ### Host accesses (R419, R422) -/

/-- Whether bytes lie in one range that the host may reach; before Dawn's last step only the fabric page and the host page. -/
def State.hostMay (s : State) (a n : Nat) : Bool :=
  let inR (lo size : Nat) : Bool := decide (lo ≤ a) && decide (a + n ≤ lo + size)
  decide (0 < n) && (inR fabricPage 0x2000 || inR hostPage 0x1000
    || (decide (6 ≤ s.dawn.step) && (inR 0 hbmSize || inR unitWin 0x100000)))

/-- Bytes cut at the boundaries of dwords. -/
def cutDwords (a : Nat) (bs : List Byte) : List (Nat × List Byte) :=
  (List.range ((a % 8 + bs.length + 7) / 8)).map fun i =>
    if i = 0 then (a, bs.take (8 - a % 8)) else (a / 8 * 8 + 8 * i, (bs.drop (8 * i - a % 8)).take 8)

/-- The pieces that an access makes: lines of HBM, dwords of registers. -/
def hostPieces (a : Nat) (bs : List Byte) : List (Nat × List Byte) := if a < hbmSize then cutLines a bs else cutDwords a bs

/-- One piece read. -/
def State.hostRd (s : State) : List (Nat × List Byte) → List Byte × State
  | [] => ([], s)
  | p :: ps =>
    match s.localRd p.1 p.2.length with
    | (x, s1) => match s1.hostRd ps with | (xs, s2) => (x ++ xs, s2)

/-- One piece written: a dword at a port window's POST is a post (R420). -/
def State.hostWr (s : State) (a : Nat) (bs : List Byte) : State :=
  if inPorts a then
    if a % 64 = 0 && bs.length = 8 then
      s.post' (BitVec.ofNat 2 ((a - unitWin) / 0x40000)) (BitVec.ofNat 12 ((a - unitWin) % 0x40000 / 64)) (BitVec.ofNat 64 (bytesNat bs))
    else s
  else s.localWr a bs

/-- HOST_ACCESS (R419): in the order in which the PHL receives them. A read that meets a poisoned line receives an error
completion (R404). -/
def execHostAccess (s : State) : Out :=
  match s.input.host with
  | .read a n =>
    let ps := hostPieces a (List.replicate n 0#8)
    let bad := a < hbmSize && ps.any fun p => s.poison.contains (s.home (s.localPa p.1) / 64)
    if !s.hostMay a n || bad then .next { s with hostReply := none }
    else match s.hostRd ps with | (bs, s1) => .next { s1 with hostReply := some bs }
  | .write a bs =>
    if !s.hostMay a bs.length then .next { s with hostReply := none }
    else .next { ((hostPieces a bs).foldl (fun s p => s.hostWr p.1 p.2) s) with hostReply := some [] }

/-! ### The board interface (R460) -/

/-- I3C_REQUEST (R460): reads clear nothing; a request of 64 bytes is queued in die 0's SRAM. That the
queue wraps after 256 requests, at the end of the SRAM, is the model's choice (log entry 145). -/
def execI3cRequest (s : State) : Out :=
  let say (bs : List Byte) : Out := .next { s with i3cReply := bs }
  match s.input.i3c with
  | .dawnStatus =>
    say ([BitVec.ofNat 8 s.dawn.step] ++ (match s.dawn.failed with | some e => [1#8, BitVec.ofNat 8 e] | none => [0#8, 0#8]))
  | .identityKey => say ((List.range 1952).map Config.identityKey)
  | .sens e n => say (natBytes 2 ((s.die e.toNat).sens.getD n.toNat 0#16).toNat)
  | .pwr e => say (natBytes 2 (s.die e.toNat).pwr.toNat)
  | .cerr e u => say (natBytes 8 ((s.die e.toNat).cerr.getD u.toNat 0#48).toNat)
  | .evstat e => say (natBytes 8 (s.die e.toNat).evstat.toNat)
  | .request bs =>
    if bs.length = 64 then
      .next { (s.memWr none (s.localPa (sramBase 0 + 0x3C000 + 64 * (s.i3cCount % 256))) bs) with
              i3cCount := s.i3cCount + 1, i3cReply := [] }
    else .next s

end Sys2Proof.Machine
end

