-- ==== Sys2Proof/Machine/Chain.lean ====
section
/-! DEFINITION. Chains: the words of a packet that issue together, how they are gathered and when they are legal
(R86 to R88, R101 to R104, R107, R367). -/

namespace Sys2Proof.Machine

/-! ### What a word names (R87, R441) -/

/-- The destination registers that an instruction names (R87 item 5). -/
def destsOf : Instr → List RegName
  | .nop _ | .trap _ _ | .tret _ | .trig _ _ _ | .wfi _ | .sample _ | .brk | .jmp _ _ | .ret _ _ | .brmAny _ _ _
  | .brmAll _ _ _ | .brmNone _ _ _ | .bruZ _ _ _ | .bruNz _ _ _ | .bruNeg _ _ _ | .bruNneg _ _ _ | .pref _ _ _ _ _
  | .stg _ _ _ _ _ _ | .sts _ _ _ _ _ | .stw _ _ _ _ _ | .stws _ _ _ _ | .feset _ _ _ | .feclr _ _ _
  | .red _ _ _ _ _ _ _ | .fence _ | .xfence _ _ _ | .spfence _ | .binit _ _ _ | .barrive _ _ | .bwait _ _ _
  | .sgjoin _ _ | .sgleave _ | .mma _ _ _ _ _ _ _ | .mmaZ _ _ _ _ _ _ _ | .mzero _ _ _ | .mload _ _ _ _
  | .mdrain _ _ _ _ | .mperm _ _ | .crelease _ _ | .dinit _ _ _ | .fref _ _ | .fdrop _ _ | .rpoint _
  | .binpost _ _ _ _ _ | .send _ _ _ | .qcreateFree _ _ | .qpush _ _ _ | .nres _ _ _ | .nresK _ _ _ _ | .wrc _ _ _
  | .rgive _ _ | .rclaim _ _ | .bar _ | .lvlcancel _ _ | .exit _ | .xinv _ _ _ | .extn _ _ _ _ _ _ | .dawn
  | .i3cRequest | .blockPlacement _ | .blockEnd _ | .census _ | .shelfReservation _ | .nodeDispatch _ | .sweepEnd _
  | .stealRequest _ | .stealReply _ | .donatedDispatchArrival _ | .resultArrival _ _ | .trapEntry _
  | .interruptEntry _ | .logRetry _ _ | .drawerReservation _ | .copyCompletion _ | .mmaTake _ | .tileOpPerform _ _
  | .cclaimGrant _ | .rclaimGrant _ | .nredContributionArrival _ | .patternFiring _ | .heldMessageAppend _ _
  | .binTimerExpiry _ _ | .pageMigrationLine | .hostAccess | .fabricRemoteAccess | .post | .pagerdy | .termq
  | .termack | .invlen | .invalidationDone _ | .routingTableWrite | .modid | .sensorSample | .tickExpiry _ | .tick
  | .alert | .istat | .throt | .evstat | .termb | .signctl | .signComplete | .part | .uncorrectableError | .vctl
  | .sampctl | .blkid1Stop | .blkid1Resume | .stopComplete _ | .hangWatchdogExpiry _ _ | .duskResume _
  | .registerWrite | .contextCreation | .contextEnd | .runBoundWrite _ | .accessPerformed _ _ => []
  | .cswap _ d _ | .dusk _ d _ | .duskRet _ d _ | .uadd _ d _ _ | .usub _ d _ _ | .umul _ d _ _ | .umulh _ _ d _ _
  | .uand _ d _ _ | .uor _ d _ _ | .uxor _ d _ _ | .ushl _ d _ _ | .ushr _ d _ _ | .usar _ d _ _ | .umin _ _ d _ _
  | .umax _ _ d _ _ | .ucmp _ _ d _ _ | .ubfx _ _ d _ _ | .ubfi _ d _ _ | .uaddImm _ d _ _ | .uandImm _ d _ _
  | .uorImm _ d _ _ | .uxorImm _ d _ _ | .ushlImm _ d _ _ | .ushrImm _ d _ _ | .usarImm _ d _ _ | .umulImm _ d _ _
  | .ului _ d _ | .mfirst _ d _ | .mcount _ d _ | .mgetw _ d _ _ | .vred _ _ d _ _ | .ldw _ d _ _ _ _
  | .ldws _ d _ _ _ | .isect _ d _ _ | .isectn _ d _ _ | .mpair _ d | .mstat _ d _ _ | .cclaim _ d _ | .dstat _ d _
  | .spawn _ d _ | .spawnf _ d _ | .fwait _ d _ | .sendt _ d _ | .recv _ d _ | .patset _ d _ | .portopen _ d _
  | .qcreate _ d _ | .qpop _ d _ | .nchild _ d _ _ | .nparent _ d _ | .rdc _ d _ | .launchFlat _ d _ _ _
  | .launchTree _ d _ _ _ | .launchBin _ d _ _ _ | .lvlwait _ d _ | .lvlwaitPoll _ d _ => [.w d.toNat]
  | .call _ w _ => [.w w.toNat]
  | .vbr _ _ _ | .recon _ => [.m 0]
  | .mand _ _ d _ _ | .mor _ _ d _ _ | .mxor _ _ d _ _ | .mandn _ _ d _ _ | .mlead _ d _ | .msetw _ d _ _
  | .vcmpEq _ _ d _ _ | .vcmpNe _ _ d _ _ | .vcmpLt _ _ d _ _ | .vcmpLe _ _ d _ _ | .vcmpGt _ _ d _ _
  | .vcmpGe _ _ d _ _ | .vcmpUn _ _ d _ _ | .vcmpOrd _ _ d _ _ | .vtest _ _ d _ _ | .vconf _ _ d _ => [.m d.toNat]
  | .vadd h _ d _ _ | .vsub h _ d _ _ | .vmul h _ d _ _ | .vmulh h _ d _ _ | .vand h _ d _ _ | .vor h _ d _ _
  | .vxor h _ d _ _ | .vshl h _ d _ _ | .vshr h _ d _ _ | .vsar h _ d _ _ | .vmin h _ d _ _ | .vmax h _ d _ _
  | .scatc h _ d _ _ _ _ | .vsegred h _ d _ _ | .vsegscan h _ d _ _ => vName (is64 (h.ty 4#4)) d
  | .vabs _ _ d _ | .vbfx _ _ d _ _ | .vbfi _ _ d _ _ | .vaddImm _ d _ _ | .vandImm _ d _ _ | .vorImm _ d _ _
  | .vxorImm _ d _ _ | .vshlImm _ d _ _ | .vshrImm _ d _ _ | .vsarImm _ d _ _ | .vmulImm _ d _ _ | .vmovImm _ d _
  | .fadd _ _ d _ _ | .fsub _ _ d _ _ | .fmul _ _ d _ _ | .ffma _ _ d _ _ | .fmin _ _ d _ _ | .fmax _ _ d _ _
  | .fabs _ _ d _ | .frcp _ _ d _ | .frsq _ _ d _ | .fsqrt _ _ d _ | .fdiv _ _ d _ _ | .fexp2 _ _ d _
  | .flog2 _ _ d _ | .fneg _ _ d _ | .hadd2 _ _ d _ _ | .hsub2 _ _ d _ _ | .hmul2 _ _ d _ _ | .hfma2 _ _ d _ _
  | .hmin2 _ _ d _ _ | .hmax2 _ _ d _ _ | .vdot4 _ _ d _ _ | .mpath _ _ d _ _ | .rdcV _ d _ => [.v d.toNat]
  | .dadd _ _ d _ _ | .dsub _ _ d _ _ | .dmul _ _ d _ _ | .dfma _ _ d _ _ | .dmin _ _ d _ _ | .dmax _ _ d _ _
  | .ddiv _ _ d _ _ | .dsqrt _ _ d _ => vName true d
  | .cvt _ t _ d _ _ => vName (is64 t) d
  | .vshuf h _ d _ _ | .vbcast h _ d _ _ | .vsel h _ d _ _ | .vmov h _ d _ | .vmovw h _ d _ | .vcompress h _ d _
  | .vexpand h _ d _ => vName (is64 (h.ty 5#4)) d
  | .vscan _ _ d _ _ o => vName (laneOp64 o) d
  | .ldg _ _ d _ _ _ z | .lds _ _ d _ _ z | .ldsFe _ _ d _ _ z | .ldsFk _ _ d _ _ z => vName (z = 3#2) d
  | .atom h p _ d _ _ _ => vName (is64 (h.ty (atomDflt p))) d
  | .cpy _ u _ _ _ _ | .tcpy _ u _ _ _ _ | .gcpy _ u _ _ _ _ | .scpy _ u _ _ _ _ => if u = 63#6 then [] else [.w u.toNat]
  | .nredOrd _ u _ _ _ | .nredAny _ u _ _ _ => [.w u.toNat, .w (u.toNat + 1)]
  | .fpoll _ d _ => [.w d.toNat, .w (d.toNat + 1)]
  | .xlat _ d _ => [.x d.toNat]

/-- The mask whose lanes a PC comparator tests (R441): the one that governs the word, else m0. -/
def governOf : Instr → BitVec 3
  | .nop _ | .trap _ _ | .tret _ | .trig _ _ _ | .wfi _ | .cswap _ _ _ | .dusk _ _ _ | .duskRet _ _ _ | .sample _
  | .brk | .uadd _ _ _ _ | .usub _ _ _ _ | .umul _ _ _ _ | .umulh _ _ _ _ _ | .uand _ _ _ _ | .uor _ _ _ _
  | .uxor _ _ _ _ | .ushl _ _ _ _ | .ushr _ _ _ _ | .usar _ _ _ _ | .umin _ _ _ _ _ | .umax _ _ _ _ _
  | .ucmp _ _ _ _ _ | .ubfx _ _ _ _ _ | .ubfi _ _ _ _ | .uaddImm _ _ _ _ | .uandImm _ _ _ _ | .uorImm _ _ _ _
  | .uxorImm _ _ _ _ | .ushlImm _ _ _ _ | .ushrImm _ _ _ _ | .usarImm _ _ _ _ | .umulImm _ _ _ _ | .ului _ _ _
  | .jmp _ _ | .call _ _ _ | .ret _ _ | .recon _ | .bruZ _ _ _ | .bruNz _ _ _ | .bruNeg _ _ _ | .bruNneg _ _ _
  | .mand _ _ _ _ _ | .mor _ _ _ _ _ | .mxor _ _ _ _ _ | .mandn _ _ _ _ _ | .mlead _ _ _ | .mfirst _ _ _
  | .mcount _ _ _ | .msetw _ _ _ _ | .mgetw _ _ _ _ | .ldw _ _ _ _ _ _ | .ldws _ _ _ _ _ | .stw _ _ _ _ _
  | .stws _ _ _ _ | .feset _ _ _ | .feclr _ _ _ | .fence _ | .xfence _ _ _ | .spfence _ | .binit _ _ _ | .barrive _ _
  | .bwait _ _ _ | .sgjoin _ _ | .sgleave _ | .isect _ _ _ _ | .isectn _ _ _ _ | .nredOrd _ _ _ _ _ | .nredAny _ _ _ _ _
  | .mma _ _ _ _ _ _ _ | .mmaZ _ _ _ _ _ _ _ | .mzero _ _ _ | .mload _ _ _ _ | .mdrain _ _ _ _ | .mpair _ _
  | .mstat _ _ _ _ | .mperm _ _ | .cclaim _ _ _ | .crelease _ _ | .dinit _ _ _ | .dstat _ _ _ | .spawn _ _ _
  | .spawnf _ _ _ | .fref _ _ | .fdrop _ _ | .fwait _ _ _ | .fpoll _ _ _ | .rpoint _ | .binpost _ _ _ _ _
  | .send _ _ _ | .sendt _ _ _ | .recv _ _ _ | .patset _ _ _ | .portopen _ _ _ | .qcreate _ _ _ | .qcreateFree _ _
  | .qpush _ _ _ | .qpop _ _ _ | .nres _ _ _ | .nresK _ _ _ _ | .nchild _ _ _ _ | .nparent _ _ _ | .rdc _ _ _
  | .rdcV _ _ _ | .wrc _ _ _ | .rgive _ _ | .rclaim _ _ | .bar _ | .launchFlat _ _ _ _ _ | .launchTree _ _ _ _ _
  | .launchBin _ _ _ _ _ | .lvlwait _ _ _ | .lvlwaitPoll _ _ _ | .lvlcancel _ _ | .exit _ | .xlat _ _ _ | .xinv _ _ _
  | .extn _ _ _ _ _ _ | .dawn | .i3cRequest | .blockPlacement _ | .blockEnd _ | .census _ | .shelfReservation _
  | .nodeDispatch _ | .sweepEnd _ | .stealRequest _ | .stealReply _ | .donatedDispatchArrival _ | .resultArrival _ _
  | .trapEntry _ | .interruptEntry _ | .logRetry _ _ | .drawerReservation _ | .copyCompletion _ | .mmaTake _
  | .tileOpPerform _ _ | .cclaimGrant _ | .rclaimGrant _ | .nredContributionArrival _ | .patternFiring _
  | .heldMessageAppend _ _ | .binTimerExpiry _ _ | .pageMigrationLine | .hostAccess | .fabricRemoteAccess | .post
  | .pagerdy | .termq | .termack | .invlen | .invalidationDone _ | .routingTableWrite | .modid | .sensorSample
  | .tickExpiry _ | .tick | .alert | .istat | .throt | .evstat | .termb | .signctl | .signComplete | .part
  | .uncorrectableError | .vctl | .sampctl | .blkid1Stop | .blkid1Resume | .stopComplete _ | .hangWatchdogExpiry _ _
  | .duskResume _ | .registerWrite | .contextCreation | .contextEnd | .runBoundWrite _ | .accessPerformed _ _ => 0#3
  | .brmAny _ k _ | .brmAll _ k _ | .brmNone _ k _ | .vbr _ k _ | .vadd _ k _ _ _ | .vsub _ k _ _ _ | .vmul _ k _ _ _
  | .vmulh _ k _ _ _ | .vand _ k _ _ _ | .vor _ k _ _ _ | .vxor _ k _ _ _ | .vshl _ k _ _ _ | .vshr _ k _ _ _
  | .vsar _ k _ _ _ | .vmin _ k _ _ _ | .vmax _ k _ _ _ | .vabs _ k _ _ | .vbfx _ k _ _ _ | .vbfi _ k _ _ _
  | .fadd _ k _ _ _ | .fsub _ k _ _ _ | .fmul _ k _ _ _ | .ffma _ k _ _ _ | .fmin _ k _ _ _ | .fmax _ k _ _ _
  | .fabs _ k _ _ | .frcp _ k _ _ | .frsq _ k _ _ | .fsqrt _ k _ _ | .fdiv _ k _ _ _ | .fexp2 _ k _ _
  | .flog2 _ k _ _ | .fneg _ k _ _ | .dadd _ k _ _ _ | .dsub _ k _ _ _ | .dmul _ k _ _ _ | .dfma _ k _ _ _
  | .dmin _ k _ _ _ | .dmax _ k _ _ _ | .ddiv _ k _ _ _ | .dsqrt _ k _ _ | .hadd2 _ k _ _ _ | .hsub2 _ k _ _ _
  | .hmul2 _ k _ _ _ | .hfma2 _ k _ _ _ | .hmin2 _ k _ _ _ | .hmax2 _ k _ _ _ | .vdot4 _ k _ _ _ | .cvt _ _ k _ _ _
  | .vcmpEq _ k _ _ _ | .vcmpNe _ k _ _ _ | .vcmpLt _ k _ _ _ | .vcmpLe _ k _ _ _ | .vcmpGt _ k _ _ _
  | .vcmpGe _ k _ _ _ | .vcmpUn _ k _ _ _ | .vcmpOrd _ k _ _ _ | .vtest _ k _ _ _ | .vshuf _ k _ _ _
  | .vbcast _ k _ _ _ | .vred _ k _ _ _ | .vscan _ k _ _ _ _ | .vsel _ k _ _ _ | .vmov _ k _ _ | .vmovw _ k _ _
  | .ldg _ k _ _ _ _ _ | .lds _ k _ _ _ _ | .ldsFe _ k _ _ _ _ | .ldsFk _ k _ _ _ _ | .pref _ k _ _ _
  | .stg _ k _ _ _ _ | .sts _ k _ _ _ | .atom _ _ k _ _ _ _ | .red _ _ k _ _ _ _ | .vconf _ k _ _
  | .scatc _ k _ _ _ _ _ | .mpath _ k _ _ _ | .vsegred _ k _ _ _ | .vsegscan _ k _ _ _ | .vcompress _ k _ _
  | .vexpand _ k _ _ | .cpy _ _ _ k _ _ | .tcpy _ _ _ k _ _ | .gcpy _ _ _ k _ _ | .scpy _ _ _ k _ _ => k
  | .vaddImm h _ _ _ | .vandImm h _ _ _ | .vorImm h _ _ _ | .vxorImm h _ _ _ | .vshlImm h _ _ _ | .vshrImm h _ _ _
  | .vsarImm h _ _ _ | .vmulImm h _ _ _ | .vmovImm h _ _ => h.mk0

/-! ### Pipes (R104) -/

/-- The pipes of a core; `x` stands for the words that are chains of one (R87). -/
inductive Pipe where
  | u | v | m | e | x
  deriving DecidableEq, Repr

/-- The pipe of a word by its class and fn (R104). -/
def pipeOf (w : Word) : Pipe :=
  let c := (wordClass w).toNat
  let fn := (splitA w).fn.toNat
  if c ≤ 5 then .u
  else if c ≤ 13 then .v
  else if c ≤ 19 || c = 21 then .m
  else if c = 20 then (if fn = 0 || fn = 1 || fn = 3 then .m else .v)
  else if c ≤ 26 then .e
  else if c ≤ 29 then .u
  else .x

/-- Whether a word may only be the last of its chain (R87 items 3 and 4), whatever its other fields hold. A class 0 word that is no NOP
(an unassigned fn 8 to 15, or fn 0 with a nonzero body) and a class 4 word of an unassigned cond (12 to 15) count as such words, so that
with C = 1 they raise ILLPKT and not ILLOP: R87 does not say it of a word that no encoding defines, and this is the model's choice (log
entry 132). -/
def endsChain (w : Word) : Bool :=
  let c := (wordClass w).toNat
  let fn := (splitA w).fn.toNat
  wordS w
    || c = 4
    || (c = 0 && !(fn = 0 && w.extractLsb' 0 21 = 0#21))
    || (c = 28 && (fn = 4 || fn = 6 || fn = 8))
    || (c = 24 && (fn = 4 || fn = 6))
    || (c = 25 && fn = 2)
    || (c = 26 && fn = 2)
    || (c = 18 && (fn = 2 || fn = 3))
    || (c = 14 && (fn = 2 || fn = 3))

/-- The words that a Bureau executes (R367); BRK is none of them. -/
def bureauWord (w : Word) : Bool :=
  let c := (wordClass w).toNat
  let fn := (splitA w).fn.toNat
  c ≤ 5 || c = 28 || c = 29 || (c = 14 && (fn = 4 || fn = 5)) || (c = 15 && (fn = 2 || fn = 3))
    || (c = 17 && fn = 0)

/-! ### Gathering a chain (R86, R87, R101, R103) -/

/-- A member of a chain: its word and address, what it decodes to with its prefixes, the address of a prefix that is
defective by itself (R103), and what the prefixes supply. -/
structure Member where
  addr : BitVec 56
  word : Word
  dec : Decoded
  badPfx : Option (BitVec 56)
  md : Option ModPfx
  im : Option (BitVec 23)
  deriving DecidableEq, Repr

/-- What gathering a chain comes to: its members and the address after it; a chain that breaks a rule of placement; or an
address that cannot be fetched from, now or at all. -/
inductive Gathered where
  | members (ms : List Member) (next : BitVec 56)
  | illpkt
  | absent
  | bad (va : BitVec 56)
  deriving DecidableEq, Repr

/-- The prefixes before a target: the fields that they supply, whether there are any, and a defective one. -/
structure Prefixes where
  md : Option ModPfx
  im : Option (BitVec 23)
  any : Bool
  bad : Option (BitVec 56)
  deriving DecidableEq, Repr

/-- No prefix. -/
def Prefixes.none : Prefixes := { md := Option.none, im := Option.none, any := false, bad := Option.none }

/-- Prefixes with one more: `none` where there are then two of one kind (R103). A prefix of PK 2 or 3 is of no kind: two of them before
one target are only defective (ILLOP at the first), which is the model's choice (log entry 133). -/
def Prefixes.add (p : Prefixes) (va : BitVec 56) (w : Word) : Option Prefixes :=
  match decPfx w with
  | some (.mod m) => if p.md.isSome then Option.none else some { p with md := some m, any := true }
  | some (.imm i) => if p.im.isSome then Option.none else some { p with im := some i, any := true }
  | Option.none =>
    if isModPfx w && p.md.isSome then Option.none
    else some { p with md := if isModPfx w then some ModPfx.zero else p.md, any := true, bad := some (p.bad.getD va) }

/-- The chain from an address on: `left` words of its packet remain. -/
def State.gather (s : State) (b : Block) (p : Prefixes) (ms : List Member) : Nat → BitVec 56 → Gathered × State
  | 0, _ => (.illpkt, s)
  | left + 1, va =>
    match s.fetchWord b va.toNat with
    | (.absent, s1) => (.absent, s1)
    | (.bad, s1) => (.bad va, s1)
    | (.ok w, s1) =>
      if w = brkWord || wordClass w = 31#5 then
        if p.any || !ms.isEmpty || (w != brkWord && wordC w) then (.illpkt, s1)
        else (.members [{ addr := va, word := w, dec := decTarget Option.none Option.none w, badPfx := Option.none, md := Option.none, im := Option.none }] (va + 4#56), s1)
      else if isPfx w then
        if left = 0 || wordC w || wordS w then (.illpkt, s1)
        else match p.add va w with
          | some q => s1.gather b q ms left (va + 4#56)
          | Option.none => (.illpkt, s1)
      else
        let m : Member := { addr := va, word := w, dec := decTarget p.md p.im w, badPfx := p.bad, md := p.md, im := p.im }
        if wordC w then s1.gather b Prefixes.none (ms ++ [m]) left (va + 4#56)
        else (.members (ms ++ [m]) (va + 4#56), s1)

/-- The words of a packet from an address to its end (R86). -/
def wordsLeft (pc : BitVec 56) : Nat := 3 - pc.toNat % 12 / 4

/-! ### Legality (R87) -/

/-- Whether no element of a list is equal to another. -/
def allDistinct {α : Type} [DecidableEq α] : List α → Bool
  | [] => true
  | x :: xs => !xs.contains x && allDistinct xs

/-- The instruction that a member is, if it is one. -/
def Member.instr? (m : Member) : Option Instr :=
  match m.badPfx, m.dec with
  | Option.none, .ok i => some i
  | _, _ => Option.none

/-- The bits of a word of a class that tell its destination: what is left out are fields that some words of the class have reserved, and
that take no part in naming a register. The first under which a word decodes holds. -/
def destMasks (c fn : Nat) : List Word :=
  match c with
  | 4 => [0x3FE00000#32]
  | 7 => [0x3FFF8000#32]
  | 13 => [0x3FFFFFDF#32, 0x3FE3F000#32]
  | 14 => [0x3FFFF1FF#32, 0x3FE3F1FF#32]
  | 16 => [0x3FFFFFFB#32]
  | 19 => [0x3FFFFFF3#32]
  | 21 | 22 | 23 | 24 | 25 | 27 => [0x3FFF8000#32]
  | 26 => if fn = 0 then [0x3FFF8001#32] else [0x3FFF8000#32]
  | 28 => if fn = 5 then [0x3FFFFFC0#32, 0x3FE3FFC0#32] else [0x3FFFFFC0#32, 0x3FE7FFC0#32]
  | _ => [0x3FE3F000#32, 0x3FE07000#32]

/-- Whether a word's fn is one that R104 leaves unassigned where the decoder's own table has every fn: fn 14 and 15 of class 11 (R106)
and fn 11 to 15 of class 16. Such a word names no register (log entry 118). -/
def fnUnassigned (w : Word) : Bool :=
  let fn := (splitA w).fn.toNat
  (wordClass w = 11#5 && 13 < fn) || (wordClass w = 16#5 && 10 < fn)

/-- The destination registers that a member's fields name, be it legal or not (R87 item 5, R108): a word of an assigned fn that is no
instruction, because a value that it carries is not accepted or a reserved field is nonzero, still names them, and a word of an
unassigned fn names none. What such a word names is the model's choice (log entry 118). -/
def Member.dests (m : Member) : List RegName :=
  let w := m.word &&& 0x7FFFFFFF#32
  if fnUnassigned w then []
  else
    match (w :: (destMasks (wordClass w).toNat (splitA w).fn.toNat).map (w &&& ·)).findSome? (decBody m.md m.im) with
    | some i => destsOf i
    | Option.none => []

/-- Whether a gathered chain breaks a rule (R87). -/
def chainBad (ms : List Member) : Bool :=
  (ms.any fun m => wordC m.word && m.word != brkWord && endsChain m.word)
    || !allDistinct (ms.map fun m => pipeOf m.word)
    || !allDistinct (ms.flatMap Member.dests)
    || ms.any fun m => m.dec = .bad .illpkt

/-- What a member that is no instruction of the team's raises: ILLOP at its address, or at its defective prefix. -/
def Member.illop? (m : Member) (bureau : Bool) : Option (BitVec 56) :=
  match m.badPfx with
  | some a => some a
  | Option.none =>
    match m.dec with
    | .bad _ => some m.addr
    | .ok _ => if bureau && !bureauWord m.word then some m.addr else Option.none

end Sys2Proof.Machine
end

