-- ==== Sys2Proof/Machine/Flow.lean ====
section
/-! DEFINITION. The flow words of class 4 (R121 to R124). -/

namespace Sys2Proof.Machine

/-- The address of the packet that holds a word: packets start at multiples of 12 (R86). -/
def packetOf (a : BitVec 56) : BitVec 56 := a - BitVec.ofNat 56 (a.toNat % 12)

/-- A target in packets from the word's packet (R100). -/
def targetOf {n : Nat} (a : BitVec 56) (o : BitVec n) : BitVec 56 := packetOf a + 12#56 * o.signExtend 56

/-- The values of a team's registers (R55). -/
def Team.vals (t : Team) : RegVals := { w := t.w, v := t.v, m := t.m, x := t.x }

/-- The spin detector at a taken branch (R55): a backward branch of at most 8 packets to the same target, with the registers
holding the values of the last taking, counts one more unchanged iteration, and 64 of them demote the team. Any other
taking restarts the count. -/
def Spin.take (p : Spin) (branch target : BitVec 56) (now : RegVals) : Spin :=
  let back := target.toNat ≤ branch.toNat && branch.toNat - target.toNat ≤ 8 * 12 + 11
  if !back then Spin.zero
  else if p.branch = branch && p.target = target && p.vals = some now && !p.many then
    let n := min (p.count + 1) 64
    { p with count := n, demoted := p.demoted || n = 64 }
  else { Spin.zero with branch := branch, target := target, vals := some now }

/-- The spin detector at a flow word that transfers to no target: where the watched branch is left with a register that holds
another value than at its last taking, demotion ends and the count restarts (R55; log entry 105). -/
def Spin.pass (p : Spin) (branch : BitVec 56) (now : RegVals) : Spin :=
  if p.branch = branch && p.vals ≠ some now then Spin.zero else p

/-- A team after its flow word: at a target that it transferred to, or after the chain. A frozen detector holds its counts (R55,
R56). -/
def Team.goto (t : Team) (frozen : Bool) (branch : BitVec 56) (target : Option (BitVec 56)) : Team :=
  { t with pc := target.getD t.pc
           spin := if frozen then t.spin
             else match target with | some x => t.spin.take branch x t.vals | none => t.spin.pass branch t.vals }

/-- The state after a flow word: taken to a target, or not. Every flow word is an implicit switch (R121). -/
def State.flow (s : State) (h : Hd) (frozen : Bool) (target : Option (BitVec 56)) (f : Team → Team) : State :=
  (s.issue h true f).updTeam s.cur.r fun t => t.goto frozen s.cur.addr target

def execJmp (h : Hd) (o : BitVec 18) (s : State) : Out :=
  s.chk [] [] false fun b _ => .next (s.flow h (s.frozen b.tag) (some (targetOf s.cur.addr o)) id)

/-- CALL: the link is a run-bound write, and the transfer is always taken (R94, R122). -/
def execCall (h : Hd) (w : BitVec 6) (o : BitVec 15) (s : State) : Out :=
  s.chk [] [.w w.toNat] false fun b _ =>
    .next (s.flow h (s.frozen b.tag) (some (targetOf s.cur.addr o)) fun u =>
      u.addRun (s.clock + latU) [.w w.toNat ((packetOf s.cur.addr + 12#56).setWidth 64)])

/-- RET: BADPC for a target that is no packet start; the transfer then does not happen (R86, R122). The test takes all 64 bits
of the register, and the target its low 56 (log entry 104). -/
def execRet (h : Hd) (w : BitVec 6) (s : State) : Out :=
  s.chk [.w w.toNat] [] false fun b t =>
    if (t.rw w).toNat % 12 ≠ 0 then .next (s.trap .badpc)
    else .next (s.flow h (s.frozen b.tag) (some ((t.rw w).setWidth 56)) id)

/-- A branch on a mask (R122): mK on the lanes of m0. -/
def State.brm (s : State) (h : Hd) (k : BitVec 3) (o : BitVec 18) (c : Mask → Mask → Bool) : Out :=
  s.chk [.m k.toNat, .m 0] [] false fun b t =>
    .next (s.flow h (s.frozen b.tag) (if c (t.rm k) (t.rm 0#3) then some (targetOf s.cur.addr o) else none) id)

def execBrmAny (h : Hd) (k : BitVec 3) (o : BitVec 18) (s : State) : Out := s.brm h k o brmAny
def execBrmAll (h : Hd) (k : BitVec 3) (o : BitVec 18) (s : State) : Out := s.brm h k o brmAll
def execBrmNone (h : Hd) (k : BitVec 3) (o : BitVec 18) (s : State) : Out := s.brm h k o brmNone

/-- A branch on a uniform register (R122). -/
def State.bru (s : State) (h : Hd) (w : BitVec 6) (o : BitVec 15) (c : Dword → Bool) : Out :=
  s.chk [.w w.toNat] [] false fun b t =>
    .next (s.flow h (s.frozen b.tag) (if c (t.rw w) then some (targetOf s.cur.addr o) else none) id)

def execBruZ (h : Hd) (w : BitVec 6) (o : BitVec 15) (s : State) : Out := s.bru h w o fun x => x = 0#64
def execBruNz (h : Hd) (w : BitVec 6) (o : BitVec 15) (s : State) : Out := s.bru h w o fun x => x ≠ 0#64
def execBruNeg (h : Hd) (w : BitVec 6) (o : BitVec 15) (s : State) : Out := s.bru h w o fun x => x.msb
def execBruNneg (h : Hd) (w : BitVec 6) (o : BitVec 15) (s : State) : Out := s.bru h w o fun x => !x.msb

/-- The team after VBR (R123): one entry pushed, and the new m0, in force after the switch park. -/
def Team.vbr (t : Team) (now : Nat) (yes no : Mask) (pc : BitVec 56) : Team :=
  if yes ≠ 0#1024 then
    Team.addRun { t with stack := t.stack ++ [{ outer := t.rm 0#3, pending := no, pc := pc }] } now [.m 0 yes]
  else Team.addRun { t with stack := t.stack ++ [{ outer := t.rm 0#3, pending := 0#1024, pc := pc }] } now [.m 0 no]

/-- VBR: the divergent branch (R123). With no lane that takes it, the team goes on at the next packet. -/
def execVbr (h : Hd) (k : BitVec 3) (o : BitVec 18) (s : State) : Out :=
  s.chk [.m k.toNat, .m 0] [] false fun b t =>
    if t.stack.length = 32 then .next (s.trap .rstack)
    else
      let yes := t.rm 0#3 &&& t.rm k
      let no := t.rm 0#3 &&& ~~~(t.rm k)
      let fall := packetOf s.cur.addr + 12#56
      if yes ≠ 0#1024 then
        .next (s.flow h (s.frozen b.tag) (some (targetOf s.cur.addr o)) fun u => u.vbr s.clock yes no fall)
      else
        .next ((s.flow h (s.frozen b.tag) none fun u => u.vbr s.clock yes no fall).updTeam s.cur.r fun u =>
          { u with pc := fall })

/-- RECON: the other path, or the outer mask and one entry popped (R123). -/
def execRecon (h : Hd) (s : State) : Out :=
  s.chk [] [] false fun b t =>
    match t.stack.getLast? with
    | none => .next (s.trap .rstack)
    | some e =>
      if e.pending ≠ 0#1024 then
        .next (s.flow h (s.frozen b.tag) (some e.pc) fun u =>
          Team.addRun { u with stack := u.stack.dropLast ++ [{ e with pending := 0#1024 }] } s.clock [.m 0 e.pending])
      else
        .next (s.flow h (s.frozen b.tag) none fun u =>
          Team.addRun { u with stack := u.stack.dropLast } s.clock [.m 0 e.outer])

end Sys2Proof.Machine
end

