-- ==== Sys2Proof/Machine/Mask.lean ====
section
/-! DEFINITION. The mask words of class 5 (R125, R126). -/

namespace Sys2Proof.Machine

/-- A mask word of two masks; ALL makes the first operand the set of all existing lanes (R125). -/
def State.mBin (s : State) (h : Hd) (l : BitVec 1) (d a b : BitVec 3) (f : Mask → Mask → Mask) : Out :=
  s.chk ((if l = 1#1 then [] else [.m a.toNat]) ++ [.m b.toNat]) [.m d.toNat] false fun _ t =>
    let x := if l = 1#1 then maskAll t.lanes else t.rm a
    .next (s.issue h false fun u => u.addRun (s.clock + latU) [.m d.toNat (f x (t.rm b))])

def execMand (h : Hd) (l : BitVec 1) (d a b : BitVec 3) (s : State) : Out := s.mBin h l d a b fun x y => x &&& y
def execMor (h : Hd) (l : BitVec 1) (d a b : BitVec 3) (s : State) : Out := s.mBin h l d a b fun x y => x ||| y
def execMxor (h : Hd) (l : BitVec 1) (d a b : BitVec 3) (s : State) : Out := s.mBin h l d a b fun x y => x ^^^ y
def execMandn (h : Hd) (l : BitVec 1) (d a b : BitVec 3) (s : State) : Out := s.mBin h l d a b fun x y => x &&& ~~~y

/-- The lowest lane of a mask (R125). -/
def maskFirst (m : Mask) (n : Nat) : Option Nat := (List.range n).find? fun l => m.getLsbD l

def execMlead (h : Hd) (d a : BitVec 3) (s : State) : Out :=
  s.chk [.m a.toNat] [.m d.toNat] false fun _ t =>
    let x := match maskFirst (t.rm a) t.lanes with | some l => maskOf [l] | none => 0#1024
    .next (s.issue h false fun u => u.addRun (s.clock + latU) [.m d.toNat x])

def execMfirst (h : Hd) (d : BitVec 6) (a : BitVec 3) (s : State) : Out :=
  s.chk [.m a.toNat] [.w d.toNat] false fun _ t =>
    let x := match maskFirst (t.rm a) t.lanes with | some l => BitVec.ofNat 64 l | none => BitVec.allOnes 64
    .next (s.issue h false fun u => u.addRun (s.clock + latU) [.w d.toNat x])

def execMcount (h : Hd) (d : BitVec 6) (a : BitVec 3) (s : State) : Out :=
  s.chk [.m a.toNat] [.w d.toNat] false fun _ t =>
    .next (s.issue h false fun u =>
      u.addRun (s.clock + latU) [.w d.toNat (BitVec.ofNat 64 (maskLanes (t.rm a) t.lanes).length)])

/-- MSETW writes one lane word; with wb at or above W there is no effect (R125). -/
def execMsetw (h : Hd) (d : BitVec 3) (a b : BitVec 6) (s : State) : Out :=
  s.chk [.w a.toNat, .w b.toNat] [.m d.toNat] false fun _ t =>
    if (t.rw b).toNat < t.words then
      .next (s.issue h false fun u => u.addRun (s.clock + latU)
        [.mw d.toNat (t.rw b).toNat ((t.rw a).setWidth 32)])
    else .next (s.issue h false id)

def execMgetw (h : Hd) (d : BitVec 6) (a : BitVec 3) (b : BitVec 6) (s : State) : Out :=
  s.chk [.m a.toNat, .w b.toNat] [.w d.toNat] false fun _ t =>
    let j := (t.rw b).toNat
    let x : Dword := if j < t.words then (maskWord (t.rm a) j).setWidth 64
      else if j = 32 then (maskSummary (t.rm a)).setWidth 64 else 0#64
    .next (s.issue h false fun u => u.addRun (s.clock + latU) [.w d.toNat x])

end Sys2Proof.Machine
end

