-- ==== Sys2Proof/Machine/VectorInt.lean ====
section
/-! DEFINITION. The vector integer words of classes 6 and 7 (R153 to R159) and VDOT4 (R166). -/

namespace Sys2Proof.Machine

/-- An integer operation of VINT: width, signedness, SAT, operands (R158). -/
abbrev IntOp := Nat → Bool → Bool → Nat → Nat → Nat

def iAdd : IntOp := fun n g sat a b => wrInt g sat n (rdInt g n a + rdInt g n b)
def iSub : IntOp := fun n g sat a b => wrInt g sat n (rdInt g n a - rdInt g n b)
def iMul : IntOp := fun n g sat a b => wrInt g sat n (rdInt g n a * rdInt g n b)
/-- Bits [2n-1:n] of the exact product. -/
def iMulh : IntOp := fun n g _ a b => wrapInt n ((rdInt g n a * rdInt g n b) / ((2 ^ n : Nat) : Int))
def iAnd : IntOp := fun _ _ _ a b => a &&& b
def iOr : IntOp := fun _ _ _ a b => a ||| b
def iXor : IntOp := fun _ _ _ a b => a ^^^ b
/-- The shift count: bits [4:0], or bits [5:0] for pair words. -/
def iCnt (n b : Nat) : Nat := b % n
def iShl : IntOp := fun n _ _ a b => (a * 2 ^ iCnt n b) % 2 ^ n
def iShr : IntOp := fun n _ _ a b => (a % 2 ^ n) / 2 ^ iCnt n b
def iSar : IntOp := fun n _ _ a b => wrapInt n (sextNat a n / ((2 ^ iCnt n b : Nat) : Int))
def iMin : IntOp := fun n g _ a b => if ltN g n b a then b else a
def iMax : IntOp := fun n g _ a b => if ltN g n a b then b else a

/-- A VINT word of two sources (R158). -/
def State.vBin (s : State) (h : Hd) (k : BitVec 3) (d a b : BitVec 6) (f : IntOp) : Out :=
  let ty := h.ty 4#4
  let w := is64 ty
  s.vOp h k w latV d (vName w a ++ vName w b) fun t l =>
    f (if w then 64 else 32) (isSigned ty) h.sat (t.rvN w a.toNat l) (t.rvN w b.toNat l)

/-- A VIMM word: the immediate in every lane (R159). -/
def State.vImm (s : State) (h : Hd) (d a : BitVec 6) (i : BitVec 9) (f : IntOp) : Out :=
  s.vOp h h.mk0 false latV d [.v a.toNat] fun t l =>
    f 32 (isSigned (h.ty 4#4)) h.sat (t.rvN false a.toNat l) (vimm h i).toNat

def execVadd (h : Hd) (k : BitVec 3) (d a b : BitVec 6) (s : State) : Out := s.vBin h k d a b iAdd
def execVsub (h : Hd) (k : BitVec 3) (d a b : BitVec 6) (s : State) : Out := s.vBin h k d a b iSub
def execVmul (h : Hd) (k : BitVec 3) (d a b : BitVec 6) (s : State) : Out := s.vBin h k d a b iMul
def execVmulh (h : Hd) (k : BitVec 3) (d a b : BitVec 6) (s : State) : Out := s.vBin h k d a b iMulh
def execVand (h : Hd) (k : BitVec 3) (d a b : BitVec 6) (s : State) : Out := s.vBin h k d a b iAnd
def execVor (h : Hd) (k : BitVec 3) (d a b : BitVec 6) (s : State) : Out := s.vBin h k d a b iOr
def execVxor (h : Hd) (k : BitVec 3) (d a b : BitVec 6) (s : State) : Out := s.vBin h k d a b iXor
def execVshl (h : Hd) (k : BitVec 3) (d a b : BitVec 6) (s : State) : Out := s.vBin h k d a b iShl
def execVshr (h : Hd) (k : BitVec 3) (d a b : BitVec 6) (s : State) : Out := s.vBin h k d a b iShr
def execVsar (h : Hd) (k : BitVec 3) (d a b : BitVec 6) (s : State) : Out := s.vBin h k d a b iSar
def execVmin (h : Hd) (k : BitVec 3) (d a b : BitVec 6) (s : State) : Out := s.vBin h k d a b iMin
def execVmax (h : Hd) (k : BitVec 3) (d a b : BitVec 6) (s : State) : Out := s.vBin h k d a b iMax

/-- VABS: |a| mod 2^32; with SAT the most negative number gives the largest (R158). -/
def vabs (sat : Bool) (a : Nat) : Nat := wrInt true sat 32 ((rdInt true 32 a).natAbs : Int)

def execVabs (h : Hd) (k : BitVec 3) (d a : BitVec 6) (s : State) : Out :=
  s.vOp h k false latV d [.v a.toNat] fun t l => vabs h.sat (t.rvN false a.toNat l)

/-- p and l of VBFX and VBFI (R158). -/
def vbfPos (b : Nat) : Nat := natBits b 0 5
def vbfLen (b : Nat) : Nat := min (natBits b 8 6) 32

/-- VBFX: the field, sign- or zero-extended; 0 for an empty field (R158). -/
def vbfx (signed : Bool) (a b : Nat) : Nat :=
  let l := vbfLen b
  let x := bfGet 32 a (vbfPos b) l
  if l = 0 then 0 else if signed then wrapInt 32 (sextNat x l) else x

def execVbfx (h : Hd) (k : BitVec 3) (d a b : BitVec 6) (s : State) : Out :=
  s.vOp h k false latV d [.v a.toNat, .v b.toNat] fun t l =>
    vbfx (isSigned (h.ty 4#4)) (t.rvN false a.toNat l) (t.rvN false b.toNat l)

def execVbfi (h : Hd) (k : BitVec 3) (d a b : BitVec 6) (s : State) : Out :=
  s.vOp h k false latV d [.v a.toNat, .v b.toNat, .v d.toNat] fun t l =>
    let y := t.rvN false b.toNat l
    bfPut 32 (t.rvN false d.toNat l) (t.rvN false a.toNat l) (vbfPos y) (vbfLen y)

def execVaddImm (h : Hd) (d a : BitVec 6) (i : BitVec 9) (s : State) : Out := s.vImm h d a i iAdd
def execVandImm (h : Hd) (d a : BitVec 6) (i : BitVec 9) (s : State) : Out := s.vImm h d a i iAnd
def execVorImm (h : Hd) (d a : BitVec 6) (i : BitVec 9) (s : State) : Out := s.vImm h d a i iOr
def execVxorImm (h : Hd) (d a : BitVec 6) (i : BitVec 9) (s : State) : Out := s.vImm h d a i iXor
def execVshlImm (h : Hd) (d a : BitVec 6) (i : BitVec 9) (s : State) : Out := s.vImm h d a i iShl
def execVshrImm (h : Hd) (d a : BitVec 6) (i : BitVec 9) (s : State) : Out := s.vImm h d a i iShr
def execVsarImm (h : Hd) (d a : BitVec 6) (i : BitVec 9) (s : State) : Out := s.vImm h d a i iSar
def execVmulImm (h : Hd) (d a : BitVec 6) (i : BitVec 9) (s : State) : Out := s.vImm h d a i iMul

/-- VMOV with an immediate (R159). -/
def execVmovImm (h : Hd) (d : BitVec 6) (i : BitVec 9) (s : State) : Out :=
  s.vOp h h.mk0 false latV d [] fun _ _ => (vimm h i).toNat

/-- The exact sum of VDOT4 (R166). -/
def dot4 (signed : Bool) (d a b : Nat) : Int :=
  let p (k : Nat) : Int := rdInt signed 8 (natBits a (8 * k) 8) * rdInt signed 8 (natBits b (8 * k) 8)
  rdInt signed 32 d + p 0 + p 1 + p 2 + p 3

def execVdot4 (h : Hd) (k : BitVec 3) (d a b : BitVec 6) (s : State) : Out :=
  let g := isSigned (h.ty 0#4)
  s.vOp h k false latD d [.v a.toNat, .v b.toNat, .v d.toNat] fun t l =>
    wrInt g h.sat 32 (dot4 g (t.rvN false d.toNat l) (t.rvN false a.toNat l) (t.rvN false b.toNat l))

end Sys2Proof.Machine
end

