-- ==== Sys2Proof/Machine/Dispatch.lean ====
section
/-! DEFINITION. The meaning of every instruction: one arm for each constructor. -/

namespace Sys2Proof.Machine

def exec (i : Instr) (s : State) : Host.Outcome State Fault Refusal :=
  match i with
  | .nop h => Sys2Proof.Machine.execNop h s
  | .trap h n => Sys2Proof.Machine.execTrap h n s
  | .tret h => Sys2Proof.Machine.execTret h s
  | .trig h a n => Sys2Proof.Machine.execTrig h a n s
  | .wfi h => Sys2Proof.Machine.execWfi h s
  | .cswap h d a => Sys2Proof.Machine.execCswap h d a s
  | .dusk h d a => Sys2Proof.Machine.execDusk h d a s
  | .duskRet h d a => Sys2Proof.Machine.execDuskRet h d a s
  | .sample h => Sys2Proof.Machine.execSample h s
  | .brk => Sys2Proof.Machine.execBrk s
  | .uadd h d a b => Sys2Proof.Machine.execUadd h d a b s
  | .usub h d a b => Sys2Proof.Machine.execUsub h d a b s
  | .umul h d a b => Sys2Proof.Machine.execUmul h d a b s
  | .umulh h u d a b => Sys2Proof.Machine.execUmulh h u d a b s
  | .uand h d a b => Sys2Proof.Machine.execUand h d a b s
  | .uor h d a b => Sys2Proof.Machine.execUor h d a b s
  | .uxor h d a b => Sys2Proof.Machine.execUxor h d a b s
  | .ushl h d a b => Sys2Proof.Machine.execUshl h d a b s
  | .ushr h d a b => Sys2Proof.Machine.execUshr h d a b s
  | .usar h d a b => Sys2Proof.Machine.execUsar h d a b s
  | .umin h u d a b => Sys2Proof.Machine.execUmin h u d a b s
  | .umax h u d a b => Sys2Proof.Machine.execUmax h u d a b s
  | .ucmp h u d a b => Sys2Proof.Machine.execUcmp h u d a b s
  | .ubfx h u d a b => Sys2Proof.Machine.execUbfx h u d a b s
  | .ubfi h d a b => Sys2Proof.Machine.execUbfi h d a b s
  | .uaddImm h d a imm => Sys2Proof.Machine.execUaddImm h d a imm s
  | .uandImm h d a imm => Sys2Proof.Machine.execUandImm h d a imm s
  | .uorImm h d a imm => Sys2Proof.Machine.execUorImm h d a imm s
  | .uxorImm h d a imm => Sys2Proof.Machine.execUxorImm h d a imm s
  | .ushlImm h d a imm => Sys2Proof.Machine.execUshlImm h d a imm s
  | .ushrImm h d a imm => Sys2Proof.Machine.execUshrImm h d a imm s
  | .usarImm h d a imm => Sys2Proof.Machine.execUsarImm h d a imm s
  | .umulImm h d a imm => Sys2Proof.Machine.execUmulImm h d a imm s
  | .ului h d imm => Sys2Proof.Machine.execUlui h d imm s
  | .jmp h o => Sys2Proof.Machine.execJmp h o s
  | .call h w o => Sys2Proof.Machine.execCall h w o s
  | .ret h w => Sys2Proof.Machine.execRet h w s
  | .brmAny h k o => Sys2Proof.Machine.execBrmAny h k o s
  | .brmAll h k o => Sys2Proof.Machine.execBrmAll h k o s
  | .brmNone h k o => Sys2Proof.Machine.execBrmNone h k o s
  | .vbr h k o => Sys2Proof.Machine.execVbr h k o s
  | .recon h => Sys2Proof.Machine.execRecon h s
  | .bruZ h w o => Sys2Proof.Machine.execBruZ h w o s
  | .bruNz h w o => Sys2Proof.Machine.execBruNz h w o s
  | .bruNeg h w o => Sys2Proof.Machine.execBruNeg h w o s
  | .bruNneg h w o => Sys2Proof.Machine.execBruNneg h w o s
  | .mand h l d a b => Sys2Proof.Machine.execMand h l d a b s
  | .mor h l d a b => Sys2Proof.Machine.execMor h l d a b s
  | .mxor h l d a b => Sys2Proof.Machine.execMxor h l d a b s
  | .mandn h l d a b => Sys2Proof.Machine.execMandn h l d a b s
  | .mlead h d a => Sys2Proof.Machine.execMlead h d a s
  | .mfirst h d a => Sys2Proof.Machine.execMfirst h d a s
  | .mcount h d a => Sys2Proof.Machine.execMcount h d a s
  | .msetw h d a b => Sys2Proof.Machine.execMsetw h d a b s
  | .mgetw h d a b => Sys2Proof.Machine.execMgetw h d a b s
  | .vadd h k d a b => Sys2Proof.Machine.execVadd h k d a b s
  | .vsub h k d a b => Sys2Proof.Machine.execVsub h k d a b s
  | .vmul h k d a b => Sys2Proof.Machine.execVmul h k d a b s
  | .vmulh h k d a b => Sys2Proof.Machine.execVmulh h k d a b s
  | .vand h k d a b => Sys2Proof.Machine.execVand h k d a b s
  | .vor h k d a b => Sys2Proof.Machine.execVor h k d a b s
  | .vxor h k d a b => Sys2Proof.Machine.execVxor h k d a b s
  | .vshl h k d a b => Sys2Proof.Machine.execVshl h k d a b s
  | .vshr h k d a b => Sys2Proof.Machine.execVshr h k d a b s
  | .vsar h k d a b => Sys2Proof.Machine.execVsar h k d a b s
  | .vmin h k d a b => Sys2Proof.Machine.execVmin h k d a b s
  | .vmax h k d a b => Sys2Proof.Machine.execVmax h k d a b s
  | .vabs h k d a => Sys2Proof.Machine.execVabs h k d a s
  | .vbfx h k d a b => Sys2Proof.Machine.execVbfx h k d a b s
  | .vbfi h k d a b => Sys2Proof.Machine.execVbfi h k d a b s
  | .vaddImm h d a imm => Sys2Proof.Machine.execVaddImm h d a imm s
  | .vandImm h d a imm => Sys2Proof.Machine.execVandImm h d a imm s
  | .vorImm h d a imm => Sys2Proof.Machine.execVorImm h d a imm s
  | .vxorImm h d a imm => Sys2Proof.Machine.execVxorImm h d a imm s
  | .vshlImm h d a imm => Sys2Proof.Machine.execVshlImm h d a imm s
  | .vshrImm h d a imm => Sys2Proof.Machine.execVshrImm h d a imm s
  | .vsarImm h d a imm => Sys2Proof.Machine.execVsarImm h d a imm s
  | .vmulImm h d a imm => Sys2Proof.Machine.execVmulImm h d a imm s
  | .vmovImm h d imm => Sys2Proof.Machine.execVmovImm h d imm s
  | .fadd h k d a b => Sys2Proof.Machine.execFadd h k d a b s
  | .fsub h k d a b => Sys2Proof.Machine.execFsub h k d a b s
  | .fmul h k d a b => Sys2Proof.Machine.execFmul h k d a b s
  | .ffma h k d a b => Sys2Proof.Machine.execFfma h k d a b s
  | .fmin h k d a b => Sys2Proof.Machine.execFmin h k d a b s
  | .fmax h k d a b => Sys2Proof.Machine.execFmax h k d a b s
  | .fabs h k d a => Sys2Proof.Machine.execFabs h k d a s
  | .frcp h k d a => Sys2Proof.Machine.execFrcp h k d a s
  | .frsq h k d a => Sys2Proof.Machine.execFrsq h k d a s
  | .fsqrt h k d a => Sys2Proof.Machine.execFsqrt h k d a s
  | .fdiv h k d a b => Sys2Proof.Machine.execFdiv h k d a b s
  | .fexp2 h k d a => Sys2Proof.Machine.execFexp2 h k d a s
  | .flog2 h k d a => Sys2Proof.Machine.execFlog2 h k d a s
  | .fneg h k d a => Sys2Proof.Machine.execFneg h k d a s
  | .dadd h k d a b => Sys2Proof.Machine.execDadd h k d a b s
  | .dsub h k d a b => Sys2Proof.Machine.execDsub h k d a b s
  | .dmul h k d a b => Sys2Proof.Machine.execDmul h k d a b s
  | .dfma h k d a b => Sys2Proof.Machine.execDfma h k d a b s
  | .dmin h k d a b => Sys2Proof.Machine.execDmin h k d a b s
  | .dmax h k d a b => Sys2Proof.Machine.execDmax h k d a b s
  | .ddiv h k d a b => Sys2Proof.Machine.execDdiv h k d a b s
  | .dsqrt h k d a => Sys2Proof.Machine.execDsqrt h k d a s
  | .hadd2 h k d a b => Sys2Proof.Machine.execHadd2 h k d a b s
  | .hsub2 h k d a b => Sys2Proof.Machine.execHsub2 h k d a b s
  | .hmul2 h k d a b => Sys2Proof.Machine.execHmul2 h k d a b s
  | .hfma2 h k d a b => Sys2Proof.Machine.execHfma2 h k d a b s
  | .hmin2 h k d a b => Sys2Proof.Machine.execHmin2 h k d a b s
  | .hmax2 h k d a b => Sys2Proof.Machine.execHmax2 h k d a b s
  | .vdot4 h k d a b => Sys2Proof.Machine.execVdot4 h k d a b s
  | .cvt h t k d a f => Sys2Proof.Machine.execCvt h t k d a f s
  | .vcmpEq h k d a b => Sys2Proof.Machine.execVcmpEq h k d a b s
  | .vcmpNe h k d a b => Sys2Proof.Machine.execVcmpNe h k d a b s
  | .vcmpLt h k d a b => Sys2Proof.Machine.execVcmpLt h k d a b s
  | .vcmpLe h k d a b => Sys2Proof.Machine.execVcmpLe h k d a b s
  | .vcmpGt h k d a b => Sys2Proof.Machine.execVcmpGt h k d a b s
  | .vcmpGe h k d a b => Sys2Proof.Machine.execVcmpGe h k d a b s
  | .vcmpUn h k d a b => Sys2Proof.Machine.execVcmpUn h k d a b s
  | .vcmpOrd h k d a b => Sys2Proof.Machine.execVcmpOrd h k d a b s
  | .vtest h k d a b => Sys2Proof.Machine.execVtest h k d a b s
  | .vshuf h k d a b => Sys2Proof.Machine.execVshuf h k d a b s
  | .vbcast h k d a b => Sys2Proof.Machine.execVbcast h k d a b s
  | .vred h k d a o => Sys2Proof.Machine.execVred h k d a o s
  | .vscan h k d a e o => Sys2Proof.Machine.execVscan h k d a e o s
  | .vsel h k d a b => Sys2Proof.Machine.execVsel h k d a b s
  | .vmov h k d a => Sys2Proof.Machine.execVmov h k d a s
  | .vmovw h k d a => Sys2Proof.Machine.execVmovw h k d a s
  | .ldg h k d x o e z => Sys2Proof.Machine.execLdg h k d x o e z s
  | .lds h k d o e z => Sys2Proof.Machine.execLds h k d o e z s
  | .ldsFe h k d o e z => Sys2Proof.Machine.execLdsFe h k d o e z s
  | .ldsFk h k d o e z => Sys2Proof.Machine.execLdsFk h k d o e z s
  | .ldw h d x o e z => Sys2Proof.Machine.execLdw h d x o e z s
  | .ldws h d o e z => Sys2Proof.Machine.execLdws h d o e z s
  | .pref h k x o l => Sys2Proof.Machine.execPref h k x o l s
  | .stg h k d x o z => Sys2Proof.Machine.execStg h k d x o z s
  | .sts h k d o z => Sys2Proof.Machine.execSts h k d o z s
  | .stw h d x o z => Sys2Proof.Machine.execStw h d x o z s
  | .stws h d o z => Sys2Proof.Machine.execStws h d o z s
  | .feset h d o => Sys2Proof.Machine.execFeset h d o s
  | .feclr h d o => Sys2Proof.Machine.execFeclr h d o s
  | .atom h p k d x o y => Sys2Proof.Machine.execAtom h p k d x o y s
  | .red h p k d x o y => Sys2Proof.Machine.execRed h p k d x o y s
  | .fence h => Sys2Proof.Machine.execFence h s
  | .xfence h q p => Sys2Proof.Machine.execXfence h q p s
  | .spfence h => Sys2Proof.Machine.execSpfence h s
  | .binit h d o => Sys2Proof.Machine.execBinit h d o s
  | .barrive h o => Sys2Proof.Machine.execBarrive h o s
  | .bwait h d o => Sys2Proof.Machine.execBwait h d o s
  | .sgjoin h d => Sys2Proof.Machine.execSgjoin h d s
  | .sgleave h => Sys2Proof.Machine.execSgleave h s
  | .cpy h u b k t r => Sys2Proof.Machine.execCpy h u b k t r s
  | .tcpy h u b k t r => Sys2Proof.Machine.execTcpy h u b k t r s
  | .gcpy h u b k t r => Sys2Proof.Machine.execGcpy h u b k t r s
  | .scpy h u b k t r => Sys2Proof.Machine.execScpy h u b k t r s
  | .isect h d b z => Sys2Proof.Machine.execIsect h d b z s
  | .isectn h d b z => Sys2Proof.Machine.execIsectn h d b z s
  | .vconf h k d a => Sys2Proof.Machine.execVconf h k d a s
  | .scatc h k d x o y q => Sys2Proof.Machine.execScatc h k d x o y q s
  | .mpath h k d a b => Sys2Proof.Machine.execMpath h k d a b s
  | .vsegred h k d a b => Sys2Proof.Machine.execVsegred h k d a b s
  | .vsegscan h k d a b => Sys2Proof.Machine.execVsegscan h k d a b s
  | .vcompress h k d a => Sys2Proof.Machine.execVcompress h k d a s
  | .vexpand h k d a => Sys2Proof.Machine.execVexpand h k d a s
  | .nredOrd h u b o r => Sys2Proof.Machine.execNredOrd h u b o r s
  | .nredAny h u b o r => Sys2Proof.Machine.execNredAny h u b o r s
  | .mma h t b p n k u => Sys2Proof.Machine.execMma h t b p n k u s
  | .mmaZ h t b p n k u => Sys2Proof.Machine.execMmaZ h t b p n k u s
  | .mzero h t p => Sys2Proof.Machine.execMzero h t p s
  | .mload h t b p => Sys2Proof.Machine.execMload h t b p s
  | .mdrain h t b p => Sys2Proof.Machine.execMdrain h t b p s
  | .mpair h d => Sys2Proof.Machine.execMpair h d s
  | .mstat h d t l => Sys2Proof.Machine.execMstat h d t l s
  | .mperm h b => Sys2Proof.Machine.execMperm h b s
  | .cclaim h d b => Sys2Proof.Machine.execCclaim h d b s
  | .crelease h b => Sys2Proof.Machine.execCrelease h b s
  | .dinit h n b => Sys2Proof.Machine.execDinit h n b s
  | .dstat h d n => Sys2Proof.Machine.execDstat h d n s
  | .spawn h d b => Sys2Proof.Machine.execSpawn h d b s
  | .spawnf h d b => Sys2Proof.Machine.execSpawnf h d b s
  | .fref h b => Sys2Proof.Machine.execFref h b s
  | .fdrop h b => Sys2Proof.Machine.execFdrop h b s
  | .fwait h d b => Sys2Proof.Machine.execFwait h d b s
  | .fpoll h d b => Sys2Proof.Machine.execFpoll h d b s
  | .rpoint h => Sys2Proof.Machine.execRpoint h s
  | .binpost h wh b n l => Sys2Proof.Machine.execBinpost h wh b n l s
  | .send h p b => Sys2Proof.Machine.execSend h p b s
  | .sendt h d b => Sys2Proof.Machine.execSendt h d b s
  | .recv h d p => Sys2Proof.Machine.execRecv h d p s
  | .patset h d b => Sys2Proof.Machine.execPatset h d b s
  | .portopen h d b => Sys2Proof.Machine.execPortopen h d b s
  | .qcreate h d b => Sys2Proof.Machine.execQcreate h d b s
  | .qcreateFree h b => Sys2Proof.Machine.execQcreateFree h b s
  | .qpush h d b => Sys2Proof.Machine.execQpush h d b s
  | .qpop h d b => Sys2Proof.Machine.execQpop h d b s
  | .nres h a w => Sys2Proof.Machine.execNres h a w s
  | .nresK h a p w => Sys2Proof.Machine.execNresK h a p w s
  | .nchild h d p w => Sys2Proof.Machine.execNchild h d p w s
  | .nparent h d w => Sys2Proof.Machine.execNparent h d w s
  | .rdc h d a => Sys2Proof.Machine.execRdc h d a s
  | .rdcV h d a => Sys2Proof.Machine.execRdcV h d a s
  | .wrc h d a => Sys2Proof.Machine.execWrc h d a s
  | .rgive h b => Sys2Proof.Machine.execRgive h b s
  | .rclaim h b => Sys2Proof.Machine.execRclaim h b s
  | .bar h => Sys2Proof.Machine.execBar h s
  | .launchFlat h d a p g => Sys2Proof.Machine.execLaunchFlat h d a p g s
  | .launchTree h d a p g => Sys2Proof.Machine.execLaunchTree h d a p g s
  | .launchBin h d a p g => Sys2Proof.Machine.execLaunchBin h d a p g s
  | .lvlwait h d a => Sys2Proof.Machine.execLvlwait h d a s
  | .lvlwaitPoll h d a => Sys2Proof.Machine.execLvlwaitPoll h d a s
  | .lvlcancel h a => Sys2Proof.Machine.execLvlcancel h a s
  | .exit h => Sys2Proof.Machine.execExit h s
  | .xlat h d a => Sys2Proof.Machine.execXlat h d a s
  | .xinv h a b => Sys2Proof.Machine.execXinv h a b s
  | .extn h f n d a k => Sys2Proof.Machine.execExtn h f n d a k s
  | .dawn => Sys2Proof.Machine.execDawn s
  | .i3cRequest => Sys2Proof.Machine.execI3cRequest s
  | .blockPlacement d => Sys2Proof.Machine.execBlockPlacement d s
  | .blockEnd b => Sys2Proof.Machine.execBlockEnd b s
  | .census l => Sys2Proof.Machine.execCensus l s
  | .shelfReservation l => Sys2Proof.Machine.execShelfReservation l s
  | .nodeDispatch l => Sys2Proof.Machine.execNodeDispatch l s
  | .sweepEnd l => Sys2Proof.Machine.execSweepEnd l s
  | .stealRequest c => Sys2Proof.Machine.execStealRequest c s
  | .stealReply c => Sys2Proof.Machine.execStealReply c s
  | .donatedDispatchArrival d => Sys2Proof.Machine.execDonatedDispatchArrival d s
  | .resultArrival r n => Sys2Proof.Machine.execResultArrival r n s
  | .trapEntry r => Sys2Proof.Machine.execTrapEntry r s
  | .interruptEntry r => Sys2Proof.Machine.execInterruptEntry r s
  | .logRetry b n => Sys2Proof.Machine.execLogRetry b n s
  | .drawerReservation r => Sys2Proof.Machine.execDrawerReservation r s
  | .copyCompletion n => Sys2Proof.Machine.execCopyCompletion n s
  | .mmaTake r => Sys2Proof.Machine.execMmaTake r s
  | .tileOpPerform b z => Sys2Proof.Machine.execTileOpPerform b z s
  | .cclaimGrant b => Sys2Proof.Machine.execCclaimGrant b s
  | .rclaimGrant b => Sys2Proof.Machine.execRclaimGrant b s
  | .nredContributionArrival n => Sys2Proof.Machine.execNredContributionArrival n s
  | .patternFiring e => Sys2Proof.Machine.execPatternFiring e s
  | .heldMessageAppend e p => Sys2Proof.Machine.execHeldMessageAppend e p s
  | .binTimerExpiry e n => Sys2Proof.Machine.execBinTimerExpiry e n s
  | .pageMigrationLine => Sys2Proof.Machine.execPageMigrationLine s
  | .hostAccess => Sys2Proof.Machine.execHostAccess s
  | .fabricRemoteAccess => Sys2Proof.Machine.execFabricRemoteAccess s
  | .post => Sys2Proof.Machine.execPost s
  | .pagerdy => Sys2Proof.Machine.execPagerdy s
  | .termq => Sys2Proof.Machine.execTermq s
  | .termack => Sys2Proof.Machine.execTermack s
  | .invlen => Sys2Proof.Machine.execInvlen s
  | .invalidationDone p => Sys2Proof.Machine.execInvalidationDone p s
  | .routingTableWrite => Sys2Proof.Machine.execRoutingTableWrite s
  | .modid => Sys2Proof.Machine.execModid s
  | .sensorSample => Sys2Proof.Machine.execSensorSample s
  | .tickExpiry e => Sys2Proof.Machine.execTickExpiry e s
  | .tick => Sys2Proof.Machine.execTick s
  | .alert => Sys2Proof.Machine.execAlert s
  | .istat => Sys2Proof.Machine.execIstat s
  | .throt => Sys2Proof.Machine.execThrot s
  | .evstat => Sys2Proof.Machine.execEvstat s
  | .termb => Sys2Proof.Machine.execTermb s
  | .signctl => Sys2Proof.Machine.execSignctl s
  | .signComplete => Sys2Proof.Machine.execSignComplete s
  | .part => Sys2Proof.Machine.execPart s
  | .uncorrectableError => Sys2Proof.Machine.execUncorrectableError s
  | .vctl => Sys2Proof.Machine.execVctl s
  | .sampctl => Sys2Proof.Machine.execSampctl s
  | .blkid1Stop => Sys2Proof.Machine.execBlkid1Stop s
  | .blkid1Resume => Sys2Proof.Machine.execBlkid1Resume s
  | .stopComplete b => Sys2Proof.Machine.execStopComplete b s
  | .hangWatchdogExpiry e t => Sys2Proof.Machine.execHangWatchdogExpiry e t s
  | .duskResume b => Sys2Proof.Machine.execDuskResume b s
  | .registerWrite => Sys2Proof.Machine.execRegisterWrite s
  | .contextCreation => Sys2Proof.Machine.execContextCreation s
  | .contextEnd => Sys2Proof.Machine.execContextEnd s
  | .runBoundWrite r => Sys2Proof.Machine.execRunBoundWrite r s
  | .accessPerformed r n => Sys2Proof.Machine.execAccessPerformed r n s

end Sys2Proof.Machine
end

