-- ==== Sys2Proof/Machine/Turn.lean ====
section
/-! DEFINITION. The moves of the machine: a team's chain (R86 to R95), the wake of a team that waits, a clock cycle, a unit's
step, and which move comes next when the schedule names none (log entry 7). -/

namespace Sys2Proof.Machine

/-! ### The members of a chain (R88) -/

/-- What is issuing at a chain's start. -/
def State.issueOf (s : State) (r : TRef) (t : Team) (next : BitVec 56) : Issue :=
  { r := r, addr := t.pc, first := t.pc, next := next, base := s.nextId, old := t.run.writes, res := .none, req := none }

/-- One member of a chain: ILLOP, or its instruction's meaning. -/
def State.runMember (s : State) (iss : Issue) (bureau : Bool) (m : Member) : Out :=
  match m.illop? bureau, m.instr? with
  | none, some i => exec i { s with cur := { iss with addr := m.addr } }
  | some a, _ => .next ({ s with cur := { iss with addr := a } }.trap .illop)
  | none, none => .next ({ s with cur := iss }.trap .illop)

/-- What the checks of a chain come to: the outcome of its first member that does not issue, or that every member may issue, with
the data comparator, if any, that stops the chain. -/
inductive ChainCheck where
  | stops (o : Out)
  | passes (data : Option Nat)

/-- The higher of two stall reasons (R448). -/
def Reason.max (a b : Reason) : Reason := if a.code < b.code then b else a

/-- What one more member that parks adds to a parked chain: its stall reason, if it is the higher one (R448); and, if it parks on a
network-reduction result, a reclamation point, counted once, at which a reclaimed or cancelled team ends (R285, R335). `u` is the
team as that member leaves it. -/
def State.parkMore (s : State) (r : TRef) (u : Team) : State :=
  match s.team? r with
  | none => s
  | some (b, t) =>
    if t.ended then s
    else
      let s1 := s.updTeam r fun t => { t with reason := t.reason.max u.reason }
      let s2 := if u.counted && !t.counted then (s1.countPoint b).updTeam r fun t => { t with counted := true } else s1
      if u.ended then s2.endTeam r else s2

/-- A parked chain with what each of its members that parks adds to it. -/
def State.parkAll (s : State) (iss : Issue) (bureau : Bool) (ms : List Member) (s1 : State) : State :=
  if s1.cur.res = .parked then
    ms.foldl (fun s1 m =>
      match s.runMember iss bureau m with
      | .next s2 =>
        (match s2.team? iss.r with
         | some (_, u) => if s2.cur.res = .parked then s1.parkMore iss.r u else s1
         | none => s1)
      | _ => s1) s1
  else s1

/-- The members checked, each in the state before the chain. -/
def State.checkAll (s : State) (iss : Issue) (bureau : Bool) : List Member → ChainCheck
  | [] => .passes none
  | m :: ms =>
    match s.runMember iss bureau m with
    | .next s1 =>
      (match s1.cur.res with
       | .issued => s.checkAll iss bureau ms
       | .stopped 1 j => match s.checkAll iss bureau ms with | .passes d => .passes (some (d.getD j)) | x => x
       | _ => .stops (.next (s.parkAll iss bureau ms s1)))
    | o => .stops o

/-- The members in order, each on what the one before left, as long as they issue. -/
def State.runAll (s : State) (iss : Issue) (bureau : Bool) : List Member → Out
  | [] => .next s
  | m :: ms =>
    match s.runMember iss bureau m with
    | .next s1 => if s1.cur.res = .issued then s1.runAll iss bureau ms else .next s1
    | o => o

/-- The order in which a member's effects come (R88): first those of members that read registers and change none that another reads; then
slabs that are given or claimed, and the translation registers that XINV cuts; then the words at which a team of a reclaimed or
cancelled task ends, or raises FUTDEAD, once all other members have issued (R87, R336). A consuming load, which reads vector registers,
comes before an RGIVE (`give`). -/
def Member.rank (m : Member) (give : Bool) : Nat :=
  match m.instr? with
  | some (.rgive _ _) => 1
  | some (.rclaim _ _) => 1
  | some (.xinv _ _ _) => 1
  | some (.ldsFe _ _ _ _ _ _) => if give then 0 else 2
  | some (.ldsFk _ _ _ _ _ _) => if give then 0 else 2
  | some (.bwait _ _ _) => 2
  | some (.sgjoin _ _) => 2
  | some (.fwait _ _ _) => 2
  | some (.rpoint _) => 2
  | some (.recv _ _ _) => 2
  | some (.qpop _ _ _) => 2
  | _ => 0

/-- Whether a member gives slabs back. -/
def Member.gives (m : Member) : Bool := match m.instr? with | some (.rgive _ _) => true | _ => false

/-- The members in the order of their effects: every member reads its operands before one changes the registers that the team
has (R88). -/
def effectOrder (ms : List Member) : List Member :=
  let rank (m : Member) : Nat := m.rank (ms.any Member.gives)
  ms.filter (fun m => rank m = 0) ++ ms.filter (fun m => rank m = 1) ++ ms.filter fun m => rank m = 2

/-- The PC comparators tested on every member (R441, R442). -/
def State.chainHits (s : State) (iss : Issue) (b : Block) (t : Team) : List Member → State × Option Nat
  | [] => (s, none)
  | m :: ms =>
    let k := match m.instr? with | some i => governOf i | none => 0#3
    match { s with cur := { iss with addr := m.addr } }.pcHits b t (maskLanes (t.rm k) t.lanes) with
    | (s1, h) =>
      match s1.chainHits iss b t ms with
      | (s2, h') => (s2, match h, h' with | some i, some j => some (min i j) | some i, none => some i | none, x => x)

/-- A chain's memory word finds its hits as it would if every data comparator stopped, with nothing else of it taking effect. -/
def State.allStop (s : State) (core : Nat) : State :=
  s.updCore core fun c => { c with cmp := c.cmp.map fun p => (p.1 ||| 0x10#64, p.2) }

/-- The records of the data comparators that a suppressed chain hits (R442). -/
def State.chainRecords (s : State) (iss : Issue) (b : Block) (ms : List Member) : State :=
  ms.foldl (fun s m =>
    match (s.allStop b.core).runMember iss b.bureau.isSome m with
    | .next s1 => (match s1.cur.res with | .stopped 1 _ => { s with dies := s1.dies } | _ => s)
    | _ => s) s

/-! ### After a chain has issued -/

/-- The registers that the chain has made pending take the run-bound results that stood at its start (R92). -/
def Team.settleChain (t : Team) (iss : Issue) : Team :=
  t.settle (t.pend.flatMap fun p => if iss.base ≤ p.id then p.regs else [])

/-- The state after a chain has issued: what the watchdog sees of it (R447), and the packet that retired (R410). -/
def State.chainDone (s : State) (iss : Issue) (b : Block) (last : BitVec 56) : State :=
  let s1 := s.updTeam iss.r fun u => { (u.settleChain iss) with retired := some (packetOf iss.first), word := last }
  if b.bureau.isSome then s1
  else s1.updCtx b.tag fun c => { c with alive := c.alive.set (coreDie b.core) s.clock }

/-- The state before a chain, with the reason why it did not issue. -/
def State.notIssued (s : State) (r : TRef) (s1 : State) : State :=
  match s1.team? r with
  | some (_, u) => s.updTeam r fun t => { t with reason := u.reason, parked := u.parked }
  | none => s

/-- A legal chain issued whole, or not at all (R88). The chain of a word that a comparator stops is suppressed, and every hit of its
members is recorded (R442); the stop names the lowest comparator that stops it. -/
def State.issueChain (s : State) (r : TRef) (b : Block) (t : Team) (ms : List Member) (next : BitVec 56) : Out :=
  let iss := s.issueOf r t next
  match s.checkAll iss b.bureau.isSome ms with
  | .stops o => o
  | .passes data =>
    match s.chainHits iss b t ms with
    | (s0, pc) =>
      match pc.or data with
      | some j => .next ({ (s0.chainRecords iss b ms) with cur := iss }.stopAt b t 1 j)
      | none =>
        match s0.runAll iss b.bureau.isSome (effectOrder ms) with
        | .next s1 =>
          if s1.cur.res = .issued then .next (s1.chainDone iss b (match ms.getLast? with | some m => m.addr | none => t.pc))
          else
            (match s1.cur.req with
             | some q => .next ({ s with cur := iss }.trapReq q)
             | none => .next (s.notIssued r s1))
        | o => o

/-- The chain at a team's program counter (R86, R87, R387). -/
def State.chainTurn (s : State) (r : TRef) (b : Block) (t : Team) : Out :=
  let iss := s.issueOf r t t.pc
  match s.gather b Prefixes.none [] (wordsLeft t.pc) t.pc with
  | (.absent, s1) => .next ({ s1 with cur := iss }.park .fetch)
  | (.bad va, s1) =>
    .next ({ s1 with cur := { iss with addr := va } }.trapReq
      { cause := .fetch, info := 0, pc := va, resume := va, lanes := [], extn := none, misrec := 0#64 })
  | (.illpkt, s1) => .next ({ s1 with cur := iss }.trap .illpkt)
  | (.members ms next, s1) =>
    if chainBad ms then .next ({ s1 with cur := iss }.trap .illpkt) else s1.issueChain r b t ms next

/-! ### Teams that wait (R60, R323, R335, R336, R392) -/

/-- A team leaves the lists of those that wait for ports and queues. -/
def State.unlist (s : State) (r : TRef) : State :=
  { s with dies := s.dies.map fun (d : Die) =>
      { d with ports := d.ports.map fun p => (p.1, { p.2 with waiting := p.2.waiting.filter fun q => q != r })
               queues := d.queues.map fun p => (p.1, { p.2 with waiting := p.2.waiting.filter fun q => q != r }) } }

/-- The result that a wait keeps pending. -/
def Wait.pend? : Wait → Option Nat
  | .level _ _ _ id => some id
  | .consume _ _ _ _ _ id _ => some id
  | .future _ _ _ id _ => some id
  | .recv _ _ _ id => some id
  | .qpop _ _ _ id _ _ => some id
  | _ => none

/-- A team's wait called off: the word is issued anew later. -/
def State.unwait (s : State) (r : TRef) : State :=
  let s1 := (s.unlist r).updTeam r fun u =>
    { u with wait := none
             pend := match u.wait with
               | some w => (match w.pend? with | some id => u.pend.filter fun p => p.id != id | none => u.pend)
               | none => u.pend }
  s1.updBlock r.b fun x => { x with barArr := x.barArr.filter fun i => i != r.t }

/-- A deferred MMAMIS or NOROUTE taken (R323, R425), resuming at the word at which it is taken. Of several, the one that came first is
taken; the next is at the boundary that follows, which is that of the handler (log entry 125). -/
def State.takeDefer (s : State) (r : TRef) (q : TrapReq) (at' : BitVec 56) : State :=
  (s.updTeam r Team.shiftDefer).raise r { q with resume := at' }

/-- A team that waits continues if what it waits for has happened. -/
def State.wake (s : State) (r : TRef) : Wait → Out
  | .bar _ => .next (s.wakeBar r)
  | .level _ _ _ _ => .next (s.wakeLevel r)
  | .bench _ _ _ => .next (s.wakeBench r)
  | .consume _ _ _ _ _ _ _ => .next (s.wakeConsume r)
  | .future _ _ _ _ _ => .next (s.wakeFuture r)
  | .recv _ _ _ _ => .next (s.wakeRecv r)
  | .qpop _ _ _ _ _ _ => .next (s.wakePop r)
  | .sgjoin _ _ => .next (s.wakeSg r)
  | .wfi => execInterruptEntry r s
  | .tret pc first => s.wakeTret r pc first

/-- Whether a wait is one of R9 in which a team can end or take a deferred trap; a TRET that waits is not. -/
def Wait.open' : Wait → Bool
  | .tret _ _ => false
  | _ => true

/-- The turn of a team that waits: it ends there if its task is reclaimed or cancelled (R336); it looks again at what it waits for;
and where it waits on, it takes a deferred trap there (R323). -/
def State.waitTurn (s : State) (r : TRef) (b : Block) (t : Team) (w : Wait) : Out :=
  if !b.live then .next s
  else if !w.open' then s.wake r w
  else if b.dying && w != .wfi then .next ((s.unlist r).endTeam r)
  else match t.defer, s.wake r w with
    | some q, .next s1 =>
      (match s1.team? r with
       | some (_, u) => if u.wait = some w then .next ((s.unwait r).takeDefer r q t.word) else .next s1
       | none => .next s1)
    | _, o => o

/-! ### A team's turn -/

/-- Whether a pending interrupt is to be taken by a Bureau's team that stands at a boundary (R372, R385); not while its
CSWAP or DUSK is with the sequencer (R395). -/
def State.interrupts (s : State) (r : TRef) (b : Block) (t : Team) : Bool :=
  match b.bureau with
  | some e => (s.die e).interrupt && t.handler.isNone && !s.moveBegun r
  | none => false

/-- The chain of a team at whose boundary an interrupt is pending: a trap of the chain comes first (R393). -/
def State.chainOrInterrupt (s : State) (r : TRef) (b : Block) (t : Team) : Out :=
  match s.chainTurn r b t with
  | .next s1 => if s1.cur.res = .trapped then .next s1 else execInterruptEntry r s
  | o => o

/-- A run after one that has ended: the words that issued after the last one's count in it (R89). -/
def Run.after (r : Run) : Run := { Run.fresh with count := r.carry }

/-- A team that neither waits nor has a trap to enter: an XINV suspends its fetch until what it has retried is performed (R245); it
parks at a switch until the run's results are written (R91), begins a new run, and issues. -/
def State.runTurn (s : State) (r : TRef) (b : Block) (t : Team) : Out :=
  if s.xinvBusy b t then .next (s.updTeam r fun u => { u with reason := .xlate, parked := true })
  else if t.run.ended && !t.runDone then .next (s.updTeam r fun u => { u with reason := .switch })
  else
    let s0 := if t.xinv.isSome then s.updTeam r fun u => { u with xinv := none } else s
    let edge := t.run.ended || t.run.count = 0
    let t1 := if t.run.ended then { t with run := t.run.after, xinv := none } else { t with xinv := none }
    let s1 := if t.run.ended then s0.updTeam r fun u => { u with run := t.run.after } else s0
    if edge && s.interrupts r b t then
      (match t.defer with | some q => .next (s0.takeDefer r q t.pc) | none => s0.chainOrInterrupt r b t)
    else match edge, t.defer with
      | true, some q => .next (s1.takeDefer r q t1.pc)
      | _, _ => s1.chainTurn r b t1

/-- The issue slots in sixteen that a die withholds: THROT's LEVEL, or 15 while it is tripped (R371, R459). -/
def Die.withholds (d : Die) : Nat := if d.tripped then 15 else d.throt.toNat

/-- Whether the issue slots of a block's core are withheld in this cycle (R371); a Bureau's never are. In every 16 cycles the
first ones are (DESIGN CHOICE, log entry 7). -/
def State.withheld (s : State) (b : Block) : Bool :=
  b.bureau.isNone && decide (s.clock % 16 < (s.die (coreDie b.core)).withholds)

/-- The run goes on, unless its words would meet a withheld issue slot (R371). -/
def State.throttled (s : State) (r : TRef) (b : Block) (t : Team) : Out :=
  match { s with cur := { s.cur with res := .none } }.runTurn r b t with
  | .next s1 =>
    if s.withheld b && s1.cur.res = .issued then
      .next (s.updTeam r fun u => { u with reason := .throttle, parked := false })
    else .next s1
  | o => o

/-- Whether a team still acts in the cycle in which a comparator or BRK has stopped its block: hits on several teams in one cycle
each halt their own (R442). -/
def State.sameCycle (s : State) (b : Block) (t : Team) : Bool :=
  b.place = .resident && b.stopped && !b.halt && b.stopTime = s.clock && !t.issued && !t.parked
    && (match b.stopping with | some (c, _, _, _) => decide (c ≠ 3) | none => false)

/-- A team's turn. A halted team of a stopped or halting block does nothing (R95, R444). -/
def State.issueTurn (s : State) (r : TRef) : Out :=
  match s.team? r with
  | none => .next s
  | some (b, t) =>
    if t.ended then .next s
    else if t.trap.isSome then execTrapEntry r s
    else match t.wait with
      | some w => s.waitTurn r b t w
      | none =>
        if b.place != .resident || (!b.live && t.halted && !s.sameCycle b t) then .next s else s.throttled r b t

/-- An MMA taken, or a drawer's tile reserved, from where the word parked: its chain issues in the same move, or neither happens (R88,
R310, R315; log entry 119). -/
def State.takeTurn (s : State) (r : TRef) (given : Out) : Out :=
  match given with
  | .next s1 =>
    if s1.due = some r then
      (match s1.issueTurn r with
       | .next s2 => if s2.due.isNone then .next s2 else s.issueTurn r
       | o => o)
    else .next s1
  | o => o

/-- INTERRUPT_ENTRY as a move: where the team does not wait, a trap of the chain at the boundary comes first (R393). -/
def State.interruptTurn (s : State) (r : TRef) : Out :=
  match s.team? r with
  | some (b, t) => if s.interruptDue b t && t.wait.isNone then s.issueTurn r else execInterruptEntry r s
  | none => .next s

/-- A step of a unit, or of software outside the cores: what is taken or reserved for a chain, and an interrupt, come with the team's
turn. -/
def State.unitMove (s : State) : Instr → Out
  | .mmaTake r => s.takeTurn r (execMmaTake r s)
  | .drawerReservation r => s.takeTurn r (execDrawerReservation r s)
  | .interruptEntry r => s.interruptTurn r
  | i => exec i s

/-! ### A clock cycle (R447 to R449, R369, R428) -/

/-- A core's stall counters after a cycle with teams of these codes. -/
def addCodes (l : List (BitVec 48)) (codes : List Nat) : List (BitVec 48) :=
  codes.foldl (fun l c => l.set c (l.getD c 0#48 + 1#48)) l

/-- A team of a block as it would stand after a turn in this cycle, made whether or not a halt keeps the block back. -/
def State.wouldBe (s : State) (b : Block) (t : Team) : Option Team :=
  let r : TRef := ⟨b.id, t.idx⟩
  let s0 := (s.updBlock b.id fun x => { x with halt := false }).updTeam r fun u => { u with reason := .pipe }
  match s0.issueTurn r with
  | .next s1 => (s1.team? r).map fun p => p.2
  | _ => none

/-- Whether a team that has had a turn has got on: it has issued, ended, taken a trap or left a wait. -/
def Team.gotOn (t u : Team) : Bool :=
  u.issued || u.ended || u.pc != t.pc || u.trap.isSome != t.trap.isSome || u.handler != t.handler || u.wait.isSome != t.wait.isSome

/-- The code of a team in a cycle (R448): 15 where it issued a word; DEBUG where it is halted for a stop; else the highest stall reason
that applies to it now, which is the one that a turn would give it. A team that could get on is ready, and waits for the pipe, or for
the end of a halt. -/
def State.codeOf (s : State) (b : Block) (t : Team) : Nat :=
  if t.issued then 15
  else if t.ended then Reason.code .idle
  else if b.stopped && t.halted then Reason.code .debug
  else
    let now := match s.wouldBe b t with
      | some u => if t.gotOn u then Reason.code (if b.halt && t.halted then .idle else .pipe) else u.stall.code
      | none => t.stall.code
    max now (if t.run.ended && !t.runDone then Reason.code .switch else 0)

/-- The codes of the teams of the blocks that are resident on cores, each kept with its team and counted in its core's stall counters
(R448, R449). -/
def State.countStalls (s : State) : State :=
  s.blocks.foldl (fun z b =>
    if b.place = .resident && b.bureau.isNone then
      let codes := b.teams.map (s.codeOf b)
      (z.updCore b.core fun x => { x with stall := addCodes x.stall codes }).updBlock b.id fun x =>
        { x with teams := List.zipWith (fun t c => { t with code := c }) x.teams codes }
    else z) s

/-- A team after a cycle: what it issued in the cycle is over. -/
def Team.tick (t : Team) : Team := { t with issued := false }

/-- A block after a cycle: one that a command has resumed goes on once its engines' work is performed (R464). -/
def State.tickBlock (s : State) (b : Block) : Block :=
  let b1 : Block := { b with teams := b.teams.map Team.tick }
  if b.resuming && !s.engineBusy b then b1.unstop else b1

/-- The watchdog of a context on each die (R446, R447): it restarts where no team is resident, and stands while the context has a
stopped block. -/
def State.tickAlive (s : State) (c : Ctx) : Ctx :=
  { c with alive := c.alive.zipIdx.map fun p =>
      if !s.residentOn c.tag p.2 then s.clock + 1 else if s.frozen c.tag then p.1 + 1 else p.1 }

/-- A corrected-error counter saturates (R428). -/
def satInc (x : BitVec 48) : BitVec 48 := if x = BitVec.allOnes 48 then x else x + 1#48

/-- A die after a cycle: the capture takes the cycle's records (R438), and it has measured its power and a corrected error that it
may count (R369, R428); free values. -/
def Die.measure (d : Die) (v : Dword) : Die :=
  { d.capture with pwr := v.setWidth 16
                   cerr := if v.getLsbD 16 then updAt satInc d.cerr (natBits v.toNat 24 8 % 20 + 1) else d.cerr }

/-- The dies after a cycle, each with a free value of its own. -/
def State.measureAll (s : State) : State :=
  (List.range s.dies.length).foldl (fun s e => match s.fresh with | (v, s1) => s1.updDie e fun d => d.measure v) s

/-- A clock cycle. -/
def State.cycle (s : State) : State :=
  let s1 := s.countStalls
  let s2 := { s1 with
    clock := s1.clock + 1
    ctxs := s1.ctxs.map s1.tickAlive
    blocks := s1.blocks.map s1.tickBlock }
  s2.measureAll

/-! ### The order of moves (log entry 7) -/

/-- Whether an instruction is a step of a unit or of software outside the cores, and no word. -/
def isStep (i : Instr) : Bool := i.hd.isNone && i != .brk

/-- A move made. -/
def State.move (s : State) : Turn → Out
  | .issue r => s.issueTurn r
  | .apart r => (match { s with apart := true }.issueTurn r with | .next s1 => .next { s1 with apart := false } | o => o)
  | .unit i => if isStep i then s.unitMove i else .next s
  | .outside i q => if isStep i then { s with input := q }.unitMove i else .next s
  | .lane r n l => .next (s.laneTurn r n l)
  | .element n k => .next (s.element n k)
  | .granule b z g => .next (s.granule b z.toNat g)
  | .cache m => .next (s.cacheMove m)
  | .tick => .next s.cycle

/-- What follows every move: writes of units that nothing holds any more are made (R425), errors that a fill has met end their contexts
(R404), absences that are over are forgotten (R203), the PHL sends an interrupt message while HINT lets it (R421; log entry 117), the
pages of tree launches that have become resident are kept (R64), and the turn is counted. -/
def State.after (s : State) : State :=
  let s0 := s.flushUnits.settleHurt.forgetPast.clearAbsent
  let s1 := { s0 with trees := s0.trees.map s0.keepFills }
  { s1 with turns := s1.turns + 1, hostIrq := s1.hint && !s1.termq.isEmpty }

/-- The moves that a team's state may call for. -/
def Team.moves (t : Team) (s : State) (r : TRef) : List Turn :=
  (t.pend.filter fun p => p.ready.isSome).map (fun p => Turn.unit (.resultArrival r p.id))
    ++ (if t.run.ended && !t.run.writes.isEmpty then [Turn.unit (.runBoundWrite r)] else [])
    ++ t.ops.flatMap (fun o =>
      (if o.retry then [Turn.unit (.logRetry r.b o.id)] else [])
        ++ [Turn.unit (.accessPerformed r o.id)]
        ++ (if !o.sp && o.lanes.any (s.laneDue false) then
             [Turn.outside .fabricRemoteAccess { s.input with fab := .own r o.id }] else []))
    ++ (match t.want with
        | .drawer _ => if t.granted then [] else [Turn.unit (.drawerReservation r)]
        | .mma _ => if t.granted then [] else [Turn.unit (.mmaTake r)]
        | _ => [])
    ++ (if t.ended then [] else [Turn.issue r])

/-- The moves that a block's state may call for. -/
def Block.moves (b : Block) (s : State) : List Turn :=
  b.teams.flatMap (fun t => t.moves s ⟨b.id, t.idx⟩)
    ++ b.tiles.zipIdx.flatMap (fun p => if p.1.ops.isEmpty then [] else [Turn.unit (.tileOpPerform b.id (BitVec.ofNat 4 p.2))])
    ++ (if b.claims.isEmpty then [] else [Turn.unit (.cclaimGrant b.id)])
    ++ (if b.rclaims.isEmpty then [] else [Turn.unit (.rclaimGrant b.id)])
    ++ (if b.stopping.isSome then [Turn.unit (.stopComplete b.id)] else [])
    ++ (if b.place = .saved || b.place = .moving then [Turn.unit (.duskResume b.id)] else [])
    ++ (if b.teams.all fun t => t.ended then [Turn.unit (.blockEnd b.id)] else [])

/-- The move that a tree launch's phase calls for. -/
def Tree.moves (t : Tree) : List Turn :=
  match t.phase with
  | .waiting => [.unit (.census t.id)]
  | .census => [.unit (.census t.id)]
  | .shelf => [.unit (.shelfReservation t.id)]
  | .sweeping => [.unit (.nodeDispatch t.id)]
  | .report => [.unit (.sweepEnd t.id)]
  | .ending => [.unit (.sweepEnd t.id)]

/-- The moves that a die's units may call for. -/
def Die.moves (d : Die) (s : State) (e : Nat) : List Turn :=
  (if s.firing e then [Turn.unit (.patternFiring (BitVec.ofNat 2 e))] else [])
    ++ d.ports.flatMap (fun p =>
      if p.2.held.isEmpty then [] else [Turn.unit (.heldMessageAppend (BitVec.ofNat 2 e) (BitVec.ofNat 12 p.1))])
    ++ d.bins.flatMap (fun x => if x.deadline.isSome then [Turn.unit (.binTimerExpiry (BitVec.ofNat 2 e) x.idx)] else [])
    ++ (if d.tickEnd.isSome then [Turn.unit (.tickExpiry (BitVec.ofNat 2 e))] else [])
    ++ (if d.hangwd.toNat % 65536 = 0 then [] else s.ctxs.map fun c => Turn.unit (.hangWatchdogExpiry (BitVec.ofNat 2 e) c.tag))

/-- The moves that the state may call for; the last is a clock cycle. -/
def State.moves (s : State) : List Turn :=
  (if s.dawn.step < 6 && s.dawn.failed.isNone then [Turn.unit .dawn] else [])
    ++ s.dispatches.flatMap (fun d =>
      if d.flying then [Turn.unit (.donatedDispatchArrival d.id)] else [Turn.unit (.blockPlacement d.id)])
    ++ s.trees.flatMap Tree.moves
    ++ s.steals.map (fun q => Turn.unit (.stealReply q.thief))
    ++ (if s.dispatches.any fun d => d.held.isSome then [Turn.unit (.stealRequest (s.turns % 256))] else [])
    ++ s.blocks.flatMap (fun b => b.moves s)
    ++ s.copies.map (fun c => Turn.unit (.copyCompletion c.id))
    ++ s.nmsgs.map (fun m => Turn.unit (.nredContributionArrival m.id))
    ++ s.dies.zipIdx.flatMap (fun p => p.1.moves s p.2)
    ++ (if s.invHost.busy then [Turn.unit (.invalidationDone .host)] else [])
    ++ (if s.invDie0.busy then [Turn.unit (.invalidationDone .die0)] else [])
    ++ (if s.signing.isSome then [Turn.unit .signComplete] else [])
    ++ [Turn.tick]

/-- The move that comes next where the schedule names none: the moves that the state may call for, in turn. -/
def State.nextMove (s : State) : Turn := s.moves.getD (s.turns % s.moves.length) .tick

/-! ### A program placed for the next step (log entry 23) -/

/-- The context that `State.withProgram` runs in. -/
def Ctx.probe : Ctx :=
  { tag := 0#12, root := 0, tarea := 0x20000, frames := 1, claimed := [], rbase := 0x40000, rsize := 0x10000, acc0 := 0#64
    acc2 := 0#64, acc3 := 0#64, trapvec := 0#64, emuvec := 0#64, hostPort := 0, pagerPort := 1, levels := [], gens := [], past := []
    job := 0, latest := 0, phases := 1, absent := [], alive := [0, 0, 0, 0] }

/-- The dispatch of a block that takes a whole core with one team. -/
def Dispatch.probe : Dispatch :=
  { id := 0, kind := .flat, tag := 0#12, slot := 0
    shape := { teams := 1, wm := 1, regs := 64, spad := 256, slots := 32, tiles := 16, role := 0#64, entry := 0#56 }
    args := [], next := 0, total := 1, num := 0, first := 0, count := 1, pair := false, cursor := 0, held := none, flying := false
    node := none, tree := none, future := none, regions := [], after := [], rspad := 0, records := [], rw := 0 }

/-- The page of `State.withProgram`: virtual address 0, 64 KiB, every permission. -/
def State.probePage (s : State) : TlbEntry :=
  { tag := 0#12, page := 0, size := 0x10000, frame := s.pod.toNat * 2 ^ 48 + 0x10000, perm := 0xF#4 }

/-- The state with bytes at virtual address 0 of a context with tag 0, and a team of it that issues next at address 0. -/
def State.withProgram (s : State) (bs : List Byte) : State :=
  let s1 := s.pmWr (s.pod.toNat * 2 ^ 48 + 0x10000) bs
  let s2 := { s1 with
    ctxs := Ctx.probe :: s1.ctxs
    tlb1 := entryPut s1.tlb1 0 (s.probePage :: (entry? s1.tlb1 0).getD [])
    schedule := .issue ⟨s1.nextId, 0⟩ :: s1.schedule
    nextId := s1.nextId + 1 }
  s2.startBlock Dispatch.probe s1.nextId 0 0 none

end Sys2Proof.Machine
end

