-- ==== Sys2Proof/Machine/Step.lean ====
section
/-! DEFINITION. One step of the machine: the schedule's next move, and what follows every move. -/

namespace Sys2Proof.Machine

/-- One step: the first move of the schedule, or the next move in turn where the schedule is empty (log entry 7). -/
def step (s : State) : Host.Outcome State Fault Refusal :=
  let o := match s.schedule with
    | t :: ts => { s with schedule := ts }.move t
    | [] => s.move s.nextMove
  match o with
  | .next s1 => .next s1.after
  | .fault f => .fault f
  | .refused r => .refused r

/-- The state with the instruction of a table's word stored where the next step fetches it: a context with tag 0, its page
at virtual address 0, and a block of one team on core 0 that issues next (log entry 23). -/
def State.withFetchWord (s : State) (nbits w : Nat) : State := s.withProgram (natBytes 12 (w % 2 ^ nbits))

end Sys2Proof.Machine
end

