-- ==== Sys2Proof/Safety.lean ====
section
/-! DEFINITION. What counts as a safe run, and the words in which statements speak of a state and of an instruction that issues. -/

namespace Sys2Proof.Machine

/-- The machine runs on from a state for ever: no step ends in a fault or a refusal. -/
def State.Runs (s : State) : Prop := ∀ k, ∃ t, Host.Core.run Sys2Proof.core k s = .next t

/-- Team `t` of block `b` is issuing, and none of the registers that its word names holds it back: each exists (R97), none is
pending from an earlier chain (R92), and where the word's result is scoreboarded no run-bound write of its destination is still
in its latency (R92). -/
structure State.Free (s : State) (regs dests : List RegName) (scored : Bool) (b : Block) (t : Team) : Prop where
  team : s.team? s.cur.r = some (b, t)
  here : t.absent (regs ++ dests) = false
  clear : t.pending s.cur.base (regs ++ dests) = false
  quiet : (scored && t.runBusy s.clock dests) = false

end Sys2Proof.Machine
end

