-- ==== Sys2Proof/Certificates/Slice0/Obligations.lean ====
section
/-! DEFINITION. The statements about the machine, from the spec's numbered rules; first, for each family, the tables of the spec as
functions of the instruction. -/

namespace Sys2Proof.Claims
open Sys2Proof.Machine

/-! ### Uniform arithmetic (R117 to R119) -/

/-- A word of classes 1 to 3 as R117 to R119 describe it: header, destination, the w registers it reads, and the new value of the
destination as a function of the old one and of the operands' values. -/
structure ScalarRow where
  h : Hd
  d : BitVec 6
  srcs : List (BitVec 6)
  val : Dword → List Dword → Dword

/-- The shift count of R117: bits [5:0]. -/
def cnt (y : Dword) : Nat := y.toNat % 64

/-- The results of R117, on exact integers. -/
def addR (x y : Dword) : Dword := BitVec.ofNat 64 (x.toNat + y.toNat)
def subR (x y : Dword) : Dword := BitVec.ofInt 64 (x.toInt - y.toInt)
def mulR (x y : Dword) : Dword := BitVec.ofNat 64 (x.toNat * y.toNat)
def mulhR (u : BitVec 1) (x y : Dword) : Dword :=
  if u = 0#1 then BitVec.ofInt 64 (x.toInt * y.toInt / 2 ^ 64) else BitVec.ofNat 64 (x.toNat * y.toNat / 2 ^ 64)
def shlR (x y : Dword) : Dword := BitVec.ofNat 64 (x.toNat * 2 ^ cnt y)
def shrR (x y : Dword) : Dword := BitVec.ofNat 64 (x.toNat / 2 ^ cnt y)
def sarR (x y : Dword) : Dword := BitVec.ofInt 64 (x.toInt / 2 ^ cnt y)
def minR (u : BitVec 1) (x y : Dword) : Dword :=
  if u = 0#1 then BitVec.ofInt 64 (min x.toInt y.toInt) else BitVec.ofNat 64 (min x.toNat y.toNat)
def maxR (u : BitVec 1) (x y : Dword) : Dword :=
  if u = 0#1 then BitVec.ofInt 64 (max x.toInt y.toInt) else BitVec.ofNat 64 (max x.toNat y.toNat)
def cmpR (u : BitVec 1) (x y : Dword) : Dword :=
  let lt : Bool := if u = 0#1 then decide (x.toInt < y.toInt) else decide (x.toNat < y.toNat)
  BitVec.ofInt 64 (if lt then -1 else if x = y then 0 else 1)

/-- p and l of UBFX and UBFI (R117). -/
def posR (y : Dword) : Nat := y.toNat % 64
def lenR (y : Dword) : Nat := min (y.toNat / 256 % 128) 64

/-- UBFX (R117): the field, bits above bit 63 read as zero. -/
def bfxR (u : BitVec 1) (x y : Dword) : Dword :=
  let f := x.toNat / 2 ^ posR y % 2 ^ lenR y
  if lenR y = 0 then 0#64
  else if u = 0#1 ∧ 2 ^ lenR y ≤ 2 * f then BitVec.ofInt 64 ((f : Int) - 2 ^ lenR y) else BitVec.ofNat 64 f

/-- UBFI (R117): the field's bits from `x`, every other bit from the old value. -/
def bfiR (o x y : Dword) : Dword :=
  let m : Dword := BitVec.ofNat 64 (2 ^ lenR y - 1) <<< posR y
  (o &&& ~~~m) ||| ((x <<< posR y) &&& m)

/-- A row with two sources. -/
def bin (h : Hd) (d a b : BitVec 6) (f : Dword → Dword → Dword) : Option ScalarRow :=
  some ⟨h, d, [a, b], fun _ l => f (l.getD 0 0#64) (l.getD 1 0#64)⟩

/-- The words of class 1 (R117). -/
def aluRow : Instr → Option ScalarRow
  | .uadd h d a b => bin h d a b addR
  | .usub h d a b => bin h d a b subR
  | .umul h d a b => bin h d a b mulR
  | .umulh h u d a b => bin h d a b (mulhR u)
  | .uand h d a b => bin h d a b fun x y => x &&& y
  | .uor h d a b => bin h d a b fun x y => x ||| y
  | .uxor h d a b => bin h d a b fun x y => x ^^^ y
  | .ushl h d a b => bin h d a b shlR
  | .ushr h d a b => bin h d a b shrR
  | .usar h d a b => bin h d a b sarR
  | .umin h u d a b => bin h d a b (minR u)
  | .umax h u d a b => bin h d a b (maxR u)
  | .ucmp h u d a b => bin h d a b (cmpR u)
  | .ubfx h u d a b => bin h d a b (bfxR u)
  | .ubfi h d a b => some ⟨h, d, [a, b, d], fun o l => bfiR o (l.getD 0 0#64) (l.getD 1 0#64)⟩
  | _ => none

/-- The immediate of R118: imm9, or IMMH and imm9 together, sign-extended. -/
def immR (h : Hd) (i : BitVec 9) : Dword :=
  match h.im with
  | none => BitVec.ofInt 64 i.toInt
  | some p => BitVec.ofInt 64 (p ++ i).toInt

/-- A row with a source and an immediate. -/
def imm (h : Hd) (d a : BitVec 6) (i : BitVec 9) (f : Dword → Dword → Dword) : Option ScalarRow :=
  some ⟨h, d, [a], fun _ l => f (l.getD 0 0#64) (immR h i)⟩

/-- The words of classes 2 and 3 (R118, R119). -/
def immRow : Instr → Option ScalarRow
  | .uaddImm h d a i => imm h d a i addR
  | .uandImm h d a i => imm h d a i fun x y => x &&& y
  | .uorImm h d a i => imm h d a i fun x y => x ||| y
  | .uxorImm h d a i => imm h d a i fun x y => x ^^^ y
  | .ushlImm h d a i => imm h d a i shlR
  | .ushrImm h d a i => imm h d a i shrR
  | .usarImm h d a i => imm h d a i sarR
  | .umulImm h d a i => imm h d a i mulR
  | .ului h d i =>
    some ⟨h, d, [], fun _ _ => BitVec.ofInt 64 ((match h.im with | none => i.toInt | some p => (p ++ i).toInt) * 2 ^ 24)⟩
  | _ => none

/-- That a word issues with one run-bound result in a w register, two cycles later (R91, R94, R116). -/
def scalarIssues (i : Instr) (q : ScalarRow) (s : State) (t : Team) : Prop :=
  exec i s = .next (s.issue q.h false fun u =>
    u.addRun (s.clock + 2) [.w q.d.toNat (q.val (t.rw q.d) (q.srcs.map t.rw))])

/-! ### Flow (R121 to R123) -/

/-- The packet that holds a word (R86). -/
def packetR (a : BitVec 56) : Nat := a.toNat - a.toNat % 12

/-- A target of form B or BW (R121). -/
def targetR {n : Nat} (a : BitVec 56) (o : BitVec n) : BitVec 56 := BitVec.ofInt 56 ((packetR a : Int) + 12 * o.toInt)

/-- A word of class 4 that tests and transfers (R122): its header, the registers it reads and the link it writes, whether it is
taken, its target and the value of the link. -/
structure FlowRow where
  h : Hd
  reads : List RegName
  link : Option (BitVec 6)
  taken : Team → Bool
  target : Team → BitVec 56 → BitVec 56

/-- The conditions of R122 on a mask and on a w register. -/
def maskRow (h : Hd) (k : BitVec 3) (o : BitVec 18) (c : Mask → Mask → Bool) : Option FlowRow :=
  some ⟨h, [.m k.toNat, .m 0], none, fun t => c (t.rm k &&& t.rm 0#3) (t.rm 0#3), fun _ a => targetR a o⟩
def regRow (h : Hd) (w : BitVec 6) (o : BitVec 15) (c : Int → Bool) : Option FlowRow :=
  some ⟨h, [.w w.toNat], none, fun t => c (t.rw w).toInt, fun _ a => targetR a o⟩

/-- The words of class 4 but RET, VBR and RECON (R122). -/
def flowRow : Instr → Option FlowRow
  | .jmp h o => some ⟨h, [], none, fun _ => true, fun _ a => targetR a o⟩
  | .call h w o => some ⟨h, [], some w, fun _ => true, fun _ a => targetR a o⟩
  | .brmAny h k o => maskRow h k o fun x _ => x != 0#1024
  | .brmAll h k o => maskRow h k o fun x m => x == m
  | .brmNone h k o => maskRow h k o fun x _ => x == 0#1024
  | .bruZ h w o => regRow h w o fun x => x == 0
  | .bruNz h w o => regRow h w o fun x => x != 0
  | .bruNeg h w o => regRow h w o fun x => decide (x < 0)
  | .bruNneg h w o => regRow h w o fun x => decide (0 ≤ x)
  | _ => none

/-- That `i` answers a next state in which its word has issued, and what its team then is. -/
def issuesWith (i : Instr) (s : State) (p : State → Team → Prop) : Prop :=
  ∃ t b u, exec i s = .next t ∧ t.cur.res = .issued ∧ t.team? s.cur.r = some (b, u) ∧ p t u

/-- That `i` parks its team with a stall reason: it answers a next state, and its word has not issued. -/
def parksWith (i : Instr) (s : State) (q : Reason) : Prop :=
  ∃ t b u, exec i s = .next t ∧ t.cur.res = .parked ∧ t.team? s.cur.r = some (b, u) ∧ u.reason = q

/-! ### Masks (R125) -/

/-- Lane `l` is the lowest lane of a mask among `n` lanes. -/
def lowest (m : Mask) (n l : Nat) : Prop := l < n ∧ m.getLsbD l = true ∧ ∀ k, k < l → m.getLsbD k = false

/-- Lane word `j` of a mask (R27), and its summary word (R29). -/
def laneWord (m : Mask) (j : Nat) : Nat := m.toNat / 2 ^ (32 * j) % 2 ^ 32
def summaryR (m : Mask) (x : Nat) : Prop := x < 2 ^ 32 ∧ ∀ j, j < 32 → (x.testBit j = true ↔ laneWord m j ≠ 0)

end Sys2Proof.Claims

open Sys2Proof Sys2Proof.Machine Sys2Proof.Claims

/-- R117 to R119: every word of classes 1, 2 and 3 writes w[d] the value of its row, and does nothing else; where an operand is a register
whose earlier result is awaited it waits (R92), which the hypothesis rules out. -/
def Obligations.UniformWordsWriteTheirRow : Prop :=
  (∀ (i : Instr) (q : ScalarRow) (s : State) (b : Block) (t : Team), aluRow i = some q →
    s.Free (q.srcs.map fun r => .w r.toNat) [.w q.d.toNat] false b t → scalarIssues i q s t) ∧
  (∀ (i : Instr) (q : ScalarRow) (s : State) (b : Block) (t : Team), immRow i = some q →
    s.Free (q.srcs.map fun r => .w r.toNat) [.w q.d.toNat] false b t → scalarIssues i q s t)

/-- R86, R121, R122: JMP, CALL, BRM, BRU and RET end their run; they go on at the target where they are taken, and at the next word where
not; CALL also writes the address of the next packet to its link; RET raises BADPC where w[T] is no packet start (all 64 bits of it are
tested and the low 56 are the target, the model's reading: log entry 104). -/
def Obligations.FlowWordsGoToTheirTargets : Prop :=
  (∀ (i : Instr) (q : FlowRow) (s : State) (b : Block) (t : Team), flowRow i = some q →
    s.Free q.reads (q.link.toList.map fun w => .w w.toNat) false b t →
    issuesWith i s fun _ u =>
      u.pc = (if q.taken t then q.target t s.cur.addr else s.cur.next) ∧ u.run.ended = true ∧
      u.run.writes = t.run.writes ++ q.link.toList.map fun w =>
        { write := .w w.toNat (BitVec.ofNat 64 ((packetR s.cur.addr + 12) % 2 ^ 56)), at' := s.clock + 2 }) ∧
  (∀ (h : Hd) (w : BitVec 6) (s : State) (b : Block) (t : Team), s.Free [.w w.toNat] [] false b t →
    ((t.rw w).toNat % 12 = 0 →
      issuesWith (.ret h w) s fun _ u => u.pc = (t.rw w).setWidth 56 ∧ u.run.ended = true ∧ u.run.writes = t.run.writes) ∧
    ((t.rw w).toNat % 12 ≠ 0 → exec (.ret h w) s = .next (s.trap .badpc)))

/-- R123: VBR pushes one entry, narrows m0 and goes to the taken path, or to the next packet where no lane takes it, and with 32 entries it
raises RSTACK; RECON switches to the pending path, or restores the outer mask and pops, and with no entry it raises RSTACK; $rdepth
reads the number of entries. -/
def Obligations.ReconvergenceSwitchesAndPops : Prop :=
  (∀ (h : Hd) (k : BitVec 3) (o : BitVec 18) (s : State) (b : Block) (t : Team), s.Free [.m k.toNat, .m 0] [] false b t →
    (t.stack.length = 32 → exec (.vbr h k o) s = .next (s.trap .rstack)) ∧
    (t.stack.length ≠ 32 →
      let yes := t.rm 0#3 &&& t.rm k
      let no := t.rm 0#3 &&& ~~~(t.rm k)
      let fall := BitVec.ofNat 56 (packetR s.cur.addr + 12)
      issuesWith (.vbr h k o) s fun _ u =>
        u.run.ended = true ∧
        u.stack = t.stack ++ [{ outer := t.rm 0#3, pending := if yes = 0#1024 then 0#1024 else no, pc := fall }] ∧
        u.pc = (if yes = 0#1024 then fall else targetR s.cur.addr o) ∧
        u.run.writes = t.run.writes ++ [{ write := .m 0 (if yes = 0#1024 then no else yes), at' := s.clock }])) ∧
  (∀ (h : Hd) (s : State) (b : Block) (t : Team), s.Free [] [] false b t →
    (t.stack = [] → exec (.recon h) s = .next (s.trap .rstack)) ∧
    (∀ (l : List Recon) (e : Recon), t.stack = l ++ [e] → e.pending ≠ 0#1024 →
      issuesWith (.recon h) s fun _ u =>
        u.run.ended = true ∧ u.stack = l ++ [{ e with pending := 0#1024 }] ∧ u.pc = e.pc ∧
        u.run.writes = t.run.writes ++ [{ write := .m 0 e.pending, at' := s.clock }]) ∧
    (∀ (l : List Recon) (e : Recon), t.stack = l ++ [e] → e.pending = 0#1024 →
      issuesWith (.recon h) s fun _ u =>
        u.run.ended = true ∧ u.stack = l ∧ u.pc = s.cur.next ∧
        u.run.writes = t.run.writes ++ [{ write := .m 0 e.outer, at' := s.clock }])) ∧
  (∀ (s : State) (b : Block) (t : Team), s.ctlRead b t 18 = BitVec.ofNat 64 t.stack.length)

/-- R125: MAND, MOR, MXOR and MANDN, with ALL for the first operand; MLEAD, MFIRST and MCOUNT; MSETW writes one lane word and has no effect
with wb at or above W; MGETW reads a lane word, the summary word at 32, and 0 otherwise. -/
def Obligations.MaskWordsFollowTheirTable : Prop :=
  (∀ (h : Hd) (l : BitVec 1) (d a b : BitVec 3) (s : State) (bl : Block) (t : Team),
    s.Free ((if l = 1#1 then [] else [.m a.toNat]) ++ [.m b.toNat]) [.m d.toNat] false bl t →
    let x := if l = 1#1 then maskAll t.lanes else t.rm a
    let gives (i : Instr) (m : Mask) : Prop :=
      exec i s = .next (s.issue h false fun u => u.addRun (s.clock + 2) [.m d.toNat m])
    gives (.mand h l d a b) (x &&& t.rm b) ∧ gives (.mor h l d a b) (x ||| t.rm b) ∧
    gives (.mxor h l d a b) (x ^^^ t.rm b) ∧ gives (.mandn h l d a b) (x &&& ~~~(t.rm b))) ∧
  (∀ (h : Hd) (d : BitVec 6) (e a : BitVec 3) (s : State) (bl : Block) (t : Team), t.lanes ≤ 1024 →
    (s.Free [.m a.toNat] [.m e.toNat] false bl t →
      ∃ x : Mask, exec (.mlead h e a) s = .next (s.issue h false fun u => u.addRun (s.clock + 2) [.m e.toNat x]) ∧
        ∀ l, x.getLsbD l = true ↔ lowest (t.rm a) t.lanes l) ∧
    (s.Free [.m a.toNat] [.w d.toNat] false bl t →
      (∃ x : Dword, exec (.mfirst h d a) s = .next (s.issue h false fun u => u.addRun (s.clock + 2) [.w d.toNat x]) ∧
        (∀ l, lowest (t.rm a) t.lanes l → x = BitVec.ofNat 64 l) ∧
        ((∀ l, l < t.lanes → (t.rm a).getLsbD l = false) → x = BitVec.allOnes 64)) ∧
      exec (.mcount h d a) s = .next (s.issue h false fun u => u.addRun (s.clock + 2)
        [.w d.toNat (BitVec.ofNat 64 ((List.range t.lanes).countP fun l => (t.rm a).getLsbD l))]))) ∧
  (∀ (h : Hd) (d : BitVec 6) (e a : BitVec 3) (p q : BitVec 6) (s : State) (bl : Block) (t : Team),
    (s.Free [.w p.toNat, .w q.toNat] [.m e.toNat] false bl t →
      exec (.msetw h e p q) s = .next (s.issue h false fun u =>
        if (t.rw q).toNat < ceilDiv t.lanes 32 then
          u.addRun (s.clock + 2) [.mw e.toNat (t.rw q).toNat (BitVec.ofNat 32 (t.rw p).toNat)]
        else u)) ∧
    (s.Free [.m a.toNat, .w q.toNat] [.w d.toNat] false bl t →
      ∃ x : Dword, exec (.mgetw h d a q) s = .next (s.issue h false fun u => u.addRun (s.clock + 2) [.w d.toNat x]) ∧
        ((t.rw q).toNat < ceilDiv t.lanes 32 → x.toNat = laneWord (t.rm a) (t.rw q).toNat) ∧
        (ceilDiv t.lanes 32 ≤ (t.rw q).toNat → (t.rw q).toNat ≠ 32 → x = 0#64) ∧
        (ceilDiv t.lanes 32 ≤ 32 → (t.rw q).toNat = 32 → summaryR (t.rm a) x.toNat)))

namespace Sys2Proof.Claims
open Sys2Proof.Machine

/-! ### Vector words (R153 to R174) -/

/-- A word of classes 6 to 13 with a vector destination: header, governing mask, whether it is a pair word, latency, destination,
the registers it reads besides the mask, and the value of each active lane. -/
structure LaneRow where
  h : Hd
  k : BitVec 3
  wide : Bool
  lat : Nat
  d : BitVec 6
  srcs : List RegName
  val : Team → Nat → Nat

/-- That a word issues with one run-bound vector result: each active lane receives its row's value, every other lane keeps its
own (R153), in the cycle of its last pass and the latency (R94, R154). -/
def laneIssues (i : Instr) (q : LaneRow) (s : State) (t : Team) : Prop :=
  exec i s = .next (s.issue q.h false fun u =>
    u.addRun (s.clock + vDue (t.rm q.k) q.wide q.lat)
      (vWrite q.wide q.d.toNat t.lanes fun l => if (t.rm q.k).getLsbD l then some (q.val t l) else none))

/-- A value of `n` bits as an integer of a signed or unsigned type (R158). -/
def intR (g : Bool) (n x : Nat) : Int :=
  if g = true ∧ 2 ^ n ≤ 2 * (x % 2 ^ n) then ((x % 2 ^ n : Nat) : Int) - 2 ^ n else ((x % 2 ^ n : Nat) : Int)

/-- An exact integer in `n` bits: modulo 2^n, or with SAT clamped to the range of the type (R158). -/
def fitR (g sat : Bool) (n : Nat) (x : Int) : Nat :=
  let lo : Int := if g then -2 ^ (n - 1) else 0
  let hi : Int := if g then 2 ^ (n - 1) - 1 else 2 ^ n - 1
  ((if sat then max lo (min hi x) else x) % 2 ^ n).toNat

/-- The results of R158 on two values: width, signedness, SAT. -/
abbrev LaneOp := Nat → Bool → Bool → Nat → Nat → Nat
def vaddR : LaneOp := fun n g z x y => fitR g z n (intR g n x + intR g n y)
def vsubR : LaneOp := fun n g z x y => fitR g z n (intR g n x - intR g n y)
def vmulR : LaneOp := fun n g z x y => fitR g z n (intR g n x * intR g n y)
def vmulhR : LaneOp := fun n g _ x y => fitR g false n (intR g n x * intR g n y / 2 ^ n)
def vshlR : LaneOp := fun n _ _ x y => x * 2 ^ (y % n) % 2 ^ n
def vshrR : LaneOp := fun n _ _ x y => x % 2 ^ n / 2 ^ (y % n)
def vsarR : LaneOp := fun n _ _ x y => fitR true false n (intR true n x / 2 ^ (y % n))
def vminR : LaneOp := fun n g _ x y => fitR g false n (min (intR g n x) (intR g n y))
def vmaxR : LaneOp := fun n g _ x y => fitR g false n (max (intR g n x) (intR g n y))

/-- VBFX and VBFI (R158). -/
def vbfxR (g : Bool) (x y : Nat) : Nat :=
  let l := min (y / 256 % 64) 32
  fitR g false 32 (if l = 0 then 0 else intR g l (x % 2 ^ 32 / 2 ^ (y % 32)))
def vbfiR (o x y : Nat) : Nat :=
  let m : Word := BitVec.ofNat 32 (2 ^ min (y / 256 % 64) 32 - 1) <<< (y % 32)
  ((BitVec.ofNat 32 o &&& ~~~m) ||| ((BitVec.ofNat 32 x <<< (y % 32)) &&& m)).toNat

/-- A row of two sources, whose type is the prefix's or .s32 (R156). -/
def vbin (h : Hd) (k : BitVec 3) (d a b : BitVec 6) (f : LaneOp) : Option LaneRow :=
  let w := is64 (h.ty 4#4)
  some ⟨h, k, w, 4, d, vName w a ++ vName w b, fun t l =>
    f (if w then 64 else 32) (isSigned (h.ty 4#4)) h.sat (t.rvN w a.toNat l) (t.rvN w b.toNat l)⟩

/-- A row of a source and an immediate, governed by m0 or the MV prefix (R101, R159). -/
def vimmRow (h : Hd) (d a : BitVec 6) (i : BitVec 9) (f : LaneOp) : Option LaneRow :=
  some ⟨h, h.mk0, false, 4, d, [.v a.toNat], fun t l =>
    f 32 (isSigned (h.ty 4#4)) h.sat (t.rvN false a.toNat l)
      (match h.im with | none => (BitVec.ofInt 32 i.toInt).toNat | some p => (p ++ i).toNat)⟩

/-- The dot product of R166. -/
def dotR (g z : Bool) (o x y : Nat) : Nat :=
  fitR g z 32 (intR g 32 o + ((List.range 4).map fun k => intR g 8 (x / 2 ^ (8 * k)) * intR g 8 (y / 2 ^ (8 * k))).sum)

/-- The words of classes 6 and 7, and VDOT4 (R158, R159, R166). -/
def vintRow : Instr → Option LaneRow
  | .vadd h k d a b => vbin h k d a b vaddR
  | .vsub h k d a b => vbin h k d a b vsubR
  | .vmul h k d a b => vbin h k d a b vmulR
  | .vmulh h k d a b => vbin h k d a b vmulhR
  | .vand h k d a b => vbin h k d a b fun _ _ _ x y => x &&& y
  | .vor h k d a b => vbin h k d a b fun _ _ _ x y => x ||| y
  | .vxor h k d a b => vbin h k d a b fun _ _ _ x y => x ^^^ y
  | .vshl h k d a b => vbin h k d a b vshlR
  | .vshr h k d a b => vbin h k d a b vshrR
  | .vsar h k d a b => vbin h k d a b vsarR
  | .vmin h k d a b => vbin h k d a b vminR
  | .vmax h k d a b => vbin h k d a b vmaxR
  | .vabs h k d a => some ⟨h, k, false, 4, d, [.v a.toNat], fun t l =>
      fitR true h.sat 32 (intR true 32 (t.rvN false a.toNat l)).natAbs⟩
  | .vbfx h k d a b => some ⟨h, k, false, 4, d, [.v a.toNat, .v b.toNat], fun t l =>
      vbfxR (isSigned (h.ty 4#4)) (t.rvN false a.toNat l) (t.rvN false b.toNat l)⟩
  | .vbfi h k d a b => some ⟨h, k, false, 4, d, [.v a.toNat, .v b.toNat, .v d.toNat], fun t l =>
      vbfiR (t.rvN false d.toNat l) (t.rvN false a.toNat l) (t.rvN false b.toNat l)⟩
  | .vaddImm h d a i => vimmRow h d a i vaddR
  | .vandImm h d a i => vimmRow h d a i fun _ _ _ x y => x &&& y
  | .vorImm h d a i => vimmRow h d a i fun _ _ _ x y => x ||| y
  | .vxorImm h d a i => vimmRow h d a i fun _ _ _ x y => x ^^^ y
  | .vshlImm h d a i => vimmRow h d a i vshlR
  | .vshrImm h d a i => vimmRow h d a i vshrR
  | .vsarImm h d a i => vimmRow h d a i vsarR
  | .vmulImm h d a i => vimmRow h d a i vmulR
  | .vmovImm h d i => some ⟨h, h.mk0, false, 4, d, [], fun _ _ =>
      match h.im with | none => (BitVec.ofInt 32 i.toInt).toNat | some p => (p ++ i).toNat⟩
  | .vdot4 h k d a b => some ⟨h, k, false, 8, d, [.v a.toNat, .v b.toNat, .v d.toNat], fun t l =>
      dotR (isSigned (h.ty 0#4)) h.sat (t.rvN false d.toNat l) (t.rvN false a.toNat l) (t.rvN false b.toNat l)⟩
  | _ => none

/-- Rows of floating-point words of a format: two operands, three with the destination, one. -/
def f2 (h : Hd) (k : BitVec 3) (lat : Nat) (f : Fmt) (d a b : BitVec 6) (g : FEnv → Nat → Nat → Nat) : Option LaneRow :=
  let w := decide (f.width = 64)
  some ⟨h, k, w, lat, d, vName w a ++ vName w b, fun t l => g (t.fenv h f) (t.rvN w a.toNat l) (t.rvN w b.toNat l)⟩
def f3 (h : Hd) (k : BitVec 3) (lat : Nat) (f : Fmt) (d a b : BitVec 6) : Option LaneRow :=
  let w := decide (f.width = 64)
  some ⟨h, k, w, lat, d, vName w a ++ vName w b ++ vName w d, fun t l =>
    f.fma (t.fenv h f) (t.rvN w a.toNat l) (t.rvN w b.toNat l) (t.rvN w d.toNat l)⟩
def f1 (h : Hd) (k : BitVec 3) (lat : Nat) (f : Fmt) (d a : BitVec 6) (g : FEnv → Nat → Nat) : Option LaneRow :=
  let w := decide (f.width = 64)
  some ⟨h, k, w, lat, d, vName w a, fun t l => g (t.fenv h f) (t.rvN w a.toNat l)⟩

/-- The words of classes 8 and 9 (R161, R164): binary32 and, on pairs, binary64; the operations of `Fmt` round the exact result
once in the word's mode (R160). FABS and FNEG set and invert bit 31. -/
def floatRow : Instr → Option LaneRow
  | .fadd h k d a b => f2 h k 4 f32 d a b f32.add
  | .fsub h k d a b => f2 h k 4 f32 d a b f32.sub
  | .fmul h k d a b => f2 h k 4 f32 d a b f32.mul
  | .ffma h k d a b => f3 h k 4 f32 d a b
  | .fmin h k d a b => f2 h k 4 f32 d a b fun _ => f32.minmax false
  | .fmax h k d a b => f2 h k 4 f32 d a b fun _ => f32.minmax true
  | .fabs h k d a => f1 h k 4 f32 d a fun _ x => x % 2 ^ 31
  | .frcp h k d a => f1 h k 16 f32 d a f32.rcp
  | .frsq h k d a => f1 h k 16 f32 d a f32.rsq
  | .fsqrt h k d a => f1 h k 16 f32 d a f32.sqrt
  | .fdiv h k d a b => f2 h k 16 f32 d a b f32.div
  | .fexp2 h k d a => f1 h k 16 f32 d a fexp2
  | .flog2 h k d a => f1 h k 16 f32 d a flog2
  | .fneg h k d a => f1 h k 4 f32 d a fun _ x => (x + 2 ^ 31) % 2 ^ 32
  | .dadd h k d a b => f2 h k 8 f64 d a b f64.add
  | .dsub h k d a b => f2 h k 8 f64 d a b f64.sub
  | .dmul h k d a b => f2 h k 8 f64 d a b f64.mul
  | .dfma h k d a b => f3 h k 8 f64 d a b
  | .dmin h k d a b => f2 h k 8 f64 d a b fun _ => f64.minmax false
  | .dmax h k d a b => f2 h k 8 f64 d a b fun _ => f64.minmax true
  | .ddiv h k d a b => f2 h k 32 f64 d a b f64.div
  | .dsqrt h k d a => f1 h k 32 f64 d a f64.sqrt
  | _ => none

/-- Two halves of a lane computed alone (R165): half 0 is bits [15:0], half 1 bits [31:16]. -/
def halfRow (h : Hd) (k : BitVec 3) (d a b : BitVec 6) (srcs : List RegName) (g : Fmt → FEnv → Nat → Nat → Nat → Nat) :
    Option LaneRow :=
  let f := fmtOf (h.ty 8#4).toNat
  some ⟨h, k, false, 8, d, srcs, fun t l =>
    let p (j : Nat) : Nat := g f (t.fenv h f) (t.rvN false a.toNat l / 2 ^ (16 * j) % 2 ^ 16)
      (t.rvN false b.toNat l / 2 ^ (16 * j) % 2 ^ 16) (t.rvN false d.toNat l / 2 ^ (16 * j) % 2 ^ 16)
    p 0 + 2 ^ 16 * p 1⟩

/-- Class 10, fn 0 to 5 (R165): binary16, or bfloat16 by TYPE; the minimum and maximum read their operands under the flush bit, which
R160 does not exempt them from (R183). -/
def halvesRow : Instr → Option LaneRow
  | .hadd2 h k d a b => halfRow h k d a b [.v a.toNat, .v b.toNat] fun f v x y _ => f.add v x y
  | .hsub2 h k d a b => halfRow h k d a b [.v a.toNat, .v b.toNat] fun f v x y _ => f.sub v x y
  | .hmul2 h k d a b => halfRow h k d a b [.v a.toNat, .v b.toNat] fun f v x y _ => f.mul v x y
  | .hfma2 h k d a b => halfRow h k d a b [.v a.toNat, .v b.toNat, .v d.toNat] fun f v x y z => f.fma v x y z
  | .hmin2 h k d a b => halfRow h k d a b [.v a.toNat, .v b.toNat] fun f v x y _ => f.minmax false (f.flush v.fz x) (f.flush v.fz y)
  | .hmax2 h k d a b => halfRow h k d a b [.v a.toNat, .v b.toNat] fun f v x y _ => f.minmax true (f.flush v.fz x) (f.flush v.fz y)
  | _ => none

/-! Rounding (R160 to R163, R176, R177, R181, R183, R184), in units of a format's least subnormal value -/

/-- The formats in which the float words compute. -/
def fpFormats : List Fmt := [f64, f32, f16, bf16]

/-- The sign of an encoding, its magnitude, the magnitude of an infinity, above which NaNs lie, and an encoding of these (R176). -/
def fpSign (f : Fmt) (x : Nat) : Bool := x.testBit (f.ebits + f.fbits)
def fpMag (f : Fmt) (x : Nat) : Nat := x % 2 ^ (f.ebits + f.fbits)
def fpInf (f : Fmt) : Nat := (2 ^ f.ebits - 1) * 2 ^ f.fbits
def fpEnc (f : Fmt) (s : Bool) (k : Nat) : Nat := (if s then 2 ^ (f.ebits + f.fbits) else 0) + k

/-- The value of a magnitude in units of the least subnormal value; of that of an infinity, the value that would come after the largest
finite one; and the units in 1 (R176). -/
def fpUnits (f : Fmt) (k : Nat) : Nat :=
  if k < 2 ^ f.fbits then k else (2 ^ f.fbits + k % 2 ^ f.fbits) * 2 ^ (k / 2 ^ f.fbits - 1)
def fpOne (f : Fmt) : Nat := 2 ^ (2 ^ (f.ebits - 1) + f.fbits - 2)

/-- A value with its sign. -/
def fpInt (f : Fmt) (x : Nat) : Int := if fpSign f x then -(fpUnits f (fpMag f x)) else fpUnits f (fpMag f x)

/-- A value under a flush bit: 0 of its sign where it is below 2^-126, of binary64 below 2^-1022 (R183). -/
def fpFlush (f : Fmt) (fz : Bool) (x : Nat) : Nat :=
  if fz ∧ fpMag f x ≠ 0 ∧ fpMag f x < fpInf f ∧ fpUnits f (fpMag f x) * 2 ^ (if f = f64 then 1022 else 126) < fpOne f then
    fpEnc f (fpSign f x) 0
  else x

/-- The magnitude that rounds an exact one of sign `s` (R181, with IEEE 754's overflow, R160). `o c` compares `c` half units with it. -/
def fpRounds (f : Fmt) (md : RMode) (s : Bool) (o : Nat → Ordering) (k : Nat) : Prop :=
  let u := fpUnits f
  let down : Prop := k < fpInf f ∧ o (2 * u k) ≠ .gt ∧ (k + 1 = fpInf f ∨ o (2 * u (k + 1)) = .gt)
  let up : Prop := k ≤ fpInf f ∧ (k = fpInf f ∨ o (2 * u k) ≠ .lt) ∧ (k = 0 ∨ o (2 * u (k - 1)) = .lt)
  match md with
  | .rn => k ≤ fpInf f ∧ (k = 0 ∨ o (u (k - 1) + u k) = .lt ∨ o (u (k - 1) + u k) = .eq ∧ k % 2 = 0) ∧
      (k = fpInf f ∨ o (u k + u (k + 1)) = .gt ∨ o (u k + u (k + 1)) = .eq ∧ k % 2 = 0)
  | .rz => down
  | .ru => if s then down else up
  | .rd => if s then up else down

/-- `y` is the exact result of sign `s` and of the magnitude that `o` tells, rounded once and then flushed (R160, R181, R183). -/
def fpResult (f : Fmt) (v : FEnv) (s : Bool) (o : Nat → Ordering) (y : Nat) : Prop :=
  ∃ k, fpRounds f v.md s o k ∧ y = fpFlush f v.fz (fpEnc f s k)

/-- The magnitude p ÷ q, and the square root of p ÷ q. -/
def fpFrac (p q : Nat) : Nat → Ordering := fun c => compare (c * q) (2 * p)
def fpRoot (p q : Nat) : Nat → Ordering := fun c => compare (c * c * q) (4 * p)

/-- The sign of a sum of terms: an exact zero is negative if both terms are zeros of that sign, and of other zeros in the mode towards
minus infinity alone, as IEEE 754 has it. -/
def fpSumSign (md : RMode) (x y : Int) (s t : Bool) : Bool :=
  if x + y = 0 then (if x = 0 ∧ s = t then s else decide (md = .rd)) else decide (x + y < 0)

/-- An encoding of the format; it is a NaN, an infinity, or finite. -/
def fpWord (f : Fmt) (x : Nat) : Prop := x < 2 ^ (1 + f.ebits + f.fbits)
def fpNan (f : Fmt) (x : Nat) : Prop := fpInf f < fpMag f x
def fpFin (f : Fmt) (x : Nat) : Prop := fpMag f x < fpInf f

/-- A NaN made quiet, and the default NaN (R177, R184). -/
def fpQuiet (f : Fmt) (x : Nat) : Nat := x ||| 2 ^ (f.fbits - 1)
def fpDefault (f : Fmt) : Nat := fpInf f + 2 ^ (f.fbits - 1)

/-- The order of R163: by value, -0 below +0. -/
def fpLe (f : Fmt) (x y : Nat) : Prop := fpInt f x < fpInt f y ∨ fpInt f x = fpInt f y ∧ (fpSign f x = true ∨ fpSign f y = false)

/-- A governed lane's operand as the combining operation reads it: a floating-point one under the flush bit (R172, R183). -/
def leafR (t : Team) (k : BitVec 3) (w : Bool) (a : BitVec 6) (o : BitVec 4) (l : Nat) : Option Nat :=
  let f := if w then f64 else f32
  (t.govern k w a l).map fun x => if o ∈ [8#4, 9#4, 10#4, 12#4, 13#4, 14#4] then f.flush (f.fz t.fpmode) x else x

/-- Class 13 words with a vector destination written in active lanes (R170, R174). -/
def moveRow : Instr → Option LaneRow
  | .vshuf h k d a b =>
    let w := is64 (h.ty 5#4)
    some ⟨h, k, w, 4, d, vName w a ++ [.v b.toNat], fun t l =>
      let j := (t.rv b.toNat l).toNat
      if j < t.lanes then t.rvN w a.toNat j else 0⟩
  | .vbcast h k d a b =>
    let w := is64 (h.ty 5#4)
    some ⟨h, k, w, 4, d, vName w a ++ [.w b.toNat], fun t _ =>
      if (t.rw b).toNat < t.lanes then t.rvN w a.toNat (t.rw b).toNat else 0⟩
  | .vmov h k d a =>
    let w := is64 (h.ty 5#4)
    some ⟨h, k, w, 4, d, vName w a, fun t l => t.rvN w a.toNat l⟩
  | .vmovw h k d a =>
    let w := is64 (h.ty 5#4)
    some ⟨h, k, w, 4, d, [.w a.toNat], fun t _ => if w then (t.rw a).toNat else (t.rw a).toNat % 2 ^ 32⟩
  | .vscan h k d a e o =>
    let w := laneOp64 o
    some ⟨h, k, w, 8, d, vName w a, fun t l =>
      (scanAt (laneComb o.toNat (t.fenv h (if w then f64 else f32))) (leafR t k w a o) (e = 1#1) l).getD (laneId o.toNat)⟩
  | _ => none

/-- The tests of R169, on integers or on floating-point values; `nan` tells whether an operand is a NaN. -/
def testR (ty : BitVec 4) (lt eq : Bool) (nan : Bool) : Instr → Option Bool
  | .vcmpEq _ _ _ _ _ => some (!nan && eq)
  | .vcmpNe _ _ _ _ _ => some (nan || !eq)
  | .vcmpLt _ _ _ _ _ => some (!nan && lt)
  | .vcmpLe _ _ _ _ _ => some (!nan && (lt || eq))
  | .vcmpGt _ _ _ _ _ => some (!nan && !lt && !eq)
  | .vcmpGe _ _ _ _ _ => some (!nan && !lt)
  | .vcmpUn _ _ _ _ _ => some (nan && isFloat ty)
  | .vcmpOrd _ _ _ _ _ => some (!nan || !isFloat ty)
  | _ => none

/-- The fields of a VCMP word: header, governing mask, destination, operands. -/
def vcmpFields : Instr → Option (Hd × BitVec 3 × BitVec 3 × BitVec 6 × BitVec 6)
  | .vcmpEq h k d a b => some (h, k, d, a, b)
  | .vcmpNe h k d a b => some (h, k, d, a, b)
  | .vcmpLt h k d a b => some (h, k, d, a, b)
  | .vcmpLe h k d a b => some (h, k, d, a, b)
  | .vcmpGt h k d a b => some (h, k, d, a, b)
  | .vcmpGe h k d a b => some (h, k, d, a, b)
  | .vcmpUn h k d a b => some (h, k, d, a, b)
  | .vcmpOrd h k d a b => some (h, k, d, a, b)
  | _ => none

/-- An operand of a comparison as VCMP reads it: a floating-point one under the flush bit (R183). -/
def readR (t : Team) (ty : BitVec 4) (x : Nat) : Nat :=
  if isFloat ty then (fmtOf ty.toNat).flush ((fmtOf ty.toNat).fz t.fpmode) x else x

/-- The order, the equality and the NaN test of a comparison type (R169). -/
def ltR (ty : BitVec 4) (x y : Nat) : Bool :=
  if isFloat ty then (fmtOf ty.toNat).lt x y
  else decide (intR (isSigned ty) (if is64 ty then 64 else 32) x < intR (isSigned ty) (if is64 ty then 64 else 32) y)
def eqR (ty : BitVec 4) (x y : Nat) : Bool := if isFloat ty then (fmtOf ty.toNat).eq x y else decide (x = y)
def nanR (ty : BitVec 4) (x y : Nat) : Bool := isFloat ty && ((fmtOf ty.toNat).isNan x || (fmtOf ty.toNat).isNan y)

end Sys2Proof.Claims

/-- R158, R159, R166 under R153: the integer words of classes 6 and 7 and VDOT4 give each active lane the value of their row; and every
word of classes 8, 9 and 10 with a floating-point result completes: it issues with one run-bound vector result, in which each
lane that its mask does not hold keeps its value. -/
def Obligations.VectorIntegerWordsWriteTheirRow : Prop :=
  (∀ (i : Instr) (q : LaneRow) (s : State) (b : Block) (t : Team), vintRow i = some q →
    s.Free (.m q.k.toNat :: q.srcs) (vName q.wide q.d) false b t → laneIssues i q s t) ∧
  (∀ (i : Instr) (q : LaneRow) (s : State) (b : Block) (t : Team), floatRow i = some q ∨ halvesRow i = some q →
    s.Free (.m q.k.toNat :: q.srcs) (vName q.wide q.d) false b t →
    ∃ val : Nat → Nat, exec i s = .next (s.issue q.h false fun u =>
      u.addRun (s.clock + vDue (t.rm q.k) q.wide q.lat)
        (vWrite q.wide q.d.toNat t.lanes fun l => if (t.rm q.k).getLsbD l then some (val l) else none)))

/-- R161, R164, R165 under R153 and R160: the binary32 and binary64 words, and the packed halves. R160 to R163, R181 to R184: their sums,
products, fused products, quotients, square roots and reciprocals of finite operands, read under the flush bit, are the exact results
rounded once in the mode and then flushed; the first NaN among the operands is the result, made quiet; an invalid operation gives the
default NaN; infinities and divisions by zero give what IEEE 754 and R162 give; and the minimum and the maximum follow R163. The
exponential and the logarithm are compared with no value of their own here. -/
def Obligations.FloatWordsWriteTheirRow : Prop :=
  (∀ f ∈ fpFormats, ∀ (v : FEnv) (a b d : Nat), fpWord f a → fpWord f b → fpWord f d →
    let x := fpFlush f v.fz a
    let y := fpFlush f v.fz b
    let z := fpFlush f v.fz d
    let m := fpUnits f (fpMag f x)
    let n := fpUnits f (fpMag f y)
    let one := fpOne f
    let sx := fpSign f a
    let sy := fpSign f b
    let sp := sx != sy
    let prod : Int := if sp then -(m * n : Nat) else (m * n : Nat)
    let inf (s : Bool) := fpEnc f s (fpInf f)
    (fpFin f a → fpFin f b →
      let sum := fpInt f x + fpInt f y
      let dif := fpInt f x - fpInt f y
      fpResult f v (fpSumSign v.md (fpInt f x) (fpInt f y) sx sy) (fpFrac sum.natAbs 1) (f.add v a b) ∧
      fpResult f v (fpSumSign v.md (fpInt f x) (-fpInt f y) sx (!sy)) (fpFrac dif.natAbs 1) (f.sub v a b) ∧
      fpResult f v sp (fpFrac (m * n) one) (f.mul v a b) ∧
      (fpFin f d → let t := prod + fpInt f z * one
        fpResult f v (fpSumSign v.md prod (fpInt f z * one) sp (fpSign f d)) (fpFrac t.natAbs one) (f.fma v a b d)) ∧
      (n ≠ 0 → fpResult f v sp (fpFrac (m * one) n) (f.div v a b)) ∧
      (n = 0 → f.div v a b = if m = 0 then fpDefault f else inf sp)) ∧
    (fpFin f a →
      (m = 0 → f.sqrt v a = fpEnc f sx 0 ∧ f.rcp v a = inf sx ∧ f.rsq v a = inf sx) ∧
      (m ≠ 0 → fpResult f v sx (fpFrac (one * one) m) (f.rcp v a)) ∧
      (m ≠ 0 → sx = true → f.sqrt v a = fpDefault f ∧ f.rsq v a = fpDefault f) ∧
      (m ≠ 0 → sx = false → fpResult f v false (fpRoot (m * one) 1) (f.sqrt v a) ∧
        fpResult f v false (fpRoot (one * one * one) m) (f.rsq v a))) ∧
    (a = inf sx → ¬fpNan f b →
      (f.add v a b = if b = inf (!sx) then fpDefault f else a) ∧ (f.sub v a b = if b = a then fpDefault f else a) ∧
      (f.mul v a b = if n = 0 then fpDefault f else inf sp) ∧ (f.mul v b a = if n = 0 then fpDefault f else inf sp) ∧
      (f.div v a b = if b = inf sy then fpDefault f else inf sp) ∧
      (fpFin f b → f.add v b a = a ∧ f.sub v b a = inf (!sx) ∧ f.div v b a = fpEnc f sp 0) ∧
      (¬fpNan f d → (f.fma v a b d = if n = 0 ∨ d = inf (!sp) then fpDefault f else inf sp) ∧
        (f.fma v b a d = if n = 0 ∨ d = inf (!sp) then fpDefault f else inf sp)) ∧
      f.sqrt v a = (if sx then fpDefault f else a) ∧ f.rsq v a = (if sx then fpDefault f else 0) ∧ f.rcp v a = fpEnc f sx 0) ∧
    (fpFin f a → fpFin f b → ∀ s, d = inf s → f.fma v a b d = d) ∧
    ((fpNan f a ∨ fpNan f b) → let q := fpQuiet f (if fpInf f < fpMag f a then a else b)
      f.add v a b = q ∧ f.sub v a b = q ∧ f.mul v a b = q ∧ f.div v a b = q ∧ f.fma v a b d = q) ∧
    (¬fpNan f a → ¬fpNan f b → fpNan f d → f.fma v a b d = fpQuiet f d) ∧
    (fpNan f a → f.sqrt v a = fpQuiet f a ∧ f.rcp v a = fpQuiet f a ∧ f.rsq v a = fpQuiet f a) ∧
    (∀ g : Bool, (fpNan f a → fpNan f b → f.minmax g a b = fpQuiet f a) ∧ (fpNan f a → ¬fpNan f b → f.minmax g a b = b) ∧
      (¬fpNan f a → fpNan f b → f.minmax g a b = a) ∧
      (¬fpNan f a → ¬fpNan f b → let r := f.minmax g a b
        (r = a ∨ r = b) ∧ if g then fpLe f a r ∧ fpLe f b r else fpLe f r a ∧ fpLe f r b))) ∧
  (∀ (i : Instr) (q : LaneRow) (s : State) (b : Block) (t : Team), floatRow i = some q →
    s.Free (.m q.k.toNat :: q.srcs) (vName q.wide q.d) false b t → laneIssues i q s t) ∧
  (∀ (i : Instr) (q : LaneRow) (s : State) (b : Block) (t : Team), halvesRow i = some q →
    s.Free (.m q.k.toNat :: q.srcs) (vName q.wide q.d) false b t → laneIssues i q s t)

/-- R170, R173, R174: VSHUF, VBCAST, VMOV, VMOVW and VSCAN write active lanes; VSEL writes every existing lane from one of its sources; VRED
combines the governed lanes over the fixed tree and extends the result into w[d]. That the leaves of a minimum or a maximum are flushed
under FZ, as those of a sum are, is the model's reading (log entry 14). -/
def Obligations.LaneWordsMoveAndReduce : Prop :=
  ((∀ (i : Instr) (q : LaneRow) (s : State) (b : Block) (t : Team), moveRow i = some q →
    s.Free (.m q.k.toNat :: q.srcs) (vName q.wide q.d) false b t → laneIssues i q s t) ∧
  (∀ (h : Hd) (k : BitVec 3) (d a b : BitVec 6) (s : State) (bl : Block) (t : Team),
    let w := is64 (h.ty 5#4)
    s.Free (.m k.toNat :: (vName w a ++ vName w b)) (vName w d) false bl t →
    exec (.vsel h k d a b) s = .next (s.issue h false fun u =>
      u.addRun (s.clock + vDue (maskAll t.lanes) w 4) (vWrite w d.toNat t.lanes fun l =>
        some (if (t.rm k).getLsbD l then t.rvN w a.toNat l else t.rvN w b.toNat l))))) ∧
  (∀ (h : Hd) (k : BitVec 3) (d a : BitVec 6) (o : BitVec 4) (s : State) (b : Block) (t : Team),
    s.Free (.m k.toNat :: vName (laneOp64 o) a) [.w d.toNat] false b t →
    let w := laneOp64 o
    let f := laneComb o.toNat (t.fenv h (if w then f64 else f32))
    let x := (treeRed f (leafR t k w a o) (ceilDiv t.lanes 32)).getD (laneId o.toNat)
    exec (.vred h k d a o) s = .next (s.issue h false fun u => u.addRun (s.clock + vDue (t.rm k) w 8)
      [.w d.toNat (if o.toNat ≤ 2 then BitVec.ofInt 64 (intR true 32 x) else BitVec.ofNat 64 x)]))

/-- R167 to R169: CVT converts each active lane from its source format to its destination format; VCMP and VTEST write each existing lane of
md: the test where the governing mask holds the lane, 0 where not. That VCMP flushes its floating-point operands under FZ is the model's
reading (log entry 14). -/
def Obligations.ConversionsAndComparisonsAreWritten : Prop :=
  (∀ (h : Hd) (c : BitVec 4) (k : BitVec 3) (d a : BitVec 6) (f : BitVec 4) (s : State) (b : Block) (t : Team),
    s.Free (.m k.toNat :: vName (is64 f) a) (vName (is64 c) d) false b t →
    exec (.cvt h c k d a f) s = .next (s.issue h false fun u =>
      u.addRun (s.clock + vDue (t.rm k) (is64 c || is64 f) 4) (vWrite (is64 c) d.toNat t.lanes fun l =>
        if (t.rm k).getLsbD l then
          some (cvtLane c.toNat f.toNat (modeOf h.rnd.toNat (t.fpmode.toNat % 4)) h.sat t.fpmode (t.rvN (is64 f) a.toNat l))
        else none))) ∧
  ((∀ (i : Instr) (h : Hd) (k d : BitVec 3) (a b : BitVec 6) (s : State) (bl : Block) (t : Team), t.lanes ≤ 1024 →
    vcmpFields i = some (h, k, d, a, b) →
    s.Free (.m k.toNat :: (vName (is64 (h.ty 4#4)) a ++ vName (is64 (h.ty 4#4)) b)) [.m d.toNat] false bl t →
    ∃ x : Mask, exec i s = .next (s.issue h false fun u =>
        u.addRun (s.clock + vDue (t.rm k) (is64 (h.ty 4#4)) 4) [.m d.toNat x]) ∧
      ∀ l, x.getLsbD l = true ↔ l < t.lanes ∧ (t.rm k).getLsbD l = true ∧
        (let ty := h.ty 4#4
         let p := readR t ty (t.rvN (is64 ty) a.toNat l)
         let q := readR t ty (t.rvN (is64 ty) b.toNat l)
         testR ty (ltR ty p q) (eqR ty p q) (nanR ty p q) i = some true)) ∧
  (∀ (h : Hd) (k d : BitVec 3) (a b : BitVec 6) (s : State) (bl : Block) (t : Team), t.lanes ≤ 1024 →
    s.Free (.m k.toNat :: ([.v a.toNat] ++ [.v b.toNat])) [.m d.toNat] false bl t →
    ∃ x : Mask, exec (.vtest h k d a b) s = .next (s.issue h false fun u =>
        u.addRun (s.clock + vDue (t.rm k) false 4) [.m d.toNat x]) ∧
      ∀ l, x.getLsbD l = true ↔ l < t.lanes ∧ (t.rm k).getLsbD l = true ∧
        (t.rv a.toNat l &&& t.rv b.toNat l) ≠ 0#32))

namespace Sys2Proof.Claims
open Sys2Proof.Machine

/-! ### System words and traps (R376 to R392, R452) -/

/-- A trap whose resume address is the word after the trapping word (R388, R389, R112). -/
def afterWord (s : State) (c : Cause) (info : Nat) (x : Option Word) : TrapReq :=
  { cause := c, info := info, pc := s.cur.addr, resume := s.cur.addr + 4#56, lanes := [], extn := x, misrec := 0#64 }

/-- Frame `f` of a block's context can take the trap at once (R377, R381): a handler is installed and the team is not in one and holds no
frame yet; the run's results are written and no w, m or x register is pending; `f` is the lowest free frame; and its page, which starts at
physical address `pa`, is resident and may be written, on a module whose routing entry holds nothing back (R425). -/
structure FrameReady (s : State) (b : Block) (t : Team) (c : Cause) (f pa : Nat) : Prop where
  vec : installed (s.vectorOf b c) = true
  out : t.handler = none
  fresh : t.frame = none
  idle : t.granted = false
  done : t.run.writes = []
  clear : t.pend.any Pend.awaited = false
  low : s.freeFrame b = some f
  page : ∃ p, (s.xlate b ((s.tarea b).1 + 0x10000 * f)).1 = .page p ∧ p.wr = true ∧
    pa = p.frame + ((s.tarea b).1 + 0x10000 * f - p.page)
  mem : b.bureau = none → inWindow (paLocal pa) = false
  near : ∀ x, s.ctxOf b = some x → s.reachable x (paModule pa) = true
  here : s.held pa = false
  ctx : b.bureau = none → (s.ctxOf b).isSome = true

/-- The frame of a team in its handler can be read by TRET (R390), its page starting at physical address `pa`. -/
structure FrameBack (s : State) (b : Block) (t : Team) (f pa : Nat) : Prop where
  inside : t.handler = some f
  page : ∃ p, (s.xlate b ((s.tarea b).1 + 0x10000 * f)).1 = .page p ∧ p.rd = true ∧
    pa = p.frame + ((s.tarea b).1 + 0x10000 * f - p.page)
  mem : b.bureau = none → inWindow (paLocal pa) = false
  near : ∀ x, s.ctxOf b = some x → s.reachable x (paModule pa) = true
  here : s.held pa = false
  ctx : b.bureau = none → (s.ctxOf b).isSome = true

/-- Whether a store of the team to its frame at `pa` is not performed yet (R390, R462), and whether one of an earlier chain is not. -/
def frameStores (s : State) (b : Block) (t : Team) (f pa : Nat) : Bool :=
  t.ops.any fun o => o.inFrame ((s.tarea b).1 + 0x10000 * f) pa
def earlierStores (s : State) (b : Block) (t : Team) (f pa : Nat) : Bool :=
  t.ops.any fun o => decide (o.id < s.cur.base) && o.inFrame ((s.tarea b).1 + 0x10000 * f) pa

/-- The register that TRET writes when it returns from NOFEAT (R390), as the frame at `pa` gives it. -/
def nofeatWrites (s : State) (t : Team) (pa : Nat) : List RegWrite :=
  let ext := s.pmRd (pa + 0x38) 8
  let d := ext / 2 ^ 8 % 64
  if s.pmRd pa 1 ≠ Cause.nofeat.code then []
  else if ext / 2 % 2 = 0 then [.w d (BitVec.ofNat 64 (s.pmRd (pa + 0x40) 8))]
  else [.v d ((List.range t.lanes).map fun l =>
    if (s.pmRd (pa + 0x400) 128).testBit l then some (BitVec.ofNat 32 (s.pmRd (pa + 0x9000 + 4 * l) 4)) else none)]

/-- A team has ended, or has arrived at its block's barrier with its accesses of path L performed (R131, R132). -/
def arrived (b : Block) (u : Team) : Prop := u.ended = true ∨ (u.idx ∈ b.barArr ∧ ∀ o ∈ u.ops, o.path ≠ .l)

/-- The same, once team `i` of the block has arrived. -/
def arrives (b : Block) (i : Nat) (u : Team) : Prop :=
  u.ended = true ∨ ((u.idx ∈ b.barArr ∨ u.idx = i) ∧ ∀ o ∈ u.ops, o.path ≠ .l)

end Sys2Proof.Claims

/-- R107, R112, R388, R389, R392, R429, R452: NOP does nothing; SAMPLE marks the team's next memory word where its context has capture; TRIG
writes a record of KIND 2 with n and w[a], a trigger event under TTRIG; WFI is a Bureau's and waits for an interrupt, and in a
handler or with an interrupt pending it does not wait; TRAP n raises SWTRAP with INFO n, BRK raises BREAK unless the context's
stop-on-break control is set, and an extension word raises NOFEAT with its feature and the word; each resumes at the next word. -/
def Obligations.SystemWordsActOrTrap : Prop :=
  (∀ (h : Hd) (a n : BitVec 6) (s : State) (b : Block) (t : Team),
    (s.Free [] [] false b t →
      exec (.nop h) s = .next (s.issue h false id) ∧
      exec (.sample h) s = .next (s.issue h true fun u => { u with sample := u.sample || s.vesp b }) ∧
      (b.bureau = none → exec (.wfi h) s = .next (s.trap .priv)) ∧
      (∀ e, b.bureau = some e → exec (.wfi h) s = .next (s.issue h true fun u =>
        if t.handler.isSome || (s.die e).istat ≠ 0#17 || (s.die e).evstat ≠ 0#4 then u else { u with wait := some .wfi }))) ∧
    (s.Free [.w a.toNat] [] false b t →
      exec (.trig h a n) s =
        .next ((s.record b (s.recordOf b t 2 s.cur.addr.toNat n.toNat (t.rw a).toNat 0) 6).issue h true id))) ∧
  (∀ (h : Hd) (n d a : BitVec 6) (f : BitVec 7) (g : BitVec 4) (k : BitVec 1) (s : State) (b : Block) (t : Team),
    (s.Free [] [] false b t →
      exec (.trap h n) s = .next (s.trapReq (afterWord s .swtrap n.toNat none)) ∧
      ((b.bureau.isNone && (s.die (coreDie b.core)).stopOnBreak b.tag) = false →
        exec .brk s = .next (s.trapReq (afterWord s .break 0 none))) ∧
      ((b.bureau.isNone && (s.die (coreDie b.core)).stopOnBreak b.tag) = true →
        exec .brk s = .next (s.stopAt b t 2 0))) ∧
    (s.Free (if k = 1#1 then [.v d.toNat, .v a.toNat] else [.w d.toNat, .w a.toNat]) [] false b t →
      ∃ w, (Instr.extn h f g d a k).word = some w ∧
        exec (.extn h f g d a k) s = .next (s.trapReq (afterWord s .nofeat f.toNat (some w)))))

/-- R378, R379, R381 to R384: taking a trap. With a frame ready the team saves the cause and INFO in $trapcause and the reported
address in $trappc, puts the frame's number into $status.FIX, claims the frame, and goes on at the vector in a new run; every other
register stays; memory is what it was but for the frame's areas: $trapcause, the reported and the resume address, $status, $fpmode,
the depth of the reconvergence stack and the lane and register counts at offsets 0x00 to 0x30, the uniform registers from 0x100, the
translation registers from 0x300, the masks from 0x400. -/
def Obligations.TrapsSaveTheTeamAndGoToTheVector : Prop :=
  (∀ (s : State) (b : Block) (t : Team) (q : TrapReq) (f pa : Nat), s.team? s.cur.r = some (b, t) →
    FrameReady s b t q.cause f pa →
    let s' := s.trapReq q
    s'.cur.res = .trapped ∧
    s'.mem = (s.writeFrame (if b.bureau.isSome then none else some b.tag) pa (frameAreas t q)).mem ∧
    ∃ c u, s'.team? s.cur.r = some (c, u) ∧
      u.trapcause = BitVec.ofNat 64 (q.cause.code + 256 * (q.info % 65536)) ∧ u.trappc = q.pc.setWidth 64 ∧
      u.status = (t.status &&& ~~~0x3FFF0000#64) ||| BitVec.ofNat 64 (f % 2 ^ 14 * 2 ^ 16) ∧
      u.pc = (s.vectorOf b q.cause).setWidth 56 ∧ u.handler = some f ∧ u.trap = none ∧
      u.run = Run.fresh ∧
      u.w = t.w ∧ u.v = t.v ∧ u.m = t.m ∧ u.x = t.x ∧ u.stack = t.stack ∧ u.fpmode = t.fpmode ∧ u.pend = t.pend) ∧
  (∀ (t : Team) (q : TrapReq),
    (∃ bs, (0, bs) ∈ frameAreas t q ∧
      bs.take 0x38 = natBytes 8 (trapcauseOf q).toNat ++ natBytes 8 q.pc.toNat ++ natBytes 8 q.resume.toNat
        ++ natBytes 8 t.status.toNat ++ natBytes 8 t.fpmode.toNat ++ natBytes 8 t.stack.length
        ++ natBytes 8 (t.lanes + t.regs * 2 ^ 16)) ∧
    (∀ r, r < t.w.length → (0x100 + 8 * r, natBytes 8 (t.w.getD r 0#64).toNat) ∈ frameAreas t q) ∧
    (∀ r, r < t.x.length → (0x300 + 24 * r, natBytes 24 (t.x.getD r XReg.invalid).bits) ∈ frameAreas t q) ∧
    (∀ r, r < t.m.length → (0x400 + 0x100 * r, maskArea (t.m.getD r 0#1024) (ceilDiv t.lanes 32)) ∈ frameAreas t q))

/-- R390: TRET goes on at the frame's resume address in a new run, leaves the handler and gives the frame back; after NOFEAT it
writes the register that the frame names; outside a handler, and where the resume address is no multiple of 4, it raises SYSARG. It waits
with PIPE for the team's earlier stores to the frame (R462), and with SCORE while a result is due in the register that it writes
(R92). A TRET with a store to the frame in its own chain issues with it, and returns once that store is performed: the model's reading (log
entry 136). -/
def Obligations.TretReturnsWhereTheFrameSays : Prop :=
  (∀ (h : Hd) (s : State) (b : Block) (t : Team), s.Free [] [] false b t →
    (t.handler = none → exec (.tret h) s = .next (s.trap .sysarg)) ∧
    (∀ f pa, FrameBack s b t f pa → earlierStores s b t f pa = true → parksWith (.tret h) s .pipe) ∧
    (∀ f pa, FrameBack s b t f pa → earlierStores s b t f pa = false → frameStores s b t f pa = true →
      issuesWith (.tret h) s fun _ u => u.run.ended = true ∧ u.wait = some (.tret s.cur.addr s.cur.first) ∧ u.handler = some f) ∧
    (∀ f pa, FrameBack s b t f pa → frameStores s b t f pa = false → s.pmRd (pa + 0x10) 8 % 4 = 0 → b.dying = false →
      t.pending s.cur.base ((nofeatWrites s t pa).filterMap RegWrite.name?) = true → parksWith (.tret h) s .score) ∧
    (∀ f pa, FrameBack s b t f pa → frameStores s b t f pa = false → s.pmRd (pa + 0x10) 8 % 4 = 0 →
      t.pending s.cur.base ((nofeatWrites s t pa).filterMap RegWrite.name?) = false →
      issuesWith (.tret h) s fun v u =>
        u.pc = BitVec.ofNat 56 (s.pmRd (pa + 0x10) 8) ∧ u.handler = none ∧ u.run.ended = true ∧
        u.run.writes = t.run.writes ++ (nofeatWrites s t pa).map (fun w => { write := w, at' := s.clock }) ∧
        (∀ x, s.ctxOf b = some x → ∃ y, v.ctx? b.tag = some y ∧ ∀ g, g ∈ y.claimed ↔ g ∈ x.claimed ∧ g ≠ f)) ∧
    (∀ f pa, FrameBack s b t f pa → frameStores s b t f pa = false → s.pmRd (pa + 0x10) 8 % 4 ≠ 0 →
      ∃ v : State, exec (.tret h) s = .next v ∧ v.cur.res = .trapped ∧ v.cur.req.map (fun q => q.cause) = some .sysarg)) ∧
  (∀ (s : State) (r : TRef) (b : Block) (t : Team) (first at' : BitVec 56) (f pa : Nat), s.team? r = some (b, t) →
    t.wait = some (.tret at' first) → FrameBack s b t f pa →
    (frameStores s b t f pa = true → ∃ (v : State) (c : Block) (u : Team), s.wakeTret r at' first = .next v ∧ v.team? r = some (c, u) ∧
      u.wait = t.wait ∧ u.pc = t.pc ∧ u.handler = some f) ∧
    (frameStores s b t f pa = false → s.pmRd (pa + 0x10) 8 % 4 = 0 →
      t.pending s.nextId ((nofeatWrites s t pa).filterMap RegWrite.name?) = false →
      ∃ (v : State) (c : Block) (u : Team), s.wakeTret r at' first = .next v ∧ v.team? r = some (c, u) ∧ u.wait = none ∧
        u.pc = BitVec.ofNat 56 (s.pmRd (pa + 0x10) 8) ∧ u.handler = none))

/-- R127, R128: RDC reads a control register into w[d], RDC.v into the lanes of m0 (for $lane each lane's own index), WRC writes the
writable ones and ignores a write of any other; and the values of the registers that a team's own state gives. -/
def Obligations.ControlRegistersAreReadAndWritten : Prop :=
  ∀ (h : Hd) (d a : BitVec 6) (s : State) (b : Block) (t : Team),
    (s.Free [] [.w d.toNat] false b t →
      exec (.rdc h d a) s = .next (s.issue h false fun u => u.addRun (s.clock + 2) [.w d.toNat (s.ctlRead b t a.toNat)])) ∧
    (s.Free [.m 0] [.v d.toNat] false b t →
      exec (.rdcV h d a) s = .next (s.issue h false fun u => u.addRun (s.clock + 2)
        [.v d.toNat ((List.range t.lanes).map fun l => if (t.rm 0#3).getLsbD l then
          some (if a = 0#6 then BitVec.ofNat 32 l else (s.ctlRead b t a.toNat).setWidth 32) else none)])) ∧
    (s.Free [.w a.toNat] [] false b t →
      exec (.wrc h d a) s = .next (s.issue h false fun u =>
        if d = 9#6 ∨ d = 10#6 ∨ d = 24#6 ∨ d = 25#6 then u.addRun (s.clock + 2) [.ctl d.toNat (t.rw a)] else u)) ∧
    s.ctlRead b t 1 = BitVec.ofNat 64 t.idx ∧ s.ctlRead b t 2 = b.block.setWidth 64 ∧ s.ctlRead b t 3 = t.role.setWidth 64 ∧
    s.ctlRead b t 5 = b.tag.setWidth 64 ∧ s.ctlRead b t 9 = t.status ∧ s.ctlRead b t 10 = t.fpmode ∧
    s.ctlRead b t 11 = t.trapcause ∧ s.ctlRead b t 12 = t.trappc ∧ s.ctlRead b t 13 = BitVec.ofNat 64 s.clock ∧
    s.ctlRead b t 14 = BitVec.ofNat 64 b.core ∧ s.ctlRead b t 15 = BitVec.ofNat 64 t.lanes ∧
    s.ctlRead b t 16 = BitVec.ofNat 64 t.v.length ∧ s.ctlRead b t 17 = BitVec.ofNat 64 b.pool ∧
    s.ctlRead b t 18 = BitVec.ofNat 64 t.stack.length ∧ s.ctlRead b t 19 = BitVec.ofNat 64 b.barPhase ∧
    s.ctlRead b t 21 = s.offer1

/-- R129: RGIVE returns the top slabs to the pool and RCLAIM takes slabs of zeros from it, where it holds enough and no earlier
RCLAIM waits; what is out of range raises REGPOOL; a parked RCLAIM is given its slabs in its turn. -/
def Obligations.SlabsMoveBetweenTeamAndPool : Prop :=
  (∀ (h : Hd) (k : BitVec 6) (s : State) (b : Block) (t : Team), s.Free [] [] false b t →
    (t.regs ≤ 8 * k.toNat → exec (.rgive h k) s = .next (s.trap .regpool)) ∧
    (64 < t.regs + 8 * k.toNat ∨ b.slabs - b.teams.length < k.toNat → exec (.rclaim h k) s = .next (s.trap .regpool)) ∧
    (8 * k.toNat < t.regs → t.pend = [] → t.run.writes = [] →
      issuesWith (.rgive h k) s fun v u =>
        u.v = t.v.take (t.regs - 8 * k.toNat) ∧ u.w = t.w ∧ u.m = t.m ∧
        ∃ c, v.block? s.cur.r.b = some c ∧ c.pool = b.pool + k.toNat) ∧
    (t.regs + 8 * k.toNat ≤ 64 → k.toNat ≤ b.slabs - b.teams.length → k.toNat ≤ b.pool → b.rclaims = [] → t.granted = false →
      t.run.writes = [] →
      issuesWith (.rclaim h k) s fun v u =>
        u.v = t.v ++ List.replicate (8 * k.toNat) (List.replicate t.lanes 0#32) ∧ u.w = t.w ∧ u.m = t.m ∧
        ∃ c, v.block? s.cur.r.b = some c ∧ c.pool = b.pool - k.toNat)) ∧
  (∀ (s : State) (x : Block) (b ti k : Nat) (l : List (Nat × Nat)) (t : Team), s.block? b = some x →
    x.rclaims = (ti, k) :: l → x.team? ti = some t → t.want = .slabs k → t.granted = false → k ≤ x.pool →
    ∃ (v : State) (y : Block) (u : Team), exec (.rclaimGrant b) s = .next v ∧ v.block? b = some y ∧ y.pool = x.pool - k ∧ y.team? ti = some u ∧
      u = { t with granted := true } ∧ ∀ q, q ∈ y.rclaims ↔ q ∈ l ∧ q.1 ≠ ti)

/-- R33, R131, R132, R141: the last team to arrive at BAR, with every access of path L of the teams that have arrived performed (logged ones
too: that the phase itself waits for them, as R463 orders them before what follows it, is the model's reading, log entry 33), completes
the barrier's phase and goes on; another team waits with BENCH, and goes on once the phase is complete. EXIT ends the team: its registers return to the pool, its pending results are discarded, what it
issued is still performed, and it counts as arrived at the barrier and as a reclamation point. -/
def Obligations.BarAndExitCountTeams : Prop :=
  (∀ (h : Hd) (s : State) (b : Block) (t : Team), s.Free [] [] false b t → b.dying = false → t.ended = false →
    ((∀ u ∈ b.teams, arrives b t.idx u) →
      issuesWith (.bar h) s fun v u => u.wait = none ∧ u.run.ended = true ∧
        ∃ c, v.block? s.cur.r.b = some c ∧ c.barPhase = b.barPhase + 1 ∧ c.barArr = []) ∧
    ((∃ u ∈ b.teams, ¬arrives b t.idx u) →
      issuesWith (.bar h) s fun v u => u.wait = some (.bar b.barPhase) ∧ u.stall = .bench ∧ u.run.ended = true ∧
        ∃ c, v.block? s.cur.r.b = some c ∧ c.barPhase = b.barPhase ∧ c.barArr = b.barArr ++ [t.idx])) ∧
  (∀ (s : State) (r : TRef) (b : Block) (t : Team) (p : Nat), s.team? r = some (b, t) → t.wait = some (.bar p) →
    (p < b.barPhase → ∃ c u, (s.wakeBar r).team? r = some (c, u) ∧ u = { t with wait := none }) ∧
    (p = b.barPhase → b.barArr ≠ [] → (∀ u ∈ b.teams, arrived b u) →
      ∃ c u, (s.wakeBar r).team? r = some (c, u) ∧ u = { t with wait := none } ∧ c.barPhase = p + 1 ∧ c.barArr = []) ∧
    (p = b.barPhase → (∃ u ∈ b.teams, ¬arrived b u) →
      ∃ c, (s.wakeBar r).team? r = some (c, t) ∧ c.barPhase = p ∧ c.barArr = b.barArr)) ∧
  (∀ (h : Hd) (s : State) (b : Block) (t : Team), s.Free [] [] false b t → t.ended = false →
    issuesWith (.exit h) s fun v u => u.ended = true ∧ u.v = [] ∧ u.pend = [] ∧ u.ops = t.ops ∧ u.handler = none ∧
      ∃ c, v.block? s.cur.r.b = some c ∧ c.pool = b.pool + t.regs / 8 ∧ c.pcount = b.pcount + 1 ∧
        let all := (∃ i ∈ b.barArr, i ≠ t.idx) ∧ ∀ u ∈ b.teams, u.idx = t.idx ∨ arrived b u
        (all → c.barPhase = b.barPhase + 1 ∧ c.barArr = []) ∧
        (¬all → c.barPhase = b.barPhase ∧ c.barArr = b.barArr.filter fun i => i != t.idx))

namespace Sys2Proof.Claims
open Sys2Proof.Machine

/-! ### Launches and level waits (R37 to R46, R133 to R140, R349) -/

/-- What every LAUNCH of block `b`'s team needs to take effect (R136, R138): its registers free, its earlier accesses of path L
performed, the record `r` read at w[a] (which leaves state `s1`), and the slots of its instances free. -/
structure LaunchReady (s : State) (b : Block) (t : Team) (d a : BitVec 6) (p g : BitVec 1) (r : Nat) (s1 : State) : Prop where
  free : s.Free [.w a.toNat] [.w d.toNat] true b t
  sent : t.outstanding s.cur.base .l = false
  team : b.bureau = none
  read : s.getVa b 64 (t.rw a).toNat = .ok r s1
  room : s1.slotsFree b.tag (if p = 1#1 then 3 else if g = 1#1 then 2 else 1) = true

/-- The launch lies in no cancelled instance, and the new phase, if it opens one, does not end the latest one by taking the
patterns out of it (R40, R46). -/
def launchOpen (s : State) (tag : BitVec 12) (p : BitVec 1) : Prop :=
  ∀ c, s.ctx? tag = some c → (∀ l ∈ c.levels, l.cancelled = false) ∧
    (p = 1#1 → ∀ l, c.level? c.latest = some l → l.complete = false → s.patternCount tag < l.counter)

/-- The launch is of block `b`'s own graph, which is cancelled and not about to complete (R46). -/
def launchCut (s : State) (b : Block) (p g : BitVec 1) : Prop :=
  p = 0#1 ∧ g = 0#1 ∧ ∃ c l q m, s.ctx? b.tag = some c ∧ c.level? b.slot = some l ∧ l.parent = some q ∧ c.level? q = some m ∧
    m.cancelled = true ∧ 1 ≤ m.counter

/-- A scoreboarded result that is ready to arrive has been added to a team, and nothing else (R92). -/
def givesW (t u : Team) (d : BitVec 6) (x : Dword) : Prop :=
  ∃ id, u.pend = t.pend ++ [{ id := id, regs := [.w d.toNat], ready := some [.w d.toNat x], nred := false }]

/-- After a launch of `n` members of kind `k` by block `b` (R37, R136): the handle in w[d] names the newest instance, a phase, a
graph or the launch itself, and `y` is the launch's instance. -/
def launched (v : State) (b : Block) (t u : Team) (d : BitVec 6) (p g : BitVec 1) (k : LKind) (n : Nat) (y : Level) : Prop :=
  ∃ (c : Ctx) (x : Level), v.ctx? b.tag = some c ∧ c.level? x.slot = some x ∧ c.level? y.slot = some y ∧
    givesW t u d (levelHandle b.tag x) ∧ x.kind = (if p = 1#1 then 3 else if g = 1#1 then 2 else 1) ∧
    y.kind = 1 ∧ y.lkind = k ∧ y.counter = n ∧ y.complete = false ∧ y.cancelled = false

/-- After a launch in a cancelled graph (R46): w[d] has the handle of an instance that is complete with END = 3, and no work is handed in. -/
def cutShort (s1 v : State) (b : Block) (t u : Team) (d : BitVec 6) : Prop :=
  v.dispatches = s1.dispatches ∧ v.trees = s1.trees ∧ (∀ e, (v.die e).bins = (s1.die e).bins) ∧
  ∃ c y, v.ctx? b.tag = some c ∧ c.level? y.slot = some y ∧ givesW t u d (levelHandle b.tag y) ∧ y.cancelled = true ∧
    y.complete = true ∧ y.status.toNat % 8 = 3

/-- Bits [63:52] of a handle, its KIND and its GEN (R37). -/
def handleOwner (w : Dword) : Nat := w.toNat / 2 ^ 52 % 2 ^ 12
def handleKind (w : Dword) : Nat := w.toNat / 2 ^ 48 % 8
def handleGen (w : Dword) : Nat := w.toNat / 2 ^ 16 % 2 ^ 32

/-- The instance that a level handle names, as R139 has it: the owner is the context, KIND is 1 to 4, and the generation is current. -/
def namesLevel (s : State) (b : Block) (w : Dword) (l : Level) : Prop :=
  handleOwner w = b.tag.toNat ∧ 1 ≤ handleKind w ∧ handleKind w ≤ 4 ∧
  ∃ c, s.ctxOf b = some c ∧ c.level? (w.toNat % 2 ^ 16) = some l ∧ handleGen w = l.gen.toNat

/-- A handle's owner is another context, or its KIND is none of a level's (R139). -/
def notOwn (b : Block) (w : Dword) : Prop := handleOwner w ≠ b.tag.toNat ∨ handleKind w = 0 ∨ 5 ≤ handleKind w

/-- A handle's owner and KIND are right, and no instance in its slot has its generation (R139). -/
def staleHandle (s : State) (b : Block) (w : Dword) : Prop :=
  ¬notOwn b w ∧ ∀ c l, s.ctxOf b = some c → c.level? (w.toNat % 2 ^ 16) = some l → handleGen w ≠ l.gen.toNat

/-- LVLSELF holds: the instance contains the block's launch, or it is a later phase than the block's (R139). -/
def isSelf (s : State) (b : Block) (l : Level) : Prop :=
  ∃ c, s.ctxOf b = some c ∧
    (c.below l.slot b.slot = true ∨ (l.kind = 3 ∧ ∃ x, c.level? b.slot = some x ∧ x.phase < l.phase))

/-- LVLSELF does not hold: the instance does not contain the block's launch, and it is no later phase (R139). -/
def notSelf (s : State) (b : Block) (l : Level) : Prop :=
  ∀ c, s.ctxOf b = some c → c.below l.slot b.slot = false ∧
    (l.kind = 3 → ∀ x, c.level? b.slot = some x → l.phase ≤ x.phase) ∧ (c.level? b.slot = none → l.kind = 3 → l.phase = 0)

end Sys2Proof.Claims

/-- R133 to R138, R349, R62, R46: each LAUNCH makes its instances, gives the newest one's handle, and hands in its work: a dispatch of
X × Y × Z blocks in the record's shape, a tree launch for the Hallstand, whose counter is 1 until its census (the model's reading: log
entry 108), an open bin; a bad record raises LAUNCHREC, for a bin before BINFULL is looked at (the model's reading: log entry 48). A launch in a
cancelled graph hands in nothing and is complete with END = 3. Accesses of path L in LAUNCH's own chain are not awaited, the model's choice
(log entry 135). -/
def Obligations.LaunchesHandInTheirWork : Prop :=
  ∀ (h : Hd) (d a : BitVec 6) (p g : BitVec 1) (s s1 : State) (b : Block) (t : Team) (r : Nat), LaunchReady s b t d a p g r s1 →
    (flatBad r = true → exec (.launchFlat h d a p g) s = .next (s1.trap .launchrec)) ∧
    (binBad r = true → exec (.launchBin h d a p g) s = .next (s1.trap .launchrec)) ∧
    (launchOpen s1 b.tag p →
      (flatBad r = false → issuesWith (.launchFlat h d a p g) s fun v u =>
        ∃ (y : Level) (q : Dispatch), launched v b t u d p g .flat (flatCount r) y ∧ v.dispatches = s1.dispatches ++ [q] ∧ q.kind = .flat ∧
          q.tag = b.tag ∧ q.slot = y.slot ∧ q.shape = recShape r ∧ q.next = 0 ∧ q.total = flatCount r ∧
          q.first = natBits r 128 10 ∧ q.count = natBits r 138 11 ∧ q.pair = decide (natBits r 151 1 = 1) ∧
          q.args = [BitVec.ofNat 64 (r / 2 ^ 320), BitVec.ofNat 64 (r / 2 ^ 384), BitVec.ofNat 64 (r / 2 ^ 448)]) ∧
      (issuesWith (.launchTree h d a p g) s fun v u =>
        ∃ (y : Level) (q : Tree), launched v b t u d p g .tree 1 y ∧ v.trees = s1.trees ++ [q] ∧ q.tag = b.tag ∧ q.slot = y.slot ∧
          q.record = r ∧ q.phase = .waiting ∧ q.die = coreDie b.core ∧ q.snap = s1.mem ∧ q.homes = s1.migrations) ∧
      (binBad r = false → ∀ i, s1.freeBin (coreDie b.core) = some i → coreDie b.core < s1.dies.length →
        issuesWith (.launchBin h d a p g) s fun v u =>
          ∃ (y : Level) (q : Bin), launched v b t u d p g .bin 1 y ∧
            (v.die (coreDie b.core)).bins = (s1.die (coreDie b.core)).bins ++ [q] ∧ q.idx = i ∧ q.tag = b.tag ∧
            q.slot = y.slot ∧ q.shape = recShape r ∧ q.rw = natBits r 196 3 + 1 ∧ q.coal = natBits r 199 10 + 1 ∧
            q.records = [])) ∧
    (launchCut s1 b p g →
      (flatBad r = false → issuesWith (.launchFlat h d a p g) s fun v u => cutShort s1 v b t u d) ∧
      issuesWith (.launchTree h d a p g) s (fun v u => cutShort s1 v b t u d) ∧
      (binBad r = false → s1.freeBin (coreDie b.core) ≠ none →
        issuesWith (.launchBin h d a p g) s fun v u => cutShort s1 v b t u d)) ∧
    (binBad r = false → s1.freeBin (coreDie b.core) = none → exec (.launchBin h d a p g) s = .next (s1.trap .binfull))

/-- R43, R46, R139, R140: LVLWAIT writes the status word of a complete instance, and waits for one that is not; LVLWAIT.poll gives the status
word, or all ones; a handle of another context or of no level's KIND raises LVLOWN, one whose generation no instance of its slot has LVLSTALE (a
slot without an instance raises it whatever GEN is, the model's reading: log entry 107), and an instance that contains the block or is a
later phase LVLSELF. LVLCANCEL raises the first two; of an instance that is not complete: its
unstarted work never starts, its running blocks and its tree launches are marked; of a complete one it has no effect. -/
def Obligations.LevelWordsWaitAndCancel : Prop :=
  (∀ (h : Hd) (d a : BitVec 6) (s : State) (b : Block) (t : Team), s.Free [.w a.toNat] [.w d.toNat] true b t →
    (∀ l, namesLevel s b (t.rw a) l → notSelf s b l →
      (issuesWith (.lvlwaitPoll h d a) s fun _ u => givesW t u d (if l.complete then l.status else 0xFFFFFFFFFFFFFFFF#64)) ∧
      (b.dying = false → issuesWith (.lvlwait h d a) s fun _ u => u.run.ended = true ∧
        (l.complete = true → u.wait = none ∧ u.w = t.w.set d.toNat l.status ∧
          (∀ p ∈ u.pend, p ∈ t.pend) ∧ ∀ p ∈ t.pend, p.id < s.nextId → p ∈ u.pend) ∧
        (l.complete = false → (∃ id, u.wait = some (.level l.slot l.gen.toNat d.toNat id)) ∧
          ∃ p ∈ u.pend, p.regs = [.w d.toNat] ∧ p.ready = none))) ∧
    (let traps (c : Cause) : Prop := exec (.lvlwaitPoll h d a) s = .next (s.trap c) ∧
        (b.dying = false → exec (.lvlwait h d a) s = .next (s.trap c))
     (notOwn b (t.rw a) → traps .lvlown) ∧ (staleHandle s b (t.rw a) → traps .lvlstale) ∧
      ∀ l, namesLevel s b (t.rw a) l → isSelf s b l → traps .lvlself)) ∧
  (∀ (h : Hd) (a : BitVec 6) (s : State) (b : Block) (t : Team), s.Free [.w a.toNat] [] false b t →
    (notOwn b (t.rw a) → exec (.lvlcancel h a) s = .next (s.trap .lvlown)) ∧
    (staleHandle s b (t.rw a) → exec (.lvlcancel h a) s = .next (s.trap .lvlstale))) ∧
  (∀ (h : Hd) (a : BitVec 6) (s : State) (b : Block) (t : Team) (l : Level) (c : Ctx), s.Free [.w a.toNat] [] false b t →
    namesLevel s b (t.rw a) l → s.ctxOf b = some c →
    (l.complete = true → exec (.lvlcancel h a) s = .next (s.issue h false id)) ∧
    (l.complete = false → issuesWith (.lvlcancel h a) s fun v _ =>
      (∀ d ∈ v.dispatches, d.tag = b.tag → c.below l.slot d.slot = false) ∧
      (∀ x ∈ v.blocks, x.tag = b.tag → x.bureau = none → c.below l.slot x.slot = true → x.dying = true) ∧
      (∀ x ∈ v.trees, x.tag = b.tag → c.below l.slot x.slot = true → x.cancelled = true)))

namespace Sys2Proof.Claims
open Sys2Proof.Machine

/-! ### Memory and scratchpad words (R194 to R223) -/

/-- A word of class 14 or 16: its header, its governing mask where it is a lane form, its translation register (none: the word is on
scratchpad), its offset register, the registers it reads and writes besides, what it needs of a page (R202), what it does, its
width in bytes, whether a load is sign-extended, an atomic's operation and type, and the lanes' operands. -/
structure MemRow where
  h : Hd
  lane : Option (BitVec 3)
  x : Option (BitVec 3)
  off : BitVec 6
  reads : List RegName
  dests : List RegName
  need : Need
  kind : AccKind
  size : Nat
  sx : Bool
  op : Nat
  ty : BitVec 4
  dest : Option RegName
  val : Team → Nat → Nat
  cmp : Team → Nat → Nat

/-- A load and a store (R209 to R213). -/
def loadRow (h : Hd) (lane : Option (BitVec 3)) (x : Option (BitVec 3)) (o d : BitVec 6) (e : BitVec 1) (z : BitVec 2) : MemRow :=
  { h := h, lane := lane, x := x, off := o, reads := [], dests := if lane.isSome then vName (z = 3#2) d else [.w d.toNat], need := .rd
    kind := .load, size := 2 ^ z.toNat, sx := e = 1#1, op := 0, ty := 0#4
    dest := some (if lane.isSome then .v d.toNat else .w d.toNat), val := fun _ _ => 0, cmp := fun _ _ => 0 }
def storeRow (h : Hd) (lane : Option (BitVec 3)) (x : Option (BitVec 3)) (o d : BitVec 6) (z : BitVec 2) : MemRow :=
  { h := h, lane := lane, x := x, off := o, reads := if lane.isSome then vName (z = 3#2) d else [.w d.toNat], dests := [], need := .wr
    kind := .store, size := 2 ^ z.toNat, sx := false, op := 0, ty := 0#4, dest := none
    val := fun t l => (if lane.isSome then t.rvN (z = 3#2) d.toNat l else (t.rw d).toNat)
      % (if x.isSome then 2 ^ (8 * 2 ^ z.toNat) else 2 ^ 64), cmp := fun _ _ => 0 }

/-- An atomic (R217 to R219): 4 bytes, or 8 for a 64-bit type; cas has its comparand in v[d] and what it swaps in the register or
pair that follows. -/
def atomRow (h : Hd) (p : BitVec 4) (k : BitVec 3) (d : BitVec 6) (x : Option (BitVec 3)) (o : BitVec 6) (ret : Bool) : MemRow :=
  let ty := h.ty (atomDflt p)
  let n := if is64 ty then 2 else 1
  { h := h, lane := some k, x := x, off := o, reads := (List.range (if p = 7#4 then 2 * n else n)).map fun i => .v (d.toNat + i)
    dests := if ret then vName (is64 ty) d else [], need := .at', kind := .atom, size := 4 * n, sx := false, op := p.toNat, ty := ty
    dest := if ret then some (.v d.toNat) else none
    val := fun t l => t.rvN (is64 ty) (d.toNat + if p = 7#4 then n else 0) l, cmp := fun t l => t.rvN (is64 ty) d.toNat l }

/-- The words on memory (`x` some) and on scratchpad (`x` none). -/
def memRow : Instr → Option MemRow
  | .ldg h k d x o e z => some (loadRow h (some k) (some x) o d e z)
  | .ldw h d x o e z => some (loadRow h none (some x) o d e z)
  | .stg h k d x o z => some (storeRow h (some k) (some x) o d z)
  | .stw h d x o z => some (storeRow h none (some x) o d z)
  | .lds h k d o e z => some (loadRow h (some k) none o d e z)
  | .ldws h d o e z => some (loadRow h none none o d e z)
  | .sts h k d o z => some (storeRow h (some k) none o d z)
  | .stws h d o z => some (storeRow h none none o d z)
  | .atom h p k d x o y => some (atomRow h p k d (if y = 1#1 then none else some x) o true)
  | .red h p k d x o y => some (atomRow h p k d (if y = 1#1 then none else some x) o false)
  | _ => none

/-- The registers that a word reads: mask and translation register, offset register (63 is none), data. -/
def MemRow.regs (q : MemRow) : List RegName :=
  (q.lane.toList.map fun k => .m k.toNat) ++ (q.x.toList.map fun x => .x x.toNat)
    ++ (if q.off = 63#6 then [] else [if q.lane.isSome then .v q.off.toNat else .w q.off.toNat]) ++ q.reads

/-- The lanes of a word: those of its mask, or for a uniform word one (R209). -/
def MemRow.lanes (q : MemRow) (t : Team) : List Nat :=
  match q.lane with
  | some k => (List.range t.lanes).filter fun l => (t.rm k).getLsbD l
  | none => [0]

/-- A lane's offset (R198): the offset register's signed value and the prefix's constant. -/
def MemRow.offs (q : MemRow) (t : Team) (l : Nat) : Int :=
  (if q.off = 63#6 then 0 else if q.lane.isSome then (t.rv q.off.toNat l).toInt else (t.rw q.off).toInt)
    + (match q.h.im with | none => 0 | some p => p.toInt)

/-- What the lanes come to in the checks of R202, or of R194 on scratchpad; and the state after them (translations fill TLBs). -/
def MemRow.check (q : MemRow) (s : State) (b : Block) (t : Team) : Checked × State :=
  match q.x with
  | some x => s.checkX b (t.rx x) q.need q.size (q.offs t) (q.val t) (q.cmp t) (q.lanes t)
  | none => (s.checkSp b q.size (fun l => ((q.offs t l) % 2 ^ 32).toNat) (q.val t) (q.cmp t) (q.lanes t), s)

/-- Nothing of the debug unit watches the core's data (R440). -/
def unwatched (s : State) (b : Block) : Prop := ∀ i, ((s.core b.core).cmp.getD i (0#64, 0#64)).1.getLsbD 0 = false

/-- A word whose checks a lane fails raises the cause of its lowest failing lane, unless it is a lane form in lane-suppress mode
(R202, R386). -/
def raisesLowest (i : Instr) (s s1 : State) (t : Team) (lane : Bool) (c : Checked) : Prop :=
  ∀ x l, c.bad = x :: l → (lane = false ∨ t.status.getLsbD 0 = false) → exec i s = .next (s1.trapAt x.2.1 x.1 (badLanes c.bad))

/-- In lane-suppress mode the failing lanes leave the governing mask, and LSF is set, both as run-bound results (R386, R90). -/
def suppresses (s : State) (t u : Team) (k : Option (BitVec 3)) (c : Checked) : Prop :=
  u.status = t.status ∧ (c.bad = [] → u.run.writes = t.run.writes) ∧
  (∀ m, k = some m → c.bad ≠ [] → u.run.writes = t.run.writes ++
    [{ write := .mc m.toNat (maskOf (c.bad.map fun x => x.1)), at' := s.clock }, { write := .lsf, at' := s.clock }])

/-- An earlier chain's access of path L that is not performed comes before a scratchpad word of the team (R214, R220, R251): a scratchpad
access, an acquire, or, where the word is one that all come before (`all`: it has a scope, or is a release), any. -/
def comesFirst (s : State) (t : Team) (all : Bool) : Prop :=
  ∃ o ∈ t.ops, o.id < s.cur.base ∧ o.path = .l ∧ (o.sp = true ∨ o.scope.isSome = true ∧ o.kind ≠ .store ∨ all = true)

/-- The team has a scratchpad access or an acquire of path L that is not performed. -/
def stillFirst (t : Team) : Prop := ∃ o ∈ t.ops, o.path = .l ∧ (o.sp = true ∨ o.scope.isSome = true ∧ o.kind ≠ .store)

/-- The team's accesses are joined by one access of a word's lanes (R203, R213). -/
def joinsOps (q : MemRow) (s : State) (t u : Team) (ls : List LaneAcc) : Prop :=
  ∃ o : MemOp, u.ops = t.ops ++ [o] ∧ o.sp = q.x.isNone ∧ o.kind = q.kind ∧ o.path = .l ∧ o.size = q.size ∧ o.sx = q.sx ∧ o.op = q.op ∧
    o.ty = q.ty ∧ o.dest = q.dest ∧ o.scope = q.h.sc.map (fun z => z.toNat) ∧ o.lanes = ls ∧ o.pc = s.cur.addr ∧
    (q.dest = none → o.pend = none) ∧
    (q.dest ≠ none → o.pend = some o.id ∧ { id := o.id, regs := q.dests, ready := none, nred := false } ∈ u.pend)

/-- Whether lane `a` of an access of `n` bytes covers byte `o` of block `x`'s scratchpad. -/
def covers (n x o : Nat) (a : LaneAcc) : Prop := a.blk = x ∧ a.pa.getD 0 ≤ o ∧ o < a.pa.getD 0 + n

/-- Bytes of scratchpad after stores by lanes in increasing index (R213): of the lanes that cover a byte the last gives it. -/
def storedSp (s v : State) (n : Nat) (ls : List LaneAcc) : Prop :=
  ∀ x y z, s.block? x = some y → v.block? x = some z → ∀ o,
    ((∀ a ∈ ls, ¬covers n x o a) → z.spad.rd o = y.spad.rd o) ∧
    (∀ l a r, ls = l ++ a :: r → covers n x o a → (∀ c ∈ r, ¬covers n x o c) →
      (z.spad.rd o).toNat = a.val / 2 ^ (8 * (o - a.pa.getD 0)) % 256)

end Sys2Proof.Claims

/-- R198, R202, R203, R209 to R214, R217 to R219, R246: a memory word issues its access of the lanes that pass their checks, and a
result that is not ready makes its destination pending; with no lane it has no effect. While a write of a routing entry holds back a
table that a lane's translation needs, the word waits with XLATE (R425). In lane-suppress mode LSF and the mask are
run-bound results, the model's reading (log entry 94). PREF changes nothing. -/
def Obligations.MemoryWordsIssueTheirAccess : Prop :=
  (∀ (h : Hd) (k x : BitVec 3) (o : BitVec 6) (l : BitVec 1) (s : State) (b : Block) (t : Team),
    s.Free ([.m k.toNat, .x x.toNat] ++ if o = 63#6 then [] else [.v o.toNat]) [] false b t →
    exec (.pref h k x o l) s = .next (s.issue h false id)) ∧
  (∀ (i : Instr) (q : MemRow) (x : BitVec 3) (s s1 : State) (b : Block) (t : Team) (c : Checked), memRow i = some q → q.x = some x →
    s.Free q.regs q.dests (!q.dests.isEmpty) b t → q.check s b t = (c, s1) → unwatched s1 b → s1.logUsed b.core < 32 →
    let waits := ∃ a ∈ c.ok, a.pa = none ∧ s1.tableWait b.tag a.va = true
    raisesLowest i s s1 t q.lane.isSome c ∧
    (waits → c.bad = [] → parksWith i s .xlate) ∧
    (¬waits → c.bad = [] ∨ q.lane.isSome = true ∧ t.status.getLsbD 0 = true →
      issuesWith i s fun _ u => suppresses s t u q.lane c ∧
        (c.ok = [] → u.ops = t.ops ∧ u.pend = t.pend) ∧
        (c.ok ≠ [] → joinsOps q s t u c.ok)))

/-- R202, R198, R194: the checks of one lane in their order, through a translation register that covers it (XINVALID, ALIGN, the
permission, the window, the route) and on scratchpad (SPRANGE, ALIGN). -/
def Obligations.LanesAreCheckedInOrder : Prop :=
  (∀ (s : State) (b : Block) (c : Ctx) (x : XReg) (need : Need) (n : Nat) (o : Int), s.ctxOf b = some c →
    let va := ((x.vbase.toNat + o) % 2 ^ 56).toNat
    let pa := (x.frame.toNat + o.toNat) % 2 ^ 57
    let allowed := match need with | .rd => x.rd | .wr => x.wr | .at' => x.at'
    (x.val = false → s.legalX b x need n o = (va, .bad .xinvalid, s)) ∧
    (x.val = true → va % n ≠ 0 → s.legalX b x need n o = (va, .bad .align, s)) ∧
    (x.val = true → va % n = 0 → 0 ≤ o → o < x.limit.toNat →
      (reservedLocal (paLocal pa) = true → s.legalX b x need n o = (va, .bad .unmapped, s)) ∧
      (reservedLocal (paLocal pa) = false →
        (allowed = false → s.legalX b x need n o = (va, .bad .perm, s)) ∧
        (allowed = true → 0x8000000000 ≤ paLocal pa → s.legalX b x need n o = (va, .bad .window, s)) ∧
        (allowed = true → paLocal pa < 0x8000000000 → s.reachable c (paModule pa) = false →
          s.legalX b x need n o = (va, .bad .noroute, s)) ∧
        (allowed = true → paLocal pa < 0x8000000000 → s.reachable c (paModule pa) = true →
          s.legalX b x need n o = (va, .pa pa, s))))) ∧
  (∀ (s : State) (b : Block) (n a : Nat), 1 ≤ n → a < 2 ^ 18 →
    (b.spadSize ≤ a → s.legalSp b n a = .error .sprange) ∧
    (a < b.spadSize → a % n ≠ 0 → s.legalSp b n a = .error .align) ∧
    (a + n ≤ b.spadSize → a % n = 0 → s.legalSp b n a = .ok (b.id, a)))

/-- R194, R209 to R214, R217 to R219: a scratchpad word acts on the lanes that pass their checks. Where its turn keeps it apart, or an earlier
access of the team has to come first (R214, R220, R251), it joins the team's accesses and changes no byte yet (R255). Else it acts
whole at its issue: a load's result is ready, the bytes stored are the lanes', of two lanes on one byte the higher's, and atomics act one
lane after another. That a word may act whole, and that the turn says so, is the model's choice (log entry 34); that a word which has to wait
for an earlier access issues and joins, and does not park, is its reading (log entry 35); so is that lane-suppress mode writes the mask and LSF
with the run's results (log entry 94). -/
def Obligations.ScratchpadWordsActAtOnce : Prop :=
  ∀ (i : Instr) (q : MemRow) (s s1 : State) (b : Block) (t : Team) (c : Checked), memRow i = some q → q.x = none →
    s.Free q.regs q.dests (!q.dests.isEmpty) b t → q.check s b t = (c, s1) → unwatched s b →
    let acts := c.bad = [] ∨ q.lane.isSome = true ∧ t.status.getLsbD 0 = true
    let late := s.apart = true ∨ comesFirst s t q.h.sc.isSome
    raisesLowest i s s t q.lane.isSome c ∧
    (acts → late → c.ok ≠ [] →
      issuesWith i s fun v u => suppresses s t u q.lane c ∧ joinsOps q s t u c.ok ∧
        ∀ x, (v.block? x).map (fun y => y.spad) = (s.block? x).map fun y => y.spad) ∧
    (acts → ¬late ∨ c.ok = [] →
      issuesWith i s fun v u => suppresses s t u q.lane c ∧ u.ops = t.ops ∧
        (c.ok = [] ∨ q.dest = none → u.pend = t.pend) ∧
        (∀ d, q.kind = .load → c.ok ≠ [] → q.dest = some d → ∃ id, u.pend = t.pend ++ [⟨id, q.dests,
          some (loadWrites d t.lanes q.size q.sx (s.spRead q.size c.ok)), false, false⟩]) ∧
        (q.kind = .store → storedSp s v q.size c.ok) ∧
        (q.kind = .atom →
          (∀ x, (v.block? x).map (fun y => y.spad) = ((s.spAtoms q.size q.op q.ty c.ok).2.block? x).map fun y => y.spad) ∧
          (∀ d, c.ok ≠ [] → q.dest = some d → ∃ id, u.pend = t.pend ++ [⟨id, q.dests,
            some (loadWrites d t.lanes q.size false (s.spAtoms q.size q.op q.ty c.ok).1), false, false⟩])))

/-- R214 to R216: LDS.fe and LDS.fk read once every granule of their lanes is full and the team's earlier scratchpad accesses are performed,
.fe then empties them, and wait with FEWAIT until then; FESET and FECLR join the team's accesses with one for each granule of their range, and performing these sets or
clears their full bits and leaves the data; of an address that is misaligned ALIGN comes first, the model's choice (log entry 122). -/
def Obligations.FullBitsGateConsumingLoads : Prop :=
  (∀ (h : Hd) (k : BitVec 3) (d o : BitVec 6) (e : BitVec 1) (z : BitVec 2) (fe : Bool) (s s1 : State) (b : Block) (t : Team)
      (c : Checked),
    let q := loadRow h (some k) none o d e z
    let i : Instr := if fe then .ldsFe h k d o e z else .ldsFk h k d o e z
    s.Free q.regs q.dests true b t → q.check s b t = (c, s1) → unwatched s b →
    b.dying = false → c.bad = [] → c.ok ≠ [] →
    let full := (c.ok.all fun a => match s.block? a.blk with | some y => y.full.contains (a.pa.getD 0 / 16) | none => false) = true ∧
      ¬stillFirst t
    (full → issuesWith i s fun v u => u.run.ended = true ∧ u.wait = none ∧
      (∃ p ∈ u.pend, p.regs = q.dests ∧
        p.ready = some (loadWrites (.v d.toNat) t.lanes q.size q.sx (s.spRead q.size c.ok))) ∧
      ∀ x y w, s.block? x = some y → v.block? x = some w → ∀ g,
        g ∈ w.full ↔ g ∈ y.full ∧ ¬(fe = true ∧ ∃ a ∈ c.ok, a.blk = x ∧ a.pa.getD 0 / 16 = g)) ∧
    (¬full → issuesWith i s fun v u => u.run.ended = true ∧ u.stall = .fewait ∧
      (∃ id m, u.wait = some (.consume c.ok q.size q.sx d.toNat fe id m) ∧
        { id := id, regs := q.dests, ready := none, nred := false } ∈ u.pend) ∧
      ∀ x y w, s.block? x = some y → v.block? x = some w → w.full = y.full)) ∧
  (∀ (h : Hd) (d o : BitVec 6) (s : State) (b : Block) (t : Team) (a : Nat),
    s.Free (.w d.toNat :: if o = 63#6 then [] else [.w o.toNat]) [] false b t →
    a = (((if o = 63#6 then 0 else (t.rw o).toInt) + (match h.im with | none => 0 | some p => p.toInt)) % 2 ^ 32).toNat →
    let n := (t.rw d).toNat
    (a % 16 ≠ 0 ∨ n % 16 ≠ 0 → exec (.feset h d o) s = .next (s.trap .align) ∧ exec (.feclr h d o) s = .next (s.trap .align)) ∧
    (a % 16 = 0 → n % 16 = 0 → a < b.spadSize → a < 2 ^ 18 → a + n ≤ b.spadSize → n ≤ 262144 →
      let joins (i : Instr) (k : AccKind) : Prop := issuesWith i s fun _ u =>
        (n = 0 → u.ops = t.ops) ∧
        (n ≠ 0 → ∃ op : MemOp, u.ops = t.ops ++ [op] ∧ op.kind = k ∧ op.sp = true ∧ op.path = .l ∧
          ∀ blk g, (∃ l ∈ op.lanes, l.done = false ∧ l.blk = blk ∧ l.pa = some (16 * g)) ↔ blk = b.id ∧ a ≤ 16 * g ∧ 16 * g < a + n)
      joins (.feset h d o) .feset ∧ joins (.feclr h d o) .feclr)) ∧
  (∀ (s : State) (r : TRef) (n x : Nat) (b y : Block) (t : Team) (op : MemOp) (l : List MemOp), s.dueOp r n = some (b, t, op) →
    t.ops = op :: l → op.sp = true → op.isFe = true → s.block? x = some y →
    (op.lanes.map fun a => a.lane).Nodup → (∀ a ∈ op.lanes, a.done = false ∧ a.blk = x ∧ a.pa.isSome = true) →
    ∃ (v : State) (z : Block), exec (.accessPerformed r n) s = .next v ∧ v.block? x = some z ∧ z.spad = y.spad ∧
      (∀ c u, v.team? r = some (c, u) → ∀ p ∈ u.ops, p.id ≠ n) ∧
      ∀ g, g ∈ z.full ↔ (if op.kind = .feset then g ∈ y.full ∨ ∃ a ∈ op.lanes, a.pa.getD 0 / 16 = g
        else g ∈ y.full ∧ ¬∃ a ∈ op.lanes, a.pa.getD 0 / 16 = g))

/-- R221 to R223: FENCE waits with REPLAY while an earlier access is logged, then with PIPE while one of path L is not performed, and then
issues; XFENCE waits with PIPE for its two paths, of which path N is free once the contribution of an NRED has joined, the model's choice
(log entry 123); SPFENCE waits with PIPE for the team's earlier scratchpad writes, FESET, FECLR and copies into scratchpad among them, and
then empties the core's operand caches. -/
def Obligations.FencesAwaitWhatCameBefore : Prop :=
  ∀ (h : Hd) (q p : BitVec 3) (s : State) (b : Block) (t : Team), s.Free [] [] false b t →
    let earlier (c : MemOp → Prop) : Prop := ∃ o ∈ t.ops, o.id < s.cur.base ∧ c o
    let copies : Prop := ∃ c ∈ s.copies, c.b = b.id ∧ c.team = t.idx ∧ c.id < s.cur.base ∧ c.toSpad = true
    let writes : Prop := earlier fun o => o.sp = true ∧ o.kind ≠ .load
    (earlier (fun o => o.logged = true) → exec (.fence h) s = .next (s.park .replay)) ∧
    (¬earlier (fun o => o.logged = true) → earlier (fun o => o.path = .l) → exec (.fence h) s = .next (s.park .pipe)) ∧
    (¬earlier (fun o => o.logged = true) → ¬earlier (fun o => o.path = .l) → exec (.fence h) s = .next (s.issue h false id)) ∧
    (s.pathBusy b t (pathOf p) = false → s.pathBusy b t (pathOf q) = false → exec (.xfence h q p) s = .next (s.issue h false id)) ∧
    (s.pathBusy b t (pathOf p) = true ∨ s.pathBusy b t (pathOf q) = true → exec (.xfence h q p) s = .next (s.park .pipe)) ∧
    (writes ∨ copies → exec (.spfence h) s = .next (s.park .pipe)) ∧
    (¬writes → ¬copies → issuesWith (.spfence h) s fun v _ =>
      ∀ x ∈ v.blocks, x.core = b.core → x.place = .resident → x.ocache = [])

namespace Sys2Proof.Claims
open Sys2Proof.Machine

/-- Byte `i` of lane `a`'s access of `n` bytes lies at address `x` (R207). -/
def byteAt (s : State) (n x : Nat) (a : LaneAcc) (i : Nat) : Prop := i < n ∧ ∃ pa, a.pa = some pa ∧ s.home (pa + i) = x

/-- The results of R218: of the old value `o`, the operand `v` and the comparand `c`. -/
def atomR (op : Nat) (ty : BitVec 4) (o v c : Nat) : Nat :=
  let n := if is64 ty then 64 else 32
  let f := if ty = 11#4 then f64 else f32
  let env : FEnv := { md := .rn, fz := false }
  match op with
  | 0 => (o + v) % 2 ^ n
  | 1 => if (if isSigned ty then decide (intR true n v < intR true n o) else decide (v < o)) then v else o
  | 2 => if (if isSigned ty then decide (intR true n o < intR true n v) else decide (o < v)) then v else o
  | 3 => o &&& v
  | 4 => o ||| v
  | 5 => o ^^^ v
  | 6 => v
  | 7 => if o = c then v else o
  | 8 => f.add env o v
  | 9 => f.minmax false o v
  | _ => f.minmax true o v

/-- Nothing holds an access of a team (R205, R214): no earlier access comes before one of its lanes, whose numbers rise. -/
def unheld (s : State) (t : Team) (o : MemOp) : Prop :=
  (∀ p ∈ t.ops.takeWhile (fun p => p.id != o.id), ∀ l ∈ o.lanes, s.holds p o l = false) ∧ o.lanes.Pairwise fun a c => a.lane < c.lane

end Sys2Proof.Claims

/-- R213, R214, R218, R221: performing an access of a context that nothing holds and whose lanes are all on resident pages of this module: a load's lanes
read memory as it stands and its result is ready; a store's bytes stand in memory, of two lanes on one byte the higher's; an
atomic of a lane that no other lane meets reads the old value and leaves the new one; each lane's bytes lie in one line, as their
alignment has it (R202). Nothing else of memory changes. A scratchpad access
kept apart (log entry 34) acts on the scratchpads of its lanes' blocks as one that is performed at its issue does. -/
def Obligations.AccessesArePerformedOnMemory : Prop :=
  (∀ (s : State) (r : TRef) (n : Nat) (b : Block) (t : Team) (o : MemOp), s.dueOp r n = some (b, t, o) → b.bureau = none →
    o.sp = true → o.lanes ≠ [] →
    (∀ p ∈ t.ops.takeWhile (fun p => p.id != o.id), p.sp = false ∧ o.scope = none ∧ (p.kind ≠ .store → p.scope = none)) →
    (o.lanes.Pairwise fun a c => a.lane < c.lane) → (∀ l ∈ o.lanes, l.done = false ∧ l.pa.isSome = true) →
    (o.kind = .load ∨ o.kind = .store ∨ o.kind = .atom) →
    ∃ (v : State) (c : Block) (u : Team), exec (.accessPerformed r n) s = .next v ∧ v.team? r = some (c, u) ∧ v.mem = s.mem ∧
      (∀ p ∈ u.ops, p ∈ t.ops ∧ p.id ≠ n) ∧
      (let ready (ls : List LaneAcc) : Prop := ∀ d p, o.dest = some d → o.pend = some p → ∀ e ∈ u.pend, e.id = p →
          e.ready = some (loadWrites d t.lanes o.size o.sx ls)
       (o.kind = .load → ready (s.spRead o.size o.lanes)) ∧
       (o.kind = .store → storedSp s v o.size o.lanes) ∧
       (o.kind = .atom → ready (s.spAtoms o.size o.op o.ty o.lanes).1 ∧
         ∀ x, (v.block? x).map (fun y => y.spad) = ((s.spAtoms o.size o.op o.ty o.lanes).2.block? x).map fun y => y.spad))) ∧
  ∀ (s : State) (r : TRef) (n : Nat) (b : Block) (t : Team) (o : MemOp), s.dueOp r n = some (b, t, o) → b.bureau = none →
    o.sp = false → o.lanes ≠ [] → unheld s t o →
    (∀ l ∈ o.lanes, l.done = false ∧ ∃ pa, l.pa = some pa ∧ paModule (s.home pa) = s.pod.toNat ∧ pa % 64 + o.size ≤ 64) →
    (o.kind = .load ∨ o.kind = .store ∨ o.kind = .atom) →
    ∃ (v : State) (c : Block) (u : Team), exec (.accessPerformed r n) s = .next v ∧ v.team? r = some (c, u) ∧ (∀ p ∈ u.ops, p ∈ t.ops ∧ p.id ≠ n) ∧
      (∀ x, (∀ l ∈ o.lanes, ∀ i, ¬byteAt s o.size x l i) → v.mem.rd x = s.mem.rd x) ∧
      (o.kind = .load → v.mem = s.mem ∧ ∀ d p, o.dest = some d → o.pend = some p → ∀ e ∈ u.pend, e.id = p →
        e.ready = some (loadWrites d t.lanes o.size o.sx (o.lanes.map fun l => { l with val := s.pmRd (l.pa.getD 0) o.size }))) ∧
      (o.kind = .store → ∀ x l a k i, o.lanes = l ++ a :: k → byteAt s o.size x a i → (∀ j, i < j → ¬byteAt s o.size x a j) →
        (∀ e ∈ k, ∀ j, ¬byteAt s o.size x e j) → (v.mem.rd x).toNat = a.val / 2 ^ (8 * i) % 256) ∧
      (o.kind = .atom → ∀ l a k pa, o.lanes = l ++ a :: k → a.pa = some pa →
        (∀ e ∈ l ++ k, ∀ y j m, byteAt s o.size y a j → ¬byteAt s o.size y e m) →
        (∀ d p, o.dest = some d → o.pend = some p → ∀ e ∈ u.pend, e.id = p → ∃ ls, e.ready = some (loadWrites d t.lanes o.size o.sx ls) ∧
          ls.map (fun z => z.lane) = o.lanes.map (fun z => z.lane) ∧ ∃ z ∈ ls, z.lane = a.lane ∧ z.val = s.pmRd pa o.size) ∧
        ∀ x i, byteAt s o.size x a i → (v.mem.rd x).toNat = atomR o.op o.ty (s.pmRd pa o.size) a.val a.cmp / 2 ^ (8 * i) % 256)

namespace Sys2Proof.Claims
open Sys2Proof.Machine

/-! ### Benches and sharing groups (R224 to R243) -/

/-- A scratchpad address of a uniform word: offset register (63 is none) and the prefix's constant (R194). -/
def uniAddr (t : Team) (h : Hd) (o : BitVec 6) : Nat :=
  (((if o = 63#6 then 0 else (t.rw o).toInt) + (match h.im with | none => 0 | some p => p.toInt)) % 2 ^ 32).toNat

/-- The fields of a bench (R224): EXPA, EXPB, ARR, BYTES, PHASE, OVF. -/
structure Bench where
  expa : Nat
  expb : Nat
  arr : Nat
  bytes : Nat
  phase : Nat
  ovf : Nat
  deriving DecidableEq, Repr
def benchR (x : Nat) : Bench :=
  { expa := x % 2 ^ 16, expb := x / 2 ^ 16 % 2 ^ 32, arr := x / 2 ^ 64 % 2 ^ 16, bytes := x / 2 ^ 80 % 2 ^ 32
    phase := x / 2 ^ 112 % 2 ^ 15, ovf := x / 2 ^ 127 % 2 }

/-- A post of `na` arrivals and `nb` bytes (R226): each count is clamped with OVF; then phases complete, `k` of them, until the counts
no longer cover the expectations; with no expectation none does. -/
def postR (x y : Bench) (na nb : Nat) : Prop :=
  let full := 65535 < x.arr + na ∨ 2 ^ 32 - 1 < x.bytes + nb
  let a := min (x.arr + na) 65535
  let c := min (x.bytes + nb) (2 ^ 32 - 1)
  y.expa = x.expa ∧ y.expb = x.expb ∧ (full → y.ovf = 1) ∧ (¬full → y.ovf = x.ovf) ∧
  ∃ k, y.phase = (x.phase + k) % 2 ^ 15 ∧ a = y.arr + k * x.expa ∧ c = y.bytes + k * x.expb ∧
    (x.expa = 0 ∧ x.expb = 0 → k = 0) ∧ (x.expa ≠ 0 ∨ x.expb ≠ 0 → y.arr < x.expa ∨ y.bytes < x.expb)

/-- A bench of a block as a number. -/
def benchOf (s : State) (x o : Nat) : Bench := benchR (s.spadRd x o 16)

/-- A word on a bench has joined the team's accesses with one access of the bench's 16 bytes (R225, R227, R255). -/
def joinsBench (t u : Team) (k : AccKind) (x off val : Nat) : Prop :=
  ∃ o a, u.ops = t.ops ++ [o] ∧ o.kind = k ∧ o.sp = true ∧ o.path = .l ∧ o.size = 16 ∧ o.lanes = [a] ∧ a.done = false ∧ a.blk = x ∧
    a.pa = some off ∧ a.val = val

/-- Access `n` of a team is an access `o` of bench word kind `k`, its oldest that is not performed, on lane `a` at `off` of block `y`. -/
structure BenchDue (s : State) (r : TRef) (n : Nat) (k : AccKind) (t : Team) (o : MemOp) (a : LaneAcc) (off : Nat) (y : Block) : Prop where
  due : ∃ b, s.dueOp r n = some (b, t, o)
  oldest : ∃ l, t.ops = o :: l
  kind : o.kind = k
  bench : o.sp = true ∧ o.size = 16
  lane : o.lanes = [a] ∧ a.done = false ∧ a.pa = some off
  block : s.block? a.blk = some y

/-- A block is a member of the group of a key in block `b`'s context and cluster (R242). -/
def inGroup (b : Block) (key : Nat) (x : Block) : Bool :=
  x.tag == b.tag && x.bureau == b.bureau && x.core / 4 == b.core / 4 && x.group.any fun g => g.key == key

/-- SGJOIN raises no SGROUP (R242). -/
structure Joins (s : State) (b : Block) (key count : Nat) : Prop where
  range : 1 ≤ count ∧ count ≤ 4
  own : ∀ g, b.group = some g → g.key = key
  alone : ∀ x ∈ s.blocks, inGroup b key x = true → x.id ≠ b.id → x.core ≠ b.core
  same : ∀ x ∈ s.blocks, inGroup b key x = true → x.group.map (fun g => g.count) = some count
  room : (s.blocks.filter (inGroup b key)).length < count ∨ ∃ x ∈ s.blocks, inGroup b key x = true ∧ x.id = b.id

end Sys2Proof.Claims

/-- R225, R228, R214: BINIT sets the expectations and zeroes the rest, at its issue or, where its turn keeps it apart or an earlier access of the
team has to come first, when the access that it joins is performed; a BINIT without expectations raises BENCHARG. BWAIT goes on at once where
the bench is past its phase and the team's earlier scratchpad accesses are performed, and waits with BENCH until then. That a bench word may
act at its issue is the model's choice (log entry 34), that it joins and does not park its reading (log entry 35). -/
def Obligations.BenchWordsActOnTheirBench : Prop :=
  (∀ (h : Hd) (d o : BitVec 6) (s : State) (b : Block) (t : Team) (x off : Nat) (y : Block),
    s.legalSp b 16 (uniAddr t h o) = .ok (x, off) → s.block? x = some y →
    s.Free (.w d.toNat :: if o = 63#6 then [] else [.w o.toNat]) [] false b t →
      let late := s.apart = true ∨ comesFirst s t false
      ((t.rw d).toNat % 2 ^ 48 = 0 → exec (.binit h d o) s = .next (s.trap .bencharg)) ∧
      ((t.rw d).toNat % 2 ^ 48 ≠ 0 → ¬late → issuesWith (.binit h d o) s fun v u => u.ops = t.ops ∧
        benchOf v x off = { expa := (t.rw d).toNat % 2 ^ 16, expb := (t.rw d).toNat / 2 ^ 16 % 2 ^ 32, arr := 0, bytes := 0
                            phase := 0, ovf := 0 }) ∧
      ((t.rw d).toNat % 2 ^ 48 ≠ 0 → late → issuesWith (.binit h d o) s fun v u =>
        joinsBench t u .binit x off ((t.rw d).toNat % 2 ^ 48) ∧ ∀ z, (v.block? z).map (fun w => w.spad) = (s.block? z).map fun w => w.spad) ∧
      (b.dying = false →
        let past := 1 ≤ ((benchOf s x off).phase + 2 ^ 15 - (t.rw d).toNat % 2 ^ 15) % 2 ^ 15 ∧
          ((benchOf s x off).phase + 2 ^ 15 - (t.rw d).toNat % 2 ^ 15) % 2 ^ 15 ≤ 2 ^ 14
        let goes := past ∧ ¬stillFirst t
        issuesWith (.bwait h d o) s fun _ u => u.run.ended = true ∧ (goes → u.wait = none) ∧
          (¬goes → u.wait = some (.bench x off ((t.rw d).toNat % 2 ^ 15)) ∧ u.stall = .bench))) ∧
  (∀ (s : State) (r : TRef) (n : Nat) (t : Team) (o : MemOp) (a : LaneAcc) (off : Nat) (y : Block),
    BenchDue s r n .binit t o a off y → a.val < 2 ^ 48 → ∃ (v : State) (c : Block) (u : Team), exec (.accessPerformed r n) s = .next v ∧
      v.team? r = some (c, u) ∧ (∀ p ∈ u.ops, p.id ≠ n) ∧
      benchOf v a.blk off = { expa := a.val % 2 ^ 16, expb := a.val / 2 ^ 16, arr := 0, bytes := 0, phase := 0, ovf := 0 })

/-- R226: a post clamps its counts and completes phases, whatever the bench holds; BARRIVE posts one arrival (R227), at its issue or, where
its turn keeps it apart or, it being a release, an earlier access of path L has to come first, when the access that it joins is performed (the
model's choice and reading: log entries 34 and 35); and a copy posts its bytes (R235), in the step in which it is gone from the copies in
flight. -/
def Obligations.PostsCompletePhases : Prop :=
  (∀ (x na nb : Nat), x < 2 ^ 128 → postR (benchR x) (benchR (benchPost x na nb)) na nb ∧ benchPost x na nb < 2 ^ 128) ∧
  (∀ (h : Hd) (o : BitVec 6) (s : State) (b : Block) (t : Team) (x off : Nat) (y : Block),
    s.legalSp b 16 (uniAddr t h o) = .ok (x, off) → s.block? x = some y →
    s.Free (if o = 63#6 then [] else [.w o.toNat]) [] false b t →
      let late := s.apart = true ∨ comesFirst s t true
      (¬late → issuesWith (.barrive h o) s fun v u => u.ops = t.ops ∧ postR (benchOf s x off) (benchOf v x off) 1 0 ∧
        ∀ w, v.block? x = some w → ∀ a, a < off ∨ off + 16 ≤ a → w.spad.rd a = y.spad.rd a) ∧
      (late → issuesWith (.barrive h o) s fun v u => joinsBench t u .barrive x off 0 ∧ benchOf v x off = benchOf s x off)) ∧
  (∀ (s : State) (r : TRef) (n : Nat) (t : Team) (o : MemOp) (a : LaneAcc) (off : Nat) (y : Block),
    BenchDue s r n .barrive t o a off y → ∃ (v : State) (c : Block) (u : Team), exec (.accessPerformed r n) s = .next v ∧
      v.team? r = some (c, u) ∧ (∀ p ∈ u.ops, p.id ≠ n) ∧ postR (benchOf s a.blk off) (benchOf v a.blk off) 1 0) ∧
  (∀ (s s1 : State) (c c1 : Copy) (b y : Block) (x off : Nat), s.copies.find? (fun x => x.id == c.id) = some c → s.block? c.b = some b →
    s.moveRest b c = (s1, c1) → c1.dests ≤ c1.done.length → c1.bench = some (x, off) → s1.block? x = some y →
    ∃ v : State, exec (.copyCompletion c.id) s = .next v ∧
      (v.copies.find? (fun x => x.id == c.id) = none → postR (benchOf s1 x off) (benchOf v x off) 0 c1.bytes) ∧
      (v.copies.find? (fun x => x.id == c.id) ≠ none → c1.told = false ∧ benchOf v x off = benchOf s1 x off))

/-- R242, R243: SGJOIN makes the block a member and goes on once its key's group holds COUNT members, and with it every other team that waits
there for the group; each condition of R242 that fails raises SGROUP; it waits, with BENCH as a team in SGJOIN does (R448), until the team's
earlier scratchpad words are performed (R261, R462). SGLEAVE ends the block's membership. -/
def Obligations.GroupsAreJoinedAndLeft : Prop :=
  ∀ (h : Hd) (d : BitVec 6) (s : State) (b : Block) (t : Team),
    (s.Free [.w d.toNat] [] false b t → b.dying = false →
      let key := (t.rw d).toNat % 2 ^ 16
      let count := (t.rw d).toNat / 2 ^ 16 % 8
      let n := (s.blocks.filter fun x => inGroup b key x || x.tag == b.tag && x.bureau == b.bureau && x.id == b.id &&
        x.core / 4 == b.core / 4).length
      let early := ∃ o ∈ t.ops, o.sp = true ∧ o.id < s.cur.base
      (Joins s b key count → early → exec (.sgjoin h d) s = .next (s.park .bench)) ∧
      (Joins s b key count → ¬early → issuesWith (.sgjoin h d) s fun v u => u.run.ended = true ∧
        (∃ c, v.block? s.cur.r.b = some c ∧ c.group = some { key := key, count := count }) ∧
        (count ≤ n → u.wait = none ∧ ∀ r x y, s.team? r = some (x, y) → inGroup b key x = true → y.wait = some (.sgjoin key count) →
          ∃ c w, v.team? r = some (c, w) ∧ w.wait = none) ∧
        (n < count → u.wait = some (.sgjoin key count) ∧ u.stall = .bench)) ∧
      (¬Joins s b key count → exec (.sgjoin h d) s = .next (s.trap .sgroup))) ∧
    (s.Free [] [] false b t → issuesWith (.sgleave h) s fun v _ => ∃ c, v.block? s.cur.r.b = some c ∧ c.group = none)

namespace Sys2Proof.Claims
open Sys2Proof.Machine

/-! ### Copies (R229 to R241, R310) -/

/-- A copy word: header, mask, status register, operand block with its length, TK and direction, and the kind (R229). -/
structure CopyWord where
  h : Hd
  u : BitVec 6
  b : BitVec 6
  k : BitVec 3
  n : Nat
  tk : BitVec 2
  dir : BitVec 2
  kind : CKind
def copyWord : Instr → Option CopyWord
  | .cpy h u b k tk r => some ⟨h, u, b, k, 4, tk, r, .cpy⟩
  | .tcpy h u b k tk r => some ⟨h, u, b, k, 5, tk, r, .tcpy⟩
  | .gcpy h u b k tk r => some ⟨h, u, b, k, 6, tk, r, .gcpy⟩
  | .scpy h u b k tk r => some ⟨h, u, b, k, 6, tk, r, .scpy⟩
  | _ => none

/-- A copy word's registers are free. -/
def CopyWord.ready (q : CopyWord) (s : State) (b : Block) (t : Team) : Prop :=
  s.Free (.m q.k.toNat :: (List.range q.n).map fun i => .w (q.b.toNat + i)) (if q.u = 63#6 then [] else [.w q.u.toNat]) (q.u != 63#6) b t

/-- An on-chip side that the copy can have at once: anything but a drawer whose producer tile is not free (R310). -/
def chipFree (s : State) (b : Block) : OnChip → Prop
  | .drawer d r => ∃ c w x, s.block? b.id = some c ∧ c.drawers[d]? = some w ∧ w.ring[r]? = some x ∧ x.st = .free
  | _ => True

/-- The word has issued with copy `c` in flight as the newest (R229), its status register pending where it has one. -/
def handsOver (q : CopyWord) (s v : State) (t u : Team) (c : Copy) : Prop :=
  v.copies = s.copies ++ [c] ∧ (q.u = 63#6 → c.pend = none ∧ u.pend = t.pend) ∧
  (q.u ≠ 63#6 → c.pend = some c.id ∧ u.pend = t.pend ++ [{ id := c.id, regs := [.w q.u.toNat], ready := none, nred := false, copy := true }])

end Sys2Proof.Claims

/-- R229, R233, R237 to R240, R310: a copy word without a lane has no effect; one that passes its checks hands its copy to the engine,
with its addresses, its layout record, its origin, its index list and its bench, and takes the drawer's tile; a drawer whose tile is
not free parks it with DRAWER. That a drawer number in CPY's dst is not tested for 16 bytes is the model's reading (log entry 18), and that
TCPY's table is read after its other checks its choice (log entry 129). -/
def Obligations.CopyWordsHandTheirCopyOver : Prop :=
  (∀ (i : Instr) (q : CopyWord) (s : State) (b : Block) (t : Team), copyWord i = some q → q.ready s b t →
    (∀ l, l < t.lanes → (t.rm q.k).getLsbD l = false) → exec i s = .next (s.issue q.h false id)) ∧
  (∀ (i : Instr) (q : CopyWord) (s : State) (b : Block) (t : Team) (chip : OnChip) (bench : Option (Nat × Nat)),
    copyWord i = some q → q.kind = .cpy → q.ready s b t → (∃ l, l < t.lanes ∧ (t.rm q.k).getLsbD l = true) →
    let src := t.opnd q.b 0
    let dst := t.opnd q.b 1
    let n := t.opnd q.b 2
    (src % 16 ≠ 0 ∨ (dst % 16 ≠ 0 ∧ q.tk ≠ 1#2) ∨ n % 16 ≠ 0 → exec i s = .next (s.trap .align)) ∧
    (src % 16 = 0 → dst % 16 = 0 ∨ q.tk = 1#2 → n % 16 = 0 → n ≤ 2 ^ 24 →
      (q.dir = 2#2 → chip = .none ∧ (src % 2 ^ 56 + n ≤ dst % 2 ^ 56 ∨ dst % 2 ^ 56 + n ≤ src % 2 ^ 56)) →
      (q.dir ≠ 2#2 → s.chipChk b q.tk (if q.dir = 0#2 then dst else src) n = .ok chip) →
      s.benchReg b (t.opnd q.b 3) = .ok bench → b.tooBig chip n = false →
      (n ≠ 0 → chipFree s b chip → issuesWith i s fun v u => ∃ c, handsOver q s v t u c ∧ c.b = b.id ∧ c.team = t.idx ∧
        c.kind = .cpy ∧ c.dir = q.dir.toNat ∧ c.chip = chip ∧ c.bench = bench ∧ c.bytes = n ∧ c.src = src % 2 ^ 56 ∧
        c.dst = dst % 2 ^ 56) ∧
      (n = 0 → chipFree s b chip → issuesWith i s fun v u => (∀ c ∈ v.copies, c ∈ s.copies ∨ c.told = true) ∧
        (q.u ≠ 63#6 → ∃ p ∈ u.pend, p.regs = [.w q.u.toNat] ∧ p.ready = some [.w q.u.toNat 1#64])) ∧
      (∀ d r c w x, chip = .drawer d r → s.block? b.id = some c → c.drawers[d]? = some w → w.ring[r]? = some x → x.st ≠ .free →
        t.granted = false → exec i s = .next (s.parkFor .drawer (.drawer d))))) ∧
  (∀ (i : Instr) (q : CopyWord) (s s1 s2 : State) (b : Block) (t : Team) (rec : Nat) (chip : OnChip) (bench : Option (Nat × Nat))
      (perm : List Nat), copyWord i = some q → q.kind = .tcpy → q.ready s b t → (∃ l, l < t.lanes ∧ (t.rm q.k).getLsbD l = true) →
    s.getVa b 64 (t.opnd q.b 0 % 2 ^ 56) = .ok rec s1 →
    let l := layoutOf rec
    let tile := tileBytes l.fmt (l.t0 * l.t1 * l.t2)
    let nb := tile + if l.kind = 2 ∧ q.tk ≠ 1#2 then bitmapBytes l else 0
    let x := sextNat (t.opnd q.b 4) 16
    let y := sextNat (t.opnd q.b 4 / 2 ^ 16) 16
    let z := sextNat (t.opnd q.b 4 / 2 ^ 32) 16
    s1.chipChk b q.tk (t.opnd q.b 2) nb = .ok chip → s1.benchReg b (t.opnd q.b 3) = .ok bench →
    (l.badTcpy (q.dir = 1#2) x y z = true ∨ 262144 < nb → exec i s = .next (s1.trap .copyarg)) ∧
    (l.badTcpy (q.dir = 1#2) x y z = false → nb ≤ 262144 → b.tooBig chip tile = false → nb ≠ 0 → chipFree s2 b chip →
      s1.getList b 2 (l.perm + 2 * (max x 0).toNat) (if l.perm = 0 then 0 else (min (x + l.t0) l.d0 - max x 0).toNat) = .ok perm s2 →
      issuesWith i s fun v u => ∃ c, handsOver q s2 v t u c ∧ c.kind = .tcpy ∧ c.dir = q.dir.toNat ∧ c.chip = chip ∧ c.bench = bench ∧
        c.bytes = nb ∧ c.lay = l ∧ c.base = t.opnd q.b 1 % 2 ^ 56 ∧ c.x = x ∧ c.y = y ∧ c.z = z ∧ c.perm = perm)) ∧
  (∀ (i : Instr) (q : CopyWord) (s s1 : State) (b : Block) (t : Team) (rec : Nat) (list : List Nat) (chip : OnChip)
      (bench : Option (Nat × Nat)), copyWord i = some q → q.kind = .gcpy ∨ q.kind = .scpy → q.ready s b t →
    (∀ o ∈ t.ops, o.sp = true → s.cur.base ≤ o.id) →
    (∃ l, l < t.lanes ∧ (t.rm q.k).getLsbD l = true) → s.getVa b 64 (t.opnd q.b 0 % 2 ^ 56) = .ok rec s1 →
    let l := layoutOf rec
    let n := t.opnd q.b 4 / 2 ^ 32 % 2 ^ 16
    let nb := n * l.t0 * fmtBytes l.fmt
    s1.indexList b (t.opnd q.b 4 % 2 ^ 32) n = .ok list → s1.chipChk b q.tk (t.opnd q.b 2) nb = .ok chip →
    s1.benchReg b (t.opnd q.b 3) = .ok bench →
    (l.badRows = true ∨ 262144 < nb → exec i s = .next (s1.trap .copyarg)) ∧
    (l.badRows = false → nb ≤ 262144 → b.tooBig chip nb = false → nb ≠ 0 → chipFree s1 b chip →
      issuesWith i s fun v u => ∃ c, handsOver q s1 v t u c ∧ c.kind = q.kind ∧ c.dir = q.dir.toNat ∧ c.chip = chip ∧
        c.bench = bench ∧ c.bytes = nb ∧ c.lay = l ∧ c.base = t.opnd q.b 1 % 2 ^ 56 ∧ c.list = list ∧
        c.x = sextNat (t.opnd q.b 5) 16 ∧ c.z = sextNat (t.opnd q.b 5 / 2 ^ 32) 16))

/-- R230, R234, R235, R237, R310: a copy with every unit moved completes: it is gone, or has given its status and posts next; its status
word is ready with READY set; one of which a unit is held stays. A granule of CPY from scratchpad stands in memory; and a drawer's
tile at the producer pointer, once free, is reserved for the copy that parks on it, whose chain is then due in the same step; the team of
a stopped block is given none. -/
def Obligations.CopiesComplete : Prop :=
  (∀ (s s1 : State) (c c1 : Copy) (b : Block), s.copies.find? (fun x => x.id == c.id) = some c → s.block? c.b = some b →
    s.moveRest b c = (s1, c1) →
    (c1.done.length < c1.dests → exec (.copyCompletion c.id) s = .next (s1.putCopy c1)) ∧
    (c1.dests ≤ c1.done.length → ∃ v : State, exec (.copyCompletion c.id) s = .next v ∧
      (∀ x ∈ v.copies, x.id = c1.id → c1.told = false ∧ x.told = true) ∧
      (c1.told = false → ∀ d u i, v.team? ⟨c1.b, c1.team⟩ = some (d, u) → c1.pend = some i → ∀ p ∈ u.pend, p.id = i →
        ∃ x : Dword, p.ready = some [.w c1.u x] ∧ x.getLsbD 0 = true))) ∧
  (∀ (s s1 : State) (c : Copy) (b : Block) (k off pa : Nat), s.copies.find? (fun x => x.id == c.id) = some c → s.block? c.b = some b →
    c.kind = .cpy → c.dir = 1 → c.chip = .spad k off → c.bytes = 16 → c.bench = none → c.rows = none → c.done = [] → c.got = [] →
    c.held = [] → b.bureau = none → b.chipReady c = true →
    s.legalVa b .wr 16 c.dst = (.pa pa, s1) → s1.moduleHeld (s1.homeModule pa) s1.nextId = false →
    ∃ v : State, exec (.copyCompletion c.id) s = .next v ∧
      ∀ i, i < 16 → (∀ j, j < 16 → s.home (pa + j) = s.home (pa + i) → j = i) →
        (v.mem.rd (s.home (pa + i))).toNat = s.spadRd k off 16 / 2 ^ (8 * i) % 256) ∧
  (∀ (s : State) (r : TRef) (b : Block) (t : Team) (d : Nat) (w : Drawer) (x : DTile), s.team? r = some (b, t) →
    t.want = .drawer d → t.granted = false → t.ended = false → t.trap = none → b.drawers[d]? = some w → w.ring[w.prod]? = some x →
    (x.st = .free → b.live = true → ∃ v c u w' x', exec (.drawerReservation r) s = .next v ∧ v.due = some r ∧
      v.team? r = some (c, u) ∧ u = { t with granted := true } ∧ c.drawers[d]? = some w' ∧ w'.ring[w.prod]? = some x' ∧
      x'.st = .filling) ∧
    (x.st ≠ .free ∨ b.live = false → exec (.drawerReservation r) s = .next s))

namespace Sys2Proof.Claims
open Sys2Proof.Machine

/-! ### Sparse words (R266 to R277) -/

/-- Lane `j` lies in the segment of lane `l`: every lane from the one to the other is active and has `l`'s key (R273). -/
def inSeg (t : Team) (k : BitVec 3) (b : BitVec 6) (l j : Nat) : Bool :=
  decide (l < t.lanes) && decide (j < t.lanes) && (List.range t.lanes).all fun i =>
    !(decide (min j l ≤ i) && decide (i ≤ max j l)) || ((t.rm k).getLsbD i && t.rv b.toNat i == t.rv b.toNat l)

/-- The sum of R273 and of SCATC's `.add` (R270). -/
def sumR (ty : BitVec 4) (t : Team) (h : Hd) (x y : Nat) : Nat :=
  if ty = 10#4 then f32.add (t.fenv h f32) x y else if ty = 11#4 then f64.add (t.fenv h f64) x y
  else (x + y) % 2 ^ (if is64 ty then 64 else 32)

/-- A lane's operand of a segment word as it is read: a floating-point one under the flush bit (R160, R183). -/
def segLeafR (ty : BitVec 4) (t : Team) (a : BitVec 6) (j : Nat) : Nat :=
  if ty = 10#4 then f32.flush (f32.fz t.fpmode) (t.rvN false a.toNat j)
  else if ty = 11#4 then f64.flush (f64.fz t.fpmode) (t.rvN true a.toNat j)
  else t.rvN (is64 ty) a.toNat j

/-- The V-pipe words of class 20 that write each active lane (R272 to R274). -/
def sparseRow : Instr → Option LaneRow
  | .mpath h k d a b => some ⟨h, k, false, 8, d, [.v a.toNat, .v b.toNat], fun t l =>
      (List.range t.lanes).countP fun j => decide ((t.rv a.toNat j).toInt + j < (t.rv b.toNat l).toInt)⟩
  | .vsegred h k d a b =>
    let w := is64 (h.ty 4#4)
    some ⟨h, k, w, 8, d, vName w a ++ [.v b.toNat], fun t l =>
      (treeRed (sumR (h.ty 4#4) t h) (fun j => if inSeg t k b l j then some (segLeafR (h.ty 4#4) t a j) else none) t.words).getD 0⟩
  | .vsegscan h k d a b =>
    let w := is64 (h.ty 4#4)
    some ⟨h, k, w, 8, d, vName w a ++ [.v b.toNat], fun t l =>
      (scanAt (sumR (h.ty 4#4) t h) (fun j => if inSeg t k b l j then some (segLeafR (h.ty 4#4) t a j) else none) false l).getD 0⟩
  | .vexpand h k d a =>
    let w := is64 (h.ty 5#4)
    some ⟨h, k, w, 8, d, vName w a, fun t l => t.rvN w a.toNat ((List.range l).countP fun j => (t.rm k).getLsbD j)⟩
  | _ => none

/-- SCATC as a memory word of path S (R269, R270). -/
def scatRow (h : Hd) (k : BitVec 3) (d : BitVec 6) (x : BitVec 3) (o : BitVec 6) (y : BitVec 1) : MemRow :=
  let ty := h.ty 4#4
  { h := h, lane := some k, x := if y = 1#1 then none else some x, off := o, reads := vName (is64 ty) d, dests := vName (is64 ty) d
    need := .wr, kind := .scatc, size := if is64 ty then 8 else 4, sx := false, op := 0, ty := ty, dest := some (.v d.toNat)
    val := fun t l => t.rvN (is64 ty) d.toNat l, cmp := fun _ _ => 0 }

/-- The combining step of R270: `.first`, `.add`, `.min`, `.max`. -/
def combineR (q : BitVec 2) (ty : BitVec 4) (t : Team) (h : Hd) (v x : Nat) : Nat :=
  let n := if is64 ty then 64 else 32
  let f := if ty = 11#4 then f64 else f32
  let fl := ty = 10#4 ∨ ty = 11#4
  if q = 0#2 then v
  else if q = 1#2 then sumR ty t h v x
  else if fl then f.minmax (q = 3#2) v x
  else
    let lt (x y : Nat) : Bool := if isSigned ty then decide (intR true n x < intR true n y) else decide (x < y)
    if q = 2#2 then (if lt x v then x else v) else (if lt v x then x else v)

/-- An access of a context and of path S that no earlier access of scratchpad comes before (R271, R277). -/
def alone (b : Block) (t : Team) (o : MemOp) : Prop :=
  b.bureau = none ∧ o.path = .s ∧ ∀ p ∈ t.ops.takeWhile (fun p => p.id != o.id), p.sp = false

/-- Each lane with the combined value of the lanes that formed its address, in increasing order (R270). -/
def combinedR (f : Nat → Nat → Nat) (ls : List LaneAcc) : List LaneAcc :=
  ls.map fun a => { a with val := match (ls.filter fun e => e.va == a.va).map (fun e => e.val) with
    | [] => 0
    | x :: xs => xs.foldl f x }

end Sys2Proof.Claims

/-- R268, R272 to R274: the V-pipe words of class 20 (that a lone lane's subnormal is flushed under FZ as an operand of the sum is the model's
reading, log entry 14); VCONF marks the active lanes that repeat an earlier active lane's value;
VCOMPRESS packs the active lanes downward. -/
def Obligations.SparseVectorWordsWriteTheirRow : Prop :=
  (∀ (i : Instr) (q : LaneRow) (s : State) (b : Block) (t : Team), sparseRow i = some q → t.lanes ≤ 1024 →
    s.Free (.m q.k.toNat :: q.srcs) (vName q.wide q.d) false b t → laneIssues i q s t) ∧
  (∀ (h : Hd) (k e : BitVec 3) (a : BitVec 6) (s : State) (b : Block) (t : Team), t.lanes ≤ 1024 →
    s.Free [.m k.toNat, .v a.toNat] [.m e.toNat] false b t →
    ∃ x : Mask, exec (.vconf h k e a) s =
        .next (s.issue h false fun u => u.addRun (s.clock + vDue (t.rm k) false 8) [.m e.toNat x]) ∧
      ∀ l, x.getLsbD l = true ↔ l < t.lanes ∧ (t.rm k).getLsbD l = true ∧
        ∃ j, j < l ∧ (t.rm k).getLsbD j = true ∧ t.rv a.toNat j = t.rv a.toNat l) ∧
  (∀ (h : Hd) (k : BitVec 3) (d a : BitVec 6) (s : State) (b : Block) (t : Team),
    let w := is64 (h.ty 5#4)
    s.Free (.m k.toNat :: vName w a) (vName w d) false b t →
    exec (.vcompress h k d a) s = .next (s.issue h false fun u => u.addRun (s.clock + vDue (t.rm k) w 8)
      (vWrite w d.toNat t.lanes fun j =>
        (((List.range t.lanes).filter fun l => (t.rm k).getLsbD l)[j]?).map fun l => t.rvN w a.toNat l)))

/-- R269 to R271, R275 to R277: SCATC issues one access of path S with the combined value of each address, ISECT and ISECTN one with
their streams and output; one performed after the team's earlier accesses of scratchpad: an intersection of which no element has been
read gives the number of matches: of two rising streams of keys, the keys that both hold; a scatter of one lane stores its value. The model's
readings: SCATC combines minima and maxima without a flush (log entry 14); the lanes that lane-suppress mode takes out leave the mask
as a run-bound result (log entry 94). That SPRANGE comes before ALIGN for a range is its choice (log entry 139). -/
def Obligations.SparseAccessesAreIssuedAndPerformed : Prop :=
  (∀ (h : Hd) (k : BitVec 3) (d : BitVec 6) (x : BitVec 3) (o : BitVec 6) (y : BitVec 1) (z : BitVec 2) (s s1 : State) (b : Block)
      (t : Team) (c : Checked),
    let q := scatRow h k d x o y
    s.Free q.regs q.dests true b t → q.check s b t = (c, s1) → unwatched s1 b → s1.logUsed b.core < 32 →
    raisesLowest (.scatc h k d x o y z) s s1 t true c ∧
    ((∀ a ∈ c.ok, a.pa = none → s1.tableWait b.tag a.va = false) → c.bad = [] ∨ t.status.getLsbD 0 = true → issuesWith (.scatc h k d x o y z) s fun _ u => suppresses s t u (some k) c ∧
      (c.ok = [] → u.ops = t.ops ∧ u.pend = t.pend) ∧
      (c.ok ≠ [] → ∃ o : MemOp, u.ops = t.ops ++ [o] ∧ o.kind = .scatc ∧ o.path = .s ∧ o.sp = decide (y = 1#1) ∧ o.size = q.size ∧
        o.dest = q.dest ∧ o.pend = some o.id ∧ o.lanes = combinedR (combineR z q.ty t h) c.ok ∧
        { id := o.id, regs := q.dests, ready := none, nred := false } ∈ u.pend))) ∧
  (∀ (h : Hd) (d b : BitVec 6) (z : BitVec 2) (out : Bool) (s : State) (bl : Block) (t : Team) (x y w : LaneAcc),
    let i : Instr := if out then .isect h d b z else .isectn h d b z
    let e := 2 ^ z.toNat
    s.Free (.w b.toNat :: .w (b.toNat + 1) :: if out then [.w (b.toNat + 2)] else []) [.w d.toNat] true bl t →
    s.isectRange bl 0 (t.opnd b 0) e e = .ok x → s.isectRange bl 1 (t.opnd b 1) e e = .ok y →
    s.isectRange bl 2 (if out then t.opnd b 2 else 0) 4 4 = .ok w →
    (w.clash x = true ∨ w.clash y = true → exec i s = .next (s.trap .sparg)) ∧
    (w.clash x = false → w.clash y = false → issuesWith i s fun _ u => ∃ o : MemOp, u.ops = t.ops ++ [o] ∧ o.kind = .isect ∧ o.path = .s ∧
      o.sp = true ∧ o.size = e ∧ o.sx = out ∧ o.lanes = [x, y, w] ∧ o.dest = some (.w d.toNat) ∧ o.pend = some o.id ∧
      u.pend = t.pend ++ [{ id := o.id, regs := [.w d.toNat], ready := none, nred := false }])) ∧
  (∀ (s : State) (r : TRef) (n : Nat) (b : Block) (t : Team) (o : MemOp) (x y w : LaneAcc) (d i : Nat), s.dueOp r n = some (b, t, o) →
    alone b t o → o.sp = true → o.kind = .isect → o.sx = false → o.lanes = [x, y, w] → (∀ a ∈ o.lanes, a.lane < 3) →
    o.dest = some (.w d) → o.pend = some i →
    let key (a : LaneAcc) (j : Nat) : Nat := s.spadRd a.blk (a.pa.getD 0 + o.size * j) o.size
    (∀ j k, j < k → k < x.val → key x j < key x k) → (∀ j k, j < k → k < y.val → key y j < key y k) →
    ∃ (v : State) (c : Block) (u : Team), exec (.accessPerformed r n) s = .next v ∧ v.team? r = some (c, u) ∧ (∀ p ∈ u.ops, p ∈ t.ops ∧ p.id ≠ n) ∧
      ∀ p ∈ u.pend, p.id = i → p.ready = some [.w d (BitVec.ofNat 64
        ((List.range x.val).countP fun j => (List.range y.val).any fun k => key x j == key y k))]) ∧
  (∀ (s : State) (r : TRef) (n : Nat) (b : Block) (t : Team) (o : MemOp) (a : LaneAcc) (d i : Nat), s.dueOp r n = some (b, t, o) →
    alone b t o → o.sp = true → o.kind = .scatc → o.sx = false → o.lanes = [a] → a.done = false → a.pa.isSome = true →
    o.dest = some (.v d) → o.pend = some i →
    ∃ (v : State) (c : Block) (u : Team), exec (.accessPerformed r n) s = .next v ∧ v.team? r = some (c, u) ∧ storedSp s v o.size [a] ∧
      ∀ p ∈ u.pend, p.id = i → p.ready = some (loadWrites (.v d) t.lanes o.size false [a]))

namespace Sys2Proof.Claims
open Sys2Proof.Machine

/-! ### Network reductions (R278 to R286) -/

/-- The status word of R281. -/
def redStatus (n : Nat) (mismatch dup empty : Bool) : Dword :=
  BitVec.ofNat 64 (2 ^ 16 * n + (if mismatch then 8 else 0) + (if dup then 4 else 0) + (if empty then 2 else 0) + 1)

/-- The value of `x` as w[d] receives it (R280): 32-bit results sign-extended for min.s32 and max.s32, else zero-extended. -/
def redValue (o x : Nat) : Dword :=
  if o = 2 ∨ o = 4 then BitVec.ofInt 64 (intR true 32 x)
  else if o = 16 then BitVec.ofNat 64 (x % 2 ^ 16)
  else if o = 0 ∨ o = 3 ∨ o = 5 ∨ 13 ≤ o ∧ o ≤ 15 then BitVec.ofNat 64 (x % 2 ^ 32) else BitVec.ofNat 64 (x % 2 ^ 64)

/-- What a contribution of COUNT 0 or 1 receives (R282): the identity, or its own value. -/
def aloneR (d o n x : Nat) : List RegWrite :=
  if n = 0 then [.w d (redValue o (nredId o)), .w (d + 1) (redStatus 0 false false true)]
  else [.w d (redValue o x), .w (d + 1) (redStatus 1 false false false)]

/-- The descriptor's fields (R278): KEY, COUNT, INDEX, EPOCH. -/
structure RedArgs where
  key : Nat
  count : Nat
  idx : Nat
  epoch : Bool
def redArgs (q : Nat) : RedArgs :=
  { key := q % 2 ^ 16, count := q / 2 ^ 16 % 2 ^ 9, idx := q / 2 ^ 32 % 2 ^ 8, epoch := q.testBit 40 }

end Sys2Proof.Claims

/-- R278 to R282: NRED checks its descriptor (REDARG), then the live clusters (REDCOUNT); with COUNT 0 it gives the identity, with
COUNT 1 its own value, at once or, with REL, after the team's earlier accesses of path L (R284); else it sends its contribution and its
destinations stay pending. A cluster of which a partition core is left is live, the model's choice (log entry 142). R279, R281 to R284: a contribution opens its instance, joins it, or is turned back with MISMATCH or DUP and its own value; the last
one closes an instance: with `.ord` its contributor receives the fixed tree's value, NCOMB = COUNT and DONE. -/
def Obligations.NetworkReductionsCombine : Prop :=
  (∀ (h : Hd) (u b : BitVec 6) (o : BitVec 5) (r : BitVec 1) (ord : Bool) (s : State) (bl : Block) (t : Team),
    let i : Instr := if ord then .nredOrd h u b o r else .nredAny h u b o r
    let q := t.opnd b 1
    let a := redArgs q
    let regs : List RegName := [.w u.toNat, .w (u.toNat + 1)]
    s.Free [.w b.toNat, .w (b.toNat + 1)] regs true bl t →
    (q / 2 ^ 41 % 2 ^ 23 ≠ 0 ∨ q / 2 ^ 25 % 2 ^ 7 ≠ 0 ∨ (1 ≤ a.count ∧ a.count ≤ a.idx) → exec i s = .next (s.trap .redarg)) ∧
    (q / 2 ^ 41 % 2 ^ 23 = 0 → q / 2 ^ 25 % 2 ^ 7 = 0 → (a.count = 0 ∨ a.idx < a.count) →
      (s.liveClusters bl.tag < a.count → exec i s = .next (s.trap .redcount)) ∧
      (a.count ≤ s.liveClusters bl.tag →
        let held := r = 1#1 ∧ ∃ p ∈ t.ops, p.path = .l ∧ p.id < s.cur.base
        (a.count ≤ 1 → ¬held → issuesWith i s fun _ v => ∃ id, v.pend = t.pend ++
          [⟨id, regs, some (aloneR u.toNat o.toNat a.count (t.opnd b 0)), false, false⟩]) ∧
        (2 ≤ a.count ∨ held → issuesWith i s fun w v => ∃ m : NMsg, w.nmsgs = s.nmsgs ++ [m] ∧
          v.pend = t.pend ++ [{ id := m.id, regs := regs, ready := none, nred := true }] ∧ m.pend = m.id ∧ m.r = s.cur.r ∧
          m.d = u.toNat ∧ m.tag = bl.tag ∧ m.key = a.key ∧ m.epoch = a.epoch ∧ m.index = a.idx ∧ m.count = a.count ∧
          m.op = o.toNat ∧ m.ord = ord ∧ m.rel = decide (r = 1#1) ∧ m.val.toNat = t.opnd b 0)))) ∧
  (∀ (s : State) (m : NMsg) (b : Block) (t : Team), s.nmsgs.find? (fun x => x.id == m.id) = some m → s.nredHeld m = false →
    s.team? m.r = some (b, t) →
    ∃ (v : State) (c : Block) (u : Team), exec (.nredContributionArrival m.id) s = .next v ∧ v.team? m.r = some (c, u) ∧ (∀ x ∈ v.nmsgs, x ∈ s.nmsgs ∧ x.id ≠ m.id) ∧
      (s.ninsts.find? m.names = none → 2 ≤ m.count → ∃ i : NInst, v.ninsts = s.ninsts ++ [i] ∧ i.tag = m.tag ∧ i.key = m.key ∧
        i.epoch = m.epoch ∧ i.count = m.count ∧ i.op = m.op ∧ i.got = [m.got] ∧ u = t) ∧
      (m.count ≤ 1 → v.ninsts = s.ninsts ∧ ∀ p ∈ u.pend, p.id = m.pend → p.ready = some (aloneR m.d m.op m.count m.val.toNat)) ∧
      (∀ i, s.ninsts.find? m.names = some i → 2 ≤ m.count →
        (i.count ≠ m.count ∨ i.op ≠ m.op → v.ninsts = s.ninsts ∧ ∀ p ∈ u.pend, p.id = m.pend →
          p.ready = some [.w m.d (redValue m.op m.val.toNat), .w (m.d + 1) (redStatus 0 true false false)]) ∧
        (i.count = m.count → i.op = m.op → (∃ g ∈ i.got, g.1 = m.index) → v.ninsts = s.ninsts ∧ ∀ p ∈ u.pend, p.id = m.pend →
          p.ready = some [.w m.d (redValue m.op m.val.toNat), .w (m.d + 1) (redStatus 0 false true false)]) ∧
        (i.count = m.count → i.op = m.op → (∀ g ∈ i.got, g.1 ≠ m.index) →
          (i.got.length + 1 < m.count → u = t ∧ ∃ j ∈ v.ninsts, j.tag = m.tag ∧ j.key = m.key ∧ j.epoch = m.epoch ∧
            j.got = i.got ++ [m.got]) ∧
          (i.got.length + 1 = m.count → (∀ j ∈ v.ninsts, m.names j = false) ∧ (i.ord = true ∨ m.ord = true → ∀ p ∈ u.pend, p.id = m.pend →
            p.ready = some [.w m.d (redValue m.op (nredTree m.op m.count
                ((i.got ++ [m.got]).map fun g => (g.1, g.2.1.toNat % 2 ^ nredBits m.op)))),
              .w (m.d + 1) (redStatus m.count false false false)])))))

namespace Sys2Proof.Claims
open Sys2Proof.Machine

/-! ### Chest, drawers and tiles (R287 to R325) -/

/-- Every slot index from `f` up to `f + n` is neither held nor claimed; every one is held (R306, R308). -/
def idxFree (b : Block) (f n : Nat) : Prop := ∀ c ∈ b.chest, ¬(f ≤ c.idx ∧ c.idx < f + n)
def idxHeld (b : Block) (f n : Nat) : Prop := ∀ i, f ≤ i → i < f + n → ∃ c ∈ b.chest, c.idx = i ∧ c.phys ≠ none

/-- A drawer lies over some slot index from `f` up to `f + n`, and has a tile that is being filled or is taken. -/
def liesOver (w : Drawer) (f n : Nat) : Prop := w.init = true ∧ w.first < f + n ∧ f < w.first + w.count
def working (w : Drawer) : Prop := ∃ x ∈ w.ring, x.st = .filling ∨ x.st = .taken

/-- DINIT raises no CHESTARG (R312). -/
structure Lays (b : Block) (n f c z : Nat) : Prop where
  count : 1 ≤ c
  size : 1 ≤ z ∧ z ≤ 8 ∧ c % z = 0
  fits : f + c ≤ 32
  held : idxHeld b f c
  alone : ∀ i w, b.drawers[i]? = some w → i ≠ n → ¬liesOver w f c

/-- The snapshot of a drawer (R313). -/
def drawerStat (w : Drawer) : Nat :=
  if w.init then w.ring.length + 2 ^ 8 * (w.ring.countP fun x => x.st = .counted) + 2 ^ 16 * (w.ring.countP fun x => x.st = .filling)
    + 2 ^ 24 * (w.ring.countP fun x => x.st = .taken) + 2 ^ 32 * w.prod + 2 ^ 40 * w.cons
  else 0

end Sys2Proof.Claims

/-- R308, R309, R306: CCLAIM claims the lowest free indices and its handle stays pending until the slots are granted, zeroed; CRELEASE
returns held indices with the drawers over them, and the core's slots keep the contents that they had (R192); what is out of range raises
CHESTARG. -/
def Obligations.ChestSlotsAreClaimedAndReturned : Prop :=
  (∀ (h : Hd) (d b : BitVec 6) (s : State) (bl : Block) (t : Team),
    let n := (t.rw b).toNat % 64
    s.Free [.w b.toNat] [.w d.toNat] true bl t →
    (n = 0 ∨ 32 < n ∨ (∀ f, f + n ≤ 32 → ¬idxFree bl f n) → exec (.cclaim h d b) s = .next (s.trap .chestarg)) ∧
    (∀ f, 1 ≤ n → f + n ≤ 32 → idxFree bl f n → (∀ g, g < f → ¬idxFree bl g n) →
      issuesWith (.cclaim h d b) s fun v u => ∃ c id, v.block? s.cur.r.b = some c ∧
        c.chest = bl.chest ++ (List.range n).map (fun i => { idx := f + i, phys := none, bytes := [] }) ∧
        c.claims = bl.claims ++ [(t.idx, id, f, n)] ∧
        u.pend = t.pend ++ [{ id := id, regs := [.w d.toNat], ready := none, nred := false }])) ∧
  (∀ (s : State) (b : Nat) (x : Block) (ti id f n : Nat) (l : List (Nat × Nat × Nat × Nat)) (t : Team) (p : Pend) (d : Nat),
    s.block? b = some x → x.claims = (ti, id, f, n) :: l → x.place = .resident → x.team? ti = some t →
    t.pend.find? (fun q => q.id == id) = some p → p.regs = [.w d] →
    (∀ y ∈ s.blocks, y.core = x.core → y.place = .resident → ∀ c ∈ y.claims, id ≤ c.2.1) →
    ((s.freeSlots x.core).length < n → exec (.cclaimGrant b) s = .next s) ∧
    (n ≤ (s.freeSlots x.core).length → ∃ (v : State) (y : Block) (u : Team), exec (.cclaimGrant b) s = .next v ∧ v.block? b = some y ∧ y.claims = l ∧
      y.team? ti = some u ∧ (∀ q ∈ u.pend, q.id = id → q.ready = some [.w d (BitVec.ofNat 64 (f + 256 * n))]) ∧
      ∀ c ∈ y.chest, f ≤ c.idx → c.idx < f + n → c.bytes = [] ∧ ∃ k ∈ s.freeSlots x.core, c.phys = some k)) ∧
  (∀ (h : Hd) (b : BitVec 6) (s : State) (bl : Block) (t : Team),
    let f := (t.rw b).toNat % 32
    let n := (t.rw b).toNat / 2 ^ 8 % 64
    s.Free [.w b.toNat] [] false bl t →
    (n = 0 ∨ 32 < f + n ∨ ¬idxHeld bl f n → exec (.crelease h b) s = .next (s.trap .chestarg)) ∧
    (1 ≤ n → f + n ≤ 32 → idxHeld bl f n →
      ((∃ w ∈ bl.drawers, liesOver w f n ∧ working w) → exec (.crelease h b) s = .next (s.park .drawer)) ∧
      ((∀ w ∈ bl.drawers, liesOver w f n → ¬working w) → issuesWith (.crelease h b) s fun v _ => ∃ c, v.block? s.cur.r.b = some c ∧
        (∀ x, x ∈ c.chest ↔ x ∈ bl.chest ∧ ¬(f ≤ x.idx ∧ x.idx < f + n)) ∧
        (∀ x k, x ∈ bl.chest → f ≤ x.idx → x.idx < f + n → x.phys = some k → x.bytes.wf = true →
          (∀ y ∈ bl.chest, (∀ e ∈ y.bytes, e.1 < 4096) ∧ (y.phys = some k → y = x)) →
          ∀ a, a < 4096 → (v.core bl.core).chest.rd (4096 * k + a) = x.bytes.rd a) ∧
        ∀ (i : Nat) (w : Drawer), c.drawers[i]? = some w → ¬liesOver w f n ∧ (w.init = true → bl.drawers[i]? = some w))))

/-- R287, R312, R313: DINIT makes a drawer of free tiles, waits with DRAWER while the drawer is at work, and raises CHESTARG on a bad
range, be the drawer at work or not, the model's choice (log entry 128); DSTAT gives a drawer's snapshot, 0 for one that is not
initialised. -/
def Obligations.DrawersAreLaidAndRead : Prop :=
  ∀ (h : Hd) (n : BitVec 4) (d b : BitVec 6) (s : State) (bl : Block) (t : Team), bl.drawers.length = 16 →
    let f := (t.rw b).toNat % 32
    let c := (t.rw b).toNat / 2 ^ 8 % 64
    let z := (t.rw b).toNat / 2 ^ 16 % 16
    (s.Free [.w b.toNat] [] false bl t →
      (¬Lays bl n.toNat f c z → exec (.dinit h n b) s = .next (s.trap .chestarg)) ∧
      (Lays bl n.toNat f c z → (∀ w, bl.drawers[n.toNat]? = some w → working w → exec (.dinit h n b) s = .next (s.park .drawer)) ∧
        ((∀ w, bl.drawers[n.toNat]? = some w → ¬working w) → issuesWith (.dinit h n b) s fun v _ => ∃ e w,
          v.block? s.cur.r.b = some e ∧ e.drawers = bl.drawers.set n.toNat w ∧ w.init = true ∧ w.first = f ∧ w.count = c ∧
          w.size = z ∧ w.prod = 0 ∧ w.cons = 0 ∧ w.ring.length = c / z ∧ ∀ x ∈ w.ring, x.st = .free))) ∧
    (s.Free [] [.w d.toNat] true bl t → ∀ w, bl.drawers[n.toNat]? = some w →
      issuesWith (.dstat h d n) s fun _ u => givesW t u d (BitVec.ofNat 64 (drawerStat w)))

namespace Sys2Proof.Claims
open Sys2Proof.Machine

/-- The request of an MMA word (R289, R315) from its fields and its operand block. -/
def mmaReq (s : State) (t : Team) (z : BitVec 4) (b : BitVec 6) (p : BitVec 1) (nc ki : BitVec 2) (u : BitVec 1) (zero : Bool) : MmaReq :=
  { z := z.toNat, zero := zero, dup := u = 1#1, pair := p = 1#1, nc := nc.toNat, ki := ki.toNat
    ad := t.opnd b 0 % 16, bd := t.opnd b 0 / 2 ^ 8 % 16, m := t.opnd b 1 % 2 ^ 16, n := t.opnd b 1 / 2 ^ 16 % 2 ^ 16
    k := t.opnd b 1 / 2 ^ 32 % 2 ^ 16, scale := t.opnd b 2 % 2 ^ 32, fz := t.fpmode.toNat / 4 % 4, pc := s.cur.addr, first := s.cur.first }

/-- The pairs of formats that R314 lists. -/
def pairs : List (Nat × Nat) :=
  [(8, 8), (9, 9), (12, 12), (12, 13), (13, 12), (13, 13), (0, 0), (0, 1), (1, 0), (1, 1), (14, 8), (14, 9), (14, 12), (14, 13)
   , (14, 0), (14, 1), (10, 10), (11, 11)]

/-- K of a format and KI (R289). -/
def kList (f ki : Nat) : Option Nat :=
  let row := match f with
    | 8 | 9 => [16, 32, 64] | 12 | 13 | 0 | 1 => [32, 64, 128] | 14 => [64, 128, 256] | 10 => [8, 16] | 11 => [4, 8] | _ => []
  row[ki]?

/-- MMAFMT does not hold of an A tile and a B tile (R314). -/
def fits (q : MmaReq) (a b : DTile) : Prop :=
  ∃ k, kList a.fmt q.ki = some k ∧ (a.fmt, b.fmt) ∈ pairs ∧ ¬(a.fmt = 11 ∧ q.nc = 2) ∧ a.t0 = k ∧ a.t1 = 32 ∧ a.t2 = 1 ∧
    b.t0 = 8 * 2 ^ q.nc ∧ b.t1 = k ∧ b.t2 = 1

/-- A tile stands counted at a drawer's consumer pointer (R310). -/
def atCons (b : Block) (d : Nat) (x : DTile) : Prop :=
  ∃ w, b.drawers[d]? = some w ∧ w.init = true ∧ w.ring[w.cons]? = some x ∧ x.st = .counted

/-- Tile `z` of a block has operation `o` as the newest in its order (R318). -/
def placed (b c : Block) (z : Nat) (o : TileOp) : Prop :=
  ∃ x y, b.tiles[z]? = some x ∧ c.tiles[z]? = some y ∧ y = { x with ops := x.ops ++ [o] }

end Sys2Proof.Claims

/-- R289, R290, R314, R315, R318: an MMA checks its extents and drawers (MMAARG), then its tiles: it takes those that stand counted and
fit, and joins its tile's order with what it read; it parks with DRAWER where a tile is not counted; MMA_TAKE is the take of one that
has parked: it raises what a check fails, else it takes the tiles, moves the consumer pointers past them and gives the operation its
place, and the MMA issues in the same step; the team of a stopped block is left as it is (R444). The take of an unpaired MMA without a scale table asks that the tiles are counted and fit and that K is within
theirs. -/
def Obligations.MmaTakesItsTiles : Prop :=
  (∀ (h : Hd) (z : BitVec 4) (b : BitVec 6) (p : BitVec 1) (nc ki : BitVec 2) (u : BitVec 1) (zero : Bool) (s : State) (bl : Block)
      (t : Team),
    let i : Instr := if zero then .mmaZ h z b p nc ki u else .mma h z b p nc ki u
    let q := mmaReq s t z b p nc ki u zero
    s.Free [.w b.toNat, .w (b.toNat + 1), .w (b.toNat + 2)] [] false bl t →
    (bl.tiles.length ≤ z.toNat → exec i s = .next (s.trap .illreg)) ∧
    (z.toNat < bl.tiles.length → (p = 1#1 → ∃ f, s.followerOf bl = some f) →
      ((if p = 1#1 then 64 else 32) < q.m ∨ 8 * 2 ^ nc.toNat < q.n ∨ q.ad = q.bd → exec i s = .next (s.trap .mmaarg)) ∧
      (q.m ≤ (if p = 1#1 then 64 else 32) → q.n ≤ 8 * 2 ^ nc.toNat → q.ad ≠ q.bd → t.granted = false →
        (∀ c, s.takeChk bl q = .bad c → exec i s = .next (s.trap c)) ∧
        (s.takeChk bl q = .wait → exec i s = .next (s.parkFor .drawer (.mma q))) ∧
        (s.takeChk bl q = .ok → issuesWith i s fun v _ => ∃ c o, v.block? s.cur.r.b = some c ∧
          (p = 0#1 → placed bl c q.z o) ∧ (p = 1#1 → ∀ f, s.followerOf bl = some f → f.id ≠ bl.id → placed bl c q.z o ∧
            ∃ g, v.block? f.id = some g ∧ (q.z < f.tiles.length → placed f g q.z o)) ∧
          o.kind = .mma ∧ o.lead = bl.id ∧ o.team = t.idx ∧ o.zero = zero ∧ o.dup = decide (u = 1#1) ∧ o.ad = q.ad ∧ o.bd = q.bd ∧
          o.m = q.m ∧ o.n = q.n ∧ o.k = q.k ∧ o.perm = bl.perm ∧ o.fz = q.fz)))) ∧
  (∀ (s : State) (b : Block) (q : MmaReq), q.pair = false → q.ki < 3 →
    ((∀ w, b.drawers[q.ad]? = some w → w.init = false) ∨ (∀ w, b.drawers[q.bd]? = some w → w.init = false) →
      s.takeChk b q = .bad .chestarg) ∧
    (∀ wa wb, b.drawers[q.ad]? = some wa → wa.init = true → b.drawers[q.bd]? = some wb → wb.init = true →
      ((¬∃ x, atCons b q.ad x) ∨ (¬∃ x, atCons b q.bd x) → s.takeChk b q = .wait) ∧
      (∀ x y, atCons b q.ad x → atCons b q.bd y →
        (¬fits q x y → s.takeChk b q = .bad .mmafmt) ∧
        (∀ k, fits q x y → kList x.fmt q.ki = some k → (k < q.k → s.takeChk b q = .bad .mmaarg) ∧
          (q.k ≤ k → x.fmt ≠ 14 ∨ q.m = 0 → s.takeChk b q = .ok))))) ∧
  (∀ (s : State) (r : TRef) (b : Block) (t : Team) (q : MmaReq), s.team? r = some (b, t) → t.want = .mma q → t.granted = false →
    t.ended = false → t.trap = none →
    (s.takeChk b q = .wait ∨ b.live = false → exec (.mmaTake r) s = .next s) ∧
    (∀ k, b.live = true → s.takeChk b q = .bad k → exec (.mmaTake r) s = .next (s.raise r
      { cause := k, info := 0, pc := q.pc, resume := q.first, lanes := [], extn := none, misrec := 0#64 })) ∧
    (b.live = true → s.takeChk b q = .ok → q.pair = false → q.ad ≠ q.bd → q.z < b.tiles.length → ∃ v c u o w w' x, exec (.mmaTake r) s = .next v ∧
      v.due = some r ∧ v.team? r = some (c, u) ∧ u = { t with granted := true } ∧ placed b c q.z o ∧ o.kind = .mma ∧
      o.ad = q.ad ∧ o.bd = q.bd ∧ o.m = q.m ∧ o.n = q.n ∧ o.k = q.k ∧ o.perm = b.perm ∧ b.drawers[q.ad]? = some w ∧ o.ap = w.cons ∧
      c.drawers[q.ad]? = some w' ∧ w'.ring[w.cons]? = some x ∧ x.st = .taken ∧ w'.cons = (w.cons + 1) % w.ring.length) ∧
    (b.live = true → s.takeChk b q = .ok → q.pair = true → ∃ (v : State) (c : Block) (u : Team), exec (.mmaTake r) s = .next v ∧ v.due = some r ∧
      v.team? r = some (c, u) ∧ u.granted = true))

/-- R317, R318, R324, R325, R291, R292: MZERO, MLOAD and MDRAIN take their place in their tile's order, with the address and bench of
their operand block; MSTAT gives a tile's state and with CLR clears PERMR; MPERM sets or removes the permutation table; MPAIR gives
the pairing state. R292, R310, R314 to R318, R322, R325: the first operation of an unpaired tile performed: MZERO zeroes the tile, MLOAD fills it from
scratchpad, MDRAIN writes it there, where no granule has been moved before; an MMA of 8-bit integers with neither bitmap nor permutation adds to each cell within its
extents the products of its row and column, modulo 2^32, counts as retired and frees its tiles; R323: an MDRAIN that finds MISMATCH moves no cell and
posts nothing, and its team takes MMAMIS with the record, after what it has yet to take (log entry 125). That an MMA is performed whole is the model's choice
(log entry 127). -/
def Obligations.TileWordsAreTakenAndPerformed : Prop :=
  (∀ (h : Hd) (z : BitVec 4) (b d : BitVec 6) (p l : BitVec 1) (s : State) (bl : Block) (t : Team),
    (s.Free [] [] false bl t →
      (bl.tiles.length ≤ z.toNat → exec (.mzero h z p) s = .next (s.trap .illreg)) ∧
      (z.toNat < bl.tiles.length → p = 1#1 → s.followerOf bl = none → exec (.mzero h z p) s = .next (s.trap .mmaarg)) ∧
      (z.toNat < bl.tiles.length → (p = 1#1 → ∃ f, s.followerOf bl = some f ∧ f.id ≠ bl.id) →
        issuesWith (.mzero h z p) s fun v _ => ∃ c o, v.block? s.cur.r.b = some c ∧ placed bl c z.toNat o ∧ o.kind = .mzero ∧
          o.lead = bl.id ∧ (p = 0#1 → o.follower = none) ∧ ∀ f, p = 1#1 → s.followerOf bl = some f → o.follower = some f.id)) ∧
    (s.Free [.w b.toNat, .w (b.toNat + 1)] [] false bl t → z.toNat < bl.tiles.length →
      (p = 1#1 → ∃ f, s.followerOf bl = some f ∧ f.id ≠ bl.id) →
      let a := t.opnd b 0 % 2 ^ 32
      let n := if p = 1#1 then 8192 else 4096
      (a % 16 ≠ 0 → exec (.mload h z b p) s = .next (s.trap .align) ∧ exec (.mdrain h z b p) s = .next (s.trap .align)) ∧
      (a % 16 = 0 → bl.spadSize < a + n →
        exec (.mload h z b p) s = .next (s.trap .sprange) ∧ exec (.mdrain h z b p) s = .next (s.trap .sprange)) ∧
      (∀ bench, a % 16 = 0 → a + n ≤ bl.spadSize → s.benchReg bl (t.opnd b 1) = .ok bench →
        (issuesWith (.mload h z b p) s fun v _ => ∃ c o, v.block? s.cur.r.b = some c ∧ placed bl c z.toNat o ∧ o.kind = .mload ∧
          o.lead = bl.id ∧ o.addr = a ∧ o.bench = bench) ∧
        (issuesWith (.mdrain h z b p) s fun v _ => ∃ c o, v.block? s.cur.r.b = some c ∧ placed bl c z.toNat o ∧ o.kind = .mdrain ∧
          o.lead = bl.id ∧ o.team = t.idx ∧ o.addr = a ∧ o.bench = bench ∧ o.pc = s.cur.addr))) ∧
    (s.Free [] [.w d.toNat] true bl t →
      (bl.tiles.length ≤ z.toNat → exec (.mstat h d z l) s = .next (s.trap .illreg)) ∧
      (∀ x, bl.tiles[z.toNat]? = some x → issuesWith (.mstat h d z l) s fun v u =>
        givesW t u d (BitVec.ofNat 64 (min x.ops.length 255 + (if x.dupst then 2 ^ 9 else 0) + (if x.mismatch then 2 ^ 10 else 0)
          + (if x.permr then 2 ^ 11 else 0) + x.retired % 2 ^ 16 * 2 ^ 16)) ∧
        ∃ c, v.block? s.cur.r.b = some c ∧ c.tiles[z.toNat]? = some { x with permr := x.permr && decide (l = 0#1) })) ∧
    (s.Free [.w b.toNat] [] false bl t →
      let a := (t.rw b).toNat % 2 ^ 32
      let n := (t.rw b).toNat / 2 ^ 32 % 2 ^ 16
      (a % 2 ≠ 0 → exec (.mperm h b) s = .next (s.trap .align)) ∧
      (a % 2 = 0 → n ≠ 0 → bl.spadSize < a + 2 * n → exec (.mperm h b) s = .next (s.trap .sprange)) ∧
      (a % 2 = 0 → n = 0 ∨ a + 2 * n ≤ bl.spadSize → issuesWith (.mperm h b) s fun v _ => ∃ c, v.block? s.cur.r.b = some c ∧
        c.perm = if n = 0 then none else some (a, n))) ∧
    (s.Free [] [.w d.toNat] false bl t →
      (bl.partner = none → exec (.mpair h d) s = .next (s.issue h false fun u => u.addRun (s.clock + 2) [.w d.toNat 0#64])) ∧
      (∀ f lead x, bl.partner = some (f, lead) → s.block? f = some x → x.core < 1024 →
        exec (.mpair h d) s = .next (s.issue h false fun u => u.addRun (s.clock + 2)
          [.w d.toNat (BitVec.ofNat 64 (x.core * 2 ^ 16 + (if lead then 2 else 0) + 1))])) ∧
      (∀ f lead, bl.partner = some (f, lead) → s.block? f = none → issuesWith (.mpair h d) s fun _ u => ∃ x : Dword,
        u.run.writes = t.run.writes ++ [{ write := .w d.toNat x, at' := s.clock + 2 }] ∧ x.toNat % 4 = if lead then 3 else 1))) ∧
  (∀ (s : State) (b : Nat) (z : BitVec 4) (x : Block) (t : Tile) (o : TileOp) (l : List TileOp) (u : Team), s.block? b = some x →
    x.tiles[z.toNat]? = some t → t.ops = o :: l → o.lead = b → o.follower = none → s.mayPerform o z.toNat = true → t.mismatch = true →
    o.kind = .mdrain → x.team? o.team = some u → u.ended = false →
    let q : TrapReq := { cause := .mmamis, info := 0, pc := o.pc, resume := o.pc, lanes := [], extn := none, misrec := t.misrec }
    ∃ (v : State) (y : Block) (w : Tile), exec (.tileOpPerform b z) s = .next v ∧ v.block? b = some y ∧ y.tiles[z.toNat]? = some w ∧ w.ops = l ∧
      w.bytes = t.bytes ∧ (∀ k, (v.block? k).map (fun z => z.spad) = (s.block? k).map fun z => z.spad) ∧
      (u.defer = none → y.team? o.team = some { u with defer := some q }) ∧
      (∀ p, u.defer = some p → p.cause ≠ .noroute → (∀ d ∈ u.defers, d.cause ≠ .noroute) →
        y.team? o.team = some { u with defers := u.defers ++ [q] })) ∧
  (∀ (s : State) (b : Nat) (z : BitVec 4) (x : Block) (t : Tile) (o : TileOp) (l : List TileOp), s.block? b = some x →
    x.tiles[z.toNat]? = some t → t.ops = o :: l → o.lead = b → o.follower = none → s.mayPerform o z.toNat = true → t.mismatch = false →
    (o.kind = .mzero → ∃ (v : State) (y : Block) (u : Tile), exec (.tileOpPerform b z) s = .next v ∧ v.block? b = some y ∧ y.tiles[z.toNat]? = some u ∧ u.ops = l ∧
      ∀ a, u.bytes.rd a = 0#8) ∧
    (o.kind = .mload → o.done = [] → ∃ (v : State) (y : Block) (u : Tile), exec (.tileOpPerform b z) s = .next v ∧ v.block? b = some y ∧ y.tiles[z.toNat]? = some u ∧ u.ops = l ∧
      ∀ a, a < 4096 → u.bytes.rd a = x.spad.rd (o.addr + a)) ∧
    (o.kind = .mdrain → o.bench = none → o.done = [] → ∃ (v : State) (y : Block) (u : Tile), exec (.tileOpPerform b z) s = .next v ∧ v.block? b = some y ∧
      y.tiles[z.toNat]? = some u ∧ u.ops = l ∧ u.bytes = t.bytes ∧ (∀ a, a < 4096 → y.spad.rd (o.addr + a) = t.bytes.rd a) ∧
      ∀ a, a < o.addr ∨ o.addr + 4096 ≤ a → y.spad.rd a = x.spad.rd a) ∧
    (∀ wa wb ta tb, o.kind = .mma → o.dup = false → o.perm = none → o.n ≤ 32 → x.drawers[o.ad]? = some wa → x.drawers[o.bd]? = some wb →
      wa.ring[o.ap]? = some ta → wb.ring[o.bp]? = some tb → ta.fmt ≤ 1 → tb.fmt ≤ 1 → ta.bits = none → tb.bits = none →
      let dot (i j : Nat) : Int := ((List.range o.k).map fun k =>
        intR (ta.fmt == 0) 8 (x.tileByte wa o.ap (k + ta.t0 * i)) *
          (if k < tb.t1 then intR (tb.fmt == 0) 8 (x.tileByte wb o.bp (j + tb.t0 * k)) else 0)).sum
      ∃ v y u w e, exec (.tileOpPerform b z) s = .next v ∧ v.block? b = some y ∧ y.tiles[z.toNat]? = some u ∧ u.ops = l ∧
        u.retired = (t.retired + 1) % 2 ^ 16 ∧ y.drawers[o.ad]? = some w ∧ w.ring[o.ap]? = some e ∧ e.st = .free ∧
        ∀ i j, i < 32 → j < 32 → (u.bytes.rdN (4 * (32 * i + j)) 4 : Nat) =
          if i < o.m ∧ j < o.n then
            (((if o.zero then 0 else ((t.bytes.rdN (4 * (32 * i + j)) 4 : Nat) : Int)) + dot i j) % 2 ^ 32).toNat
          else t.bytes.rdN (4 * (32 * i + j)) 4))

namespace Sys2Proof.Claims
open Sys2Proof.Machine

/-! ### Tasks, futures and bins (R329 to R352) -/

/-- The BitVec of a Bool. -/
def bit1 (b : Bool) : BitVec 1 := if b then 1#1 else 0#1

/-- What SPAWN and SPAWNF of block `b`'s team need to read their record, header `r` and arguments `as` (R334). -/
structure SpawnReady (s : State) (bl : Block) (t : Team) (d b : BitVec 6) (r : Nat) (as : List Nat) (s1 : State) : Prop where
  free : s.Free [.w b.toNat, .w (b.toNat + 1)] [.w d.toNat] true bl t
  sent : t.outstanding s.cur.base .l = false
  read : s.getList bl 16 (t.opnd b 0 % 2 ^ 56) 5 = .ok (r :: as) s1
  good : taskBad r = false

/-- Slots of the level table that a task record needs (R136). -/
def taskSlots (r : Nat) : Nat := if r.testBit 65 then 3 else if r.testBit 64 then 2 else 1

/-- The launch instance `y` of a task that has just been spawned in a context (R340, R136). -/
def spawned (v : State) (tag : BitVec 12) (y : Level) : Prop :=
  ∃ c, v.ctx? tag = some c ∧ c.level? y.slot = some y ∧ y.kind = 1 ∧ y.lkind = .task ∧ y.counter = 1 ∧ y.complete = false

/-- The values that a task's record gives its w0 to w7 (R334). -/
def taskW (as : List Nat) : List Dword := as.flatMap fun x => [BitVec.ofNat 64 x, BitVec.ofNat 64 (x / 2 ^ 64)]

/-- A valid unit handle of block `b`'s context (R330): owner, die `e`, generation and index `i`. -/
def handleIs (b : Block) (h : Dword) (e : Nat) (g : BitVec 32) (i : Nat) : Prop :=
  h.toNat / 2 ^ 52 = b.tag.toNat ∧ h.toNat / 2 ^ 50 % 4 = e ∧ h.toNat / 2 ^ 16 % 2 ^ 32 = g.toNat ∧ h.toNat % 2 ^ 16 = i

/-- A wait of a team has ended with results: they are written, and nothing is pending but what was (R92). -/
def receives (s : State) (t u : Team) (ws : List RegWrite) : Prop :=
  u.wait = none ∧ u.w = (ws.foldl Team.regWrite t).w ∧ (∀ p ∈ u.pend, p ∈ t.pend) ∧ ∀ p ∈ t.pend, p.id < s.nextId → p ∈ u.pend

/-- The handle names future entry `i` of die `e`, whose identity no other entry in use has. -/
structure NamesFut (s : State) (b : Block) (h : Dword) (e i : Nat) (f : Future) : Prop where
  handle : handleIs b h e f.gen i
  entry : entry? (s.die e).futures i = some f
  used : f.owner = some b.tag
  alone : ∀ p ∈ (s.die e).futures, p.2.id = f.id → p.2.owner.isSome = true → p = (i, f)

end Sys2Proof.Claims

/-- R334, R340 to R344, R346, R347: SPAWN makes a launch of one member and hands in its task with its arguments and regions; SPAWNF also
makes a pending future with one consumer, which its block holds; bad records raise TASKREC, and that they do so before LVLFULL is
looked at is the model's reading (log entry 54). SPAWNF waits with XLATE while a write of a routing entry holds its future's bytes
back (R425). -/
def Obligations.SpawnsHandInTheirTask : Prop :=
  (∀ (h : Hd) (d b : BitVec 6) (s s1 : State) (bl : Block) (t : Team) (r : Nat) (as : List Nat),
    s.Free [.w b.toNat, .w (b.toNat + 1)] [.w d.toNat] true bl t → t.outstanding s.cur.base .l = false →
    s.getList bl 16 (t.opnd b 0 % 2 ^ 56) 5 = .ok (r :: as) s1 → taskBad r = true →
    exec (.spawn h d b) s = .next (s1.trap .taskrec) ∧ exec (.spawnf h d b) s = .next (s1.trap .taskrec)) ∧
  (∀ (h : Hd) (d b : BitVec 6) (s s1 s2 : State) (bl : Block) (t : Team) (r : Nat) (as rs : List Nat), SpawnReady s bl t d b r as s1 →
    let q := t.opnd b 1
    let n := q / 2 ^ 56 % 8
    q / 2 ^ 59 = 0 → n ≤ 4 → (n ≠ 0 → q % 16 = 0) → s1.getList bl 16 (q % 2 ^ 56) n = .ok rs s2 →
    (rs.any regionBad = true → exec (.spawn h d b) s = .next (s2.trap .taskrec)) ∧
    (rs.any regionBad = false → s2.slotsFree bl.tag (taskSlots r) = false → exec (.spawn h d b) s = .next (s2.trap .lvlfull)) ∧
    (rs.any regionBad = false → s2.slotsFree bl.tag (taskSlots r) = true → launchOpen s2 bl.tag (bit1 (r.testBit 65)) → n = 0 →
      issuesWith (.spawn h d b) s fun v u => ∃ (y : Level) (x : Dispatch), spawned v bl.tag y ∧ givesW t u d (levelHandle bl.tag y) ∧
        v.dispatches = s2.dispatches ++ [x] ∧ x.kind = .task ∧ x.tag = bl.tag ∧ x.slot = y.slot ∧ x.shape = taskShape r ∧
        x.args = taskW as ∧ x.total = 1 ∧ x.next = 0 ∧ x.future = none ∧ x.regions = [] ∧ x.after = []) ∧
    (rs.any regionBad = false → s2.slotsFree bl.tag (taskSlots r) = true → launchOpen s2 bl.tag (bit1 (r.testBit 65)) →
      s2.regionTasks = [] → issuesWith (.spawn h d b) s fun v u => ∃ (y : Level) (x : Dispatch), spawned v bl.tag y ∧ givesW t u d (levelHandle bl.tag y) ∧
        v.dispatches = s2.dispatches ++ [x] ∧ x.kind = .task ∧ x.slot = y.slot ∧ x.args = taskW as ∧ x.after = [] ∧
        x.regions = (rs.map fun z => { base := z % 2 ^ 56, len := z / 2 ^ 64 % 2 ^ 40, write := z.testBit 104 }).filter
          fun z => z.len ≠ 0)) ∧
  (∀ (h : Hd) (d b : BitVec 6) (s s1 s2 : State) (bl : Block) (t : Team) (r pa : Nat) (as : List Nat), SpawnReady s bl t d b r as s1 →
    s1.legalVa bl .wr 32 (t.opnd b 1 % 2 ^ 56) = (.pa pa, s2) → coreDie bl.core < s2.dies.length →
    ((s2.die (coreDie bl.core)).futures.filter fun p => p.2.owner.isSome).length < 65536 →
    (s2.held pa = true → exec (.spawnf h d b) s = .next (s2.park .xlate)) ∧
    (s2.held pa = false → s2.slotsFree bl.tag (taskSlots r) = false → exec (.spawnf h d b) s = .next (s2.trap .lvlfull)) ∧
    (s2.held pa = false → s2.slotsFree bl.tag (taskSlots r) = true → launchOpen s2 bl.tag (bit1 (r.testBit 65)) →
      issuesWith (.spawnf h d b) s fun v u => ∃ (y : Level) (x : Dispatch) (i : Nat) (f : Future) (c : Block), spawned v bl.tag y ∧
        entry? (v.die (coreDie bl.core)).futures i = some f ∧ givesW t u d (unitHandle bl.tag (coreDie bl.core) f.gen i) ∧
        f.owner = some bl.tag ∧ f.addr = pa ∧ f.count = 1 ∧ f.pcount = 0 ∧ f.st = .pending ∧ f.slot = y.slot ∧
        v.block? s.cur.r.b = some c ∧ c.holds = bl.holds ++ [(coreDie bl.core, f.id)] ∧ v.dispatches = s2.dispatches ++ [x] ∧
        x.kind = .task ∧ x.slot = y.slot ∧ x.args = taskW as ∧ x.future = some (coreDie bl.core, f.id)))

/-- R330, R335, R336, R345, R346: FREF raises a future's count, FDROP lowers it and at 0 frees the entry, whose generation advances;
FWAIT gives the value of a future that is done, waits for one that is pending until it is done, and raises FUTDEAD for one that is
faulted or reclaimed; FPOLL gives value and state; RPOINT is counted
and ends the team of a reclaimed or cancelled task; an invalid handle raises FUTARG. -/
def Obligations.FuturesAreCountedAndAwaited : Prop :=
  (∀ (h : Hd) (d b : BitVec 6) (s : State) (bl : Block) (t : Team) (e i : Nat) (f : Future), NamesFut s bl (t.rw b) e i f →
    (s.Free [.w b.toNat] [] false bl t →
      (65535 ≤ f.count → exec (.fref h b) s = .next (s.trap .futarg)) ∧
      (f.count < 65535 → issuesWith (.fref h b) s fun v _ =>
        entry? (v.die e).futures i = some { f with count := f.count + 1 }) ∧
      (2 ≤ f.count → issuesWith (.fdrop h b) s fun v _ =>
        entry? (v.die e).futures i = some { f with count := f.count - 1 }) ∧
      (f.count = 1 → issuesWith (.fdrop h b) s fun v _ => ∃ g, entry? (v.die e).futures i = some g ∧ g.owner = none ∧
        g.gen = f.gen + 1#32)) ∧
    (s.Free [.w b.toNat] [.w d.toNat] true bl t → bl.dying = false →
      (bl.future = some (e, f.id) → exec (.fwait h d b) s = .next (s.trap .futarg)) ∧
      (bl.future ≠ some (e, f.id) →
        (f.st = .done → issuesWith (.fwait h d b) s fun _ u => u.run.ended = true ∧ receives s t u [.w d.toNat f.value]) ∧
        (f.st = .pending → issuesWith (.fwait h d b) s fun _ u => u.run.ended = true ∧ u.stall = .future ∧
          ∃ id, u.wait = some (.future e f.id d.toNat id s.cur.addr) ∧
            { id := id, regs := [.w d.toNat], ready := none, nred := false } ∈ u.pend) ∧
        (f.st = .faulted ∨ f.st = .reclaimed → ∃ (w : State) (c : Block) (u : Team), exec (.fwait h d b) s = .next (w.raise s.cur.r
            { cause := .futdead, info := 0, pc := s.cur.addr, resume := s.cur.addr, lanes := [], extn := none, misrec := 0#64 }) ∧
          w.mem = s.mem ∧ w.team? s.cur.r = some (c, u) ∧ u.wait = none ∧ u.w = t.w ∧ u.v = t.v ∧ ∀ p ∈ u.pend, p ∈ t.pend))) ∧
    (s.Free [.w b.toNat] [.w d.toNat, .w (d.toNat + 1)] true bl t → issuesWith (.fpoll h d b) s fun _ u => ∃ id, u.pend = t.pend ++
      [⟨id, [.w d.toNat, .w (d.toNat + 1)], some [.w d.toNat (if f.st = .done then f.value else 0#64),
        .w (d.toNat + 1) (match f.st with | .pending => 0#64 | .done => 1#64 | .faulted => 2#64 | .reclaimed => 3#64)], false, false⟩])) ∧
  (∀ (h : Hd) (d b : BitVec 6) (s : State) (bl : Block) (t : Team), (t.rw b).toNat / 2 ^ 52 ≠ bl.tag.toNat →
    (s.Free [.w b.toNat] [] false bl t →
      exec (.fref h b) s = .next (s.trap .futarg) ∧ exec (.fdrop h b) s = .next (s.trap .futarg)) ∧
    (s.Free [.w b.toNat] [.w d.toNat] true bl t → bl.dying = false → exec (.fwait h d b) s = .next (s.trap .futarg))) ∧
  (∀ (s : State) (r : TRef) (b : Block) (t : Team) (e n d id : Nat) (pc : BitVec 56) (f : Future), s.team? r = some (b, t) →
    t.wait = some (.future e n d id pc) → s.future? e n = some f →
    (f.st = .pending → s.wakeFuture r = s) ∧
    (f.st = .done → ∃ c u, (s.wakeFuture r).team? r = some (c, u) ∧ u = t.deliver id [.w d f.value])) ∧
  (∀ (h : Hd) (s : State) (bl : Block) (t : Team), s.Free [] [] false bl t →
    (bl.dying = false → issuesWith (.rpoint h) s fun v u => u.run.ended = true ∧ u.ended = t.ended ∧
      ∃ c, v.block? s.cur.r.b = some c ∧ c.pcount = bl.pcount + 1) ∧
    (bl.dying = true → issuesWith (.rpoint h) s fun _ u => u.ended = true))

/-- R350 to R352: BINPOST adds its record to the bin; COAL of them, or a last post, or the timer forms a dispatch of the oldest records,
numbered in its bin; a last post closes the bin; an invalid handle raises BINARG, and a full record store parks with QUEUE. -/
def Obligations.BinsFormDispatches : Prop :=
  (∀ (h : Hd) (wh b : BitVec 6) (n : BitVec 3) (l : BitVec 1) (s : State) (bl : Block) (t : Team),
    s.Free (.w wh.toNat :: (List.range (n.toNat + 1)).map fun i => .w (b.toNat + i)) [] false bl t →
    let rec' := (List.range (n.toNat + 1)).map fun i => t.w.getD (b.toNat + i) 0#64
    (s.binArg bl (t.rw wh) (n.toNat + 1) = none → exec (.binpost h wh b n l) s = .next (s.trap .binarg)) ∧
    (∀ e x, s.binArg bl (t.rw wh) (n.toNat + 1) = some (e, x) → 65536 ≤ (s.die e).binRecords →
      exec (.binpost h wh b n l) s = .next (s.park .queue)) ∧
    (∀ e x, s.binArg bl (t.rw wh) (n.toNat + 1) = some (e, x) → (s.die e).binRecords < 65536 →
      t.outstanding s.cur.base .l = false → x.formed + 1 < 2 ^ 24 →
      (x.records.length + 1 < x.coal → l = 0#1 → issuesWith (.binpost h wh b n l) s fun v _ => v.dispatches = s.dispatches ∧
        ∃ y ∈ (v.die e).bins, y.idx = x.idx ∧ y.records = x.records ++ [rec']) ∧
      (x.coal ≤ x.records.length + 1 → l = 0#1 → issuesWith (.binpost h wh b n l) s fun v _ => ∃ q : Dispatch, v.dispatches = s.dispatches ++ [q] ∧
        q.kind = .bin ∧ q.tag = x.tag ∧ q.slot = x.slot ∧ q.num = x.formed ∧ q.shape = x.shape ∧ q.rw = x.rw ∧
        q.records = ((x.records ++ [rec']).take x.coal).flatten ∧
        ∃ y ∈ (v.die e).bins, y.idx = x.idx ∧ y.records = (x.records ++ [rec']).drop x.coal ∧ y.formed = x.formed + 1) ∧
      (x.records.length + 1 < x.coal → l = 1#1 → issuesWith (.binpost h wh b n l) s fun v _ => ∃ q : Dispatch, v.dispatches = s.dispatches ++ [q] ∧
        q.kind = .bin ∧ q.slot = x.slot ∧ q.records = (x.records ++ [rec']).flatten ∧ ∀ y ∈ (v.die e).bins, y.idx ≠ x.idx))) ∧
  (∀ (s : State) (e : BitVec 2) (n : Nat) (x : Bin) (k : Nat), (s.die e.toNat).bins.find? (fun y => y.idx = n) = some x →
    x.deadline = some k → x.records ≠ [] →
    (s.clock < k → exec (.binTimerExpiry e n) s = .next s) ∧
    (k ≤ s.clock → ∃ (v : State) (q : Dispatch), exec (.binTimerExpiry e n) s = .next v ∧ v.dispatches = s.dispatches ++ [q] ∧ q.kind = .bin ∧
      q.slot = x.slot ∧ q.num = x.formed ∧ q.records = x.records.flatten))

namespace Sys2Proof.Claims
open Sys2Proof.Machine

/-! ### Ports, patterns and queues (R330 to R333, R353 to R361) -/

/-- The handle names port `i` of die `e`. -/
def namesPort (s : State) (b : Block) (h : Dword) (e i : Nat) (x : Port) : Prop :=
  handleIs b h e x.gen i ∧ entry? (s.die e).ports i = some x ∧ x.owner = some b.tag

/-- A port has taken message `m`: it holds it as its newest, or, where a team was waiting, has handed its oldest on. -/
def tookMsg (v : State) (e i : Nat) (x : Port) (m : Dword) : Prop :=
  ∃ y, entry? (v.die e).ports i = some y ∧ (y.msgs = x.msgs ++ [m] ∨ x.waiting ≠ [] ∧ y.msgs = (x.msgs ++ [m]).drop 1)

/-- The messages at the heads of ports. -/
def heads (d : Die) (ps : List Nat) : List Dword :=
  ps.map fun p => match entry? d.ports p with | some x => x.msgs.headD 0#64 | none => 0#64

/-- The handle names queue `i` of die `e`. -/
def namesQueue (s : State) (b : Block) (h : Dword) (e i : Nat) (x : Queue) : Prop :=
  handleIs b h e x.gen i ∧ entry? (s.die e).queues i = some x ∧ x.owner = some b.tag

end Sys2Proof.Claims

/-- R331 to R333, R357, R360, R361, R420: PORTOPEN opens an unused port; SEND and SENDT append their message to a port with room, and a
full one raises PORTFULL or gives 1, where no firing is due, for which they wait with PIPE, the model's reading (log entry 59); RECV takes the oldest message or waits; a held
message and a host's post are appended in their turn, a post to a full port is refused and counted, and one before Dawn's last step is
answered with an error (R453). -/
def Obligations.MessagesPassThroughPorts : Prop :=
  (∀ (h : Hd) (d b : BitVec 6) (s : State) (bl : Block) (t : Team), s.Free [.w b.toNat] [.w d.toNat] true bl t →
    let e := (t.rw b).toNat % 4
    e < s.dies.length →
    (4096 ≤ ((s.die e).ports.filter fun p => p.2.owner.isSome).length → exec (.portopen h d b) s = .next (s.trap .portarg)) ∧
    (((s.die e).ports.filter fun p => p.2.owner.isSome).length < 4096 → issuesWith (.portopen h d b) s fun v u => ∃ (i : Nat) (p : Port),
      entry? (v.die e).ports i = some p ∧ p.owner = some bl.tag ∧ p.msgs = [] ∧ p.held = [] ∧
      givesW t u d (unitHandle bl.tag e p.gen i) ∧ ∀ q, (i, q) ∈ (s.die e).ports → q.owner = none)) ∧
  (∀ (h : Hd) (p b d : BitVec 6) (s : State) (bl : Block) (t : Team) (e i : Nat) (x : Port),
    (namesPort s bl (t.rw p) e i x → s.Free [.w p.toNat, .w b.toNat] [] false bl t →
      (16 ≤ x.msgs.length → s.firing e = false → exec (.send h p b) s = .next (s.trap .portfull)) ∧
      (s.firing e = true → exec (.send h p b) s = .next (s.park .pipe)) ∧
      (x.msgs.length < 16 → t.outstanding s.cur.base .l = false → s.firing e = false → x.held = [] →
        issuesWith (.send h p b) s fun v _ => tookMsg v e i x (t.rw b))) ∧
    (namesPort s bl (t.rw b) e i x → s.Free [.w b.toNat, .w (b.toNat + 1)] [.w d.toNat] true bl t →
      (16 ≤ x.msgs.length → s.firing e = false → issuesWith (.sendt h d b) s fun _ u => givesW t u d 1#64) ∧
      (s.firing e = true → exec (.sendt h d b) s = .next (s.park .pipe)) ∧
      (x.msgs.length < 16 → t.outstanding s.cur.base .l = false → s.firing e = false → x.held = [] → t.wait = none →
        issuesWith (.sendt h d b) s fun v u => tookMsg v e i x (t.w.getD (b.toNat + 1) 0#64) ∧
          ∃ q ∈ u.pend, q.regs = [.w d.toNat] ∧ q.ready = some [.w d.toNat 0#64])) ∧
    (namesPort s bl (t.rw p) e i x → s.Free [.w p.toNat] [.w d.toNat] true bl t → bl.dying = false →
      ((s.die e).listed i = true → exec (.recv h d p) s = .next (s.trap .portarg)) ∧
      ((s.die e).listed i = false → bl.live = true → x.waiting = [] →
        (∀ m l, x.msgs = m :: l → issuesWith (.recv h d p) s fun v u => u.run.ended = true ∧ receives s t u [.w d.toNat m] ∧
          ∃ y, entry? (v.die e).ports i = some y ∧ y.msgs = l) ∧
        (x.msgs = [] → issuesWith (.recv h d p) s fun _ u => u.stall = .msg ∧ ∃ id, u.wait = some (.recv e i d.toNat id) ∧
          { id := id, regs := [.w d.toNat], ready := none, nred := false } ∈ u.pend)))) ∧
  (∀ (e : BitVec 2) (i : BitVec 12) (s : State) (x : Port) (m : Dword) (l : List Dword), entry? (s.die e.toNat).ports i.toNat = some x →
    x.held = m :: l → x.msgs.length < 16 → s.firing e.toNat = false →
    ∃ v : State, exec (.heldMessageAppend e i) s = .next v ∧ tookMsg v e.toNat i.toNat x m) ∧
  (∀ (s : State) (x : Port), let e := s.input.die.toNat
    let i := s.input.idx.toNat % 4096
    (s.dawn.step < 6 → exec .post s = .next { s with hostReply := none }) ∧
    (6 ≤ s.dawn.step → entry? (s.die e).ports i = some x → x.owner ≠ none → s.firing e = false → x.held = [] →
    (x.msgs.length < 16 → ∃ v : State, exec .post s = .next v ∧ tookMsg v e i x s.input.val) ∧
    (16 ≤ x.msgs.length → x.refused < 2 ^ 32 - 1 → ∃ v : State, exec .post s = .next v ∧
      entry? (v.die e).ports i = some { x with refused := x.refused + 1 })))

/-- R331, R333, R357 to R359: PATSET makes a pattern active with its ports, priority, shape and constants; a complete pattern fires once:
its ports' oldest messages are taken and its handler is dispatched with them and the constants; no complete pattern, no firing. That the
record's NP1 gives the number of handles is the model's reading (log entry 57). -/
def Obligations.PatternsAreSetAndFire : Prop :=
  (∀ (h : Hd) (d b : BitVec 6) (s s1 : State) (bl : Block) (t : Team) (r e : Nat) (ports : List Nat),
    s.Free [.w b.toNat] [.w d.toNat] true bl t → t.outstanding s.cur.base .l = false → s.getVa bl 64 (t.rw b).toNat = .ok r s1 →
    let n := r / 2 ^ 457 % 8 + 1
    (63 < b.toNat + n ∨ patBad r = true → exec (.patset h d b) s = .next (s1.trap .patarg)) ∧
    (b.toNat + n ≤ 63 → patBad r = false →
      t.pending s.cur.base ((List.range n).map fun i => .w (b.toNat + 1 + i)) = false →
      let hs := (List.range n).map fun i => t.w.getD (b.toNat + 1 + i) 0#64
      (s1.patArgs bl hs = none → exec (.patset h d b) s = .next (s1.trap .patarg)) ∧
      (s1.patArgs bl hs = some (e, ports) → s1.firing e = false → issuesWith (.patset h d b) s fun v u => ∃ (i : Nat) (q : Pattern),
        entry? (v.die e).patterns i = some q ∧ givesW t u d (unitHandle bl.tag e q.gen i) ∧ q.owner = some bl.tag ∧
        q.ports = ports ∧ q.prio = r / 2 ^ 460 % 16 ∧ q.shape = patShape r ∧
        q.consts = (List.range (8 - ports.length)).map (fun k => BitVec.ofInt 64 (sextNat (r / 2 ^ (56 * k)) 56))))) ∧
  (∀ (e : BitVec 2) (s : State),
    (firstPattern ((s.die e.toNat).patterns.filter fun p => s.candidate e.toNat p.2) = none → exec (.patternFiring e) s = .next s) ∧
    (∀ i q tag c, firstPattern ((s.die e.toNat).patterns.filter fun p => s.candidate e.toNat p.2) = some (i, q) → q.owner = some tag →
      s.ctx? tag = some c → (∀ l ∈ c.levels, l.cancelled = false) → q.ports.Nodup →
      ∃ (v : State) (x : Dispatch) (y : Level), exec (.patternFiring e) s = .next v ∧ v.dispatches = s.dispatches ++ [x] ∧ x.kind = .handler ∧ x.tag = tag ∧
        x.shape = q.shape ∧ x.args = heads (s.die e.toNat) q.ports ++ q.consts ∧ spawned v tag y ∧ x.slot = y.slot ∧
        ∀ p z, p ∈ q.ports → entry? (s.die e.toNat).ports p = some z →
          ∃ w, entry? (v.die e.toNat).ports p = some w ∧ w.msgs = z.msgs.drop 1))

/-- R353 to R355: QCREATE makes an empty queue over its ring, QCREATE.free gives an empty one back; QPUSH writes its entry and QPOP takes
the oldest, each in its turn; QPUSH parks with QUEUE on a full queue and QPOP waits on an empty one; bad arguments raise QARG, a
core out of scope QSCOPE. -/
def Obligations.QueuesKeepTheirOrder : Prop :=
  (∀ (h : Hd) (d b : BitVec 6) (s : State) (bl : Block) (t : Team), s.Free [.w b.toNat, .w (b.toNat + 1)] [.w d.toNat] true bl t →
    let ring := t.opnd b 0
    let q := t.opnd b 1
    let e := coreDie bl.core
    let good := ring % 64 = 0 ∧ 1 ≤ q % 2 ^ 5 ∧ q % 2 ^ 5 ≤ 20 ∧ q / 2 ^ 5 % 2 ^ 3 = 0 ∧ q / 2 ^ 11 % 2 ^ 5 = 0 ∧ q / 2 ^ 16 % 8 ≠ 7 ∧
      q / 2 ^ 19 = 0 ∧ ((s.die e).queues.filter fun p => p.2.owner.isSome).length < 4096
    (¬good → exec (.qcreate h d b) s = .next (s.trap .qarg)) ∧
    (good → e < s.dies.length → issuesWith (.qcreate h d b) s fun v u => ∃ (i : Nat) (x : Queue), entry? (v.die e).queues i = some x ∧
      givesW t u d (unitHandle bl.tag e x.gen i) ∧ x.owner = some bl.tag ∧ x.ring = ring % 2 ^ 56 ∧ x.log = q % 2 ^ 5 ∧
      x.ew = q / 2 ^ 8 % 8 + 1 ∧ x.scope = q / 2 ^ 16 % 8 ∧ x.core = bl.core ∧ x.head = 0 ∧ x.tail = 0)) ∧
  (∀ (h : Hd) (a b d : BitVec 6) (s s1 : State) (bl : Block) (t : Team) (e i : Nat) (x : Queue) (as : List Nat),
    namesQueue s bl (t.rw b) e i x → s.Free [.w b.toNat] [] false bl t →
    (x.head ≠ x.tail → exec (.qcreateFree h b) s = .next (s.trap .qarg)) ∧
    (x.head = x.tail → x.waiting = [] → x.pushing = [] → issuesWith (.qcreateFree h b) s fun v _ => ∃ y,
      entry? (v.die e).queues i = some y ∧ y.owner = none ∧ y.gen = x.gen + 1#32) ∧
    (a.toNat + x.ew ≤ 64 →
      (inScope x.scope x.core bl.core = false → exec (.qpush h a b) s = .next (s.trap .qscope)) ∧
      (inScope x.scope x.core bl.core = true → t.pending s.cur.base ((List.range x.ew).map fun j => .w (a.toNat + j)) = false →
        s.entryLegal bl .wr (x.slots x.tail) = .ok as s1 → x.pushing = [] →
        (x.head + 2 ^ x.log ≤ x.tail → ∃ (v : State) (c : Block) (u : Team), exec (.qpush h a b) s = .next v ∧ v.cur.res = .parked ∧
          v.team? s.cur.r = some (c, u) ∧ u.want = .push e i ∧ u.reason = .queue) ∧
        (x.tail < x.head + 2 ^ x.log → t.outstanding s.cur.base .l = false → issuesWith (.qpush h a b) s fun v _ =>
          (∃ y, entry? (v.die e).queues i = some y ∧ y.tail = x.tail + 1) ∧
          (s.migrations = [] → x.waiting = [] → as.Pairwise (fun p q => p + 8 ≤ q ∨ q + 8 ≤ p) → ∀ j p, as[j]? = some p →
            v.mem.rdN p 8 = (t.w.getD (a.toNat + j) 0#64).toNat)))) ∧
    (d.toNat + x.ew ≤ 64 → bl.dying = false → inScope x.scope x.core bl.core = true →
      t.pending s.cur.base ((List.range x.ew).map fun j => .w (d.toNat + j)) = false →
      t.runBusy s.clock ((List.range x.ew).map fun j => .w (d.toNat + j)) = false → x.waiting = [] → bl.live = true →
      (x.head = x.tail → issuesWith (.qpop h d b) s fun _ u => u.run.ended = true ∧ u.stall = .queue ∧
        ∃ id, u.wait = some (.qpop e i d.toNat id s.cur.addr s.cur.first)) ∧
      (x.head ≠ x.tail → s.entryLegal bl .rd (x.slots x.head) = .ok as s1 → issuesWith (.qpop h d b) s fun v u =>
        u.run.ended = true ∧ (∃ y, entry? (v.die e).queues i = some y ∧ y.head = x.head + 1 ∧ y.tail = x.tail) ∧
        receives s t u (as.zipIdx.map fun z => .w (d.toNat + z.2) (BitVec.ofNat 64 (s.pmRd z.1 8))))))

namespace Sys2Proof.Claims
open Sys2Proof.Machine

/-! ### Tree launches (R62 to R80, R142 to R145) -/

/-- Dword `w` of entry `e` of a tree launch's Shelf. -/
def shelfAt (t : Tree) (e w : Nat) : Dword := (t.shelf.getD e []).getD w 0#64

/-- Block `b` is the block of node `x` of tree launch `t` (R143). -/
def nodeBlock (s : State) (b : Block) (t : Tree) (x : Node) : Prop :=
  ∃ l n, b.tree = some l ∧ b.node = some n ∧ s.trees.find? (fun t => t.id == l) = some t ∧ t.nodes.find? (fun y => y.idx == n) = some x

/-- The tree launch of an identity is there, and such it is. -/
def launchIs (v : State) (l : Nat) (p : Tree → Prop) : Prop := (∃ x ∈ v.trees, x.id = l) ∧ ∀ x ∈ v.trees, x.id = l → p x

/-- The opening order of children (R68): by descending need, ties by lower position. -/
def orderR (need : Nat → Nat) (cs o : List Nat) : Prop :=
  o.Perm cs ∧ o.Pairwise fun a b => need b < need a ∨ need a = need b ∧ cs.idxOf a < cs.idxOf b

/-- The need of a node whose children have an opening order (R68): 1 for a leaf, else the greatest need(ci) + i - 1. -/
def needR (need : Nat → Nat) (o : List Nat) (n : Nat) : Prop :=
  (o = [] → n = 1) ∧ (∀ (i : Nat) (c : Nat), o[i]? = some c → need c + i ≤ n) ∧
  (o ≠ [] → ∃ (i : Nat) (c : Nat), o[i]? = some c ∧ need c + i = n)

/-- Whether a node of a launch is unopened; held(n), the number of its children that are done or faulted; open(n), the budgets of its
opened children that are neither done nor faulted nor released (R72). -/
def unopenedR (t : Tree) (c : Nat) : Bool :=
  match t.nodes.find? fun y => y.idx == c with | some y => y.st = .unopened | none => true
def heldR (t : Tree) (x : Node) : Nat :=
  x.children.countP fun c => match t.nodes.find? fun y => y.idx == c with | some y => y.st = .done || y.st = .faulted | none => false
def openR (t : Tree) (x : Node) : Nat :=
  (x.children.map fun c => match t.nodes.find? fun y => y.idx == c with
    | some y => if y.st = .unopened || y.st = .done || y.st = .faulted || y.released then 0 else y.budget
    | none => 0).sum

/-- An entry of a Shelf is there with its eight dwords. -/
def hasEntry (t : Tree) (e : Nat) : Prop := ∃ l, t.shelf[e]? = some l ∧ l.length = 8

/-- Dword `w` of entry `e` is written with `x`, and no other dword of the launch's Shelf changes. -/
def putR (t t' : Tree) (e w : Nat) (x : Dword) : Prop :=
  shelfAt t' e w = x ∧ ∀ f z, (f, z) ≠ (e, w) → shelfAt t' f z = shelfAt t f z

/-- Node `x` has given entry `e` to its child at position `k`, and has all its other children's entries as they were. -/
def givenR (t' : Tree) (x : Node) (k e : Nat) : Prop :=
  ∃ y, t'.nodes.find? (fun z => z.idx == x.idx) = some y ∧ y.entries = x.entries.set k (some e)

/-! The census (R65 to R69) -/

/-- The field of `n` bits from bit `lo` of a record. -/
def fieldR (r lo n : Nat) : Nat := r / 2 ^ lo % 2 ^ n

/-- A census reads value `v` in `n` bytes at an address (R64, R67). -/
def readsR (s : State) (t : Tree) (n a v : Nat) : Prop := ∃ p, s.unitLegal t.tag .rd n a = .pa p ∧ s.censusVal t n a p = v

/-- A census may not read `n` bytes at an address (R69 XLATE). -/
def unreadR (s : State) (t : Tree) (n a : Nat) : Prop := ∃ w, s.unitLegal t.tag .rd n a = .bad w

/-- Where node record `n` and entry `j` of the child index array of a launch lie (R65, R66). -/
def nodeAddr (t : Tree) (n : Nat) : Nat := fieldR t.record 0 56 + 32 * n
def kidAddr (t : Tree) (j : Nat) : Nat := fieldR t.record 64 56 + 4 * j

/-- COUNT, ROOT and CAP of a launch's record, and whether its reserved fields are zero (R62). -/
def countR (t : Tree) : Nat := fieldR t.record 160 25
def rootR (t : Tree) : Nat := fieldR t.record 128 24
def capR (t : Tree) : Nat := fieldR t.record 192 13
def zerosR (t : Tree) : Prop :=
  fieldR t.record 190 2 = 0 ∧ fieldR t.record 185 4 = 0 ∧ fieldR t.record 120 8 = 0 ∧ fieldR t.record 56 8 = 0

/-- The checks ENTRY, RSVD and FIT of a node record `r` (R69, R48). -/
def entryR' (t : Tree) (r : Nat) : Prop :=
  fieldR t.record (256 + 64 * fieldR r 0 2) 48 ≠ 0 ∧ fieldR t.record (256 + 64 * fieldR r 0 2) 48 % 12 = 0
def nodeZeros (r : Nat) : Prop := fieldR r 10 6 = 0 ∧ fieldR r 40 24 = 0
def fitsR (s : State) (t : Tree) (r : Nat) : Prop :=
  (fieldR r 6 4 + 1) * (128 * (fieldR t.record 155 5 + 1) * (8 * (fieldR t.record 152 3 + 1))) ≤ 262144 ∧
  fieldR t.record 219 9 ≤ 256 ∧ fieldR t.record 213 6 ≤ 32 ∧ fieldR t.record 208 5 ≤ 16 ∧
  ∃ i, i < 256 ∧ s.inPart t.tag (256 * t.die + i) = true

/-- Node `n` passes the checks before its children with record `r`; or check `k` is the first of them that fails (R67 item 2). -/
structure NodePasses (s : State) (t : Tree) (n r : Nat) : Prop where
  read : readsR s t 32 (nodeAddr t n) r
  entry : entryR' t r
  zeros : nodeZeros r
  fit : fitsR s t r
inductive NodeFails (s : State) (t : Tree) (n : Nat) : Nat → Prop
  | xlate : unreadR s t 32 (nodeAddr t n) → NodeFails s t n 8
  | entry (r : Nat) : readsR s t 32 (nodeAddr t n) r → ¬entryR' t r → NodeFails s t n 3
  | rsvd (r : Nat) : readsR s t 32 (nodeAddr t n) r → entryR' t r → ¬nodeZeros r → NodeFails s t n 7
  | fit (r : Nat) : readsR s t 32 (nodeAddr t n) r → entryR' t r → nodeZeros r → ¬fitsR s t r → NodeFails s t n 9

/-- What is walked: node `n`, or the children of a node `n` with record `r` from position `k` on, those before having needs `ns`; and what
that comes to: check `k` fails at node `n`, or the nodes reached by then and the need of the node walked. -/
inductive Stage where
  | node (n : Nat)
  | kids (n r k : Nat) (ns : List Nat)
inductive Walked where
  | fails (k n : Nat)
  | passes (l : List Nat) (need : Nat)

/-- The need of a node whose children, by position, have needs `ns` (R68). -/
def needIs (ns : List Nat) (m : Nat) : Prop :=
  ∃ o : List Nat, o.Perm ns ∧ o.Pairwise (fun a b => b ≤ a) ∧ (o = [] → m = 1) ∧ (∀ (i a : Nat), o[i]? = some a → a + i ≤ m) ∧
    (o ≠ [] → ∃ i a : Nat, o[i]? = some a ∧ a + i = m)

/-- The entry of a node's child at position `k` names child `c`, not reached before: it passes RSVD, CHILD and TWICE (R67 item 3). -/
structure KidPasses (s : State) (t : Tree) (r k : Nat) (l : List Nat) (c : Nat) : Prop where
  pos : k < fieldR r 2 4
  read : readsR s t 4 (kidAddr t (fieldR r 16 24 + k)) c
  below : c < 2 ^ 24 ∧ c < countR t
  new : c ∉ l

/-- The depth-first walk of R67, items 2 and 3, the nodes of `l` being reached before. -/
inductive Walks (s : State) (t : Tree) : Stage → List Nat → Walked → Prop
  | nodeFails (n k : Nat) (l : List Nat) : NodeFails s t n k → Walks s t (.node n) l (.fails k n)
  | node (n r : Nat) (l : List Nat) (w : Walked) : NodePasses s t n r → Walks s t (.kids n r 0 []) (n :: l) w → Walks s t (.node n) l w
  | last (n r k m : Nat) (ns l : List Nat) : fieldR r 2 4 = k → needIs ns m → Walks s t (.kids n r k ns) l (.passes l m)
  | kidXlate (n r k : Nat) (ns l : List Nat) : k < fieldR r 2 4 → unreadR s t 4 (kidAddr t (fieldR r 16 24 + k)) →
      Walks s t (.kids n r k ns) l (.fails 8 n)
  | kidRsvd (n r k v : Nat) (ns l : List Nat) : k < fieldR r 2 4 → readsR s t 4 (kidAddr t (fieldR r 16 24 + k)) v →
      fieldR v 24 8 ≠ 0 → Walks s t (.kids n r k ns) l (.fails 7 n)
  | kidChild (n r k c : Nat) (ns l : List Nat) : k < fieldR r 2 4 → readsR s t 4 (kidAddr t (fieldR r 16 24 + k)) c →
      c < 2 ^ 24 → countR t ≤ c → Walks s t (.kids n r k ns) l (.fails 4 n)
  | kidTwice (n r k c : Nat) (ns l : List Nat) : k < fieldR r 2 4 → readsR s t 4 (kidAddr t (fieldR r 16 24 + k)) c →
      c < 2 ^ 24 → c < countR t → c ∈ l → Walks s t (.kids n r k ns) l (.fails 5 n)
  | kidFails (n r k c j m : Nat) (ns l : List Nat) : KidPasses s t r k l c → Walks s t (.node c) l (.fails j m) →
      Walks s t (.kids n r k ns) l (.fails j m)
  | kid (n r k c m : Nat) (ns l l' : List Nat) (w : Walked) : KidPasses s t r k l c → Walks s t (.node c) l (.passes l' m) →
      Walks s t (.kids n r (k + 1) (ns ++ [m])) l' w → Walks s t (.kids n r k ns) l w

/-- Node `y` of a launch is as its record and its child entries have it (R65, R66). -/
def nodeIs (s : State) (t : Tree) (y : Node) : Prop :=
  ∃ r, NodePasses s t y.idx r ∧ y.kind = fieldR r 0 2 ∧ y.teams = fieldR r 6 4 + 1 ∧
    y.args = [BitVec.ofNat 64 (fieldR r 64 64), BitVec.ofNat 64 (fieldR r 128 64), BitVec.ofNat 64 (fieldR r 192 64)] ∧
    y.children.length = fieldR r 2 4 ∧ ∀ (k c : Nat), y.children[k]? = some c → readsR s t 4 (kidAddr t (fieldR r 16 24 + k)) c

/-- A step ends a launch's census with check `k` failed at node `n` (R69). -/
def reportsR (s : State) (t : Tree) (k n : Nat) : Prop :=
  ∃ v : State, exec (.census t.id) s = .next v ∧ launchIs v t.id fun x => x.phase = .report ∧ x.cause = k ∧ x.at' = n

end Sys2Proof.Claims

/-- R142 to R145: in a node's block NRES writes a dword of the node's own entry, NRES.k one of a child's in a downward sweep, NCHILD
reads a child's in an upward sweep and NPARENT the node's in a downward one; elsewhere, and out of range, they raise TREEARG. -/
def Obligations.HandoverWordsReachTheShelf : Prop :=
  ∀ (h : Hd) (a d : BitVec 6) (p : BitVec 4) (w : BitVec 3) (s : State) (b : Block) (t : Team),
    (b.tree = none →
      (s.Free [.w a.toNat] [] false b t → exec (.nres h a w) s = .next (s.trap .treearg) ∧
        exec (.nresK h a p w) s = .next (s.trap .treearg)) ∧
      (s.Free [] [.w d.toNat] true b t → exec (.nchild h d p w) s = .next (s.trap .treearg) ∧
        exec (.nparent h d w) s = .next (s.trap .treearg))) ∧
    (∀ T x, nodeBlock s b T x →
      (s.Free [.w a.toNat] [] false b t →
        (T.rsz < w.toNat ∨ T.down = true → exec (.nres h a w) s = .next (s.trap .treearg)) ∧
        (w.toNat ≤ T.rsz → T.down = false → ∀ e, x.entry = some e → hasEntry T e → issuesWith (.nres h a w) s fun v _ =>
          launchIs v T.id fun T' => putR T T' e w.toNat (t.rw a)) ∧
        (T.rsz < w.toNat ∨ T.down = false ∨ x.children.length ≤ p.toNat → exec (.nresK h a p w) s = .next (s.trap .treearg)) ∧
        (w.toNat ≤ T.rsz → T.down = true → p.toNat < x.children.length →
          (∀ e, x.entries[p.toNat]? = some (some e) → hasEntry T e →
            issuesWith (.nresK h a p w) s fun v _ => launchIs v T.id fun T' => putR T T' e w.toNat (t.rw a)) ∧
          (x.entries[p.toNat]? = some none → x.order.head? = x.children[p.toNat]? → ∀ e, x.entry = some e → hasEntry T e →
            issuesWith (.nresK h a p w) s fun v _ => launchIs v T.id fun T' => putR T T' e w.toNat (t.rw a) ∧ T'.free = T.free ∧
              givenR T' x p.toNat e) ∧
          (x.entries[p.toNat]? = some none → x.order.head? ≠ x.children[p.toNat]? → ∀ e l, T.free = e :: l → hasEntry T e →
            issuesWith (.nresK h a p w) s fun v _ => launchIs v T.id fun T' => T'.free = l ∧ givenR T' x p.toNat e ∧
              (∀ z, z < 8 → shelfAt T' e z = if z = w.toNat then t.rw a else 0#64) ∧
              ∀ f z, f ≠ e → shelfAt T' f z = shelfAt T f z))) ∧
      (s.Free [] [.w d.toNat] true b t →
        (T.rsz < w.toNat ∨ T.down = true ∨ x.children.length ≤ p.toNat → exec (.nchild h d p w) s = .next (s.trap .treearg)) ∧
        (w.toNat ≤ T.rsz → T.down = false → p.toNat < x.children.length → ∀ y e, T.nodes.find? (fun z => z.idx == x.children.getD p.toNat 0)
          = some y → y.entry = some e → issuesWith (.nchild h d p w) s fun _ u => givesW t u d (shelfAt T e w.toNat)) ∧
        (T.rsz < w.toNat ∨ T.down = false → exec (.nparent h d w) s = .next (s.trap .treearg)) ∧
        (w.toNat ≤ T.rsz → T.down = true → ∀ e, x.entry = some e →
          issuesWith (.nparent h d w) s fun _ u => givesW t u d (shelfAt T e w.toNat))))

/-- R67 to R73, R79, R80: the census makes the checks of R69 in R67's order over a depth-first walk, and ends a launch at the first that
fails, with the check and the node for its report, or hands its
nodes to the Shelf, and an absent page delays it, with what it has read kept; that a misaligned read, or one that no route of the context reaches, fails XLATE is the model's reading (log entry 130); a launch that is cancelled before its sweep ends at once
and one that is cancelled in it dispatches no node, and its status has END = 3; the launches take CAP zeroed entries in their order where
the Shelf has room; the ready node of lowest index is dispatched once, and keeps those of higher index back until it is placed; and a
launch that has written its maps is gone, its instance complete with the launch's status word. Needs and opening orders are those of R68;
an opening pass of an upward sweep gives each node that it opens its need as budget, and ends where no node has room for the first child
that it has not opened (R72). -/
def Obligations.TreeLaunchesGoThroughTheirPhases : Prop :=
  (∀ (s : State) (t : Tree), s.trees.find? (fun x => x.id == t.id) = some t → t.cancelled = false →
    (t.phase = .census ∨ t.phase = .waiting ∧ s.heldTrees t.die < 64 ∧
        (∀ x ∈ s.trees, x.die = t.die → x.phase = .waiting → t.id ≤ x.id) →
      (∀ a, (s.census t).gone = some a → ∃ v : State, exec (.census t.id) s = .next v ∧
        launchIs v t.id fun x => x = { t with phase := .census, seen := (s.census t).seen }) ∧
      (∀ e n, (s.census t).gone = none → (s.census t).err = some (e, n) → ∃ v : State, exec (.census t.id) s = .next v ∧
        launchIs v t.id fun x => x.phase = .report ∧ x.cause = e ∧ x.at' = n) ∧
      ((s.census t).gone = none → (s.census t).err = none → ∃ v : State, exec (.census t.id) s = .next v ∧
        launchIs v t.id fun x => x.phase = .shelf ∧ x.nodes = (s.census t).nodes) ∧
      (t.seen = [] → let counted := 1 ≤ countR t ∧ countR t ≤ 2 ^ 24 ∧ rootR t < countR t
        (¬counted → reportsR s t 1 0) ∧ (counted → ¬zerosR t → reportsR s t 7 0) ∧
        (counted → zerosR t → (∀ k n, Walks s t (.node (rootR t)) [] (.fails k n) → reportsR s t k n) ∧
          (∀ l m, Walks s t (.node (rootR t)) [] (.passes l m) →
            (∀ i, i < countR t → i ∉ l → (∀ j, j < i → j ∈ l) → reportsR s t 6 i) ∧
            ((∀ i, i < countR t → i ∈ l) →
              (capR t = 0 ∨ 4096 < capR t ∨ capR t < m → reportsR s t 2 0) ∧
              (1 ≤ capR t → capR t ≤ 4096 → m ≤ capR t → ∃ v : State, exec (.census t.id) s = .next v ∧ launchIs v t.id fun x =>
                x.phase = .shelf ∧ x.nodes.map (fun y => y.idx) = List.range (countR t) ∧ ∀ y ∈ x.nodes, nodeIs s t y)))))) ∧
    (t.phase = .shelf → (∀ x, s.trees.find? (fun x => x.die = t.die && x.phase = .shelf) = some x → x.id = t.id) →
      (65536 < s.shelfUsed t.die + t.cap → exec (.shelfReservation t.id) s = .next s) ∧
      (s.shelfUsed t.die + t.cap ≤ 65536 → ∃ v : State, exec (.shelfReservation t.id) s = .next v ∧
        launchIs v t.id fun x => x.phase ≠ .shelf ∧ x.shelf = List.replicate t.cap (List.replicate 8 0#64))) ∧
    (t.phase = .sweeping → s.phaseReady t.tag t.slot = true →
      (t.nodes.find? (fun x => x.st = .ready) = none → exec (.nodeDispatch t.id) s = .next s) ∧
      (∀ x, t.nodes.find? (fun x => x.st = .ready) = some x →
        (x.dispatched = true → exec (.nodeDispatch t.id) s = .next s) ∧
        (x.dispatched = false → ∃ v : State, exec (.nodeDispatch t.id) s = .next v ∧
          launchIs v t.id (fun y => ∀ z ∈ y.nodes, z.idx = x.idx → z.dispatched = true) ∧
          ((∃ d ∈ v.dispatches, d.kind = .node ∧ d.tree = some t.id ∧ d.node = some x.idx ∧ d.args = x.args) ∨
            ∃ b ∈ v.blocks, b.tree = some t.id ∧ b.node = some x.idx ∧ b.tag = t.tag)))) ∧
    (∀ (d : Dispatch) (x : Node) (n : Nat), d.kind = .node → d.tree = some t.id → d.node = some n → x ∈ t.nodes → x.st = .ready →
      x.idx < n → s.mayPlace d = false) ∧
    (t.phase = .ending ∨ t.phase = .report → (∀ w ∈ t.writes, w.1 ∈ t.written) → ∃ v : State, exec (.sweepEnd t.id) s = .next v ∧
      (∀ x ∈ v.trees, x.id ≠ t.id ∧ x ∈ s.trees) ∧ ∀ c l d m, s.ctx? t.tag = some c → c.level? t.slot = some l → l.complete = false →
        v.ctx? t.tag = some d → d.level? t.slot = some m → m.complete = true ∧ m.status = t.status)) ∧
  (∀ (s : State) (t : Tree), s.trees.find? (fun x => x.id == t.id) = some t → t.cancelled = true →
    (t.phase = .waiting ∨ t.phase = .census → ∃ v : State, exec (.census t.id) s = .next v ∧
      launchIs v t.id fun x => x = { t with phase := .ending }) ∧
    (t.phase = .shelf → ∃ v : State, exec (.shelfReservation t.id) s = .next v ∧
      launchIs v t.id fun x => x = { t with phase := .ending }) ∧
    exec (.nodeDispatch t.id) s = .next s ∧ t.status.toNat % 2 ^ 15 = 3) ∧
  (∀ (ns : List Node) (x : Node), x.children.Nodup →
    let y := x.setNeed ns
    orderR (fun c => ((ns.find? fun z => z.idx == c).map fun z => z.need).getD 0) x.children y.order ∧
    needR (fun c => ((ns.find? fun z => z.idx == c).map fun z => z.need).getD 0) y.order y.need) ∧
  (∀ (t : Tree), t.down = false → (t.nodes.map fun x => x.idx).Nodup →
    let v := t.pass.1
    (∀ n a b, t.nodes.find? (fun x => x.idx == n) = some a → v.nodes.find? (fun x => x.idx == n) = some b →
      b = { a with refused := b.refused, counted := b.counted } ∨
      a.st = .unopened ∧ b = { a with st := if a.children = [] then .ready else .opened, budget := a.need, refused := b.refused
                                      counted := b.counted }) ∧
    ∀ x ∈ v.nodes, x.st = .opened → x.released = false → ∀ c y, x.order.find? (fun c => unopenedR v c) = some c →
      v.nodes.find? (fun z => z.idx == c) = some y → x.budget < heldR v x + openR v x + y.need)

namespace Sys2Proof.Claims
open Sys2Proof.Machine

/-! ### Translation and invalidation (R197, R200, R201, R204, R244, R245, R421) -/

/-- The CLASS of R197: a window or Bureau page is 3, else the page's size tells it. -/
def classR (bureau : Bool) (p : Page) : BitVec 3 :=
  if bureau = true ∨ 2 ^ 39 ≤ p.frame % 2 ^ 48 then 3#3
  else if p.size = 2 ^ 16 then 0#3 else if p.size = 2 ^ 21 then 1#3 else 2#3

/-- What XLAT writes for an address (R244). -/
def xlatR (bureau : Bool) (e : Nat) (w : Walk) : XReg :=
  match w with
  | .page p =>
    ⟨BitVec.ofNat 56 e, BitVec.ofNat 57 (p.frame + (e - p.page)), BitVec.ofNat 30 (p.size - e % p.size), classR bureau p,
      true, p.rd, p.wr, p.at'⟩
  | _ => ⟨BitVec.ofNat 56 e, 0#57, 0#30, 0#3, true, false, false, false⟩

/-- Two ranges share no byte. -/
def apart (a b : Nat × Nat) : Prop := ¬(a.1 < b.2 ∧ b.1 < a.2)

/-- No team of a context has an access in the operand log. -/
def nothingLogged (s : State) (tag : BitVec 12) : Prop :=
  ∀ x ∈ s.blocks, x.tag = tag → ∀ t ∈ x.teams, ∀ o ∈ t.ops, o.logged = false

/-- The effects of an invalidation of range `g` of a context between `s` and `v` (R245): no TLB entry and no translation register with
a LIMIT overlaps it, nor a result of XLAT that has not arrived, and what does not overlap it stays. -/
def invalidated (s v : State) (tag : BitVec 12) (g : Nat × Nat) : Prop :=
  (∀ p, p ∈ v.tlb1 ∨ p ∈ v.tlb2 → ∀ e ∈ p.2, e.tag = tag → apart (e.page, e.page + e.size) g) ∧
  (∀ p ∈ s.tlb1, ∀ e ∈ p.2, e.tag ≠ tag ∨ apart (e.page, e.page + e.size) g → ∃ q ∈ v.tlb1, q.1 = p.1 ∧ e ∈ q.2) ∧
  (∀ p ∈ s.tlb2, ∀ e ∈ p.2, e.tag ≠ tag ∨ apart (e.page, e.page + e.size) g → ∃ q ∈ v.tlb2, q.1 = p.1 ∧ e ∈ q.2) ∧
  (∀ x ∈ v.blocks, x.tag = tag → x.bureau = none → ∀ u ∈ x.teams, ∀ y ∈ u.x, y.val = true → y.limit ≠ 0#30 → apart y.span g) ∧
  (∀ x ∈ v.blocks, x.tag = tag → x.bureau = none → ∀ u ∈ x.teams, ∀ p ∈ u.pend, ∀ ws r y, p.ready = some ws →
    RegWrite.x r y ∈ ws → y.val = true → y.limit ≠ 0#30 → apart y.span g) ∧
  v.mem = s.mem

/-- Entry `o` of team `t` of block `x`, of identity `n`, is due for a retry, and no other entry of the block has its identity. -/
structure DueRetry (s : State) (b n : Nat) (x : Block) (t : Team) (o : MemOp) : Prop where
  block : s.block? b = some x
  here : x.place = .resident
  team : x.team? t.idx = some t
  entry : o ∈ t.ops
  id : o.id = n
  due : o.retry = true
  alone : ∀ u ∈ x.teams, ∀ p ∈ u.ops, p.id = n → p = o ∧ u.idx = t.idx

/-- A lane of the operand log waits for a page, given by its first byte and its end. -/
def waitsPage (o : MemOp) (g : Nat × Nat) : Bool :=
  o.logged && o.lanes.any fun l => !l.done && l.pa.isNone && decide (g.1 ≤ l.va) && decide (l.va < g.2)

end Sys2Proof.Claims

/-- R197, R244, R245, R368: XLAT writes the translation register of an address, with LIMIT 0 where no page is resident, and tells no
pager; it waits while a write of a routing entry holds a table that its walk reads (R425); XINV waits for the team's earlier stores of path L, logged ones among them, then invalidates the whole pages that its range touches,
which for resident pages reach from the first one's first byte to the last one's end, and the team fetches nothing while an access that
it has retried is not performed; with a length of 0, and for a Bureau, which has no translations, it has no effect. The model's readings:
that pages are covered by the tables' present sizes, and results of XLAT that have not arrived as well (log entry 40); the wait for
logged stores and for what is retried (log entry 41); and, its choice, that a translation register is covered by its whole page and a range is cut off at 2^56 (log
entries 124, 138). R201, R204, R421: a page-ready write marks the logged accesses of a context that wait for the page; a retry gives the lane of a
legal address its physical address and leaves another one logged; a write of INVLEN starts an invalidation unless one is in progress,
and BUSY falls once it is done. -/
def Obligations.TranslationsAreReadAndInvalidated : Prop :=
  ((∀ (h : Hd) (d : BitVec 3) (a : BitVec 6) (s : State) (b : Block) (t : Team), s.Free [.w a.toNat] [.x d.toNat] true b t →
    let e := (t.rw a).toNat % 2 ^ 56
    let held := b.bureau = none ∧ s.tableWait b.tag e = true ∧ (s.xlate b e).1 = .absent
    (held → exec (.xlat h d a) s = .next (s.park .xlate)) ∧
    (¬held → issuesWith (.xlat h d a) s fun v u => v.dies = s.dies ∧ v.mem = s.mem ∧ ∃ id, u.pend = t.pend ++
      [⟨id, [.x d.toNat], some [.x d.toNat (xlatR b.bureau.isSome e (s.xlate b e).1)], false, false⟩])) ∧
  (∀ (h : Hd) (a b : BitVec 6) (s : State) (bl : Block) (t : Team), s.Free [.w a.toNat, .w b.toNat] [] false bl t →
    let waits := ∃ o ∈ t.ops, o.path = .l ∧ o.kind ≠ .load ∧ o.id < s.cur.base
    (waits → exec (.xinv h a b) s = .next (s.park .xlate)) ∧
    (¬waits → t.rw b = 0#64 ∨ bl.bureau.isSome = true → exec (.xinv h a b) s = .next (s.issue h false id)) ∧
    (¬waits → t.rw b ≠ 0#64 → bl.bureau = none → nothingLogged s bl.tag → issuesWith (.xinv h a b) s fun v u =>
      let g := s.pageSpan bl.tag ((t.rw a).toNat % 2 ^ 56) (t.rw b).toNat
      invalidated s v bl.tag g ∧ u.xinv = some g)) ∧
  (∀ (s : State) (r : TRef) (b : Block) (t : Team) (g : Nat × Nat), s.team? r = some (b, t) → t.ended = false → t.trap = none →
    t.wait = none → b.live = true → t.xinv = some g → s.retriesLeft b.tag g = true →
    ∃ v c u, s.issueTurn r = .next v ∧ v.mem = s.mem ∧ v.team? r = some (c, u) ∧ u = { t with reason := .xlate, parked := true })) ∧
  (∀ (s : State) (c : Ctx) (a n : Nat) (p q : Page), s.ctx? c.tag = some c → s.walk c a = .page p → a < 2 ^ 56 → n ≠ 0 → a + n ≤ 2 ^ 56 →
    s.walk c (a + n - 1) = .page q → s.pageSpan c.tag a n = (p.page, q.page + q.size) ∧ p.page ≤ a ∧ a + n ≤ q.page + q.size) ∧
  ((∀ (s : State) (b n : Nat) (x : Block) (t : Team) (o : MemOp) (l : LaneAcc), DueRetry s b n x t o → o.lanes = [l] → l.done = false →
    l.pa = none → s.routeHolds = [] →
    let verdict := (s.legalVa x (match o.kind with | .load => .rd | .atom => .at' | _ => .wr) o.size l.va).1
    let l' : LaneAcc := match verdict with | .pa a => { l with pa := some a } | _ => l
    ∃ (v : State) (y : Block) (u : Team), exec (.logRetry b n) s = .next v ∧ v.block? b = some y ∧ y.team? t.idx = some u ∧ v.mem = s.mem ∧
      u.ops = t.ops.map fun p => if p.id = n then { o with lanes := [l'], replays := o.replays + 1, retry := false } else p) ∧
  (∀ (s : State) (b n : Nat), (∀ x, s.block? b = some x → ∀ t ∈ x.teams, ∀ o ∈ t.ops, o.id = n → o.retry = false) →
    exec (.logRetry b n) s = .next s) ∧
  (∀ (s : State), ∃ v : State, exec .pagerdy s = .next v ∧ v.mem = s.mem ∧ ∀ r x t, s.team? r = some (x, t) →
    ∃ y u, v.team? r = some (y, u) ∧ u.ops = t.ops.map fun o =>
      if x.tag.toNat = s.input.val.toNat % 4096 ∧ x.bureau = none ∧ waitsPage o (s.pageSpan (s.input.val.setWidth 12)
            (s.input.val.toNat / 65536 % 2 ^ 40 * 65536) 1) = true then
        { o with retry := true } else o) ∧
  (∀ (s : State), let x := s.inval s.input.inv
    (x.busy = true → exec .invlen s = .next s) ∧
    (x.busy = false → ∃ v : State, exec .invlen s = .next v ∧
      v.inval s.input.inv = ⟨x.addr, s.input.val.setWidth 48, decide (s.input.val.setWidth 48 ≠ 0#48), x.going⟩)) ∧
  (∀ (s : State) (p : InvPort), let x := s.inval p
    (x.busy = false → exec (.invalidationDone p) s = .next s) ∧
    (x.busy = true → x.going = none → nothingLogged s (x.addr.setWidth 12) → ∃ v : State, exec (.invalidationDone p) s = .next v ∧
      v.inval p = ⟨x.addr, x.len, false, none⟩ ∧
      invalidated s v (x.addr.setWidth 12) (s.pageSpan (x.addr.setWidth 12) (x.addr.toNat / 65536 % 2 ^ 40 * 65536) x.len.toNat)) ∧
    (∀ g, x.busy = true → x.going = some g → ∃ v : State, exec (.invalidationDone p) s = .next v ∧ v.mem = s.mem ∧ v.blocks = s.blocks ∧
      (s.retriesLeft (x.addr.setWidth 12) g = true → v.inval p = x) ∧
      (s.retriesLeft (x.addr.setWidth 12) g = false → v.inval p = ⟨x.addr, x.len, false, none⟩))))

namespace Sys2Proof.Claims
open Sys2Proof.Machine

/-! ### The registers of the units (R8, R369 to R371, R407, R421 to R426, R432 to R447, R457 to R459) -/

/-- A step completes, leaves memory, the blocks and the other dies as they are, and die `e` as `p` says. -/
def onDie (i : Instr) (s : State) (e : Nat) (p : Die → Prop) : Prop :=
  ∃ v : State, exec i s = .next v ∧ v.mem = s.mem ∧ v.blocks = s.blocks ∧ (∀ k, k ≠ e → v.die k = s.die k) ∧ p (v.die e)

/-- A core holds a block of another context than `t` (R458). -/
def heldByOther (s : State) (core : Nat) (t : BitVec 12) : Prop :=
  ∃ b ∈ s.blocks, b.core = core ∧ b.bureau = none ∧ b.tag ≠ t ∧ b.place ≠ .swapped

/-- The block that BLKID0 of die `e` and `blk` name (R443). -/
structure Named (s : State) (e : Nat) (blk : BitVec 32) (b : Block) : Prop where
  found : s.block? b.id = some b
  only : ∀ x ∈ s.blocks, x.bureau = none → (s.levelOf x).toNat % 2 ^ 48 = (s.die e).blkid0.toNat → x.block = blk → x = b
  task : b.bureau = none
  level : (s.levelOf b).toNat % 2 ^ 48 = (s.die e).blkid0.toNat
  block : b.block = blk

/-- A team has halted, with the results of its ended run written, or has ended (R442, R445). -/
def standsR (u : Team) : Prop := u.ended = true ∨ (u.halted = true ∧ (u.run.ended = true → u.run.writes = []))

/-- The teams of a list as bits. -/
def bitsR : List Nat → Nat
  | [] => 0
  | i :: l => 2 ^ i + bitsR l

end Sys2Proof.Claims

/-- R369 to R371, R421, R424 to R426, R432, R437, R457, R458: each write of a register of a unit has the effect that its table gives,
and each read that takes an entry takes the oldest; a write of TERMACK takes the tag of a report from every line that carries it
(R407). A microsecond of TICK is 1,000 cycles, the model's reading (log entry 66), as is that a routing entry reads new at its write while
accesses to its module are held (log entry 43), that a write of FILTER with FIELD 7 is discarded (log entry 70) and that a read
of TERMB leaves EVSTAT (log entry 73). R438: a write of EN = 0 comes after every queued record has been stored. R8, R421, R432, R434, R440, R443, R446, R449, R457: a write of a register that only holds its fields keeps them and no other bit. -/
def Obligations.RegisterWritesActOnTheirUnit : Prop :=
  ((∀ (s : State), s.dies.length = 4 →
    let e := s.input.die.toNat
    let v := s.input.val.toNat
    let o := s.die e
    onDie .tick s e (fun d => d.tickEnd = if v % 65536 = 0 then none else some (s.clock + 1000 * (v % 65536))) ∧
    onDie .alert s e (fun d => d.alert.toNat = v % 65536 ∧ ∀ i, i < 16 → d.armed[i]? = some true) ∧
    onDie .istat s e (fun d => ∀ i, d.istat.getLsbD i = (o.istat.getLsbD i && !s.input.val.getLsbD i)) ∧
    onDie .evstat s e (fun d => ∀ i, d.evstat.getLsbD i = (o.evstat.getLsbD i && !s.input.val.getLsbD i)) ∧
    onDie .throt s e (fun d => d.throt.toNat = v % 16) ∧
    onDie .vctl s e (fun d => d.vctl = s.input.val &&& 0x0000FFFF000000F1#64 ∧
      (v % 2 = 0 → d.vstate = 0#2 ∧ d.queue = [] ∧ d.made = [] ∧
        (o.vstate = capRunning → o.made = [] → o.wptr < 65536 → o.queue.length ≤ 256 → (∀ x ∈ o.queue, x.2 = none) →
          d.wptr = (o.wptr + o.queue.length) % 65536 ∧ d.seq = o.seq + BitVec.ofNat 32 o.queue.length ∧
          ∀ (i : Nat) (x : Rec), o.queue[i]? = some (x, none) →
            entry? d.recs ((o.wptr + i) % 65536) = some (x.dwords false (o.seq + BitVec.ofNat 32 i)))) ∧
      (v % 2 = 1 → o.vctl.getLsbD 0 = false →
        d.vstate = capRunning ∧ d.wptr = 0 ∧ d.tidx = 0 ∧ d.wrap = false ∧ d.dropped = 0) ∧
      (v % 2 = 1 → o.vctl.getLsbD 0 = true → d.vstate = o.vstate ∧ d.wptr = o.wptr)) ∧
    onDie .sampctl s e (fun d => d.sampctl =
      if 4 ≤ v / 256 % 32 ∧ v / 256 % 32 ≤ 20 then s.input.val &&& 0x1FFF1F01#64 else o.sampctl)) ∧
  (∀ (s : State), let c := s.input.idx.toNat % 1024
    (heldByOther s c (s.input.val.setWidth 12) → exec .part s = .next s) ∧
    (¬heldByOther s c (s.input.val.setWidth 12) → ∃ v : State, exec .part s = .next v ∧ (∀ k, k ≠ c → entry? v.parts k = entry? s.parts k) ∧
      entry? v.parts c = if s.input.val.setWidth 13 = 0#13 then none else some (s.input.val.setWidth 13))) ∧
  (∀ (s : State), ∃ v : State, exec .signctl s = .next v ∧ v.mem = s.mem ∧
    v.signing = match s.signing with | some o => some o | none => some (s.input.val.toNat % 2 ^ 18 / 128 * 128)) ∧
  (∀ (s : State), s.routes.length = 512 →
    let n := s.input.val
    let m := s.input.idx.toNat % 512
    (n &&& 0xFFFFFFFF3FFC0000#64 ≠ 0#64 → exec .routingTableWrite s = .next s) ∧
    (n &&& 0xFFFFFFFF3FFC0000#64 = 0#64 → ∃ v : State, exec .routingTableWrite s = .next v ∧ v.routes[m]? = some n ∧
      (∀ k, k ≠ m → v.routes[k]? = s.routes[k]?) ∧ (m, s.nextId) ∈ v.routeHolds)) ∧
  (∀ (s : State), (4 ≤ s.dawn.step → exec .modid s = .next s) ∧
    (s.dawn.step < 4 → ∃ v : State, exec .modid s = .next v ∧ v.pod = s.input.val.setWidth 9 ∧
      v.sysid.toNat = s.input.val.toNat / 2 ^ 16 % 2 ^ 20 ∧
      ∀ a, a < 2 ^ 48 → v.mem.rd (v.localPa a) = s.mem.rd (s.localPa a))) ∧
  (∀ (s : State), (s.termq = [] → ∃ v : State, exec .termq s = .next v ∧ v.hostReply = some (natBytes 8 0) ∧ v.termq = []) ∧
    (∀ t l, s.termq = t :: l → ∃ v : State, exec .termq s = .next v ∧ v.hostReply = some (natBytes 8 (2 ^ 63 + t.toNat)) ∧ v.termq = l)) ∧
  (∀ (s : State), ∃ v : State, exec .termb s = .next v ∧ v.termb = s.termb.tail ∧ v.dies = s.dies) ∧
  (∀ (s : State), ∃ v : State, exec .termack s = .next v ∧ v.termq = s.termq ∧
    (∀ p, p ∈ v.unacked ↔ p ∈ s.unacked ∧ p.1 ≠ s.input.val.setWidth 12) ∧
    ((∃ p ∈ s.unacked, p.1 = s.input.val.setWidth 12) →
      (∀ l ∈ v.l2, s.input.val.setWidth 12 ∉ l.tags) ∧ ∀ p ∈ v.hbmTags, p.2 ≠ s.input.val.setWidth 12))) ∧
  ((∀ (s : State) (e : BitVec 2), s.dies.length = 4 →
    let v := s.input.val.toNat
    let o := s.die e.toNat
    (s.input.reg = .filter e → onDie .registerWrite s e.toNat fun d =>
      d.filter = if v % 8 = 7 then o.filter else s.input.val &&& 0xFFFF0007#64) ∧
    (s.input.reg = .blkid0 e → onDie .registerWrite s e.toNat fun d => d.blkid0.toNat = v % 2 ^ 48) ∧
    (s.input.reg = .hangwd e → onDie .registerWrite s e.toNat fun d => d.hangwd.toNat = v % 2 ^ 16) ∧
    (∀ i, s.input.reg = .stopbrk e i → o.stopbrk.length = 64 → onDie .registerWrite s e.toNat fun d =>
      d.stopbrk[i.toNat]? = some s.input.val ∧ ∀ k, k ≠ i.toNat → d.stopbrk[k]? = o.stopbrk[k]?) ∧
    (∀ u, s.input.reg = .cerr e u → o.cerr.length = 21 → 1 ≤ u.toNat → u.toNat ≤ 20 → onDie .registerWrite s e.toNat fun d =>
      d.cerr[u.toNat]? = some (s.input.val.setWidth 48) ∧ ∀ k, k ≠ u.toNat → d.cerr[k]? = o.cerr[k]?)) ∧
  (∀ (s : State), s.input.reg = .hint → ∃ v : State, exec .registerWrite s = .next v ∧ v.hint = s.input.val.getLsbD 0) ∧
  (∀ (s : State) (p : InvPort), s.input.reg = .invaddr p →
    let x := s.inval p
    (x.busy = true → exec .registerWrite s = .next s) ∧
    (x.busy = false → ∃ v : State, exec .registerWrite s = .next v ∧
      v.inval p = ⟨s.input.val &&& 0x00FFFFFFFFFF0FFF#64, x.len, false, x.going⟩)) ∧
  (∀ (s : State) (c : BitVec 10) (i : BitVec 3), i.toNat < 6 → (s.core c.toNat).cmp.length = 6 →
    (s.input.reg = .cmpCtl c i → ∃ v : State, exec .registerWrite s = .next v ∧ (∀ k, k ≠ c.toNat → v.core k = s.core k) ∧
      ((v.core c.toNat).cmp.getD i.toNat (0#64, 0#64)).1 =
        (s.input.val &&& if i.toNat < 4 then 0xFFFFFFFFFFFFC0F1#64 else 0xFFFFFFFFFFFFFFF1#64)) ∧
    (s.input.reg = .cmpAddr c i → ∃ v : State, exec .registerWrite s = .next v ∧ (∀ k, k ≠ c.toNat → v.core k = s.core k) ∧
      ((v.core c.toNat).cmp.getD i.toNat (0#64, 0#64)).2.toNat = s.input.val.toNat % 2 ^ 56)) ∧
  (∀ (s : State) (c : BitVec 10) (i : BitVec 4), (s.core c.toNat).stall.length = 16 → s.input.reg = .stall c i →
    ∃ v : State, exec .registerWrite s = .next v ∧ (∀ k, k ≠ c.toNat → v.core k = s.core k) ∧
      (v.core c.toNat).stall[i.toNat]? = some (s.input.val.setWidth 48)))

/-- R370, R443 to R447, R456, R457, R459: a sample stands in SENS and sets its ALRT bit where it is an alert sample, and the trip
follows the thresholds; TICK's countdown sets TIMER; the stop and resume commands mark the block that they name: one whose copies and tile operations are
performed goes on at once, with a new run for each team (R464), and a stop is recorded once its teams have halted with the results of
their runs written (R442, R445); the hang watchdog sets EVSTAT.HANG once its context is silent for its time; the signature is
written over its statement. The model's readings: a sample above 0x0C80 has no effect (log entry 67), and bytes of a signature past the
SRAM's end are not written (log entry 74). -/
def Obligations.UnitsSampleExpireAndStop : Prop :=
  (∀ (s : State), let e := s.input.die.toNat
    let d := s.die e
    let i := s.input.idx.toNat
    let x := s.input.val.setWidth 16
    s.dies.length = 4 → d.sens.length = 16 → d.armed.length = 16 →
    (16 ≤ i ∨ 0xC80 < x.toNat → exec .sensorSample s = .next s) ∧
    (i < 16 → x.toNat ≤ 0xC80 → onDie .sensorSample s e fun y =>
      (∀ k, y.sens[k]? = if k = i then some x else d.sens[k]?) ∧
      (∀ k, k < 17 → y.istat.getLsbD k = (d.istat.getLsbD k || decide (k = i ∧ d.alert.toNat ≤ x.toNat ∧
        ((d.sens.getD i 0#16).toNat < d.alert.toNat ∨ d.armed[i]? = some true)))) ∧
      (0x6E0 ≤ x.toNat → y.tripped = true ∧ y.evstat = d.evstat ||| 8#4) ∧
      (x.toNat < 0x6E0 → y.evstat = d.evstat ∧
        (y.tripped = true ↔ d.tripped = true ∧ ∃ z ∈ y.sens, 0x690 ≤ z.toNat)))) ∧
  (∀ (s : State) (e : BitVec 2) (k : Nat), s.dies.length = 4 → (s.die e.toNat).tickEnd = some k →
    (s.clock < k → exec (.tickExpiry e) s = .next s) ∧
    (k ≤ s.clock → onDie (.tickExpiry e) s e.toNat fun d =>
      d.tickEnd = none ∧ d.istat = (s.die e.toNat).istat ||| 0x10000#17)) ∧
  (∀ (s : State) (b : Block), Named s s.input.die.toNat s.input.idx b →
    (b.stopped = true → exec .blkid1Stop s = .next s) ∧
    (b.stopped = false → ∃ (v : State) (c : Block), exec .blkid1Stop s = .next v ∧ v.block? b.id = some c ∧ c.stopped = true ∧
      c.teams = b.teams ∧ ∃ z, c.stopping = some z ∧ z.1 = 3) ∧
    (b.stopped = false → exec .blkid1Resume s = .next s) ∧
    (b.stopped = true → let busy := (∃ c ∈ s.copies, c.b = b.id) ∨ ∃ z ∈ b.tiles, z.ops ≠ []
      ∃ v : State, exec .blkid1Resume s = .next v ∧
        (busy → v.block? b.id = some { b with resuming := true }) ∧
        (¬busy → v.block? b.id = some { b with
          stopped := false, stopping := none, resuming := false
          teams := b.teams.map fun t => { t with run := { t.run with ended := true } } }))) ∧
  (∀ (s : State) (b : Nat) (x : Block) (t : Team) (cause cmp ti : Nat) (a : Dword), s.block? b = some x → x.id = b →
    x.stopping = some (cause, cmp, ti, a) → x.team? ti = some t →
    ((∃ u ∈ x.teams, ¬standsR u) → exec (.stopComplete b) s = .next s) ∧
    ((∀ u ∈ x.teams, standsR u) → ∃ v c r, exec (.stopComplete b) s = .next v ∧ v.block? b = some c ∧
      c = { x with stopping := none } ∧ v.dies = (s.record x r 8).dies ∧ r.kind = 5 ∧ r.core = x.core ∧ r.team = t.idx ∧
      r.f0 = bitsR x.barArr + 2 ^ 16 * bitsR ((x.teams.filter fun u => u.ended).map fun u => u.idx) + 2 ^ 32 * x.barArr.length ∧
      r.f1 = cause + 16 * cmp + 256 * ti ∧ r.f2 = a.toNat)) ∧
  (∀ (s : State) (e : BitVec 2) (g : BitVec 12) (c : Ctx), s.dies.length = 4 → s.ctx? g = some c →
    let lim := (s.die e.toNat).hangwd.toNat % 65536
    (lim = 0 ∨ s.clock < c.alive.getD e.toNat 0 + 65536 * lim → exec (.hangWatchdogExpiry e g) s = .next s) ∧
    (lim ≠ 0 → c.alive.getD e.toNat 0 + 65536 * lim ≤ s.clock → (∀ b ∈ s.blocks, b.tag = g → b.stopped = false) →
      (∃ b ∈ s.blocks, b.tag = g ∧ b.bureau = none ∧ b.place = .resident ∧ b.core / 256 = e.toNat) →
      ∃ v : State, exec (.hangWatchdogExpiry e g) s = .next v ∧ (v.die e.toNat).evstat.getLsbD 2 = true ∧ v.blocks = s.blocks)) ∧
  (∀ (s : State), (s.signing = none → exec .signComplete s = .next s) ∧
    (∀ o, s.signing = some o → o + 128 ≤ 0x40000 → s.migrations = [] → ∃ v : State, exec .signComplete s = .next v ∧ v.signing = none ∧
      ∀ a, v.mem.rd a =
        let p := s.localPa (sramBase 0 + o)
        if p + 128 ≤ a ∧ a < p + 128 + min 3309 (0x40000 - (o + 128)) then
          (Config.signature (Config.shake256 (s.mem.bytes p 128))).getD (a - (p + 128)) 0#8
        else s.mem.rd a))

namespace Sys2Proof.Claims
open Sys2Proof.Machine

/-! ### Blocks at their start, donation, the end of a block (R31 to R33, R38, R48, R49, R363, R364) -/

/-- The scan of a dispatch (R49); of a tree node held by a cluster none of whose cores Dusk has left the context, the cores of its core set
(R83). -/
def scanR (s : State) (x : Dispatch) : List Nat :=
  if x.kind = .node ∧ ∀ c ∈ x.scan, s.coreIn x.tag c = false then scanOrder x.first x.count x.cursor else x.scan

/-- Core `c` is even, and it and the next are cores of the scan that a block of the dispatch fits each (R137). -/
def pairFits (s : State) (x : Dispatch) (c : Nat) : Prop :=
  c % 2 = 0 ∧ c + 1 < x.first + x.count ∧ s.fits x.tag x.shape c = true ∧ s.fits x.tag x.shape (c + 1) = true

/-- Dispatch `x` of identity `d` may be placed now, and its scan finds core `c`, the first of its order that the block fits (R49). -/
structure Placeable (s : State) (d : Nat) (x : Dispatch) (c : Nat) : Prop where
  found : s.dispatches.find? (fun y => y.id = d) = some x
  may : s.mayPlace x = true
  can : x.next = 0 → x.num = 0 → s.neverFits x = false
  alone : x.pair = false
  first : ∃ l k, scanR s x = l ++ c :: k ∧ ∀ j ∈ l, s.fits x.tag x.shape j = false
  fits : s.fits x.tag x.shape c = true

/-- The same for a dispatch of pairs: `c` is the even core of the first pair of its order that both blocks fit (R137). -/
structure PairPlaceable (s : State) (d : Nat) (x : Dispatch) (c : Nat) : Prop where
  found : s.dispatches.find? (fun y => y.id = d) = some x
  may : s.mayPlace x = true
  can : x.next = 0 → x.num = 0 → s.neverFits x = false
  pairs : x.pair = true
  first : ∃ l k, scanR s x = l ++ c :: k ∧ ∀ j ∈ l, ¬pairFits s x j
  fits : pairFits s x c

/-- A team as it starts in a block of shape `p` with arguments `as` (R32, R35). -/
structure Starts (u : Team) (i : Nat) (p : Shape) (as : List Dword) : Prop where
  num : u.idx = i
  lanes : u.lanes = 32 * p.wm
  pc : u.pc = p.entry
  role : u.role.toNat = p.role.toNat / 16 ^ i % 16
  v : u.v = List.replicate p.regs (List.replicate (32 * p.wm) 0#32)
  args : ∀ k, k < 64 → u.w[k]? = some (as.getD k 0#64)
  m0 : ∀ l, (u.rm 0#3).getLsbD l = decide (l < 32 * p.wm)
  m : ∀ k, 1 ≤ k → k < 8 → u.m[k]? = some 0#1024
  x : ∀ k, k < 8 → ∃ y, u.x[k]? = some y ∧ y.val = false
  stack : u.stack = []
  free : u.ended = false ∧ u.wait = none ∧ u.trap = none ∧ u.pend = [] ∧ u.ops = [] ∧ u.run.count = 0 ∧ u.run.writes = []

/-- Block `b` has just started on core `c` for dispatch `x`, with the block number `n` where its launch is flat (R32, R192). -/
structure Started (b : Block) (x : Dispatch) (c n : Nat) : Prop where
  place : b.core = c ∧ b.tag = x.tag ∧ b.slot = x.slot ∧ b.place = .resident
  teams : b.teams.length = x.shape.teams ∧ ∀ i u, b.teams[i]? = some u → Starts u i x.shape x.args
  number : x.kind = .flat → b.block = BitVec.ofNat 32 n ∧ b.index = n
  spad : (x.records = [] → b.spad = [] ∧ b.full = []) ∧ b.spadSize = 1024 * x.shape.spad
  chest : b.chest.length = x.shape.slots ∧ ∀ q ∈ b.chest, q.bytes = []
  tiles : b.tiles.length = x.shape.tiles ∧ ∀ z ∈ b.tiles, z.bytes = [] ∧ z.ops = []

/-- A dispatch of identity `d` has had `n` blocks placed, and goes on with its cursor at `k`, or is gone where these were its last. -/
def goesOn (v : State) (d : Nat) (x : Dispatch) (n k : Nat) : Prop :=
  (x.total ≤ n → ∀ y ∈ v.dispatches, y.id ≠ d) ∧ (n < x.total → ∃ y ∈ v.dispatches, y.id = d ∧ y.next = n ∧ y.cursor = k)

/-- The launch instance of slot and generation has completed with a status, which it holds or which its slot has left (R42, R43). -/
def leftStatus (c : Ctx) (slot : Nat) (g : BitVec 32) (st : Dword) : Prop :=
  (∃ l, c.level? slot = some l ∧ l.gen = g ∧ l.complete = true ∧ l.status = st) ∨ (slot, g, st) ∈ c.past

/-- The lowest index of a faulted block, once block `x` has ended (R43). -/
def lowR (o : Option Nat) (x : Block) : Option Nat :=
  if x.fault = none then o else some (match o with | some i => min i x.index | none => x.index)

/-- The nodes of a list are a node's parent, that one's parent and so on (R77). -/
def parentsR (t : Tree) : Nat → List Nat → Prop
  | _, [] => True
  | n, p :: l => (∃ x, t.nodes.find? (fun y => y.idx == n) = some x ∧ x.parent = some p) ∧ parentsR t p l

/-- What becomes of node `x` of a launch at the end of its block: its state is `st`, and the launch such (R71). -/
def nodeEnds (v : State) (t : Tree) (x : Node) (st : NState) (p : Tree → Prop) : Prop :=
  launchIs v t.id fun t' => (∃ y, t'.nodes.find? (fun z => z.idx == x.idx) = some y ∧ y.st = st) ∧ p t'

/-- The doom of every node is what it was. -/
def doomSame (t t' : Tree) : Prop :=
  ∀ n a b, t.nodes.find? (fun y => y.idx == n) = some a → t'.nodes.find? (fun y => y.idx == n) = some b → b.doomed = a.doomed

/-- Resident block `b` holds everything that it issued no longer (R33). -/
structure Spent (s : State) (b : Nat) (x : Block) : Prop where
  block : s.block? b = some x
  here : x.place = .resident
  teams : ∀ t ∈ x.teams, t.ended = true ∧ t.run.writes = [] ∧ t.ops = []
  tiles : ∀ z ∈ x.tiles, z.ops = []
  copies : ∀ c ∈ s.copies, c.names x.id = false
  msgs : ∀ m ∈ s.nmsgs, m.r.b ≠ x.id
  others : s.reached x.id = false

end Sys2Proof.Claims

/-- R31, R32, R44, R48, R49, R51: a block is placed on the first core of the scan that it fits, its teams as R32 has them, and its scratchpad,
Chest slots and tiles zero and its granules empty, and the dispatch goes on with its next block from the core after; R137: the two blocks of
a pair on the first two adjacent cores, the first even, that both fit, each the other's partner; where no core fits, nothing is placed; a
launch that can never be placed goes. -/
def Obligations.BlocksArePlacedWhereTheyFit : Prop :=
  ∀ (s : State) (d : Nat) (x : Dispatch),
    (∀ c, Placeable s d x c → x.args.length ≤ 64 → 32 * x.shape.wm ≤ 1024 → ∃ v b, exec (.blockPlacement d) s = .next v ∧
      v.blocks = s.blocks ++ [b] ∧ v.mem = s.mem ∧ Started b x c x.next ∧
      goesOn v d x (x.next + 1) (if c + 1 < x.first + x.count then c + 1 else x.first)) ∧
    (∀ c, PairPlaceable s d x c → x.args.length ≤ 64 → 32 * x.shape.wm ≤ 1024 → ∃ v a b, exec (.blockPlacement d) s = .next v ∧
      v.blocks = s.blocks ++ [a, b] ∧ v.mem = s.mem ∧ Started a x c x.next ∧ Started b x (c + 1) (x.next + 1) ∧ a.id ≠ b.id ∧
      a.partner = some (b.id, true) ∧ b.partner = some (a.id, false) ∧
      goesOn v d x (x.next + 2) (if c + 2 < x.first + x.count then c + 2 else x.first)) ∧
    (s.dispatches.find? (fun y => y.id = d) = some x → s.mayPlace x = true → x.next < x.total →
      (∀ c ∈ scanR s x, if x.pair then ¬pairFits s x c else s.fits x.tag x.shape c = false) → (x.next = 0 → x.num = 0 → s.neverFits x = false) →
      ∃ v : State, exec (.blockPlacement d) s = .next v ∧ v.blocks = s.blocks ∧ v.ctxs = s.ctxs ∧
        ∃ y ∈ v.dispatches, y.id = d ∧ y.next = x.next) ∧
    (s.dispatches.find? (fun y => y.id = d) = some x → s.mayPlace x = true → x.next = 0 → x.num = 0 → x.kind ≠ .node →
      s.neverFits x = true → x.future = none → ∃ v : State, exec (.blockPlacement d) s = .next v ∧ v.blocks = s.blocks ∧
        ∀ y ∈ v.dispatches, ¬(y.tag = x.tag ∧ y.slot = x.slot)) ∧
    (s.dispatches.find? (fun y => y.id = d) = some x → s.mayPlace x = false →
      (x.next = 0 → x.num = 0 → x.kind ≠ .node → s.neverFits x = false) → exec (.blockPlacement d) s = .next s)

/-- R33, R38, R43, R45, R363, R364: a block whose teams have ended and whose accesses are performed leaves and counts in its level, as done,
faulted or cancelled, and the last member completes it with its status word; R334 to R336: a task's future receives its state, value and
PCOUNT, and its record them, once no write of a routing entry holds it (R425); R75, R77 to R79: a tree node is done, or faulted with poison in
its entry (its layout is log entry 13) and in an upward sweep its ancestors doomed, or cut by a cancel, with neither, also where its teams had
ended by EXIT (log entry 131); the launch itself counts until its sweep has ended (log entry 108); an idle cluster asks its next victim, telling of none of its cores that Dusk has vacated that it may be used (R48); the
victim gives up to four held dispatches that fit, and they are the requester's once they have arrived. That the first request of a cluster
goes to the head of its list is the model's choice (log entry 5). -/
def Obligations.BlocksEndAndDispatchesMove : Prop :=
  (∀ (s : State) (b : Nat) (x : Block) (c : Ctx) (l : Level), Spent s b x → x.bureau = none → x.tree = none → x.future = none →
    x.holds = [] → s.ctx? x.tag = some c → c.level? x.slot = some l → l.complete = false → 1 < l.counter →
    ∃ v y k, exec (.blockEnd b) s = .next v ∧ v.blocks = s.blocks.filter (fun z => z.id != b) ∧ v.mem = s.mem ∧
      v.ctx? x.tag = some y ∧ y.level? x.slot = some k ∧ k.counter = l.counter - 1 ∧ k.complete = false ∧
      k.ndone = (if x.fault = none ∧ x.dying = false then l.ndone + 1 else l.ndone) ∧
      k.low = (if x.fault = none then l.low else some (match l.low with | some i => min i x.index | none => x.index))) ∧
  (∀ (s : State) (b : Nat) (x : Block) (c : Ctx) (l : Level), Spent s b x → x.bureau = none → x.tree = none → x.future = none →
    x.holds = [] → s.ctx? x.tag = some c → c.level? x.slot = some l → l.complete = false → l.counter ≤ 1 →
    ∃ v y st, exec (.blockEnd b) s = .next v ∧ v.blocks = s.blocks.filter (fun z => z.id != b) ∧ v.mem = s.mem ∧
      v.ctx? x.tag = some y ∧ leftStatus y x.slot l.gen st ∧
      st.toNat % 2 ^ 15 = (if l.cancelled then 3 else if l.pfault then 2 else
        if l.bad = 0 ∧ x.fault = none ∧ x.dying = false then 0 else 1) ∧
      st.toNat / 2 ^ 15 % 2 ^ 25 = (if x.fault = none ∧ x.dying = false then l.ndone + 1 else l.ndone) % 2 ^ 25 ∧
      st.toNat / 2 ^ 40 = if l.kind = 1 ∧ (l.lkind = .flat ∨ l.lkind = .bin) then (lowR l.low x).getD 0 % 2 ^ 24 else 0) ∧
  (∀ (s : State) (b : Nat) (x : Block) (e n i : Nat) (f : Future), Spent s b x → x.bureau = none → x.tree = none → x.holds = [] →
    x.future = some (e, n) → e < s.dies.length →
    (s.die e).futures.find? (fun p => p.2.id == n && p.2.owner.isSome) = some (i, f) → f.st = .pending →
    ∃ v g, exec (.blockEnd b) s = .next v ∧ v.future? e n = some g ∧
      g = { f with
        st := if x.fault ≠ none then .faulted else if x.dying then .reclaimed else .done
        value := if x.fault = none ∧ x.dying = false then (match x.team? 0 with | some t => t.rw 0#6 | none => 0#64) else 0#64
        pcount := x.pcount } ∧
      (s.held f.addr = false → s.unitQ = [] → s.migrations = [] → x.pcount < 2 ^ 16 → v.mem.rdN f.addr 32 = g.value.toNat +
        f.task.toNat * 2 ^ 64 + ((match g.st with | .pending => 0 | .done => 1 | .faulted => 2 | .reclaimed => 3) +
        x.pcount * 2 ^ 20 + f.count % 2 ^ 16 * 2 ^ 36 + f.tag.toNat * 2 ^ 52) * 2 ^ 128 ∧
        ∀ a, a < f.addr ∨ f.addr + 32 ≤ a → v.mem.rd a = s.mem.rd a) ∧
      (s.held f.addr = true → v.mem = s.mem)) ∧
  (∀ (s : State) (b : Nat) (x : Block) (t : Tree) (y : Node), Spent s b x → x.bureau = none → x.future = none → x.holds = [] →
    nodeBlock s x t y → ∃ v : State, exec (.blockEnd b) s = .next v ∧ v.blocks = s.blocks.filter (fun z => z.id != b) ∧ v.mem = s.mem ∧
      (x.fault = none → x.dying = false → nodeEnds v t y .done fun t' => t.down = false → ∀ c ∈ y.order.drop 1, ∀ z e,
        t.nodes.find? (fun n => n.idx == c) = some z → z.entry = some e → e ∈ t'.free) ∧
      (∀ k pc i, x.fault = some (k, pc, i) → nodeEnds v t y .faulted fun t' =>
        (∀ e, y.entry = some e → hasEntry t e → ∀ w, w < 8 →
          shelfAt t' e w = if w = 0 then BitVec.ofNat 64 y.idx else if w = 1 then BitVec.ofNat 64 k.code else 0#64) ∧
        (t.down = false → ∀ l, parentsR t y.idx l → l.length ≤ t.nodes.length → ∀ m ∈ l, m ≠ y.idx → ∀ z,
          t'.nodes.find? (fun n => n.idx == m) = some z → z.doomed = true)) ∧
      (x.fault = none → x.dying = true → nodeEnds v t y .faulted fun t' => t'.cutRunning = t.cutRunning ++ [y.idx] ∧
        t'.shelf = t.shelf ∧ doomSame t t' ∧ (t.cancelled = true → (∀ z ∈ t.nodes, z.st = .running → z.idx = y.idx) → t'.phase = .ending) ∧
        (t.cancelled = true → (∃ z ∈ t.nodes, z.st = .running ∧ z.idx ≠ y.idx) → t'.phase = t.phase)) ∧
      ∀ c l, s.ctx? t.tag = some c → c.level? t.slot = some l →
        ∃ d k, v.ctx? t.tag = some d ∧ d.level? t.slot = some k ∧ k.counter = max 1 (l.counter - 1)) ∧
  (∀ (s : State) (b : Nat) (x : Block), Spent s b x → x.bureau.isSome = true →
    ∃ v : State, exec (.blockEnd b) s = .next v ∧ v.blocks = s.blocks.filter fun z => z.id != b) ∧
  (∀ (s : State) (b : Nat) (x : Block), s.block? b = some x →
    (∃ t ∈ x.teams, t.ended = false ∨ t.ops ≠ [] ∨ t.run.writes ≠ []) ∨ (∃ z ∈ x.tiles, z.ops ≠ []) ∨ (∃ q ∈ s.copies, q.b = x.id) →
    exec (.blockEnd b) s = .next s) ∧
  (∀ (s : State) (c : Nat),
    ((∃ d ∈ s.dispatches, d.held = some c) ∨ (∃ q ∈ s.steals, q.thief = c) → exec (.stealRequest c) s = .next s) ∧
    (c < 256 → (∀ d ∈ s.dispatches, d.held ≠ some c) → (∀ q ∈ s.steals, q.thief ≠ c) →
      (∃ i, i < 4 ∧ 0 < (s.coreFree (4 * c + i)).teams) →
      let i := ((entry? s.victims c).getD 0) % (victims c).length
      ∃ v q, exec (.stealRequest c) s = .next v ∧ v.steals = s.steals ++ [q] ∧ q.thief = c ∧ q.victim = (victims c).getD i 0 ∧
        (∀ j, j < 4 → q.cores[j]? = some { s.coreFree (4 * c + j) with
          tag := if 4 * c + j ∈ s.dusked then none else (s.coreFree (4 * c + j)).tag }) ∧ entry? v.victims c = some ((i + 1) % (victims c).length))) ∧
  (∀ (s : State) (c : Nat), (∀ q ∈ s.steals, q.thief ≠ c) → exec (.stealReply c) s = .next s) ∧
  (∀ (s : State) (c : Nat) (q : Steal), s.steals.find? (fun y => y.thief = c) = some q → (s.dispatches.map fun d => d.id).Nodup →
    let may (d : Dispatch) : Prop := d.held = some q.victim ∧ d.flying = false ∧
      ∃ k ∈ q.cores, k.tag = some d.tag ∧ k.fits d.shape = true
    ∃ v : State, exec (.stealReply c) s = .next v ∧ (∀ y ∈ v.steals, y.thief ≠ c) ∧ v.dispatches.length = s.dispatches.length ∧
      (∀ (i : Nat) (d : Dispatch), s.dispatches[i]? = some d → v.dispatches[i]? = some d ∨
        (may d ∧ v.dispatches[i]? = some { d with held := some c, flying := true })) ∧
      (s.dispatches.countP (fun d => decide (d ∉ v.dispatches)) ≤ 4) ∧
      (∀ d ∈ s.dispatches, may d → d.kind = .node → (∀ e ∈ s.dispatches, may e → e.kind = .node → d.node.getD 0 ≤ e.node.getD 0) →
        { d with held := some c, flying := true } ∈ v.dispatches ∨
          ∃ e ∈ s.dispatches, e ≠ d ∧ may e ∧ e.kind = .node ∧ e.node.getD 0 = d.node.getD 0)) ∧
  (∀ (s : State) (d : Nat), ∃ v : State, exec (.donatedDispatchArrival d) s = .next v ∧ v.blocks = s.blocks ∧
    v.dispatches = s.dispatches.map fun x => if x.id = d then { x with flying := false } else x)

namespace Sys2Proof.Claims
open Sys2Proof.Machine

/-! ### Results, traps and interrupts (R91, R92, R128, R372, R379, R381, R393) -/

/-- A team's registers after one register write: every other one keeps its value (R28, R96, R182, R379). -/
def wrote (t u : Team) : RegWrite → Prop
  | .w r x => u.w = t.w.set r x ∧ u.v = t.v ∧ u.m = t.m ∧ u.x = t.x ∧ u.status = t.status ∧ u.fpmode = t.fpmode
  | .v r ls => u.w = t.w ∧ u.m = t.m ∧ u.x = t.x ∧ (∀ k, k ≠ r → u.v[k]? = t.v[k]?) ∧
      ∀ l, l < t.lanes → r < t.v.length → (t.v.getD r []).length = t.lanes → u.rv r l = ((ls[l]?.getD none).getD (t.rv r l))
  | .m r x => u.w = t.w ∧ u.v = t.v ∧ u.x = t.x ∧ u.m = t.m.set r (x &&& maskAll t.lanes)
  | .x r x => u.w = t.w ∧ u.v = t.v ∧ u.m = t.m ∧ u.x = t.x.set r x
  | .ctl r x => u.w = t.w ∧ u.v = t.v ∧ u.m = t.m ∧ u.x = t.x ∧
      (r = 9 → u.status.getLsbD 0 = x.getLsbD 0 ∧ u.status.getLsbD 8 = (t.status.getLsbD 8 && !x.getLsbD 8) ∧
        (∀ i, i ≠ 0 → i ≠ 8 → u.status.getLsbD i = t.status.getLsbD i) ∧ u.fpmode = t.fpmode) ∧
      (r = 10 → u.fpmode = x &&& 0xF#64 ∧ u.status = t.status)
  | .mw r j x => u.w = t.w ∧ u.v = t.v ∧ u.x = t.x ∧ (∀ k, k ≠ r → u.m[k]? = t.m[k]?) ∧
      ∀ o l, t.m[r]? = some o → l < t.lanes → l < 1024 →
        ∃ y, u.m[r]? = some y ∧ y.getLsbD l = if l / 32 = j then x.getLsbD (l % 32) else o.getLsbD l
  | .lsf => u.w = t.w ∧ u.v = t.v ∧ u.m = t.m ∧ u.x = t.x ∧ u.status = t.status ||| 0x100#64 ∧ u.fpmode = t.fpmode
  | .mc r x => u.w = t.w ∧ u.v = t.v ∧ u.x = t.x ∧ ∀ k, u.m[k]? = if k = r then t.m[k]?.map (fun o => o &&& ~~~x) else t.m[k]?

/-- The writes of a list, made in their order, lead from a team's registers to another's (R91). -/
def makes (t : Team) : List RegWrite → Team → Prop
  | [], u => u.w = t.w ∧ u.v = t.v ∧ u.m = t.m ∧ u.x = t.x ∧ u.status = t.status ∧ u.fpmode = t.fpmode
  | w :: ws, u => ∃ x, wrote t x w ∧ x.lanes = t.lanes ∧ makes x ws u

/-- A team that has just entered its handler for cause `c` with frame `f` (R378, R381). -/
def inHandler (s : State) (b : Block) (t u : Team) (q : TrapReq) (f : Nat) : Prop :=
  u.handler = some f ∧ u.trap = none ∧ u.wait = none ∧ u.pc = (s.vectorOf b q.cause).setWidth 56 ∧
  u.trapcause = BitVec.ofNat 64 (q.cause.code + 256 * (q.info % 65536)) ∧ u.trappc = q.pc.setWidth 64 ∧
  u.w = t.w ∧ u.v = t.v ∧ u.m = t.m ∧ u.x = t.x ∧ u.stack = t.stack

end Sys2Proof.Claims

/-- R91, R92, R128: a scoreboarded result that is ready makes each of its writes, in order, and clears its pending bits; the run-bound results of an ended run
are written in the order of their words, none before its latency has passed, and a write of a vector comes last, where the run has
raised no trap. R372, R377, R381, R393, R45: a trap that a team has raised enters its handler once a frame is free and the results that it awaits are written;
with no handler installed the block ends; a pending interrupt enters the handler of the Bureau's team at a run boundary, where no CSWAP or DUSK
of it is with the sequencer (R395), and of no other team. A trap entry that waits for a network-reduction result is a reclamation point, counted
once, at which a reclaimed or cancelled team ends (R285, R335). -/
def Obligations.ResultsTrapsAndInterruptsArrive : Prop :=
  ((∀ (s : State) (r : TRef) (n : Nat) (b : Block) (t : Team) (p : Pend), s.team? r = some (b, t) →
    t.pend.find? (fun q => q.id = n) = some p →
    (p.ready = none → exec (.resultArrival r n) s = .next s) ∧
    (∀ w, p.ready = some [w] → (∀ v, w ≠ .ctl 24 v ∧ w ≠ .ctl 25 v) → ∃ (v : State) (c : Block) (u : Team), exec (.resultArrival r n) s = .next v ∧ v.team? r = some (c, u) ∧
      u.pend = t.pend.filter (fun q => q.id != n) ∧ wrote t u w ∧ u.pc = t.pc ∧ v.mem = s.mem) ∧
    (∀ ws, p.ready = some ws → (∀ w ∈ ws, ∀ v, w ≠ .ctl 24 v ∧ w ≠ .ctl 25 v) → ∃ (v : State) (c : Block) (u : Team),
      exec (.resultArrival r n) s = .next v ∧ v.team? r = some (c, u) ∧ u.pend = t.pend.filter (fun q => q.id != n) ∧
      makes t ws u ∧ u.pc = t.pc ∧ v.mem = s.mem)) ∧
  (∀ (s : State) (r : TRef) (b : Block) (t : Team), s.team? r = some (b, t) →
    (t.run.ended = false ∨ t.run.writes = [] → exec (.runBoundWrite r) s = .next s) ∧
    (∀ w l, t.run.ended = true → t.run.writes = w :: l → (∀ v, w.write ≠ .ctl 24 v ∧ w.write ≠ .ctl 25 v) →
      (s.clock < w.at' → exec (.runBoundWrite r) s = .next s) ∧
      (w.at' ≤ s.clock → ∃ (v : State) (c : Block) (u : Team), exec (.runBoundWrite r) s = .next v ∧ v.team? r = some (c, u) ∧ u.run.writes = l ∧
        wrote t u w.write ∧ u.pc = t.pc ∧ v.mem = s.mem)) ∧
    (∀ k x a, t.run.ended = true → t.run.writes = [{ write := .ctl k x, at' := a }] → a ≤ s.clock → b.bureau = none → t.trap = none →
      (s.ctx? b.tag).isSome = true → k = 24 ∨ k = 25 → ∃ (v : State) (c : Ctx), exec (.runBoundWrite r) s = .next v ∧ v.ctx? b.tag = some c ∧
        (k = 24 → c.trapvec = x) ∧ (k = 25 → c.emuvec = x)))) ∧
  ((∀ (s : State) (r : TRef) (b : Block) (t : Team) (q : TrapReq), s.team? r = some (b, t) → b.live = true → t.trap = some q →
    (∀ f pa, FrameReady s b t q.cause f pa → ∃ (v : State) (c : Block) (u : Team), exec (.trapEntry r) s = .next v ∧ v.team? r = some (c, u) ∧
      inHandler s b t u q f ∧ u.run.writes = [] ∧ u.run.ended = false) ∧
    ((∃ w ∈ t.run.writes, ∀ x, w.write ≠ .ctl 24 x ∧ w.write ≠ .ctl 25 x) → ∃ (v : State) (c : Block) (u : Team), exec (.trapEntry r) s = .next v ∧ v.team? r = some (c, u) ∧ u.trap = some q ∧ u.pc = t.pc ∧
      v.mem = s.mem) ∧
    (∀ f, t.frame = some f → t.run.writes = [] → (∃ p ∈ t.pend, p.nred = true ∧ p.awaited = true) →
      ∃ (v : State) (c : Block) (u : Team), exec (.trapEntry r) s = .next v ∧ v.team? r = some (c, u) ∧ v.mem = s.mem ∧
        (b.dying = true → u.ended = true) ∧
        (b.dying = false → u.trap = some q ∧ u.frame = some f ∧ u.pc = t.pc ∧ u.reason = .score ∧ u.counted = true ∧
          c.pcount = if t.counted then b.pcount else b.pcount + 1)) ∧
    (t.run.writes = [] → t.frame = none → installed (s.vectorOf b q.cause) = false ∨ t.handler.isSome = true →
      ∃ (v : State) (c : Block), exec (.trapEntry r) s = .next v ∧ v.block? r.b = some c ∧ c.fault = some (q.cause, q.pc, q.info) ∧
        ∀ u ∈ c.teams, u.ended = true)) ∧
  (∀ (s : State) (r : TRef) (b : Block) (t : Team), s.team? r = some (b, t) →
    (b.bureau = none ∨ t.handler.isSome = true ∨ t.trap.isSome = true ∨ t.defer.isSome = true → exec (.interruptEntry r) s = .next s) ∧
    (r ∈ s.movers → exec (.interruptEntry r) s = .next s) ∧
    (∀ e, b.bureau = some e → (s.die e).istat = 0#17 → (s.die e).evstat = 0#4 → exec (.interruptEntry r) s = .next s) ∧
    (∀ e f pa, b.bureau = some e → (s.die e).istat ≠ 0#17 ∨ (s.die e).evstat ≠ 0#4 → t.ended = false → t.trap = none → t.defer = none →
      (t.wait = none ∨ t.wait = some .wfi) → (t.run.ended = true ∨ t.run.count = 0) → r ∉ s.movers → FrameReady s b t .intr f pa →
      ∃ (v : State) (c : Block) (u : Team), exec (.interruptEntry r) s = .next v ∧ v.team? r = some (c, u) ∧
        inHandler s b t u { cause := .intr, info := 0, pc := t.pc, resume := t.pc, lanes := [], extn := none, misrec := 0#64 } f)))

namespace Sys2Proof.Claims
open Sys2Proof.Machine

/-! ### Memory from outside, and migration (R207, R404, R419, R422, R423, R460) -/

/-- Memory with bytes from physical address `p` up, and nothing else changed. -/
def holdsBytes (s v : State) (p : Nat) (bs : List Byte) : Prop :=
  ∀ a, v.mem.rd a = if p ≤ a ∧ a < p + bs.length then bs.getD (a - p) 0#8 else s.mem.rd a

/-- Some byte of a local range lies in a poisoned line (R404). -/
def poisoned (s : State) (a n : Nat) : Prop := ∃ i, i < n ∧ s.localPa (a + i) / 64 ∈ s.poison

/-! ### Dawn (R427, R453 to R455, R367) -/

/-- The images of all four dies are in the flash. -/
def flashed (s : State) (im : Nat → Image) : Prop := ∀ e, e < 4 → s.image? e = some (im e)

/-- An entry of the measured log (R455). -/
def entryR (i : Image) : List Byte :=
  natBytes 4 (3 + 256 * i.die) ++ natBytes 4 i.version.toNat ++ natBytes 8 0 ++ (List.range 64).map fun k => (Config.shake256 i.bytes).getD k 0#8

/-- The chain value after an entry (R455). -/
def chainR (c : List Byte) (i : Image) : List Byte := (List.range 64).map fun k => (Config.shake256 (c ++ entryR i)).getD k 0#8

/-- UNIT of an error in an entry of a unit (R409); network-reduction merge state is a router's (R401). -/
def unitR : EntryUnit → Nat
  | .l1 => 5 | .tlb => 7 | .shelf => 9 | .hutch => 10 | .futures => 11 | .bins => 12 | .queues => 13 | .matcher => 14 | .levels => 15
  | .merge => 16 | .area => 20

/-- Whether a unit of die `e` holds an entry of context `g` (R401): of an L1, the one of core `i` of the die. A report area is the context's until the report is acknowledged (R407). -/
def holdsR (s : State) (u : EntryUnit) (e i : Nat) (g : BitVec 12) : Bool :=
  match u with
  | .l1 => ((entry? s.l1 (256 * e + i % 256)).getD []).any fun q => q.1 = g
  | .levels => (s.ctx? g).any fun c => !c.levels.isEmpty
  | .area => (s.ctx? g).isSome || s.unacked.any fun p => p.1 = g
  | .merge => (s.ninsts.any fun n => n.tag = g) || s.nmsgs.any fun n => n.tag = g
  | u => s.holdsEntry u e i g

/-! ### CSWAP and DUSK (R391, R394 to R400) -/

/-- The word of a Bureau's team `t` is served at once, its map of `n` bytes having the value `v` (R395 to R397). -/
structure Served (s : State) (b : Block) (t : Team) (d a : BitVec 6) (n v : Nat) : Prop where
  free : s.Free [.w a.toNat] [.w d.toNat] false b t
  idle : s.movers = [] ∧ s.moving = none
  quiet : t.ops = []
  own : ∃ e, b.bureau = some e ∧ (t.rw a).toNat % 2 ^ 48 % n = 0 ∧ sramBase e ≤ (t.rw a).toNat % 2 ^ 48 ∧
    (t.rw a).toNat % 2 ^ 48 < sramBase e + 0x40000
  map : v = s.pmRd (s.localPa ((t.rw a).toNat % 2 ^ 48)) n

/-- The word of the sequencer has issued, with its result in w[d]. -/
def movedR (s v : State) (t u : Team) (d : BitVec 6) (x : Nat) : Prop :=
  u.run.ended = true ∧ u.run.writes = t.run.writes ++ [{ write := .w d.toNat (BitVec.ofNat 64 x), at' := s.clock }] ∧
  v.movers = [] ∧ v.moving = none ∧ v.mem = s.mem

/-- The block of an identity after a step that changed where it is. -/
def nowAt (v : State) (x : Block) (p : Place) : Prop := ∃ y, v.block? x.id = some y ∧ y.place = p ∧ y.core = x.core

end Sys2Proof.Claims

/-- R207, R404, R419, R422, R423: the host reads and writes HBM and the registers that it may reach, and gets an error for poison and for other
ranges; an access over the fabric, a load, a store or an atomic, is performed at its line's home, or returned with NOROUTE where the module's entry has gone (R425; log entry
110); a migrated line moves to its destination, where every later access finds it, until software has changed the translations (log
entry 111). Accesses to one line of another module go in their order (R466). Which host accesses get an error completion is the model's reading (log entry 80), as
are the layouts of the board bus's replies (log entry 79). R460: the board interface reads the Dawn step and the failing die, the identity key, and the sensors, power, error counts and events of a die,
and clears nothing; a request of 64 bytes is queued in die 0's SRAM, after 256 of them again from the queue's start, the model's choice (log entry 145). -/
def Obligations.OutsideAccessesAreAnswered : Prop :=
  ((∀ (s : State) (a n : Nat), s.input.host = .read a n →
    (s.hostMay a n = false → exec .hostAccess s = .next { s with hostReply := none }) ∧
    (6 ≤ s.dawn.step → 0 < n → a + n ≤ 2 ^ 39 → s.migrations = [] →
      (poisoned s a n → exec .hostAccess s = .next { s with hostReply := none }) ∧
      (¬poisoned s a n → ∃ v : State, exec .hostAccess s = .next v ∧ v.mem = s.mem ∧
        v.hostReply = some (s.mem.bytes (s.localPa a) n))) ∧
    (s.hostMay a n = true → isRegister a = true → a % 8 = 0 → n = 8 → ∃ v : State, exec .hostAccess s = .next v ∧ v.mem = s.mem ∧
      v.hostReply = some (natBytes 8 (s.regRd a)))) ∧
  (∀ (s : State) (a : Nat) (bs : List Byte), s.input.host = .write a bs →
    (s.hostMay a bs.length = false → exec .hostAccess s = .next { s with hostReply := none }) ∧
    (6 ≤ s.dawn.step → bs ≠ [] → a + bs.length ≤ 2 ^ 39 → s.migrations = [] → ∃ v : State, exec .hostAccess s = .next v ∧
      v.hostReply = some [] ∧ holdsBytes s v (s.localPa a) bs) ∧
    (s.hostMay a bs.length = true → isRegister a = true → inPorts a = false → a % 8 = 0 → bs.length = 8 →
      exec .hostAccess s = .next { s.regWr a (bytesNat bs) with hostReply := some [] })) ∧
  (∀ (s : State) (a n : Nat), s.hostMay a n = true →
    a + n ≤ 2 ^ 39 ∧ 6 ≤ s.dawn.step ∨ (unitWin ≤ a ∧ a + n ≤ unitWin + 0x100000 ∧ 6 ≤ s.dawn.step) ∨
    (fabricPage ≤ a ∧ a + n ≤ fabricPage + 0x2000) ∨ (hostPage ≤ a ∧ a + n ≤ hostPage + 0x1000)) ∧
  (∀ (s : State) (g : BitVec 12) (a : Nat), a / 2 ^ 48 % 512 = s.pod.toNat → s.migrations = [] →
    (∀ n, s.input.fab = .read g a n → a % 2 ^ 48 + n ≤ 2 ^ 39 → ∃ v : State, exec .fabricRemoteAccess s = .next v ∧ v.mem = s.mem ∧
      v.hostReply = some (natBytes n (s.pmRd a n))) ∧
    (∀ bs, s.input.fab = .write g a bs → bs ≠ [] → a % 2 ^ 48 + bs.length ≤ 2 ^ 39 → ∃ v : State, exec .fabricRemoteAccess s = .next v ∧
      holdsBytes s v a bs) ∧
    (∀ q, s.input.fab = .atom g a q → q.op.toNat ≤ 10 → let n := if is64 q.ty then 8 else 4
      a % n = 0 → a % 2 ^ 48 + n ≤ 2 ^ 39 → ∃ v : State, exec .fabricRemoteAccess s = .next v ∧
        v.hostReply = some (natBytes n (s.pmRd a n)) ∧
        holdsBytes s v a (natBytes n (atomR q.op.toNat q.ty (s.pmRd a n) (q.v.toNat % 256 ^ n) (q.cmp.toNat % 256 ^ n))))) ∧
  (∀ (s : State) (r : TRef) (n pa : Nat) (b : Block) (t : Team) (o : MemOp) (l : LaneAcc), s.input.fab = .own r n →
    s.dueOp r n = some (b, t, o) → b.bureau = none → o.sp = false → unheld s t o →
    (∀ p ∈ t.ops.takeWhile (fun p => p.id != n), ∀ l ∈ o.lanes, s.lineHolds p l = false) → s.moduleHeld (s.homeModule pa) o.id = false →
    o.lanes = [l] → l.done = false → l.pa = some pa → paModule (s.home pa) ≠ s.pod.toNat → pa % 64 + o.size ≤ 64 →
    (o.kind = .load ∨ o.kind = .store ∨ o.kind = .atom) →
    (s.returned o l = false → ∃ (v : State) (c : Block) (u : Team), exec .fabricRemoteAccess s = .next v ∧ v.team? r = some (c, u) ∧
      (∀ p ∈ u.ops, p ∈ t.ops ∧ p.id ≠ n) ∧ (∀ x, (∀ i, ¬byteAt s o.size x l i) → v.mem.rd x = s.mem.rd x) ∧
      (o.kind ≠ .store → ∀ d p, o.dest = some d → o.pend = some p → ∀ e ∈ u.pend, e.id = p →
        e.ready = some (loadWrites d t.lanes o.size o.sx [{ l with val := s.pmRd pa o.size }])) ∧
      (o.kind = .load → v.mem = s.mem) ∧
      ∀ x i, byteAt s o.size x l i →
        (o.kind = .store → (v.mem.rd x).toNat = l.val / 2 ^ (8 * i) % 256) ∧
        (o.kind = .atom → (v.mem.rd x).toNat = atomR o.op o.ty (s.pmRd pa o.size) l.val l.cmp / 2 ^ (8 * i) % 256)) ∧
    (s.returned o l = true → t.defer = none → t.ended = false → ∃ (v : State) (c : Block) (u : Team) (q : TrapReq),
      exec .fabricRemoteAccess s = .next v ∧ v.team? r = some (c, u) ∧ v.mem = s.mem ∧ u.defer = some q ∧ q.cause = .noroute ∧
      q.info = l.lane ∧ q.pc = o.pc)) ∧
  (∀ (s : State), let src := s.input.mig.src / 64
    let dst := s.input.mig.dst / 64
    (src = dst → (s.carried src = true → exec .pageMigrationLine s = .next s) ∧
      (s.carried src = false → ∃ v : State, exec .pageMigrationLine s = .next v ∧ v.mem = s.mem ∧
        ∀ pa, v.home pa = if pa / 64 = src then pa else s.home pa)) ∧
    (src ≠ dst → (∃ p ∈ s.migrations, p.1 = src ∨ p.2 = dst ∨ p.1 = dst ∧ p.2 ≠ src) → exec .pageMigrationLine s = .next s) ∧
    (src ≠ dst → (∀ p ∈ s.migrations, p.1 ≠ src ∧ p.2 ≠ dst ∧ (p.1 = dst → p.2 = src)) → ∃ v : State,
      exec .pageMigrationLine s = .next v ∧ holdsBytes s v (64 * dst) (s.mem.bytes (64 * src) 64) ∧
      ∀ pa, v.home pa = if pa / 64 = dst then pa else if s.home pa / 64 = src then 64 * dst + pa % 64 else s.home pa))) ∧
  (∀ (s : State),
    let reply (l : List Byte) : Prop := exec .i3cRequest s = .next { s with i3cReply := l }
    (s.input.i3c = .dawnStatus → reply (BitVec.ofNat 8 s.dawn.step ::
      match s.dawn.failed with | some e => [1#8, BitVec.ofNat 8 e] | none => [0#8, 0#8])) ∧
    (s.input.i3c = .identityKey → reply ((List.range 1952).map Config.identityKey)) ∧
    (∀ e n, s.input.i3c = .sens e n → reply (natBytes 2 ((s.die e.toNat).sens.getD n.toNat 0#16).toNat)) ∧
    (∀ e, s.input.i3c = .pwr e → reply (natBytes 2 (s.die e.toNat).pwr.toNat)) ∧
    (∀ e u, s.input.i3c = .cerr e u → reply (natBytes 8 ((s.die e.toNat).cerr.getD u.toNat 0#48).toNat)) ∧
    (∀ e, s.input.i3c = .evstat e → reply (natBytes 8 (s.die e.toNat).evstat.toNat)) ∧
    (∀ bs, s.input.i3c = .request bs → bs.length = 64 → s.migrations = [] → ∃ v : State, exec .i3cRequest s = .next v ∧
      v.i3cCount = s.i3cCount + 1 ∧ holdsBytes s v (s.localPa (sramBase 0 + 0x3C000 + 64 * (s.i3cCount % 256))) bs))

/-- R427, R453 to R455, R367, R411: Dawn's steps in their order: the reset of the dies, the verified images in their SRAMs, the measured log and its chain,
the scope maps, the offered features, and the Bureaus' teams; a failing image stops it, and after the last step nothing more happens. An entry that firmware appends to the log
later takes the next place in it and goes into the chain (log entry 109). That the failing die of lowest number is reported, and nothing copied then,
is the model's reading (log entry 78). -/
def Obligations.DawnBringsTheModuleUp : Prop :=
  ∀ (s : State),
    (s.dawn.failed.isSome = true ∨ 6 ≤ s.dawn.step → exec .dawn s = .next s) ∧
    (∀ x, s.input.reg = .measured x → s.dawn.step = 6 → x.length = 80 → 80 * (s.dawn.log + 1) ≤ 0x4000 →
      ∃ v : State, exec .registerWrite s = .next v ∧ v.dawn.log = s.dawn.log + 1 ∧
        v.dawn.chain = (List.range 64).map (fun k => (Config.shake256 (s.dawn.chain ++ x)).getD k 0#8) ∧
        holdsBytes s v (s.localPa (sramBase 0 + 0x38000 + 80 * s.dawn.log)) x) ∧
    (s.dawn.failed = none →
      (s.dawn.step = 0 → ∃ v : State, exec .dawn s = .next v ∧ v.dawn.step = 1 ∧ v.parts = [] ∧ v.cores = [] ∧
        (∀ e, e < 4 → v.die e = Die.reset) ∧
        ∀ a, v.mem.rd a =
          if s.localPa (sramBase 0) ≤ a ∧ a < s.localPa (sramBase 4) then 0#8 else s.mem.rd a) ∧
      (s.dawn.step = 1 → ∃ v : State, exec .dawn s = .next v ∧ v.dawn.step = 2 ∧
        (∀ e, e < 4 → s.imageOk e = false → (∀ k, k < e → s.imageOk k = true) → v.dawn.failed = some e ∧ v.mem = s.mem) ∧
        (∀ im, flashed s im → (∀ e, e < 4 → (im e).verified = true) → v.dawn.failed = none ∧
          ∀ e i, e < 4 → i < (im e).bytes.length → v.mem.rd (v.localPa ((im e).load + i)) = (im e).bytes.getD i 0#8)) ∧
      (∀ im, flashed s im →
        (s.dawn.step = 2 → ∃ v : State, exec .dawn s = .next v ∧ v.dawn.step = 3 ∧ v.dawn.log = s.dawn.log + 4 ∧
          v.dawn.chain = chainR (chainR (chainR (chainR s.dawn.chain (im 0)) (im 1)) (im 2)) (im 3) ∧
          ∀ e, e < 4 → v.mem.bytes (v.localPa (sramBase 0 + 0x38000 + 80 * (s.dawn.log + e))) 80 = entryR (im e)) ∧
        (s.dawn.step = 5 → ∃ v l, exec .dawn s = .next v ∧ v.dawn.step = 6 ∧ v.blocks = s.blocks ++ l ∧ l.length = 4 ∧
          ∀ (e : Nat) (b : Block), l[e]? = some b → b.bureau = some e ∧ ∃ t, b.teams = [t] ∧ t.lanes = 32 ∧ t.regs = 8 ∧
            t.pc = BitVec.ofNat 56 ((im e).load + (im e).entry) ∧ t.w[0]? = some (BitVec.ofNat 64 ((im e).load + (im e).param)) ∧
            t.w[1]? = some (BitVec.ofNat 64 (bureauWin e)))) ∧
      (s.dawn.step = 3 → ∃ v : State, exec .dawn s = .next v ∧ v.dawn.step = 4 ∧ ∀ i, i < 512 →
        (v.podmap.getLsbD i = decide (i = s.pod.toNat ∨ (s.route? i).isSome = true)) ∧
        (v.leafmap.getLsbD i = decide (i = s.pod.toNat ∨
          (s.routes.getD i 0#64).getLsbD 31 = true ∧ (s.routes.getD i 0#64).getLsbD 30 = true))) ∧
      (s.dawn.step = 4 → ∃ v : State, exec .dawn s = .next v ∧ v.dawn.step = 5 ∧ v.offer0 = 0xF#64 ∧ v.offer1 = 0x901#64 ∧
        v.offer2 = 0#64 ∧ v.offer3 = 0#64))

/-- R37, R42, R362, R401, R404, R407, R408: a context begins with its job, its phase 0 and two ports; its end, by system software or by an error, frees
what it holds; an error in an entry that holds something of a context is reported with its cause in the report area, announced in TERMQ and
TERMB, and a second one counts in NERR; an error in an entry that holds nothing of a context, and one of an HBM line that no fill has asked for, tagged or not, ends none. The
model's readings: that a line's stored tag ends its context only where a fill finds the error (log entry 45), when a
context's creation and end act, and that its partition stays (log entry 83), and that merge state counts as a router's (log entry 114). -/
def Obligations.ContextsBeginAndEnd : Prop :=
  (∀ (s : State), let q := s.input.ctx
    (s.mayCreate q = false → exec .contextCreation s = .next s) ∧
    (s.mayCreate q = true → s.dies.length = 4 → ∃ v c j p x y, exec .contextCreation s = .next v ∧ v.ctx? q.tag = some c ∧
      c.root = q.root ∧ c.tarea = q.tarea ∧ c.frames = q.frames ∧ c.rbase = q.rbase ∧ c.rsize = q.rsize ∧ c.acc0 = q.acc0 ∧
      c.level? c.job = some j ∧ j.kind = 4 ∧ c.level? c.latest = some p ∧ p.kind = 3 ∧ p.parent = some c.job ∧
      entry? (v.die 0).ports c.hostPort = some x ∧ x.owner = some q.tag ∧
      entry? (v.die 0).ports c.pagerPort = some y ∧ y.owner = some q.tag ∧ v.mem = s.mem ∧ v.blocks = s.blocks)) ∧
  (∀ (s : State) (c : Ctx), let g := s.input.idx.setWidth 12
    s.ctx? g = some c →
    ((∃ b ∈ s.blocks, b.tag = g ∧ b.bureau = none) ∨ (∃ d ∈ s.dispatches, d.tag = g) ∨ (∃ t ∈ s.trees, t.tag = g) →
      exec .contextEnd s = .next s) ∧
    ((∀ b ∈ s.blocks, b.tag = g → b.bureau ≠ none) → (∀ d ∈ s.dispatches, d.tag ≠ g) → (∀ t ∈ s.trees, t.tag ≠ g) →
      (∀ m ∈ s.nmsgs, m.tag ≠ g) → (∀ d ∈ s.dies, ∀ b ∈ d.bins, b.tag ≠ g) →
      ∃ v : State, exec .contextEnd s = .next v ∧ v.ctx? g = none ∧ v.mem = s.mem ∧ v.parts = s.parts ∧
        (∀ e i p, entry? (s.die e).ports i = some p → p.owner = some g →
          ∃ q, entry? (v.die e).ports i = some q ∧ q.owner = none ∧ q.gen = p.gen + 1#32 ∧ q.msgs = []) ∧
        (∀ e i p, entry? (s.die e).ports i = some p → p.owner ≠ some g → entry? (v.die e).ports i = some p) ∧
        (∀ e i f, entry? (s.die e).futures i = some f → f.owner = some g →
          ∃ q, entry? (v.die e).futures i = some q ∧ q.owner = none ∧ q.gen = f.gen + 1#32) ∧
        (∀ p, p ∈ v.tlb1 ∨ p ∈ v.tlb2 → ∀ x ∈ p.2, x.tag ≠ g))) ∧
  (∀ (s : State) (u : EntryUnit) (e : BitVec 2) (i g : BitVec 12) (n : Nat), s.input.err = .entry u e i n g →
    (s.ctx? g = none → (∀ p ∈ s.unacked, p.1 ≠ g) → exec .uncorrectableError s = .next s) ∧
    (holdsR s u e.toNat i.toNat g = false → exec .uncorrectableError s = .next s) ∧
    (∀ a, u = .area → s.ctx? g = none → s.unacked.find? (fun p => p.1 = g) = some (g, a) → a % 64 ≤ 56 → a % 2 ^ 48 + 8 ≤ 2 ^ 39 →
      s.poison = [] → s.migrations = [] → ∃ v : State, exec .uncorrectableError s = .next v ∧
        holdsBytes s v a (natBytes 8 (s.pmRd a 8 + 1)) ∧ v.unacked = s.unacked) ∧
    (∀ c, s.ctx? g = some c → s.dies.length = 4 → holdsR s u e.toNat i.toNat g = true → ∃ v : State, exec .uncorrectableError s = .next v ∧ v.ctx? g = none ∧
      (∀ b ∈ v.blocks, b.tag = g → b.bureau ≠ none) ∧ (∀ d ∈ v.dispatches, d.tag ≠ g) ∧
      v.termq = s.termq ++ [g] ∧ v.termb = s.termb ++ [g] ∧ (v.die 0).evstat.getLsbD 0 = true ∧
      v.unacked = s.unacked ++ [(g, c.rbase + 0x18)] ∧
      (c.rbase % 64 = 0 → c.rbase % 2 ^ 48 + 64 ≤ 2 ^ 39 → s.poison = [] → s.migrations = [] →
        v.mem.bytes c.rbase 8 = natBytes 8 (1 + 2 ^ 8 * unitR u + 2 ^ 16 * e.toNat + 2 ^ 20 * i.toNat)))) ∧
  (∀ (s : State) (line : Nat), s.input.err = .l2 line → (∀ x ∈ s.l2, x.line ≠ line) → exec .uncorrectableError s = .next s) ∧
  (∀ (s : State) (line : Nat), s.input.err = .hbm line [] → ∃ v : State, exec .uncorrectableError s = .next v ∧ line ∈ v.poison ∧
    v.ctxs = s.ctxs ∧ v.mem = s.mem)

/-- R57, R58, R391, R395 to R399: the words of the sequencer are a Bureau's, and refuse a map that is not aligned in its SRAM; CSWAP exchanges the blocks of the clusters named with
their shadow slots; DUSK saves the blocks of the cores that it vacates, and DUSK.ret gives the cores back; a saved block goes to a core that takes it and goes on there, with a new run for each of its teams; no core that the sequencer is exchanging or
vacating takes one (R396). That a saved block's way back takes two steps, the SYSARG of CSWAP in between and the wait with PIPE are the model's choice
(log entry 82). -/
def Obligations.BlocksMoveToAndFromTheShadow : Prop :=
  (∀ (h : Hd) (d a : BitVec 6) (s : State) (b : Block) (t : Team), s.Free [.w a.toNat] [.w d.toNat] false b t →
    (b.bureau = none → exec (.cswap h d a) s = .next (s.trap .priv) ∧ exec (.dusk h d a) s = .next (s.trap .priv) ∧
      exec (.duskRet h d a) s = .next (s.trap .priv)) ∧
    (b.bureau.isSome = true → s.movers = [] → s.moving = none → t.ops = [] →
      ((t.rw a).toNat % 32 ≠ 0 → exec (.cswap h d a) s = .next (s.trap .sysarg)) ∧
      ((t.rw a).toNat % 128 ≠ 0 → exec (.dusk h d a) s = .next (s.trap .sysarg) ∧
        exec (.duskRet h d a) s = .next (s.trap .sysarg))) ∧
    (∀ r l, b.bureau.isSome = true → s.movers = r :: l → r ≠ s.cur.r → ∃ v u c, exec (.cswap h d a) s = .next v ∧ v.cur.res = .parked ∧
      v.team? s.cur.r = some (c, u) ∧ u.reason = .pipe ∧ s.cur.r ∈ v.movers)) ∧
  (∀ (h : Hd) (d a : BitVec 6) (s : State) (b : Block) (t : Team) (v : Nat), Served s b t d a 32 v →
    let named (x : Block) : Prop := v.testBit (x.core / 4) = true ∧ x.core < 1024
    (v % 2 ^ 256 = 0 ∨ (∃ c ∈ s.dusked, c < 1024 ∧ v.testBit (c / 4) = true) ∨
      (∃ x ∈ s.blocks, named x ∧ (x.place = .saved ∧ x.bureau = none ∨ x.place = .moving)) → exec (.cswap h d a) s = .next (s.trap .sysarg)) ∧
    (v % 2 ^ 256 ≠ 0 → (∀ c ∈ s.dusked, v.testBit (c / 4) = false) →
      (∀ x ∈ s.blocks, named x → x.place ≠ .moving ∧ (x.bureau = none → x.place ≠ .saved)) →
      (∀ x ∈ s.blocks, named x → x.bureau = none → x.place = .resident → ∀ y ∈ s.blocks, y.id = x.id → s.blockQuiet y = true) →
      issuesWith (.cswap h d a) s fun w u =>
        movedR s w t u d ((List.range 1024).countP fun c => v.testBit (c / 4) &&
          w.blocks.any fun x => decide (x.core = c) && decide (x.place = .swapped) && x.bureau.isNone) ∧
        ∀ x ∈ s.blocks, (∀ y ∈ s.blocks, y.id = x.id → y = x) → x.bureau = none →
          (named x → nowAt w x (if x.place = .resident then .swapped else .resident)) ∧
          (¬named x → w.block? x.id = some x))) ∧
  (∀ (h : Hd) (d a : BitVec 6) (s : State) (b : Block) (t : Team) (v : Nat), Served s b t d a 128 v →
    (issuesWith (.duskRet h d a) s fun w u =>
      movedR s w t u d ((List.range 1024).countP fun c => v.testBit c && s.dusked.contains c) ∧ w.blocks.map (fun x => x.place) = s.blocks.map (fun x => x.place) ∧
      ∀ c, c ∈ w.dusked ↔ c ∈ s.dusked ∧ ¬(c < 1024 ∧ v.testBit c = true)) ∧
    (∀ new, new = (List.range 1024).filter (fun c => v.testBit c && !s.dusked.contains c) →
      (s.duskBad new = true → exec (.dusk h d a) s = .next (s.trap .sysarg)) ∧
      (s.duskBad new = false → (∀ x ∈ s.blocks, x.place = .moving → x.core ∉ new) → (∀ x ∈ s.blocks, x.id ∈ s.toSave new → s.blockQuiet x = true) →
        issuesWith (.dusk h d a) s fun w u => movedR s w t u d ((s.blocks.countP fun x => decide (x.place = .resident) && (s.toSave new).contains x.id) % 2 ^ 16 + 2 ^ 16 * new.length) ∧
          (∀ c, c ∈ w.dusked ↔ c ∈ s.dusked ∨ c ∈ new) ∧
          ∀ x, s.block? x.id = some x → x.bureau = none →
            (x.place = .resident → x.core ∈ new → nowAt w x .saved) ∧ (x.id ∉ s.toSave new → w.block? x.id = some x)))) ∧
  (∀ (s : State) (b : Nat) (x : Block), s.block? b = some x →
    let regs (y : Block) := y.spad = x.spad ∧ y.chest.map (fun q => q.bytes) = x.chest.map (fun q => q.bytes) ∧
      y.teams.map (fun t => (t.w, t.v, t.m)) = x.teams.map fun t => (t.w, t.v, t.m)
    (x.place = .resident ∨ x.place = .swapped ∨ x.place = .saved ∧ s.nextResume x.tag = none → exec (.duskResume b) s = .next s) ∧
    (x.place = .saved → s.nextResume x.tag = some [x] → x.group = none → x.partner = none →
      ∃ v y, exec (.duskResume b) s = .next v ∧ v.block? b = some y ∧ y.place = .moving ∧ s.takes x y.core = true ∧ (∀ m, s.moving = some m → y.core ∉ m.cores) ∧
        y.core < 1024 ∧ regs y) ∧
    (x.place = .moving → ∃ v y, exec (.duskResume b) s = .next v ∧ v.block? b = some y ∧ y.place = .resident ∧ y.core = x.core ∧
      y.halt = false ∧ y.ocache = [] ∧ regs y ∧ ∀ t ∈ y.teams, t.run.ended = true))

namespace Sys2Proof.Claims
open Sys2Proof.Machine

/-! ### Frames -/

/-- The words of classes 1 to 13 and 28, and the lane words of class 20, that only compute registers (R117 to R125, R127, R153 to R174,
R266 to R276). -/
def computes : Instr → Bool
  | .uadd .. | .usub .. | .umul .. | .umulh .. | .uand .. | .uor .. | .uxor .. | .ushl .. | .ushr .. | .usar .. | .umin ..
  | .umax .. | .ucmp .. | .ubfx .. | .ubfi .. | .uaddImm .. | .uandImm .. | .uorImm .. | .uxorImm .. | .ushlImm ..
  | .ushrImm .. | .usarImm .. | .umulImm .. | .ului .. | .mand .. | .mor .. | .mxor .. | .mandn .. | .mlead .. | .mfirst ..
  | .mcount .. | .msetw .. | .mgetw .. | .vadd .. | .vsub .. | .vmul .. | .vmulh .. | .vand .. | .vor .. | .vxor .. | .vshl ..
  | .vshr .. | .vsar .. | .vmin .. | .vmax .. | .vabs .. | .vbfx .. | .vbfi .. | .vaddImm .. | .vandImm .. | .vorImm ..
  | .vxorImm .. | .vshlImm .. | .vshrImm .. | .vsarImm .. | .vmulImm .. | .vmovImm .. | .fadd .. | .fsub .. | .fmul ..
  | .ffma .. | .fmin .. | .fmax .. | .fabs .. | .frcp .. | .frsq .. | .fsqrt .. | .fdiv .. | .fexp2 .. | .flog2 .. | .fneg ..
  | .dadd .. | .dsub .. | .dmul .. | .dfma .. | .dmin .. | .dmax .. | .ddiv .. | .dsqrt .. | .hadd2 .. | .hsub2 .. | .hmul2 ..
  | .hfma2 .. | .hmin2 .. | .hmax2 .. | .vdot4 .. | .cvt .. | .vcmpEq .. | .vcmpNe .. | .vcmpLt .. | .vcmpLe .. | .vcmpGt ..
  | .vcmpGe .. | .vcmpUn .. | .vcmpOrd .. | .vtest .. | .vshuf .. | .vbcast .. | .vred .. | .vscan .. | .vsel .. | .vmov ..
  | .vmovw .. | .rdc .. | .rdcV .. | .vconf .. | .mpath .. | .vsegred .. | .vsegscan .. | .vcompress .. | .vexpand .. => true
  | _ => false

/-- The words of class 4, which also move the pc and the reconvergence stack (R121 to R123). -/
def flows : Instr → Bool
  | .jmp .. | .call .. | .ret .. | .brmAny .. | .brmAll .. | .brmNone .. | .bruZ .. | .bruNz .. | .bruNeg .. | .bruNneg ..
  | .vbr .. | .recon .. => true
  | _ => false

/-- The loads, stores, prefetches and atomics of classes 14 to 16, FESET and FECLR, and SCATC. -/
def accesses : Instr → Bool
  | .ldg .. | .lds .. | .ldsFe .. | .ldsFk .. | .ldw .. | .ldws .. | .pref .. | .stg .. | .sts .. | .stw .. | .stws ..
  | .feset .. | .feclr .. | .atom .. | .red .. | .scatc .. => true
  | _ => false

/-- The words that hand work to a unit or wait for one and write no memory themselves: fences, barriers, benches, groups, intersections,
network reductions, Chest, tiles, launches, level waits, SPAWN, FPOLL, bins, ports, patterns, queues without their entries, Shelf words,
copies and XLAT. -/
def handsWork : Instr → Bool
  | .nop .. | .sample .. | .fence .. | .xfence .. | .spfence .. | .bar .. | .binit .. | .barrive .. | .bwait .. | .sgjoin .. | .sgleave ..
  | .isect .. | .isectn .. | .nredOrd .. | .nredAny .. | .cclaim .. | .crelease .. | .dinit .. | .dstat .. | .mma .. | .mmaZ ..
  | .mzero .. | .mload .. | .mdrain .. | .mstat .. | .mperm .. | .mpair .. | .launchFlat .. | .launchTree .. | .launchBin ..
  | .lvlwait .. | .lvlwaitPoll .. | .spawn .. | .fpoll .. | .binpost .. | .portopen .. | .send .. | .sendt .. | .recv .. | .patset ..
  | .qcreate .. | .qcreateFree .. | .nres .. | .nresK .. | .nchild .. | .nparent .. | .cpy .. | .tcpy .. | .gcpy .. | .scpy ..
  | .xlat .. => true
  | _ => false

/-- No register of a team has changed, nor what it saves at a trap. -/
def sameRegs (t u : Team) : Prop :=
  u.w = t.w ∧ u.v = t.v ∧ u.m = t.m ∧ u.x = t.x ∧ u.fpmode = t.fpmode ∧ u.trapcause = t.trapcause ∧ u.trappc = t.trappc ∧
  u.handler = t.handler ∧ u.trap = t.trap ∧ u.ended = t.ended ∧ u.lanes = t.lanes ∧ u.role = t.role

/-- The registers of every other team are what they were. -/
def othersSame (s v : State) : Prop :=
  ∀ r b t, r ≠ s.cur.r → s.team? r = some (b, t) → ∃ c u, v.team? r = some (c, u) ∧ sameRegs t u ∧ u.status = t.status ∧
    u.pc = t.pc ∧ u.stack = t.stack ∧ u.run = t.run

/-- The same, but that a team which waits in RECV for a port may receive a message (R331), as one for the pager's (R203). -/
def othersKept (s v : State) : Prop :=
  ∀ r b t, r ≠ s.cur.r → s.team? r = some (b, t) → ∃ c u, v.team? r = some (c, u) ∧ u.status = t.status ∧ u.pc = t.pc ∧
    u.stack = t.stack ∧ u.run = t.run ∧
    (sameRegs t u ∨ ∃ e p d id m, t.wait = some (.recv e p d id) ∧ sameRegs (t.deliver id [.w d m]) u)

/-- The words that take, give or end consumers of futures: FREF, FDROP and LVLCANCEL. -/
def takesFutures : Instr → Bool
  | .fref .. | .fdrop .. | .lvlcancel .. => true
  | _ => false

/-- An address of the record of some future, at its home (R334, R207). -/
def inRecord (s : State) (a : Nat) : Prop :=
  ∃ e f j, ((∃ i, (i, f) ∈ (s.die e).futures) ∨ f ∈ (s.die e).oldFuts) ∧ j < 32 ∧ a = s.home (f.addr + j)

/-- No team has entered or raised a trap or ended, in a step from a state in which no team that waits, nor the one that issues, holds a
frame. -/
def calm (s v : State) : Prop :=
  ∀ r b t, s.team? r = some (b, t) → (r = s.cur.r ∨ t.wait.isSome = true → t.frame = none) ∧
    ∀ c u, v.team? r = some (c, u) → u.trap = t.trap ∧ u.handler = t.handler ∧ u.ended = t.ended

/-- The team that has issued a word goes on at the next word, with its status word and its reconvergence stack as they were. -/
def goesNext (s : State) (t u : Team) : Prop := u.status = t.status ∧ u.stack = t.stack ∧ u.pc = s.cur.next

/-- The words whose result is written at once where what they wait for has come: the level's status, the port's message. -/
def waitDest? : Instr → Option (BitVec 6)
  | .lvlwait _ d _ => some d
  | .recv _ d _ => some d
  | _ => none

/-! ### Steps, decoding and reset -/

/-- The words from an address on, as a team of a block fetches them one after another (R86, R387). -/
def fetched (s : State) (b : Block) (a : BitVec 56) : List Word → State → Prop
  | [], v => v = s
  | w :: ws, v => ∃ u, s.fetchWord b a.toNat = (.ok w, u) ∧ fetched u b (a + 4#56) ws v

/-- Team `t` of block `b`, of identity `r`, issues at this turn, and nothing but its own chain comes first: no wait, no trap, no XINV,
no interrupt and no comparator, and its issue slot is not withheld (R91, R95, R245, R371, R393, R441). -/
structure Issues (s : State) (r : TRef) (b : Block) (t : Team) : Prop where
  team : s.team? r = some (b, t)
  live : b.live = true
  running : t.ended = false ∧ t.trap = none ∧ t.wait = none ∧ t.defer = none ∧ t.xinv = none ∧ t.run.ended = false
  calm : b.bureau = none ∨ ∃ e, b.bureau = some e ∧ (s.die e).istat = 0#17 ∧ (s.die e).evstat = 0#4
  slot : s.withheld b = false
  watch : unwatched s b

/-- The word that a Bureau may execute, or any word of another team (R367). -/
def mayRun (b : Block) (w : Word) : Prop := b.bureau = none ∨ bureauWord w = true

/-- The next move is step `i` of a unit, or of software outside the cores with an input, made in state `z`. -/
def stepOf (s z : State) (i : Instr) : Prop :=
  ∃ ts, (s.schedule = .unit i :: ts ∧ z = { s with schedule := ts }) ∨
    ∃ q, s.schedule = .outside i q :: ts ∧ z = { s with schedule := ts, input := q }

/-- The steps that give a parked team what its word waits for, with the team: MMA_TAKE and DRAWER_RESERVATION. -/
def takesAt : Instr → TRef → Bool
  | .mmaTake q, r => q == r
  | .drawerReservation q, r => q == r
  | _, _ => false

/-- The lengths that the spec gives the machine's tables (R4, R369, R424, R428, R432, R440, R449). -/
structure Shaped (s : State) : Prop where
  dies : s.dies.length = 4
  routes : s.routes.length = 512
  die : ∀ d ∈ s.dies, d.sens.length = 16 ∧ d.armed.length = 16 ∧ d.cerr.length = 21 ∧ d.stopbrk.length = 64
  core : ∀ c ∈ s.cores, c.cmp.length = 6 ∧ c.stall.length = 16

/-- A step that leads on. -/
def leadsTo (s v : State) : Prop := Sys2Proof.Machine.step s = .next v

end Sys2Proof.Claims

/-- R28, R29, R91, R94, R153: a word that only computes leaves memory, every other team and every unit as they are; its team's registers keep
their values until its results, which name only its destination, are written; and words of other classes than 4 go on at the next word
and leave the reconvergence stack. -/
def Obligations.RegisterWordsChangeOnlyTheirDestination : Prop :=
  ∀ (i : Instr) (s v : State) (b : Block) (t : Team), computes i = true ∨ flows i = true → s.team? s.cur.r = some (b, t) →
    exec i s = .next v → v.cur.res = .issued →
    (∀ a, v.mem.rd a = s.mem.rd a) ∧ v.ctxs = s.ctxs ∧ v.dies = s.dies ∧ v.dispatches = s.dispatches ∧ v.copies = s.copies ∧
    v.clock = s.clock ∧ othersSame s v ∧
    ∃ (c : Block) (u : Team) (ws : List RunWrite), v.team? s.cur.r = some (c, u) ∧ sameRegs t u ∧ u.status = t.status ∧ u.ops = t.ops ∧
      u.pend = t.pend ∧ u.run.writes = t.run.writes ++ ws ∧ (∀ w ∈ ws, ∃ n ∈ destsOf i, w.write.name? = some n) ∧
      (computes i = true → u.stack = t.stack ∧ u.pc = s.cur.next)

/-- R91 to R93, R202, R386: a memory word that issues changes no byte of memory, which is read and written when its access is performed;
its team's registers and $status keep their values until its results arrive, the mask and LSF that lane-suppress mode writes among them; and
the other teams are as they were, but for one that waits in RECV for the pager's port. The words that hand work over or wait (benches, tiles,
drawers, copies, launches, tasks without a future, messages, Shelf words, XLAT) change no byte of memory either, and no register of their team
but by a result that arrives later, or at once where LVLWAIT or RECV finds what it waits for. FREF, FDROP and LVLCANCEL write future records
only, FREF that of its future, SPAWNF that of the future which it makes, and QPUSH the dwords of its entry; FWAIT and QPOP write no memory,
and what they find at once arrives at once; XINV writes no memory, and of its team's registers it can only clear LIMITs (R245, R334 to R336,
R346, R354, R355). -/
def Obligations.MemoryWordsLeaveMemoryUntilPerformed : Prop :=
  (∀ (i : Instr) (s v : State) (b : Block) (t : Team), accesses i = true → s.team? s.cur.r = some (b, t) →
    b.dying = false → t.wait = none → exec i s = .next v → v.cur.res = .issued →
    (∀ a, v.mem.rd a = s.mem.rd a) ∧ v.dispatches = s.dispatches ∧ v.copies = s.copies ∧ v.clock = s.clock ∧ othersKept s v ∧
    ∃ (c : Block) (u : Team), v.team? s.cur.r = some (c, u) ∧ sameRegs t u ∧ goesNext s t u ∧
      (∀ p ∈ u.pend, ∀ n ∈ p.regs, n ∈ destsOf i ∨ ∃ q ∈ t.pend, n ∈ q.regs) ∧ ∀ q ∈ t.pend, ∃ p ∈ u.pend, p.regs = q.regs) ∧
  (∀ (i : Instr) (s v : State) (b : Block) (t : Team), handsWork i = true → s.team? s.cur.r = some (b, t) →
    b.dying = false → t.wait = none → exec i s = .next v → v.cur.res = .issued →
    (∀ a, v.mem.rd a = s.mem.rd a) ∧ v.clock = s.clock ∧
    ∃ (c : Block) (u : Team), v.team? s.cur.r = some (c, u) ∧ goesNext s t u ∧
      (sameRegs t u ∨ ∃ d x, waitDest? i = some d ∧ sameRegs (t.regWrite (.w d.toNat x)) u)) ∧
  (∀ (i : Instr) (s v : State) (b : Block) (t : Team), takesFutures i = true → s.team? s.cur.r = some (b, t) →
    exec i s = .next v → v.cur.res = .issued →
    (∀ a, ¬inRecord s a → v.mem.rd a = s.mem.rd a) ∧ v.clock = s.clock ∧ othersSame s v ∧
    ∃ (c : Block) (u : Team), v.team? s.cur.r = some (c, u) ∧ goesNext s t u ∧ sameRegs t u) ∧
  (∀ (h : Hd) (b : BitVec 6) (s v : State) (bl : Block) (t : Team) (e i : Nat) (f : Future), s.team? s.cur.r = some (bl, t) →
    NamesFut s bl (t.rw b) e i f → exec (.fref h b) s = .next v → v.cur.res = .issued →
    ∀ a, (∀ j, j < 32 → a ≠ s.home (f.addr + j)) → v.mem.rd a = s.mem.rd a) ∧
  (∀ (h : Hd) (d b : BitVec 6) (s s1 s2 v : State) (bl : Block) (t : Team) (r pa : Nat) (as : List Nat), SpawnReady s bl t d b r as s1 →
    s1.legalVa bl .wr 32 (t.opnd b 1 % 2 ^ 56) = (.pa pa, s2) → exec (.spawnf h d b) s = .next v → v.cur.res = .issued →
    (∀ a, (∀ j, j < 32 → a ≠ s.home (pa + j)) → v.mem.rd a = s.mem.rd a) ∧ v.clock = s.clock ∧
    ∃ (c : Block) (u : Team), v.team? s.cur.r = some (c, u) ∧ goesNext s t u ∧ sameRegs t u) ∧
  (∀ (h : Hd) (a b : BitVec 6) (s s1 v : State) (bl : Block) (t : Team) (e i : Nat) (x : Queue) (as : List Nat),
    s.team? s.cur.r = some (bl, t) → t.ended = false → t.wait = none → namesQueue s bl (t.rw b) e i x →
    s.entryLegal bl .wr (x.slots x.tail) = .ok as s1 → exec (.qpush h a b) s = .next v → v.cur.res = .issued → calm s v →
    (∀ z, (∀ p ∈ as, ∀ j, j < 8 → z ≠ s.home (p + j)) → v.mem.rd z = s.mem.rd z) ∧ v.clock = s.clock ∧
    ∃ (c : Block) (u : Team), v.team? s.cur.r = some (c, u) ∧ goesNext s t u ∧ sameRegs t u) ∧
  (∀ (h : Hd) (d b : BitVec 6) (s v : State) (bl : Block) (t : Team), s.team? s.cur.r = some (bl, t) → t.ended = false → t.wait = none →
    bl.dying = false → calm s v →
    (exec (.fwait h d b) s = .next v → v.cur.res = .issued → v.mem = s.mem ∧ v.clock = s.clock ∧
      ∃ (c : Block) (u : Team), v.team? s.cur.r = some (c, u) ∧ goesNext s t u ∧
        (sameRegs t u ∨ ∃ x, sameRegs (t.regWrite (.w d.toNat x)) u)) ∧
    (∀ e i x, namesQueue s bl (t.rw b) e i x → exec (.qpop h d b) s = .next v → v.cur.res = .issued → v.mem = s.mem ∧ v.clock = s.clock ∧
      ∃ (c : Block) (u : Team), v.team? s.cur.r = some (c, u) ∧ goesNext s t u ∧ (sameRegs t u ∨ ∃ l : List Dword, l.length = x.ew ∧
        sameRegs ((l.zipIdx.map fun z => RegWrite.w (d.toNat + z.2) z.1).foldl Team.regWrite t) u))) ∧
  (∀ (h : Hd) (a b : BitVec 6) (s v : State) (bl : Block) (t : Team), s.team? s.cur.r = some (bl, t) → t.wait = none →
    exec (.xinv h a b) s = .next v → v.cur.res = .issued → v.mem = s.mem ∧ v.clock = s.clock ∧
    ∃ (c : Block) (u : Team), v.team? s.cur.r = some (c, u) ∧ goesNext s t u ∧ sameRegs { t with x := u.x } u ∧
      ∀ (k : Nat) (y : XReg), t.x[k]? = some y → u.x[k]? = some y ∨ u.x[k]? = some { y with limit := 0#30 })

/-- R86, R88, R103, R387: where the words at a team's pc decode to an instruction, a step of that team is the instruction's meaning, in the state
that the fetch has left and with what issues set to the team, and then what follows a chain that has issued; a step of a unit is the
meaning of its instruction, and one that takes an argument from outside takes it from the input. The chain of a taken MMA issues in the
step that takes it (R88), and of a copy for which a drawer's tile is reserved as well; where it does not issue, the take or the
reservation does not happen and the team has its turn, the model's reading (log entry 119). An interrupt is entered at its team's turn,
where a trap of the chain comes first, or while the team waits in WFI (R392, R393). What a cache does by itself changes no byte of memory. A turn that keeps a scratchpad word apart is
the same turn with that mark in the state, the model's own (log entry 34). -/
def Obligations.StepRunsTheDecodedInstruction : Prop :=
  (∀ (s s1 : State) (r : TRef) (ts : List Turn) (b : Block) (t : Team) (ws : List Word) (w : Word) (i : Instr),
    s.schedule = .issue r :: ts → Issues s r b t → ws.length < 3 - t.pc.toNat % 12 / 4 → t.pc.toNat % 4 = 0 →
    decode (wordsBytes (ws ++ [w])) = .ok i → (wordC w = false ∨ w = 0xFFFFFFFF#32) → mayRun b w →
    fetched { s with schedule := ts, cur := { s.cur with res := .none } } b t.pc (ws ++ [w]) s1 →
    let last := t.pc + BitVec.ofNat 56 (4 * ws.length)
    let iss : Issue := ⟨r, t.pc, t.pc, last + 4#56, s1.nextId, t.run.writes, .none, none⟩
    let s2 : State := { s1 with cur := { iss with addr := last } }
    (∀ v, exec i s2 = .next v → v.cur.res = .issued → Sys2Proof.Machine.step s = .next (v.chainDone iss b last).after) ∧
    (∀ v, exec i s2 = .next v → v.cur.res = .trapped → Sys2Proof.Machine.step s = .next v.after) ∧
    (∀ v c u, exec i s2 = .next v → v.cur.res = .parked → v.team? r = some (c, u) →
      (u.ended = true → Sys2Proof.Machine.step s = .next v.after) ∧
      (u.ended = false → Sys2Proof.Machine.step s =
        .next (v.updTeam r fun x => { x with reason := x.reason.max u.reason }).after))) ∧
  (∀ (s v : State) (ts : List Turn) (r : TRef), s.schedule = .apart r :: ts →
    ({ s with schedule := ts, apart := true } : State).issueTurn r = .next v →
    Sys2Proof.Machine.step s = .next ({ v with apart := false } : State).after) ∧
  (∀ (s z v : State) (i : Instr), stepOf s z i → i.word = none → (∀ r, takesAt i r = false ∧ i ≠ .interruptEntry r) →
    exec i z = .next v → Sys2Proof.Machine.step s = .next v.after) ∧
  (∀ (s z v : State) (i : Instr) (r : TRef), stepOf s z i → takesAt i r = true → exec i z = .next v →
    (v.due ≠ some r → Sys2Proof.Machine.step s = .next v.after) ∧
    (v.due = some r → ∀ x, v.issueTurn r = .next x → (x.due = none → Sys2Proof.Machine.step s = .next x.after) ∧
      (x.due ≠ none → ∀ y, z.issueTurn r = .next y → Sys2Proof.Machine.step s = .next y.after))) ∧
  (∀ (s z v : State) (r : TRef) (b : Block) (t : Team), stepOf s z (.interruptEntry r) → s.team? r = some (b, t) →
    (z.interruptDue b t = true → t.wait = none → z.issueTurn r = .next v → Sys2Proof.Machine.step s = .next v.after) ∧
    (z.interruptDue b t = false ∨ t.wait ≠ none → exec (.interruptEntry r) z = .next v → Sys2Proof.Machine.step s = .next v.after)) ∧
  (∀ (s : State) (ts : List Turn) (m : CacheMove), s.schedule = .cache m :: ts → s.hurt = [] → s.unitQ = [] →
    ∃ v, Sys2Proof.Machine.step s = .next v ∧ v.mem = s.mem ∧ v.blocks = s.blocks ∧ v.clock = s.clock) ∧
  (∀ (s : State) (ts : List Turn), s.schedule = .tick :: ts → s.hurt = [] → s.unitQ = [] → ∃ v, Sys2Proof.Machine.step s = .next v ∧
    v.clock = s.clock + 1 ∧ v.mem = s.mem)

/-- R98 to R103 and the encodings of the opcode table: the decoding of an encoded instruction that is well formed is that instruction, with every
operand at every value that the encoding admits. -/
def Obligations.EncodeThenDecodeIsTheSame : Prop :=
  ∀ i : Instr, i.wf = true → i.word.isSome = true → decode (wordsBytes (encode i)) = .ok i

/-- Words written out from the encodings of the spec decode to the instructions that they stand for. -/
def Obligations.SpecWordsDecode : Prop :=
  decode (wordsBytes [0x3A001000#32]) = .ok (.xlat ⟨false, false, none, none⟩ 1#3 0#6) ∧
  decode (wordsBytes [0x00200005#32]) = .ok (.trap ⟨false, false, none, none⟩ 5#6) ∧
  decode (wordsBytes [0x1AC12380#32]) = .ok (.vmovw ⟨false, false, none, none⟩ 0#3 18#6 14#6) ∧
  decode (wordsBytes [0x20003210#32]) = .ok (.atom ⟨false, false, none, none⟩ 0#4 0#3 3#6 1#3 2#6 0#1) ∧
  decode (wordsBytes [0x2CE03A00#32]) = .ok (.mperm ⟨false, false, none, none⟩ 29#6) ∧
  decode (wordsBytes [0xFFFFFFFF#32]) = .ok .brk

/-- R4, R369, R424, R432, R453: the machine after reset: no context and no work, Dawn before its first step, ALERT at 0xFFFF, no event, no throttle,
no route; its tables have their lengths and its memory the canonical form. That memory reads as 0 is the model's choice (log entry 1). -/
def Obligations.ResetIsBeforeDawn : Prop :=
  let s := State.reset
  Shaped s ∧ s.mem.wf = true ∧ (∀ a, s.mem.rd a = 0#8) ∧ s.clock = 0 ∧ s.ctxs = [] ∧ s.blocks = [] ∧ s.dispatches = [] ∧ s.trees = [] ∧
  s.copies = [] ∧ s.parts = [] ∧ s.dusked = [] ∧ s.termq = [] ∧ s.termb = [] ∧ s.dawn.step = 0 ∧ s.dawn.failed = none ∧
  s.dawn.chain = List.replicate 64 0#8 ∧ (∀ m, s.route? m = none) ∧
  ∀ e, e < 4 → (s.die e).alert = 0xFFFF#16 ∧ (s.die e).istat = 0#17 ∧ (s.die e).throt = 0#4 ∧ (s.die e).evstat = 0#4 ∧
    (s.die e).tickEnd = none ∧ (s.die e).vctl = 0#64 ∧ (s.die e).ports = [] ∧ (s.die e).queues = []

/-- Memory keeps its canonical form, from every state that has it: addresses rise strictly and no byte that an unlisted address reads as
is listed (log entry 1), so that equal memories are equal data. -/
def Obligations.MemoryStaysCanonical : Prop := ∀ s v : State, s.mem.wf = true → leadsTo s v → v.mem.wf = true

/-- The tables of the dies, the routes and the cores' debug registers keep the lengths that the spec gives them (R4, R369, R424, R428, R432,
R440, R449): no step makes a register of one of them unreachable. -/
def Obligations.TablesKeepTheirLengths : Prop := ∀ s v : State, Shaped s → leadsTo s v → Shaped v
end

