-- ==== Sys2Proof/Laws/Decode.lean ====
section
/-! SUPPORT. Words put together and taken apart: what each format of R98 splits a joined word into, the prefixes, and the bytes of
words. -/

namespace Sys2Proof

@[simp] theorem splitA_joinA (c s : Bool) (cls : BitVec 5) (fn : BitVec 4) (sub : BitVec 3) (d : BitVec 6) (a : BitVec 6) (b : BitVec 6) : splitA (joinA c s cls fn sub d a b) = ⟨fn, sub, d, a, b⟩ := by
  simp only [splitA, joinA, FA.mk.injEq]
  refine ⟨?_, ?_, ?_, ?_, ?_⟩ <;>
    (apply BitVec.eq_of_getLsbD_eq; intro i hi; rw [BitVec.getLsbD_extractLsb']
     change (_ && @BitVec.getLsbD (1 + 1 + 5 + 4 + 3 + 6 + 6 + 6) _ _) = _
     simp only [BitVec.getLsbD_append, hi, decide_true, Bool.true_and]
     interval_cases i
     all_goals simp)

@[simp] theorem wordClass_joinA (c s : Bool) (cls : BitVec 5) (fn : BitVec 4) (sub : BitVec 3) (d : BitVec 6) (a : BitVec 6) (b : BitVec 6) : wordClass (joinA c s cls fn sub d a b) = cls := by
  simp only [wordClass, joinA]
  (apply BitVec.eq_of_getLsbD_eq; intro i hi; rw [BitVec.getLsbD_extractLsb']
   change (_ && @BitVec.getLsbD (1 + 1 + 5 + 4 + 3 + 6 + 6 + 6) _ _) = _
   simp only [BitVec.getLsbD_append, hi, decide_true, Bool.true_and]
   interval_cases i
   all_goals simp)
@[simp] theorem wordC_joinA (c s : Bool) (cls : BitVec 5) (fn : BitVec 4) (sub : BitVec 3) (d : BitVec 6) (a : BitVec 6) (b : BitVec 6) : wordC (joinA c s cls fn sub d a b) = c := by
  have h : (joinA c s cls fn sub d a b).extractLsb' 31 1 = BitVec.ofBool c := by
    simp only [joinA]
    (apply BitVec.eq_of_getLsbD_eq; intro i hi; rw [BitVec.getLsbD_extractLsb']
     change (_ && @BitVec.getLsbD (1 + 1 + 5 + 4 + 3 + 6 + 6 + 6) _ _) = _
     simp only [BitVec.getLsbD_append, hi, decide_true, Bool.true_and]
     interval_cases i
     all_goals simp)
  simp only [wordC, h]
  cases c <;> rfl
@[simp] theorem wordS_joinA (c s : Bool) (cls : BitVec 5) (fn : BitVec 4) (sub : BitVec 3) (d : BitVec 6) (a : BitVec 6) (b : BitVec 6) : wordS (joinA c s cls fn sub d a b) = s := by
  have h : (joinA c s cls fn sub d a b).extractLsb' 30 1 = BitVec.ofBool s := by
    simp only [joinA]
    (apply BitVec.eq_of_getLsbD_eq; intro i hi; rw [BitVec.getLsbD_extractLsb']
     change (_ && @BitVec.getLsbD (1 + 1 + 5 + 4 + 3 + 6 + 6 + 6) _ _) = _
     simp only [BitVec.getLsbD_append, hi, decide_true, Bool.true_and]
     interval_cases i
     all_goals simp)
  simp only [wordS, h]
  cases s <;> rfl

@[simp] theorem splitI_joinI (c s : Bool) (cls : BitVec 5) (fn : BitVec 4) (d : BitVec 6) (a : BitVec 6) (imm : BitVec 9) : splitI (joinI c s cls fn d a imm) = ⟨fn, d, a, imm⟩ := by
  simp only [splitI, joinI, FI.mk.injEq]
  refine ⟨?_, ?_, ?_, ?_⟩ <;>
    (apply BitVec.eq_of_getLsbD_eq; intro i hi; rw [BitVec.getLsbD_extractLsb']
     change (_ && @BitVec.getLsbD (1 + 1 + 5 + 4 + 6 + 6 + 9) _ _) = _
     simp only [BitVec.getLsbD_append, hi, decide_true, Bool.true_and]
     interval_cases i
     all_goals simp)

@[simp] theorem wordClass_joinI (c s : Bool) (cls : BitVec 5) (fn : BitVec 4) (d : BitVec 6) (a : BitVec 6) (imm : BitVec 9) : wordClass (joinI c s cls fn d a imm) = cls := by
  simp only [wordClass, joinI]
  (apply BitVec.eq_of_getLsbD_eq; intro i hi; rw [BitVec.getLsbD_extractLsb']
   change (_ && @BitVec.getLsbD (1 + 1 + 5 + 4 + 6 + 6 + 9) _ _) = _
   simp only [BitVec.getLsbD_append, hi, decide_true, Bool.true_and]
   interval_cases i
   all_goals simp)
@[simp] theorem wordC_joinI (c s : Bool) (cls : BitVec 5) (fn : BitVec 4) (d : BitVec 6) (a : BitVec 6) (imm : BitVec 9) : wordC (joinI c s cls fn d a imm) = c := by
  have h : (joinI c s cls fn d a imm).extractLsb' 31 1 = BitVec.ofBool c := by
    simp only [joinI]
    (apply BitVec.eq_of_getLsbD_eq; intro i hi; rw [BitVec.getLsbD_extractLsb']
     change (_ && @BitVec.getLsbD (1 + 1 + 5 + 4 + 6 + 6 + 9) _ _) = _
     simp only [BitVec.getLsbD_append, hi, decide_true, Bool.true_and]
     interval_cases i
     all_goals simp)
  simp only [wordC, h]
  cases c <;> rfl
@[simp] theorem wordS_joinI (c s : Bool) (cls : BitVec 5) (fn : BitVec 4) (d : BitVec 6) (a : BitVec 6) (imm : BitVec 9) : wordS (joinI c s cls fn d a imm) = s := by
  have h : (joinI c s cls fn d a imm).extractLsb' 30 1 = BitVec.ofBool s := by
    simp only [joinI]
    (apply BitVec.eq_of_getLsbD_eq; intro i hi; rw [BitVec.getLsbD_extractLsb']
     change (_ && @BitVec.getLsbD (1 + 1 + 5 + 4 + 6 + 6 + 9) _ _) = _
     simp only [BitVec.getLsbD_append, hi, decide_true, Bool.true_and]
     interval_cases i
     all_goals simp)
  simp only [wordS, h]
  cases s <;> rfl

@[simp] theorem splitL_joinL (c s : Bool) (cls : BitVec 5) (d : BitVec 6) (imm : BitVec 19) : splitL (joinL c s cls d imm) = ⟨d, imm⟩ := by
  simp only [splitL, joinL, FL.mk.injEq]
  refine ⟨?_, ?_⟩ <;>
    (apply BitVec.eq_of_getLsbD_eq; intro i hi; rw [BitVec.getLsbD_extractLsb']
     change (_ && @BitVec.getLsbD (1 + 1 + 5 + 6 + 19) _ _) = _
     simp only [BitVec.getLsbD_append, hi, decide_true, Bool.true_and]
     interval_cases i
     all_goals simp)

@[simp] theorem wordClass_joinL (c s : Bool) (cls : BitVec 5) (d : BitVec 6) (imm : BitVec 19) : wordClass (joinL c s cls d imm) = cls := by
  simp only [wordClass, joinL]
  (apply BitVec.eq_of_getLsbD_eq; intro i hi; rw [BitVec.getLsbD_extractLsb']
   change (_ && @BitVec.getLsbD (1 + 1 + 5 + 6 + 19) _ _) = _
   simp only [BitVec.getLsbD_append, hi, decide_true, Bool.true_and]
   interval_cases i
   all_goals simp)
@[simp] theorem wordC_joinL (c s : Bool) (cls : BitVec 5) (d : BitVec 6) (imm : BitVec 19) : wordC (joinL c s cls d imm) = c := by
  have h : (joinL c s cls d imm).extractLsb' 31 1 = BitVec.ofBool c := by
    simp only [joinL]
    (apply BitVec.eq_of_getLsbD_eq; intro i hi; rw [BitVec.getLsbD_extractLsb']
     change (_ && @BitVec.getLsbD (1 + 1 + 5 + 6 + 19) _ _) = _
     simp only [BitVec.getLsbD_append, hi, decide_true, Bool.true_and]
     interval_cases i
     all_goals simp)
  simp only [wordC, h]
  cases c <;> rfl
@[simp] theorem wordS_joinL (c s : Bool) (cls : BitVec 5) (d : BitVec 6) (imm : BitVec 19) : wordS (joinL c s cls d imm) = s := by
  have h : (joinL c s cls d imm).extractLsb' 30 1 = BitVec.ofBool s := by
    simp only [joinL]
    (apply BitVec.eq_of_getLsbD_eq; intro i hi; rw [BitVec.getLsbD_extractLsb']
     change (_ && @BitVec.getLsbD (1 + 1 + 5 + 6 + 19) _ _) = _
     simp only [BitVec.getLsbD_append, hi, decide_true, Bool.true_and]
     interval_cases i
     all_goals simp)
  simp only [wordS, h]
  cases s <;> rfl

@[simp] theorem splitB_joinB (c s : Bool) (cls : BitVec 5) (fn : BitVec 4) (sub : BitVec 3) (off : BitVec 18) : splitB (joinB c s cls fn sub off) = ⟨fn, sub, off⟩ := by
  simp only [splitB, joinB, FB.mk.injEq]
  refine ⟨?_, ?_, ?_⟩ <;>
    (apply BitVec.eq_of_getLsbD_eq; intro i hi; rw [BitVec.getLsbD_extractLsb']
     change (_ && @BitVec.getLsbD (1 + 1 + 5 + 4 + 3 + 18) _ _) = _
     simp only [BitVec.getLsbD_append, hi, decide_true, Bool.true_and]
     interval_cases i
     all_goals simp)

@[simp] theorem wordClass_joinB (c s : Bool) (cls : BitVec 5) (fn : BitVec 4) (sub : BitVec 3) (off : BitVec 18) : wordClass (joinB c s cls fn sub off) = cls := by
  simp only [wordClass, joinB]
  (apply BitVec.eq_of_getLsbD_eq; intro i hi; rw [BitVec.getLsbD_extractLsb']
   change (_ && @BitVec.getLsbD (1 + 1 + 5 + 4 + 3 + 18) _ _) = _
   simp only [BitVec.getLsbD_append, hi, decide_true, Bool.true_and]
   interval_cases i
   all_goals simp)
@[simp] theorem wordC_joinB (c s : Bool) (cls : BitVec 5) (fn : BitVec 4) (sub : BitVec 3) (off : BitVec 18) : wordC (joinB c s cls fn sub off) = c := by
  have h : (joinB c s cls fn sub off).extractLsb' 31 1 = BitVec.ofBool c := by
    simp only [joinB]
    (apply BitVec.eq_of_getLsbD_eq; intro i hi; rw [BitVec.getLsbD_extractLsb']
     change (_ && @BitVec.getLsbD (1 + 1 + 5 + 4 + 3 + 18) _ _) = _
     simp only [BitVec.getLsbD_append, hi, decide_true, Bool.true_and]
     interval_cases i
     all_goals simp)
  simp only [wordC, h]
  cases c <;> rfl
@[simp] theorem wordS_joinB (c s : Bool) (cls : BitVec 5) (fn : BitVec 4) (sub : BitVec 3) (off : BitVec 18) : wordS (joinB c s cls fn sub off) = s := by
  have h : (joinB c s cls fn sub off).extractLsb' 30 1 = BitVec.ofBool s := by
    simp only [joinB]
    (apply BitVec.eq_of_getLsbD_eq; intro i hi; rw [BitVec.getLsbD_extractLsb']
     change (_ && @BitVec.getLsbD (1 + 1 + 5 + 4 + 3 + 18) _ _) = _
     simp only [BitVec.getLsbD_append, hi, decide_true, Bool.true_and]
     interval_cases i
     all_goals simp)
  simp only [wordS, h]
  cases s <;> rfl

@[simp] theorem splitBW_joinBW (c s : Bool) (cls : BitVec 5) (fn : BitVec 4) (w : BitVec 6) (off : BitVec 15) : splitBW (joinBW c s cls fn w off) = ⟨fn, w, off⟩ := by
  simp only [splitBW, joinBW, FBW.mk.injEq]
  refine ⟨?_, ?_, ?_⟩ <;>
    (apply BitVec.eq_of_getLsbD_eq; intro i hi; rw [BitVec.getLsbD_extractLsb']
     change (_ && @BitVec.getLsbD (1 + 1 + 5 + 4 + 6 + 15) _ _) = _
     simp only [BitVec.getLsbD_append, hi, decide_true, Bool.true_and]
     interval_cases i
     all_goals simp)

@[simp] theorem wordClass_joinBW (c s : Bool) (cls : BitVec 5) (fn : BitVec 4) (w : BitVec 6) (off : BitVec 15) : wordClass (joinBW c s cls fn w off) = cls := by
  simp only [wordClass, joinBW]
  (apply BitVec.eq_of_getLsbD_eq; intro i hi; rw [BitVec.getLsbD_extractLsb']
   change (_ && @BitVec.getLsbD (1 + 1 + 5 + 4 + 6 + 15) _ _) = _
   simp only [BitVec.getLsbD_append, hi, decide_true, Bool.true_and]
   interval_cases i
   all_goals simp)
@[simp] theorem wordC_joinBW (c s : Bool) (cls : BitVec 5) (fn : BitVec 4) (w : BitVec 6) (off : BitVec 15) : wordC (joinBW c s cls fn w off) = c := by
  have h : (joinBW c s cls fn w off).extractLsb' 31 1 = BitVec.ofBool c := by
    simp only [joinBW]
    (apply BitVec.eq_of_getLsbD_eq; intro i hi; rw [BitVec.getLsbD_extractLsb']
     change (_ && @BitVec.getLsbD (1 + 1 + 5 + 4 + 6 + 15) _ _) = _
     simp only [BitVec.getLsbD_append, hi, decide_true, Bool.true_and]
     interval_cases i
     all_goals simp)
  simp only [wordC, h]
  cases c <;> rfl
@[simp] theorem wordS_joinBW (c s : Bool) (cls : BitVec 5) (fn : BitVec 4) (w : BitVec 6) (off : BitVec 15) : wordS (joinBW c s cls fn w off) = s := by
  have h : (joinBW c s cls fn w off).extractLsb' 30 1 = BitVec.ofBool s := by
    simp only [joinBW]
    (apply BitVec.eq_of_getLsbD_eq; intro i hi; rw [BitVec.getLsbD_extractLsb']
     change (_ && @BitVec.getLsbD (1 + 1 + 5 + 4 + 6 + 15) _ _) = _
     simp only [BitVec.getLsbD_append, hi, decide_true, Bool.true_and]
     interval_cases i
     all_goals simp)
  simp only [wordS, h]
  cases s <;> rfl

@[simp] theorem splitM_joinM (c s : Bool) (cls : BitVec 5) (fn : BitVec 4) (sub : BitVec 3) (data : BitVec 6) (x : BitVec 3) (off : BitVec 6) (qual : BitVec 3) : splitM (joinM c s cls fn sub data x off qual) = ⟨fn, sub, data, x, off, qual⟩ := by
  simp only [splitM, joinM, FM.mk.injEq]
  refine ⟨?_, ?_, ?_, ?_, ?_, ?_⟩ <;>
    (apply BitVec.eq_of_getLsbD_eq; intro i hi; rw [BitVec.getLsbD_extractLsb']
     change (_ && @BitVec.getLsbD (1 + 1 + 5 + 4 + 3 + 6 + 3 + 6 + 3) _ _) = _
     simp only [BitVec.getLsbD_append, hi, decide_true, Bool.true_and]
     interval_cases i
     all_goals simp)

@[simp] theorem wordClass_joinM (c s : Bool) (cls : BitVec 5) (fn : BitVec 4) (sub : BitVec 3) (data : BitVec 6) (x : BitVec 3) (off : BitVec 6) (qual : BitVec 3) : wordClass (joinM c s cls fn sub data x off qual) = cls := by
  simp only [wordClass, joinM]
  (apply BitVec.eq_of_getLsbD_eq; intro i hi; rw [BitVec.getLsbD_extractLsb']
   change (_ && @BitVec.getLsbD (1 + 1 + 5 + 4 + 3 + 6 + 3 + 6 + 3) _ _) = _
   simp only [BitVec.getLsbD_append, hi, decide_true, Bool.true_and]
   interval_cases i
   all_goals simp)
@[simp] theorem wordC_joinM (c s : Bool) (cls : BitVec 5) (fn : BitVec 4) (sub : BitVec 3) (data : BitVec 6) (x : BitVec 3) (off : BitVec 6) (qual : BitVec 3) : wordC (joinM c s cls fn sub data x off qual) = c := by
  have h : (joinM c s cls fn sub data x off qual).extractLsb' 31 1 = BitVec.ofBool c := by
    simp only [joinM]
    (apply BitVec.eq_of_getLsbD_eq; intro i hi; rw [BitVec.getLsbD_extractLsb']
     change (_ && @BitVec.getLsbD (1 + 1 + 5 + 4 + 3 + 6 + 3 + 6 + 3) _ _) = _
     simp only [BitVec.getLsbD_append, hi, decide_true, Bool.true_and]
     interval_cases i
     all_goals simp)
  simp only [wordC, h]
  cases c <;> rfl
@[simp] theorem wordS_joinM (c s : Bool) (cls : BitVec 5) (fn : BitVec 4) (sub : BitVec 3) (data : BitVec 6) (x : BitVec 3) (off : BitVec 6) (qual : BitVec 3) : wordS (joinM c s cls fn sub data x off qual) = s := by
  have h : (joinM c s cls fn sub data x off qual).extractLsb' 30 1 = BitVec.ofBool s := by
    simp only [joinM]
    (apply BitVec.eq_of_getLsbD_eq; intro i hi; rw [BitVec.getLsbD_extractLsb']
     change (_ && @BitVec.getLsbD (1 + 1 + 5 + 4 + 3 + 6 + 3 + 6 + 3) _ _) = _
     simp only [BitVec.getLsbD_append, hi, decide_true, Bool.true_and]
     interval_cases i
     all_goals simp)
  simp only [wordS, h]
  cases s <;> rfl

@[simp] theorem splitE_joinE (c s : Bool) (cls : BitVec 5) (fn : BitVec 4) (u : BitVec 6) (v2 : BitVec 6) (shape : BitVec 5) (flags : BitVec 4) : splitE (joinE c s cls fn u v2 shape flags) = ⟨fn, u, v2, shape, flags⟩ := by
  simp only [splitE, joinE, FE.mk.injEq]
  refine ⟨?_, ?_, ?_, ?_, ?_⟩ <;>
    (apply BitVec.eq_of_getLsbD_eq; intro i hi; rw [BitVec.getLsbD_extractLsb']
     change (_ && @BitVec.getLsbD (1 + 1 + 5 + 4 + 6 + 6 + 5 + 4) _ _) = _
     simp only [BitVec.getLsbD_append, hi, decide_true, Bool.true_and]
     interval_cases i
     all_goals simp)

@[simp] theorem wordClass_joinE (c s : Bool) (cls : BitVec 5) (fn : BitVec 4) (u : BitVec 6) (v2 : BitVec 6) (shape : BitVec 5) (flags : BitVec 4) : wordClass (joinE c s cls fn u v2 shape flags) = cls := by
  simp only [wordClass, joinE]
  (apply BitVec.eq_of_getLsbD_eq; intro i hi; rw [BitVec.getLsbD_extractLsb']
   change (_ && @BitVec.getLsbD (1 + 1 + 5 + 4 + 6 + 6 + 5 + 4) _ _) = _
   simp only [BitVec.getLsbD_append, hi, decide_true, Bool.true_and]
   interval_cases i
   all_goals simp)
@[simp] theorem wordC_joinE (c s : Bool) (cls : BitVec 5) (fn : BitVec 4) (u : BitVec 6) (v2 : BitVec 6) (shape : BitVec 5) (flags : BitVec 4) : wordC (joinE c s cls fn u v2 shape flags) = c := by
  have h : (joinE c s cls fn u v2 shape flags).extractLsb' 31 1 = BitVec.ofBool c := by
    simp only [joinE]
    (apply BitVec.eq_of_getLsbD_eq; intro i hi; rw [BitVec.getLsbD_extractLsb']
     change (_ && @BitVec.getLsbD (1 + 1 + 5 + 4 + 6 + 6 + 5 + 4) _ _) = _
     simp only [BitVec.getLsbD_append, hi, decide_true, Bool.true_and]
     interval_cases i
     all_goals simp)
  simp only [wordC, h]
  cases c <;> rfl
@[simp] theorem wordS_joinE (c s : Bool) (cls : BitVec 5) (fn : BitVec 4) (u : BitVec 6) (v2 : BitVec 6) (shape : BitVec 5) (flags : BitVec 4) : wordS (joinE c s cls fn u v2 shape flags) = s := by
  have h : (joinE c s cls fn u v2 shape flags).extractLsb' 30 1 = BitVec.ofBool s := by
    simp only [joinE]
    (apply BitVec.eq_of_getLsbD_eq; intro i hi; rw [BitVec.getLsbD_extractLsb']
     change (_ && @BitVec.getLsbD (1 + 1 + 5 + 4 + 6 + 6 + 5 + 4) _ _) = _
     simp only [BitVec.getLsbD_append, hi, decide_true, Bool.true_and]
     interval_cases i
     all_goals simp)
  simp only [wordS, h]
  cases s <;> rfl

@[simp] theorem splitX_joinX (c s : Bool) (cls : BitVec 5) (feat : BitVec 7) (fn : BitVec 4) (d : BitVec 6) (a : BitVec 6) (k : BitVec 1) (r : BitVec 1) : splitX (joinX c s cls feat fn d a k r) = ⟨feat, fn, d, a, k, r⟩ := by
  simp only [splitX, joinX, FX.mk.injEq]
  refine ⟨?_, ?_, ?_, ?_, ?_, ?_⟩ <;>
    (apply BitVec.eq_of_getLsbD_eq; intro i hi; rw [BitVec.getLsbD_extractLsb']
     change (_ && @BitVec.getLsbD (1 + 1 + 5 + 7 + 4 + 6 + 6 + 1 + 1) _ _) = _
     simp only [BitVec.getLsbD_append, hi, decide_true, Bool.true_and]
     interval_cases i
     all_goals simp)

@[simp] theorem wordClass_joinX (c s : Bool) (cls : BitVec 5) (feat : BitVec 7) (fn : BitVec 4) (d : BitVec 6) (a : BitVec 6) (k : BitVec 1) (r : BitVec 1) : wordClass (joinX c s cls feat fn d a k r) = cls := by
  simp only [wordClass, joinX]
  (apply BitVec.eq_of_getLsbD_eq; intro i hi; rw [BitVec.getLsbD_extractLsb']
   change (_ && @BitVec.getLsbD (1 + 1 + 5 + 7 + 4 + 6 + 6 + 1 + 1) _ _) = _
   simp only [BitVec.getLsbD_append, hi, decide_true, Bool.true_and]
   interval_cases i
   all_goals simp)
@[simp] theorem wordC_joinX (c s : Bool) (cls : BitVec 5) (feat : BitVec 7) (fn : BitVec 4) (d : BitVec 6) (a : BitVec 6) (k : BitVec 1) (r : BitVec 1) : wordC (joinX c s cls feat fn d a k r) = c := by
  have h : (joinX c s cls feat fn d a k r).extractLsb' 31 1 = BitVec.ofBool c := by
    simp only [joinX]
    (apply BitVec.eq_of_getLsbD_eq; intro i hi; rw [BitVec.getLsbD_extractLsb']
     change (_ && @BitVec.getLsbD (1 + 1 + 5 + 7 + 4 + 6 + 6 + 1 + 1) _ _) = _
     simp only [BitVec.getLsbD_append, hi, decide_true, Bool.true_and]
     interval_cases i
     all_goals simp)
  simp only [wordC, h]
  cases c <;> rfl
@[simp] theorem wordS_joinX (c s : Bool) (cls : BitVec 5) (feat : BitVec 7) (fn : BitVec 4) (d : BitVec 6) (a : BitVec 6) (k : BitVec 1) (r : BitVec 1) : wordS (joinX c s cls feat fn d a k r) = s := by
  have h : (joinX c s cls feat fn d a k r).extractLsb' 30 1 = BitVec.ofBool s := by
    simp only [joinX]
    (apply BitVec.eq_of_getLsbD_eq; intro i hi; rw [BitVec.getLsbD_extractLsb']
     change (_ && @BitVec.getLsbD (1 + 1 + 5 + 7 + 4 + 6 + 6 + 1 + 1) _ _) = _
     simp only [BitVec.getLsbD_append, hi, decide_true, Bool.true_and]
     interval_cases i
     all_goals simp)
  simp only [wordS, h]
  cases s <;> rfl

/-- The words of a list of bytes made from words. -/
@[simp] theorem bytesWords_wordsBytes (ws : List Word) : bytesWords (wordsBytes ws) = some ws := by
  induction ws with
  | nil => rfl
  | cons w ws ih =>
    simp only [wordsBytes, bytesWords, ih, Option.some.injEq, List.cons.injEq, and_true]
    apply BitVec.eq_of_getLsbD_eq; intro i hi
    change @BitVec.getLsbD (8 + 8 + 8 + 8) _ _ = _
    simp only [BitVec.getLsbD_append, BitVec.getLsbD_extractLsb']
    interval_cases i <;> simp

theorem ModPfx.word_cls (m : ModPfx) : m.word.extractLsb' 25 5 = 30#5 := by
  obtain ⟨mv, ty, rnd, sat, sc⟩ := m
  simp only [ModPfx.word]
  (apply BitVec.eq_of_getLsbD_eq; intro i hi; rw [BitVec.getLsbD_extractLsb']
   change (_ && @BitVec.getLsbD (2 + 5 + 2 + (1 + 3) + (1 + 4) + 3 + 1 + (1 + 3) + 6) _ _) = _
   simp only [BitVec.getLsbD_append, hi, decide_true, Bool.true_and]
   interval_cases i
   all_goals simp)
theorem ModPfx.word_pk (m : ModPfx) : m.word.extractLsb' 23 2 = 0#2 := by
  obtain ⟨mv, ty, rnd, sat, sc⟩ := m
  simp only [ModPfx.word]
  (apply BitVec.eq_of_getLsbD_eq; intro i hi; rw [BitVec.getLsbD_extractLsb']
   change (_ && @BitVec.getLsbD (2 + 5 + 2 + (1 + 3) + (1 + 4) + 3 + 1 + (1 + 3) + 6) _ _) = _
   simp only [BitVec.getLsbD_append, hi, decide_true, Bool.true_and]
   interval_cases i
   all_goals simp)
theorem ModPfx.word_c (m : ModPfx) : m.word.extractLsb' 31 1 = 0#1 := by
  obtain ⟨mv, ty, rnd, sat, sc⟩ := m
  simp only [ModPfx.word]
  (apply BitVec.eq_of_getLsbD_eq; intro i hi; rw [BitVec.getLsbD_extractLsb']
   change (_ && @BitVec.getLsbD (2 + 5 + 2 + (1 + 3) + (1 + 4) + 3 + 1 + (1 + 3) + 6) _ _) = _
   simp only [BitVec.getLsbD_append, hi, decide_true, Bool.true_and]
   interval_cases i
   all_goals simp)
theorem ModPfx.word_s (m : ModPfx) : m.word.extractLsb' 30 1 = 0#1 := by
  obtain ⟨mv, ty, rnd, sat, sc⟩ := m
  simp only [ModPfx.word]
  (apply BitVec.eq_of_getLsbD_eq; intro i hi; rw [BitVec.getLsbD_extractLsb']
   change (_ && @BitVec.getLsbD (2 + 5 + 2 + (1 + 3) + (1 + 4) + 3 + 1 + (1 + 3) + 6) _ _) = _
   simp only [BitVec.getLsbD_append, hi, decide_true, Bool.true_and]
   interval_cases i
   all_goals simp)
theorem ModPfx.word_low (m : ModPfx) : m.word.extractLsb' 0 6 = 0#6 := by
  obtain ⟨mv, ty, rnd, sat, sc⟩ := m
  simp only [ModPfx.word]
  (apply BitVec.eq_of_getLsbD_eq; intro i hi; rw [BitVec.getLsbD_extractLsb']
   change (_ && @BitVec.getLsbD (2 + 5 + 2 + (1 + 3) + (1 + 4) + 3 + 1 + (1 + 3) + 6) _ _) = _
   simp only [BitVec.getLsbD_append, hi, decide_true, Bool.true_and]
   interval_cases i
   all_goals simp)
theorem ModPfx.word_rnd (m : ModPfx) : m.word.extractLsb' 11 3 = m.rnd := by
  obtain ⟨mv, ty, rnd, sat, sc⟩ := m
  simp only [ModPfx.word]
  (apply BitVec.eq_of_getLsbD_eq; intro i hi; rw [BitVec.getLsbD_extractLsb']
   change (_ && @BitVec.getLsbD (2 + 5 + 2 + (1 + 3) + (1 + 4) + 3 + 1 + (1 + 3) + 6) _ _) = _
   simp only [BitVec.getLsbD_append, hi, decide_true, Bool.true_and]
   interval_cases i
   all_goals simp)
theorem ModPfx.word_sat (m : ModPfx) : m.word.extractLsb' 10 1 = BitVec.ofBool m.sat := by
  obtain ⟨mv, ty, rnd, sat, sc⟩ := m
  simp only [ModPfx.word]
  (apply BitVec.eq_of_getLsbD_eq; intro i hi; rw [BitVec.getLsbD_extractLsb']
   change (_ && @BitVec.getLsbD (2 + 5 + 2 + (1 + 3) + (1 + 4) + 3 + 1 + (1 + 3) + 6) _ _) = _
   simp only [BitVec.getLsbD_append, hi, decide_true, Bool.true_and]
   interval_cases i
   all_goals simp)
theorem ModPfx.word_mvv (m : ModPfx) : m.word.extractLsb' 22 1 = BitVec.ofBool m.mv.isSome := by
  obtain ⟨mv, ty, rnd, sat, sc⟩ := m
  simp only [ModPfx.word]
  cases mv
  all_goals
    simp only [encField]
    (apply BitVec.eq_of_getLsbD_eq; intro i hi; rw [BitVec.getLsbD_extractLsb']
     change (_ && @BitVec.getLsbD (2 + 5 + 2 + (1 + 3) + (1 + 4) + 3 + 1 + (1 + 3) + 6) _ _) = _
     simp only [BitVec.getLsbD_append, hi, decide_true, Bool.true_and]
     interval_cases i
     all_goals simp)
theorem ModPfx.word_mv (m : ModPfx) : m.word.extractLsb' 19 3 = m.mv.getD 0#3 := by
  obtain ⟨mv, ty, rnd, sat, sc⟩ := m
  simp only [ModPfx.word]
  cases mv
  all_goals
    simp only [encField]
    (apply BitVec.eq_of_getLsbD_eq; intro i hi; rw [BitVec.getLsbD_extractLsb']
     change (_ && @BitVec.getLsbD (2 + 5 + 2 + (1 + 3) + (1 + 4) + 3 + 1 + (1 + 3) + 6) _ _) = _
     simp only [BitVec.getLsbD_append, hi, decide_true, Bool.true_and]
     interval_cases i
     all_goals simp)
theorem ModPfx.word_tyv (m : ModPfx) : m.word.extractLsb' 18 1 = BitVec.ofBool m.ty.isSome := by
  obtain ⟨mv, ty, rnd, sat, sc⟩ := m
  simp only [ModPfx.word]
  cases ty
  all_goals
    simp only [encField]
    (apply BitVec.eq_of_getLsbD_eq; intro i hi; rw [BitVec.getLsbD_extractLsb']
     change (_ && @BitVec.getLsbD (2 + 5 + 2 + (1 + 3) + (1 + 4) + 3 + 1 + (1 + 3) + 6) _ _) = _
     simp only [BitVec.getLsbD_append, hi, decide_true, Bool.true_and]
     interval_cases i
     all_goals simp)
theorem ModPfx.word_ty (m : ModPfx) : m.word.extractLsb' 14 4 = m.ty.getD 0#4 := by
  obtain ⟨mv, ty, rnd, sat, sc⟩ := m
  simp only [ModPfx.word]
  cases ty
  all_goals
    simp only [encField]
    (apply BitVec.eq_of_getLsbD_eq; intro i hi; rw [BitVec.getLsbD_extractLsb']
     change (_ && @BitVec.getLsbD (2 + 5 + 2 + (1 + 3) + (1 + 4) + 3 + 1 + (1 + 3) + 6) _ _) = _
     simp only [BitVec.getLsbD_append, hi, decide_true, Bool.true_and]
     interval_cases i
     all_goals simp)
theorem ModPfx.word_scv (m : ModPfx) : m.word.extractLsb' 9 1 = BitVec.ofBool m.sc.isSome := by
  obtain ⟨mv, ty, rnd, sat, sc⟩ := m
  simp only [ModPfx.word]
  cases sc
  all_goals
    simp only [encField]
    (apply BitVec.eq_of_getLsbD_eq; intro i hi; rw [BitVec.getLsbD_extractLsb']
     change (_ && @BitVec.getLsbD (2 + 5 + 2 + (1 + 3) + (1 + 4) + 3 + 1 + (1 + 3) + 6) _ _) = _
     simp only [BitVec.getLsbD_append, hi, decide_true, Bool.true_and]
     interval_cases i
     all_goals simp)
theorem ModPfx.word_sc (m : ModPfx) : m.word.extractLsb' 6 3 = m.sc.getD 0#3 := by
  obtain ⟨mv, ty, rnd, sat, sc⟩ := m
  simp only [ModPfx.word]
  cases sc
  all_goals
    simp only [encField]
    (apply BitVec.eq_of_getLsbD_eq; intro i hi; rw [BitVec.getLsbD_extractLsb']
     change (_ && @BitVec.getLsbD (2 + 5 + 2 + (1 + 3) + (1 + 4) + 3 + 1 + (1 + 3) + 6) _ _) = _
     simp only [BitVec.getLsbD_append, hi, decide_true, Bool.true_and]
     interval_cases i
     all_goals simp)
theorem immWord_cls (v : BitVec 23) : (immWord v).extractLsb' 25 5 = 30#5 := by
  simp only [immWord]
  (apply BitVec.eq_of_getLsbD_eq; intro i hi; rw [BitVec.getLsbD_extractLsb']
   change (_ && @BitVec.getLsbD (2 + 5 + 2 + 23) _ _) = _
   simp only [BitVec.getLsbD_append, hi, decide_true, Bool.true_and]
   interval_cases i
   all_goals simp)
theorem immWord_pk (v : BitVec 23) : (immWord v).extractLsb' 23 2 = 1#2 := by
  simp only [immWord]
  (apply BitVec.eq_of_getLsbD_eq; intro i hi; rw [BitVec.getLsbD_extractLsb']
   change (_ && @BitVec.getLsbD (2 + 5 + 2 + 23) _ _) = _
   simp only [BitVec.getLsbD_append, hi, decide_true, Bool.true_and]
   interval_cases i
   all_goals simp)
theorem immWord_c (v : BitVec 23) : (immWord v).extractLsb' 31 1 = 0#1 := by
  simp only [immWord]
  (apply BitVec.eq_of_getLsbD_eq; intro i hi; rw [BitVec.getLsbD_extractLsb']
   change (_ && @BitVec.getLsbD (2 + 5 + 2 + 23) _ _) = _
   simp only [BitVec.getLsbD_append, hi, decide_true, Bool.true_and]
   interval_cases i
   all_goals simp)
theorem immWord_s (v : BitVec 23) : (immWord v).extractLsb' 30 1 = 0#1 := by
  simp only [immWord]
  (apply BitVec.eq_of_getLsbD_eq; intro i hi; rw [BitVec.getLsbD_extractLsb']
   change (_ && @BitVec.getLsbD (2 + 5 + 2 + 23) _ _) = _
   simp only [BitVec.getLsbD_append, hi, decide_true, Bool.true_and]
   interval_cases i
   all_goals simp)
theorem immWord_v (v : BitVec 23) : (immWord v).extractLsb' 0 23 = v := by
  simp only [immWord]
  (apply BitVec.eq_of_getLsbD_eq; intro i hi; rw [BitVec.getLsbD_extractLsb']
   change (_ && @BitVec.getLsbD (2 + 5 + 2 + 23) _ _) = _
   simp only [BitVec.getLsbD_append, hi, decide_true, Bool.true_and]
   interval_cases i
   all_goals simp)

/-- What a valid bit and its field say. -/
theorem validField_some {n : Nat} (x : Option (BitVec n)) :
    validField (BitVec.ofBool x.isSome) (x.getD 0#n) = some x := by
  cases x <;> simp [validField]

@[simp] theorem isPfx_mod (m : ModPfx) : isPfx m.word = true := by simp [isPfx, wordClass, m.word_cls]
@[simp] theorem isPfx_imm (v : BitVec 23) : isPfx (immWord v) = true := by simp [isPfx, wordClass, immWord_cls]
@[simp] theorem wordC_mod (m : ModPfx) : wordC m.word = false := by simp [wordC, m.word_c]
@[simp] theorem wordS_mod (m : ModPfx) : wordS m.word = false := by simp [wordS, m.word_s]
@[simp] theorem wordC_imm (v : BitVec 23) : wordC (immWord v) = false := by simp [wordC, immWord_c]
@[simp] theorem wordS_imm (v : BitVec 23) : wordS (immWord v) = false := by simp [wordS, immWord_s]

@[simp] theorem decPfx_mod (m : ModPfx) : decPfx m.word = some (.mod m) := by
  simp only [decPfx, m.word_pk, m.word_low, m.word_mvv, m.word_mv, m.word_tyv, m.word_ty, m.word_scv, m.word_sc, m.word_rnd,
    m.word_sat, validField_some]
  obtain ⟨mv, ty, rnd, sat, sc⟩ := m
  cases sat <;> rfl

@[simp] theorem decPfx_imm (v : BitVec 23) : decPfx (immWord v) = some (.imm v) := by
  simp [decPfx, immWord_pk, immWord_v]

/-- A header's prefixes and then a target word decode as the target with the header's fields. -/
theorem decodeWords_words (h : Hd) (w : Word) : decodeWords none none (h.words ++ [w]) = decTarget h.md h.im w := by
  obtain ⟨c, s, md, im⟩ := h
  cases md <;> cases im <;> simp [Hd.words, decodeWords]

end Sys2Proof
end

