-- ==== Sys2Proof/Laws/State.lean ====
section
/-! SUPPORT. What each update of the state leaves alone: one lemma for each field of each update, true by definition. -/

namespace Sys2Proof.Machine

/-! ### State.updBlock -/

@[simp] theorem State.updBlock_clock (s : State) (b : Nat) (f : Block → Block) : (s.updBlock b f).clock = s.clock := rfl
@[simp] theorem State.updBlock_mem (s : State) (b : Nat) (f : Block → Block) : (s.updBlock b f).mem = s.mem := rfl
@[simp] theorem State.updBlock_ctxs (s : State) (b : Nat) (f : Block → Block) : (s.updBlock b f).ctxs = s.ctxs := rfl
@[simp] theorem State.updBlock_dispatches (s : State) (b : Nat) (f : Block → Block) : (s.updBlock b f).dispatches = s.dispatches := rfl
@[simp] theorem State.updBlock_trees (s : State) (b : Nat) (f : Block → Block) : (s.updBlock b f).trees = s.trees := rfl
@[simp] theorem State.updBlock_copies (s : State) (b : Nat) (f : Block → Block) : (s.updBlock b f).copies = s.copies := rfl
@[simp] theorem State.updBlock_ninsts (s : State) (b : Nat) (f : Block → Block) : (s.updBlock b f).ninsts = s.ninsts := rfl
@[simp] theorem State.updBlock_nmsgs (s : State) (b : Nat) (f : Block → Block) : (s.updBlock b f).nmsgs = s.nmsgs := rfl
@[simp] theorem State.updBlock_steals (s : State) (b : Nat) (f : Block → Block) : (s.updBlock b f).steals = s.steals := rfl
@[simp] theorem State.updBlock_victims (s : State) (b : Nat) (f : Block → Block) : (s.updBlock b f).victims = s.victims := rfl
@[simp] theorem State.updBlock_dies (s : State) (b : Nat) (f : Block → Block) : (s.updBlock b f).dies = s.dies := rfl
@[simp] theorem State.updBlock_cores (s : State) (b : Nat) (f : Block → Block) : (s.updBlock b f).cores = s.cores := rfl
@[simp] theorem State.updBlock_parts (s : State) (b : Nat) (f : Block → Block) : (s.updBlock b f).parts = s.parts := rfl
@[simp] theorem State.updBlock_dusked (s : State) (b : Nat) (f : Block → Block) : (s.updBlock b f).dusked = s.dusked := rfl
@[simp] theorem State.updBlock_movers (s : State) (b : Nat) (f : Block → Block) : (s.updBlock b f).movers = s.movers := rfl
@[simp] theorem State.updBlock_moving (s : State) (b : Nat) (f : Block → Block) : (s.updBlock b f).moving = s.moving := rfl
@[simp] theorem State.updBlock_due (s : State) (b : Nat) (f : Block → Block) : (s.updBlock b f).due = s.due := rfl
@[simp] theorem State.updBlock_apart (s : State) (b : Nat) (f : Block → Block) : (s.updBlock b f).apart = s.apart := rfl
@[simp] theorem State.updBlock_tlb1 (s : State) (b : Nat) (f : Block → Block) : (s.updBlock b f).tlb1 = s.tlb1 := rfl
@[simp] theorem State.updBlock_tlb2 (s : State) (b : Nat) (f : Block → Block) : (s.updBlock b f).tlb2 = s.tlb2 := rfl
@[simp] theorem State.updBlock_l1 (s : State) (b : Nat) (f : Block → Block) : (s.updBlock b f).l1 = s.l1 := rfl
@[simp] theorem State.updBlock_l2 (s : State) (b : Nat) (f : Block → Block) : (s.updBlock b f).l2 = s.l2 := rfl
@[simp] theorem State.updBlock_hbmTags (s : State) (b : Nat) (f : Block → Block) : (s.updBlock b f).hbmTags = s.hbmTags := rfl
@[simp] theorem State.updBlock_poison (s : State) (b : Nat) (f : Block → Block) : (s.updBlock b f).poison = s.poison := rfl
@[simp] theorem State.updBlock_hurt (s : State) (b : Nat) (f : Block → Block) : (s.updBlock b f).hurt = s.hurt := rfl
@[simp] theorem State.updBlock_migrations (s : State) (b : Nat) (f : Block → Block) : (s.updBlock b f).migrations = s.migrations := rfl
@[simp] theorem State.updBlock_routes (s : State) (b : Nat) (f : Block → Block) : (s.updBlock b f).routes = s.routes := rfl
@[simp] theorem State.updBlock_routeHolds (s : State) (b : Nat) (f : Block → Block) : (s.updBlock b f).routeHolds = s.routeHolds := rfl
@[simp] theorem State.updBlock_unitQ (s : State) (b : Nat) (f : Block → Block) : (s.updBlock b f).unitQ = s.unitQ := rfl
@[simp] theorem State.updBlock_sysid (s : State) (b : Nat) (f : Block → Block) : (s.updBlock b f).sysid = s.sysid := rfl
@[simp] theorem State.updBlock_pod (s : State) (b : Nat) (f : Block → Block) : (s.updBlock b f).pod = s.pod := rfl
@[simp] theorem State.updBlock_leafmap (s : State) (b : Nat) (f : Block → Block) : (s.updBlock b f).leafmap = s.leafmap := rfl
@[simp] theorem State.updBlock_podmap (s : State) (b : Nat) (f : Block → Block) : (s.updBlock b f).podmap = s.podmap := rfl
@[simp] theorem State.updBlock_offer0 (s : State) (b : Nat) (f : Block → Block) : (s.updBlock b f).offer0 = s.offer0 := rfl
@[simp] theorem State.updBlock_offer1 (s : State) (b : Nat) (f : Block → Block) : (s.updBlock b f).offer1 = s.offer1 := rfl
@[simp] theorem State.updBlock_offer2 (s : State) (b : Nat) (f : Block → Block) : (s.updBlock b f).offer2 = s.offer2 := rfl
@[simp] theorem State.updBlock_offer3 (s : State) (b : Nat) (f : Block → Block) : (s.updBlock b f).offer3 = s.offer3 := rfl
@[simp] theorem State.updBlock_termq (s : State) (b : Nat) (f : Block → Block) : (s.updBlock b f).termq = s.termq := rfl
@[simp] theorem State.updBlock_termb (s : State) (b : Nat) (f : Block → Block) : (s.updBlock b f).termb = s.termb := rfl
@[simp] theorem State.updBlock_unacked (s : State) (b : Nat) (f : Block → Block) : (s.updBlock b f).unacked = s.unacked := rfl
@[simp] theorem State.updBlock_lost (s : State) (b : Nat) (f : Block → Block) : (s.updBlock b f).lost = s.lost := rfl
@[simp] theorem State.updBlock_hint (s : State) (b : Nat) (f : Block → Block) : (s.updBlock b f).hint = s.hint := rfl
@[simp] theorem State.updBlock_hostIrq (s : State) (b : Nat) (f : Block → Block) : (s.updBlock b f).hostIrq = s.hostIrq := rfl
@[simp] theorem State.updBlock_invHost (s : State) (b : Nat) (f : Block → Block) : (s.updBlock b f).invHost = s.invHost := rfl
@[simp] theorem State.updBlock_invDie0 (s : State) (b : Nat) (f : Block → Block) : (s.updBlock b f).invDie0 = s.invDie0 := rfl
@[simp] theorem State.updBlock_signing (s : State) (b : Nat) (f : Block → Block) : (s.updBlock b f).signing = s.signing := rfl
@[simp] theorem State.updBlock_dawn (s : State) (b : Nat) (f : Block → Block) : (s.updBlock b f).dawn = s.dawn := rfl
@[simp] theorem State.updBlock_hostReply (s : State) (b : Nat) (f : Block → Block) : (s.updBlock b f).hostReply = s.hostReply := rfl
@[simp] theorem State.updBlock_i3cReply (s : State) (b : Nat) (f : Block → Block) : (s.updBlock b f).i3cReply = s.i3cReply := rfl
@[simp] theorem State.updBlock_i3cCount (s : State) (b : Nat) (f : Block → Block) : (s.updBlock b f).i3cCount = s.i3cCount := rfl
@[simp] theorem State.updBlock_cur (s : State) (b : Nat) (f : Block → Block) : (s.updBlock b f).cur = s.cur := rfl
@[simp] theorem State.updBlock_input (s : State) (b : Nat) (f : Block → Block) : (s.updBlock b f).input = s.input := rfl
@[simp] theorem State.updBlock_schedule (s : State) (b : Nat) (f : Block → Block) : (s.updBlock b f).schedule = s.schedule := rfl
@[simp] theorem State.updBlock_turns (s : State) (b : Nat) (f : Block → Block) : (s.updBlock b f).turns = s.turns := rfl
@[simp] theorem State.updBlock_free (s : State) (b : Nat) (f : Block → Block) : (s.updBlock b f).free = s.free := rfl
@[simp] theorem State.updBlock_nextId (s : State) (b : Nat) (f : Block → Block) : (s.updBlock b f).nextId = s.nextId := rfl

/-! ### State.updTeam -/

@[simp] theorem State.updTeam_clock (s : State) (r : TRef) (f : Team → Team) : (s.updTeam r f).clock = s.clock := rfl
@[simp] theorem State.updTeam_mem (s : State) (r : TRef) (f : Team → Team) : (s.updTeam r f).mem = s.mem := rfl
@[simp] theorem State.updTeam_ctxs (s : State) (r : TRef) (f : Team → Team) : (s.updTeam r f).ctxs = s.ctxs := rfl
@[simp] theorem State.updTeam_dispatches (s : State) (r : TRef) (f : Team → Team) : (s.updTeam r f).dispatches = s.dispatches := rfl
@[simp] theorem State.updTeam_trees (s : State) (r : TRef) (f : Team → Team) : (s.updTeam r f).trees = s.trees := rfl
@[simp] theorem State.updTeam_copies (s : State) (r : TRef) (f : Team → Team) : (s.updTeam r f).copies = s.copies := rfl
@[simp] theorem State.updTeam_ninsts (s : State) (r : TRef) (f : Team → Team) : (s.updTeam r f).ninsts = s.ninsts := rfl
@[simp] theorem State.updTeam_nmsgs (s : State) (r : TRef) (f : Team → Team) : (s.updTeam r f).nmsgs = s.nmsgs := rfl
@[simp] theorem State.updTeam_steals (s : State) (r : TRef) (f : Team → Team) : (s.updTeam r f).steals = s.steals := rfl
@[simp] theorem State.updTeam_victims (s : State) (r : TRef) (f : Team → Team) : (s.updTeam r f).victims = s.victims := rfl
@[simp] theorem State.updTeam_dies (s : State) (r : TRef) (f : Team → Team) : (s.updTeam r f).dies = s.dies := rfl
@[simp] theorem State.updTeam_cores (s : State) (r : TRef) (f : Team → Team) : (s.updTeam r f).cores = s.cores := rfl
@[simp] theorem State.updTeam_parts (s : State) (r : TRef) (f : Team → Team) : (s.updTeam r f).parts = s.parts := rfl
@[simp] theorem State.updTeam_dusked (s : State) (r : TRef) (f : Team → Team) : (s.updTeam r f).dusked = s.dusked := rfl
@[simp] theorem State.updTeam_movers (s : State) (r : TRef) (f : Team → Team) : (s.updTeam r f).movers = s.movers := rfl
@[simp] theorem State.updTeam_moving (s : State) (r : TRef) (f : Team → Team) : (s.updTeam r f).moving = s.moving := rfl
@[simp] theorem State.updTeam_due (s : State) (r : TRef) (f : Team → Team) : (s.updTeam r f).due = s.due := rfl
@[simp] theorem State.updTeam_apart (s : State) (r : TRef) (f : Team → Team) : (s.updTeam r f).apart = s.apart := rfl
@[simp] theorem State.updTeam_tlb1 (s : State) (r : TRef) (f : Team → Team) : (s.updTeam r f).tlb1 = s.tlb1 := rfl
@[simp] theorem State.updTeam_tlb2 (s : State) (r : TRef) (f : Team → Team) : (s.updTeam r f).tlb2 = s.tlb2 := rfl
@[simp] theorem State.updTeam_l1 (s : State) (r : TRef) (f : Team → Team) : (s.updTeam r f).l1 = s.l1 := rfl
@[simp] theorem State.updTeam_l2 (s : State) (r : TRef) (f : Team → Team) : (s.updTeam r f).l2 = s.l2 := rfl
@[simp] theorem State.updTeam_hbmTags (s : State) (r : TRef) (f : Team → Team) : (s.updTeam r f).hbmTags = s.hbmTags := rfl
@[simp] theorem State.updTeam_poison (s : State) (r : TRef) (f : Team → Team) : (s.updTeam r f).poison = s.poison := rfl
@[simp] theorem State.updTeam_hurt (s : State) (r : TRef) (f : Team → Team) : (s.updTeam r f).hurt = s.hurt := rfl
@[simp] theorem State.updTeam_migrations (s : State) (r : TRef) (f : Team → Team) : (s.updTeam r f).migrations = s.migrations := rfl
@[simp] theorem State.updTeam_routes (s : State) (r : TRef) (f : Team → Team) : (s.updTeam r f).routes = s.routes := rfl
@[simp] theorem State.updTeam_routeHolds (s : State) (r : TRef) (f : Team → Team) : (s.updTeam r f).routeHolds = s.routeHolds := rfl
@[simp] theorem State.updTeam_unitQ (s : State) (r : TRef) (f : Team → Team) : (s.updTeam r f).unitQ = s.unitQ := rfl
@[simp] theorem State.updTeam_sysid (s : State) (r : TRef) (f : Team → Team) : (s.updTeam r f).sysid = s.sysid := rfl
@[simp] theorem State.updTeam_pod (s : State) (r : TRef) (f : Team → Team) : (s.updTeam r f).pod = s.pod := rfl
@[simp] theorem State.updTeam_leafmap (s : State) (r : TRef) (f : Team → Team) : (s.updTeam r f).leafmap = s.leafmap := rfl
@[simp] theorem State.updTeam_podmap (s : State) (r : TRef) (f : Team → Team) : (s.updTeam r f).podmap = s.podmap := rfl
@[simp] theorem State.updTeam_offer0 (s : State) (r : TRef) (f : Team → Team) : (s.updTeam r f).offer0 = s.offer0 := rfl
@[simp] theorem State.updTeam_offer1 (s : State) (r : TRef) (f : Team → Team) : (s.updTeam r f).offer1 = s.offer1 := rfl
@[simp] theorem State.updTeam_offer2 (s : State) (r : TRef) (f : Team → Team) : (s.updTeam r f).offer2 = s.offer2 := rfl
@[simp] theorem State.updTeam_offer3 (s : State) (r : TRef) (f : Team → Team) : (s.updTeam r f).offer3 = s.offer3 := rfl
@[simp] theorem State.updTeam_termq (s : State) (r : TRef) (f : Team → Team) : (s.updTeam r f).termq = s.termq := rfl
@[simp] theorem State.updTeam_termb (s : State) (r : TRef) (f : Team → Team) : (s.updTeam r f).termb = s.termb := rfl
@[simp] theorem State.updTeam_unacked (s : State) (r : TRef) (f : Team → Team) : (s.updTeam r f).unacked = s.unacked := rfl
@[simp] theorem State.updTeam_lost (s : State) (r : TRef) (f : Team → Team) : (s.updTeam r f).lost = s.lost := rfl
@[simp] theorem State.updTeam_hint (s : State) (r : TRef) (f : Team → Team) : (s.updTeam r f).hint = s.hint := rfl
@[simp] theorem State.updTeam_hostIrq (s : State) (r : TRef) (f : Team → Team) : (s.updTeam r f).hostIrq = s.hostIrq := rfl
@[simp] theorem State.updTeam_invHost (s : State) (r : TRef) (f : Team → Team) : (s.updTeam r f).invHost = s.invHost := rfl
@[simp] theorem State.updTeam_invDie0 (s : State) (r : TRef) (f : Team → Team) : (s.updTeam r f).invDie0 = s.invDie0 := rfl
@[simp] theorem State.updTeam_signing (s : State) (r : TRef) (f : Team → Team) : (s.updTeam r f).signing = s.signing := rfl
@[simp] theorem State.updTeam_dawn (s : State) (r : TRef) (f : Team → Team) : (s.updTeam r f).dawn = s.dawn := rfl
@[simp] theorem State.updTeam_hostReply (s : State) (r : TRef) (f : Team → Team) : (s.updTeam r f).hostReply = s.hostReply := rfl
@[simp] theorem State.updTeam_i3cReply (s : State) (r : TRef) (f : Team → Team) : (s.updTeam r f).i3cReply = s.i3cReply := rfl
@[simp] theorem State.updTeam_i3cCount (s : State) (r : TRef) (f : Team → Team) : (s.updTeam r f).i3cCount = s.i3cCount := rfl
@[simp] theorem State.updTeam_cur (s : State) (r : TRef) (f : Team → Team) : (s.updTeam r f).cur = s.cur := rfl
@[simp] theorem State.updTeam_input (s : State) (r : TRef) (f : Team → Team) : (s.updTeam r f).input = s.input := rfl
@[simp] theorem State.updTeam_schedule (s : State) (r : TRef) (f : Team → Team) : (s.updTeam r f).schedule = s.schedule := rfl
@[simp] theorem State.updTeam_turns (s : State) (r : TRef) (f : Team → Team) : (s.updTeam r f).turns = s.turns := rfl
@[simp] theorem State.updTeam_free (s : State) (r : TRef) (f : Team → Team) : (s.updTeam r f).free = s.free := rfl
@[simp] theorem State.updTeam_nextId (s : State) (r : TRef) (f : Team → Team) : (s.updTeam r f).nextId = s.nextId := rfl

/-! ### State.updCtx -/

@[simp] theorem State.updCtx_clock (s : State) (t : BitVec 12) (f : Ctx → Ctx) : (s.updCtx t f).clock = s.clock := rfl
@[simp] theorem State.updCtx_mem (s : State) (t : BitVec 12) (f : Ctx → Ctx) : (s.updCtx t f).mem = s.mem := rfl
@[simp] theorem State.updCtx_blocks (s : State) (t : BitVec 12) (f : Ctx → Ctx) : (s.updCtx t f).blocks = s.blocks := rfl
@[simp] theorem State.updCtx_dispatches (s : State) (t : BitVec 12) (f : Ctx → Ctx) : (s.updCtx t f).dispatches = s.dispatches := rfl
@[simp] theorem State.updCtx_trees (s : State) (t : BitVec 12) (f : Ctx → Ctx) : (s.updCtx t f).trees = s.trees := rfl
@[simp] theorem State.updCtx_copies (s : State) (t : BitVec 12) (f : Ctx → Ctx) : (s.updCtx t f).copies = s.copies := rfl
@[simp] theorem State.updCtx_ninsts (s : State) (t : BitVec 12) (f : Ctx → Ctx) : (s.updCtx t f).ninsts = s.ninsts := rfl
@[simp] theorem State.updCtx_nmsgs (s : State) (t : BitVec 12) (f : Ctx → Ctx) : (s.updCtx t f).nmsgs = s.nmsgs := rfl
@[simp] theorem State.updCtx_steals (s : State) (t : BitVec 12) (f : Ctx → Ctx) : (s.updCtx t f).steals = s.steals := rfl
@[simp] theorem State.updCtx_victims (s : State) (t : BitVec 12) (f : Ctx → Ctx) : (s.updCtx t f).victims = s.victims := rfl
@[simp] theorem State.updCtx_dies (s : State) (t : BitVec 12) (f : Ctx → Ctx) : (s.updCtx t f).dies = s.dies := rfl
@[simp] theorem State.updCtx_cores (s : State) (t : BitVec 12) (f : Ctx → Ctx) : (s.updCtx t f).cores = s.cores := rfl
@[simp] theorem State.updCtx_parts (s : State) (t : BitVec 12) (f : Ctx → Ctx) : (s.updCtx t f).parts = s.parts := rfl
@[simp] theorem State.updCtx_dusked (s : State) (t : BitVec 12) (f : Ctx → Ctx) : (s.updCtx t f).dusked = s.dusked := rfl
@[simp] theorem State.updCtx_movers (s : State) (t : BitVec 12) (f : Ctx → Ctx) : (s.updCtx t f).movers = s.movers := rfl
@[simp] theorem State.updCtx_moving (s : State) (t : BitVec 12) (f : Ctx → Ctx) : (s.updCtx t f).moving = s.moving := rfl
@[simp] theorem State.updCtx_due (s : State) (t : BitVec 12) (f : Ctx → Ctx) : (s.updCtx t f).due = s.due := rfl
@[simp] theorem State.updCtx_apart (s : State) (t : BitVec 12) (f : Ctx → Ctx) : (s.updCtx t f).apart = s.apart := rfl
@[simp] theorem State.updCtx_tlb1 (s : State) (t : BitVec 12) (f : Ctx → Ctx) : (s.updCtx t f).tlb1 = s.tlb1 := rfl
@[simp] theorem State.updCtx_tlb2 (s : State) (t : BitVec 12) (f : Ctx → Ctx) : (s.updCtx t f).tlb2 = s.tlb2 := rfl
@[simp] theorem State.updCtx_l1 (s : State) (t : BitVec 12) (f : Ctx → Ctx) : (s.updCtx t f).l1 = s.l1 := rfl
@[simp] theorem State.updCtx_l2 (s : State) (t : BitVec 12) (f : Ctx → Ctx) : (s.updCtx t f).l2 = s.l2 := rfl
@[simp] theorem State.updCtx_hbmTags (s : State) (t : BitVec 12) (f : Ctx → Ctx) : (s.updCtx t f).hbmTags = s.hbmTags := rfl
@[simp] theorem State.updCtx_poison (s : State) (t : BitVec 12) (f : Ctx → Ctx) : (s.updCtx t f).poison = s.poison := rfl
@[simp] theorem State.updCtx_hurt (s : State) (t : BitVec 12) (f : Ctx → Ctx) : (s.updCtx t f).hurt = s.hurt := rfl
@[simp] theorem State.updCtx_migrations (s : State) (t : BitVec 12) (f : Ctx → Ctx) : (s.updCtx t f).migrations = s.migrations := rfl
@[simp] theorem State.updCtx_routes (s : State) (t : BitVec 12) (f : Ctx → Ctx) : (s.updCtx t f).routes = s.routes := rfl
@[simp] theorem State.updCtx_routeHolds (s : State) (t : BitVec 12) (f : Ctx → Ctx) : (s.updCtx t f).routeHolds = s.routeHolds := rfl
@[simp] theorem State.updCtx_unitQ (s : State) (t : BitVec 12) (f : Ctx → Ctx) : (s.updCtx t f).unitQ = s.unitQ := rfl
@[simp] theorem State.updCtx_sysid (s : State) (t : BitVec 12) (f : Ctx → Ctx) : (s.updCtx t f).sysid = s.sysid := rfl
@[simp] theorem State.updCtx_pod (s : State) (t : BitVec 12) (f : Ctx → Ctx) : (s.updCtx t f).pod = s.pod := rfl
@[simp] theorem State.updCtx_leafmap (s : State) (t : BitVec 12) (f : Ctx → Ctx) : (s.updCtx t f).leafmap = s.leafmap := rfl
@[simp] theorem State.updCtx_podmap (s : State) (t : BitVec 12) (f : Ctx → Ctx) : (s.updCtx t f).podmap = s.podmap := rfl
@[simp] theorem State.updCtx_offer0 (s : State) (t : BitVec 12) (f : Ctx → Ctx) : (s.updCtx t f).offer0 = s.offer0 := rfl
@[simp] theorem State.updCtx_offer1 (s : State) (t : BitVec 12) (f : Ctx → Ctx) : (s.updCtx t f).offer1 = s.offer1 := rfl
@[simp] theorem State.updCtx_offer2 (s : State) (t : BitVec 12) (f : Ctx → Ctx) : (s.updCtx t f).offer2 = s.offer2 := rfl
@[simp] theorem State.updCtx_offer3 (s : State) (t : BitVec 12) (f : Ctx → Ctx) : (s.updCtx t f).offer3 = s.offer3 := rfl
@[simp] theorem State.updCtx_termq (s : State) (t : BitVec 12) (f : Ctx → Ctx) : (s.updCtx t f).termq = s.termq := rfl
@[simp] theorem State.updCtx_termb (s : State) (t : BitVec 12) (f : Ctx → Ctx) : (s.updCtx t f).termb = s.termb := rfl
@[simp] theorem State.updCtx_unacked (s : State) (t : BitVec 12) (f : Ctx → Ctx) : (s.updCtx t f).unacked = s.unacked := rfl
@[simp] theorem State.updCtx_lost (s : State) (t : BitVec 12) (f : Ctx → Ctx) : (s.updCtx t f).lost = s.lost := rfl
@[simp] theorem State.updCtx_hint (s : State) (t : BitVec 12) (f : Ctx → Ctx) : (s.updCtx t f).hint = s.hint := rfl
@[simp] theorem State.updCtx_hostIrq (s : State) (t : BitVec 12) (f : Ctx → Ctx) : (s.updCtx t f).hostIrq = s.hostIrq := rfl
@[simp] theorem State.updCtx_invHost (s : State) (t : BitVec 12) (f : Ctx → Ctx) : (s.updCtx t f).invHost = s.invHost := rfl
@[simp] theorem State.updCtx_invDie0 (s : State) (t : BitVec 12) (f : Ctx → Ctx) : (s.updCtx t f).invDie0 = s.invDie0 := rfl
@[simp] theorem State.updCtx_signing (s : State) (t : BitVec 12) (f : Ctx → Ctx) : (s.updCtx t f).signing = s.signing := rfl
@[simp] theorem State.updCtx_dawn (s : State) (t : BitVec 12) (f : Ctx → Ctx) : (s.updCtx t f).dawn = s.dawn := rfl
@[simp] theorem State.updCtx_hostReply (s : State) (t : BitVec 12) (f : Ctx → Ctx) : (s.updCtx t f).hostReply = s.hostReply := rfl
@[simp] theorem State.updCtx_i3cReply (s : State) (t : BitVec 12) (f : Ctx → Ctx) : (s.updCtx t f).i3cReply = s.i3cReply := rfl
@[simp] theorem State.updCtx_i3cCount (s : State) (t : BitVec 12) (f : Ctx → Ctx) : (s.updCtx t f).i3cCount = s.i3cCount := rfl
@[simp] theorem State.updCtx_cur (s : State) (t : BitVec 12) (f : Ctx → Ctx) : (s.updCtx t f).cur = s.cur := rfl
@[simp] theorem State.updCtx_input (s : State) (t : BitVec 12) (f : Ctx → Ctx) : (s.updCtx t f).input = s.input := rfl
@[simp] theorem State.updCtx_schedule (s : State) (t : BitVec 12) (f : Ctx → Ctx) : (s.updCtx t f).schedule = s.schedule := rfl
@[simp] theorem State.updCtx_turns (s : State) (t : BitVec 12) (f : Ctx → Ctx) : (s.updCtx t f).turns = s.turns := rfl
@[simp] theorem State.updCtx_free (s : State) (t : BitVec 12) (f : Ctx → Ctx) : (s.updCtx t f).free = s.free := rfl
@[simp] theorem State.updCtx_nextId (s : State) (t : BitVec 12) (f : Ctx → Ctx) : (s.updCtx t f).nextId = s.nextId := rfl

/-! ### State.updDie -/

@[simp] theorem State.updDie_clock (s : State) (e : Nat) (f : Die → Die) : (s.updDie e f).clock = s.clock := rfl
@[simp] theorem State.updDie_mem (s : State) (e : Nat) (f : Die → Die) : (s.updDie e f).mem = s.mem := rfl
@[simp] theorem State.updDie_ctxs (s : State) (e : Nat) (f : Die → Die) : (s.updDie e f).ctxs = s.ctxs := rfl
@[simp] theorem State.updDie_blocks (s : State) (e : Nat) (f : Die → Die) : (s.updDie e f).blocks = s.blocks := rfl
@[simp] theorem State.updDie_dispatches (s : State) (e : Nat) (f : Die → Die) : (s.updDie e f).dispatches = s.dispatches := rfl
@[simp] theorem State.updDie_trees (s : State) (e : Nat) (f : Die → Die) : (s.updDie e f).trees = s.trees := rfl
@[simp] theorem State.updDie_copies (s : State) (e : Nat) (f : Die → Die) : (s.updDie e f).copies = s.copies := rfl
@[simp] theorem State.updDie_ninsts (s : State) (e : Nat) (f : Die → Die) : (s.updDie e f).ninsts = s.ninsts := rfl
@[simp] theorem State.updDie_nmsgs (s : State) (e : Nat) (f : Die → Die) : (s.updDie e f).nmsgs = s.nmsgs := rfl
@[simp] theorem State.updDie_steals (s : State) (e : Nat) (f : Die → Die) : (s.updDie e f).steals = s.steals := rfl
@[simp] theorem State.updDie_victims (s : State) (e : Nat) (f : Die → Die) : (s.updDie e f).victims = s.victims := rfl
@[simp] theorem State.updDie_cores (s : State) (e : Nat) (f : Die → Die) : (s.updDie e f).cores = s.cores := rfl
@[simp] theorem State.updDie_parts (s : State) (e : Nat) (f : Die → Die) : (s.updDie e f).parts = s.parts := rfl
@[simp] theorem State.updDie_dusked (s : State) (e : Nat) (f : Die → Die) : (s.updDie e f).dusked = s.dusked := rfl
@[simp] theorem State.updDie_movers (s : State) (e : Nat) (f : Die → Die) : (s.updDie e f).movers = s.movers := rfl
@[simp] theorem State.updDie_moving (s : State) (e : Nat) (f : Die → Die) : (s.updDie e f).moving = s.moving := rfl
@[simp] theorem State.updDie_due (s : State) (e : Nat) (f : Die → Die) : (s.updDie e f).due = s.due := rfl
@[simp] theorem State.updDie_apart (s : State) (e : Nat) (f : Die → Die) : (s.updDie e f).apart = s.apart := rfl
@[simp] theorem State.updDie_tlb1 (s : State) (e : Nat) (f : Die → Die) : (s.updDie e f).tlb1 = s.tlb1 := rfl
@[simp] theorem State.updDie_tlb2 (s : State) (e : Nat) (f : Die → Die) : (s.updDie e f).tlb2 = s.tlb2 := rfl
@[simp] theorem State.updDie_l1 (s : State) (e : Nat) (f : Die → Die) : (s.updDie e f).l1 = s.l1 := rfl
@[simp] theorem State.updDie_l2 (s : State) (e : Nat) (f : Die → Die) : (s.updDie e f).l2 = s.l2 := rfl
@[simp] theorem State.updDie_hbmTags (s : State) (e : Nat) (f : Die → Die) : (s.updDie e f).hbmTags = s.hbmTags := rfl
@[simp] theorem State.updDie_poison (s : State) (e : Nat) (f : Die → Die) : (s.updDie e f).poison = s.poison := rfl
@[simp] theorem State.updDie_hurt (s : State) (e : Nat) (f : Die → Die) : (s.updDie e f).hurt = s.hurt := rfl
@[simp] theorem State.updDie_migrations (s : State) (e : Nat) (f : Die → Die) : (s.updDie e f).migrations = s.migrations := rfl
@[simp] theorem State.updDie_routes (s : State) (e : Nat) (f : Die → Die) : (s.updDie e f).routes = s.routes := rfl
@[simp] theorem State.updDie_routeHolds (s : State) (e : Nat) (f : Die → Die) : (s.updDie e f).routeHolds = s.routeHolds := rfl
@[simp] theorem State.updDie_unitQ (s : State) (e : Nat) (f : Die → Die) : (s.updDie e f).unitQ = s.unitQ := rfl
@[simp] theorem State.updDie_sysid (s : State) (e : Nat) (f : Die → Die) : (s.updDie e f).sysid = s.sysid := rfl
@[simp] theorem State.updDie_pod (s : State) (e : Nat) (f : Die → Die) : (s.updDie e f).pod = s.pod := rfl
@[simp] theorem State.updDie_leafmap (s : State) (e : Nat) (f : Die → Die) : (s.updDie e f).leafmap = s.leafmap := rfl
@[simp] theorem State.updDie_podmap (s : State) (e : Nat) (f : Die → Die) : (s.updDie e f).podmap = s.podmap := rfl
@[simp] theorem State.updDie_offer0 (s : State) (e : Nat) (f : Die → Die) : (s.updDie e f).offer0 = s.offer0 := rfl
@[simp] theorem State.updDie_offer1 (s : State) (e : Nat) (f : Die → Die) : (s.updDie e f).offer1 = s.offer1 := rfl
@[simp] theorem State.updDie_offer2 (s : State) (e : Nat) (f : Die → Die) : (s.updDie e f).offer2 = s.offer2 := rfl
@[simp] theorem State.updDie_offer3 (s : State) (e : Nat) (f : Die → Die) : (s.updDie e f).offer3 = s.offer3 := rfl
@[simp] theorem State.updDie_termq (s : State) (e : Nat) (f : Die → Die) : (s.updDie e f).termq = s.termq := rfl
@[simp] theorem State.updDie_termb (s : State) (e : Nat) (f : Die → Die) : (s.updDie e f).termb = s.termb := rfl
@[simp] theorem State.updDie_unacked (s : State) (e : Nat) (f : Die → Die) : (s.updDie e f).unacked = s.unacked := rfl
@[simp] theorem State.updDie_lost (s : State) (e : Nat) (f : Die → Die) : (s.updDie e f).lost = s.lost := rfl
@[simp] theorem State.updDie_hint (s : State) (e : Nat) (f : Die → Die) : (s.updDie e f).hint = s.hint := rfl
@[simp] theorem State.updDie_hostIrq (s : State) (e : Nat) (f : Die → Die) : (s.updDie e f).hostIrq = s.hostIrq := rfl
@[simp] theorem State.updDie_invHost (s : State) (e : Nat) (f : Die → Die) : (s.updDie e f).invHost = s.invHost := rfl
@[simp] theorem State.updDie_invDie0 (s : State) (e : Nat) (f : Die → Die) : (s.updDie e f).invDie0 = s.invDie0 := rfl
@[simp] theorem State.updDie_signing (s : State) (e : Nat) (f : Die → Die) : (s.updDie e f).signing = s.signing := rfl
@[simp] theorem State.updDie_dawn (s : State) (e : Nat) (f : Die → Die) : (s.updDie e f).dawn = s.dawn := rfl
@[simp] theorem State.updDie_hostReply (s : State) (e : Nat) (f : Die → Die) : (s.updDie e f).hostReply = s.hostReply := rfl
@[simp] theorem State.updDie_i3cReply (s : State) (e : Nat) (f : Die → Die) : (s.updDie e f).i3cReply = s.i3cReply := rfl
@[simp] theorem State.updDie_i3cCount (s : State) (e : Nat) (f : Die → Die) : (s.updDie e f).i3cCount = s.i3cCount := rfl
@[simp] theorem State.updDie_cur (s : State) (e : Nat) (f : Die → Die) : (s.updDie e f).cur = s.cur := rfl
@[simp] theorem State.updDie_input (s : State) (e : Nat) (f : Die → Die) : (s.updDie e f).input = s.input := rfl
@[simp] theorem State.updDie_schedule (s : State) (e : Nat) (f : Die → Die) : (s.updDie e f).schedule = s.schedule := rfl
@[simp] theorem State.updDie_turns (s : State) (e : Nat) (f : Die → Die) : (s.updDie e f).turns = s.turns := rfl
@[simp] theorem State.updDie_free (s : State) (e : Nat) (f : Die → Die) : (s.updDie e f).free = s.free := rfl
@[simp] theorem State.updDie_nextId (s : State) (e : Nat) (f : Die → Die) : (s.updDie e f).nextId = s.nextId := rfl

/-! ### State.fresh -/

@[simp] theorem State.fresh_clock (s : State) : (s.fresh).2.clock = s.clock := rfl
@[simp] theorem State.fresh_mem (s : State) : (s.fresh).2.mem = s.mem := rfl
@[simp] theorem State.fresh_ctxs (s : State) : (s.fresh).2.ctxs = s.ctxs := rfl
@[simp] theorem State.fresh_blocks (s : State) : (s.fresh).2.blocks = s.blocks := rfl
@[simp] theorem State.fresh_dispatches (s : State) : (s.fresh).2.dispatches = s.dispatches := rfl
@[simp] theorem State.fresh_trees (s : State) : (s.fresh).2.trees = s.trees := rfl
@[simp] theorem State.fresh_copies (s : State) : (s.fresh).2.copies = s.copies := rfl
@[simp] theorem State.fresh_ninsts (s : State) : (s.fresh).2.ninsts = s.ninsts := rfl
@[simp] theorem State.fresh_nmsgs (s : State) : (s.fresh).2.nmsgs = s.nmsgs := rfl
@[simp] theorem State.fresh_steals (s : State) : (s.fresh).2.steals = s.steals := rfl
@[simp] theorem State.fresh_victims (s : State) : (s.fresh).2.victims = s.victims := rfl
@[simp] theorem State.fresh_dies (s : State) : (s.fresh).2.dies = s.dies := rfl
@[simp] theorem State.fresh_cores (s : State) : (s.fresh).2.cores = s.cores := rfl
@[simp] theorem State.fresh_parts (s : State) : (s.fresh).2.parts = s.parts := rfl
@[simp] theorem State.fresh_dusked (s : State) : (s.fresh).2.dusked = s.dusked := rfl
@[simp] theorem State.fresh_movers (s : State) : (s.fresh).2.movers = s.movers := rfl
@[simp] theorem State.fresh_moving (s : State) : (s.fresh).2.moving = s.moving := rfl
@[simp] theorem State.fresh_due (s : State) : (s.fresh).2.due = s.due := rfl
@[simp] theorem State.fresh_apart (s : State) : (s.fresh).2.apart = s.apart := rfl
@[simp] theorem State.fresh_tlb1 (s : State) : (s.fresh).2.tlb1 = s.tlb1 := rfl
@[simp] theorem State.fresh_tlb2 (s : State) : (s.fresh).2.tlb2 = s.tlb2 := rfl
@[simp] theorem State.fresh_l1 (s : State) : (s.fresh).2.l1 = s.l1 := rfl
@[simp] theorem State.fresh_l2 (s : State) : (s.fresh).2.l2 = s.l2 := rfl
@[simp] theorem State.fresh_hbmTags (s : State) : (s.fresh).2.hbmTags = s.hbmTags := rfl
@[simp] theorem State.fresh_poison (s : State) : (s.fresh).2.poison = s.poison := rfl
@[simp] theorem State.fresh_hurt (s : State) : (s.fresh).2.hurt = s.hurt := rfl
@[simp] theorem State.fresh_migrations (s : State) : (s.fresh).2.migrations = s.migrations := rfl
@[simp] theorem State.fresh_routes (s : State) : (s.fresh).2.routes = s.routes := rfl
@[simp] theorem State.fresh_routeHolds (s : State) : (s.fresh).2.routeHolds = s.routeHolds := rfl
@[simp] theorem State.fresh_unitQ (s : State) : (s.fresh).2.unitQ = s.unitQ := rfl
@[simp] theorem State.fresh_sysid (s : State) : (s.fresh).2.sysid = s.sysid := rfl
@[simp] theorem State.fresh_pod (s : State) : (s.fresh).2.pod = s.pod := rfl
@[simp] theorem State.fresh_leafmap (s : State) : (s.fresh).2.leafmap = s.leafmap := rfl
@[simp] theorem State.fresh_podmap (s : State) : (s.fresh).2.podmap = s.podmap := rfl
@[simp] theorem State.fresh_offer0 (s : State) : (s.fresh).2.offer0 = s.offer0 := rfl
@[simp] theorem State.fresh_offer1 (s : State) : (s.fresh).2.offer1 = s.offer1 := rfl
@[simp] theorem State.fresh_offer2 (s : State) : (s.fresh).2.offer2 = s.offer2 := rfl
@[simp] theorem State.fresh_offer3 (s : State) : (s.fresh).2.offer3 = s.offer3 := rfl
@[simp] theorem State.fresh_termq (s : State) : (s.fresh).2.termq = s.termq := rfl
@[simp] theorem State.fresh_termb (s : State) : (s.fresh).2.termb = s.termb := rfl
@[simp] theorem State.fresh_unacked (s : State) : (s.fresh).2.unacked = s.unacked := rfl
@[simp] theorem State.fresh_lost (s : State) : (s.fresh).2.lost = s.lost := rfl
@[simp] theorem State.fresh_hint (s : State) : (s.fresh).2.hint = s.hint := rfl
@[simp] theorem State.fresh_hostIrq (s : State) : (s.fresh).2.hostIrq = s.hostIrq := rfl
@[simp] theorem State.fresh_invHost (s : State) : (s.fresh).2.invHost = s.invHost := rfl
@[simp] theorem State.fresh_invDie0 (s : State) : (s.fresh).2.invDie0 = s.invDie0 := rfl
@[simp] theorem State.fresh_signing (s : State) : (s.fresh).2.signing = s.signing := rfl
@[simp] theorem State.fresh_dawn (s : State) : (s.fresh).2.dawn = s.dawn := rfl
@[simp] theorem State.fresh_hostReply (s : State) : (s.fresh).2.hostReply = s.hostReply := rfl
@[simp] theorem State.fresh_i3cReply (s : State) : (s.fresh).2.i3cReply = s.i3cReply := rfl
@[simp] theorem State.fresh_i3cCount (s : State) : (s.fresh).2.i3cCount = s.i3cCount := rfl
@[simp] theorem State.fresh_cur (s : State) : (s.fresh).2.cur = s.cur := rfl
@[simp] theorem State.fresh_input (s : State) : (s.fresh).2.input = s.input := rfl
@[simp] theorem State.fresh_schedule (s : State) : (s.fresh).2.schedule = s.schedule := rfl
@[simp] theorem State.fresh_turns (s : State) : (s.fresh).2.turns = s.turns := rfl
@[simp] theorem State.fresh_nextId (s : State) : (s.fresh).2.nextId = s.nextId := rfl
@[simp] theorem State.fresh_free (s : State) : (s.fresh).2.free = s.free + 1 := rfl

/-! ### State.newId -/

@[simp] theorem State.newId_clock (s : State) : (s.newId).2.clock = s.clock := rfl
@[simp] theorem State.newId_mem (s : State) : (s.newId).2.mem = s.mem := rfl
@[simp] theorem State.newId_ctxs (s : State) : (s.newId).2.ctxs = s.ctxs := rfl
@[simp] theorem State.newId_blocks (s : State) : (s.newId).2.blocks = s.blocks := rfl
@[simp] theorem State.newId_dispatches (s : State) : (s.newId).2.dispatches = s.dispatches := rfl
@[simp] theorem State.newId_trees (s : State) : (s.newId).2.trees = s.trees := rfl
@[simp] theorem State.newId_copies (s : State) : (s.newId).2.copies = s.copies := rfl
@[simp] theorem State.newId_ninsts (s : State) : (s.newId).2.ninsts = s.ninsts := rfl
@[simp] theorem State.newId_nmsgs (s : State) : (s.newId).2.nmsgs = s.nmsgs := rfl
@[simp] theorem State.newId_steals (s : State) : (s.newId).2.steals = s.steals := rfl
@[simp] theorem State.newId_victims (s : State) : (s.newId).2.victims = s.victims := rfl
@[simp] theorem State.newId_dies (s : State) : (s.newId).2.dies = s.dies := rfl
@[simp] theorem State.newId_cores (s : State) : (s.newId).2.cores = s.cores := rfl
@[simp] theorem State.newId_parts (s : State) : (s.newId).2.parts = s.parts := rfl
@[simp] theorem State.newId_dusked (s : State) : (s.newId).2.dusked = s.dusked := rfl
@[simp] theorem State.newId_movers (s : State) : (s.newId).2.movers = s.movers := rfl
@[simp] theorem State.newId_moving (s : State) : (s.newId).2.moving = s.moving := rfl
@[simp] theorem State.newId_due (s : State) : (s.newId).2.due = s.due := rfl
@[simp] theorem State.newId_apart (s : State) : (s.newId).2.apart = s.apart := rfl
@[simp] theorem State.newId_tlb1 (s : State) : (s.newId).2.tlb1 = s.tlb1 := rfl
@[simp] theorem State.newId_tlb2 (s : State) : (s.newId).2.tlb2 = s.tlb2 := rfl
@[simp] theorem State.newId_l1 (s : State) : (s.newId).2.l1 = s.l1 := rfl
@[simp] theorem State.newId_l2 (s : State) : (s.newId).2.l2 = s.l2 := rfl
@[simp] theorem State.newId_hbmTags (s : State) : (s.newId).2.hbmTags = s.hbmTags := rfl
@[simp] theorem State.newId_poison (s : State) : (s.newId).2.poison = s.poison := rfl
@[simp] theorem State.newId_hurt (s : State) : (s.newId).2.hurt = s.hurt := rfl
@[simp] theorem State.newId_migrations (s : State) : (s.newId).2.migrations = s.migrations := rfl
@[simp] theorem State.newId_routes (s : State) : (s.newId).2.routes = s.routes := rfl
@[simp] theorem State.newId_routeHolds (s : State) : (s.newId).2.routeHolds = s.routeHolds := rfl
@[simp] theorem State.newId_unitQ (s : State) : (s.newId).2.unitQ = s.unitQ := rfl
@[simp] theorem State.newId_sysid (s : State) : (s.newId).2.sysid = s.sysid := rfl
@[simp] theorem State.newId_pod (s : State) : (s.newId).2.pod = s.pod := rfl
@[simp] theorem State.newId_leafmap (s : State) : (s.newId).2.leafmap = s.leafmap := rfl
@[simp] theorem State.newId_podmap (s : State) : (s.newId).2.podmap = s.podmap := rfl
@[simp] theorem State.newId_offer0 (s : State) : (s.newId).2.offer0 = s.offer0 := rfl
@[simp] theorem State.newId_offer1 (s : State) : (s.newId).2.offer1 = s.offer1 := rfl
@[simp] theorem State.newId_offer2 (s : State) : (s.newId).2.offer2 = s.offer2 := rfl
@[simp] theorem State.newId_offer3 (s : State) : (s.newId).2.offer3 = s.offer3 := rfl
@[simp] theorem State.newId_termq (s : State) : (s.newId).2.termq = s.termq := rfl
@[simp] theorem State.newId_termb (s : State) : (s.newId).2.termb = s.termb := rfl
@[simp] theorem State.newId_unacked (s : State) : (s.newId).2.unacked = s.unacked := rfl
@[simp] theorem State.newId_lost (s : State) : (s.newId).2.lost = s.lost := rfl
@[simp] theorem State.newId_hint (s : State) : (s.newId).2.hint = s.hint := rfl
@[simp] theorem State.newId_hostIrq (s : State) : (s.newId).2.hostIrq = s.hostIrq := rfl
@[simp] theorem State.newId_invHost (s : State) : (s.newId).2.invHost = s.invHost := rfl
@[simp] theorem State.newId_invDie0 (s : State) : (s.newId).2.invDie0 = s.invDie0 := rfl
@[simp] theorem State.newId_signing (s : State) : (s.newId).2.signing = s.signing := rfl
@[simp] theorem State.newId_dawn (s : State) : (s.newId).2.dawn = s.dawn := rfl
@[simp] theorem State.newId_hostReply (s : State) : (s.newId).2.hostReply = s.hostReply := rfl
@[simp] theorem State.newId_i3cReply (s : State) : (s.newId).2.i3cReply = s.i3cReply := rfl
@[simp] theorem State.newId_i3cCount (s : State) : (s.newId).2.i3cCount = s.i3cCount := rfl
@[simp] theorem State.newId_cur (s : State) : (s.newId).2.cur = s.cur := rfl
@[simp] theorem State.newId_input (s : State) : (s.newId).2.input = s.input := rfl
@[simp] theorem State.newId_schedule (s : State) : (s.newId).2.schedule = s.schedule := rfl
@[simp] theorem State.newId_turns (s : State) : (s.newId).2.turns = s.turns := rfl
@[simp] theorem State.newId_free (s : State) : (s.newId).2.free = s.free := rfl
@[simp] theorem State.newId_nextId (s : State) : (s.newId).2.nextId = s.nextId + 1 := rfl

/-! ### State.choice -/

@[simp] theorem State.choice_clock (s : State) (n : Nat) : (s.choice n).2.clock = s.clock := rfl
@[simp] theorem State.choice_mem (s : State) (n : Nat) : (s.choice n).2.mem = s.mem := rfl
@[simp] theorem State.choice_ctxs (s : State) (n : Nat) : (s.choice n).2.ctxs = s.ctxs := rfl
@[simp] theorem State.choice_blocks (s : State) (n : Nat) : (s.choice n).2.blocks = s.blocks := rfl
@[simp] theorem State.choice_dispatches (s : State) (n : Nat) : (s.choice n).2.dispatches = s.dispatches := rfl
@[simp] theorem State.choice_trees (s : State) (n : Nat) : (s.choice n).2.trees = s.trees := rfl
@[simp] theorem State.choice_copies (s : State) (n : Nat) : (s.choice n).2.copies = s.copies := rfl
@[simp] theorem State.choice_ninsts (s : State) (n : Nat) : (s.choice n).2.ninsts = s.ninsts := rfl
@[simp] theorem State.choice_nmsgs (s : State) (n : Nat) : (s.choice n).2.nmsgs = s.nmsgs := rfl
@[simp] theorem State.choice_steals (s : State) (n : Nat) : (s.choice n).2.steals = s.steals := rfl
@[simp] theorem State.choice_victims (s : State) (n : Nat) : (s.choice n).2.victims = s.victims := rfl
@[simp] theorem State.choice_dies (s : State) (n : Nat) : (s.choice n).2.dies = s.dies := rfl
@[simp] theorem State.choice_cores (s : State) (n : Nat) : (s.choice n).2.cores = s.cores := rfl
@[simp] theorem State.choice_parts (s : State) (n : Nat) : (s.choice n).2.parts = s.parts := rfl
@[simp] theorem State.choice_dusked (s : State) (n : Nat) : (s.choice n).2.dusked = s.dusked := rfl
@[simp] theorem State.choice_movers (s : State) (n : Nat) : (s.choice n).2.movers = s.movers := rfl
@[simp] theorem State.choice_moving (s : State) (n : Nat) : (s.choice n).2.moving = s.moving := rfl
@[simp] theorem State.choice_due (s : State) (n : Nat) : (s.choice n).2.due = s.due := rfl
@[simp] theorem State.choice_apart (s : State) (n : Nat) : (s.choice n).2.apart = s.apart := rfl
@[simp] theorem State.choice_tlb1 (s : State) (n : Nat) : (s.choice n).2.tlb1 = s.tlb1 := rfl
@[simp] theorem State.choice_tlb2 (s : State) (n : Nat) : (s.choice n).2.tlb2 = s.tlb2 := rfl
@[simp] theorem State.choice_l1 (s : State) (n : Nat) : (s.choice n).2.l1 = s.l1 := rfl
@[simp] theorem State.choice_l2 (s : State) (n : Nat) : (s.choice n).2.l2 = s.l2 := rfl
@[simp] theorem State.choice_hbmTags (s : State) (n : Nat) : (s.choice n).2.hbmTags = s.hbmTags := rfl
@[simp] theorem State.choice_poison (s : State) (n : Nat) : (s.choice n).2.poison = s.poison := rfl
@[simp] theorem State.choice_hurt (s : State) (n : Nat) : (s.choice n).2.hurt = s.hurt := rfl
@[simp] theorem State.choice_migrations (s : State) (n : Nat) : (s.choice n).2.migrations = s.migrations := rfl
@[simp] theorem State.choice_routes (s : State) (n : Nat) : (s.choice n).2.routes = s.routes := rfl
@[simp] theorem State.choice_routeHolds (s : State) (n : Nat) : (s.choice n).2.routeHolds = s.routeHolds := rfl
@[simp] theorem State.choice_unitQ (s : State) (n : Nat) : (s.choice n).2.unitQ = s.unitQ := rfl
@[simp] theorem State.choice_sysid (s : State) (n : Nat) : (s.choice n).2.sysid = s.sysid := rfl
@[simp] theorem State.choice_pod (s : State) (n : Nat) : (s.choice n).2.pod = s.pod := rfl
@[simp] theorem State.choice_leafmap (s : State) (n : Nat) : (s.choice n).2.leafmap = s.leafmap := rfl
@[simp] theorem State.choice_podmap (s : State) (n : Nat) : (s.choice n).2.podmap = s.podmap := rfl
@[simp] theorem State.choice_offer0 (s : State) (n : Nat) : (s.choice n).2.offer0 = s.offer0 := rfl
@[simp] theorem State.choice_offer1 (s : State) (n : Nat) : (s.choice n).2.offer1 = s.offer1 := rfl
@[simp] theorem State.choice_offer2 (s : State) (n : Nat) : (s.choice n).2.offer2 = s.offer2 := rfl
@[simp] theorem State.choice_offer3 (s : State) (n : Nat) : (s.choice n).2.offer3 = s.offer3 := rfl
@[simp] theorem State.choice_termq (s : State) (n : Nat) : (s.choice n).2.termq = s.termq := rfl
@[simp] theorem State.choice_termb (s : State) (n : Nat) : (s.choice n).2.termb = s.termb := rfl
@[simp] theorem State.choice_unacked (s : State) (n : Nat) : (s.choice n).2.unacked = s.unacked := rfl
@[simp] theorem State.choice_lost (s : State) (n : Nat) : (s.choice n).2.lost = s.lost := rfl
@[simp] theorem State.choice_hint (s : State) (n : Nat) : (s.choice n).2.hint = s.hint := rfl
@[simp] theorem State.choice_hostIrq (s : State) (n : Nat) : (s.choice n).2.hostIrq = s.hostIrq := rfl
@[simp] theorem State.choice_invHost (s : State) (n : Nat) : (s.choice n).2.invHost = s.invHost := rfl
@[simp] theorem State.choice_invDie0 (s : State) (n : Nat) : (s.choice n).2.invDie0 = s.invDie0 := rfl
@[simp] theorem State.choice_signing (s : State) (n : Nat) : (s.choice n).2.signing = s.signing := rfl
@[simp] theorem State.choice_dawn (s : State) (n : Nat) : (s.choice n).2.dawn = s.dawn := rfl
@[simp] theorem State.choice_hostReply (s : State) (n : Nat) : (s.choice n).2.hostReply = s.hostReply := rfl
@[simp] theorem State.choice_i3cReply (s : State) (n : Nat) : (s.choice n).2.i3cReply = s.i3cReply := rfl
@[simp] theorem State.choice_i3cCount (s : State) (n : Nat) : (s.choice n).2.i3cCount = s.i3cCount := rfl
@[simp] theorem State.choice_cur (s : State) (n : Nat) : (s.choice n).2.cur = s.cur := rfl
@[simp] theorem State.choice_input (s : State) (n : Nat) : (s.choice n).2.input = s.input := rfl
@[simp] theorem State.choice_schedule (s : State) (n : Nat) : (s.choice n).2.schedule = s.schedule := rfl
@[simp] theorem State.choice_turns (s : State) (n : Nat) : (s.choice n).2.turns = s.turns := rfl
@[simp] theorem State.choice_nextId (s : State) (n : Nat) : (s.choice n).2.nextId = s.nextId := rfl
@[simp] theorem State.choice_free (s : State) (n : Nat) : (s.choice n).2.free = s.free + 1 := rfl

/-! ### State.issue -/

@[simp] theorem State.issue_clock (s : State) (h : Hd) (k : Bool) (f : Team → Team) : (s.issue h k f).clock = s.clock := rfl
@[simp] theorem State.issue_mem (s : State) (h : Hd) (k : Bool) (f : Team → Team) : (s.issue h k f).mem = s.mem := rfl
@[simp] theorem State.issue_ctxs (s : State) (h : Hd) (k : Bool) (f : Team → Team) : (s.issue h k f).ctxs = s.ctxs := rfl
@[simp] theorem State.issue_dispatches (s : State) (h : Hd) (k : Bool) (f : Team → Team) : (s.issue h k f).dispatches = s.dispatches := rfl
@[simp] theorem State.issue_trees (s : State) (h : Hd) (k : Bool) (f : Team → Team) : (s.issue h k f).trees = s.trees := rfl
@[simp] theorem State.issue_copies (s : State) (h : Hd) (k : Bool) (f : Team → Team) : (s.issue h k f).copies = s.copies := rfl
@[simp] theorem State.issue_ninsts (s : State) (h : Hd) (k : Bool) (f : Team → Team) : (s.issue h k f).ninsts = s.ninsts := rfl
@[simp] theorem State.issue_nmsgs (s : State) (h : Hd) (k : Bool) (f : Team → Team) : (s.issue h k f).nmsgs = s.nmsgs := rfl
@[simp] theorem State.issue_steals (s : State) (h : Hd) (k : Bool) (f : Team → Team) : (s.issue h k f).steals = s.steals := rfl
@[simp] theorem State.issue_victims (s : State) (h : Hd) (k : Bool) (f : Team → Team) : (s.issue h k f).victims = s.victims := rfl
@[simp] theorem State.issue_dies (s : State) (h : Hd) (k : Bool) (f : Team → Team) : (s.issue h k f).dies = s.dies := rfl
@[simp] theorem State.issue_cores (s : State) (h : Hd) (k : Bool) (f : Team → Team) : (s.issue h k f).cores = s.cores := rfl
@[simp] theorem State.issue_parts (s : State) (h : Hd) (k : Bool) (f : Team → Team) : (s.issue h k f).parts = s.parts := rfl
@[simp] theorem State.issue_dusked (s : State) (h : Hd) (k : Bool) (f : Team → Team) : (s.issue h k f).dusked = s.dusked := rfl
@[simp] theorem State.issue_movers (s : State) (h : Hd) (k : Bool) (f : Team → Team) : (s.issue h k f).movers = s.movers := rfl
@[simp] theorem State.issue_moving (s : State) (h : Hd) (k : Bool) (f : Team → Team) : (s.issue h k f).moving = s.moving := rfl
@[simp] theorem State.issue_due (s : State) (h : Hd) (k : Bool) (f : Team → Team) : (s.issue h k f).due = s.due := rfl
@[simp] theorem State.issue_apart (s : State) (h : Hd) (k : Bool) (f : Team → Team) : (s.issue h k f).apart = s.apart := rfl
@[simp] theorem State.issue_tlb1 (s : State) (h : Hd) (k : Bool) (f : Team → Team) : (s.issue h k f).tlb1 = s.tlb1 := rfl
@[simp] theorem State.issue_tlb2 (s : State) (h : Hd) (k : Bool) (f : Team → Team) : (s.issue h k f).tlb2 = s.tlb2 := rfl
@[simp] theorem State.issue_l1 (s : State) (h : Hd) (k : Bool) (f : Team → Team) : (s.issue h k f).l1 = s.l1 := rfl
@[simp] theorem State.issue_l2 (s : State) (h : Hd) (k : Bool) (f : Team → Team) : (s.issue h k f).l2 = s.l2 := rfl
@[simp] theorem State.issue_hbmTags (s : State) (h : Hd) (k : Bool) (f : Team → Team) : (s.issue h k f).hbmTags = s.hbmTags := rfl
@[simp] theorem State.issue_poison (s : State) (h : Hd) (k : Bool) (f : Team → Team) : (s.issue h k f).poison = s.poison := rfl
@[simp] theorem State.issue_hurt (s : State) (h : Hd) (k : Bool) (f : Team → Team) : (s.issue h k f).hurt = s.hurt := rfl
@[simp] theorem State.issue_migrations (s : State) (h : Hd) (k : Bool) (f : Team → Team) : (s.issue h k f).migrations = s.migrations := rfl
@[simp] theorem State.issue_routes (s : State) (h : Hd) (k : Bool) (f : Team → Team) : (s.issue h k f).routes = s.routes := rfl
@[simp] theorem State.issue_routeHolds (s : State) (h : Hd) (k : Bool) (f : Team → Team) : (s.issue h k f).routeHolds = s.routeHolds := rfl
@[simp] theorem State.issue_unitQ (s : State) (h : Hd) (k : Bool) (f : Team → Team) : (s.issue h k f).unitQ = s.unitQ := rfl
@[simp] theorem State.issue_sysid (s : State) (h : Hd) (k : Bool) (f : Team → Team) : (s.issue h k f).sysid = s.sysid := rfl
@[simp] theorem State.issue_pod (s : State) (h : Hd) (k : Bool) (f : Team → Team) : (s.issue h k f).pod = s.pod := rfl
@[simp] theorem State.issue_leafmap (s : State) (h : Hd) (k : Bool) (f : Team → Team) : (s.issue h k f).leafmap = s.leafmap := rfl
@[simp] theorem State.issue_podmap (s : State) (h : Hd) (k : Bool) (f : Team → Team) : (s.issue h k f).podmap = s.podmap := rfl
@[simp] theorem State.issue_offer0 (s : State) (h : Hd) (k : Bool) (f : Team → Team) : (s.issue h k f).offer0 = s.offer0 := rfl
@[simp] theorem State.issue_offer1 (s : State) (h : Hd) (k : Bool) (f : Team → Team) : (s.issue h k f).offer1 = s.offer1 := rfl
@[simp] theorem State.issue_offer2 (s : State) (h : Hd) (k : Bool) (f : Team → Team) : (s.issue h k f).offer2 = s.offer2 := rfl
@[simp] theorem State.issue_offer3 (s : State) (h : Hd) (k : Bool) (f : Team → Team) : (s.issue h k f).offer3 = s.offer3 := rfl
@[simp] theorem State.issue_termq (s : State) (h : Hd) (k : Bool) (f : Team → Team) : (s.issue h k f).termq = s.termq := rfl
@[simp] theorem State.issue_termb (s : State) (h : Hd) (k : Bool) (f : Team → Team) : (s.issue h k f).termb = s.termb := rfl
@[simp] theorem State.issue_unacked (s : State) (h : Hd) (k : Bool) (f : Team → Team) : (s.issue h k f).unacked = s.unacked := rfl
@[simp] theorem State.issue_lost (s : State) (h : Hd) (k : Bool) (f : Team → Team) : (s.issue h k f).lost = s.lost := rfl
@[simp] theorem State.issue_hint (s : State) (h : Hd) (k : Bool) (f : Team → Team) : (s.issue h k f).hint = s.hint := rfl
@[simp] theorem State.issue_hostIrq (s : State) (h : Hd) (k : Bool) (f : Team → Team) : (s.issue h k f).hostIrq = s.hostIrq := rfl
@[simp] theorem State.issue_invHost (s : State) (h : Hd) (k : Bool) (f : Team → Team) : (s.issue h k f).invHost = s.invHost := rfl
@[simp] theorem State.issue_invDie0 (s : State) (h : Hd) (k : Bool) (f : Team → Team) : (s.issue h k f).invDie0 = s.invDie0 := rfl
@[simp] theorem State.issue_signing (s : State) (h : Hd) (k : Bool) (f : Team → Team) : (s.issue h k f).signing = s.signing := rfl
@[simp] theorem State.issue_dawn (s : State) (h : Hd) (k : Bool) (f : Team → Team) : (s.issue h k f).dawn = s.dawn := rfl
@[simp] theorem State.issue_hostReply (s : State) (h : Hd) (k : Bool) (f : Team → Team) : (s.issue h k f).hostReply = s.hostReply := rfl
@[simp] theorem State.issue_i3cReply (s : State) (h : Hd) (k : Bool) (f : Team → Team) : (s.issue h k f).i3cReply = s.i3cReply := rfl
@[simp] theorem State.issue_i3cCount (s : State) (h : Hd) (k : Bool) (f : Team → Team) : (s.issue h k f).i3cCount = s.i3cCount := rfl
@[simp] theorem State.issue_input (s : State) (h : Hd) (k : Bool) (f : Team → Team) : (s.issue h k f).input = s.input := rfl
@[simp] theorem State.issue_schedule (s : State) (h : Hd) (k : Bool) (f : Team → Team) : (s.issue h k f).schedule = s.schedule := rfl
@[simp] theorem State.issue_turns (s : State) (h : Hd) (k : Bool) (f : Team → Team) : (s.issue h k f).turns = s.turns := rfl
@[simp] theorem State.issue_free (s : State) (h : Hd) (k : Bool) (f : Team → Team) : (s.issue h k f).free = s.free := rfl
@[simp] theorem State.issue_nextId (s : State) (h : Hd) (k : Bool) (f : Team → Team) : (s.issue h k f).nextId = s.nextId := rfl

/-! ### State.park -/

@[simp] theorem State.park_clock (s : State) (q : Reason) : (s.park q).clock = s.clock := rfl
@[simp] theorem State.park_mem (s : State) (q : Reason) : (s.park q).mem = s.mem := rfl
@[simp] theorem State.park_ctxs (s : State) (q : Reason) : (s.park q).ctxs = s.ctxs := rfl
@[simp] theorem State.park_dispatches (s : State) (q : Reason) : (s.park q).dispatches = s.dispatches := rfl
@[simp] theorem State.park_trees (s : State) (q : Reason) : (s.park q).trees = s.trees := rfl
@[simp] theorem State.park_copies (s : State) (q : Reason) : (s.park q).copies = s.copies := rfl
@[simp] theorem State.park_ninsts (s : State) (q : Reason) : (s.park q).ninsts = s.ninsts := rfl
@[simp] theorem State.park_nmsgs (s : State) (q : Reason) : (s.park q).nmsgs = s.nmsgs := rfl
@[simp] theorem State.park_steals (s : State) (q : Reason) : (s.park q).steals = s.steals := rfl
@[simp] theorem State.park_victims (s : State) (q : Reason) : (s.park q).victims = s.victims := rfl
@[simp] theorem State.park_dies (s : State) (q : Reason) : (s.park q).dies = s.dies := rfl
@[simp] theorem State.park_cores (s : State) (q : Reason) : (s.park q).cores = s.cores := rfl
@[simp] theorem State.park_parts (s : State) (q : Reason) : (s.park q).parts = s.parts := rfl
@[simp] theorem State.park_dusked (s : State) (q : Reason) : (s.park q).dusked = s.dusked := rfl
@[simp] theorem State.park_movers (s : State) (q : Reason) : (s.park q).movers = s.movers := rfl
@[simp] theorem State.park_moving (s : State) (q : Reason) : (s.park q).moving = s.moving := rfl
@[simp] theorem State.park_due (s : State) (q : Reason) : (s.park q).due = s.due := rfl
@[simp] theorem State.park_apart (s : State) (q : Reason) : (s.park q).apart = s.apart := rfl
@[simp] theorem State.park_tlb1 (s : State) (q : Reason) : (s.park q).tlb1 = s.tlb1 := rfl
@[simp] theorem State.park_tlb2 (s : State) (q : Reason) : (s.park q).tlb2 = s.tlb2 := rfl
@[simp] theorem State.park_l1 (s : State) (q : Reason) : (s.park q).l1 = s.l1 := rfl
@[simp] theorem State.park_l2 (s : State) (q : Reason) : (s.park q).l2 = s.l2 := rfl
@[simp] theorem State.park_hbmTags (s : State) (q : Reason) : (s.park q).hbmTags = s.hbmTags := rfl
@[simp] theorem State.park_poison (s : State) (q : Reason) : (s.park q).poison = s.poison := rfl
@[simp] theorem State.park_hurt (s : State) (q : Reason) : (s.park q).hurt = s.hurt := rfl
@[simp] theorem State.park_migrations (s : State) (q : Reason) : (s.park q).migrations = s.migrations := rfl
@[simp] theorem State.park_routes (s : State) (q : Reason) : (s.park q).routes = s.routes := rfl
@[simp] theorem State.park_routeHolds (s : State) (q : Reason) : (s.park q).routeHolds = s.routeHolds := rfl
@[simp] theorem State.park_unitQ (s : State) (q : Reason) : (s.park q).unitQ = s.unitQ := rfl
@[simp] theorem State.park_sysid (s : State) (q : Reason) : (s.park q).sysid = s.sysid := rfl
@[simp] theorem State.park_pod (s : State) (q : Reason) : (s.park q).pod = s.pod := rfl
@[simp] theorem State.park_leafmap (s : State) (q : Reason) : (s.park q).leafmap = s.leafmap := rfl
@[simp] theorem State.park_podmap (s : State) (q : Reason) : (s.park q).podmap = s.podmap := rfl
@[simp] theorem State.park_offer0 (s : State) (q : Reason) : (s.park q).offer0 = s.offer0 := rfl
@[simp] theorem State.park_offer1 (s : State) (q : Reason) : (s.park q).offer1 = s.offer1 := rfl
@[simp] theorem State.park_offer2 (s : State) (q : Reason) : (s.park q).offer2 = s.offer2 := rfl
@[simp] theorem State.park_offer3 (s : State) (q : Reason) : (s.park q).offer3 = s.offer3 := rfl
@[simp] theorem State.park_termq (s : State) (q : Reason) : (s.park q).termq = s.termq := rfl
@[simp] theorem State.park_termb (s : State) (q : Reason) : (s.park q).termb = s.termb := rfl
@[simp] theorem State.park_unacked (s : State) (q : Reason) : (s.park q).unacked = s.unacked := rfl
@[simp] theorem State.park_lost (s : State) (q : Reason) : (s.park q).lost = s.lost := rfl
@[simp] theorem State.park_hint (s : State) (q : Reason) : (s.park q).hint = s.hint := rfl
@[simp] theorem State.park_hostIrq (s : State) (q : Reason) : (s.park q).hostIrq = s.hostIrq := rfl
@[simp] theorem State.park_invHost (s : State) (q : Reason) : (s.park q).invHost = s.invHost := rfl
@[simp] theorem State.park_invDie0 (s : State) (q : Reason) : (s.park q).invDie0 = s.invDie0 := rfl
@[simp] theorem State.park_signing (s : State) (q : Reason) : (s.park q).signing = s.signing := rfl
@[simp] theorem State.park_dawn (s : State) (q : Reason) : (s.park q).dawn = s.dawn := rfl
@[simp] theorem State.park_hostReply (s : State) (q : Reason) : (s.park q).hostReply = s.hostReply := rfl
@[simp] theorem State.park_i3cReply (s : State) (q : Reason) : (s.park q).i3cReply = s.i3cReply := rfl
@[simp] theorem State.park_i3cCount (s : State) (q : Reason) : (s.park q).i3cCount = s.i3cCount := rfl
@[simp] theorem State.park_input (s : State) (q : Reason) : (s.park q).input = s.input := rfl
@[simp] theorem State.park_schedule (s : State) (q : Reason) : (s.park q).schedule = s.schedule := rfl
@[simp] theorem State.park_turns (s : State) (q : Reason) : (s.park q).turns = s.turns := rfl
@[simp] theorem State.park_free (s : State) (q : Reason) : (s.park q).free = s.free := rfl
@[simp] theorem State.park_nextId (s : State) (q : Reason) : (s.park q).nextId = s.nextId := rfl

/-! ### Block.updTeam -/

@[simp] theorem Block.updTeam_id (b : Block) (t : Nat) (f : Team → Team) : (b.updTeam t f).id = b.id := rfl
@[simp] theorem Block.updTeam_core (b : Block) (t : Nat) (f : Team → Team) : (b.updTeam t f).core = b.core := rfl
@[simp] theorem Block.updTeam_place (b : Block) (t : Nat) (f : Team → Team) : (b.updTeam t f).place = b.place := rfl
@[simp] theorem Block.updTeam_tag (b : Block) (t : Nat) (f : Team → Team) : (b.updTeam t f).tag = b.tag := rfl
@[simp] theorem Block.updTeam_bureau (b : Block) (t : Nat) (f : Team → Team) : (b.updTeam t f).bureau = b.bureau := rfl
@[simp] theorem Block.updTeam_slot (b : Block) (t : Nat) (f : Team → Team) : (b.updTeam t f).slot = b.slot := rfl
@[simp] theorem Block.updTeam_block (b : Block) (t : Nat) (f : Team → Team) : (b.updTeam t f).block = b.block := rfl
@[simp] theorem Block.updTeam_index (b : Block) (t : Nat) (f : Team → Team) : (b.updTeam t f).index = b.index := rfl
@[simp] theorem Block.updTeam_node (b : Block) (t : Nat) (f : Team → Team) : (b.updTeam t f).node = b.node := rfl
@[simp] theorem Block.updTeam_tree (b : Block) (t : Nat) (f : Team → Team) : (b.updTeam t f).tree = b.tree := rfl
@[simp] theorem Block.updTeam_entry (b : Block) (t : Nat) (f : Team → Team) : (b.updTeam t f).entry = b.entry := rfl
@[simp] theorem Block.updTeam_wm (b : Block) (t : Nat) (f : Team → Team) : (b.updTeam t f).wm = b.wm := rfl
@[simp] theorem Block.updTeam_spadSize (b : Block) (t : Nat) (f : Team → Team) : (b.updTeam t f).spadSize = b.spadSize := rfl
@[simp] theorem Block.updTeam_spad (b : Block) (t : Nat) (f : Team → Team) : (b.updTeam t f).spad = b.spad := rfl
@[simp] theorem Block.updTeam_full (b : Block) (t : Nat) (f : Team → Team) : (b.updTeam t f).full = b.full := rfl
@[simp] theorem Block.updTeam_pages (b : Block) (t : Nat) (f : Team → Team) : (b.updTeam t f).pages = b.pages := rfl
@[simp] theorem Block.updTeam_chest (b : Block) (t : Nat) (f : Team → Team) : (b.updTeam t f).chest = b.chest := rfl
@[simp] theorem Block.updTeam_claims (b : Block) (t : Nat) (f : Team → Team) : (b.updTeam t f).claims = b.claims := rfl
@[simp] theorem Block.updTeam_drawers (b : Block) (t : Nat) (f : Team → Team) : (b.updTeam t f).drawers = b.drawers := rfl
@[simp] theorem Block.updTeam_tiles (b : Block) (t : Nat) (f : Team → Team) : (b.updTeam t f).tiles = b.tiles := rfl
@[simp] theorem Block.updTeam_perm (b : Block) (t : Nat) (f : Team → Team) : (b.updTeam t f).perm = b.perm := rfl
@[simp] theorem Block.updTeam_ocache (b : Block) (t : Nat) (f : Team → Team) : (b.updTeam t f).ocache = b.ocache := rfl
@[simp] theorem Block.updTeam_pool (b : Block) (t : Nat) (f : Team → Team) : (b.updTeam t f).pool = b.pool := rfl
@[simp] theorem Block.updTeam_slabs (b : Block) (t : Nat) (f : Team → Team) : (b.updTeam t f).slabs = b.slabs := rfl
@[simp] theorem Block.updTeam_rclaims (b : Block) (t : Nat) (f : Team → Team) : (b.updTeam t f).rclaims = b.rclaims := rfl
@[simp] theorem Block.updTeam_barArr (b : Block) (t : Nat) (f : Team → Team) : (b.updTeam t f).barArr = b.barArr := rfl
@[simp] theorem Block.updTeam_barPhase (b : Block) (t : Nat) (f : Team → Team) : (b.updTeam t f).barPhase = b.barPhase := rfl
@[simp] theorem Block.updTeam_group (b : Block) (t : Nat) (f : Team → Team) : (b.updTeam t f).group = b.group := rfl
@[simp] theorem Block.updTeam_partner (b : Block) (t : Nat) (f : Team → Team) : (b.updTeam t f).partner = b.partner := rfl
@[simp] theorem Block.updTeam_future (b : Block) (t : Nat) (f : Team → Team) : (b.updTeam t f).future = b.future := rfl
@[simp] theorem Block.updTeam_pcount (b : Block) (t : Nat) (f : Team → Team) : (b.updTeam t f).pcount = b.pcount := rfl
@[simp] theorem Block.updTeam_holds (b : Block) (t : Nat) (f : Team → Team) : (b.updTeam t f).holds = b.holds := rfl
@[simp] theorem Block.updTeam_regions (b : Block) (t : Nat) (f : Team → Team) : (b.updTeam t f).regions = b.regions := rfl
@[simp] theorem Block.updTeam_reclaim (b : Block) (t : Nat) (f : Team → Team) : (b.updTeam t f).reclaim = b.reclaim := rfl
@[simp] theorem Block.updTeam_cancelled (b : Block) (t : Nat) (f : Team → Team) : (b.updTeam t f).cancelled = b.cancelled := rfl
@[simp] theorem Block.updTeam_fault (b : Block) (t : Nat) (f : Team → Team) : (b.updTeam t f).fault = b.fault := rfl
@[simp] theorem Block.updTeam_stopped (b : Block) (t : Nat) (f : Team → Team) : (b.updTeam t f).stopped = b.stopped := rfl
@[simp] theorem Block.updTeam_stopping (b : Block) (t : Nat) (f : Team → Team) : (b.updTeam t f).stopping = b.stopping := rfl
@[simp] theorem Block.updTeam_stopTime (b : Block) (t : Nat) (f : Team → Team) : (b.updTeam t f).stopTime = b.stopTime := rfl
@[simp] theorem Block.updTeam_resuming (b : Block) (t : Nat) (f : Team → Team) : (b.updTeam t f).resuming = b.resuming := rfl
@[simp] theorem Block.updTeam_halt (b : Block) (t : Nat) (f : Team → Team) : (b.updTeam t f).halt = b.halt := rfl

/-! ### Team.addRun -/

@[simp] theorem Team.addRun_idx (t : Team) (n : Nat) (ws : List RegWrite) : (t.addRun n ws).idx = t.idx := rfl
@[simp] theorem Team.addRun_slot (t : Team) (n : Nat) (ws : List RegWrite) : (t.addRun n ws).slot = t.slot := rfl
@[simp] theorem Team.addRun_lanes (t : Team) (n : Nat) (ws : List RegWrite) : (t.addRun n ws).lanes = t.lanes := rfl
@[simp] theorem Team.addRun_role (t : Team) (n : Nat) (ws : List RegWrite) : (t.addRun n ws).role = t.role := rfl
@[simp] theorem Team.addRun_pc (t : Team) (n : Nat) (ws : List RegWrite) : (t.addRun n ws).pc = t.pc := rfl
@[simp] theorem Team.addRun_w (t : Team) (n : Nat) (ws : List RegWrite) : (t.addRun n ws).w = t.w := rfl
@[simp] theorem Team.addRun_v (t : Team) (n : Nat) (ws : List RegWrite) : (t.addRun n ws).v = t.v := rfl
@[simp] theorem Team.addRun_m (t : Team) (n : Nat) (ws : List RegWrite) : (t.addRun n ws).m = t.m := rfl
@[simp] theorem Team.addRun_x (t : Team) (n : Nat) (ws : List RegWrite) : (t.addRun n ws).x = t.x := rfl
@[simp] theorem Team.addRun_stack (t : Team) (n : Nat) (ws : List RegWrite) : (t.addRun n ws).stack = t.stack := rfl
@[simp] theorem Team.addRun_status (t : Team) (n : Nat) (ws : List RegWrite) : (t.addRun n ws).status = t.status := rfl
@[simp] theorem Team.addRun_fpmode (t : Team) (n : Nat) (ws : List RegWrite) : (t.addRun n ws).fpmode = t.fpmode := rfl
@[simp] theorem Team.addRun_trapcause (t : Team) (n : Nat) (ws : List RegWrite) : (t.addRun n ws).trapcause = t.trapcause := rfl
@[simp] theorem Team.addRun_trappc (t : Team) (n : Nat) (ws : List RegWrite) : (t.addRun n ws).trappc = t.trappc := rfl
@[simp] theorem Team.addRun_ended (t : Team) (n : Nat) (ws : List RegWrite) : (t.addRun n ws).ended = t.ended := rfl
@[simp] theorem Team.addRun_handler (t : Team) (n : Nat) (ws : List RegWrite) : (t.addRun n ws).handler = t.handler := rfl
@[simp] theorem Team.addRun_trap (t : Team) (n : Nat) (ws : List RegWrite) : (t.addRun n ws).trap = t.trap := rfl
@[simp] theorem Team.addRun_frame (t : Team) (n : Nat) (ws : List RegWrite) : (t.addRun n ws).frame = t.frame := rfl
@[simp] theorem Team.addRun_defer (t : Team) (n : Nat) (ws : List RegWrite) : (t.addRun n ws).defer = t.defer := rfl
@[simp] theorem Team.addRun_defers (t : Team) (n : Nat) (ws : List RegWrite) : (t.addRun n ws).defers = t.defers := rfl
@[simp] theorem Team.addRun_pend (t : Team) (n : Nat) (ws : List RegWrite) : (t.addRun n ws).pend = t.pend := rfl
@[simp] theorem Team.addRun_ops (t : Team) (n : Nat) (ws : List RegWrite) : (t.addRun n ws).ops = t.ops := rfl
@[simp] theorem Team.addRun_wait (t : Team) (n : Nat) (ws : List RegWrite) : (t.addRun n ws).wait = t.wait := rfl
@[simp] theorem Team.addRun_want (t : Team) (n : Nat) (ws : List RegWrite) : (t.addRun n ws).want = t.want := rfl
@[simp] theorem Team.addRun_granted (t : Team) (n : Nat) (ws : List RegWrite) : (t.addRun n ws).granted = t.granted := rfl
@[simp] theorem Team.addRun_spin (t : Team) (n : Nat) (ws : List RegWrite) : (t.addRun n ws).spin = t.spin := rfl
@[simp] theorem Team.addRun_word (t : Team) (n : Nat) (ws : List RegWrite) : (t.addRun n ws).word = t.word := rfl
@[simp] theorem Team.addRun_sample (t : Team) (n : Nat) (ws : List RegWrite) : (t.addRun n ws).sample = t.sample := rfl
@[simp] theorem Team.addRun_nohit (t : Team) (n : Nat) (ws : List RegWrite) : (t.addRun n ws).nohit = t.nohit := rfl
@[simp] theorem Team.addRun_retired (t : Team) (n : Nat) (ws : List RegWrite) : (t.addRun n ws).retired = t.retired := rfl
@[simp] theorem Team.addRun_reason (t : Team) (n : Nat) (ws : List RegWrite) : (t.addRun n ws).reason = t.reason := rfl
@[simp] theorem Team.addRun_parked (t : Team) (n : Nat) (ws : List RegWrite) : (t.addRun n ws).parked = t.parked := rfl
@[simp] theorem Team.addRun_issued (t : Team) (n : Nat) (ws : List RegWrite) : (t.addRun n ws).issued = t.issued := rfl
@[simp] theorem Team.addRun_counted (t : Team) (n : Nat) (ws : List RegWrite) : (t.addRun n ws).counted = t.counted := rfl
@[simp] theorem Team.addRun_xinv (t : Team) (n : Nat) (ws : List RegWrite) : (t.addRun n ws).xinv = t.xinv := rfl
@[simp] theorem Team.addRun_code (t : Team) (n : Nat) (ws : List RegWrite) : (t.addRun n ws).code = t.code := rfl

/-! ### Team.addPend -/

@[simp] theorem Team.addPend_idx (t : Team) (n : Nat) (rs : List RegName) (ws : Option (List RegWrite)) (q : Bool) : (t.addPend n rs ws q).idx = t.idx := rfl
@[simp] theorem Team.addPend_slot (t : Team) (n : Nat) (rs : List RegName) (ws : Option (List RegWrite)) (q : Bool) : (t.addPend n rs ws q).slot = t.slot := rfl
@[simp] theorem Team.addPend_lanes (t : Team) (n : Nat) (rs : List RegName) (ws : Option (List RegWrite)) (q : Bool) : (t.addPend n rs ws q).lanes = t.lanes := rfl
@[simp] theorem Team.addPend_role (t : Team) (n : Nat) (rs : List RegName) (ws : Option (List RegWrite)) (q : Bool) : (t.addPend n rs ws q).role = t.role := rfl
@[simp] theorem Team.addPend_pc (t : Team) (n : Nat) (rs : List RegName) (ws : Option (List RegWrite)) (q : Bool) : (t.addPend n rs ws q).pc = t.pc := rfl
@[simp] theorem Team.addPend_w (t : Team) (n : Nat) (rs : List RegName) (ws : Option (List RegWrite)) (q : Bool) : (t.addPend n rs ws q).w = t.w := rfl
@[simp] theorem Team.addPend_v (t : Team) (n : Nat) (rs : List RegName) (ws : Option (List RegWrite)) (q : Bool) : (t.addPend n rs ws q).v = t.v := rfl
@[simp] theorem Team.addPend_m (t : Team) (n : Nat) (rs : List RegName) (ws : Option (List RegWrite)) (q : Bool) : (t.addPend n rs ws q).m = t.m := rfl
@[simp] theorem Team.addPend_x (t : Team) (n : Nat) (rs : List RegName) (ws : Option (List RegWrite)) (q : Bool) : (t.addPend n rs ws q).x = t.x := rfl
@[simp] theorem Team.addPend_stack (t : Team) (n : Nat) (rs : List RegName) (ws : Option (List RegWrite)) (q : Bool) : (t.addPend n rs ws q).stack = t.stack := rfl
@[simp] theorem Team.addPend_status (t : Team) (n : Nat) (rs : List RegName) (ws : Option (List RegWrite)) (q : Bool) : (t.addPend n rs ws q).status = t.status := rfl
@[simp] theorem Team.addPend_fpmode (t : Team) (n : Nat) (rs : List RegName) (ws : Option (List RegWrite)) (q : Bool) : (t.addPend n rs ws q).fpmode = t.fpmode := rfl
@[simp] theorem Team.addPend_trapcause (t : Team) (n : Nat) (rs : List RegName) (ws : Option (List RegWrite)) (q : Bool) : (t.addPend n rs ws q).trapcause = t.trapcause := rfl
@[simp] theorem Team.addPend_trappc (t : Team) (n : Nat) (rs : List RegName) (ws : Option (List RegWrite)) (q : Bool) : (t.addPend n rs ws q).trappc = t.trappc := rfl
@[simp] theorem Team.addPend_ended (t : Team) (n : Nat) (rs : List RegName) (ws : Option (List RegWrite)) (q : Bool) : (t.addPend n rs ws q).ended = t.ended := rfl
@[simp] theorem Team.addPend_handler (t : Team) (n : Nat) (rs : List RegName) (ws : Option (List RegWrite)) (q : Bool) : (t.addPend n rs ws q).handler = t.handler := rfl
@[simp] theorem Team.addPend_trap (t : Team) (n : Nat) (rs : List RegName) (ws : Option (List RegWrite)) (q : Bool) : (t.addPend n rs ws q).trap = t.trap := rfl
@[simp] theorem Team.addPend_frame (t : Team) (n : Nat) (rs : List RegName) (ws : Option (List RegWrite)) (q : Bool) : (t.addPend n rs ws q).frame = t.frame := rfl
@[simp] theorem Team.addPend_defer (t : Team) (n : Nat) (rs : List RegName) (ws : Option (List RegWrite)) (q : Bool) : (t.addPend n rs ws q).defer = t.defer := rfl
@[simp] theorem Team.addPend_defers (t : Team) (n : Nat) (rs : List RegName) (ws : Option (List RegWrite)) (q : Bool) : (t.addPend n rs ws q).defers = t.defers := rfl
@[simp] theorem Team.addPend_run (t : Team) (n : Nat) (rs : List RegName) (ws : Option (List RegWrite)) (q : Bool) : (t.addPend n rs ws q).run = t.run := rfl
@[simp] theorem Team.addPend_ops (t : Team) (n : Nat) (rs : List RegName) (ws : Option (List RegWrite)) (q : Bool) : (t.addPend n rs ws q).ops = t.ops := rfl
@[simp] theorem Team.addPend_wait (t : Team) (n : Nat) (rs : List RegName) (ws : Option (List RegWrite)) (q : Bool) : (t.addPend n rs ws q).wait = t.wait := rfl
@[simp] theorem Team.addPend_want (t : Team) (n : Nat) (rs : List RegName) (ws : Option (List RegWrite)) (q : Bool) : (t.addPend n rs ws q).want = t.want := rfl
@[simp] theorem Team.addPend_granted (t : Team) (n : Nat) (rs : List RegName) (ws : Option (List RegWrite)) (q : Bool) : (t.addPend n rs ws q).granted = t.granted := rfl
@[simp] theorem Team.addPend_spin (t : Team) (n : Nat) (rs : List RegName) (ws : Option (List RegWrite)) (q : Bool) : (t.addPend n rs ws q).spin = t.spin := rfl
@[simp] theorem Team.addPend_word (t : Team) (n : Nat) (rs : List RegName) (ws : Option (List RegWrite)) (q : Bool) : (t.addPend n rs ws q).word = t.word := rfl
@[simp] theorem Team.addPend_sample (t : Team) (n : Nat) (rs : List RegName) (ws : Option (List RegWrite)) (q : Bool) : (t.addPend n rs ws q).sample = t.sample := rfl
@[simp] theorem Team.addPend_nohit (t : Team) (n : Nat) (rs : List RegName) (ws : Option (List RegWrite)) (q : Bool) : (t.addPend n rs ws q).nohit = t.nohit := rfl
@[simp] theorem Team.addPend_retired (t : Team) (n : Nat) (rs : List RegName) (ws : Option (List RegWrite)) (q : Bool) : (t.addPend n rs ws q).retired = t.retired := rfl
@[simp] theorem Team.addPend_reason (t : Team) (n : Nat) (rs : List RegName) (ws : Option (List RegWrite)) (q : Bool) : (t.addPend n rs ws q).reason = t.reason := rfl
@[simp] theorem Team.addPend_parked (t : Team) (n : Nat) (rs : List RegName) (ws : Option (List RegWrite)) (q : Bool) : (t.addPend n rs ws q).parked = t.parked := rfl
@[simp] theorem Team.addPend_issued (t : Team) (n : Nat) (rs : List RegName) (ws : Option (List RegWrite)) (q : Bool) : (t.addPend n rs ws q).issued = t.issued := rfl
@[simp] theorem Team.addPend_counted (t : Team) (n : Nat) (rs : List RegName) (ws : Option (List RegWrite)) (q : Bool) : (t.addPend n rs ws q).counted = t.counted := rfl
@[simp] theorem Team.addPend_xinv (t : Team) (n : Nat) (rs : List RegName) (ws : Option (List RegWrite)) (q : Bool) : (t.addPend n rs ws q).xinv = t.xinv := rfl
@[simp] theorem Team.addPend_code (t : Team) (n : Nat) (rs : List RegName) (ws : Option (List RegWrite)) (q : Bool) : (t.addPend n rs ws q).code = t.code := rfl

/-! ### Team.answer -/

@[simp] theorem Team.answer_idx (t : Team) (n : Nat) (ws : List RegWrite) : (t.answer n ws).idx = t.idx := rfl
@[simp] theorem Team.answer_slot (t : Team) (n : Nat) (ws : List RegWrite) : (t.answer n ws).slot = t.slot := rfl
@[simp] theorem Team.answer_lanes (t : Team) (n : Nat) (ws : List RegWrite) : (t.answer n ws).lanes = t.lanes := rfl
@[simp] theorem Team.answer_role (t : Team) (n : Nat) (ws : List RegWrite) : (t.answer n ws).role = t.role := rfl
@[simp] theorem Team.answer_pc (t : Team) (n : Nat) (ws : List RegWrite) : (t.answer n ws).pc = t.pc := rfl
@[simp] theorem Team.answer_w (t : Team) (n : Nat) (ws : List RegWrite) : (t.answer n ws).w = t.w := rfl
@[simp] theorem Team.answer_v (t : Team) (n : Nat) (ws : List RegWrite) : (t.answer n ws).v = t.v := rfl
@[simp] theorem Team.answer_m (t : Team) (n : Nat) (ws : List RegWrite) : (t.answer n ws).m = t.m := rfl
@[simp] theorem Team.answer_x (t : Team) (n : Nat) (ws : List RegWrite) : (t.answer n ws).x = t.x := rfl
@[simp] theorem Team.answer_stack (t : Team) (n : Nat) (ws : List RegWrite) : (t.answer n ws).stack = t.stack := rfl
@[simp] theorem Team.answer_status (t : Team) (n : Nat) (ws : List RegWrite) : (t.answer n ws).status = t.status := rfl
@[simp] theorem Team.answer_fpmode (t : Team) (n : Nat) (ws : List RegWrite) : (t.answer n ws).fpmode = t.fpmode := rfl
@[simp] theorem Team.answer_trapcause (t : Team) (n : Nat) (ws : List RegWrite) : (t.answer n ws).trapcause = t.trapcause := rfl
@[simp] theorem Team.answer_trappc (t : Team) (n : Nat) (ws : List RegWrite) : (t.answer n ws).trappc = t.trappc := rfl
@[simp] theorem Team.answer_ended (t : Team) (n : Nat) (ws : List RegWrite) : (t.answer n ws).ended = t.ended := rfl
@[simp] theorem Team.answer_handler (t : Team) (n : Nat) (ws : List RegWrite) : (t.answer n ws).handler = t.handler := rfl
@[simp] theorem Team.answer_trap (t : Team) (n : Nat) (ws : List RegWrite) : (t.answer n ws).trap = t.trap := rfl
@[simp] theorem Team.answer_frame (t : Team) (n : Nat) (ws : List RegWrite) : (t.answer n ws).frame = t.frame := rfl
@[simp] theorem Team.answer_defer (t : Team) (n : Nat) (ws : List RegWrite) : (t.answer n ws).defer = t.defer := rfl
@[simp] theorem Team.answer_defers (t : Team) (n : Nat) (ws : List RegWrite) : (t.answer n ws).defers = t.defers := rfl
@[simp] theorem Team.answer_run (t : Team) (n : Nat) (ws : List RegWrite) : (t.answer n ws).run = t.run := rfl
@[simp] theorem Team.answer_ops (t : Team) (n : Nat) (ws : List RegWrite) : (t.answer n ws).ops = t.ops := rfl
@[simp] theorem Team.answer_wait (t : Team) (n : Nat) (ws : List RegWrite) : (t.answer n ws).wait = t.wait := rfl
@[simp] theorem Team.answer_want (t : Team) (n : Nat) (ws : List RegWrite) : (t.answer n ws).want = t.want := rfl
@[simp] theorem Team.answer_granted (t : Team) (n : Nat) (ws : List RegWrite) : (t.answer n ws).granted = t.granted := rfl
@[simp] theorem Team.answer_spin (t : Team) (n : Nat) (ws : List RegWrite) : (t.answer n ws).spin = t.spin := rfl
@[simp] theorem Team.answer_word (t : Team) (n : Nat) (ws : List RegWrite) : (t.answer n ws).word = t.word := rfl
@[simp] theorem Team.answer_sample (t : Team) (n : Nat) (ws : List RegWrite) : (t.answer n ws).sample = t.sample := rfl
@[simp] theorem Team.answer_nohit (t : Team) (n : Nat) (ws : List RegWrite) : (t.answer n ws).nohit = t.nohit := rfl
@[simp] theorem Team.answer_retired (t : Team) (n : Nat) (ws : List RegWrite) : (t.answer n ws).retired = t.retired := rfl
@[simp] theorem Team.answer_reason (t : Team) (n : Nat) (ws : List RegWrite) : (t.answer n ws).reason = t.reason := rfl
@[simp] theorem Team.answer_parked (t : Team) (n : Nat) (ws : List RegWrite) : (t.answer n ws).parked = t.parked := rfl
@[simp] theorem Team.answer_issued (t : Team) (n : Nat) (ws : List RegWrite) : (t.answer n ws).issued = t.issued := rfl
@[simp] theorem Team.answer_counted (t : Team) (n : Nat) (ws : List RegWrite) : (t.answer n ws).counted = t.counted := rfl
@[simp] theorem Team.answer_xinv (t : Team) (n : Nat) (ws : List RegWrite) : (t.answer n ws).xinv = t.xinv := rfl
@[simp] theorem Team.answer_code (t : Team) (n : Nat) (ws : List RegWrite) : (t.answer n ws).code = t.code := rfl

/-! ### Team.retire -/

@[simp] theorem Team.retire_idx (t : Team) (h : Hd) (k : Bool) (n : BitVec 56) : (t.retire h k n).idx = t.idx := rfl
@[simp] theorem Team.retire_slot (t : Team) (h : Hd) (k : Bool) (n : BitVec 56) : (t.retire h k n).slot = t.slot := rfl
@[simp] theorem Team.retire_lanes (t : Team) (h : Hd) (k : Bool) (n : BitVec 56) : (t.retire h k n).lanes = t.lanes := rfl
@[simp] theorem Team.retire_role (t : Team) (h : Hd) (k : Bool) (n : BitVec 56) : (t.retire h k n).role = t.role := rfl
@[simp] theorem Team.retire_w (t : Team) (h : Hd) (k : Bool) (n : BitVec 56) : (t.retire h k n).w = t.w := rfl
@[simp] theorem Team.retire_v (t : Team) (h : Hd) (k : Bool) (n : BitVec 56) : (t.retire h k n).v = t.v := rfl
@[simp] theorem Team.retire_m (t : Team) (h : Hd) (k : Bool) (n : BitVec 56) : (t.retire h k n).m = t.m := rfl
@[simp] theorem Team.retire_x (t : Team) (h : Hd) (k : Bool) (n : BitVec 56) : (t.retire h k n).x = t.x := rfl
@[simp] theorem Team.retire_stack (t : Team) (h : Hd) (k : Bool) (n : BitVec 56) : (t.retire h k n).stack = t.stack := rfl
@[simp] theorem Team.retire_status (t : Team) (h : Hd) (k : Bool) (n : BitVec 56) : (t.retire h k n).status = t.status := rfl
@[simp] theorem Team.retire_fpmode (t : Team) (h : Hd) (k : Bool) (n : BitVec 56) : (t.retire h k n).fpmode = t.fpmode := rfl
@[simp] theorem Team.retire_trapcause (t : Team) (h : Hd) (k : Bool) (n : BitVec 56) : (t.retire h k n).trapcause = t.trapcause := rfl
@[simp] theorem Team.retire_trappc (t : Team) (h : Hd) (k : Bool) (n : BitVec 56) : (t.retire h k n).trappc = t.trappc := rfl
@[simp] theorem Team.retire_ended (t : Team) (h : Hd) (k : Bool) (n : BitVec 56) : (t.retire h k n).ended = t.ended := rfl
@[simp] theorem Team.retire_handler (t : Team) (h : Hd) (k : Bool) (n : BitVec 56) : (t.retire h k n).handler = t.handler := rfl
@[simp] theorem Team.retire_trap (t : Team) (h : Hd) (k : Bool) (n : BitVec 56) : (t.retire h k n).trap = t.trap := rfl
@[simp] theorem Team.retire_frame (t : Team) (h : Hd) (k : Bool) (n : BitVec 56) : (t.retire h k n).frame = t.frame := rfl
@[simp] theorem Team.retire_defer (t : Team) (h : Hd) (k : Bool) (n : BitVec 56) : (t.retire h k n).defer = t.defer := rfl
@[simp] theorem Team.retire_defers (t : Team) (h : Hd) (k : Bool) (n : BitVec 56) : (t.retire h k n).defers = t.defers := rfl
@[simp] theorem Team.retire_pend (t : Team) (h : Hd) (k : Bool) (n : BitVec 56) : (t.retire h k n).pend = t.pend := rfl
@[simp] theorem Team.retire_ops (t : Team) (h : Hd) (k : Bool) (n : BitVec 56) : (t.retire h k n).ops = t.ops := rfl
@[simp] theorem Team.retire_wait (t : Team) (h : Hd) (k : Bool) (n : BitVec 56) : (t.retire h k n).wait = t.wait := rfl
@[simp] theorem Team.retire_spin (t : Team) (h : Hd) (k : Bool) (n : BitVec 56) : (t.retire h k n).spin = t.spin := rfl
@[simp] theorem Team.retire_word (t : Team) (h : Hd) (k : Bool) (n : BitVec 56) : (t.retire h k n).word = t.word := rfl
@[simp] theorem Team.retire_sample (t : Team) (h : Hd) (k : Bool) (n : BitVec 56) : (t.retire h k n).sample = t.sample := rfl
@[simp] theorem Team.retire_retired (t : Team) (h : Hd) (k : Bool) (n : BitVec 56) : (t.retire h k n).retired = t.retired := rfl
@[simp] theorem Team.retire_xinv (t : Team) (h : Hd) (k : Bool) (n : BitVec 56) : (t.retire h k n).xinv = t.xinv := rfl
@[simp] theorem Team.retire_code (t : Team) (h : Hd) (k : Bool) (n : BitVec 56) : (t.retire h k n).code = t.code := rfl

/-! ### Team.cutRun -/

@[simp] theorem Team.cutRun_idx (t : Team) : t.cutRun.idx = t.idx := rfl
@[simp] theorem Team.cutRun_slot (t : Team) : t.cutRun.slot = t.slot := rfl
@[simp] theorem Team.cutRun_lanes (t : Team) : t.cutRun.lanes = t.lanes := rfl
@[simp] theorem Team.cutRun_role (t : Team) : t.cutRun.role = t.role := rfl
@[simp] theorem Team.cutRun_pc (t : Team) : t.cutRun.pc = t.pc := rfl
@[simp] theorem Team.cutRun_w (t : Team) : t.cutRun.w = t.w := rfl
@[simp] theorem Team.cutRun_v (t : Team) : t.cutRun.v = t.v := rfl
@[simp] theorem Team.cutRun_m (t : Team) : t.cutRun.m = t.m := rfl
@[simp] theorem Team.cutRun_x (t : Team) : t.cutRun.x = t.x := rfl
@[simp] theorem Team.cutRun_stack (t : Team) : t.cutRun.stack = t.stack := rfl
@[simp] theorem Team.cutRun_status (t : Team) : t.cutRun.status = t.status := rfl
@[simp] theorem Team.cutRun_fpmode (t : Team) : t.cutRun.fpmode = t.fpmode := rfl
@[simp] theorem Team.cutRun_trapcause (t : Team) : t.cutRun.trapcause = t.trapcause := rfl
@[simp] theorem Team.cutRun_trappc (t : Team) : t.cutRun.trappc = t.trappc := rfl
@[simp] theorem Team.cutRun_ended (t : Team) : t.cutRun.ended = t.ended := rfl
@[simp] theorem Team.cutRun_handler (t : Team) : t.cutRun.handler = t.handler := rfl
@[simp] theorem Team.cutRun_trap (t : Team) : t.cutRun.trap = t.trap := rfl
@[simp] theorem Team.cutRun_frame (t : Team) : t.cutRun.frame = t.frame := rfl
@[simp] theorem Team.cutRun_defer (t : Team) : t.cutRun.defer = t.defer := rfl
@[simp] theorem Team.cutRun_defers (t : Team) : t.cutRun.defers = t.defers := rfl
@[simp] theorem Team.cutRun_pend (t : Team) : t.cutRun.pend = t.pend := rfl
@[simp] theorem Team.cutRun_ops (t : Team) : t.cutRun.ops = t.ops := rfl
@[simp] theorem Team.cutRun_wait (t : Team) : t.cutRun.wait = t.wait := rfl
@[simp] theorem Team.cutRun_want (t : Team) : t.cutRun.want = t.want := rfl
@[simp] theorem Team.cutRun_granted (t : Team) : t.cutRun.granted = t.granted := rfl
@[simp] theorem Team.cutRun_spin (t : Team) : t.cutRun.spin = t.spin := rfl
@[simp] theorem Team.cutRun_word (t : Team) : t.cutRun.word = t.word := rfl
@[simp] theorem Team.cutRun_sample (t : Team) : t.cutRun.sample = t.sample := rfl
@[simp] theorem Team.cutRun_nohit (t : Team) : t.cutRun.nohit = t.nohit := rfl
@[simp] theorem Team.cutRun_retired (t : Team) : t.cutRun.retired = t.retired := rfl
@[simp] theorem Team.cutRun_reason (t : Team) : t.cutRun.reason = t.reason := rfl
@[simp] theorem Team.cutRun_parked (t : Team) : t.cutRun.parked = t.parked := rfl
@[simp] theorem Team.cutRun_issued (t : Team) : t.cutRun.issued = t.issued := rfl
@[simp] theorem Team.cutRun_counted (t : Team) : t.cutRun.counted = t.counted := rfl
@[simp] theorem Team.cutRun_xinv (t : Team) : t.cutRun.xinv = t.xinv := rfl
@[simp] theorem Team.cutRun_code (t : Team) : t.cutRun.code = t.code := rfl

/-! ### Block.goOn -/

@[simp] theorem Block.goOn_id (b : Block) : b.goOn.id = b.id := rfl
@[simp] theorem Block.goOn_core (b : Block) : b.goOn.core = b.core := rfl
@[simp] theorem Block.goOn_tag (b : Block) : b.goOn.tag = b.tag := rfl
@[simp] theorem Block.goOn_bureau (b : Block) : b.goOn.bureau = b.bureau := rfl
@[simp] theorem Block.goOn_slot (b : Block) : b.goOn.slot = b.slot := rfl
@[simp] theorem Block.goOn_block (b : Block) : b.goOn.block = b.block := rfl
@[simp] theorem Block.goOn_index (b : Block) : b.goOn.index = b.index := rfl
@[simp] theorem Block.goOn_node (b : Block) : b.goOn.node = b.node := rfl
@[simp] theorem Block.goOn_tree (b : Block) : b.goOn.tree = b.tree := rfl
@[simp] theorem Block.goOn_entry (b : Block) : b.goOn.entry = b.entry := rfl
@[simp] theorem Block.goOn_wm (b : Block) : b.goOn.wm = b.wm := rfl
@[simp] theorem Block.goOn_spadSize (b : Block) : b.goOn.spadSize = b.spadSize := rfl
@[simp] theorem Block.goOn_spad (b : Block) : b.goOn.spad = b.spad := rfl
@[simp] theorem Block.goOn_full (b : Block) : b.goOn.full = b.full := rfl
@[simp] theorem Block.goOn_pages (b : Block) : b.goOn.pages = b.pages := rfl
@[simp] theorem Block.goOn_chest (b : Block) : b.goOn.chest = b.chest := rfl
@[simp] theorem Block.goOn_claims (b : Block) : b.goOn.claims = b.claims := rfl
@[simp] theorem Block.goOn_drawers (b : Block) : b.goOn.drawers = b.drawers := rfl
@[simp] theorem Block.goOn_tiles (b : Block) : b.goOn.tiles = b.tiles := rfl
@[simp] theorem Block.goOn_perm (b : Block) : b.goOn.perm = b.perm := rfl
@[simp] theorem Block.goOn_pool (b : Block) : b.goOn.pool = b.pool := rfl
@[simp] theorem Block.goOn_slabs (b : Block) : b.goOn.slabs = b.slabs := rfl
@[simp] theorem Block.goOn_rclaims (b : Block) : b.goOn.rclaims = b.rclaims := rfl
@[simp] theorem Block.goOn_barArr (b : Block) : b.goOn.barArr = b.barArr := rfl
@[simp] theorem Block.goOn_barPhase (b : Block) : b.goOn.barPhase = b.barPhase := rfl
@[simp] theorem Block.goOn_group (b : Block) : b.goOn.group = b.group := rfl
@[simp] theorem Block.goOn_partner (b : Block) : b.goOn.partner = b.partner := rfl
@[simp] theorem Block.goOn_future (b : Block) : b.goOn.future = b.future := rfl
@[simp] theorem Block.goOn_pcount (b : Block) : b.goOn.pcount = b.pcount := rfl
@[simp] theorem Block.goOn_holds (b : Block) : b.goOn.holds = b.holds := rfl
@[simp] theorem Block.goOn_regions (b : Block) : b.goOn.regions = b.regions := rfl
@[simp] theorem Block.goOn_reclaim (b : Block) : b.goOn.reclaim = b.reclaim := rfl
@[simp] theorem Block.goOn_cancelled (b : Block) : b.goOn.cancelled = b.cancelled := rfl
@[simp] theorem Block.goOn_fault (b : Block) : b.goOn.fault = b.fault := rfl
@[simp] theorem Block.goOn_stopped (b : Block) : b.goOn.stopped = b.stopped := rfl
@[simp] theorem Block.goOn_stopping (b : Block) : b.goOn.stopping = b.stopping := rfl
@[simp] theorem Block.goOn_stopTime (b : Block) : b.goOn.stopTime = b.stopTime := rfl
@[simp] theorem Block.goOn_resuming (b : Block) : b.goOn.resuming = b.resuming := rfl

end Sys2Proof.Machine
end

