-- ==== Sys2Proof/Laws/Memory.lean ====
section
/-! SUPPORT. Memory: a read after a write, what a write leaves alone, and the canonical form, which every write keeps. -/

namespace Sys2Proof.Machine

/-- Whether a memory lists an address. -/
def Memory.lists (m : Memory) (x : Nat) : Prop := ∃ c ∈ m, c.1 = x

theorem Memory.rd_unlisted {m : Memory} {x : Nat} (h : ¬ m.lists x) : m.rd x = Memory.empty := by
  induction m with
  | nil => rfl
  | cons c m ih =>
    have hc : c.1 ≠ x := fun e => h ⟨c, by simp, e⟩
    simp only [Memory.rd, if_neg hc]
    exact ih fun ⟨d, hd, e⟩ => h ⟨d, by simp [hd], e⟩

theorem Memory.rd_append_of_not {m n : Memory} {x : Nat} (h : ¬ m.lists x) : Memory.rd (m ++ n) x = n.rd x := by
  induction m with
  | nil => rfl
  | cons c m ih =>
    have hc : c.1 ≠ x := fun e => h ⟨c, by simp, e⟩
    simp only [List.cons_append, Memory.rd, if_neg hc]
    exact ih fun ⟨d, hd, e⟩ => h ⟨d, by simp [hd], e⟩

theorem Memory.rd_append_of {m n : Memory} {x : Nat} (h : m.lists x) : Memory.rd (m ++ n) x = m.rd x := by
  induction m with
  | nil => obtain ⟨c, hc, _⟩ := h; cases hc
  | cons c m ih =>
    by_cases hc : c.1 = x
    · simp [Memory.rd, hc]
    · simp only [List.cons_append, Memory.rd, if_neg hc]
      obtain ⟨d, hd, e⟩ := h
      rcases List.mem_cons.1 hd with rfl | hd
      · exact absurd e hc
      · exact ih ⟨d, hd, e⟩

theorem Memory.rd_filter {m : Memory} {x : Nat} (p : Host.Cell → Bool) (h : ∀ b, p (x, b) = true) :
    Memory.rd (m.filter p) x = m.rd x := by
  induction m with
  | nil => rfl
  | cons c m ih =>
    obtain ⟨a, b⟩ := c
    by_cases hp : p (a, b) = true
    · simp only [List.filter_cons_of_pos hp, Memory.rd]
      split
      · rfl
      · exact ih
    · have : a ≠ x := fun e => hp (e ▸ h b)
      simp only [List.filter_cons_of_neg hp, Memory.rd, if_neg this]
      exact ih

theorem Memory.lists_filter {m : Memory} {x : Nat} (p : Host.Cell → Bool) (h : ∀ b, p (x, b) = false) :
    ¬ Memory.lists (m.filter p) x := by
  rintro ⟨⟨a, b⟩, hc, rfl⟩
  simp [h] at hc

theorem cellsFrom_lists {a : Nat} {bs : List Byte} {x : Nat} (h : Memory.lists (cellsFrom a bs) x) :
    a ≤ x ∧ x < a + bs.length := by
  induction bs generalizing a with
  | nil => obtain ⟨c, hc, _⟩ := h; cases hc
  | cons b bs ih =>
    simp only [cellsFrom] at h
    split at h
    · have := ih h; simp; omega
    · obtain ⟨c, hc, rfl⟩ := h
      rcases List.mem_cons.1 hc with rfl | hc
      · simp
      · have := ih ⟨c, hc, rfl⟩; simp; omega

theorem cellsFrom_rd (a : Nat) (bs : List Byte) (i : Nat) (h : i < bs.length) :
    Memory.rd (cellsFrom a bs) (a + i) = bs[i] := by
  induction bs generalizing a i with
  | nil => simp at h
  | cons b bs ih =>
    simp only [cellsFrom]
    cases i with
    | zero =>
      split
      · next hb =>
        rw [Memory.rd_unlisted (fun hl => by have := cellsFrom_lists hl; omega)]
        simp [hb]
      · simp [Memory.rd]
    | succ i =>
      have h' : i < bs.length := by simpa using h
      have e : a + (i + 1) = a + 1 + i := by omega
      split
      · rw [e, ih _ _ h']; rfl
      · simp only [Memory.rd, if_neg (show a ≠ a + (i + 1) by omega)]
        rw [e, ih _ _ h']; rfl

/-- A write leaves every byte outside it as it was. -/
theorem Memory.rd_wr_out (m : Memory) (a : Nat) (bs : List Byte) (x : Nat) (h : x < a ∨ a + bs.length ≤ x) :
    (m.wr a bs).rd x = m.rd x := by
  have hn : ¬ Memory.lists (cellsFrom a bs) x := fun hl => by have := cellsFrom_lists hl; omega
  have e : m.wr a bs = m.filter (fun c => c.1 < a) ++ (cellsFrom a bs ++ m.filter fun c => a + bs.length ≤ c.1) := by
    simp [Memory.wr]
  rw [e]
  rcases h with h | h
  · have hf := Memory.rd_filter (m := m) (x := x) (fun c => c.1 < a) (by simp [h])
    by_cases hl : Memory.lists (m.filter fun c => c.1 < a) x
    · rw [Memory.rd_append_of hl, hf]
    · rw [Memory.rd_append_of_not hl, Memory.rd_append_of_not hn, Memory.rd_unlisted (Memory.lists_filter _ (by simp; omega)),
        ← hf, Memory.rd_unlisted hl]
  · rw [Memory.rd_append_of_not (Memory.lists_filter _ (by simp; omega)), Memory.rd_append_of_not hn,
      Memory.rd_filter _ (by simp [h])]

/-- A write gives its bytes. -/
theorem Memory.rd_wr_in (m : Memory) (a : Nat) (bs : List Byte) (i : Nat) (h : i < bs.length) :
    (m.wr a bs).rd (a + i) = bs[i] := by
  have e : m.wr a bs = m.filter (fun c => c.1 < a) ++ (cellsFrom a bs ++ m.filter fun c => a + bs.length ≤ c.1) := by
    simp [Memory.wr]
  rw [e, Memory.rd_append_of_not (Memory.lists_filter _ (by simp)), ← cellsFrom_rd a bs i h]
  by_cases hl : Memory.lists (cellsFrom a bs) (a + i)
  · rw [Memory.rd_append_of hl]
  · rw [Memory.rd_append_of_not hl, Memory.rd_unlisted (Memory.lists_filter _ (by simp; omega)), Memory.rd_unlisted hl]

/-! ### The canonical form -/

theorem Memory.wfAux_iff (lo : Nat) (m : Memory) :
    Memory.wfAux lo m = true ↔ (∀ c ∈ m, lo ≤ c.1 ∧ c.2 ≠ 0#8) ∧ m.Pairwise fun c d => c.1 < d.1 := by
  induction m generalizing lo with
  | nil => simp [Memory.wfAux]
  | cons c m ih =>
    obtain ⟨a, b⟩ := c
    simp only [Memory.wfAux, Bool.and_eq_true, decide_eq_true_eq, bne_iff_ne, ne_eq, ih, List.mem_cons, List.pairwise_cons]
    constructor
    · rintro ⟨⟨h1, h2⟩, h3, h4⟩
      refine ⟨?_, fun d hd => (h3 d hd).1, h4⟩
      rintro d (rfl | hd)
      · exact ⟨h1, h2⟩
      · have := h3 d hd; exact ⟨by omega, this.2⟩
    · rintro ⟨h1, h2, h3⟩
      exact ⟨h1 _ (.inl rfl), fun d hd => ⟨h2 d hd, (h1 d (.inr hd)).2⟩, h3⟩

theorem Memory.wf_iff (m : Memory) :
    m.wf = true ↔ (∀ c ∈ m, c.2 ≠ 0#8) ∧ m.Pairwise fun c d => c.1 < d.1 := by
  simp [Memory.wf, Memory.wfAux_iff]

theorem cellsFrom_mem {a : Nat} {bs : List Byte} {c : Host.Cell} (h : c ∈ cellsFrom a bs) :
    a ≤ c.1 ∧ c.1 < a + bs.length ∧ c.2 ≠ 0#8 := by
  induction bs generalizing a with
  | nil => cases h
  | cons b bs ih =>
    simp only [cellsFrom] at h
    split at h
    · have := ih h; exact ⟨by omega, by simp; omega, this.2.2⟩
    · next hb =>
      rcases List.mem_cons.1 h with rfl | h
      · exact ⟨Nat.le_refl _, by simp, hb⟩
      · have := ih h; exact ⟨by omega, by simp; omega, this.2.2⟩

theorem cellsFrom_pairwise (a : Nat) (bs : List Byte) : (cellsFrom a bs).Pairwise fun c d => c.1 < d.1 := by
  induction bs generalizing a with
  | nil => exact .nil
  | cons b bs ih =>
    simp only [cellsFrom]
    split
    · exact ih _
    · exact List.pairwise_cons.2 ⟨fun d hd => by have := cellsFrom_mem hd; simp; omega, ih _⟩

/-- A write keeps the canonical form. -/
theorem Memory.wr_wf (m : Memory) (a : Nat) (bs : List Byte) (h : m.wf = true) : (m.wr a bs).wf = true := by
  rw [Memory.wf_iff] at h ⊢
  obtain ⟨h1, h2⟩ := h
  constructor
  · intro c hc
    simp only [Memory.wr, List.mem_append, List.mem_filter] at hc
    rcases hc with (⟨hc, -⟩ | hc) | ⟨hc, -⟩
    · exact h1 c hc
    · exact (cellsFrom_mem hc).2.2
    · exact h1 c hc
  · simp only [Memory.wr, List.pairwise_append, List.mem_append, List.mem_filter, decide_eq_true_eq]
    refine ⟨⟨h2.filter _, cellsFrom_pairwise a bs, ?_⟩, h2.filter _, ?_⟩
    · intro c hc d hd; have := cellsFrom_mem hd; omega
    · rintro c (hc | hc) d hd
      · omega
      · have := cellsFrom_mem hc; omega

theorem Memory.wrN_wf (m : Memory) (a n v : Nat) (h : m.wf = true) : (m.wrN a n v).wf = true := m.wr_wf a _ h

/-- Writes one after another keep the canonical form. -/
theorem Memory.foldl_wr_wf {α : Type} (l : List α) (a : α → Nat) (bs : α → List Byte) (m : Memory) (h : m.wf = true) :
    (l.foldl (fun m x => Memory.wr m (a x) (bs x)) m).wf = true := by
  induction l generalizing m with
  | nil => exact h
  | cons x l ih => exact ih _ (m.wr_wf _ _ h)

/-- A physical write keeps the canonical form. -/
theorem State.pmWr_wf (s : State) (pa : Nat) (bs : List Byte) (h : s.mem.wf = true) : (s.pmWr pa bs).mem.wf = true := by
  unfold State.pmWr
  split
  · exact Memory.wr_wf _ _ _ h
  · exact Memory.foldl_wr_wf _ (fun p : Byte × Nat => s.home (pa + p.2)) (fun p => [p.1]) _ h

/-- With no line migrating, a physical write leaves every other byte as it was. -/
theorem State.pmWr_rd_out (s : State) (pa : Nat) (bs : List Byte) (x : Nat) (hm : s.migrations = [])
    (h : x < pa ∨ pa + bs.length ≤ x) : (s.pmWr pa bs).mem.rd x = s.mem.rd x := by
  simp [State.pmWr, hm, Memory.rd_wr_out _ _ _ _ h]

/-- With no line migrating, a physical write gives its bytes. -/
theorem State.pmWr_rd_in (s : State) (pa : Nat) (bs : List Byte) (i : Nat) (hm : s.migrations = []) (h : i < bs.length) :
    (s.pmWr pa bs).mem.rd (pa + i) = bs[i] := by
  simp [State.pmWr, hm, Memory.rd_wr_in _ _ _ _ h]

theorem natBytes_length (n v : Nat) : (natBytes n v).length = n := by
  induction n generalizing v with
  | zero => rfl
  | succ n ih => simp [natBytes, ih]

/-- The bytes of a value give the value back, modulo its size. -/
theorem bytesNat_natBytes (n v : Nat) : bytesNat (natBytes n v) = v % 256 ^ n := by
  induction n generalizing v with
  | zero => simp [natBytes, bytesNat, Nat.mod_one]
  | succ n ih =>
    simp only [natBytes, bytesNat, ih, BitVec.toNat_ofNat]
    show v % 256 + 256 * (v / 256 % 256 ^ n) = v % 256 ^ (n + 1)
    rw [Nat.pow_succ', Nat.mod_mul]

theorem Memory.bytes_wr (m : Memory) (a : Nat) (bs : List Byte) : (m.wr a bs).bytes a bs.length = bs := by
  have key : ∀ (n k : Nat), n + k = bs.length → (m.wr a bs).bytes (a + k) n = bs.drop k := by
    intro n
    induction n with
    | zero => intro k hk; simp [Memory.bytes, List.drop_of_length_le (show bs.length ≤ k by omega)]
    | succ n ih =>
      intro k hk
      have hk' : k < bs.length := by omega
      rw [Memory.bytes, Memory.rd_wr_in _ _ _ _ hk', Nat.add_assoc, ih (k + 1) (by omega)]
      exact (List.drop_eq_getElem_cons hk').symm
  simpa using key bs.length 0 rfl

/-- A value read back after it was written. -/
theorem Memory.rdN_wrN (m : Memory) (a n v : Nat) : (m.wrN a n v).rdN a n = v % 256 ^ n := by
  have h := m.bytes_wr a (natBytes n v)
  rw [natBytes_length] at h
  simp only [Memory.rdN, Memory.wrN, h, bytesNat_natBytes]

/-- The bytes of a range that a write does not meet. -/
theorem Memory.bytes_wr_out (m : Memory) (a : Nat) (bs : List Byte) (x n : Nat) (h : x + n ≤ a ∨ a + bs.length ≤ x) :
    (m.wr a bs).bytes x n = m.bytes x n := by
  induction n generalizing x with
  | zero => rfl
  | succ n ih => rw [Memory.bytes, Memory.bytes, m.rd_wr_out a bs x (by omega), ih (x + 1) (by omega)]

end Sys2Proof.Machine
end

