-- ==== Sys2Proof/Laws/Ops.lean ====
section
/-! SUPPORT. What the shared operations do: finding what was updated, the checks of a word, and how a word issues. -/

namespace Sys2Proof.Machine

/-! ### Updates by key -/

theorem find?_updWhere_same {α : Type} (p : α → Bool) (f : α → α) (l : List α) (h : ∀ x, p x = true → p (f x) = true) :
    (updWhere p f l).find? p = (l.find? p).map f := by
  induction l with
  | nil => rfl
  | cons x l ih =>
    simp only [updWhere, List.map_cons, List.find?_cons] at ih ⊢
    by_cases hx : p x = true
    · simp [hx, h x hx]
    · simp only [hx, Bool.false_eq_true, if_false]
      exact ih

theorem find?_updWhere_other {α : Type} (p q : α → Bool) (f : α → α) (l : List α)
    (h : ∀ x, p x = true → q x = false ∧ q (f x) = false) : (updWhere p f l).find? q = l.find? q := by
  induction l with
  | nil => rfl
  | cons x l ih =>
    simp only [updWhere, List.map_cons, List.find?_cons] at ih ⊢
    by_cases hx : p x = true
    · simp only [hx, if_true, (h x hx).1, (h x hx).2]; exact ih
    · simp only [hx, Bool.false_eq_true, if_false]
      split
      · rfl
      · exact ih

theorem find?_key {α : Type} {p : α → Bool} {l : List α} {x : α} (h : l.find? p = some x) : p x = true :=
  List.find?_some h

theorem State.block?_updBlock (s : State) (b : Nat) (f : Block → Block) (hf : ∀ x, (f x).id = x.id) :
    (s.updBlock b f).block? b = (s.block? b).map f :=
  find?_updWhere_same _ f s.blocks fun x hx => by simpa [hf x] using hx

theorem State.block?_updBlock_ne (s : State) (b c : Nat) (f : Block → Block) (hf : ∀ x, (f x).id = x.id) (h : c ≠ b) :
    (s.updBlock b f).block? c = s.block? c :=
  find?_updWhere_other _ _ f s.blocks fun x hx => by
    have : x.id = b := by simpa using hx
    simp [hf x, this, Ne.symm h]

theorem Block.team?_updTeam (b : Block) (t : Nat) (f : Team → Team) (hf : ∀ x, (f x).idx = x.idx) :
    (b.updTeam t f).team? t = (b.team? t).map f :=
  find?_updWhere_same _ f b.teams fun x hx => by simpa [hf x] using hx

theorem Block.team?_updTeam_ne (b : Block) (t u : Nat) (f : Team → Team) (hf : ∀ x, (f x).idx = x.idx) (h : u ≠ t) :
    (b.updTeam t f).team? u = b.team? u :=
  find?_updWhere_other _ _ f b.teams fun x hx => by
    have : x.idx = t := by simpa using hx
    simp [hf x, this, Ne.symm h]

/-- The team that was changed is the old one with the change, in its block with the change. -/
theorem State.team?_updTeam {s : State} {r : TRef} {b : Block} {t : Team} (f : Team → Team) (hf : ∀ x, (f x).idx = x.idx)
    (h : s.team? r = some (b, t)) : (s.updTeam r f).team? r = some (b.updTeam r.t f, f t) := by
  unfold State.team? at h ⊢
  have hb : (s.updTeam r f).block? r.b = (s.block? r.b).map fun b => b.updTeam r.t f :=
    s.block?_updBlock r.b _ fun _ => rfl
  rw [hb]
  cases hs : s.block? r.b with
  | none => simp [hs] at h
  | some c =>
    simp only [hs, Option.map_some] at h ⊢
    rw [c.team?_updTeam r.t f hf]
    cases ht : c.team? r.t with
    | none => simp [ht] at h
    | some u => simp only [ht, Option.some.injEq, Prod.mk.injEq] at h; simp [← h.1, ← h.2]

/-- A team of another name is found as before, up to the change inside its block. -/
theorem State.team?_updTeam_ne {s : State} {r q : TRef} (f : Team → Team) (hf : ∀ x, (f x).idx = x.idx) (h : q ≠ r) :
    ((s.updTeam r f).team? q).map Prod.snd = (s.team? q).map Prod.snd := by
  unfold State.team?
  by_cases hb : q.b = r.b
  · have ht : q.t ≠ r.t := fun e => h (by cases q; cases r; simp_all)
    have : (s.updTeam r f).block? q.b = (s.block? q.b).map fun b => b.updTeam r.t f := by
      rw [hb]; exact s.block?_updBlock r.b _ fun _ => rfl
    rw [this]
    cases s.block? q.b with
    | none => rfl
    | some c =>
      simp only [Option.map_some, c.team?_updTeam_ne r.t q.t f hf ht]
      cases c.team? q.t <;> rfl
  · have : (s.updTeam r f).block? q.b = s.block? q.b := s.block?_updBlock_ne r.b q.b _ (fun _ => rfl) hb
    rw [this]

/-- A context that was changed. -/
theorem State.ctx?_updCtx (s : State) (t : BitVec 12) (f : Ctx → Ctx) (hf : ∀ c, (f c).tag = c.tag) :
    (s.updCtx t f).ctx? t = (s.ctx? t).map f :=
  find?_updWhere_same _ f s.ctxs fun x hx => by simpa [hf x] using hx

theorem State.ctx?_updCtx_ne (s : State) (t u : BitVec 12) (f : Ctx → Ctx) (hf : ∀ c, (f c).tag = c.tag) (h : u ≠ t) :
    (s.updCtx t f).ctx? u = s.ctx? u :=
  find?_updWhere_other _ _ f s.ctxs fun x hx => by
    have : x.tag = t := by simpa using hx
    simp [hf x, this, Ne.symm h]

theorem getD_updAt_same {α : Type} (f : α → α) (l : List α) (i : Nat) (d : α) (h : i < l.length) :
    (updAt f l i).getD i d = f (l.getD i d) := by
  induction l generalizing i with
  | nil => simp at h
  | cons x l ih => cases i with
    | zero => rfl
    | succ i => exact ih i (by simpa using h)

theorem getD_updAt_ne {α : Type} (f : α → α) (l : List α) (i j : Nat) (d : α) (h : j ≠ i) :
    (updAt f l i).getD j d = l.getD j d := by
  induction l generalizing i j with
  | nil => rfl
  | cons x l ih => cases i with
    | zero => cases j with
      | zero => exact absurd rfl h
      | succ j => rfl
    | succ i => cases j with
      | zero => rfl
      | succ j => exact ih i j fun e => h (by rw [e])

/-- A die that was changed. -/
theorem State.die_updDie (s : State) (e : Nat) (f : Die → Die) (h : e < s.dies.length) :
    (s.updDie e f).die e = f (s.die e) := getD_updAt_same f _ _ _ h

theorem State.die_updDie_ne (s : State) (e g : Nat) (f : Die → Die) (h : g ≠ e) : (s.updDie e f).die g = s.die g :=
  getD_updAt_ne f _ _ _ _ h

theorem entry?_entryPut {α : Type} (l : List (Nat × α)) (i : Nat) (x : α) : entry? (entryPut l i x) i = some x := by
  unfold entry? entryPut
  have h1 : (l.filter fun p => decide (p.1 < i)).find? (fun p => p.1 == i) = none := by
    rw [List.find?_eq_none]; intro p hp; simp at hp ⊢; omega
  rw [List.append_assoc, List.find?_append, h1]
  simp

theorem find?_filter_imp {α : Type} (p q : α → Bool) (l : List α) (h : ∀ x, q x = true → p x = true) :
    (l.filter p).find? q = l.find? q := by
  induction l with
  | nil => rfl
  | cons x l ih =>
    by_cases hp : p x = true
    · simp only [List.filter_cons_of_pos hp, List.find?_cons, ih]
    · have : q x = false := by cases hq : q x with
        | false => rfl
        | true => exact absurd (h x hq) hp
      simp only [List.filter_cons_of_neg hp, List.find?_cons, this, ih]

theorem entry?_entryPut_ne {α : Type} (l : List (Nat × α)) (i j : Nat) (x : α) (h : j ≠ i) :
    entry? (entryPut l i x) j = entry? l j := by
  unfold entry? entryPut
  congr 1
  rw [List.append_assoc, List.find?_append, List.find?_append]
  rcases Nat.lt_or_gt_of_ne h with hj | hj
  · have e1 := find?_filter_imp (fun p : Nat × α => decide (p.1 < i)) (fun p => p.1 == j) l (by simp; omega)
    have e2 : (l.filter fun p => decide (i < p.1)).find? (fun p => p.1 == j) = none := by
      rw [List.find?_eq_none]; intro p hp; simp at hp ⊢; omega
    have e3 : ([(i, x)] : List (Nat × α)).find? (fun p => p.1 == j) = none := by
      simp [show (i == j) = false by simp; omega]
    rw [e1, e2, e3]; simp
  · have e1 : (l.filter fun p => decide (p.1 < i)).find? (fun p => p.1 == j) = none := by
      rw [List.find?_eq_none]; intro p hp; simp at hp ⊢; omega
    have e2 := find?_filter_imp (fun p : Nat × α => decide (i < p.1)) (fun p => p.1 == j) l (by simp; omega)
    have e3 : ([(i, x)] : List (Nat × α)).find? (fun p => p.1 == j) = none := by
      simp [show (i == j) = false by simp; omega]
    rw [e1, e2, e3]; simp

/-! ### The checks of a word (R92, R97) -/

/-- A word that nothing holds back goes on to its own effect. -/
theorem State.chk_free {s : State} {rs ws : List RegName} {k : Bool} {b : Block} {t : Team} (h : s.Free rs ws k b t)
    (f : Block → Team → Out) : s.chk rs ws k f = f b t := by
  unfold State.chk State.onTeam
  rw [h.team]
  simp only [h.here, h.clear, h.quiet, Bool.false_eq_true, if_false]

/-- All that the checks of a word can come to: no team issues; the word traps with ILLREG; it parks with SCORE or SWITCH; or
nothing holds it back. -/
theorem State.chk_cases (s : State) (rs ws : List RegName) (k : Bool) (f : Block → Team → Out) :
    (s.team? s.cur.r = none ∧ s.chk rs ws k f = .fault .noTeam) ∨
    ∃ b t, s.team? s.cur.r = some (b, t) ∧
      ((t.absent (rs ++ ws) = true ∧ s.chk rs ws k f = .next (s.trap .illreg)) ∨
       (t.pending s.cur.base (rs ++ ws) = true ∧ s.chk rs ws k f = .next (s.scorePark b t (rs ++ ws))) ∨
       ((k && t.runBusy s.clock ws) = true ∧ s.chk rs ws k f = .next (s.park .switch)) ∨
       (s.Free rs ws k b t ∧ s.chk rs ws k f = f b t)) := by
  cases ht : s.team? s.cur.r with
  | none => left; simp [State.chk, State.onTeam, ht]
  | some p =>
    obtain ⟨b, t⟩ := p
    refine .inr ⟨b, t, rfl, ?_⟩
    cases h1 : t.absent (rs ++ ws) with
    | true => left; simp [State.chk, State.onTeam, ht, h1]
    | false =>
      right
      cases h2 : t.pending s.cur.base (rs ++ ws) with
      | true => left; simp [State.chk, State.onTeam, ht, h1, h2]
      | false =>
        right
        cases h3 : k && t.runBusy s.clock ws with
        | true => left; simp [State.chk, State.onTeam, ht, h1, h2, h3]
        | false => right; exact ⟨⟨ht, h1, h2, h3⟩, State.chk_free ⟨ht, h1, h2, h3⟩ f⟩

/-! ### How a word issues -/

/-- The team after its word has issued. -/
theorem State.team?_issue {s : State} {b : Block} {t : Team} (h : Hd) (k : Bool) (f : Team → Team)
    (hf : ∀ x, (f x).idx = x.idx) (ht : s.team? s.cur.r = some (b, t)) :
    (s.issue h k f).team? s.cur.r =
      some (b.updTeam s.cur.r.t fun u => (f u).retire h k s.cur.next, (f t).retire h k s.cur.next) :=
  State.team?_updTeam (fun u => (f u).retire h k s.cur.next) (fun x => by simp [hf x]) ht

/-- Another team is as it was. -/
theorem State.team?_issue_ne (s : State) (h : Hd) (k : Bool) (f : Team → Team) (hf : ∀ x, (f x).idx = x.idx) {q : TRef}
    (hq : q ≠ s.cur.r) : ((s.issue h k f).team? q).map Prod.snd = (s.team? q).map Prod.snd :=
  State.team?_updTeam_ne (fun u => (f u).retire h k s.cur.next) (fun x => by simp [hf x]) hq

@[simp] theorem State.issue_res (s : State) (h : Hd) (k : Bool) (f : Team → Team) : (s.issue h k f).cur.res = .issued := rfl
@[simp] theorem State.park_res (s : State) (q : Reason) : (s.park q).cur.res = .parked := rfl
@[simp] theorem State.parkFor_res (s : State) (q : Reason) (w : Want) : (s.parkFor q w).cur.res = .parked := rfl
@[simp] theorem State.trapReq_res (s : State) (q : TrapReq) : (s.trapReq q).cur.res = .trapped := rfl
@[simp] theorem State.trapReq_req (s : State) (q : TrapReq) : (s.trapReq q).cur.req = some q := rfl
@[simp] theorem State.trap_res (s : State) (c : Cause) : (s.trap c).cur.res = .trapped := rfl
@[simp] theorem State.trapAt_res (s : State) (c : Cause) (i : Nat) (l : List (Nat × Nat × Nat × Bool)) :
    (s.trapAt c i l).cur.res = .trapped := rfl
@[simp] theorem State.trapNext_res (s : State) (c : Cause) (i : Nat) (w : Option Word) :
    (s.trapNext c i w).cur.res = .trapped := rfl

theorem State.scorePark_res (s : State) (b : Block) (t : Team) (rs : List RegName) :
    (s.scorePark b t rs).cur.res = .parked := by
  unfold State.scorePark
  split
  · dsimp only
    split
    · rfl
    · rfl
  · rfl

/-- A word issues through its checks only where nothing holds it back. -/
theorem State.chk_issued {s u : State} {rs ws : List RegName} {k : Bool} {f : Block → Team → Out}
    (h : s.chk rs ws k f = .next u) (hu : u.cur.res = .issued) : ∃ b t, s.Free rs ws k b t ∧ f b t = .next u := by
  rcases s.chk_cases rs ws k f with ⟨-, e⟩ | ⟨b, t, -, ⟨-, e⟩ | ⟨-, e⟩ | ⟨-, e⟩ | ⟨hf, e⟩⟩
  · rw [e] at h; cases h
  · rw [e] at h; cases h; cases hu
  · rw [e] at h; cases h; rw [State.scorePark_res] at hu; cases hu
  · rw [e] at h; cases h; cases hu
  · exact ⟨b, t, hf, e ▸ h⟩

end Sys2Proof.Machine
end

