-- ==== Sys2Proof/Tests/Slice0.lean ====
section
/-! SUPPORT. Tests: ill-formed terms, words written out from the encodings of the spec, single steps on a small state with results from the
spec's own examples or by hand, and for each statement a state and operands that meet its hypotheses. -/

set_option Elab.async false

namespace Sys2Proof.Tests
open Sys2Proof.Machine Sys2Proof.Claims

/-! ### A small state -/

/-- A header without prefixes. -/
def h0 : Hd := ⟨false, false, none, none⟩

/-- A team of 32 lanes with 16 vector registers: w1 = 7, w2 = -3, w3 = 64, and v1, v2 with a value for each lane. -/
def team0 : Team :=
  let t := Team.start 0 0 32 16 0#4 0#56 [0#64, 7#64, 0xFFFFFFFFFFFFFFFD#64, 64#64]
  { t with v := (t.v.set 1 ((List.range 32).map fun l => BitVec.ofNat 32 (3 * l))).set 2 (List.replicate 32 0x3F800000#32) }

/-- A block of that team on core 0, with 1,024 bytes of scratchpad. -/
def block0 : Block :=
  { id := 0, core := 0, place := .resident, tag := 5#12, bureau := none, slot := 0, block := 0#32, index := 0, node := none, tree := none
    entry := 0#56, wm := 1, teams := [team0], spadSize := 1024, spad := [], full := [], pages := [0]
    chest := [], claims := [], drawers := List.replicate 16 drawerZero, tiles := [Tile.zero 0, Tile.zero 1], perm := none, ocache := []
    pool := 0, slabs := 4, rclaims := [], barArr := [], barPhase := 0, group := none, partner := none, future := none, pcount := 0
    holds := [], regions := [], reclaim := false, cancelled := false, fault := none, stopped := false, stopping := none, stopTime := 0
    resuming := false, halt := false }

/-- A level of its context: the flat launch of one block, in slot 0. -/
def level0 : Level :=
  { slot := 0, gen := 3#32, kind := 1, lkind := .flat, parent := none, counter := 2, complete := false, status := 0#64, cancelled := false
    ndone := 0, bad := 0, low := none, pfault := false, phase := 0, auto := false, die := 0 }

/-- A context with tag 5, with two trap frames at 0x20000 and its handlers installed. -/
def ctx0 : Ctx := { Ctx.probe with tag := 5#12, levels := [level0], frames := 2, trapvec := 12#64, emuvec := 24#64 }

/-- A page of 64 KiB of it, at virtual address `a` and physical address 2^32 + `a`. -/
def page0 (a : Nat) : TlbEntry := { tag := 5#12, page := a, size := 0x10000, frame := 0x100000000 + a, perm := 0xF#4 }

/-- A state in which that team issues the word at address 0, with changes to team, block and state. -/
def st (f : Team → Team) (g : Block → Block) (k : State → State) : State :=
  k { State.reset with
    ctxs := [ctx0], tlb1 := [(0, [page0 0, page0 0x10000, page0 0x20000, page0 0x30000])]
    blocks := [g { block0 with teams := [f team0] }], clock := 100, nextId := 50
    cur := ⟨⟨0, 0⟩, 0#56, 0#56, 4#56, 40, [], .none, none⟩ }

/-- The state without changes. -/
def s0 : State := st id id id

/-- What an instruction does to its team, where it issues. -/
def issued (i : Instr) (s : State) (p : State → Team → Bool) : Bool :=
  match exec i s with
  | .next v => v.cur.res == .issued && (match v.team? v.cur.r with | some (_, u) => p v u | none => false)
  | _ => false

/-- The run-bound writes of a team. -/
def outs (u : Team) : List RegWrite := u.run.writes.map fun w => w.write

/-- A word that traps with a cause. -/
def traps (i : Instr) (s : State) (c : Cause) : Bool :=
  match exec i s with
  | .next v => v.cur.res == .trapped && (match v.cur.req with | some q => q.cause == c | none => false)
  | _ => false

/-- A word that parks with a reason. -/
def parks (i : Instr) (s : State) (c : Reason) : Bool :=
  match exec i s with
  | .next v => v.cur.res == .parked && (match v.team? v.cur.r with | some (_, u) => u.reason == c | none => false)
  | _ => false

/-- The small state with vector registers set lane by lane. -/
def sv (l : List (Nat × (Nat → Nat))) (f : Team → Team) : State :=
  st (fun t => f (l.foldl (fun t p => { t with v := t.v.set p.1 ((List.range 32).map fun i => BitVec.ofNat 32 (p.2 i)) }) t)) id id

/-- A number of a list, by index. -/
def nth (l : List Nat) : Nat → Nat := fun i => l.getD i 0

/-- The team with m0 holding the lanes below `n`. -/
def low (n : Nat) (t : Team) : Team := { t with m := t.m.set 0 (maskAll n) }

/-! ### Ill-formed terms, one for each check of `Instr.wf` -/

/-- No term of a list is well formed. -/
def ill (l : List Instr) : Bool := l.all fun i => !i.wf

/-- Headers with a modifier prefix of one field, and with an immediate prefix. -/
def hMv : Hd := ⟨false, false, some ⟨some 1#3, none, 0#3, false, none⟩, none⟩
def hTy (t : BitVec 4) : Hd := ⟨false, false, some ⟨none, some t, 0#3, false, none⟩, none⟩
def hRnd (r : BitVec 3) : Hd := ⟨false, false, some ⟨none, none, r, false, none⟩, none⟩
def hSat : Hd := ⟨false, false, some ⟨none, none, 0#3, true, none⟩, none⟩
def hSc (c : BitVec 3) : Hd := ⟨false, false, some ⟨none, none, 0#3, false, some c⟩, none⟩
def hIm : Hd := ⟨false, false, none, some 5#23⟩
/-- A header with C set, and one whose prefix says nothing. -/
def hC : Hd := ⟨true, false, none, none⟩
def hNil : Hd := ⟨false, false, some ⟨none, none, 0#3, false, none⟩, none⟩

/-- Prefix fields that a word does not accept (R102, R103, R156, R181, R214, R218, R267, R305). -/
theorem test_ill_formed_prefix : ill
    [.uadd hMv 1#6 2#6 3#6, .nop (hTy 4#4), .vdot4 (hTy 4#4) 0#3 1#6 2#6 3#6, .vadd (hRnd 1#3) 0#3 1#6 2#6 3#6, .ffma (hRnd 5#3) 0#3 1#6 2#6 3#6
     , .fabs (hRnd 2#3) 0#3 1#6 2#6, .vand hSat 0#3 1#6 2#6 3#6, .vadd ⟨false, false, some ⟨none, some 6#4, 0#3, true, none⟩, none⟩ 0#3 2#6 4#6 6#6
     , .pref (hSc 2#3) 0#3 1#3 2#6 0#1, .ldg (hSc 7#3) 0#3 1#6 1#3 2#6 0#1 2#2, .uadd hIm 1#6 2#6 3#6, .mma hNil 0#4 2#6 0#1 0#2 0#2 0#1
     , .spawn hNil 1#6 2#6, .cvt hSat 10#4 0#3 2#6 4#6 10#4, .vcmpEq (hTy 8#4) 0#3 1#3 2#6 4#6, .red (hTy 10#4) 0#4 0#3 2#6 1#3 4#6 0#1
     , .vshuf (hTy 4#4) 0#3 2#6 4#6 6#6, .isect (hTy 7#4) 1#6 2#6 2#2, .extn hNil 1#7 0#4 1#6 2#6 0#1] = true := by
  decide +kernel

/-- Words that must end their chain with C set (R87, R89). -/
theorem test_ill_formed_chain : ill
    [.trap hC 1#6, .tret hC, .wfi hC, .jmp hC 1#18, .call hC 1#6 1#15, .ret hC 1#6, .brmAny hC 0#3 1#18, .recon hC, .ldsFe hC 0#3 2#6 4#6 0#1 2#2
     , .bwait hC 1#6 2#6, .sgjoin hC 1#6, .fwait hC 1#6 2#6, .rpoint hC, .recv hC 1#6 2#6, .qpop hC 1#6 2#6, .bar hC, .exit hC
     , .lvlwait hC 1#6 2#6, .lvlwaitPoll hC 1#6 2#6, .extn hC 1#7 0#4 1#6 2#6 0#1] = true := by decide +kernel

/-- Odd registers of 64-bit operands, and operand blocks that are not aligned (R97, R154, R212, R219). -/
theorem test_ill_formed_pairs : ill
    [.vadd (hTy 6#4) 0#3 1#6 2#6 4#6, .vand (hTy 7#4) 0#3 2#6 3#6 4#6, .vmin (hTy 6#4) 0#3 2#6 4#6 5#6, .dadd h0 0#3 1#6 2#6 4#6
     , .dmin h0 0#3 2#6 4#6 5#6, .dsqrt h0 0#3 2#6 5#6, .cvt h0 11#4 0#3 1#6 2#6 10#4, .cvt h0 10#4 0#3 1#6 3#6 11#4
     , .vcmpLt (hTy 11#4) 0#3 1#3 3#6 4#6, .vcmpUn (hTy 11#4) 0#3 1#3 4#6 5#6, .vshuf (hTy 7#4) 0#3 3#6 4#6 1#6, .vbcast (hTy 7#4) 0#3 4#6 5#6 1#6
     , .vred h0 0#3 1#6 3#6 12#4, .vscan h0 0#3 3#6 4#6 0#1 12#4, .vsel (hTy 7#4) 0#3 2#6 4#6 7#6, .vmov (hTy 7#4) 0#3 2#6 5#6
     , .vmovw (hTy 7#4) 0#3 3#6 5#6, .ldg h0 0#3 3#6 1#3 2#6 0#1 3#2, .lds h0 0#3 3#6 2#6 0#1 3#2, .stg h0 0#3 3#6 1#3 2#6 3#2, .sts h0 0#3 3#6 2#6 3#2
     , .atom h0 7#4 0#3 3#6 1#3 2#6 0#1, .atom (hTy 7#4) 7#4 0#3 2#6 1#3 2#6 0#1, .red (hTy 7#4) 0#4 0#3 3#6 1#3 2#6 0#1
     , .scatc (hTy 7#4) 0#3 3#6 1#3 2#6 0#1 0#2, .vsegred (hTy 11#4) 0#3 3#6 4#6 5#6, .vcompress (hTy 7#4) 0#3 2#6 3#6] = true := by
  decide +kernel

/-- Values of a field that a row reserves (R125, R128, R129, R168, R169, R172, R212, R217, R218, R222, R229, R275, R278, R289). -/
theorem test_ill_formed_fields : ill
    [.mand h0 1#1 1#3 2#3 3#3, .cvt h0 14#4 0#3 2#6 4#6 10#4, .cvt h0 10#4 0#3 2#6 4#6 14#4, .vcmpUn h0 0#3 1#3 2#6 4#6, .vred h0 0#3 1#6 2#6 15#4
     , .vscan h0 0#3 2#6 4#6 0#1 15#4, .ldg h0 0#3 2#6 1#3 4#6 1#1 3#2, .ldg h0 0#3 2#6 1#3 4#6 1#1 2#2, .ldw h0 2#6 1#3 4#6 1#1 3#2
     , .atom h0 11#4 0#3 2#6 1#3 4#6 0#1, .atom h0 0#4 0#3 2#6 1#3 4#6 1#1, .red h0 6#4 0#3 2#6 1#3 4#6 0#1, .red h0 7#4 0#3 2#6 1#3 4#6 0#1
     , .red h0 0#4 0#3 2#6 1#3 4#6 1#1, .scatc h0 0#3 2#6 1#3 4#6 1#1 0#2, .xfence h0 6#3 0#3, .xfence h0 0#3 7#3, .cpy h0 1#6 2#6 0#3 3#2 0#2
     , .cpy h0 1#6 61#6 0#3 0#2 0#2, .tcpy h0 1#6 2#6 0#3 0#2 2#2, .gcpy h0 1#6 2#6 0#3 0#2 1#2, .scpy h0 1#6 2#6 0#3 0#2 0#2, .isect h0 1#6 2#6 1#2
     , .isect h0 1#6 62#6 2#2, .isectn h0 1#6 63#6 2#2, .nredOrd h0 63#6 2#6 0#5 0#1, .nredAny h0 1#6 2#6 17#5 0#1, .mma h0 0#4 62#6 0#1 0#2 0#2 0#1
     , .mmaZ h0 0#4 2#6 0#1 3#2 0#2 0#1, .mload h0 0#4 63#6 0#1, .spawn h0 1#6 63#6, .fpoll h0 63#6 1#6, .binpost h0 1#6 60#6 7#3 0#1
     , .sendt h0 1#6 63#6, .qcreate h0 1#6 63#6, .rdc h0 1#6 0#6, .rdc h0 1#6 27#6, .rdcV h0 1#6 27#6, .wrc h0 27#6 1#6, .rgive h0 0#6, .rclaim h0 8#6
     , .vabs (hTy 5#4) 0#3 1#6 2#6, .vbfx (hTy 6#4) 0#3 2#6 4#6 6#6, .vcmpOrd (hTy 4#4) 0#3 1#3 2#6 4#6] = true := by decide +kernel

/-- The decoder refuses: an immediate prefix before UADD (R103), a reserved sub of UADD (R107), JMP with C set (R87), a prefix of PK 2 and a
prefix without a target (R101), RGIVE 0 (R129), and no word at all. -/
def refuses (ws : List Word) : Bool := match decode (wordsBytes ws) with | .ok _ => false | _ => true
theorem test_decoder_refuses :
    refuses [0x3C800005#32, 0x02001083#32] = true ∧ refuses [0x02101083#32] = true ∧ refuses [0x88000001#32] = true ∧
    refuses [0x3D000000#32, 0x00000000#32] = true ∧ refuses [0x3C800005#32] = true ∧ refuses [0x38400000#32] = true ∧ refuses [] = true := by
  decide +kernel

/-! ### Words written out from the encodings of the opcode table -/

/-- The words decode to an instruction. -/
def reads (ws : List Word) (i : Instr) : Bool := match decode (wordsBytes ws) with | .ok j => j == i | _ => false

theorem test_decode_class_system :
    [(0x00000000#32, .nop h0)
     , (0x00200002#32, .trap h0 2#6)
     , (0x00400000#32, .tret h0)
     , (0x00600B02#32, .trig h0 44#6 2#6)
     , (0x00800000#32, .wfi h0)
     , (0x00A16B00#32, .cswap h0 22#6 44#6)
     , (0x00C16B00#32, .dusk h0 22#6 44#6)
     , (0x00C56B00#32, .duskRet h0 22#6 44#6)
     , (0x00E00000#32, .sample h0)].all (fun (p : Word × Instr) => reads [p.1] p.2) = true := by decide +kernel

theorem test_decode_class_ualu :
    [(0x02016B32#32, .uadd h0 22#6 44#6 50#6)
     , (0x02216B32#32, .usub h0 22#6 44#6 50#6)
     , (0x02416B32#32, .umul h0 22#6 44#6 50#6)
     , (0x02616B32#32, .umulh h0 0#1 22#6 44#6 50#6)
     , (0x02816B32#32, .uand h0 22#6 44#6 50#6)
     , (0x02A16B32#32, .uor h0 22#6 44#6 50#6)
     , (0x02C16B32#32, .uxor h0 22#6 44#6 50#6)
     , (0x02E16B32#32, .ushl h0 22#6 44#6 50#6)
     , (0x03016B32#32, .ushr h0 22#6 44#6 50#6)
     , (0x03216B32#32, .usar h0 22#6 44#6 50#6)
     , (0x03416B32#32, .umin h0 0#1 22#6 44#6 50#6)
     , (0x03616B32#32, .umax h0 0#1 22#6 44#6 50#6)
     , (0x03816B32#32, .ucmp h0 0#1 22#6 44#6 50#6)
     , (0x03A16B32#32, .ubfx h0 0#1 22#6 44#6 50#6)
     , (0x03C16B32#32, .ubfi h0 22#6 44#6 50#6)].all (fun (p : Word × Instr) => reads [p.1] p.2) = true := by decide +kernel

theorem test_decode_class_uimm :
    [(0x040B592C#32, .uaddImm h0 22#6 44#6 300#9)
     , (0x042B592C#32, .uandImm h0 22#6 44#6 300#9)
     , (0x044B592C#32, .uorImm h0 22#6 44#6 300#9)
     , (0x046B592C#32, .uxorImm h0 22#6 44#6 300#9)
     , (0x048B592C#32, .ushlImm h0 22#6 44#6 300#9)
     , (0x04AB592C#32, .ushrImm h0 22#6 44#6 300#9)
     , (0x04CB592C#32, .usarImm h0 22#6 44#6 300#9)
     , (0x04EB592C#32, .umulImm h0 22#6 44#6 300#9)].all (fun (p : Word × Instr) => reads [p.1] p.2) = true := by decide +kernel

theorem test_decode_class_uimm3 :
    [(0x06B0012C#32, .ului h0 22#6 300#19)].all (fun (p : Word × Instr) => reads [p.1] p.2) = true := by decide +kernel

theorem test_decode_class_flow :
    [(0x0803FFFD#32, .jmp h0 262141#18)
     , (0x0823FFFD#32, .call h0 7#6 32765#15)
     , (0x08438000#32, .ret h0 7#6)
     , (0x0877FFFD#32, .brmAny h0 5#3 262141#18)
     , (0x0897FFFD#32, .brmAll h0 5#3 262141#18)
     , (0x08B7FFFD#32, .brmNone h0 5#3 262141#18)
     , (0x08D7FFFD#32, .vbr h0 5#3 262141#18)
     , (0x08E00000#32, .recon h0)
     , (0x0903FFFD#32, .bruZ h0 7#6 32765#15)
     , (0x0923FFFD#32, .bruNz h0 7#6 32765#15)
     , (0x0943FFFD#32, .bruNeg h0 7#6 32765#15)
     , (0x0963FFFD#32, .bruNneg h0 7#6 32765#15)].all (fun (p : Word × Instr) => reads [p.1] p.2) = true := by decide +kernel

theorem test_decode_class_mask :
    [(0x0A006102#32, .mand h0 0#1 6#3 4#3 2#3)
     , (0x0A206102#32, .mor h0 0#1 6#3 4#3 2#3)
     , (0x0A406102#32, .mxor h0 0#1 6#3 4#3 2#3)
     , (0x0A606102#32, .mandn h0 0#1 6#3 4#3 2#3)
     , (0x0A806100#32, .mlead h0 6#3 4#3)
     , (0x0AA16100#32, .mfirst h0 22#6 4#3)
     , (0x0AC16100#32, .mcount h0 22#6 4#3)
     , (0x0AE06B32#32, .msetw h0 6#3 44#6 50#6)
     , (0x0B016132#32, .mgetw h0 22#6 4#3 50#6)].all (fun (p : Word × Instr) => reads [p.1] p.2) = true := by decide +kernel

theorem test_decode_class_vint :
    [(0x0C156B32#32, .vadd h0 5#3 22#6 44#6 50#6)
     , (0x0C356B32#32, .vsub h0 5#3 22#6 44#6 50#6)
     , (0x0C556B32#32, .vmul h0 5#3 22#6 44#6 50#6)
     , (0x0C756B32#32, .vmulh h0 5#3 22#6 44#6 50#6)
     , (0x0C956B32#32, .vand h0 5#3 22#6 44#6 50#6)
     , (0x0CB56B32#32, .vor h0 5#3 22#6 44#6 50#6)
     , (0x0CD56B32#32, .vxor h0 5#3 22#6 44#6 50#6)
     , (0x0CF56B32#32, .vshl h0 5#3 22#6 44#6 50#6)
     , (0x0D156B32#32, .vshr h0 5#3 22#6 44#6 50#6)
     , (0x0D356B32#32, .vsar h0 5#3 22#6 44#6 50#6)
     , (0x0D556B32#32, .vmin h0 5#3 22#6 44#6 50#6)
     , (0x0D756B32#32, .vmax h0 5#3 22#6 44#6 50#6)
     , (0x0D956B00#32, .vabs h0 5#3 22#6 44#6)
     , (0x0DB56B32#32, .vbfx h0 5#3 22#6 44#6 50#6)
     , (0x0DD56B32#32, .vbfi h0 5#3 22#6 44#6 50#6)].all (fun (p : Word × Instr) => reads [p.1] p.2) = true := by decide +kernel

theorem test_decode_class_vimm :
    [(0x0E0B592C#32, .vaddImm h0 22#6 44#6 300#9)
     , (0x0E2B592C#32, .vandImm h0 22#6 44#6 300#9)
     , (0x0E4B592C#32, .vorImm h0 22#6 44#6 300#9)
     , (0x0E6B592C#32, .vxorImm h0 22#6 44#6 300#9)
     , (0x0E8B592C#32, .vshlImm h0 22#6 44#6 300#9)
     , (0x0EAB592C#32, .vshrImm h0 22#6 44#6 300#9)
     , (0x0ECB592C#32, .vsarImm h0 22#6 44#6 300#9)
     , (0x0EEB592C#32, .vmulImm h0 22#6 44#6 300#9)
     , (0x0F0B012C#32, .vmovImm h0 22#6 300#9)].all (fun (p : Word × Instr) => reads [p.1] p.2) = true := by decide +kernel

theorem test_decode_class_vf32 :
    [(0x10156B32#32, .fadd h0 5#3 22#6 44#6 50#6)
     , (0x10356B32#32, .fsub h0 5#3 22#6 44#6 50#6)
     , (0x10556B32#32, .fmul h0 5#3 22#6 44#6 50#6)
     , (0x10756B32#32, .ffma h0 5#3 22#6 44#6 50#6)
     , (0x10956B32#32, .fmin h0 5#3 22#6 44#6 50#6)
     , (0x10B56B32#32, .fmax h0 5#3 22#6 44#6 50#6)
     , (0x10D56B00#32, .fabs h0 5#3 22#6 44#6)
     , (0x10F56B00#32, .frcp h0 5#3 22#6 44#6)
     , (0x11156B00#32, .frsq h0 5#3 22#6 44#6)
     , (0x11356B00#32, .fsqrt h0 5#3 22#6 44#6)
     , (0x11556B32#32, .fdiv h0 5#3 22#6 44#6 50#6)
     , (0x11756B00#32, .fexp2 h0 5#3 22#6 44#6)
     , (0x11956B00#32, .flog2 h0 5#3 22#6 44#6)
     , (0x11B56B00#32, .fneg h0 5#3 22#6 44#6)].all (fun (p : Word × Instr) => reads [p.1] p.2) = true := by decide +kernel

theorem test_decode_class_vf64 :
    [(0x12156B32#32, .dadd h0 5#3 22#6 44#6 50#6)
     , (0x12356B32#32, .dsub h0 5#3 22#6 44#6 50#6)
     , (0x12556B32#32, .dmul h0 5#3 22#6 44#6 50#6)
     , (0x12756B32#32, .dfma h0 5#3 22#6 44#6 50#6)
     , (0x12956B32#32, .dmin h0 5#3 22#6 44#6 50#6)
     , (0x12B56B32#32, .dmax h0 5#3 22#6 44#6 50#6)
     , (0x12D56B32#32, .ddiv h0 5#3 22#6 44#6 50#6)
     , (0x12F56B00#32, .dsqrt h0 5#3 22#6 44#6)].all (fun (p : Word × Instr) => reads [p.1] p.2) = true := by decide +kernel

theorem test_decode_class_vh16 :
    [(0x14156B32#32, .hadd2 h0 5#3 22#6 44#6 50#6)
     , (0x14356B32#32, .hsub2 h0 5#3 22#6 44#6 50#6)
     , (0x14556B32#32, .hmul2 h0 5#3 22#6 44#6 50#6)
     , (0x14756B32#32, .hfma2 h0 5#3 22#6 44#6 50#6)
     , (0x14956B32#32, .hmin2 h0 5#3 22#6 44#6 50#6)
     , (0x14B56B32#32, .hmax2 h0 5#3 22#6 44#6 50#6)
     , (0x14D56B32#32, .vdot4 h0 5#3 22#6 44#6 50#6)].all (fun (p : Word × Instr) => reads [p.1] p.2) = true := by decide +kernel

theorem test_decode_class_cvt :
    [(0x16156B04#32, .cvt h0 0#4 5#3 22#6 44#6 4#4)].all (fun (p : Word × Instr) => reads [p.1] p.2) = true := by decide +kernel

theorem test_decode_class_vcmp :
    [(0x18146B32#32, .vcmpEq h0 5#3 6#3 44#6 50#6)
     , (0x18346B32#32, .vcmpNe h0 5#3 6#3 44#6 50#6)
     , (0x18546B32#32, .vcmpLt h0 5#3 6#3 44#6 50#6)
     , (0x18746B32#32, .vcmpLe h0 5#3 6#3 44#6 50#6)
     , (0x18946B32#32, .vcmpGt h0 5#3 6#3 44#6 50#6)
     , (0x18B46B32#32, .vcmpGe h0 5#3 6#3 44#6 50#6)
     , (0x19146B32#32, .vtest h0 5#3 6#3 44#6 50#6)].all (fun (p : Word × Instr) => reads [p.1] p.2) = true := by decide +kernel

theorem test_decode_class_vlane :
    [(0x1A156B32#32, .vshuf h0 5#3 22#6 44#6 50#6)
     , (0x1A356B32#32, .vbcast h0 5#3 22#6 44#6 50#6)
     , (0x1A556B00#32, .vred h0 5#3 22#6 44#6 0#4)
     , (0x1A756B10#32, .vscan h0 5#3 22#6 44#6 1#1 0#4)
     , (0x1A956B32#32, .vsel h0 5#3 22#6 44#6 50#6)
     , (0x1AB56B00#32, .vmov h0 5#3 22#6 44#6)
     , (0x1AD56B00#32, .vmovw h0 5#3 22#6 44#6)].all (fun (p : Word × Instr) => reads [p.1] p.2) = true := by decide +kernel

theorem test_decode_class_memory :
    [(0x1C15664D#32, .ldg h0 5#3 22#6 3#3 9#6 1#1 1#2)
     , (0x1C35604D#32, .lds h0 5#3 22#6 9#6 1#1 1#2)
     , (0x1C55604D#32, .ldsFe h0 5#3 22#6 9#6 1#1 1#2)
     , (0x1C75604D#32, .ldsFk h0 5#3 22#6 9#6 1#1 1#2)
     , (0x1C81664D#32, .ldw h0 22#6 3#3 9#6 1#1 1#2)
     , (0x1CA1604D#32, .ldws h0 22#6 9#6 1#1 1#2)
     , (0x1CD40649#32, .pref h0 5#3 3#3 9#6 1#1)].all (fun (p : Word × Instr) => reads [p.1] p.2) = true := by decide +kernel

theorem test_decode_class_store :
    [(0x1E156649#32, .stg h0 5#3 22#6 3#3 9#6 1#2)
     , (0x1E356049#32, .sts h0 5#3 22#6 9#6 1#2)
     , (0x1E416649#32, .stw h0 22#6 3#3 9#6 1#2)
     , (0x1E616049#32, .stws h0 22#6 9#6 1#2)
     , (0x1E816048#32, .feset h0 22#6 9#6)
     , (0x1EA16048#32, .feclr h0 22#6 9#6)].all (fun (p : Word × Instr) => reads [p.1] p.2) = true := by decide +kernel

theorem test_decode_class_atomic :
    [(0x21356600#32, .atom h0 9#4 5#3 22#6 3#3 0#6 0#1)
     , (0x20B56602#32, .red h0 5#4 5#3 22#6 3#3 0#6 0#1)].all (fun (p : Word × Instr) => reads [p.1] p.2) = true := by decide +kernel

theorem test_decode_class_fence :
    [(0x22000000#32, .fence h0)
     , (0x2221D000#32, .xfence h0 3#3 5#3)
     , (0x22400000#32, .spfence h0)].all (fun (p : Word × Instr) => reads [p.1] p.2) = true := by decide +kernel

theorem test_decode_class_bench :
    [(0x24016048#32, .binit h0 22#6 9#6)
     , (0x24200048#32, .barrive h0 9#6)
     , (0x24416048#32, .bwait h0 22#6 9#6)
     , (0x24616000#32, .sgjoin h0 22#6)
     , (0x24800000#32, .sgleave h0)].all (fun (p : Word × Instr) => reads [p.1] p.2) = true := by decide +kernel

theorem test_decode_class_copy :
    [(0x260D7961#32, .cpy h0 26#6 60#6 5#3 2#2 1#2)
     , (0x262D7550#32, .tcpy h0 26#6 58#6 5#3 1#2 0#2)
     , (0x264D5140#32, .gcpy h0 26#6 40#6 5#3 0#2 0#2)
     , (0x266D5161#32, .scpy h0 26#6 40#6 5#3 2#2 1#2)].all (fun (p : Word × Instr) => reads [p.1] p.2) = true := by decide +kernel

theorem test_decode_class_sparse :
    [(0x280161E2#32, .isect h0 22#6 60#6 2#2)
     , (0x282161E3#32, .isectn h0 22#6 60#6 3#2)
     , (0x28546B00#32, .vconf h0 5#3 6#3 44#6)
     , (0x28756600#32, .scatc h0 5#3 22#6 3#3 0#6 0#1 0#2)
     , (0x28956B32#32, .mpath h0 5#3 22#6 44#6 50#6)
     , (0x28B56B32#32, .vsegred h0 5#3 22#6 44#6 50#6)
     , (0x28D56B32#32, .vsegscan h0 5#3 22#6 44#6 50#6)
     , (0x28F56B00#32, .vcompress h0 5#3 22#6 44#6)
     , (0x29156B00#32, .vexpand h0 5#3 22#6 44#6)].all (fun (p : Word × Instr) => reads [p.1] p.2) = true := by decide +kernel

theorem test_decode_class_network :
    [(0x2A0D6400#32, .nredOrd h0 26#6 50#6 0#5 0#1)
     , (0x2A2D6400#32, .nredAny h0 26#6 50#6 0#5 0#1)].all (fun (p : Word × Instr) => reads [p.1] p.2) = true := by decide +kernel

theorem test_decode_class_matrix :
    [(0x2C006590#32, .mma h0 0#4 50#6 1#1 2#2 1#2 0#1)
     , (0x2C206590#32, .mmaZ h0 0#4 50#6 1#1 2#2 1#2 0#1)
     , (0x2C400001#32, .mzero h0 0#4 1#1)
     , (0x2C606401#32, .mload h0 0#4 50#6 1#1)
     , (0x2C806401#32, .mdrain h0 0#4 50#6 1#1)
     , (0x2CAB0000#32, .mpair h0 22#6)
     , (0x2CCB0001#32, .mstat h0 22#6 0#4 1#1)
     , (0x2CE06400#32, .mperm h0 50#6)].all (fun (p : Word × Instr) => reads [p.1] p.2) = true := by decide +kernel

theorem test_decode_class_chest :
    [(0x2E0B6400#32, .cclaim h0 22#6 50#6)
     , (0x2E206400#32, .crelease h0 50#6)
     , (0x2E416400#32, .dinit h0 2#4 50#6)
     , (0x2E6B0400#32, .dstat h0 22#6 2#4)].all (fun (p : Word × Instr) => reads [p.1] p.2) = true := by decide +kernel

theorem test_decode_class_task :
    [(0x300B6400#32, .spawn h0 22#6 50#6)
     , (0x302B6400#32, .spawnf h0 22#6 50#6)
     , (0x30406400#32, .fref h0 50#6)
     , (0x30606400#32, .fdrop h0 50#6)
     , (0x308B6400#32, .fwait h0 22#6 50#6)
     , (0x30AB6400#32, .fpoll h0 22#6 50#6)
     , (0x30C00000#32, .rpoint h0)
     , (0x30E0E471#32, .binpost h0 1#6 50#6 7#3 1#1)].all (fun (p : Word × Instr) => reads [p.1] p.2) = true := by decide +kernel

theorem test_decode_class_message :
    [(0x3200E400#32, .send h0 1#6 50#6)
     , (0x322B6400#32, .sendt h0 22#6 50#6)
     , (0x324B0200#32, .recv h0 22#6 1#6)
     , (0x326B6400#32, .patset h0 22#6 50#6)
     , (0x328B6400#32, .portopen h0 22#6 50#6)].all (fun (p : Word × Instr) => reads [p.1] p.2) = true := by decide +kernel

theorem test_decode_class_queue :
    [(0x340B6400#32, .qcreate h0 22#6 50#6)
     , (0x34006401#32, .qcreateFree h0 50#6)
     , (0x342B6400#32, .qpush h0 22#6 50#6)
     , (0x344B6400#32, .qpop h0 22#6 50#6)].all (fun (p : Word × Instr) => reads [p.1] p.2) = true := by decide +kernel

theorem test_decode_class_tree :
    [(0x36005807#32, .nres h0 44#6 7#3)
     , (0x3600588F#32, .nresK h0 44#6 1#4 7#3)
     , (0x362B000F#32, .nchild h0 22#6 1#4 7#3)
     , (0x364B0007#32, .nparent h0 22#6 7#3)].all (fun (p : Word × Instr) => reads [p.1] p.2) = true := by decide +kernel

theorem test_decode_class_control :
    [(0x38016480#32, .rdc h0 22#6 18#6)
     , (0x38056680#32, .rdcV h0 22#6 26#6)
     , (0x3820AB00#32, .wrc h0 10#6 44#6)
     , (0x38400007#32, .rgive h0 7#6)
     , (0x38600003#32, .rclaim h0 3#6)
     , (0x38800000#32, .bar h0)
     , (0x38A16B03#32, .launchFlat h0 22#6 44#6 1#1 1#1)
     , (0x38A56B03#32, .launchTree h0 22#6 44#6 1#1 1#1)
     , (0x38A96B03#32, .launchBin h0 22#6 44#6 1#1 1#1)
     , (0x38C16B00#32, .lvlwait h0 22#6 44#6)
     , (0x38C56B00#32, .lvlwaitPoll h0 22#6 44#6)
     , (0x38E00B00#32, .lvlcancel h0 44#6)
     , (0x39000000#32, .exit h0)].all (fun (p : Word × Instr) => reads [p.1] p.2) = true := by decide +kernel

theorem test_decode_class_xlat :
    [(0x3A006B00#32, .xlat h0 6#3 44#6)
     , (0x3A200B32#32, .xinv h0 44#6 50#6)].all (fun (p : Word × Instr) => reads [p.1] p.2) = true := by decide +kernel

theorem test_decode_class_extension :
    [(0x3E0C96B2#32, .extn h0 3#7 2#4 22#6 44#6 1#1)].all (fun (p : Word × Instr) => reads [p.1] p.2) = true := by decide +kernel

/-- With prefixes, a set C bit and a set S bit (R85, R101 and the examples of R101, R181, R198, R228). -/
theorem test_decode_prefixes :
    reads [0x3C054400#32, 0x0C001083#32] (.vadd ⟨false, false, some ⟨none, some 5#4, 0#3, true, none⟩, none⟩ 0#3 1#6 2#6 3#6) = true ∧
    reads [0x3C001000#32, 0x10604146#32] (.ffma ⟨false, false, some ⟨none, none, 2#3, false, none⟩, none⟩ 0#3 4#6 5#6 6#6) = true ∧
    reads [0x3C8000A0#32, 0x2441A1F8#32] (.bwait ⟨false, false, none, some 0xA0#23⟩ 26#6 63#6) = true ∧
    reads [0x3C068000#32, 0x18D44B32#32] (.vcmpUn ⟨false, false, some ⟨none, some 10#4, 0#3, false, none⟩, none⟩ 5#3 4#3 44#6 50#6) = true ∧
    reads [0x3C068000#32, 0x18F44B32#32] (.vcmpOrd ⟨false, false, some ⟨none, some 10#4, 0#3, false, none⟩, none⟩ 5#3 4#3 44#6 50#6) = true ∧
    reads [0x94C0B201#32] (.vdot4 ⟨true, false, none, none⟩ 0#3 11#6 8#6 1#6) = true ∧
    reads [0x4AE01083#32] (.msetw ⟨false, true, none, none⟩ 1#3 2#6 3#6) = true ∧
    reads [0xFFFFFFFF#32] .brk = true := by decide +kernel

/-! ### Single steps: examples of the spec, or by hand from the rule that is named -/

/-- The value that a word gives lane `l` of v[r], among the team's run-bound writes. -/
def lane (u : Team) (r l : Nat) : Option Word :=
  (outs u).findSome? fun w => match w with | .v k ls => if k = r then ls.getD l none else none | _ => none

/-- R117: UADD wraps; a register may be source and destination. -/
theorem test_uadd_wraps : issued (.uadd h0 1#6 1#6 2#6) s0 (fun _ u => outs u == [.w 1 4#64]) = true := by decide +kernel
/-- R117: UMULH.u of 7 and 2^64 - 3 is 6, UMULH.s is -1. -/
theorem test_umulh_signs : issued (.umulh h0 1#1 5#6 1#6 2#6) s0 (fun _ u => outs u == [.w 5 6#64]) = true ∧
    issued (.umulh h0 0#1 5#6 1#6 2#6) s0 (fun _ u => outs u == [.w 5 0xFFFFFFFFFFFFFFFF#64]) = true := by decide +kernel
/-- R117: a shift by 64 shifts by 0. -/
theorem test_ushl_by_64 : issued (.ushl h0 5#6 1#6 3#6) s0 (fun _ u => outs u == [.w 5 7#64]) = true := by decide +kernel
/-- R119: ULUI shifts the sign-extended immediate left by 24. -/
theorem test_ului : issued (.ului h0 5#6 0x7FFFE#19) s0 (fun _ u => outs u == [.w 5 0xFFFFFFFFFE000000#64]) = true := by decide +kernel
/-- R122: CALL links the next packet and goes 12 bytes back for an offset of -1. -/
theorem test_call_back : issued (.call h0 9#6 0x7FFF#15)
    (st id id fun s => { s with cur := { s.cur with addr := 28#56, next := 32#56 } })
    (fun _ u => u.pc == 12#56 && outs u == [.w 9 36#64]) = true := by decide +kernel
/-- R122: RET to an address that is no multiple of 12 raises BADPC. -/
theorem test_ret_badpc : traps (.ret h0 1#6) s0 .badpc = true := by decide +kernel
/-- R123: VBR whose condition no lane meets pushes an entry with no pending lane and goes on at the next packet with m0 kept. -/
theorem test_vbr_empty : issued (.vbr h0 1#3 5#18) s0 (fun _ u => u.pc == 12#56 && outs u == [.m 0 (maskAll 32)] &&
    u.stack == [⟨maskAll 32, 0#1024, 12#56⟩]) = true := by decide +kernel
/-- R125: MFIRST of an empty mask is -1; MGETW at 32 is the summary word. -/
theorem test_mask_words : issued (.mfirst h0 5#6 1#3) s0 (fun _ u => outs u == [.w 5 0xFFFFFFFFFFFFFFFF#64]) = true ∧
    issued (.mgetw h0 5#6 0#3 4#6) (sv [] fun t => { t with w := t.w.set 4 32#64 }) (fun _ u => outs u == [.w 5 1#64]) = true := by decide +kernel
/-- R158: VADD.sat clamps to the signed range. -/
theorem test_vadd_sat : issued (.vadd hSat 0#3 5#6 3#6 3#6) (sv [(3, fun _ => 0x7FFFFFFF)] id)
    (fun _ u => lane u 5 31 == some 0x7FFFFFFF#32) = true := by decide +kernel
/-- R166: the dot product of the depthwise program: 24 × (-35) + 24 × (-34) = -1,656. -/
theorem test_vdot4 : issued (.vdot4 h0 0#3 11#6 8#6 1#6) (sv [(8, fun _ => 0x18180000), (1, fun _ => 0xDDDE0000), (11, fun _ => 0)] id)
    (fun _ u => lane u 11 0 == some 0xFFFFF988#32) = true := by decide +kernel
/-- R160, R184: FADD of infinities of unlike signs is the default NaN; a NaN operand stays, made quiet. -/
theorem test_fadd_nan : issued (.fadd h0 0#3 5#6 3#6 4#6)
    (sv [(3, nth [0x7F800000, 0x7F800001]), (4, nth [0xFF800000, 0x3F800000])] id)
    (fun _ u => lane u 5 0 == some 0x7FC00000#32 && lane u 5 1 == some 0x7FC00001#32) = true := by decide +kernel
/-- R168: the examples of CVT to E4M3. -/
theorem test_cvt_e4m3 : issued (.cvt h0 12#4 0#3 5#6 3#6 10#4) (sv [(3, nth [0x43FA0000, 0x7FC00000])] id)
    (fun _ u => lane u 5 0 == some 0x7E#32 && lane u 5 1 == some 0x7F#32) = true := by decide +kernel
/-- R168: the examples of CVT to .s8 from .f32 and .s32. -/
theorem test_cvt_s8 : issued (.cvt h0 0#4 0#3 5#6 3#6 10#4) (sv [(3, nth [0xC0600000, 0x43960000])] id)
    (fun _ u => lane u 5 0 == some 0xFFFFFFFC#32 && lane u 5 1 == some 0x7F#32) = true ∧
    issued (.cvt h0 0#4 0#3 5#6 3#6 4#4) (sv [(3, nth [0x180])] id) (fun _ u => lane u 5 0 == some 0xFFFFFF80#32) = true := by decide +kernel
/-- R168: the examples of CVT to .f16, in nearest-even and toward zero. -/
theorem test_cvt_f16 : issued (.cvt h0 8#4 0#3 5#6 3#6 10#4) (sv [(3, nth [0x4788B800])] id) (fun _ u => lane u 5 0 == some 0x7C00#32) = true ∧
    issued (.cvt (hRnd 2#3) 8#4 0#3 5#6 3#6 10#4) (sv [(3, nth [0x4788B800])] id) (fun _ u => lane u 5 0 == some 0x7BFF#32) = true := by
  decide +kernel
/-- R169: -0 equals +0, and a NaN makes every test false but .ne. -/
theorem test_vcmp_float : issued (.vcmpEq (hTy 10#4) 0#3 1#3 3#6 4#6)
      (sv [(3, nth [0x80000000, 0x7FC00000]), (4, nth [0, 0x7FC00000])] (low 2)) (fun _ u => outs u == [.m 1 1#1024]) = true ∧
    issued (.vcmpNe (hTy 10#4) 0#3 1#3 3#6 4#6)
      (sv [(3, nth [0x80000000, 0x7FC00000]), (4, nth [0, 0x7FC00000])] (low 2)) (fun _ u => outs u == [.m 1 2#1024]) = true := by decide +kernel
/-- The values of the example of R174, in lanes 0 to 7. -/
def redVals : Nat → Nat := nth [0x4B800000, 0x3F800000, 0x3F800000, 0xCB800000, 0x3F000000, 0x3E800000, 0x42C80000, 0x42C80000]
/-- R173: the example: VRED.fadd over lanes 0 to 5 gives 1.75. -/
theorem test_vred_fadd : issued (.vred h0 0#3 6#6 1#6 8#4) (sv [(1, redVals)] (low 6)) (fun _ u => outs u == [.w 6 0x3FE00000#64]) = true := by
  decide +kernel
/-- R174: the example: VSCAN.fadd. -/
theorem test_vscan_fadd : issued (.vscan h0 0#3 2#6 1#6 0#1 8#4) (sv [(1, redVals)] (low 6)) (fun _ u =>
    (List.range 7).map (lane u 2) == [some 0x4B800000#32, some 0x4B800000#32, some 0x4B800000#32, some 0x3F800000#32, some 0x3FC00000#32
      , some 0x3FE00000#32, none]) = true := by decide +kernel
/-- R268: the example: lanes 2, 3, 5 and 7 repeat an earlier lane's index. -/
theorem test_vconf : issued (.vconf h0 0#3 3#3 6#6) (sv [(6, nth [3, 1, 3, 3, 0, 1, 7, 3])] (low 8)) (fun _ u => outs u == [.m 3 0xAC#1024]) = true := by
  decide +kernel
/-- R270: the examples of SCATC.add.s32 and .first: the combined values that its lanes store and receive. -/
theorem test_scatc : issued (.scatc h0 0#3 4#6 0#3 6#6 1#1 1#2)
      (sv [(6, fun i => 4 * nth [3, 1, 3, 3, 0, 1, 7, 3] i), (4, nth [5, 2, 7, 0xFFFFFFFF, 4, 9, 6, 3])] (low 8))
      (fun _ u => u.ops.map (fun o => o.lanes.map fun a => a.val) == [[14, 11, 14, 14, 4, 11, 6, 14]]) = true ∧
    issued (.scatc h0 0#3 4#6 0#3 6#6 1#1 0#2)
      (sv [(6, fun i => 4 * nth [3, 1, 3, 3, 0, 1, 7, 3] i), (4, nth [5, 2, 7, 0xFFFFFFFF, 4, 9, 6, 3])] (low 8))
      (fun _ u => u.ops.map (fun o => o.lanes.map fun a => a.val) == [[5, 2, 5, 5, 4, 2, 6, 5]]) = true := by decide +kernel
/-- R217, R219: the example, on scratchpad: lanes 0 to 3 of one ATOM.add receive 0, 1, 3 and 6, and the word becomes 10. -/
theorem test_atom_add : issued (.atom h0 0#4 0#3 4#6 0#3 6#6 1#1) (sv [(6, fun _ => 0), (4, nth [1, 2, 3, 4])] (low 4))
    (fun v u => v.spadRd 0 0 4 == 10 && u.pend.map (fun p => p.ready) == [some [.v 4 ((List.range 32).map fun l =>
      match l with | 0 => some 0#32 | 1 => some 1#32 | 2 => some 3#32 | 3 => some 6#32 | _ => none)]]) = true := by decide +kernel
/-- R213: of two lanes that store to one byte of scratchpad the higher gives it; an address beyond SPAD raises SPRANGE. -/
theorem test_sts : issued (.sts h0 0#3 4#6 6#6 0#2) (sv [(6, fun _ => 1023), (4, nth [1, 2, 3, 4])] (low 4))
    (fun v _ => v.spadRd 0 1023 1 == 4) = true ∧
    traps (.sts h0 0#3 4#6 6#6 0#2) (sv [(6, fun _ => 1024)] (low 4)) .sprange = true := by decide +kernel
/-- R202: a load of a word at an odd address through a valid register raises ALIGN; through an invalid one XINVALID. -/
theorem test_ldg_checks : traps (.ldg h0 0#3 4#6 1#3 6#6 0#1 2#2)
      (sv [(6, fun _ => 1)] fun t => { t with x := t.x.set 1 ⟨0#56, 0x100000000#57, 65536#30, 0#3, true, true, true, true⟩ }) .align = true ∧
    traps (.ldg h0 0#3 4#6 2#3 6#6 0#1 2#2) s0 .xinvalid = true := by decide +kernel
/-- R226: two arrivals at an expectation of one complete two phases, PHASE wrapping; no phase completes below EXPA; a full count sets OVF. -/
theorem test_post : benchR (benchPost (1 + 2 ^ 112 * 32767) 2 0) = ⟨1, 0, 0, 0, 1, 0⟩ ∧
    benchR (benchPost 65535 65534 0) = ⟨65535, 0, 65534, 0, 0, 0⟩ ∧ (benchR (benchPost (2 ^ 64 * 65535) 1 0)).ovf = 1 := by decide +kernel
/-- R180: the example's bytes 0xE5, 0x68, 0x8B and 0x88, before the scale: 64 times the elements. -/
theorem test_q4x : [(0xE5, 0), (0xE5, 1), (0x68, 2), (0x68, 3), (0x8B, 4), (0x8B, 5), (0x88, 6), (0x88, 7)].map (fun p => q4xInt p.1 p.2) =
    [320, -128, 4096, 0, 0, -64, -1, 0] := by decide +kernel
/-- R278, R279: NRED with COUNT 0 gives the identity and EMPTY; INDEX at or above COUNT raises REDARG. -/
theorem test_nred_edges : issued (.nredOrd h0 4#6 2#6 2#5 0#1) (st (fun t => { t with w := t.w.set 3 0#64 }) id id)
      (fun _ u => u.pend.map (fun p => p.ready) == [some [.w 4 0x7FFFFFFF#64, .w 5 3#64]]) = true ∧
    traps (.nredOrd h0 4#6 2#6 2#5 0#1) (st (fun t => { t with w := t.w.set 3 0x100010000#64 }) id id) .redarg = true := by decide +kernel
/-- R312: DINIT of a range whose slots are not held raises CHESTARG; R308: CCLAIM of no slot does. -/
theorem test_chest : traps (.dinit h0 0#4 1#6) s0 .chestarg = true ∧ traps (.cclaim h0 4#6 0#6) s0 .chestarg = true := by decide +kernel
/-- R129: RGIVE of every slab raises REGPOOL, of one gives it to the pool. -/
theorem test_rgive : traps (.rgive h0 2#6) s0 .regpool = true ∧
    issued (.rgive h0 1#6) s0 (fun v u => u.v.length == 8 && (v.block? 0).map (fun b => b.pool) == some 1) = true := by decide +kernel
/-- R389, R376: BRK raises BREAK and resumes at the next word. -/
theorem test_brk : traps .brk s0 .break = true ∧
    (match exec .brk s0 with | .next v => v.cur.req.map (fun q => q.resume) | _ => none) = some 4#56 := by decide +kernel
/-- R112: an extension word raises NOFEAT with its feature in INFO. -/
theorem test_extn : (match exec (.extn h0 5#7 2#4 3#6 4#6 0#1) s0 with
    | .next v => v.cur.req.map (fun q => (q.cause, q.info)) | _ => none) = some (.nofeat, 5) := by decide +kernel
/-- R128: $lane through RDC.v gives each lane its index; a write of a read-only register is ignored. -/
theorem test_control : issued (.rdcV h0 5#6 0#6) s0 (fun _ u => lane u 5 31 == some 31#32) = true ∧
    issued (.wrc h0 15#6 1#6) s0 (fun _ u => outs u == []) = true := by decide +kernel
/-- R459: the example: 0x6E8 trips the die, 0x680 with all others lower ends the trip. -/
theorem test_trip :
    (match exec .sensorSample { State.reset with input := { Input.zero with idx := 3#32, val := 0x6E8#64 } } with
     | .next v => ((v.die 0).tripped, (v.die 0).evstat) | _ => (false, 0#4)) = (true, 8#4) ∧
    (match exec .sensorSample { State.reset with
        dies := State.reset.dies.set 0 { Die.reset with tripped := true, sens := Die.reset.sens.set 3 0x6E8#16 }
        input := { Input.zero with idx := 3#32, val := 0x680#64 } } with
     | .next v => (v.die 0).tripped | _ => true) = false := by decide +kernel
/-- R370: a countdown of 2 microseconds (2,000 cycles: log entry of the clock). -/
theorem test_tick : (match exec .tick { State.reset with input := { Input.zero with val := 2#64 } } with
     | .next v => (v.die 0).tickEnd | _ => none) = some 2000 := by decide +kernel
/-- A word placed by `withFetchWord` runs as the next step. -/
theorem test_fetch : (match step (State.reset.withFetchWord 32 0x38043000) with
    | .next v => v.turns == 1 | _ => false) = true := by decide +kernel

/-! ### Witnesses: for each statement, states and operands that meet its hypotheses, clause by clause -/

/-- The block and the team that issue. -/
def bk (s : State) : Block := match s.team? s.cur.r with | some p => p.1 | none => block0
def tk (s : State) : Team := match s.team? s.cur.r with | some p => p.2 | none => team0

/-- The team that issues is not held back by a word's registers. -/
abbrev F (s : State) (r d : List RegName) (k : Bool) : Prop := s.Free r d k (bk s) (tk s)

/-- `State.Free` as a test. -/
def free? (s : State) (r d : List RegName) (k : Bool) : Bool :=
  match s.team? s.cur.r with
  | some (_, t) => !t.absent (r ++ d) && (!t.pending s.cur.base (r ++ d) && !(k && t.runBusy s.clock d))
  | none => false

theorem mkFree {s : State} {r d : List RegName} {k : Bool} (h : free? s r d k = true) : F s r d k := by
  unfold free? at h
  unfold F bk tk
  split at h
  · rename_i b t e
    simp only [Bool.and_eq_true, Bool.not_eq_true'] at h
    rw [e]
    exact ⟨e, h.1, h.2.1, h.2.2⟩
  · exact absurd h (by decide)

/-- What holds of the value that an option has holds of every value that it has. -/
theorem forSome {α : Type} {o : Option α} {P : α → Prop} (x : α) (h : o = some x) (p : P x) : ∀ c, o = some c → P c := by
  intro c e
  cases h.symm.trans e
  exact p

theorem forNone {α : Type} {o : Option α} {P : α → Prop} (h : o = none) : ∀ c, o = some c → P c := by
  intro c e
  rw [h] at e
  cases e

/-- The team with a w register set. -/
def setW (l : List (Nat × Dword)) : State := st (fun t => l.foldl (fun t p => { t with w := t.w.set p.1 p.2 }) t) id id

theorem witness_UniformWordsWriteTheirRow :
    (∃ q, aluRow (.ubfi h0 63#6 1#6 2#6) = some q ∧ F s0 (q.srcs.map fun r => .w r.toNat) [.w q.d.toNat] false) ∧
    (∃ q, aluRow (.umulh h0 1#1 0#6 1#6 63#6) = some q ∧ F s0 (q.srcs.map fun r => .w r.toNat) [.w q.d.toNat] false) ∧
    (∃ q, immRow (.usarImm hIm 63#6 0#6 0x1FF#9) = some q ∧ F s0 (q.srcs.map fun r => .w r.toNat) [.w q.d.toNat] false) ∧
    (∃ q, immRow (.ului hIm 5#6 0x40000#19) = some q ∧ F s0 (q.srcs.map fun r => .w r.toNat) [.w q.d.toNat] false) :=
  ⟨⟨_, rfl, mkFree (by decide +kernel)⟩, ⟨_, rfl, mkFree (by decide +kernel)⟩, ⟨_, rfl, mkFree (by decide +kernel)⟩
    , ⟨_, rfl, mkFree (by decide +kernel)⟩⟩

/-- Flow words that are taken and that are not, with a link and without; RET to 0 and to an address that is no packet start. -/
theorem witness_FlowWordsGoToTheirTargets :
    (∃ q, flowRow (.call h0 63#6 0x4000#15) = some q ∧ q.taken (tk s0) = true ∧
      F s0 q.reads (q.link.toList.map fun w => .w w.toNat) false) ∧
    (∃ q, flowRow (.brmAll h0 0#3 0x20000#18) = some q ∧ q.taken (tk s0) = true ∧
      F s0 q.reads (q.link.toList.map fun w => .w w.toNat) false) ∧
    (∃ q, flowRow (.bruNneg h0 2#6 0#15) = some q ∧ q.taken (tk s0) = false ∧
      F s0 q.reads (q.link.toList.map fun w => .w w.toNat) false) ∧
    (F s0 [.w 0] [] false ∧ ((tk s0).rw 0#6).toNat % 12 = 0) ∧ (F s0 [.w 1] [] false ∧ ((tk s0).rw 1#6).toNat % 12 ≠ 0) :=
  ⟨⟨_, rfl, by decide +kernel, mkFree (by decide +kernel)⟩, ⟨_, rfl, by decide +kernel, mkFree (by decide +kernel)⟩
    , ⟨_, rfl, by decide +kernel, mkFree (by decide +kernel)⟩, ⟨mkFree (by decide +kernel), by decide +kernel⟩
    , ⟨mkFree (by decide +kernel), by decide +kernel⟩⟩

/-- A state whose team has a reconvergence stack. -/
def stack (l : List Recon) : State := st (fun t => { t with stack := l }) id id
/-- A stack of 32 entries, of 31, of one whose pending mask is empty and of one whose is not. -/
theorem witness_ReconvergenceSwitchesAndPops :
    (F (stack (List.replicate 32 ⟨1#1024, 0#1024, 12#56⟩)) [.m 7, .m 0] [] false ∧
      (tk (stack (List.replicate 32 ⟨1#1024, 0#1024, 12#56⟩))).stack.length = 32) ∧
    (F (stack (List.replicate 31 ⟨1#1024, 0#1024, 12#56⟩)) [.m 7, .m 0] [] false ∧
      (tk (stack (List.replicate 31 ⟨1#1024, 0#1024, 12#56⟩))).stack.length ≠ 32) ∧
    (F s0 [] [] false ∧ (tk s0).stack = []) ∧
    (F (stack [⟨1#1024, 2#1024, 12#56⟩]) [] [] false ∧ (tk (stack [⟨1#1024, 2#1024, 12#56⟩])).stack = [] ++ [⟨1#1024, 2#1024, 12#56⟩]) ∧
    (F (stack [⟨1#1024, 0#1024, 12#56⟩]) [] [] false ∧ (tk (stack [⟨1#1024, 0#1024, 12#56⟩])).stack = [] ++ [⟨1#1024, 0#1024, 12#56⟩]) :=
  ⟨⟨mkFree (by decide +kernel), by decide +kernel⟩, ⟨mkFree (by decide +kernel), by decide +kernel⟩
    , ⟨mkFree (by decide +kernel), by decide +kernel⟩, ⟨mkFree (by decide +kernel), by decide +kernel⟩
    , ⟨mkFree (by decide +kernel), by decide +kernel⟩⟩

/-- Mask words with ALL and without; MLEAD and MFIRST of a mask with a lane and of an empty one; a lane word below W, the summary word at
32, and an index above it. -/
theorem witness_MaskWordsFollowTheirTable :
    (F s0 ((if (1#1 : BitVec 1) = 1#1 then [] else [.m 3]) ++ [.m 2]) [.m 1] false ∧ F s0 ([.m 3] ++ [.m 2]) [.m 1] false) ∧
    ((tk s0).lanes ≤ 1024 ∧ F s0 [.m 0] [.m 7] false ∧ F s0 [.m 0] [.w 63] false ∧ lowest ((tk s0).rm 0#3) (tk s0).lanes 0 ∧
      ∀ l, l < (tk s0).lanes → ((tk s0).rm 5#3).getLsbD l = false) ∧
    (F (setW [(4, 0#64)]) [.w 1, .w 4] [.m 7] false ∧ ((tk (setW [(4, 0#64)])).rw 4#6).toNat < ceilDiv (tk (setW [(4, 0#64)])).lanes 32) ∧
    (F (setW [(4, 32#64)]) [.m 0, .w 4] [.w 5] false ∧ ((tk (setW [(4, 32#64)])).rw 4#6).toNat = 32 ∧
      ceilDiv (tk (setW [(4, 32#64)])).lanes 32 ≤ 32) ∧
    (F (setW [(4, 1#64)]) [.m 0, .w 4] [.w 5] false ∧ ceilDiv (tk (setW [(4, 1#64)])).lanes 32 ≤ ((tk (setW [(4, 1#64)])).rw 4#6).toNat ∧
      ((tk (setW [(4, 1#64)])).rw 4#6).toNat ≠ 32) :=
  ⟨⟨mkFree (by decide +kernel), mkFree (by decide +kernel)⟩
    , ⟨by decide +kernel, mkFree (by decide +kernel), mkFree (by decide +kernel), by unfold lowest; decide +kernel, by decide +kernel⟩
    , ⟨mkFree (by decide +kernel), by decide +kernel⟩, ⟨mkFree (by decide +kernel), by decide +kernel, by decide +kernel⟩
    , ⟨mkFree (by decide +kernel), by decide +kernel, by decide +kernel⟩⟩

theorem witness_VectorIntegerWordsWriteTheirRow :
    (∃ q, vintRow (.vadd (hTy 6#4) 7#3 14#6 0#6 2#6) = some q ∧ F s0 (.m q.k.toNat :: q.srcs) (vName q.wide q.d) false) ∧
    (∃ q, vintRow (.vmovImm hIm 15#6 0x1FF#9) = some q ∧ F s0 (.m q.k.toNat :: q.srcs) (vName q.wide q.d) false) ∧
    (∃ q, vintRow (.vdot4 hSat 0#3 15#6 1#6 2#6) = some q ∧ F s0 (.m q.k.toNat :: q.srcs) (vName q.wide q.d) false) :=
  ⟨⟨_, rfl, mkFree (by decide +kernel)⟩, ⟨_, rfl, mkFree (by decide +kernel)⟩, ⟨_, rfl, mkFree (by decide +kernel)⟩⟩

/-- In every format finite operands of both signs and both sides of the normal range, infinities, and both kinds of NaN; a word of each shape. -/
theorem witness_FloatWordsWriteTheirRow :
    (∀ f ∈ fpFormats, let sign := 2 ^ (f.ebits + f.fbits)
      (∀ x ∈ [0, 1, sign, 2 ^ f.fbits - 1, 2 ^ f.fbits, fpInf f - 1, sign + fpInf f - 1], fpWord f x ∧ fpMag f x < fpInf f) ∧
      (∀ b ∈ [false, true], fpWord f (fpEnc f b (fpInf f)) ∧ fpEnc f b (fpInf f) = fpEnc f (fpSign f (fpEnc f b (fpInf f))) (fpInf f)) ∧
      (∀ x ∈ [fpInf f + 1, fpDefault f, 2 * sign - 1], fpWord f x ∧ fpInf f < fpMag f x) ∧
      fpUnits f (fpMag f (fpFlush f false 1)) ≠ 0 ∧ (f ≠ f16 → fpUnits f (fpMag f (fpFlush f true 1)) = 0) ∧ fpSign f 1 = false ∧ fpSign f (sign + 1) = true) ∧
    (∃ q, floatRow (.ffma (hRnd 4#3) 0#3 15#6 1#6 2#6) = some q ∧ F s0 (.m q.k.toNat :: q.srcs) (vName q.wide q.d) false) ∧
    (∃ q, floatRow (.dfma h0 0#3 14#6 2#6 4#6) = some q ∧ F s0 (.m q.k.toNat :: q.srcs) (vName q.wide q.d) false) ∧
    (∃ q, halvesRow (.hfma2 (hTy 9#4) 0#3 15#6 1#6 2#6) = some q ∧ F s0 (.m q.k.toNat :: q.srcs) (vName q.wide q.d) false) :=
  ⟨by
      intro f hf
      simp only [fpFormats, List.mem_cons, List.not_mem_nil, or_false] at hf
      rcases hf with rfl | rfl | rfl | rfl <;> simp only [fpWord] <;> decide +kernel
    , ⟨_, rfl, mkFree (by decide +kernel)⟩, ⟨_, rfl, mkFree (by decide +kernel)⟩, ⟨_, rfl, mkFree (by decide +kernel)⟩⟩

theorem witness_LaneWordsMoveAndReduce :
    (∃ q, moveRow (.vscan h0 0#3 14#6 2#6 1#1 14#4) = some q ∧ F s0 (.m q.k.toNat :: q.srcs) (vName q.wide q.d) false) ∧
    (∃ q, moveRow (.vmovw h0 0#3 15#6 63#6) = some q ∧ F s0 (.m q.k.toNat :: q.srcs) (vName q.wide q.d) false) ∧
    F s0 (.m 7 :: (vName true 0#6 ++ vName true 2#6)) (vName true 14#6) false ∧
    F s0 (.m 0 :: vName (laneOp64 11#4) 14#6) [.w 63] false ∧ F s0 (.m 7 :: vName (laneOp64 2#4) 15#6) [.w 0] false :=
  ⟨⟨_, rfl, mkFree (by decide +kernel)⟩, ⟨_, rfl, mkFree (by decide +kernel)⟩, mkFree (by decide +kernel), mkFree (by decide +kernel)
    , mkFree (by decide +kernel)⟩

theorem witness_ConversionsAndComparisonsAreWritten :
    F s0 (.m 0 :: vName (is64 4#4) 3#6) (vName (is64 11#4) 14#6) false ∧
    ((tk s0).lanes ≤ 1024 ∧ vcmpFields (.vcmpUn (hTy 11#4) 7#3 7#3 14#6 2#6) = some (hTy 11#4, 7#3, 7#3, 14#6, 2#6) ∧
      F s0 (.m 7 :: (vName (is64 ((hTy 11#4).ty 4#4)) 14#6 ++ vName (is64 ((hTy 11#4).ty 4#4)) 2#6)) [.m 7] false) ∧
    F s0 (.m 0 :: ([.v 15] ++ [.v 1])) [.m 1] false :=
  ⟨mkFree (by decide +kernel), ⟨by decide +kernel, rfl, mkFree (by decide +kernel)⟩, mkFree (by decide +kernel)⟩

/-- The block of a Bureau of die 0. -/
def bureau : State := st id (fun b => { b with bureau := some 0 }) id
/-- Stop-on-break set for the context with tag 5 on die 0. -/
def sStop : State := st id id fun s => { s with dies := s.dies.set 0 { Die.reset with stopbrk := Die.reset.stopbrk.set 0 32#64 } }

theorem witness_SystemWordsActOrTrap :
    (F s0 [] [] false ∧ (bk s0).bureau = none ∧ F s0 [.w 63] [] false ∧ F s0 [.v 15, .v 0] [] false ∧ F s0 [.w 63, .w 0] [] false ∧
      ((bk s0).bureau.isNone && (s0.die (coreDie (bk s0).core)).stopOnBreak (bk s0).tag) = false) ∧
    (F bureau [] [] false ∧ (bk bureau).bureau = some 0) ∧
    (F sStop [] [] false ∧ ((bk sStop).bureau.isNone && (sStop.die (coreDie (bk sStop).core)).stopOnBreak (bk sStop).tag) = true) :=
  ⟨⟨mkFree (by decide +kernel), by decide +kernel, mkFree (by decide +kernel), mkFree (by decide +kernel), mkFree (by decide +kernel)
      , by decide +kernel⟩
    , ⟨mkFree (by decide +kernel), by decide +kernel⟩, ⟨mkFree (by decide +kernel), by decide +kernel⟩⟩

/-- The context's first frame is claimed: the second is the lowest free one. -/
def sOne : State := st id id fun s => { s with ctxs := [{ ctx0 with claimed := [0] }] }

/-- A page of the small state as a walk finds it. -/
def pageOf (a : Nat) : Page := ⟨a, 0x10000, 0x100000000 + a, true, true, true, true⟩

theorem frameReady0 : FrameReady s0 (bk s0) (tk s0) .swtrap 0 0x100020000 :=
  ⟨by decide +kernel, by decide +kernel, by decide +kernel, by decide +kernel, by decide +kernel, by decide +kernel, by decide +kernel
    , ⟨pageOf 0x20000, by decide +kernel, by decide +kernel, by decide +kernel⟩, by decide +kernel, forSome ctx0 (by decide +kernel) (by decide +kernel)
    , by decide +kernel, by decide +kernel⟩

theorem witness_TrapsSaveTheTeamAndGoToTheVector :
    (s0.team? s0.cur.r = some (bk s0, tk s0) ∧ FrameReady s0 (bk s0) (tk s0) .swtrap 0 0x100020000) ∧
    (sOne.team? sOne.cur.r = some (bk sOne, tk sOne) ∧ FrameReady sOne (bk sOne) (tk sOne) .nofeat 1 0x100030000) ∧
    63 < team0.w.length ∧ 7 < team0.x.length ∧ 7 < team0.m.length :=
  ⟨⟨by decide +kernel, frameReady0⟩
    , ⟨by decide +kernel, ⟨by decide +kernel, by decide +kernel, by decide +kernel, by decide +kernel, by decide +kernel, by decide +kernel, by decide +kernel
      , ⟨pageOf 0x30000, by decide +kernel, by decide +kernel, by decide +kernel⟩, by decide +kernel
      , forSome { ctx0 with claimed := [0] } (by decide +kernel) (by decide +kernel), by decide +kernel, by decide +kernel⟩⟩
    , by decide +kernel, by decide +kernel, by decide +kernel⟩

/-- A team in its handler with frame 1, whose resume address is `n`, with changes to the team. -/
def handling (n : Nat) (f : Team → Team) : State :=
  st (fun t => f { t with handler := some 1 }) id fun s =>
    { s with ctxs := [{ ctx0 with claimed := [1] }], mem := Memory.wr (Memory.wr [] 0x100030010 (natBytes 8 n)) 0x100030000 [0x05#8] }

theorem frameBack (n : Nat) (f : Team → Team) (g : (tk (handling n f)).handler = some 1 ∧ (bk (handling n f)).bureau = none ∧
      (handling n f).xlate (bk (handling n f)) 0x30000 = (.page (pageOf 0x30000), handling n f) ∧
      (handling n f).tarea (bk (handling n f)) = (0x20000, 2) ∧ (handling n f).ctxOf (bk (handling n f)) = some { ctx0 with claimed := [1] } ∧
      (handling n f).held 0x100030000 = false) :
    FrameBack (handling n f) (bk (handling n f)) (tk (handling n f)) 1 0x100030000 := by
  obtain ⟨g1, _, g4, g5, g6, g7⟩ := g
  refine ⟨g1, ⟨pageOf 0x30000, ?_, rfl, ?_⟩, fun _ => by decide, ?_, ?_, fun _ => by rw [g6]; rfl⟩
  · rw [g5]; exact congrArg Prod.fst g4
  · rw [g5]; rfl
  · exact forSome _ g6 rfl
  · exact g7

/-- A store of an earlier chain to the frame, by another virtual address; a result that is due in w0, which a return from NOFEAT writes. -/
def frameOp : MemOp :=
  { id := 7, path := .l, sp := false, kind := .store, size := 4, sx := false, op := 0, ty := 0#4, rnd := 0, dest := none, pend := none, scope := none
    lanes := [⟨0, 0x70020, some 0x100030020, false, 0, 0, 0⟩], logged := false, replays := 0, sampled := false, retry := false, pc := 0#56, time := 0, phase := 0 }
def withFrameOp (t : Team) : Team := { t with ops := [frameOp] }
def withPend (t : Team) : Team := { t with pend := [⟨7, [.w 0], none, false, false⟩] }

theorem witness_TretReturnsWhereTheFrameSays :
    (F s0 [] [] false ∧ (tk s0).handler = none) ∧
    (let s := handling 0xFFFFFFFFFFFFFC withFrameOp
     F s [] [] false ∧ FrameBack s (bk s) (tk s) 1 0x100030000 ∧ earlierStores s (bk s) (tk s) 1 0x100030000 = true) ∧
    (let s := handling 0xFFFFFFFFFFFFFC fun t => { t with ops := [{ frameOp with id := 45 }] }
     F s [] [] false ∧ FrameBack s (bk s) (tk s) 1 0x100030000 ∧ earlierStores s (bk s) (tk s) 1 0x100030000 = false ∧
      frameStores s (bk s) (tk s) 1 0x100030000 = true) ∧
    (let s := handling 0xFFFFFFFFFFFFFC withPend
     F s [] [] false ∧ FrameBack s (bk s) (tk s) 1 0x100030000 ∧ frameStores s (bk s) (tk s) 1 0x100030000 = false ∧
      s.pmRd (0x100030000 + 0x10) 8 % 4 = 0 ∧ (bk s).dying = false ∧
      (tk s).pending s.cur.base ((nofeatWrites s (tk s) 0x100030000).filterMap RegWrite.name?) = true) ∧
    (let s := handling 0xFFFFFFFFFFFFFC id
     F s [] [] false ∧ FrameBack s (bk s) (tk s) 1 0x100030000 ∧ frameStores s (bk s) (tk s) 1 0x100030000 = false ∧
      s.pmRd (0x100030000 + 0x10) 8 % 4 = 0 ∧ (tk s).pending s.cur.base ((nofeatWrites s (tk s) 0x100030000).filterMap RegWrite.name?) = false) ∧
    (let s := handling 1 id
     F s [] [] false ∧ FrameBack s (bk s) (tk s) 1 0x100030000 ∧ frameStores s (bk s) (tk s) 1 0x100030000 = false ∧
      s.pmRd (0x100030000 + 0x10) 8 % 4 ≠ 0) ∧
    ∀ l ∈ [[], [frameOp]], let s := handling 0xFFFFFFFFFFFFFC fun t => { t with ops := l, wait := some (.tret 8#56 4#56) }
      s.team? ⟨0, 0⟩ = some (bk s, tk s) ∧ (tk s).wait = some (.tret 8#56 4#56) ∧ FrameBack s (bk s) (tk s) 1 0x100030000 ∧
      frameStores s (bk s) (tk s) 1 0x100030000 = decide (l ≠ []) ∧ s.pmRd (0x100030000 + 0x10) 8 % 4 = 0 ∧
      (tk s).pending s.nextId ((nofeatWrites s (tk s) 0x100030000).filterMap RegWrite.name?) = false :=
  ⟨⟨mkFree (by decide +kernel), by decide +kernel⟩
    , ⟨mkFree (by decide +kernel), frameBack _ _ (by decide +kernel), by decide +kernel⟩
    , ⟨mkFree (by decide +kernel), frameBack _ _ (by decide +kernel), by decide +kernel⟩
    , ⟨mkFree (by decide +kernel), frameBack _ _ (by decide +kernel), by decide +kernel⟩
    , ⟨mkFree (by decide +kernel), frameBack _ _ (by decide +kernel), by decide +kernel⟩
    , ⟨mkFree (by decide +kernel), frameBack _ _ (by decide +kernel), by decide +kernel⟩, by
      intro l hl
      fin_cases hl <;> exact ⟨by decide +kernel, by decide +kernel, frameBack _ _ (by decide +kernel), by decide +kernel⟩⟩

theorem witness_ControlRegistersAreReadAndWritten :
    F s0 [] [.w 63] false ∧ F s0 [.m 0] [.v 15] false ∧ F s0 [.w 63] [] false :=
  ⟨mkFree (by decide +kernel), mkFree (by decide +kernel), mkFree (by decide +kernel)⟩

/-- A block with 8 slabs, 3 of them in the pool. -/
def pool3 : State := st id (fun b => { b with slabs := 8, pool := 3 }) id

/-- RGIVE of all slabs and of all but one; RCLAIM beyond 64 registers, beyond the block's slabs, and of as many as it may; a grant. -/
theorem witness_SlabsMoveBetweenTeamAndPool :
    (F s0 [] [] false ∧ (tk s0).regs ≤ 8 * (2#6 : BitVec 6).toNat) ∧ 64 < (tk s0).regs + 8 * (7#6 : BitVec 6).toNat ∧
    (bk s0).slabs - (bk s0).teams.length < (4#6 : BitVec 6).toNat ∧
    (8 * (1#6 : BitVec 6).toNat < (tk s0).regs ∧ (tk s0).pend = [] ∧ (tk s0).run.writes = []) ∧
    (F pool3 [] [] false ∧ (tk pool3).regs + 8 * (3#6 : BitVec 6).toNat ≤ 64 ∧ (3#6 : BitVec 6).toNat ≤ (bk pool3).slabs - (bk pool3).teams.length ∧
      (3#6 : BitVec 6).toNat ≤ (bk pool3).pool ∧ (bk pool3).rclaims = [] ∧ (tk pool3).granted = false ∧ (tk pool3).run.writes = []) ∧
    (∃ (s : State) (x : Block) (t : Team), s.block? 0 = some x ∧ x.rclaims = (0, 3) :: [] ∧ x.team? 0 = some t ∧ t.want = .slabs 3 ∧
      t.granted = false ∧ 3 ≤ x.pool) :=
  ⟨⟨mkFree (by decide +kernel), by decide +kernel⟩, by decide +kernel, by decide +kernel, by decide +kernel
    , ⟨mkFree (by decide +kernel), by decide +kernel, by decide +kernel, by decide +kernel, by decide +kernel, by decide +kernel, by decide +kernel⟩
    , ⟨st (fun t => { t with want := .slabs 3 }) (fun b => { b with pool := 3, rclaims := [(0, 3)] }) id, _, _, rfl, rfl, rfl, rfl, rfl
      , by decide +kernel⟩⟩

/-- A block of two teams. -/
def two : State := st id (fun b => { b with teams := b.teams ++ [{ team0 with idx := 1 }] }) id
/-- Its other team has arrived. -/
def twoArr : State := st id (fun b => { b with teams := b.teams ++ [{ team0 with idx := 1 }], barArr := [1] }) id

/-- An access of one lane to the first page that an earlier chain issued. -/
def op0 (k : AccKind) (v c : Nat) : MemOp :=
  { id := 7, path := .l, sp := false, kind := k, size := 4, sx := false, op := 7, ty := 5#4, rnd := 0, dest := if k = .store then none else some (.v 4)
    pend := if k = .store then none else some 7, scope := none, lanes := [⟨0, 0x20, some 0x100000020, false, v, c, 0⟩], logged := false, replays := 0
    sampled := false, retry := false, pc := 0#56, time := 0, phase := 0 }
/-- The small state with that access, its result pending. -/
def sOp (o : MemOp) : State :=
  st (fun t => { t with ops := [o], pend := match o.dest with | some d => [⟨7, [d], none, false, false⟩] | none => [] }) id id
/-- The other team waits in BAR, at phase `p` of the block's phase 5. -/
def twoBar (p : Nat) (arr : List Nat) : State :=
  st id (fun b => { b with teams := b.teams ++ [{ team0 with idx := 1, wait := some (.bar p) }], barArr := arr, barPhase := 5 }) id

theorem witness_BarAndExitCountTeams :
    (let s := sOp (op0 .store 1 0); F s [] [] false ∧ (bk s).dying = false ∧ (tk s).ended = false ∧ ∃ u ∈ (bk s).teams, ¬arrives (bk s) (tk s).idx u) ∧
    (F twoArr [] [] false ∧ (bk twoArr).dying = false ∧ (tk twoArr).ended = false ∧ (∀ u ∈ (bk twoArr).teams, arrives (bk twoArr) (tk twoArr).idx u) ∧
      (∃ i ∈ (bk twoArr).barArr, i ≠ (tk twoArr).idx) ∧ ∀ u ∈ (bk twoArr).teams, u.idx = (tk twoArr).idx ∨ arrived (bk twoArr) u) ∧
    (F two [] [] false ∧ (bk two).dying = false ∧ (tk two).ended = false ∧
      (∃ u ∈ (bk two).teams, ¬arrives (bk two) (tk two).idx u) ∧ ¬∃ i ∈ (bk two).barArr, i ≠ (tk two).idx) ∧
    (let s := twoBar 4 []
     ∃ b t, s.team? ⟨0, 1⟩ = some (b, t) ∧ t.wait = some (.bar 4) ∧ 4 < b.barPhase) ∧
    (let s := twoBar 5 [0, 1]
     ∃ b t, s.team? ⟨0, 1⟩ = some (b, t) ∧ t.wait = some (.bar 5) ∧ b.barPhase = 5 ∧ b.barArr ≠ [] ∧ ∀ u ∈ b.teams, arrived b u) ∧
    (let s := twoBar 5 [1]
     ∃ b t, s.team? ⟨0, 1⟩ = some (b, t) ∧ t.wait = some (.bar 5) ∧ b.barPhase = 5 ∧ ∃ u ∈ b.teams, ¬arrived b u) := by
  refine ⟨⟨mkFree (by decide +kernel), by decide +kernel, by decide +kernel, ?_⟩
    , ⟨mkFree (by decide +kernel), by decide +kernel, by decide +kernel, ?_, by decide +kernel, ?_⟩
    , ⟨mkFree (by decide +kernel), by decide +kernel, by decide +kernel, ?_, by decide +kernel⟩
    , ⟨_, _, rfl, rfl, by decide +kernel⟩, ⟨_, _, rfl, rfl, by decide +kernel, by decide +kernel, ?_⟩, ⟨_, _, rfl, rfl, by decide +kernel, ?_⟩⟩ <;>
    simp only [arrives, arrived] <;> decide +kernel
/-- The small state with memory and w registers: each entry of `l` is a virtual address, a number of bytes and their value. -/
def mw (l : List (Nat × Nat × Nat)) (ws : List (Nat × Dword)) : State :=
  let s := setW ws
  { s with mem := l.foldl (fun m p => Memory.wr m (0x100000000 + p.1) (natBytes p.2.1 p.2.2)) [] }

/-- What a word reads of memory, and the state that the read leaves. -/
def got (s : State) (n va : Nat) : Nat × State := match s.getVa (bk s) n va with | .ok r v => (r, v) | _ => (0, s)
def gets (s : State) (n va : Nat) : Bool := match s.getVa (bk s) n va with | .ok _ _ => true | _ => false
theorem got_eq {s : State} {n va : Nat} (h : gets s n va = true) : s.getVa (bk s) n va = .ok (got s n va).1 (got s n va).2 := by
  unfold gets at h
  unfold got
  split at h <;> simp_all

/-- A launch word's conditions as a test. -/
def ready? (s : State) (d a : BitVec 6) (p g : BitVec 1) (va : Nat) : Bool :=
  free? s [.w a.toNat] [.w d.toNat] true && (!(tk s).outstanding s.cur.base .l && ((bk s).bureau.isNone && (gets s 64 va &&
    ((got s 64 va).2.slotsFree (bk s).tag (if p = 1#1 then 3 else if g = 1#1 then 2 else 1) && decide (((tk s).rw a).toNat = va)))))
theorem launchReady {s : State} {d a : BitVec 6} {p g : BitVec 1} {va : Nat} (h : ready? s d a p g va = true) :
    LaunchReady s (bk s) (tk s) d a p g (got s 64 va).1 (got s 64 va).2 := by
  simp only [ready?, Bool.and_eq_true, Bool.not_eq_true', Option.isNone_iff_eq_none, decide_eq_true_eq] at h
  obtain ⟨h1, h2, h3, h4, h5, h6⟩ := h
  exact ⟨mkFree h1, h2, h3, by rw [h6]; exact got_eq h4, h5⟩

/-- Records of a flat launch (one block over every core) and of a bin, at the least values of their fields. -/
def flatRec : Nat := 1 + 2 ^ 24 + 2 ^ 40 + 12 * 2 ^ 64 + 1024 * 2 ^ 138
def binRec : Nat := 12 * 2 ^ 64 + 2 ^ 112 + 2 ^ 175
/-- w1 names the record. -/
def sRec (r : Nat) : State := mw [(0x1000, 64, r)] [(1, 0x1000#64)]
/-- All 512 bins of die 0 are open. -/
def fullBins (s : State) : State :=
  { s with dies := s.dies.set 0 { Die.reset with bins := (List.range 512).map fun i =>
      { idx := i, tag := 5#12, slot := 0, shape := Dispatch.probe.shape, rw := 1, coal := 1, rspad := 0, timer := 0, deadline := none, records := []
        formed := 0, cursor := 0 } } }

theorem open0 (p : BitVec 1) : launchOpen (got (sRec flatRec) 64 0x1000).2 5#12 p :=
  forSome ctx0 (by decide +kernel) ⟨by decide +kernel, fun _ => forSome level0 (by decide +kernel) (by decide +kernel)⟩

/-- The launch that the block belongs to lies in a cancelled graph in slot 1. -/
def sCut (r : Nat) : State :=
  { sRec r with ctxs := [{ ctx0 with levels := [{ level0 with parent := some 1 }, { level0 with slot := 1, kind := 2, cancelled := true, counter := 1 }] }] }
theorem cut0 (r : Nat) (h : ((got (sCut r) 64 0x1000).2.ctx? (bk (sCut r)).tag).bind (fun c =>
      match c.level? (bk (sCut r)).slot, c.level? 1 with
      | some l, some m => some (l.parent, m.cancelled, m.counter)
      | _, _ => none) = some (some 1, true, 1)) : launchCut (got (sCut r) 64 0x1000).2 (bk (sCut r)) 0#1 0#1 := by
  match e : (got (sCut r) 64 0x1000).2.ctx? (bk (sCut r)).tag with
  | none => rw [e] at h; cases h
  | some c =>
    rw [e, Option.bind_some] at h
    split at h
    · rename_i l m hl hm
      simp only [Option.some.injEq, Prod.mk.injEq] at h
      exact ⟨rfl, rfl, c, l, 1, m, e, hl, h.1, hm, h.2.1, by omega⟩
    · cases h

theorem witness_LaunchesHandInTheirWork :
    (LaunchReady (sRec 0) (bk (sRec 0)) (tk (sRec 0)) 63#6 1#6 1#1 1#1 (got (sRec 0) 64 0x1000).1 (got (sRec 0) 64 0x1000).2 ∧
      flatBad (got (sRec 0) 64 0x1000).1 = true ∧ binBad (got (sRec 0) 64 0x1000).1 = true) ∧
    (LaunchReady (sRec flatRec) (bk (sRec flatRec)) (tk (sRec flatRec)) 5#6 1#6 1#1 0#1 (got (sRec flatRec) 64 0x1000).1 (got (sRec flatRec) 64 0x1000).2 ∧
      launchOpen (got (sRec flatRec) 64 0x1000).2 (bk (sRec flatRec)).tag 1#1 ∧ flatBad (got (sRec flatRec) 64 0x1000).1 = false) ∧
    (LaunchReady (sRec binRec) (bk (sRec binRec)) (tk (sRec binRec)) 5#6 1#6 0#1 0#1 (got (sRec binRec) 64 0x1000).1 (got (sRec binRec) 64 0x1000).2 ∧
      binBad (got (sRec binRec) 64 0x1000).1 = false ∧ (got (sRec binRec) 64 0x1000).2.freeBin (coreDie (bk (sRec binRec)).core) = some 0 ∧
      coreDie (bk (sRec binRec)).core < (got (sRec binRec) 64 0x1000).2.dies.length) ∧
    (LaunchReady (fullBins (sRec binRec)) (bk (fullBins (sRec binRec))) (tk (fullBins (sRec binRec))) 5#6 1#6 0#1 0#1
        (got (fullBins (sRec binRec)) 64 0x1000).1 (got (fullBins (sRec binRec)) 64 0x1000).2 ∧
      binBad (got (fullBins (sRec binRec)) 64 0x1000).1 = false ∧
      (got (fullBins (sRec binRec)) 64 0x1000).2.freeBin (coreDie (bk (fullBins (sRec binRec))).core) = none) ∧
    (LaunchReady (fullBins (sRec 0)) (bk (fullBins (sRec 0))) (tk (fullBins (sRec 0))) 5#6 1#6 0#1 0#1
        (got (fullBins (sRec 0)) 64 0x1000).1 (got (fullBins (sRec 0)) 64 0x1000).2 ∧
      binBad (got (fullBins (sRec 0)) 64 0x1000).1 = true) ∧
    (LaunchReady (sCut flatRec) (bk (sCut flatRec)) (tk (sCut flatRec)) 5#6 1#6 0#1 0#1 (got (sCut flatRec) 64 0x1000).1 (got (sCut flatRec) 64 0x1000).2 ∧
      launchCut (got (sCut flatRec) 64 0x1000).2 (bk (sCut flatRec)) 0#1 0#1 ∧ flatBad (got (sCut flatRec) 64 0x1000).1 = false) ∧
    (LaunchReady (sCut binRec) (bk (sCut binRec)) (tk (sCut binRec)) 5#6 1#6 0#1 0#1 (got (sCut binRec) 64 0x1000).1 (got (sCut binRec) 64 0x1000).2 ∧
      launchCut (got (sCut binRec) 64 0x1000).2 (bk (sCut binRec)) 0#1 0#1 ∧ binBad (got (sCut binRec) 64 0x1000).1 = false ∧
      (got (sCut binRec) 64 0x1000).2.freeBin (coreDie (bk (sCut binRec)).core) ≠ none) :=
  ⟨⟨launchReady (by decide +kernel), by decide +kernel⟩, ⟨launchReady (by decide +kernel), open0 1#1, by decide +kernel⟩
    , ⟨launchReady (by decide +kernel), by decide +kernel⟩, ⟨launchReady (by decide +kernel), by decide +kernel⟩
    , ⟨launchReady (by decide +kernel), by decide +kernel⟩, ⟨launchReady (by decide +kernel), cut0 _ (by decide +kernel), by decide +kernel⟩
    , ⟨launchReady (by decide +kernel), cut0 _ (by decide +kernel), by decide +kernel, by decide +kernel⟩⟩

/-- A context with a second level instance in slot 1, and a handle of it in w1. -/
def level1 (c : Bool) : Level := { level0 with slot := 1, gen := 0xFFFFFFFF#32, complete := c }
def sLevel (c : Bool) (h : Dword) : State :=
  st (fun t => { t with w := t.w.set 1 h }) id fun s => { s with ctxs := [{ ctx0 with levels := [level0, level1 c] }] }
/-- The handle of slot 1, one of another context, and one of a slot that no instance has. -/
def handle1 : Dword := 0x0051FFFFFFFF0001#64
def handleOther : Dword := 0x0061FFFFFFFF0001#64
def handleStale : Dword := 0x005100000003FFFF#64
/-- Handles of slot 1 of KIND 0, of KIND 5, and of another generation; and of slot 0, the block's own launch. -/
def handleZero : Dword := 0x0050FFFFFFFF0001#64
def handleFive : Dword := 0x0055FFFFFFFF0001#64
def handleOld : Dword := 0x0051FFFFFFFE0001#64
def handleOwn : Dword := 0x0051000000030000#64

theorem names1 (c : Bool) (h : (sLevel c handle1).ctxOf (bk (sLevel c handle1)) = some { ctx0 with levels := [level0, level1 c] })
    (g : (tk (sLevel c handle1)).rw 1#6 = handle1 ∧ (bk (sLevel c handle1)).tag = 5#12) :
    namesLevel (sLevel c handle1) (bk (sLevel c handle1)) ((tk (sLevel c handle1)).rw 1#6) (level1 c) := by
  rw [g.1]
  refine ⟨by rw [g.2]; decide, by decide, by decide, _, h, ?_, ?_⟩
  · cases c <;> decide
  · cases c <;> decide

theorem staleBy {s : State} {b : Block} {w : Dword} (x : Ctx) (h : s.ctxOf b = some x) (k : ¬notOwn b w)
    (g : ((x.level? (w.toNat % 2 ^ 16)).all fun l => decide (handleGen w ≠ l.gen.toNat)) = true) : staleHandle s b w :=
  ⟨k, fun c l hc hl => by rw [h] at hc; cases hc; rw [hl] at g; simpa using g⟩

theorem witness_LevelWordsWaitAndCancel :
    (F (sLevel true handle1) [.w 1] [.w 63] true ∧
      namesLevel (sLevel true handle1) (bk (sLevel true handle1)) ((tk (sLevel true handle1)).rw 1#6) (level1 true) ∧
      notSelf (sLevel true handle1) (bk (sLevel true handle1)) (level1 true) ∧ (bk (sLevel true handle1)).dying = false ∧ (level1 true).complete = true) ∧
    (F (sLevel false handle1) [.w 1] [.w 63] true ∧
      namesLevel (sLevel false handle1) (bk (sLevel false handle1)) ((tk (sLevel false handle1)).rw 1#6) (level1 false) ∧
      notSelf (sLevel false handle1) (bk (sLevel false handle1)) (level1 false) ∧ (level1 false).complete = false) ∧
    (∀ w ∈ [handleOther, handleZero, handleFive],
      F (sLevel true w) [.w 1] [.w 63] true ∧ (bk (sLevel true w)).dying = false ∧ notOwn (bk (sLevel true w)) ((tk (sLevel true w)).rw 1#6)) ∧
    (∀ w ∈ [handleStale, handleOld],
      F (sLevel true w) [.w 1] [.w 63] true ∧ staleHandle (sLevel true w) (bk (sLevel true w)) ((tk (sLevel true w)).rw 1#6)) ∧
    (let s := sLevel true handleOwn
     F s [.w 1] [.w 63] true ∧ namesLevel s (bk s) ((tk s).rw 1#6) level0 ∧ isSelf s (bk s) level0) ∧
    (∀ w ∈ [handleOther, handleZero, handleFive], F (sLevel true w) [.w 1] [] false) ∧
    (∀ w ∈ [handleStale, handleOld], F (sLevel true w) [.w 1] [] false) ∧
    (∃ c, F (sLevel false handle1) [.w 1] [] false ∧ (sLevel false handle1).ctxOf (bk (sLevel false handle1)) = some c) :=
  ⟨⟨mkFree (by decide +kernel), names1 true (by decide +kernel) (by decide +kernel)
      , forSome _ (by decide +kernel : _ = some { ctx0 with levels := [level0, level1 true] }) ⟨by decide +kernel, by decide +kernel, by decide +kernel⟩
      , by decide +kernel⟩
    , ⟨mkFree (by decide +kernel), names1 false (by decide +kernel) (by decide +kernel)
      , forSome _ (by decide +kernel : _ = some { ctx0 with levels := [level0, level1 false] }) ⟨by decide +kernel, by decide +kernel, by decide +kernel⟩
      , by decide +kernel⟩
    , by
      intro w hw
      fin_cases hw <;> refine ⟨mkFree (by decide +kernel), by decide +kernel, ?_⟩ <;> simp only [notOwn] <;> decide +kernel
    , by
      intro w hw
      fin_cases hw <;> exact ⟨mkFree (by decide +kernel)
        , staleBy { ctx0 with levels := [level0, level1 true] } (by decide +kernel) (by simp only [notOwn]; decide +kernel) (by decide +kernel)⟩
    , ⟨mkFree (by decide +kernel), ⟨by decide +kernel, by decide +kernel, by decide +kernel, { ctx0 with levels := [level0, level1 true] }
        , by decide +kernel, by decide +kernel, by decide +kernel⟩
      , { ctx0 with levels := [level0, level1 true] }, by decide +kernel, .inl (by decide +kernel)⟩
    , by
      intro w hw
      fin_cases hw <;> exact mkFree (by decide +kernel)
    , by
      intro w hw
      fin_cases hw <;> exact mkFree (by decide +kernel)
    , ⟨{ ctx0 with levels := [level0, level1 false] }, mkFree (by decide +kernel), by decide +kernel⟩⟩

/-- x1 over the first page, with its permissions; x2 invalid. -/
def withX (x : XReg) (t : Team) : Team := { t with x := t.x.set 1 x }
def x0 : XReg := ⟨0#56, 0x100000000#57, 65536#30, 0#3, true, true, true, true⟩
/-- A memory word's check by the small state. -/
abbrev chkOf (q : MemRow) (s : State) : Checked := (q.check s (bk s) (tk s)).1
abbrev afterOf (q : MemRow) (s : State) : State := (q.check s (bk s) (tk s)).2

theorem unwatchedOf {s : State} {b : Block} (h : (s.core b.core).cmp = List.replicate 6 (0#64, 0#64)) : unwatched s b := by
  intro i
  rw [h, List.getD_eq_getElem?_getD, List.getElem?_replicate]
  split <;> decide

theorem pairEq {α β : Type} (p : α × β) : p = (p.1, p.2) := rfl

/-- The row of an instruction. -/
def rowOf (i : Instr) : MemRow := (memRow i).getD (loadRow h0 none none 0#6 0#6 0#1 0#2)
/-- The hypotheses that every memory word's statement makes. -/
def Mem (i : Instr) (x : BitVec 3) (s : State) : Prop :=
  memRow i = some (rowOf i) ∧ (rowOf i).x = some x ∧ F s (rowOf i).regs (rowOf i).dests (!(rowOf i).dests.isEmpty) ∧
  (rowOf i).check s (bk s) (tk s) = (chkOf (rowOf i) s, afterOf (rowOf i) s) ∧ unwatched (afterOf (rowOf i) s) (bk s) ∧
  (afterOf (rowOf i) s).logUsed (bk s).core < 32
theorem mkMem {i : Instr} {x : BitVec 3} {s : State} (h : memRow i = some (rowOf i)) (hx : (rowOf i).x = some x)
    (h1 : free? s (rowOf i).regs (rowOf i).dests (!(rowOf i).dests.isEmpty) = true)
    (h2 : ((afterOf (rowOf i) s).core (bk s).core).cmp = List.replicate 6 (0#64, 0#64) ∧ (afterOf (rowOf i) s).logUsed (bk s).core < 32) :
    Mem i x s := ⟨h, hx, mkFree h1, rfl, unwatchedOf h2.1, h2.2⟩

/-- Lanes 0 to `n - 1` active, with offsets `o`, in lane-suppress mode or not. -/
def sAcc (n : Nat) (o : Nat → Nat) (suppress : Bool) : State :=
  sv [(6, o)] fun t => low n (withX x0 { t with status := if suppress then 1#64 else 0#64 })

/-- The context's tables lie on module 1, whose routing entry a write has changed while the team has an access there; the lane's page is in no
TLB. -/
def farOp : MemOp := { op0 .store 1 0 with lanes := [⟨0, 0x20, some 0x1000000000020, false, 1, 0, 0⟩] }
def sHeld : State :=
  let s := sAcc 1 (nth [0x40000]) false
  { s with ctxs := [{ ctx0 with root := 0x1000000000000, acc0 := 4#64 }], offer0 := 4#64, routes := s.routes.set 1 0x80000001#64, routeHolds := [(1, 40)]
           blocks := s.blocks.map fun b => { b with teams := b.teams.map fun t => { t with ops := [farOp] } } }

/-- A load with a lane that fails, without and with lane-suppress mode; one whose lanes all pass, at the last word of the page; a store, and a
word without a lane. -/
theorem witness_MemoryWordsIssueTheirAccess :
    F s0 ([.m 0, .x 1] ++ if (63#6 : BitVec 6) = 63#6 then [] else [.v 63]) [] false ∧
    (Mem (.ldg h0 0#3 4#6 1#3 6#6 0#1 2#2) 1#3 (sAcc 2 (nth [0, 1]) false) ∧
      (chkOf (rowOf (.ldg h0 0#3 4#6 1#3 6#6 0#1 2#2)) (sAcc 2 (nth [0, 1]) false)).bad ≠ [] ∧
      (tk (sAcc 2 (nth [0, 1]) false)).status.getLsbD 0 = false) ∧
    (Mem (.ldg h0 0#3 4#6 1#3 6#6 0#1 2#2) 1#3 (sAcc 2 (nth [0, 1]) true) ∧
      (chkOf (rowOf (.ldg h0 0#3 4#6 1#3 6#6 0#1 2#2)) (sAcc 2 (nth [0, 1]) true)).bad ≠ [] ∧
      (chkOf (rowOf (.ldg h0 0#3 4#6 1#3 6#6 0#1 2#2)) (sAcc 2 (nth [0, 1]) true)).ok ≠ [] ∧
      (tk (sAcc 2 (nth [0, 1]) true)).status.getLsbD 0 = true) ∧
    (Mem (.ldg h0 0#3 4#6 1#3 6#6 0#1 2#2) 1#3 (sAcc 2 (nth [0, 65532]) false) ∧
      (chkOf (rowOf (.ldg h0 0#3 4#6 1#3 6#6 0#1 2#2)) (sAcc 2 (nth [0, 65532]) false)).bad = [] ∧
      (chkOf (rowOf (.ldg h0 0#3 4#6 1#3 6#6 0#1 2#2)) (sAcc 2 (nth [0, 65532]) false)).ok ≠ []) ∧
    (Mem (.stw h0 5#6 1#3 63#6 3#2) 1#3 (sAcc 2 (nth []) false) ∧ (chkOf (rowOf (.stw h0 5#6 1#3 63#6 3#2)) (sAcc 2 (nth []) false)).bad = [] ∧
      (rowOf (.stw h0 5#6 1#3 63#6 3#2)).dest = none) ∧
    (Mem (.red h0 0#4 0#3 4#6 1#3 6#6 0#1) 1#3 (sAcc 0 (nth []) false) ∧
      (chkOf (rowOf (.red h0 0#4 0#3 4#6 1#3 6#6 0#1)) (sAcc 0 (nth []) false)).ok = []) ∧
    (let i := Instr.ldg h0 0#3 4#6 1#3 6#6 0#1 2#2
     Mem i 1#3 sHeld ∧ (chkOf (rowOf i) sHeld).bad = [] ∧
      ∃ a ∈ (chkOf (rowOf i) sHeld).ok, a.pa = none ∧ (afterOf (rowOf i) sHeld).tableWait (bk sHeld).tag a.va = true) :=
  ⟨mkFree (by decide +kernel)
    , ⟨mkMem rfl rfl (by decide +kernel) (by decide +kernel), by decide +kernel⟩, ⟨mkMem rfl rfl (by decide +kernel) (by decide +kernel), by decide +kernel⟩
    , ⟨mkMem rfl rfl (by decide +kernel) (by decide +kernel), by decide +kernel⟩, ⟨mkMem rfl rfl (by decide +kernel) (by decide +kernel), by decide +kernel⟩
    , ⟨mkMem rfl rfl (by decide +kernel) (by decide +kernel), by decide +kernel⟩
    , ⟨mkMem rfl rfl (by decide +kernel) (by decide +kernel), by decide +kernel, by decide +kernel⟩⟩

/-- Each clause of the checks at a value of its own: an invalid register, an odd address, a reserved address, a permission that lacks, a
window, a module without a route, and the last word of the register's range; on scratchpad the first byte beyond it, an odd address,
the last word. -/
theorem witness_LanesAreCheckedInOrder :
    s0.ctxOf (bk s0) = some ctx0 ∧ XReg.invalid.val = false ∧
    (x0.val = true ∧ ((x0.vbase.toNat + (2 : Int)) % 2 ^ 56).toNat % 4 ≠ 0) ∧
    (let x : XReg := { x0 with frame := 0x9000000000#57 }
     x.val = true ∧ ((x.vbase.toNat + (0 : Int)) % 2 ^ 56).toNat % 4 = 0 ∧ (0 : Int) < x.limit.toNat ∧
      reservedLocal (paLocal ((x.frame.toNat + (0 : Int).toNat) % 2 ^ 57)) = true) ∧
    (let x : XReg := { x0 with wr := false }
     x.val = true ∧ (65532 : Int) < x.limit.toNat ∧ reservedLocal (paLocal ((x.frame.toNat + (65532 : Int).toNat) % 2 ^ 57)) = false) ∧
    (let x : XReg := { x0 with frame := 0x8002C0000000#57 }
     reservedLocal (paLocal ((x.frame.toNat + (0 : Int).toNat) % 2 ^ 57)) = false ∧ 0x8000000000 ≤ paLocal ((x.frame.toNat + (0 : Int).toNat) % 2 ^ 57)) ∧
    (let x : XReg := { x0 with frame := 0x13F000000000000#57 }
     reservedLocal (paLocal ((x.frame.toNat + (0 : Int).toNat) % 2 ^ 57)) = false ∧ paLocal ((x.frame.toNat + (0 : Int).toNat) % 2 ^ 57) < 0x8000000000 ∧
      s0.reachable ctx0 (paModule ((x.frame.toNat + (0 : Int).toNat) % 2 ^ 57)) = false) ∧
    (x0.val = true ∧ ((x0.vbase.toNat + (65532 : Int)) % 2 ^ 56).toNat % 4 = 0 ∧ (65532 : Int) < x0.limit.toNat ∧
      paLocal ((x0.frame.toNat + (65532 : Int).toNat) % 2 ^ 57) < 0x8000000000 ∧
      s0.reachable ctx0 (paModule ((x0.frame.toNat + (65532 : Int).toNat) % 2 ^ 57)) = true) ∧
    ((bk s0).spadSize < 1024 + 1 ∧ 1024 < 2 ^ 18) ∧ (1023 + 1 ≤ (bk s0).spadSize ∧ 1 + 4 ≤ (bk s0).spadSize ∧ 1 % 4 ≠ 0) ∧
    (1020 + 4 ≤ (bk s0).spadSize ∧ 1020 % 4 = 0) := by
  refine ⟨?_, ?_, ?_, ?_, ?_, ?_, ?_, ?_, ?_, ?_, ?_⟩ <;> decide +kernel

/-- The hypotheses that a scratchpad word's statement makes, but for what holds the word back. -/
def Spad (i : Instr) (s : State) : Prop :=
  memRow i = some (rowOf i) ∧ (rowOf i).x = none ∧ F s (rowOf i).regs (rowOf i).dests (!(rowOf i).dests.isEmpty) ∧
  (rowOf i).check s (bk s) (tk s) = (chkOf (rowOf i) s, afterOf (rowOf i) s) ∧ unwatched s (bk s)
theorem mkSpad {i : Instr} {s : State} (h : memRow i = some (rowOf i)) (hx : (rowOf i).x = none)
    (h1 : free? s (rowOf i).regs (rowOf i).dests (!(rowOf i).dests.isEmpty) = true)
    (h2 : (s.core (bk s).core).cmp = List.replicate 6 (0#64, 0#64)) : Spad i s :=
  ⟨h, hx, mkFree h1, rfl, unwatchedOf h2⟩
/-- An access of two lanes to the last words of the scratchpad. -/
def spOp (k : AccKind) : MemOp :=
  { op0 k 1 0 with sp := true, lanes := [⟨0, 0, some 1020, false, 1, 0, 0⟩, ⟨31, 0, some 1020, false, 2, 0, 0⟩] }
/-- Whether an earlier access of the team has to come first. -/
abbrev first? (i : Instr) (s : State) : Prop := comesFirst s (tk s) (rowOf i).h.sc.isSome
theorem noneFirst {s : State} {i : Instr} (h : (tk s).ops = []) : ¬first? i s := by
  rintro ⟨o, ho, -⟩
  rw [h] at ho
  cases ho
/-- The small state with an access of path L of an earlier chain. -/
def sBehind (o : MemOp) : State := let s := sAcc 2 (nth [0, 1020]) false
  { s with blocks := s.blocks.map fun b => { b with teams := b.teams.map fun t => { t with ops := [o] } } }

/-- A load beyond the scratchpad, which traps; the last byte; a store of two lanes to one byte, whole and apart; an atomic with its old values; a
word with a scope behind a store of path L; a word without one behind a scratchpad access, and behind an acquire. -/
theorem witness_ScratchpadWordsActAtOnce :
    (let i := Instr.lds h0 0#3 4#6 6#6 0#1 0#2
     let s := sAcc 1 (nth [1024]) false
     Spad i s ∧ (chkOf (rowOf i) s).bad ≠ [] ∧ (tk s).status.getLsbD 0 = false) ∧
    (let i := Instr.lds h0 0#3 4#6 6#6 0#1 0#2
     let s := sAcc 2 (nth [1023, 1024]) true
     Spad i s ∧ ¬first? i s ∧ s.apart = false ∧ (chkOf (rowOf i) s).ok ≠ [] ∧ (tk s).status.getLsbD 0 = true) ∧
    (let i := Instr.sts h0 0#3 4#6 6#6 0#2
     let s := sAcc 2 (nth [1023, 1023]) false
     Spad i s ∧ ¬first? i s ∧ s.apart = false ∧ (chkOf (rowOf i) s).bad = [] ∧ (rowOf i).kind = .store) ∧
    (let i := Instr.sts h0 0#3 4#6 6#6 0#2
     let s := { sAcc 2 (nth [1023, 1023]) false with apart := true }
     Spad i s ∧ s.apart = true ∧ (chkOf (rowOf i) s).bad = [] ∧ (chkOf (rowOf i) s).ok ≠ []) ∧
    (let i := Instr.atom h0 7#4 0#3 4#6 0#3 6#6 1#1
     let s := sAcc 2 (nth [0, 0]) false
     Spad i s ∧ ¬first? i s ∧ s.apart = false ∧ (chkOf (rowOf i) s).bad = [] ∧ (chkOf (rowOf i) s).ok ≠ [] ∧ (rowOf i).kind = .atom) ∧
    (let i := Instr.lds (hSc 1#3) 0#3 4#6 6#6 0#1 0#2
     let s := sOp (op0 .store 1 0)
     Spad i s ∧ first? i s ∧ (chkOf (rowOf i) s).bad = [] ∧ (chkOf (rowOf i) s).ok ≠ []) ∧
    (∀ o ∈ [spOp .store, { op0 .load 0 0 with scope := some 1 }], let i := Instr.lds h0 0#3 4#6 6#6 0#1 2#2
     let s := sBehind o
     Spad i s ∧ first? i s ∧ s.apart = false ∧ (chkOf (rowOf i) s).bad = [] ∧ (chkOf (rowOf i) s).ok ≠ []) :=
  ⟨⟨mkSpad rfl rfl (by decide +kernel) (by decide +kernel), by decide +kernel⟩
    , ⟨mkSpad rfl rfl (by decide +kernel) (by decide +kernel), noneFirst (by decide +kernel), by decide +kernel⟩
    , ⟨mkSpad rfl rfl (by decide +kernel) (by decide +kernel), noneFirst (by decide +kernel), by decide +kernel⟩
    , ⟨mkSpad rfl rfl (by decide +kernel) (by decide +kernel), by decide +kernel⟩
    , ⟨mkSpad rfl rfl (by decide +kernel) (by decide +kernel), noneFirst (by decide +kernel), by decide +kernel⟩
    , ⟨mkSpad rfl rfl (by decide +kernel) (by decide +kernel), by unfold first? comesFirst; decide +kernel, by decide +kernel⟩, by
      intro o ho
      fin_cases ho <;> refine ⟨mkSpad rfl rfl (by decide +kernel) (by decide +kernel), ?_, ?_⟩ <;> (try unfold first? comesFirst) <;> decide +kernel⟩

/-- The small state with granule 0 full. -/
def sFull : State := let s := sAcc 2 (nth [0, 12]) false
  { s with blocks := s.blocks.map fun b => { b with full := [0] } }
/-- The same behind a scratchpad store that is not performed. -/
def sFullStill : State := { sFull with blocks := sFull.blocks.map fun b => { b with teams := b.teams.map fun t => { t with ops := [spOp .store] } } }
/-- The row of the consuming loads of the test. -/
def qFe : MemRow := loadRow h0 (some 0#3) none 6#6 4#6 0#1 2#2
/-- Whether every granule of the lanes is full. -/
def allFull (s : State) : Bool :=
  (chkOf qFe s).ok.all fun a => match s.block? a.blk with | some y => y.full.contains (a.pa.getD 0 / 16) | none => false

/-- A FESET or FECLR of granule 1 of the scratchpad that is not performed. -/
def feOp (k : AccKind) : MemOp :=
  { id := 7, path := .l, sp := true, kind := k, size := 16, sx := false, op := 0, ty := 0#4, rnd := 0, dest := none, pend := none, scope := none
    lanes := feLanes 16 0 16 16, logged := false, replays := 0, sampled := false, retry := false, pc := 0#56, time := 0, phase := 0 }
def sFeOp (k : AccKind) : State := st (fun t => { t with ops := [feOp k] }) id id

theorem witness_FullBitsGateConsumingLoads :
    (F sFull qFe.regs qFe.dests true ∧ qFe.check sFull (bk sFull) (tk sFull) = (chkOf qFe sFull, afterOf qFe sFull) ∧ unwatched sFull (bk sFull) ∧
      (tk sFull).ops = [] ∧ (bk sFull).dying = false ∧ (chkOf qFe sFull).bad = [] ∧ (chkOf qFe sFull).ok ≠ [] ∧ allFull sFull = true) ∧
    (F sFullStill qFe.regs qFe.dests true ∧ unwatched sFullStill (bk sFullStill) ∧ (bk sFullStill).dying = false ∧ (chkOf qFe sFullStill).bad = [] ∧
      (chkOf qFe sFullStill).ok ≠ [] ∧ stillFirst (tk sFullStill)) ∧
    (let s := sAcc 2 (nth [0, 16]) false
     F s qFe.regs qFe.dests true ∧ unwatched s (bk s) ∧ (chkOf qFe s).bad = [] ∧ (chkOf qFe s).ok ≠ [] ∧ allFull s = false) ∧
    (F s0 (.w 1 :: if (63#6 : BitVec 6) = 63#6 then [] else [.w 63]) [] false ∧ ((tk s0).rw 1#6).toNat % 16 ≠ 0) ∧
    (let s := setW [(1, 16#64), (4, 1008#64)]
     F s (.w 1 :: if (4#6 : BitVec 6) = 63#6 then [] else [.w 4]) [] false ∧ 1008 % 16 = 0 ∧ ((tk s).rw 1#6).toNat % 16 = 0 ∧
      1008 < (bk s).spadSize ∧ 1008 + ((tk s).rw 1#6).toNat ≤ (bk s).spadSize ∧ (tk s).ops = []) ∧
    ∀ k ∈ [AccKind.feset, .feclr], let s := sFeOp k
      s.dueOp ⟨0, 0⟩ 7 = some (bk s, tk s, feOp k) ∧ (tk s).ops = [feOp k] ∧ (feOp k).sp = true ∧ (feOp k).isFe = true ∧ s.block? 0 = some (bk s) ∧
      ((feOp k).lanes.map fun a => a.lane).Nodup ∧ ∀ a ∈ (feOp k).lanes, a.done = false ∧ a.blk = 0 ∧ a.pa.isSome = true :=
  ⟨⟨mkFree (by decide +kernel), pairEq _, unwatchedOf (by decide +kernel), by decide +kernel⟩
    , ⟨mkFree (by decide +kernel), unwatchedOf (by decide +kernel), by decide +kernel, by decide +kernel, by decide +kernel, by unfold stillFirst; decide +kernel⟩
    , ⟨mkFree (by decide +kernel), unwatchedOf (by decide +kernel), by decide +kernel⟩, ⟨mkFree (by decide +kernel), by decide +kernel⟩
    , ⟨mkFree (by decide +kernel), by decide +kernel⟩, by
      intro k hk
      fin_cases hk <;> refine ⟨?_, ?_, ?_, ?_, ?_, ?_, ?_⟩ <;> decide +kernel⟩

/-- A copy of an earlier chain. -/
def copy0 : Copy :=
  { id := 9, b := 0, team := 0, kind := .cpy, dir := 1, chip := .spad 0 0, u := 63, pend := none, bench := none, bytes := 16, src := 0, dst := 0x40
    lay := layoutOf 0, base := 0, x := 0, y := 0, z := 0, list := [], plo := 0, perm := [], wb0 := 0, wb1 := 0, done := [], got := []
    held := [], told := false, xlate := false, tagErr := false, range := false, first := none, rows := none }

/-- A copy into scratchpad of an earlier chain. -/
def sCopyIn : State := st id id fun s => { s with copies := [{ copy0 with dir := 0 }] }

/-- Nothing outstanding; a logged access, one of path L, a FESET, and a copy into scratchpad, of earlier chains. -/
theorem witness_FencesAwaitWhatCameBefore :
    (F s0 [] [] false ∧ (∀ o ∈ (tk s0).ops, o.id < s0.cur.base → o.logged = false ∧ o.path ≠ .l) ∧ s0.pathBusy (bk s0) (tk s0) (pathOf 1#3) = false ∧
      s0.pathBusy (bk s0) (tk s0) (pathOf 5#3) = false ∧ (tk s0).ops = [] ∧ s0.copies = []) ∧
    (let s := sOp { op0 .store 1 0 with logged := true }
     F s [] [] false ∧ ∃ o ∈ (tk s).ops, o.id < s.cur.base ∧ o.logged = true) ∧
    (let s := sOp (op0 .store 1 0)
     F s [] [] false ∧ (∃ o ∈ (tk s).ops, o.id < s.cur.base ∧ o.path = .l) ∧ (∀ o ∈ (tk s).ops, o.logged = false) ∧
      s.pathBusy (bk s) (tk s) (pathOf 0#3) = true) ∧
    (let s := sFeOp .feset
     F s [] [] false ∧ ∃ o ∈ (tk s).ops, o.id < s.cur.base ∧ o.sp = true ∧ o.kind ≠ .load) ∧
    (F sCopyIn [] [] false ∧ ∃ c ∈ sCopyIn.copies, c.b = (bk sCopyIn).id ∧ c.team = (tk sCopyIn).idx ∧ c.id < sCopyIn.cur.base ∧ c.toSpad = true) :=
  ⟨⟨mkFree (by decide +kernel), by decide +kernel⟩, ⟨mkFree (by decide +kernel), by decide +kernel⟩, ⟨mkFree (by decide +kernel), by decide +kernel⟩
    , ⟨mkFree (by decide +kernel), by decide +kernel⟩, ⟨mkFree (by decide +kernel), by decide +kernel⟩⟩

/-- A load, a store and a swap that is due, of one lane on a page of this module; and each on scratchpad, kept apart. -/
theorem witness_AccessesArePerformedOnMemory :
    (∀ k ∈ [AccKind.load, .store, .atom], let s := sOp (spOp k)
      s.dueOp ⟨0, 0⟩ 7 = some (bk s, tk s, spOp k) ∧ (bk s).bureau = none ∧ (spOp k).sp = true ∧ (spOp k).lanes ≠ [] ∧
      (∀ p ∈ (tk s).ops.takeWhile (fun p => p.id != (spOp k).id), p.sp = false) ∧ ((spOp k).lanes.Pairwise fun a c => a.lane < c.lane) ∧
      ∀ l ∈ (spOp k).lanes, l.done = false ∧ l.pa.isSome = true) ∧
    ∀ k ∈ [AccKind.load, .store, .atom], let s := sOp (op0 k 1 0)
      s.dueOp ⟨0, 0⟩ 7 = some (bk s, tk s, op0 k 1 0) ∧ (bk s).bureau = none ∧ (op0 k 1 0).sp = false ∧ (op0 k 1 0).lanes ≠ [] ∧
      unheld s (tk s) (op0 k 1 0) ∧ 0x100000020 % 64 + (op0 k 1 0).size ≤ 64 ∧
      paModule (s.home 0x100000020) = s.pod.toNat ∧ byteAt s 4 0x100000023 ⟨0, 0x20, some 0x100000020, false, 1, 0, 0⟩ 3 := by
  refine ⟨?_, ?_⟩ <;> intro k hk
  · fin_cases hk <;> decide +kernel
  · fin_cases hk <;> refine ⟨by decide +kernel, by decide +kernel, by decide +kernel, by decide +kernel
      , ⟨by decide +kernel, by decide +kernel⟩, by decide +kernel, by decide +kernel, by decide, _, rfl, by decide +kernel⟩
/-- The scratchpad of the small state with a bench at offset `o`, and w registers. -/
def sBench (o x : Nat) (ws : List (Nat × Dword)) : State :=
  let s := setW ws
  { s with blocks := s.blocks.map fun b => { b with spad := Memory.wr [] o (natBytes 16 x) } }

/-- The hypotheses of a bench word on the bench at the offset that w4 holds. -/
def Bw (s : State) (h : Hd) (off : Nat) : Prop :=
  s.legalSp (bk s) 16 (uniAddr (tk s) h 4#6) = .ok (0, off) ∧ s.block? 0 = some (bk s) ∧ (tk s).ops = [] ∧ (bk s).dying = false ∧
  F s (.w 1 :: if (4#6 : BitVec 6) = 63#6 then [] else [.w 4]) [] false
def bw? (s : State) (h : Hd) (off : Nat) : Bool :=
  decide (s.legalSp (bk s) 16 (uniAddr (tk s) h 4#6) = .ok (0, off) ∧ s.block? 0 = some (bk s) ∧ (tk s).ops = [] ∧ (bk s).dying = false) &&
    free? s (.w 1 :: if (4#6 : BitVec 6) = 63#6 then [] else [.w 4]) [] false
theorem mkBw {s : State} {h : Hd} {off : Nat} (e : bw? s h off = true) : Bw s h off := by
  simp only [bw?, Bool.and_eq_true, decide_eq_true_eq] at e
  exact ⟨e.1.1, e.1.2.1, e.1.2.2.1, e.1.2.2.2, mkFree e.2⟩

/-- The same state with an access of an earlier chain, and with a turn that keeps the word apart. -/
def sBenchBehind (x : Option MemOp) : State :=
  let s := sBench 1008 0 [(1, 1#64), (4, 1008#64)]
  { s with apart := x.isNone, blocks := s.blocks.map fun b => { b with teams := b.teams.map fun t => { t with ops := x.toList } } }
/-- A scratchpad store, an acquire, a store of path L. -/
def acquire : MemOp := { op0 .load 0 0 with scope := some 1 }
/-- A bench word's access that is due. -/
def benchOp (k : AccKind) (v : Nat) : MemOp := { feOp k with lanes := [⟨0, 0, some 1008, false, v, 0, 0⟩] }
theorem benchDue (k : AccKind) (v : Nat) (h : (sOp (benchOp k v)).dueOp ⟨0, 0⟩ 7 = some (bk (sOp (benchOp k v)), tk (sOp (benchOp k v)), benchOp k v) ∧
      (tk (sOp (benchOp k v))).ops = [benchOp k v] ∧ (sOp (benchOp k v)).block? 0 = some (bk (sOp (benchOp k v)))) :
    BenchDue (sOp (benchOp k v)) ⟨0, 0⟩ 7 k (tk (sOp (benchOp k v))) (benchOp k v) ⟨0, 0, some 1008, false, v, 0, 0⟩ 1008 (bk (sOp (benchOp k v))) :=
  ⟨⟨_, h.1⟩, ⟨[], h.2.1⟩, rfl, ⟨rfl, rfl⟩, ⟨rfl, rfl, rfl⟩, h.2.2⟩

/-- BINIT with no expectation and with one, kept apart, behind a scratchpad store and behind an acquire, and its access, with the greatest
expectations; BWAIT on the last bench of the scratchpad, past by 1 and by 2^14, and not past by 0 and by
2^14 + 1. -/
theorem witness_BenchWordsActOnTheirBench :
    (Bw (sBench 0 0 [(1, 0xFFFF000000000000#64), (4, 0#64)]) h0 0 ∧
      ((tk (sBench 0 0 [(1, 0xFFFF000000000000#64), (4, 0#64)])).rw 1#6).toNat % 2 ^ 48 = 0) ∧
    (Bw (sBench 0 0 [(1, 1#64), (4, 1000#64)]) ⟨false, false, none, some 8#23⟩ 1008 ∧ ((tk (sBench 0 0 [(1, 1#64), (4, 1000#64)])).rw 1#6).toNat % 2 ^ 48 ≠ 0) ∧
    (∀ p ∈ [(1, 0), (0, 0), (16384, 0), (16385, 0), (0, 32767)],
      Bw (sBench 1008 (p.1 * 2 ^ 112) [(1, BitVec.ofNat 64 p.2), (4, 1008#64)]) h0 1008) ∧
    (∀ x ∈ [none, some (spOp .store), some acquire], let s := sBenchBehind x
      s.legalSp (bk s) 16 (uniAddr (tk s) h0 4#6) = .ok (0, 1008) ∧ s.block? 0 = some (bk s) ∧ F s [.w 1, .w 4] [] false ∧ (bk s).dying = false ∧
      (s.apart = true ∨ comesFirst s (tk s) false) ∧ (x.isSome = true → stillFirst (tk s))) ∧
    (let s := sOp (benchOp .binit (2 ^ 48 - 1))
     BenchDue s ⟨0, 0⟩ 7 .binit (tk s) (benchOp .binit (2 ^ 48 - 1)) ⟨0, 0, some 1008, false, 2 ^ 48 - 1, 0, 0⟩ 1008 (bk s)) := by
  refine ⟨⟨mkBw (by decide +kernel), by decide +kernel⟩, ⟨mkBw (by decide +kernel), by decide +kernel⟩, ?_, ?_, benchDue _ _ (by decide +kernel)⟩
  · intro p hp
    fin_cases hp <;> exact mkBw (by decide +kernel)
  · intro x hx
    fin_cases hx <;> refine ⟨by decide +kernel, by decide +kernel, mkFree (by decide +kernel), by decide +kernel, ?_, ?_⟩ <;>
      simp only [comesFirst, stillFirst] <;> decide +kernel

/-- What the rest of a copy's moves come to: the state and the copy. -/
abbrev restS (s : State) (c : Copy) : State := (s.moveRest (bk s) c).1
abbrev restC (s : State) (c : Copy) : Copy := (s.moveRest (bk s) c).2
/-- The small state with a copy in flight that posts to the bench at offset 0. -/
def copyB : Copy := { copy0 with bench := some (0, 0), dst := 0xFFF0, u := 5, pend := some 9 }
def sCopy (c : Copy) : State :=
  st (fun t => { t with pend := [⟨9, [.w 5], none, false, true⟩] }) (fun b => { b with spad := Memory.wr [] 0 (natBytes 16 (16 * 2 ^ 16)) })
    fun s => { s with copies := [c] }

theorem witness_PostsCompletePhases :
    2 ^ 128 - 1 < 2 ^ 128 ∧ Bw (sBench 1008 (2 ^ 128 - 1) [(1, 1#64), (4, 1008#64)]) h0 1008 ∧
    (∀ x ∈ [none, some (op0 .store 1 0)], let s := sBenchBehind x
      s.legalSp (bk s) 16 (uniAddr (tk s) h0 4#6) = .ok (0, 1008) ∧ s.block? 0 = some (bk s) ∧ F s [.w 4] [] false ∧
      (s.apart = true ∨ comesFirst s (tk s) true)) ∧
    (let s := sBench 1008 (2 ^ 128 - 1) [(4, 1008#64)]
     s.legalSp (bk s) 16 (uniAddr (tk s) h0 4#6) = .ok (0, 1008) ∧ s.block? 0 = some (bk s) ∧ F s [.w 4] [] false ∧ s.apart = false ∧ (tk s).ops = []) ∧
    (let s := sOp (benchOp .barrive 0)
     BenchDue s ⟨0, 0⟩ 7 .barrive (tk s) (benchOp .barrive 0) ⟨0, 0, some 1008, false, 0, 0, 0⟩ 1008 (bk s)) ∧
    (let s := sCopy copyB
     s.copies.find? (fun x => x.id == copyB.id) = some copyB ∧ s.block? copyB.b = some (bk s) ∧ copyB.bench = some (0, 0) ∧
      s.moveRest (bk s) copyB = (restS s copyB, restC s copyB) ∧ (restC s copyB).dests ≤ (restC s copyB).done.length ∧
      (restC s copyB).bench = some (0, 0) ∧ ((restS s copyB).block? 0).isSome = true) ∧
    (let s := sCopy { copyB with told := true }
     s.moveRest (bk s) { copyB with told := true } = (restS s { copyB with told := true }, restC s { copyB with told := true }) ∧ (restC s { copyB with told := true }).dests ≤ (restC s { copyB with told := true }).done.length ∧
      (restC s { copyB with told := true }).told = true) :=
  ⟨by decide, mkBw (by decide +kernel), by
      intro x hx
      fin_cases hx <;> refine ⟨by decide +kernel, by decide +kernel, mkFree (by decide +kernel), ?_⟩ <;> simp only [comesFirst] <;> decide +kernel
    , ⟨by decide +kernel, by decide +kernel, mkFree (by decide +kernel), by decide +kernel⟩, benchDue _ _ (by decide +kernel)
    , ⟨by decide +kernel, by decide +kernel, by decide +kernel, pairEq _, by decide +kernel⟩, ⟨pairEq _, by decide +kernel⟩⟩

theorem joins (s : State) (n : Nat) (h : 1 ≤ n ∧ n ≤ 4) (h1 : (bk s).group = none) (h2 : s.blocks.all (fun x => x.group.isNone) = true) :
    Joins s (bk s) 7 n := by
  have none : ∀ x ∈ s.blocks, inGroup (bk s) 7 x = false := by
    intro x hx
    have := List.all_eq_true.1 h2 x hx
    simp [inGroup, Option.isNone_iff_eq_none.1 this]
  refine ⟨h, by simp [h1], fun x hx e => absurd e (by simp [none x hx]), fun x hx e => absurd e (by simp [none x hx]), Or.inl ?_⟩
  rw [List.filter_eq_nil_iff.2 fun x hx => by simp [none x hx]]
  exact h.1

/-- A FESET of an earlier chain is not performed; w1 asks for a group of one. -/
def sEarly : State := st (fun t => { t with ops := [feOp .feset], w := t.w.set 1 0x10007#64 }) id id

/-- A block on core 1 whose team waits in SGJOIN for the second member of group 7. -/
def waiter : Block := { block0 with id := 1, core := 1, group := some ⟨7, 2⟩, teams := [{ team0 with wait := some (.sgjoin 7 2) }] }
def sWaiter : State := st (fun t => { t with w := t.w.set 1 0x20007#64 }) id fun s => { s with blocks := s.blocks ++ [waiter] }

/-- A group of one, which is whole at once, one of four, which waits, and one of two that another block waits for; behind a FESET; COUNT 5 is
refused. -/
theorem witness_GroupsAreJoinedAndLeft :
    (∀ n ∈ [1, 4], let s := setW [(1, BitVec.ofNat 64 (7 + n * 2 ^ 16))]
      F s [.w 1] [] false ∧ (bk s).dying = false ∧ Joins s (bk s) (((tk s).rw 1#6).toNat % 2 ^ 16) (((tk s).rw 1#6).toNat / 2 ^ 16 % 8) ∧
      (tk s).ops = []) ∧
    (F sEarly [.w 1] [] false ∧ (bk sEarly).dying = false ∧ Joins sEarly (bk sEarly) (((tk sEarly).rw 1#6).toNat % 2 ^ 16) (((tk sEarly).rw 1#6).toNat / 2 ^ 16 % 8) ∧
      ∃ o ∈ (tk sEarly).ops, o.sp = true ∧ o.id < sEarly.cur.base) ∧
    (let s := sWaiter
     F s [.w 1] [] false ∧ (bk s).dying = false ∧ Joins s (bk s) (((tk s).rw 1#6).toNat % 2 ^ 16) (((tk s).rw 1#6).toNat / 2 ^ 16 % 8) ∧
      (tk s).ops = [] ∧ ∃ x y, s.team? ⟨1, 0⟩ = some (x, y) ∧ inGroup (bk s) 7 x = true ∧ y.wait = some (.sgjoin 7 2)) ∧
    (let s := setW [(1, 0x50007#64)]
     F s [.w 1] [] false ∧ ¬Joins s (bk s) (((tk s).rw 1#6).toNat % 2 ^ 16) (((tk s).rw 1#6).toNat / 2 ^ 16 % 8)) ∧ F s0 [] [] false := by
  refine ⟨?_, ⟨mkFree (by decide +kernel), by decide +kernel, ?_, by decide +kernel⟩
    , ⟨mkFree (by decide +kernel), by decide +kernel, ⟨by decide +kernel, by decide +kernel, by decide +kernel, by decide +kernel, by decide +kernel⟩
      , by decide +kernel, _, _, rfl, by decide +kernel, rfl⟩
    , ⟨mkFree (by decide +kernel), fun h => absurd h.range (by decide +kernel)⟩, mkFree (by decide +kernel)⟩
  rotate_left
  · have e : (((tk sEarly).rw 1#6).toNat % 2 ^ 16 = 7) ∧ (((tk sEarly).rw 1#6).toNat / 2 ^ 16 % 8 = 1) := by decide +kernel
    rw [e.1, e.2]
    exact joins _ 1 (by decide) (by decide +kernel) (by decide +kernel)
  intro n hn
  fin_cases hn
  · have e : (((tk (setW [(1, BitVec.ofNat 64 (7 + 1 * 2 ^ 16))])).rw 1#6).toNat % 2 ^ 16 = 7) ∧
      (((tk (setW [(1, BitVec.ofNat 64 (7 + 1 * 2 ^ 16))])).rw 1#6).toNat / 2 ^ 16 % 8 = 1) := by decide +kernel
    refine ⟨mkFree (by decide +kernel), by decide +kernel, ?_, by decide +kernel⟩
    rw [e.1, e.2]
    exact joins _ 1 (by decide) (by decide +kernel) (by decide +kernel)
  · have e : (((tk (setW [(1, BitVec.ofNat 64 (7 + 4 * 2 ^ 16))])).rw 1#6).toNat % 2 ^ 16 = 7) ∧
      (((tk (setW [(1, BitVec.ofNat 64 (7 + 4 * 2 ^ 16))])).rw 1#6).toNat / 2 ^ 16 % 8 = 4) := by decide +kernel
    refine ⟨mkFree (by decide +kernel), by decide +kernel, ?_, by decide +kernel⟩
    rw [e.1, e.2]
    exact joins _ 4 (by decide) (by decide +kernel) (by decide +kernel)

/-- A drawer of one tile, in a state. -/
def drawer (x : DTileSt) : Drawer :=
  { init := true, first := 0, count := 1, size := 1, ring := [{ st := x, fmt := 0, t0 := 0, t1 := 0, t2 := 0, bits := none }], prod := 0, cons := 0 }
/-- A layout record of four .f32 elements, which a tile covers whole. -/
def layRec : Nat := 10 * 2 ^ 56 + 4 * 2 ^ 64 + 2 ^ 80 + 2 ^ 96 + 4 * 2 ^ 128 + 2 ^ 144 + 2 ^ 160
/-- A copy word's operands in w10 to w15, with a record at 0x1000 and drawer 0. -/
def sCpy (a b c d e : Nat) (x : DTileSt) (r : Nat) : State :=
  let s := mw [(0x1000, 64, r)] [(10, BitVec.ofNat 64 a), (11, BitVec.ofNat 64 b), (12, BitVec.ofNat 64 c), (13, BitVec.ofNat 64 d), (14, BitVec.ofNat 64 e)]
  { s with blocks := s.blocks.map fun y => { y with drawers := y.drawers.set 0 (drawer x) } }
def noBench : Nat := 0xFFFFFFFF
/-- The fields of a copy word. -/
def wordOf (i : Instr) : CopyWord := (copyWord i).getD ⟨h0, 0#6, 0#6, 0#3, 0, 0#2, 0#2, .cpy⟩
/-- The hypotheses of every copy word with a lane. -/
def Cw (i : Instr) (s : State) : Prop :=
  copyWord i = some (wordOf i) ∧ (wordOf i).ready s (bk s) (tk s) ∧ ∃ l, l < (tk s).lanes ∧ ((tk s).rm (wordOf i).k).getLsbD l = true
theorem mkCw {i : Instr} {s : State} (h : copyWord i = some (wordOf i))
    (h1 : free? s (.m (wordOf i).k.toNat :: (List.range (wordOf i).n).map fun j => .w ((wordOf i).b.toNat + j))
      (if (wordOf i).u = 63#6 then [] else [.w (wordOf i).u.toNat]) ((wordOf i).u != 63#6) = true)
    (h2 : 0 < (tk s).lanes ∧ ((tk s).rm (wordOf i).k).getLsbD 0 = true) : Cw i s := ⟨h, mkFree h1, 0, h2⟩

theorem list0 {s : State} {b : Block} {n va k : Nat} (h : k = 0) : s.getList b n va k = .ok [] s := by subst h; rfl

/-- What is left of a copy's conditions, as a test: the on-chip side, the bench, and its bytes. -/
def chip? (s : State) (tk' : BitVec 2) (v nb bench : Nat) (c : OnChip) (p : Option (Nat × Nat)) : Bool :=
  decide (s.chipChk (bk s) tk' v nb = .ok c ∧ s.benchReg (bk s) bench = .ok p ∧ (bk s).tooBig c nb = false)

/-- CPY without a lane; with an address that is not aligned; of the last granule of a page; of no byte; and to a drawer whose tile is being
filled, whose copy parks, and whose tile is free. -/
theorem witness_CopyWordsHandTheirCopyOver :
    (let s := sAcc 0 (nth []) false
     (wordOf (.cpy h0 5#6 10#6 0#3 0#2 0#2)).ready s (bk s) (tk s) ∧ ∀ l, l < (tk s).lanes → ((tk s).rm 0#3).getLsbD l = false) ∧
    (let s := sCpy 8 0 16 noBench 0 .free 0
     Cw (.cpy h0 5#6 10#6 0#3 0#2 0#2) s ∧ (tk s).opnd 10#6 0 % 16 ≠ 0) ∧
    (let s := sCpy 0xFFF0 1008 16 noBench 0 .free 0
     Cw (.cpy h0 63#6 10#6 0#3 0#2 0#2) s ∧ chip? s 0#2 ((tk s).opnd 10#6 1) ((tk s).opnd 10#6 2) ((tk s).opnd 10#6 3) (.spad 0 1008) none = true ∧
      (tk s).opnd 10#6 2 ≤ 2 ^ 24 ∧ (tk s).opnd 10#6 2 ≠ 0) ∧
    (let s := sCpy 0 0 0 1008 0 .free 0
     Cw (.cpy h0 5#6 10#6 0#3 0#2 1#2) s ∧ chip? s 0#2 ((tk s).opnd 10#6 0) 0 ((tk s).opnd 10#6 3) (.spad 0 0) (some (0, 1008)) = true ∧
      (tk s).opnd 10#6 2 = 0) ∧
    (let s := sCpy 0 32 32 noBench 0 .free 0
     Cw (.cpy h0 5#6 10#6 0#3 0#2 2#2) s ∧ (tk s).opnd 10#6 0 % 2 ^ 56 + (tk s).opnd 10#6 2 ≤ (tk s).opnd 10#6 1 % 2 ^ 56) ∧
    (let s := sCpy 0 0 4096 noBench 0 .filling 0
     Cw (.cpy h0 5#6 10#6 0#3 1#2 0#2) s ∧ chip? s 1#2 ((tk s).opnd 10#6 1) 4096 ((tk s).opnd 10#6 3) (.drawer 0 0) none = true ∧
      (tk s).granted = false ∧ ¬chipFree s (bk s) (.drawer 0 0)) ∧
    (let s := sCpy 0x1000 0x2000 0 noBench 0 .free layRec
     let q := wordOf (.tcpy h0 5#6 10#6 0#3 1#2 0#2)
     let s1 := (got s 64 ((tk s).opnd 10#6 0 % 2 ^ 56)).2
     let l := layoutOf (got s 64 ((tk s).opnd 10#6 0 % 2 ^ 56)).1
     Cw (.tcpy h0 5#6 10#6 0#3 1#2 0#2) s ∧ q.kind = .tcpy ∧
      s.getVa (bk s) 64 ((tk s).opnd 10#6 0 % 2 ^ 56) = .ok (got s 64 ((tk s).opnd 10#6 0 % 2 ^ 56)).1 s1 ∧
      s1.chipChk (bk s) 1#2 ((tk s).opnd 10#6 2) 16 = .ok (.drawer 0 0) ∧ tileBytes l.fmt (l.t0 * l.t1 * l.t2) = 16 ∧
      l.badTcpy false 0 0 0 = false ∧ (bk s).tooBig (.drawer 0 0) 16 = false ∧ chipFree s1 (bk s) (.drawer 0 0) ∧
      s1.getList (bk s) 2 0 (if l.perm = 0 then 0 else 4) = .ok [] s1) ∧
    (let s := sCpy 0x1000 0x2000 0 noBench 0 .free 0
     let l := layoutOf (got s 64 ((tk s).opnd 10#6 0 % 2 ^ 56)).1
     Cw (.tcpy h0 5#6 10#6 0#3 0#2 0#2) s ∧ l.badTcpy false 0 0 0 = true ∧ l.badRows = true) ∧
    (let s := sCpy 0x1000 0x2000 0 noBench (2 ^ 32) .free layRec
     let s1 := (got s 64 ((tk s).opnd 10#6 0 % 2 ^ 56)).2
     let l := layoutOf (got s 64 ((tk s).opnd 10#6 0 % 2 ^ 56)).1
     Cw (.gcpy h0 5#6 10#6 0#3 0#2 0#2) s ∧ s1.indexList (bk s) ((tk s).opnd 10#6 4 % 2 ^ 32) ((tk s).opnd 10#6 4 / 2 ^ 32 % 2 ^ 16) = .ok [0] ∧
      s1.chipChk (bk s) 0#2 ((tk s).opnd 10#6 2) (1 * l.t0 * fmtBytes l.fmt) = .ok (.spad 0 0) ∧ l.badRows = false) := by
  refine ⟨⟨mkFree (by decide +kernel), by decide +kernel⟩, ⟨mkCw rfl (by decide +kernel) (by decide +kernel), by decide +kernel⟩
    , ⟨mkCw rfl (by decide +kernel) (by decide +kernel), by decide +kernel⟩, ⟨mkCw rfl (by decide +kernel) (by decide +kernel), by decide +kernel⟩
    , ⟨mkCw rfl (by decide +kernel) (by decide +kernel), by decide +kernel⟩
    , ⟨mkCw rfl (by decide +kernel) (by decide +kernel), by decide +kernel, by decide +kernel, ?_⟩
    , ⟨mkCw rfl (by decide +kernel) (by decide +kernel), rfl, got_eq (by decide +kernel), by decide +kernel, by decide +kernel, by decide +kernel
      , by decide +kernel, ?_, list0 (by decide +kernel)⟩
    , ⟨mkCw rfl (by decide +kernel) (by decide +kernel), by decide +kernel⟩
    , ⟨mkCw rfl (by decide +kernel) (by decide +kernel), by decide +kernel⟩⟩
  · rintro ⟨c, w, x, h1, h2, h3, h4⟩
    have e1 : (sCpy 0 0 4096 noBench 0 .filling 0).block? (bk (sCpy 0 0 4096 noBench 0 .filling 0)).id = some (bk (sCpy 0 0 4096 noBench 0 .filling 0)) := by
      decide +kernel
    have e2 : (bk (sCpy 0 0 4096 noBench 0 .filling 0)).drawers[0]? = some (drawer .filling) := by decide +kernel
    cases e1.symm.trans h1
    cases e2.symm.trans h2
    cases (show (drawer .filling).ring[0]? = some ⟨.filling, 0, 0, 0, 0, none⟩ from rfl).symm.trans h3
    exact absurd h4 (by decide)
  · exact ⟨_, drawer .free, _, rfl, by decide +kernel, rfl, rfl⟩

/-- A copy of one granule to memory, with a status word and a bench, held, and without a bench; and drawer 0, free and not, on which a team has parked. -/
theorem witness_CopiesComplete :
    (let s := sCopy copyB
     s.copies.find? (fun x => x.id == copyB.id) = some copyB ∧ s.block? copyB.b = some (bk s) ∧ (bk s).team? copyB.team = some (tk s) ∧
      s.moveRest (bk s) copyB = (restS s copyB, restC s copyB) ∧ (restC s copyB).dests ≤ (restC s copyB).done.length ∧
      (restC s copyB).told = false) ∧
    (let c := { copyB with held := [⟨1, 0xFFF0, false⟩] }
     (restC (sCopy c) c).done.length < (restC (sCopy c) c).dests) ∧
    (let s := sCopy { copyB with bench := none }
     s.copies.find? (fun x => x.id == copyB.id) = some { copyB with bench := none } ∧ (bk s).bureau = none ∧
      s.legalVa (bk s) .wr 16 0xFFF0 = (.pa 0x10000FFF0, (s.legalVa (bk s) .wr 16 0xFFF0).2) ∧ copyB.chip = .spad 0 0 ∧ copyB.bytes = 16 ∧
      (bk s).chipReady { copyB with bench := none } = true ∧
      (s.legalVa (bk s) .wr 16 0xFFF0).2.moduleHeld ((s.legalVa (bk s) .wr 16 0xFFF0).2.homeModule 0x10000FFF0) 9 = false) ∧
    ∀ x ∈ [DTileSt.free, .taken], let s := st (fun t => { t with want := .drawer 15 }) (fun b => { b with drawers := b.drawers.set 15 (drawer x) }) id
      s.team? ⟨0, 0⟩ = some (bk s, tk s) ∧ (tk s).want = .drawer 15 ∧ (tk s).granted = false ∧ (tk s).ended = false ∧
      (tk s).trap = none ∧ (bk s).drawers[15]? = some (drawer x) ∧ (bk s).live = true := by
  refine ⟨⟨by decide +kernel, by decide +kernel, by decide +kernel, pairEq _, by decide +kernel⟩, by decide +kernel, by decide +kernel, ?_⟩
  intro x hx
  fin_cases hx <;> decide +kernel

theorem witness_SparseVectorWordsWriteTheirRow :
    (∃ q, sparseRow (.vexpand (hTy 7#4) 7#3 14#6 0#6) = some q ∧ (tk s0).lanes ≤ 1024 ∧ F s0 (.m q.k.toNat :: q.srcs) (vName q.wide q.d) false) ∧
    (∃ q, sparseRow (.vsegred (hTy 11#4) 0#3 14#6 0#6 15#6) = some q ∧ F s0 (.m q.k.toNat :: q.srcs) (vName q.wide q.d) false) ∧
    F s0 [.m 0, .v 15] [.m 7] false ∧ F s0 (.m 7 :: vName (is64 (h0.ty 5#4)) 15#6) (vName (is64 (h0.ty 5#4)) 0#6) false :=
  ⟨⟨_, rfl, by decide +kernel, mkFree (by decide +kernel)⟩, ⟨_, rfl, mkFree (by decide +kernel)⟩, mkFree (by decide +kernel), mkFree (by decide +kernel)⟩

/-- The row of a SCATC on scratchpad and of one through x1. -/
def qSp : MemRow := scatRow h0 0#3 4#6 0#3 6#6 1#1
def qMem : MemRow := scatRow h0 0#3 4#6 1#3 6#6 0#1
/-- The hypotheses of a SCATC. -/
def Sc (q : MemRow) (s : State) : Prop :=
  F s q.regs q.dests true ∧ q.check s (bk s) (tk s) = (chkOf q s, afterOf q s) ∧ unwatched (afterOf q s) (bk s) ∧ (afterOf q s).logUsed (bk s).core < 32
theorem mkSc {q : MemRow} {s : State} (h1 : free? s q.regs q.dests true = true)
    (h2 : ((afterOf q s).core (bk s).core).cmp = List.replicate 6 (0#64, 0#64) ∧ (afterOf q s).logUsed (bk s).core < 32) : Sc q s :=
  ⟨mkFree h1, pairEq _, unwatchedOf h2.1, h2.2⟩

/-- Two streams of keys in scratchpad: 1, 2 at 0 and 2, 3 at 16; the descriptors in w4 to w6. -/
def sKeys (c : Dword) (o : Option MemOp) : State :=
  st (fun t => { t with
      w := ((t.w.set 4 0x200000000#64).set 5 0x200000010#64).set 6 c
      ops := o.toList, pend := if o.isSome then [⟨7, [.w 9], none, false, false⟩] else [] })
    (fun b => { b with spad := Memory.wr (Memory.wr [] 0 (natBytes 8 (1 + 2 * 2 ^ 32))) 16 (natBytes 8 (2 + 3 * 2 ^ 32)) }) id
def streamA : LaneAcc := ⟨0, 0, some 0, false, 2, 8, 0⟩
def streamB : LaneAcc := ⟨1, 16, some 16, false, 2, 8, 0⟩
def streamO (o n : Nat) : LaneAcc := ⟨2, o, some o, false, n, 4 * n, 0⟩
/-- The intersection as an access, and a SCATC of one lane. -/
def opIsect : MemOp :=
  { op0 .isect 0 0 with path := .s, sp := true, dest := some (.w 9), pend := some 7, lanes := [streamA, streamB, streamO 0 0] }
def opScat : MemOp := { op0 .scatc 0 0 with path := .s, sp := true, lanes := [⟨0, 1020, some 1020, false, 5, 0, 0⟩] }

/-- A SCATC with a lane that fails, without and with lane-suppress mode; on scratchpad, and in memory; without a lane. An ISECT whose output
overlaps a stream, and one beside them. Both performed. -/
theorem witness_SparseAccessesAreIssuedAndPerformed :
    (Sc qSp (sAcc 1 (nth [1024]) false) ∧ (chkOf qSp (sAcc 1 (nth [1024]) false)).bad ≠ [] ∧ (tk (sAcc 1 (nth [1024]) false)).status.getLsbD 0 = false) ∧
    (Sc qSp (sAcc 2 (nth [1020, 1024]) true) ∧ (chkOf qSp (sAcc 2 (nth [1020, 1024]) true)).ok ≠ [] ∧
      (tk (sAcc 2 (nth [1020, 1024]) true)).status.getLsbD 0 = true) ∧
    (Sc qMem (sAcc 2 (nth [8, 8]) false) ∧ (chkOf qMem (sAcc 2 (nth [8, 8]) false)).bad = [] ∧ (chkOf qMem (sAcc 2 (nth [8, 8]) false)).ok ≠ []) ∧
    (Sc qMem (sAcc 0 (nth []) false) ∧ (chkOf qMem (sAcc 0 (nth []) false)).ok = []) ∧
    (∀ p ∈ [(0x10000001C#64, 28, 1), (0x100000014#64, 20, 1), (0x100000018#64, 24, 1)], let s := sKeys p.1 none
      F s (.w 4 :: .w 5 :: [.w 6]) [.w 9] true ∧ s.isectRange (bk s) 0 ((tk s).opnd 4#6 0) 4 4 = .ok streamA ∧
      s.isectRange (bk s) 1 ((tk s).opnd 4#6 1) 4 4 = .ok streamB ∧ s.isectRange (bk s) 2 ((tk s).opnd 4#6 2) 4 4 = .ok (streamO p.2.1 p.2.2)) ∧
    ((streamO 20 1).clash streamB = true ∧ (streamO 24 1).clash streamB = false ∧ (streamO 24 1).clash streamA = false) ∧
    (let s := sKeys 0#64 (some opIsect)
     let key (a : LaneAcc) (j : Nat) : Nat := s.spadRd a.blk (a.pa.getD 0 + opIsect.size * j) opIsect.size
     s.dueOp ⟨0, 0⟩ 7 = some (bk s, tk s, opIsect) ∧ alone (bk s) (tk s) opIsect ∧ opIsect.sx = false ∧ (∀ a ∈ opIsect.lanes, a.lane < 3) ∧
      (∀ j k, j < k → k < streamA.val → key streamA j < key streamA k) ∧
      ∀ j k, j < k → k < streamB.val → key streamB j < key streamB k) ∧
    (let s := sOp opScat
     s.dueOp ⟨0, 0⟩ 7 = some (bk s, tk s, opScat) ∧ alone (bk s) (tk s) opScat ∧ opScat.dest = some (.v 4) ∧ opScat.pend = some 7) := by
  refine ⟨⟨mkSc (by decide +kernel) (by decide +kernel), by decide +kernel⟩, ⟨mkSc (by decide +kernel) (by decide +kernel), by decide +kernel⟩
    , ⟨mkSc (by decide +kernel) (by decide +kernel), by decide +kernel⟩, ⟨mkSc (by decide +kernel) (by decide +kernel), by decide +kernel⟩
    , ?_, by decide +kernel, ⟨by decide +kernel, ⟨by decide +kernel, by decide +kernel⟩, by decide +kernel, by decide +kernel, ?_, ?_⟩
    , by decide +kernel, ⟨by decide +kernel, by decide +kernel⟩, by decide +kernel⟩
  · intro p hp
    fin_cases hp <;> exact ⟨mkFree (by decide +kernel), by decide +kernel⟩
  · intro j k hj hk
    have h : ∀ k, k < 2 → ∀ j, j < k →
      (sKeys 0#64 (some opIsect)).spadRd streamA.blk (streamA.pa.getD 0 + opIsect.size * j) opIsect.size <
      (sKeys 0#64 (some opIsect)).spadRd streamA.blk (streamA.pa.getD 0 + opIsect.size * k) opIsect.size := by decide +kernel
    exact h k hk j hj
  · intro j k hj hk
    have h : ∀ k, k < 2 → ∀ j, j < k →
      (sKeys 0#64 (some opIsect)).spadRd streamB.blk (streamB.pa.getD 0 + opIsect.size * j) opIsect.size <
      (sKeys 0#64 (some opIsect)).spadRd streamB.blk (streamB.pa.getD 0 + opIsect.size * k) opIsect.size := by decide +kernel
    exact h k hk j hj

/-- The small state with cores of two clusters in the context's partition, and a descriptor in w5. -/
def sNred (q : Dword) : State :=
  st (fun t => { t with w := t.w.set 5 q }) id fun s => { s with parts := [(0, 0x1005#13), (4, 0x1005#13)] }
/-- A contribution on its way, and an instance that it may meet. -/
def nmsg0 : NMsg :=
  { id := 9, tag := 5#12, key := 1, epoch := false, index := 1, count := 2, op := 0, ord := true, rel := false, val := 3#64, r := ⟨0, 0⟩, pend := 9, d := 8 }
def ninst0 (count : Nat) (got : List Nat) : NInst :=
  { tag := 5#12, key := 1, epoch := false, count := count, op := 0, ord := true, got := got.map fun i => (i, 4#64, ⟨0, 0⟩, 50, 10) }
def sMsg (m : NMsg) (l : List NInst) : State :=
  st (fun t => { t with pend := [⟨9, [.w 8, .w 9], none, true, false⟩] }) id fun s => { s with nmsgs := [m], ninsts := l }

/-- REDARG by its reserved bits and by INDEX = COUNT; REDCOUNT by one cluster too many; COUNT 0, 1 and 2. A contribution that opens its
instance, that meets another COUNT, its own INDEX, an instance with room, and that closes it; one of COUNT 0 or 1 that waits for an access of path L. -/
theorem witness_NetworkReductionsCombine :
    (∀ q ∈ [0x8000000000000000#64, 0x2000000#64, 0x100010000#64, 0x30000#64, 0#64, 0x10000#64, 0x100020000#64],
      F (sNred q) [.w 4, .w 5] [.w 8, .w 9] true) ∧
    (∀ q ∈ [0#64, 0x10000#64], let s := { sNred q with blocks := (sNred q).blocks.map fun b => { b with teams := b.teams.map fun t => { t with ops := [op0 .store 1 0] } } }
      F s [.w 4, .w 5] [.w 8, .w 9] true ∧ (∃ p ∈ (tk s).ops, p.path = .l ∧ p.id < s.cur.base) ∧ (redArgs ((tk s).opnd 4#6 1)).count ≤ 1) ∧
    (let m := { nmsg0 with count := 1, index := 0, rel := true }
     let s := sMsg m []
     s.nmsgs.find? (fun x => x.id == m.id) = some m ∧ s.nredHeld m = false ∧ s.team? m.r = some (bk s, tk s) ∧ m.count ≤ 1 ∧
      ∃ p ∈ (tk s).pend, p.id = m.pend) ∧
    (let a := redArgs 0x100010000
     1 ≤ a.count ∧ a.count ≤ a.idx) ∧
    (sNred 0#64).liveClusters (bk (sNred 0#64)).tag = 2 ∧
    (redArgs 0).count = 0 ∧ (redArgs 0x10000).count = 1 ∧ (redArgs 0x100020000).count = 2 ∧ (redArgs 0x100020000).idx < 2 ∧ (redArgs 0x30000).count = 3 ∧
    (∀ l ∈ [[], [ninst0 3 [0]], [ninst0 2 [1]], [ninst0 2 [0]]], let s := sMsg nmsg0 l
      s.nmsgs.find? (fun x => x.id == nmsg0.id) = some nmsg0 ∧ s.nredHeld nmsg0 = false ∧ s.team? nmsg0.r = some (bk s, tk s)) ∧
    (let m := { nmsg0 with count := 3 }
     let s := sMsg m [ninst0 3 [0]]
     s.nmsgs.find? (fun x => x.id == m.id) = some m ∧ s.nredHeld m = false ∧ s.ninsts.find? m.names = some (ninst0 3 [0]) ∧
      (ninst0 3 [0]).got.length + 1 < m.count ∧ ∀ g ∈ (ninst0 3 [0]).got, g.1 ≠ m.index) ∧
    ((ninst0 2 [0]).got.length + 1 = nmsg0.count ∧ ∃ g ∈ (ninst0 2 [1]).got, g.1 = nmsg0.index) := by
  refine ⟨?_, ?_, by decide +kernel, by decide, by decide +kernel, by decide, by decide, by decide, by decide, by decide, ?_, by decide +kernel
    , by decide +kernel⟩
  · intro q hq
    fin_cases hq <;> exact mkFree (by decide +kernel)
  · intro q hq
    fin_cases hq <;> exact ⟨mkFree (by decide +kernel), by decide +kernel⟩
  · intro l hl
    fin_cases hl <;> decide +kernel

/-- The small state with a Chest, drawers, tiles and w1. -/
def sChest (x : Dword) (l : List Chest) (d : Drawer) : State :=
  st (fun t => { t with w := t.w.set 1 x }) (fun b => { b with chest := l, drawers := b.drawers.set 15 d }) id
/-- Slots `0` to `n - 1` held. -/
def slots (n : Nat) : List Chest := (List.range n).map fun i => ⟨i, some i, []⟩
/-- A drawer over the slots from 28, of four tiles of one slot, its last in a state. -/
def dr (x : DTileSt) : Drawer :=
  { init := true, first := 28, count := 4, size := 1, prod := 0, cons := 0
    ring := List.replicate 3 ⟨.free, 15, 0, 0, 0, none⟩ ++ [⟨x, 15, 0, 0, 0, none⟩] }
/-- The small state with a claim of `n` slots in front, on a core where another block holds `k`. -/
def sClaim (n k : Nat) : State :=
  st (fun t => { t with pend := [⟨9, [.w 6], none, false, false⟩] }) (fun b => { b with claims := [(0, 9, 0, n)] })
    fun s => { s with blocks := s.blocks ++ [{ block0 with id := 1, chest := slots k }] }

/-- CCLAIM of no slot, of 33, of 32 where one is held, and of all 32; a grant that waits for one slot and one that has all; CRELEASE of none, of
slots beyond 32, of some not held, under a drawer at work, and under one at rest. -/
theorem witness_ChestSlotsAreClaimedAndReturned :
    (∀ x ∈ [0#64, 33#64, 32#64], F (sChest x [] drawerZero) [.w 1] [.w 63] true) ∧
    (let s := sChest 32#64 [⟨31, some 0, []⟩] drawerZero
     F s [.w 1] [.w 63] true ∧ ((tk s).rw 1#6).toNat % 64 = 32 ∧ ∀ f, f + 32 ≤ 32 → ¬idxFree (bk s) f 32) ∧
    (let s := sChest 32#64 [] drawerZero
     ((tk s).rw 1#6).toNat % 64 = 32 ∧ idxFree (bk s) 0 32 ∧ ∀ g, g < 0 → ¬idxFree (bk s) g 32) ∧
    (∀ p ∈ [(1, 32), (32, 0), (1, 31)], let s := sClaim p.1 p.2
      s.block? 0 = some (bk s) ∧ (bk s).claims = [(0, 9, 0, p.1)] ∧ (bk s).place = .resident ∧ (bk s).team? 0 = some (tk s) ∧
      (tk s).pend.find? (fun q => q.id == 9) = some ⟨9, [.w 6], none, false, false⟩ ∧
      ∀ y ∈ s.blocks, y.core = (bk s).core → y.place = .resident → ∀ c ∈ y.claims, 9 ≤ c.2.1) ∧
    (((sClaim 1 32).freeSlots 0).length < 1 ∧ 32 ≤ ((sClaim 32 0).freeSlots 0).length ∧ 1 ≤ ((sClaim 1 31).freeSlots 0).length) ∧
    (∀ x ∈ [0#64, 0x21F#64, 0x41C#64], F (sChest x (slots 32) (dr .free)) [.w 1] [] false) ∧
    (let s := sChest 0x41C#64 (slots 31) drawerZero
     F s [.w 1] [] false ∧ ¬idxHeld (bk s) (((tk s).rw 1#6).toNat % 32) (((tk s).rw 1#6).toNat / 2 ^ 8 % 64)) ∧
    (let s := sChest 0x41C#64 (slots 32) (dr .taken)
     F s [.w 1] [] false ∧ idxHeld (bk s) 28 4 ∧ ∃ w ∈ (bk s).drawers, liesOver w 28 4 ∧ working w) ∧
    (let s := sChest 0x11F#64 (slots 32) (dr .free)
     F s [.w 1] [] false ∧ idxHeld (bk s) 31 1 ∧ (∀ w ∈ (bk s).drawers, liesOver w 31 1 → ¬working w) ∧
      ∃ x ∈ (bk s).chest, x.idx = 31 ∧ x.phys = some 31 ∧ x.bytes.wf = true ∧
        ∀ y ∈ (bk s).chest, (∀ e ∈ y.bytes, e.1 < 4096) ∧ (y.phys = some 31 → y = x)) := by
  refine ⟨?_, ⟨mkFree (by decide +kernel), by decide +kernel, ?_⟩, ⟨by decide +kernel, by unfold idxFree; decide +kernel, fun g hg => absurd hg (by omega)⟩
    , ?_, by decide +kernel, ?_, ⟨mkFree (by decide +kernel), ?_⟩, ⟨mkFree (by decide +kernel), ?_, dr .taken, by decide +kernel, by unfold liesOver; decide
      , by unfold working; decide⟩
    , ⟨mkFree (by decide +kernel), ?_, by unfold liesOver working; decide +kernel, by decide +kernel⟩⟩
  · intro x hx; fin_cases hx <;> exact mkFree (by decide +kernel)
  · intro f hf
    obtain rfl : f = 0 := by omega
    unfold idxFree; decide +kernel
  · intro p hp; fin_cases hp <;> decide +kernel
  · intro x hx; fin_cases hx <;> exact mkFree (by decide +kernel)
  · intro h
    obtain ⟨c, hc, e, _⟩ := h 31 (by decide +kernel) (by decide +kernel)
    have : ∀ c ∈ (bk (sChest 0x41C#64 (slots 31) drawerZero)).chest, c.idx ≠ 31 := by decide +kernel
    exact this c hc e
  · intro i h1 h2
    have : ∀ i, i < 32 → ∃ c ∈ (bk (sChest 0x41C#64 (slots 32) (dr .taken))).chest, c.idx = i ∧ c.phys ≠ none := by decide +kernel
    exact this i (by omega)
  · intro i h1 h2
    have : ∀ i, i < 32 → ∃ c ∈ (bk (sChest 0x11F#64 (slots 32) (dr .free))).chest, c.idx = i ∧ c.phys ≠ none := by decide +kernel
    exact this i (by omega)

/-- DINIT of drawer 15 with a bad TSLOTS; of one at work; of one at rest over the last slot; DSTAT of a drawer. -/
theorem witness_DrawersAreLaidAndRead :
    (∀ x ∈ [DTileSt.free, .filling], let s := sChest 0x9011F#64 (slots 32) (dr x)
     (bk s).drawers.length = 16 ∧ F s [.w 1] [] false ∧
      ¬Lays (bk s) 15 (((tk s).rw 1#6).toNat % 32) (((tk s).rw 1#6).toNat / 2 ^ 8 % 64) (((tk s).rw 1#6).toNat / 2 ^ 16 % 16)) ∧
    (∀ x ∈ [DTileSt.free, .filling], let s := sChest 0x1011F#64 (slots 32) (dr x)
      F s [.w 1] [] false ∧ (bk s).drawers[15]? = some (dr x) ∧
      Lays (bk s) 15 (((tk s).rw 1#6).toNat % 32) (((tk s).rw 1#6).toNat / 2 ^ 8 % 64) (((tk s).rw 1#6).toNat / 2 ^ 16 % 16)) ∧
    working (dr .filling) ∧ ¬working (dr .free) ∧ F s0 [] [.w 63] true := by
  refine ⟨?_, ?_, by unfold working; decide, by unfold working; decide
    , mkFree (by decide +kernel)⟩
  · intro x hx
    fin_cases hx <;> exact ⟨by decide +kernel, mkFree (by decide +kernel), fun h => absurd h.size (by decide +kernel)⟩
  have lays : ∀ x ∈ [DTileSt.free, .filling], Lays (bk (sChest 0x1011F#64 (slots 32) (dr x))) 15 31 1 1 := by
    intro x hx
    refine ⟨by decide, by decide, by decide, ?_, ?_⟩
    · intro i h1 h2
      obtain rfl : i = 31 := by omega
      fin_cases hx <;> decide +kernel
    · intro i w h1 h2
      have h : ∀ i, i < 16 → i ≠ 15 → (bk (sChest 0x1011F#64 (slots 32) (dr x))).drawers[i]? = some drawerZero := by fin_cases hx <;> decide +kernel
      have h3 : i < 16 := by
        by_contra hn
        have : (bk (sChest 0x1011F#64 (slots 32) (dr x))).drawers[i]? = none := List.getElem?_eq_none (by
          have : (bk (sChest 0x1011F#64 (slots 32) (dr x))).drawers.length = 16 := by fin_cases hx <;> decide +kernel
          omega)
        rw [this] at h1
        cases h1
      cases (h i h3 h2).symm.trans h1
      unfold liesOver; decide
  intro x hx
  have l := lays x hx
  fin_cases hx
  · exact ⟨mkFree (by decide +kernel), by decide +kernel, by
      have e : ((tk (sChest 0x1011F#64 (slots 32) (dr .free))).rw 1#6).toNat = 0x1011F := by decide +kernel
      rw [e]; exact l⟩
  · exact ⟨mkFree (by decide +kernel), by decide +kernel, by
      have e : ((tk (sChest 0x1011F#64 (slots 32) (dr .filling))).rw 1#6).toNat = 0x1011F := by decide +kernel
      rw [e]; exact l⟩

/-- A drawer of one tile of 8-bit integers. -/
def dt (x : DTileSt) (f a b : Nat) : Drawer :=
  { init := true, first := 0, count := 1, size := 1, ring := [⟨x, f, a, b, 1, none⟩], prod := 0, cons := 0 }
/-- The follower of a pair. -/
def follower (a b : Drawer) : Block := { block0 with id := 1, core := 1, drawers := (block0.drawers.set 0 a).set 1 b, partner := some (0, false) }
/-- The small state with drawers 0 and 1 and an operand block in w10 to w12: extents `m`, `n`, `k`. -/
def sMma (bd m n k : Nat) (a b : Drawer) (pair : Bool) (f : Team → Team) : State :=
  st (fun t => f { t with w := ((t.w.set 10 (BitVec.ofNat 64 (256 * bd))).set 11 (BitVec.ofNat 64 (m + n * 2 ^ 16 + k * 2 ^ 32))).set 12 0#64 })
    (fun x => { x with drawers := (x.drawers.set 0 a).set 1 b, partner := if pair then some (1, true) else none })
    fun s => { s with blocks := s.blocks ++ [follower a b] }
/-- The request that the small state's operand block gives. -/
def rq (s : State) (p : BitVec 1) : MmaReq := mmaReq s (tk s) 1#4 10#6 p 0#2 0#2 0#1 false
def regsMma : List RegName := [.w 10, .w 11, .w 12]

/-- Tiles that stand counted and fit; that are filling; of unlike sizes; drawers that are not initialised. -/
def tA : Drawer := dt .counted 0 32 32
def tB : Drawer := dt .counted 1 8 32

/-- The team waits for an MMA's tiles in a stopped block. -/
def sHalted : State := let s := sMma 1 32 8 33 tA tB false fun t => { t with want := .mma (rq (sMma 1 32 8 33 tA tB false id) 0#1) }
  { s with blocks := s.blocks.map fun b => { b with stopped := true } }

theorem witness_MmaTakesItsTiles :
    (F s0 regsMma [] false ∧ (bk s0).tiles.length ≤ (2#4 : BitVec 4).toNat ∧ (1#4 : BitVec 4).toNat < (bk s0).tiles.length) ∧
    (∀ p ∈ [(1, 33, 8), (1, 32, 9), (0, 32, 8)], F (sMma p.1 p.2.1 p.2.2 32 tA tB false id) regsMma [] false) ∧
    (let s := sMma 1 32 8 32 tA tB false id
     F s regsMma [] false ∧ (rq s 0#1).m ≤ 32 ∧ (rq s 0#1).n ≤ 8 ∧ (rq s 0#1).ad ≠ (rq s 0#1).bd ∧ (tk s).granted = false ∧ s.takeChk (bk s) (rq s 0#1) = .ok) ∧
    (let s := sMma 1 32 8 33 tA tB false id
     F s regsMma [] false ∧ s.takeChk (bk s) (rq s 0#1) = .bad .mmaarg) ∧
    (let s := sMma 1 32 8 32 tA (dt .filling 1 8 32) false id
     F s regsMma [] false ∧ s.takeChk (bk s) (rq s 0#1) = .wait) ∧
    (let s := sMma 1 64 8 32 tA tB true id
     F s regsMma [] false ∧ s.followerOf (bk s) = some (follower tA tB) ∧ (rq s 1#1).m ≤ 64 ∧ s.takeChk (bk s) (rq s 1#1) = .ok ∧
      (follower tA tB).id ≠ (bk s).id ∧ (rq s 1#1).z < (follower tA tB).tiles.length) ∧
    (let s := sMma 1 32 8 32 tA drawerZero false id
     (rq s 0#1).pair = false ∧ (rq s 0#1).ki < 3 ∧ ∀ w, (bk s).drawers[(rq s 0#1).bd]? = some w → w.init = false) ∧
    (let s := sMma 1 32 8 32 tA (dt .filling 1 8 32) false id
     (bk s).drawers[(rq s 0#1).ad]? = some tA ∧ (bk s).drawers[(rq s 0#1).bd]? = some (dt .filling 1 8 32) ∧ ¬∃ x, atCons (bk s) (rq s 0#1).bd x) ∧
    (let s := sMma 1 32 8 32 tA (dt .counted 1 16 32) false id
     atCons (bk s) (rq s 0#1).ad ⟨.counted, 0, 32, 32, 1, none⟩ ∧ atCons (bk s) (rq s 0#1).bd ⟨.counted, 1, 16, 32, 1, none⟩ ∧
      ¬fits (rq s 0#1) ⟨.counted, 0, 32, 32, 1, none⟩ ⟨.counted, 1, 16, 32, 1, none⟩) ∧
    (let s := sMma 1 32 8 33 tA tB false id
     atCons (bk s) (rq s 0#1).bd ⟨.counted, 1, 8, 32, 1, none⟩ ∧ fits (rq s 0#1) ⟨.counted, 0, 32, 32, 1, none⟩ ⟨.counted, 1, 8, 32, 1, none⟩ ∧
      kList 0 (rq s 0#1).ki = some 32 ∧ 32 < (rq s 0#1).k) ∧
    (∀ x ∈ [DTileSt.counted, .taken], let s := sMma 1 32 8 32 tA (dt x 1 8 32) false fun t =>
        { t with want := .mma (rq (sMma 1 32 8 32 tA tB false id) 0#1) }
      s.team? ⟨0, 0⟩ = some (bk s, tk s) ∧ (tk s).want = .mma (rq s 0#1) ∧ (tk s).granted = false ∧ (tk s).ended = false ∧ (tk s).trap = none ∧
      (bk s).live = true ∧ s.takeChk (bk s) (rq s 0#1) = (if x = .counted then .ok else .wait) ∧ (rq s 0#1).pair = false ∧ (rq s 0#1).z < (bk s).tiles.length) ∧
    (let s := sMma 1 32 8 33 tA tB false fun t => { t with want := .mma (rq (sMma 1 32 8 33 tA tB false id) 0#1) }
     s.team? ⟨0, 0⟩ = some (bk s, tk s) ∧ (tk s).want = .mma (rq s 0#1) ∧ (bk s).live = true ∧ s.takeChk (bk s) (rq s 0#1) = .bad .mmaarg) ∧
    (let s := sHalted
     s.team? ⟨0, 0⟩ = some (bk s, tk s) ∧ (tk s).want = .mma (rq s 0#1) ∧ (bk s).live = false) ∧
    (let s := sMma 1 64 8 32 tA tB true fun t => { t with want := .mma (rq (sMma 1 64 8 32 tA tB true id) 1#1) }
     s.team? ⟨0, 0⟩ = some (bk s, tk s) ∧ (tk s).want = .mma (rq s 1#1) ∧ s.takeChk (bk s) (rq s 1#1) = .ok ∧ (rq s 1#1).pair = true) := by
  refine ⟨⟨mkFree (by decide +kernel), by decide +kernel⟩, ?_, ⟨mkFree (by decide +kernel), by decide +kernel⟩, ⟨mkFree (by decide +kernel), by decide +kernel⟩
    , ⟨mkFree (by decide +kernel), by decide +kernel⟩, ⟨mkFree (by decide +kernel), by decide +kernel⟩
    , ⟨by decide +kernel, by decide +kernel, forSome drawerZero (by decide +kernel) (by decide)⟩, ⟨by decide +kernel, by decide +kernel, ?_⟩
    , ⟨⟨tA, by decide +kernel⟩, ⟨dt .counted 1 16 32, by decide +kernel⟩, ?_⟩, ⟨⟨tB, by decide +kernel⟩, ⟨32, by decide +kernel⟩, by decide +kernel⟩, ?_
    , by decide +kernel, by decide +kernel, by decide +kernel⟩
  · intro p hp; fin_cases hp <;> exact mkFree (by decide +kernel)
  · rintro ⟨x, w, h1, _, h3, h4⟩
    cases (by decide +kernel : (bk (sMma 1 32 8 32 tA (dt .filling 1 8 32) false id)).drawers[
      (rq (sMma 1 32 8 32 tA (dt .filling 1 8 32) false id) 0#1).bd]? = some (dt .filling 1 8 32)).symm.trans h1
    cases (show (dt .filling 1 8 32).ring[(dt .filling 1 8 32).cons]? = some ⟨.filling, 1, 8, 32, 1, none⟩ from rfl).symm.trans h3
    exact absurd h4 (by decide)
  · rintro ⟨k, _, _, _, _, _, _, h, _⟩
    exact absurd h (by decide +kernel)
  · intro x hx; fin_cases hx <;> decide +kernel

/-- The small state with 8 KiB of scratchpad, w1, w10 and w11, perhaps as the leader of a pair, and tile 1 as given. -/
def sTile (ws : List (Nat × Dword)) (pair : Bool) (z : Tile) : State :=
  st (fun t => ws.foldl (fun t p => { t with w := t.w.set p.1 p.2 }) t)
    (fun b => { b with spadSize := 8192, tiles := [Tile.zero 0, z], partner := if pair then some (1, true) else none
                       drawers := (b.drawers.set 0 tA).set 1 tB })
    fun s => { s with blocks := s.blocks ++ [follower tA tB] }
/-- An operation on tile 1. -/
def tileOp (k : TileKind) : TileOp :=
  { id := 9, kind := k, lead := 0, team := 0, follower := none, zero := false, dup := false, ad := 0, ap := 0, bd := 1, bp := 0, fap := 0, fbp := 0
    m := 32, n := 8, k := 32, scale := 0, perm := none, fz := 0, addr := 4096, bench := none, pc := 0#56, done := [] }
def tileWith (k : TileKind) : Tile := { Tile.zero 1 with ops := [tileOp k], bytes := [(0, 5#8)] }

/-- A trap of an earlier MDRAIN that waits; the small state with tile `z`, where the team has perhaps such a trap. -/
def misTaken : TrapReq := { cause := .mmamis, info := 0, pc := 12#56, resume := 12#56, lanes := [], extn := none, misrec := 9#64 }
def sMis (z : Tile) (d : Option TrapReq) : State :=
  let s := sTile [] false z
  { s with blocks := s.blocks.map fun b => { b with teams := b.teams.map fun t => { t with defer := d } } }

/-- The words on the last tile and on one that is absent, alone and paired; addresses that are odd, too high, and the last; MPERM's table; and the
four operations when they are first. -/
theorem witness_TileWordsAreTakenAndPerformed :
    (F s0 [] [] false ∧ (bk s0).tiles.length ≤ (2#4 : BitVec 4).toNat ∧ (1#4 : BitVec 4).toNat < (bk s0).tiles.length ∧ s0.followerOf (bk s0) = none ∧
      F s0 [] [.w 63] true ∧ F s0 [] [.w 63] false ∧ (bk s0).partner = none) ∧
    (let s := sTile [] true (Tile.zero 1)
     F s [] [] false ∧ s.followerOf (bk s) = some (follower tA tB) ∧ (follower tA tB).id ≠ (bk s).id ∧ F s [] [.w 63] false ∧
      (bk s).partner = some (1, true) ∧ s.block? 1 = some (follower tA tB) ∧ (follower tA tB).core < 1024) ∧
    (let s := st id (fun b => { b with partner := some (1, true) }) id
     F s [] [.w 63] false ∧ (bk s).partner = some (1, true) ∧ s.block? 1 = none) ∧
    (∀ p ∈ [(8, false), (4112, false), (4096, false), (16, true), (0, true)],
      F (sTile [(10, BitVec.ofNat 64 p.1), (11, 0xFFFFFFFF#64)] p.2 (Tile.zero 1)) [.w 10, .w 11] [] false) ∧
    (let s := sTile [(10, 4096#64), (11, 0xFFFFFFFF#64)] false (Tile.zero 1)
     (tk s).opnd 10#6 0 % 2 ^ 32 + 4096 ≤ (bk s).spadSize ∧ s.benchReg (bk s) ((tk s).opnd 10#6 1) = .ok none ∧
      (bk s).spadSize < 4112 + 4096 ∧ (bk s).spadSize < 16 + 8192 ∧ 0 + 8192 ≤ (bk s).spadSize) ∧
    (let s := sTile [] false { Tile.zero 1 with permr := true, retired := 65536 }
     F s [] [.w 63] true ∧ (bk s).tiles[(1#4 : BitVec 4).toNat]? = some { Tile.zero 1 with permr := true, retired := 65536 }) ∧
    (∀ x ∈ [1#64, 0x100002000#64, 0x100001FFE#64, 0#64], F (sTile [(1, x)] false (Tile.zero 1)) [.w 1] [] false) ∧
    (∀ k ∈ [TileKind.mzero, .mload, .mdrain, .mma], let s := sTile [] false (tileWith k)
      s.block? 0 = some (bk s) ∧ (bk s).tiles[(1#4 : BitVec 4).toNat]? = some (tileWith k) ∧ (tileWith k).ops = [tileOp k] ∧
      s.mayPerform (tileOp k) 1 = true ∧ (tileWith k).mismatch = false ∧ (bk s).drawers[0]? = some tA ∧ (bk s).drawers[1]? = some tB) ∧
    (∀ d ∈ [none, some misTaken], let z : Tile := { tileWith .mdrain with mismatch := true, misrec := 7#64 }
      let s := sMis z d
      s.block? 0 = some (bk s) ∧ (bk s).tiles[(1#4 : BitVec 4).toNat]? = some z ∧ z.ops = [tileOp .mdrain] ∧ s.mayPerform (tileOp .mdrain) 1 = true ∧
      (bk s).team? 0 = some (tk s) ∧ (tk s).ended = false ∧ (tk s).defer = d ∧ misTaken.cause ≠ .noroute ∧ (tk s).defers = []) := by
  refine ⟨⟨mkFree (by decide +kernel), by decide +kernel, by decide +kernel, by decide +kernel, mkFree (by decide +kernel), mkFree (by decide +kernel)
      , by decide +kernel⟩
    , ⟨mkFree (by decide +kernel), by decide +kernel, by decide +kernel, mkFree (by decide +kernel), by decide +kernel⟩
    , ⟨mkFree (by decide +kernel), by decide +kernel⟩, ?_, by decide +kernel, ⟨mkFree (by decide +kernel), by decide +kernel⟩, ?_, ?_, ?_⟩
  · intro p hp; fin_cases hp <;> exact mkFree (by decide +kernel)
  · intro x hx; fin_cases hx <;> exact mkFree (by decide +kernel)
  · intro k hk; fin_cases hk <;> decide +kernel
  · intro d hd; fin_cases hd <;> decide +kernel

/-- What a word reads of memory item by item, and the state that the read leaves. -/
def gotL (s : State) (n va k : Nat) : List Nat × State := match s.getList (bk s) n va k with | .ok r v => (r, v) | _ => ([], s)
def getsL (s : State) (n va k : Nat) : Bool := match s.getList (bk s) n va k with | .ok _ _ => true | _ => false
theorem gotL_eq {s : State} {n va k : Nat} (h : getsL s n va k = true) : s.getList (bk s) n va k = .ok (gotL s n va k).1 (gotL s n va k).2 := by
  unfold getsL at h
  unfold gotL
  split at h <;> simp_all

/-- A task record at 0x1000 with a region entry at 0x2000, named by w10 and w11. -/
def sTask (r q : Nat) (g : Nat) : State := mw [(0x1000, 16, r), (0x2000, 16, g)] [(10, 0x1000#64), (11, BitVec.ofNat 64 q)]
/-- The record of a task that enters at 12. -/
def taskRec : Nat := 12
def regsTask : List RegName := [.w 10, .w (10 + 1)]

theorem spawnReady {s : State} {r : Nat} {as : List Nat} (h : free? s [.w (10#6 : BitVec 6).toNat, .w ((10#6 : BitVec 6).toNat + 1)] [.w (63#6 : BitVec 6).toNat] true = true)
    (h1 : (tk s).outstanding s.cur.base .l = false ∧ (tk s).opnd 10#6 0 % 2 ^ 56 = 0x1000 ∧ getsL s 16 0x1000 5 = true ∧
      (gotL s 16 0x1000 5).1 = r :: as ∧ taskBad r = false) :
    SpawnReady s (bk s) (tk s) 63#6 10#6 r as (gotL s 16 0x1000 5).2 :=
  ⟨mkFree h, h1.1, by rw [h1.2.1, ← h1.2.2.2.1]; exact gotL_eq h1.2.2.1, h1.2.2.2.2⟩

/-- A Bureau's block without a context: no slot of a level table is free. -/
def sNoCtx : State := let s := sTask taskRec 0 0
  { s with ctxs := [], blocks := s.blocks.map fun b => { b with bureau := some 0 }, mem := Memory.wr [] 0x1000 (natBytes 16 taskRec) }

/-- The future's bytes lie on module 1, whose routing entry a write has changed while another team has an access there. -/
def sFar (s : State) : State :=
  { s with ctxs := [{ ctx0 with acc0 := 4#64 }], offer0 := 4#64, routes := s.routes.set 1 0x80000001#64, routeHolds := [(1, 40)]
           tlb1 := [(0, [page0 0, { page0 0x10000 with frame := 0x1000000010000 }])]
           blocks := s.blocks.map fun b => { b with teams := b.teams ++ [{ team0 with idx := 1, ops := [farOp] }] } }

/-- A record without an entry address; a task without regions, one with a region whose range is too long, one that writes the last byte
of the address space; and a level table without room. -/
theorem witness_SpawnsHandInTheirTask :
    (let s := sTask 0 0 0
     F s regsTask [.w 63] true ∧ (tk s).outstanding s.cur.base .l = false ∧
      s.getList (bk s) 16 0x1000 5 = .ok (gotL s 16 0x1000 5).1 (gotL s 16 0x1000 5).2 ∧ (gotL s 16 0x1000 5).1 = 0 :: [0, 0, 0, 0] ∧ taskBad 0 = true) ∧
    (let s := sTask taskRec 0 0
     let s1 := (gotL s 16 0x1000 5).2
     SpawnReady s (bk s) (tk s) 63#6 10#6 taskRec [0, 0, 0, 0] s1 ∧ (tk s).opnd 10#6 1 = 0 ∧ s1.getList (bk s) 16 0 0 = .ok [] s1 ∧
      s1.slotsFree (bk s).tag (taskSlots taskRec) = true ∧ launchOpen s1 (bk s).tag (bit1 (taskRec.testBit 65)) ∧ s1.regionTasks = []) ∧
    (let s := sNoCtx
     let s1 := (gotL s 16 0x1000 5).2
     SpawnReady s (bk s) (tk s) 63#6 10#6 taskRec [0, 0, 0, 0] s1 ∧ s1.slotsFree (bk s).tag (taskSlots taskRec) = false) ∧
    (∀ g ∈ [2 ^ 56 - 1 + 2 * 2 ^ 64, 2 ^ 56 - 1 + 2 ^ 64 + 2 ^ 104], let s := sTask taskRec (0x2000 + 2 ^ 56) g
      let s1 := (gotL s 16 0x1000 5).2
      SpawnReady s (bk s) (tk s) 63#6 10#6 taskRec [0, 0, 0, 0] s1 ∧ (tk s).opnd 10#6 1 = 0x2000 + 2 ^ 56 ∧
      (match s1.getList (bk s) 16 0x2000 1 with | .ok rs _ => rs == [g] | _ => false) = true) ∧
    regionBad (2 ^ 56 - 1 + 2 * 2 ^ 64) = true ∧ regionBad (2 ^ 56 - 1 + 2 ^ 64 + 2 ^ 104) = false ∧
    (let s := sTask taskRec 0xFFE0 0
     let s1 := (gotL s 16 0x1000 5).2
     SpawnReady s (bk s) (tk s) 63#6 10#6 taskRec [0, 0, 0, 0] s1 ∧ (s1.legalVa (bk s) .wr 32 ((tk s).opnd 10#6 1 % 2 ^ 56)).1 = .pa 0x10000FFE0 ∧
      (s1.legalVa (bk s) .wr 32 ((tk s).opnd 10#6 1 % 2 ^ 56)).2.held 0x10000FFE0 = false ∧
      coreDie (bk s).core < (s1.legalVa (bk s) .wr 32 ((tk s).opnd 10#6 1 % 2 ^ 56)).2.dies.length ∧
      (((s1.legalVa (bk s) .wr 32 ((tk s).opnd 10#6 1 % 2 ^ 56)).2.die 0).futures.filter fun p => p.2.owner.isSome).length < 65536) ∧
    (let s := sFar (sTask taskRec 0x1FFE0 0)
     let s1 := (gotL s 16 0x1000 5).2
     SpawnReady s (bk s) (tk s) 63#6 10#6 taskRec [0, 0, 0, 0] s1 ∧ (s1.legalVa (bk s) .wr 32 ((tk s).opnd 10#6 1 % 2 ^ 56)).1 = .pa 0x100000001FFE0 ∧
      (s1.legalVa (bk s) .wr 32 ((tk s).opnd 10#6 1 % 2 ^ 56)).2.held 0x100000001FFE0 = true) := by
  refine ⟨⟨mkFree (by decide +kernel), by decide +kernel, gotL_eq (by decide +kernel), by decide +kernel⟩
    , ⟨spawnReady (by decide +kernel) (by decide +kernel), by decide +kernel, rfl, by decide +kernel, ?_, by decide +kernel⟩
    , ⟨spawnReady (by decide +kernel) (by decide +kernel), by decide +kernel⟩, ?_, by decide, by decide
    , ⟨spawnReady (by decide +kernel) (by decide +kernel), by decide +kernel⟩, ⟨spawnReady (by decide +kernel) (by decide +kernel), by decide +kernel⟩⟩
  · exact forSome ctx0 (by decide +kernel) ⟨by decide +kernel, fun h => absurd h (by decide +kernel)⟩
  · intro g hg
    fin_cases hg <;> exact ⟨spawnReady (by decide +kernel) (by decide +kernel), by decide +kernel⟩

/-- Future 65,535 of die 3, and its handle in w1. -/
def fut (n : Nat) (x : FState) : Future :=
  { id := 8, gen := 0xFFFFFFFF#32, owner := some 5#12, tag := 5#12, addr := 0x100000000, count := n, pcount := 0, st := x, value := 6#64, task := 0#48, slot := 0 }
def sFut (f : Future) (own : Option (Nat × Nat)) (reclaim : Bool) : State :=
  st (fun t => { t with w := t.w.set 1 0x005CFFFFFFFFFFFF#64 }) (fun b => { b with future := own, reclaim := reclaim })
    fun s => { s with dies := s.dies.set 3 { Die.reset with futures := [(65535, f)] } }
theorem namesFut {s : State} {f : Future} (h : handleIs (bk s) ((tk s).rw 1#6) 3 f.gen 65535) (h1 : (s.die 3).futures = [(65535, f)])
    (h2 : f.owner = some (bk s).tag) : NamesFut s (bk s) ((tk s).rw 1#6) 3 65535 f :=
  ⟨h, by rw [h1]; rfl, h2, by rw [h1]; intro p hp _ _; exact List.mem_singleton.1 hp⟩

/-- The team waits in FWAIT for that future. -/
def sWaits (f : Future) : State :=
  let s := sFut f none false
  { s with blocks := s.blocks.map fun b => { b with teams := b.teams.map fun t => { t with wait := some (.future 3 8 63 9 0#56) } } }

/-- Counts of 65,535, 65,534, 2 and 1; the block's own future; a value, a task that runs; a handle of another context; a reclaimed task at RPOINT. -/
theorem witness_FuturesAreCountedAndAwaited :
    (∀ n ∈ [65535, 65534, 2, 1], let s := sFut (fut n .done) none false
      NamesFut s (bk s) ((tk s).rw 1#6) 3 65535 (fut n .done) ∧ F s [.w 1] [] false) ∧
    (∀ x ∈ [FState.done, .pending, .faulted, .reclaimed], let s := sFut (fut 1 x) none false
      NamesFut s (bk s) ((tk s).rw 1#6) 3 65535 (fut 1 x) ∧ F s [.w 1] [.w 63] true ∧ F s [.w 1] [.w 62, .w (62 + 1)] true ∧ (bk s).dying = false ∧
      (bk s).future ≠ some (3, 8)) ∧
    (∀ x ∈ [FState.done, .pending], let s := sWaits (fut 1 x)
      s.team? ⟨0, 0⟩ = some (bk s, tk s) ∧ (tk s).wait = some (.future 3 8 63 9 0#56) ∧ s.future? 3 8 = some (fut 1 x)) ∧
    (let s := sFut (fut 1 .pending) (some (3, 8)) false
     NamesFut s (bk s) ((tk s).rw 1#6) 3 65535 (fut 1 .pending) ∧ F s [.w 1] [.w 63] true ∧ (bk s).dying = false ∧ (bk s).future = some (3, 8)) ∧
    (F s0 [.w 1] [] false ∧ F s0 [.w 1] [.w 63] true ∧ ((tk s0).rw 1#6).toNat / 2 ^ 52 ≠ (bk s0).tag.toNat ∧ (bk s0).dying = false ∧ F s0 [] [] false) ∧
    (let s := sFut (fut 1 .pending) none true
     F s [] [] false ∧ (bk s).dying = true) := by
  refine ⟨?_, ?_, by decide +kernel, ⟨namesFut (by unfold handleIs; decide +kernel) (by decide +kernel) (by decide +kernel), mkFree (by decide +kernel), by decide +kernel⟩
    , ⟨mkFree (by decide +kernel), mkFree (by decide +kernel), by decide +kernel, by decide +kernel, mkFree (by decide +kernel)⟩
    , ⟨mkFree (by decide +kernel), by decide +kernel⟩⟩
  · intro n hn
    fin_cases hn <;> exact ⟨namesFut (by unfold handleIs; decide +kernel) (by decide +kernel) (by decide +kernel), mkFree (by decide +kernel)⟩
  · intro x hx
    fin_cases hx <;> exact ⟨namesFut (by unfold handleIs; decide +kernel) (by decide +kernel) (by decide +kernel), mkFree (by decide +kernel)
      , mkFree (by decide +kernel), by decide +kernel⟩

/-- A bin of a launch in slot 0 of the small context, with records of one dword, named by w1. -/
def bin0 (coal : Nat) (recs : List (List Dword)) (d : Option Nat) : Bin :=
  { idx := 0, tag := 5#12, slot := 0, shape := Dispatch.probe.shape, rw := 1, coal := coal, rspad := 0, timer := 0, deadline := d, records := recs, formed := 2, cursor := 0 }
def sBin (b : Bin) : State :=
  st (fun t => { t with w := t.w.set 1 0x0051000000030000#64 }) id fun s =>
    { s with ctxs := [{ ctx0 with levels := [{ level0 with lkind := .bin }] }], dies := s.dies.set 0 { Die.reset with bins := [b] } }

theorem recordsOf (n : Nat) : n ≤ ((sBin (bin0 9 (List.replicate n [0#64]) none)).die 0).binRecords := by
  show n ≤ [(List.replicate n [0#64]).length].foldl (· + ·) 0
  rw [List.length_replicate]
  exact Nat.le_add_left n 0
theorem fullStore : ∃ e x, (sBin (bin0 9 (List.replicate 65536 [0#64]) none)).binArg (bk (sBin (bin0 9 (List.replicate 65536 [0#64]) none)))
      ((tk (sBin (bin0 9 (List.replicate 65536 [0#64]) none))).rw 1#6) 1 = some (e, x) ∧
    65536 ≤ ((sBin (bin0 9 (List.replicate 65536 [0#64]) none)).die e).binRecords := by
  have h : ((sBin (bin0 9 (List.replicate 65536 [0#64]) none)).binArg (bk (sBin (bin0 9 (List.replicate 65536 [0#64]) none)))
      ((tk (sBin (bin0 9 (List.replicate 65536 [0#64]) none))).rw 1#6) 1).map (fun p => p.1) = some 0 := by decide +kernel
  obtain ⟨p, hp, e⟩ := Option.map_eq_some_iff.1 h
  exact ⟨p.1, p.2, hp, by rw [e]; exact recordsOf 65536⟩

/-- A handle of no bin; a store of 65,536 records; a record that does not fill the bin, that fills it, and that is its last; a timer that has not
expired and one that has. -/
theorem witness_BinsFormDispatches :
    (F s0 (.w 1 :: (List.range ((0#3 : BitVec 3).toNat + 1)).map fun i => .w (63 + i)) [] false ∧ s0.binArg (bk s0) ((tk s0).rw 1#6) 1 = none) ∧
    (∃ e x, (sBin (bin0 9 (List.replicate 65536 [0#64]) none)).binArg (bk (sBin (bin0 9 (List.replicate 65536 [0#64]) none)))
        ((tk (sBin (bin0 9 (List.replicate 65536 [0#64]) none))).rw 1#6) 1 = some (e, x) ∧
      65536 ≤ ((sBin (bin0 9 (List.replicate 65536 [0#64]) none)).die e).binRecords) ∧
    (∀ p ∈ [(3, 1), (2, 1), (1, 0)], let x := bin0 p.1 (List.replicate p.2 [9#64]) none
      let s := sBin x
      F s (.w 1 :: (List.range ((0#3 : BitVec 3).toNat + 1)).map fun i => .w (63 + i)) [] false ∧ s.binArg (bk s) ((tk s).rw 1#6) 1 = some (0, x) ∧
      (s.die 0).binRecords < 65536 ∧ (tk s).outstanding s.cur.base .l = false ∧ x.formed + 1 < 2 ^ 24) ∧
    ((bin0 3 [[9#64]] none).records.length + 1 < 3 ∧ 2 ≤ (bin0 2 [[9#64]] none).records.length + 1) ∧
    (∀ k ∈ [100, 101], let s := sBin (bin0 3 [[9#64]] (some k))
      (s.die (0#2 : BitVec 2).toNat).bins.find? (fun y => y.idx = 0) = some (bin0 3 [[9#64]] (some k)) ∧ s.clock = 100) := by
  refine ⟨⟨mkFree (by decide +kernel), by decide +kernel⟩, fullStore, ?_, by decide, ?_⟩
  · intro p hp
    fin_cases hp <;> exact ⟨mkFree (by decide +kernel), by decide +kernel⟩
  · intro k hk
    fin_cases hk <;> decide +kernel


/-- Port 4,095 of die 3, and its handle in w1. -/
def port0 (n : Nat) (held : List Dword) : Port :=
  { gen := 0xFFFFFFFF#32, owner := some 5#12, msgs := List.replicate n 9#64, held := held, refused := 2 ^ 32 - 2, waiting := [] }
def sPort (x : Port) (l : List (Nat × Pattern)) : State :=
  st (fun t => { t with w := (t.w.set 1 0x005CFFFFFFFF0FFF#64).set 2 8#64 }) id
    fun s => { s with dies := s.dies.set 3 { Die.reset with ports := [(4095, x)], patterns := l }, input := { s.input with die := 3#2, idx := 0xFFFFFFFF#32 },
                      dawn := { s.dawn with step := 6 } }
/-- A pattern of that port. -/
def pat0 : Pattern := { gen := 1#32, owner := some 5#12, ports := [4095], prio := 3, shape := Dispatch.probe.shape, consts := List.replicate 7 1#64 }
/-- Every port of die 3 is in use. -/
def sPorts : State :=
  st (fun t => { t with w := t.w.set 1 3#64 }) id
    fun s => { s with dies := s.dies.set 3 { Die.reset with ports := (List.range 4096).map fun i => (i, port0 0 []) } }

/-- Die 3 with a pattern, priority 3, whose port has `n` messages and has just changed. -/
def sFire (n : Nat) : State :=
  let s := sPort (port0 n []) []
  { s with dies := s.dies.set 3 { Die.reset with ports := [(4095, port0 n [])], patterns := [(1023, pat0)], hseq := [4095] } }
/-- The last die full and empty of ports; a port of 16, 15, 1 and 0 messages; one that a pattern lists; a held message; a host's post; a
firing that is due; before Dawn's last step. -/
theorem witness_MessagesPassThroughPorts :
    (F sPorts [.w 1] [.w 63] true ∧ ((tk sPorts).rw 1#6).toNat % 4 < sPorts.dies.length ∧
      4096 ≤ ((sPorts.die (((tk sPorts).rw 1#6).toNat % 4)).ports.filter fun p => p.2.owner.isSome).length) ∧
    (F s0 [.w 1] [.w 63] true ∧ ((tk s0).rw 1#6).toNat % 4 < s0.dies.length ∧
      ((s0.die (((tk s0).rw 1#6).toNat % 4)).ports.filter fun p => p.2.owner.isSome).length < 4096) ∧
    (∀ n ∈ [16, 15, 1, 0], let s := sPort (port0 n []) []
      namesPort s (bk s) ((tk s).rw 1#6) 3 4095 (port0 n []) ∧ F s [.w 1, .w 2] [] false ∧ F s [.w 1, .w (1 + 1)] [.w 63] true ∧
      (tk s).outstanding s.cur.base .l = false ∧ s.firing 3 = false ∧ (tk s).wait = none ∧ F s [.w 1] [.w 63] true ∧ (bk s).dying = false ∧
      (s.die 3).listed 4095 = false ∧ (bk s).live = true ∧ (port0 n []).waiting = [] ∧ s.input.die.toNat = 3 ∧ s.input.idx.toNat % 4096 = 4095 ∧
      6 ≤ s.dawn.step ∧ (port0 n []).owner ≠ none ∧ (port0 n []).refused < 2 ^ 32 - 1) ∧
    (let s := sPort (port0 0 []) [(0, pat0)]
     namesPort s (bk s) ((tk s).rw 1#6) 3 4095 (port0 0 []) ∧ F s [.w 1] [.w 63] true ∧ (bk s).dying = false ∧ (s.die 3).listed 4095 = true) ∧
    (let s := sPort (port0 15 [6#64]) []
     entry? (s.die 3).ports 4095 = some (port0 15 [6#64]) ∧ (port0 15 [6#64]).held = 6#64 :: [] ∧ (port0 15 [6#64]).msgs.length < 16 ∧
      s.firing 3 = false) ∧
    (let s := sFire 16
     namesPort s (bk s) ((tk s).rw 1#6) 3 4095 (port0 16 []) ∧ F s [.w 1, .w 2] [] false ∧ F s [.w 1, .w (1 + 1)] [.w 63] true ∧ s.firing 3 = true) ∧
    s0.dawn.step < 6 := by
  refine ⟨⟨mkFree (by decide +kernel), by decide +kernel⟩, ⟨mkFree (by decide +kernel), by decide +kernel⟩, ?_
    , ⟨by unfold namesPort handleIs; decide +kernel, mkFree (by decide +kernel), by decide +kernel⟩, by decide +kernel
    , ⟨by unfold namesPort handleIs; decide +kernel, mkFree (by decide +kernel), mkFree (by decide +kernel), by decide +kernel⟩, by decide +kernel⟩
  intro n hn
  fin_cases hn <;> exact ⟨by unfold namesPort handleIs; decide +kernel, mkFree (by decide +kernel), mkFree (by decide +kernel), by decide +kernel
    , by decide +kernel, by decide +kernel, mkFree (by decide +kernel), by decide +kernel⟩

/-- A record of a pattern of one port with constant 6 at -1, or of two ports, and its state: the record's address in w1, port 4,095 in w2, w3. -/
def sPat (r : Nat) (h2 h3 : Dword) : State :=
  { mw [(0x1000, 64, r)] [(1, 0x1000#64), (2, h2), (3, h3)] with
    dies := State.reset.dies.set 3 { Die.reset with ports := [(4095, port0 0 [])] } }
def patRec (n : Nat) : Nat := 12 * 2 ^ 392 + (if n = 1 then (2 ^ 56 - 1) * 2 ^ 336 else 0) + (n - 1) * 2 ^ 457 + 15 * 2 ^ 460
def hPort : Dword := 0x005CFFFFFFFF0FFF#64

/-- A record with a reserved bit; one of eight ports from w56, which end beyond w63; a port listed twice; a good record; a pattern whose port
is empty, and one that fires. -/
theorem witness_PatternsAreSetAndFire :
    (let s := sPat (2 ^ 440) hPort 0#64
     F s [.w 1] [.w 63] true ∧ (tk s).outstanding s.cur.base .l = false ∧ s.getVa (bk s) 64 ((tk s).rw 1#6).toNat = .ok (got s 64 0x1000).1 (got s 64 0x1000).2 ∧
      patBad (got s 64 0x1000).1 = true) ∧
    (let s := { mw [(0x1000, 64, patRec 8)] [(56, 0x1000#64)] with nextId := 50 }
     F s [.w 56] [.w 63] true ∧ (tk s).outstanding s.cur.base .l = false ∧ s.getVa (bk s) 64 ((tk s).rw 56#6).toNat = .ok (got s 64 0x1000).1 (got s 64 0x1000).2 ∧
      63 < 56 + ((got s 64 0x1000).1 / 2 ^ 457 % 8 + 1)) ∧
    (∀ p ∈ [(2, hPort), (1, 0#64)], let s := sPat (patRec p.1) hPort p.2
      let s1 := (got s 64 0x1000).2
      let hs := (List.range p.1).map fun i => (tk s).w.getD (1 + 1 + i) 0#64
      F s [.w 1] [.w 63] true ∧ (tk s).outstanding s.cur.base .l = false ∧ s.getVa (bk s) 64 ((tk s).rw 1#6).toNat = .ok (got s 64 0x1000).1 s1 ∧
      (got s 64 0x1000).1 / 2 ^ 457 % 8 + 1 = p.1 ∧ 1 + p.1 ≤ 63 ∧ patBad (got s 64 0x1000).1 = false ∧
      (tk s).pending s.cur.base ((List.range p.1).map fun i => .w (1 + 1 + i)) = false ∧
      s1.patArgs (bk s) hs = (if p.1 = 2 then none else some (3, [4095])) ∧ s1.firing 3 = false) ∧
    (let s := sFire 0
     firstPattern ((s.die (3#2 : BitVec 2).toNat).patterns.filter fun p => s.candidate (3#2 : BitVec 2).toNat p.2) = none) ∧
    (let s := sFire 1
     firstPattern ((s.die (3#2 : BitVec 2).toNat).patterns.filter fun p => s.candidate (3#2 : BitVec 2).toNat p.2) = some (1023, pat0) ∧
      pat0.owner = some 5#12 ∧ s.ctx? 5#12 = some ctx0 ∧ (∀ l ∈ ctx0.levels, l.cancelled = false) ∧ pat0.ports.Nodup) := by
  refine ⟨⟨mkFree (by decide +kernel), by decide +kernel, got_eq (by decide +kernel), by decide +kernel⟩
    , ⟨mkFree (by decide +kernel), by decide +kernel, got_eq (by decide +kernel), by decide +kernel⟩, ?_, by decide +kernel, by decide +kernel⟩
  intro p hp
  fin_cases hp <;> exact ⟨mkFree (by decide +kernel), by decide +kernel, got_eq (by decide +kernel), by decide +kernel, by decide +kernel, by decide +kernel
    , by decide +kernel, by decide +kernel, by decide +kernel⟩

/-- Queue 4,095 of die 3 over a ring of two entries of `ew` dwords at 0x2000, of the scope `sc`. -/
def queue0 (ew sc hd tl : Nat) : Queue :=
  { gen := 0xFFFFFFFF#32, owner := some 5#12, ring := 0x2000, log := 1, ew := ew, scope := sc, core := 1023, head := hd, tail := tl, waiting := []
    pushing := [] }
def sQueue (q : Queue) : State :=
  st (fun t => { t with w := t.w.set 1 0x005CFFFFFFFF0FFF#64 }) id fun s => { s with dies := s.dies.set 3 { Die.reset with queues := [(4095, q)] } }
/-- The addresses of an entry, and the state after its check. -/
def lg (s : State) (n : Need) (l : List Nat) : List Nat × State := match s.entryLegal (bk s) n l with | .ok a v => (a, v) | _ => ([], s)
def lgs (s : State) (n : Need) (l : List Nat) : Bool := match s.entryLegal (bk s) n l with | .ok _ _ => true | _ => false
theorem lg_eq {s : State} {n : Need} {l : List Nat} (h : lgs s n l = true) : s.entryLegal (bk s) n l = .ok (lg s n l).1 (lg s n l).2 := by
  unfold lgs at h
  unfold lg
  split at h <;> simp_all

theorem namesQ {q : Queue} (h : handleIs (bk (sQueue q)) ((tk (sQueue q)).rw 1#6) 3 q.gen 4095) (h1 : entry? ((sQueue q).die 3).queues 4095 = some q)
    (h2 : q.owner = some (bk (sQueue q)).tag) : namesQueue (sQueue q) (bk (sQueue q)) ((tk (sQueue q)).rw 1#6) 3 4095 q := ⟨h, h1, h2⟩

/-- Arguments of a ring off its alignment, and at their largest; a queue empty, with one entry and full, its scope the module; a queue of the
last core alone. -/
theorem witness_QueuesKeepTheirOrder :
    (∀ p ∈ [(32, 1), (0xFFFFFFFFFFFFFFC0, 0x60714)], let s := setW [(1, BitVec.ofNat 64 p.1), (2, BitVec.ofNat 64 p.2)]
      F s [.w 1, .w (1 + 1)] [.w 63] true ∧ coreDie (bk s).core < s.dies.length ∧ (tk s).opnd 1#6 0 = p.1 ∧ (tk s).opnd 1#6 1 = p.2 ∧
      (p.1 % 64 = 0 → 1 ≤ p.2 % 2 ^ 5 ∧ p.2 % 2 ^ 5 ≤ 20 ∧ p.2 / 2 ^ 5 % 2 ^ 3 = 0 ∧ p.2 / 2 ^ 11 % 2 ^ 5 = 0 ∧ p.2 / 2 ^ 16 % 8 ≠ 7 ∧
        p.2 / 2 ^ 19 = 0) ∧ ((s.die (coreDie (bk s).core)).queues.filter fun p => p.2.owner.isSome).length < 4096) ∧
    (∀ p ∈ [(0, 0), (0, 1), (5, 7)], let q := queue0 8 6 p.1 p.2
      let s := sQueue q
      let r := lg s .wr (q.slots q.tail)
      namesQueue s (bk s) ((tk s).rw 1#6) 3 4095 q ∧ F s [.w 1] [] false ∧ q.waiting = [] ∧ q.pushing = [] ∧ 56 + q.ew ≤ 64 ∧
      inScope q.scope q.core (bk s).core = true ∧ (tk s).pending s.cur.base ((List.range q.ew).map fun j => .w (56 + j)) = false ∧
      s.entryLegal (bk s) .wr (q.slots q.tail) = .ok r.1 r.2 ∧ (tk s).outstanding s.cur.base .l = false ∧ s.migrations = [] ∧
      r.1.Pairwise (fun p q => p + 8 ≤ q ∨ q + 8 ≤ p) ∧ (bk s).dying = false ∧
      (tk s).runBusy s.clock ((List.range q.ew).map fun j => .w (56 + j)) = false ∧ (bk s).live = true ∧
      s.entryLegal (bk s) .rd (q.slots q.head) = .ok (lg s .rd (q.slots q.head)).1 (lg s .rd (q.slots q.head)).2) ∧
    (let q := queue0 1 0 0 0
     let s := sQueue q
     namesQueue s (bk s) ((tk s).rw 1#6) 3 4095 q ∧ F s [.w 1] [] false ∧ 63 + q.ew ≤ 64 ∧ inScope q.scope q.core (bk s).core = false) := by
  refine ⟨?_, ?_, ⟨namesQ (by unfold handleIs; decide +kernel) (by decide +kernel) (by decide +kernel), mkFree (by decide +kernel), by decide +kernel⟩⟩
  · intro p hp
    fin_cases hp <;> exact ⟨mkFree (by decide +kernel), by decide +kernel⟩
  · intro p hp
    fin_cases hp <;> exact ⟨namesQ (by unfold handleIs; decide +kernel) (by decide +kernel) (by decide +kernel), mkFree (by decide +kernel)
      , by decide +kernel, by decide +kernel, by decide +kernel, by decide +kernel, by decide +kernel, lg_eq (by decide +kernel), by decide +kernel
      , by decide +kernel, by decide +kernel, by decide +kernel, by decide +kernel, by decide +kernel, lg_eq (by decide +kernel)⟩

/-- A tree launch with a root and a leaf, RSZ of 6, upward or downward, in a phase. -/
def treeRec (down : Bool) (cap : Nat) : Nat :=
  0x1000 + 0x1100 * 2 ^ 64 + 2 * 2 ^ 160 + (if down then 2 ^ 189 else 0) + cap * 2 ^ 192 + 6 * 2 ^ 205 + 12 * 2 ^ 256
def node0 : Node :=
  { idx := 0, kind := 0, teams := 1, args := [1#64, 2#64, 3#64], children := [1], order := [1], parent := none, need := 1, budget := 2, st := .running
    doomed := false, released := false, entry := some 0, refused := false, counted := false, dispatched := true, entries := [some 1] }
def node1 (x : NState) : Node :=
  { node0 with idx := 1, children := [], order := [], parent := some 0, budget := 1, st := x, entry := some 1, dispatched := false, entries := [] }
def tree0 (down : Bool) (p : TPhase) (x : NState) : Tree :=
  { id := 70, die := 0, tag := 5#12, slot := 0, record := treeRec down 2, phase := p, snap := [], nodes := [node0, node1 x]
    shelf := [List.replicate 8 5#64, List.replicate 8 6#64], free := [], capstall := 0, cause := 0, at' := 0, cancelled := false, cutRunning := []
    cursor := 0, written := [], homes := [], gaps := [], fills := [], seen := [] }
def sTree (t : Tree) : State := st id (fun b => { b with tree := some 70, node := some 0 }) fun s => { s with trees := [t] }
/-- A downward launch whose root has no entry yet for its child at position 0: the child is the first in its opening order, or the second. -/
def rootOf (first : Bool) : Node :=
  { node0 with children := if first then [1] else [1, 2], order := if first then [1] else [2, 1], entries := if first then [none] else [none, some 2] }
def treeNone (first : Bool) : Tree :=
  { tree0 true .sweeping .done with nodes := [rootOf first, { node1 .done with entry := none }], free := [1], shelf := [List.replicate 8 5#64, List.replicate 8 7#64, List.replicate 8 6#64] }
theorem ofNode {t : Tree} {x : Node} (h : (bk (sTree t)).tree = some 70 ∧ (bk (sTree t)).node = some 0 ∧ t.id = 70) (h1 : t.nodes.find? (fun y => y.idx == 0) = some x) :
    nodeBlock (sTree t) (bk (sTree t)) t x :=
  ⟨70, 0, h.1, h.2.1, by show [t].find? _ = _; simp [h.2.2], h1⟩

/-- A block of no tree; the root's block of an upward and of a downward launch: dword 6, its last, and 7; its child 0, its last, and 1; a child
without an entry, the first and the second in its order. -/
theorem witness_HandoverWordsReachTheShelf :
    ((bk s0).tree = none ∧ F s0 [.w 1] [] false ∧ F s0 [] [.w 62] true) ∧
    (∀ d ∈ [false, true], let t := tree0 d .sweeping .done
      let s := sTree t
      nodeBlock s (bk s) t node0 ∧ F s [.w 1] [] false ∧ F s [] [.w 62] true ∧ t.down = d ∧ t.rsz = 6 ∧ node0.entry = some 0 ∧ hasEntry t 0 ∧
      node0.entries[0]? = some (some 1) ∧ hasEntry t 1 ∧ node0.children.length = 1 ∧
      t.nodes.find? (fun z => z.idx == node0.children.getD 0 0) = some (node1 .done) ∧ (node1 .done).entry = some 1) ∧
    (∀ a ∈ [true, false], let t := treeNone a
      let s := sTree t
      nodeBlock s (bk s) t (rootOf a) ∧ F s [.w 1] [] false ∧ t.down = true ∧ t.rsz = 6 ∧ (rootOf a).entries[0]? = some none ∧
      (rootOf a).entry = some 0 ∧ hasEntry t 0 ∧ t.free = 1 :: [] ∧ hasEntry t 1 ∧
      decide ((rootOf a).order.head? = (rootOf a).children[0]?) = a) := by
  refine ⟨⟨by decide, mkFree (by decide +kernel), mkFree (by decide +kernel)⟩, ?_, ?_⟩
  rotate_left
  · intro a ha
    fin_cases ha <;> exact ⟨ofNode (by decide +kernel) (by decide +kernel), mkFree (by decide +kernel), by decide +kernel, by decide +kernel, by decide
      , by decide, ⟨_, rfl, rfl⟩, by decide, ⟨_, rfl, rfl⟩, by decide⟩
  intro d hd
  fin_cases hd <;> exact ⟨ofNode (by decide +kernel) (by decide +kernel), mkFree (by decide +kernel), mkFree (by decide +kernel), by decide +kernel, by decide +kernel
    , by decide, ⟨_, rfl, rfl⟩, by decide, ⟨_, rfl, rfl⟩, by decide, by decide, by decide⟩

/-- The small state with a page table whose first 2 MiB have a last entry `e`. -/
def tabled (e : Nat) (s : State) : State :=
  { s with ctxs := [{ ctx0 with root := 0x200000 }]
           mem := [(0x200000, 0x201020), (0x201000, 0x202020), (0x202000, 0x203020), (0x203000, e)].foldl (fun m p => Memory.wr m p.1 (natBytes 8 p.2)) s.mem }
/-- Entries of a page at 2^32 with every permission, resident and absent (R199). -/
def leafHere : Nat := 0x10000005E
def leafAbsent : Nat := 0x10000007E

/-- That launch with its records in memory: node 0 with a child at offset 0, node 1 a leaf; `c` is the capacity, 0 of which fails check 2. -/
def sCensus (c : Nat) (e : Nat := leafHere) : State :=
  let s := tabled e (mw [(0x1000, 32, 4), (0x1020, 32, 0), (0x1100, 4, 1)] [])
  { s with parts := [(255, 0x1005#13)], trees := [{ tree0 false .waiting .unopened with record := treeRec false c, snap := s.mem, nodes := [], shelf := [] }] }
/-- The launch of those states. -/
def treeOf (s : State) : Tree := s.trees.headD (tree0 false .waiting .unopened)

/-- A launch whose opened root, of budget `k`, has a done child and one that is not opened. -/
def node2 : Node := { node1 .unopened with idx := 2, counted := true }
def tPass (k : Nat) : Tree :=
  { tree0 false .sweeping .done with nodes := [{ node0 with st := .opened, children := [1, 2], order := [1, 2], budget := k }, node1 .done, { node2 with counted := false }] }

/-- A launch of record `r` whose census begins, with nodes `n0` to `n2` and the child index array `k` in memory. -/
def sWalk (r n0 n1 k : Nat) (n2 : Nat := 0) : State :=
  let s := tabled leafHere (mw [(0x1000, 32, n0), (0x1020, 32, n1), (0x1040, 32, n2), (0x1100, 8, k)] [])
  { s with parts := [(255, 0x1005#13)], trees := [{ tree0 false .waiting .unopened with record := r, snap := s.mem, nodes := [], shelf := [] }] }
/-- The census of a launch begins. -/
abbrev Begins (s : State) : Prop :=
  s.trees.find? (fun x => x.id == (treeOf s).id) = some (treeOf s) ∧ (treeOf s).cancelled = false ∧ (treeOf s).phase = .waiting ∧
  s.heldTrees (treeOf s).die < 64 ∧ (∀ x ∈ s.trees, x.die = (treeOf s).die → x.phase = .waiting → (treeOf s).id ≤ x.id) ∧ (treeOf s).seen = []
/-- COUNT, ROOT and the reserved fields of its record pass. -/
abbrev Counted (s : State) : Prop :=
  (1 ≤ countR (treeOf s) ∧ countR (treeOf s) ≤ 2 ^ 24 ∧ rootR (treeOf s) < countR (treeOf s)) ∧ rootR (treeOf s) = 0 ∧
  (fieldR (treeOf s).record 190 2 = 0 ∧ fieldR (treeOf s).record 185 4 = 0 ∧ fieldR (treeOf s).record 120 8 = 0 ∧ fieldR (treeOf s).record 56 8 = 0)

/-- What a census reads at an address, as a test. -/
abbrev reads? (s : State) (n a v : Nat) : Prop :=
  s.unitLegal (treeOf s).tag .rd n a = .pa (0x100000000 + a) ∧ s.censusVal (treeOf s) n a (0x100000000 + a) = v
theorem readsOf {s : State} {n a v : Nat} (h : reads? s n a v) : readsR s (treeOf s) n a v := ⟨_, h⟩
abbrev entry? (s : State) (r : Nat) : Prop :=
  fieldR (treeOf s).record (256 + 64 * fieldR r 0 2) 48 ≠ 0 ∧ fieldR (treeOf s).record (256 + 64 * fieldR r 0 2) 48 % 12 = 0
abbrev fits? (s : State) (r : Nat) : Prop :=
  ((fieldR r 6 4 + 1) * (128 * (fieldR (treeOf s).record 155 5 + 1) * (8 * (fieldR (treeOf s).record 152 3 + 1))) ≤ 262144 ∧
  fieldR (treeOf s).record 219 9 ≤ 256 ∧ fieldR (treeOf s).record 213 6 ≤ 32 ∧ fieldR (treeOf s).record 208 5 ≤ 16) ∧
  s.inPart (treeOf s).tag (256 * (treeOf s).die + 255) = true
theorem nodeOk {s : State} {n r : Nat} (h : reads? s 32 (nodeAddr (treeOf s) n) r ∧ entry? s r ∧ (fieldR r 10 6 = 0 ∧ fieldR r 40 24 = 0) ∧ fits? s r) :
    NodePasses s (treeOf s) n r :=
  ⟨readsOf h.1, h.2.1, h.2.2.1, ⟨h.2.2.2.1.1, h.2.2.2.1.2.1, h.2.2.2.1.2.2.1, h.2.2.2.1.2.2.2, 255, by decide, h.2.2.2.2⟩⟩
theorem kidOk {s : State} {r k c : Nat} {l : List Nat} (h : k < fieldR r 2 4 ∧ reads? s 4 (kidAddr (treeOf s) (fieldR r 16 24 + k)) c ∧
    (c < 2 ^ 24 ∧ c < countR (treeOf s)) ∧ c ∉ l) : KidPasses s (treeOf s) r k l c := ⟨h.1, readsOf h.2.1, h.2.2.1, h.2.2.2⟩
theorem needLeaf : needIs [] 1 := ⟨[], .refl _, by simp, fun _ => rfl, by simp, fun h => absurd rfl h⟩
/-- The walk of a root with one child, a leaf; and of a root with two. -/
theorem walkOne {s : State} (h0 : NodePasses s (treeOf s) 0 4) (h1 : NodePasses s (treeOf s) 1 0) (hk : KidPasses s (treeOf s) 4 0 [0] 1) :
    Walks s (treeOf s) (.node 0) [] (.passes [1, 0] 1) :=
  .node _ _ _ _ h0 (.kid _ _ _ _ 1 _ _ [1, 0] _ hk (.node _ _ _ _ h1 (.last _ _ _ _ _ _ rfl needLeaf)) (.last _ _ _ _ _ _ rfl
    ⟨[1], .refl _, by simp, fun h => absurd h (by simp), by rintro (_ | i) a h <;> simp_all, fun _ => ⟨0, 1, rfl, rfl⟩⟩))
theorem walkTwo {s : State} (h0 : NodePasses s (treeOf s) 0 8) (h1 : NodePasses s (treeOf s) 1 0) (h2 : NodePasses s (treeOf s) 2 0)
    (hk : KidPasses s (treeOf s) 8 0 [0] 1) (hj : KidPasses s (treeOf s) 8 1 [1, 0] 2) :
    Walks s (treeOf s) (.node 0) [] (.passes [2, 1, 0] 2) :=
  .node _ _ _ _ h0 (.kid _ _ _ _ 1 _ _ [1, 0] _ hk (.node _ _ _ _ h1 (.last _ _ _ _ _ _ rfl needLeaf))
    (.kid _ _ _ _ 1 _ _ [2, 1, 0] _ hj (.node _ _ _ _ h2 (.last _ _ _ _ _ _ rfl needLeaf)) (.last _ _ _ _ _ _ rfl
      ⟨[1, 1], .refl _, by simp, fun h => absurd h (by simp), by rintro (_ | _ | i) a h <;> simp_all <;> omega, fun _ => ⟨1, 1, rfl, rfl⟩⟩)))
/-- Walks that fail at the root, and at its child. -/
theorem failsAt {s : State} {k : Nat} (h : NodeFails s (treeOf s) 0 k) : Walks s (treeOf s) (.node 0) [] (.fails k 0) := .nodeFails _ _ _ h
theorem failsKid {s : State} {k : Nat} (h0 : NodePasses s (treeOf s) 0 4) (h : Walks s (treeOf s) (.kids 0 4 0 []) [0] (.fails k 0)) :
    Walks s (treeOf s) (.node 0) [] (.fails k 0) := .node _ _ _ _ h0 h

/-- Records of a tree launch with COUNT `n` and capacity `c`, and with other bits. -/
def walkRec (n c : Nat) (x : Int) : Nat := (((treeRec false c : Nat) : Int) + (n - 2) * 2 ^ 160 + x).toNat

/-- R69's checks at their first failing value: COUNT 0, ROOT = COUNT, a reserved bit; and each way in which a walk ends. -/
theorem witness_censusChecks :
    (∀ r ∈ [walkRec 0 1 0, walkRec 2 1 (2 * 2 ^ 128)], Begins (sWalk r 4 0 1) ∧
      ¬(1 ≤ countR (treeOf (sWalk r 4 0 1)) ∧ countR (treeOf (sWalk r 4 0 1)) ≤ 2 ^ 24 ∧ rootR (treeOf (sWalk r 4 0 1)) < countR (treeOf (sWalk r 4 0 1)))) ∧
    (let s := sWalk (walkRec 2 1 (2 ^ 190)) 4 0 1
     Begins s ∧ (1 ≤ countR (treeOf s) ∧ countR (treeOf s) ≤ 2 ^ 24 ∧ rootR (treeOf s) < countR (treeOf s)) ∧ fieldR (treeOf s).record 190 2 ≠ 0) ∧
    (let s := sWalk (walkRec 2 1 0x1FF000) 4 0 1
     Begins s ∧ Counted s ∧ Walks s (treeOf s) (.node 0) [] (.fails 8 0)) ∧
    (let s := sWalk (walkRec 2 1 (-12 * 2 ^ 256)) 4 0 1
     Begins s ∧ Counted s ∧ Walks s (treeOf s) (.node 0) [] (.fails 3 0)) ∧
    (let s := sWalk (walkRec 2 1 0) (4 + 2 ^ 10) 0 1
     Begins s ∧ Counted s ∧ Walks s (treeOf s) (.node 0) [] (.fails 7 0)) ∧
    (let s := sWalk (walkRec 2 1 (31 * 2 ^ 155 + 7 * 2 ^ 152)) (4 + 15 * 2 ^ 6) 0 1
     Begins s ∧ Counted s ∧ Walks s (treeOf s) (.node 0) [] (.fails 9 0)) ∧
    (let s := sWalk (walkRec 2 1 (0x1FF000 * 2 ^ 64)) 4 0 1
     Begins s ∧ Counted s ∧ Walks s (treeOf s) (.node 0) [] (.fails 8 0)) ∧
    (let s := sWalk (walkRec 2 1 0) 4 0 (1 + 2 ^ 24)
     Begins s ∧ Counted s ∧ Walks s (treeOf s) (.node 0) [] (.fails 7 0)) ∧
    (let s := sWalk (walkRec 2 1 0) 4 0 2
     Begins s ∧ Counted s ∧ Walks s (treeOf s) (.node 0) [] (.fails 4 0)) ∧
    (let s := sWalk (walkRec 2 1 0) 4 0 0
     Begins s ∧ Counted s ∧ Walks s (treeOf s) (.node 0) [] (.fails 5 0)) ∧
    (let s := sWalk (walkRec 2 1 0) 4 (2 ^ 40) 1
     Begins s ∧ Counted s ∧ Walks s (treeOf s) (.node 0) [] (.fails 7 1)) ∧
    (∀ p ∈ [(3, 1), (2, 0), (2, 4097), (2, 1)], let s := sWalk (walkRec p.1 p.2 0) 4 0 1
      Begins s ∧ Counted s ∧ countR (treeOf s) = p.1 ∧ capR (treeOf s) = p.2 ∧ Walks s (treeOf s) (.node 0) [] (.passes [1, 0] 1)) ∧
    (let s := sWalk (walkRec 3 1 0) 8 0 (1 + 2 * 2 ^ 32) 0
     Begins s ∧ Counted s ∧ countR (treeOf s) = 3 ∧ capR (treeOf s) = 1 ∧ Walks s (treeOf s) (.node 0) [] (.passes [2, 1, 0] 2)) := by
  refine ⟨?_, by decide +kernel, ⟨by decide +kernel, by decide +kernel, failsAt (.xlate ⟨.unmapped, by decide +kernel⟩)⟩
    , ⟨by decide +kernel, by decide +kernel, failsAt (.entry 4 (readsOf (by decide +kernel)) (by unfold entryR'; decide +kernel))⟩
    , ⟨by decide +kernel, by decide +kernel, failsAt (.rsvd (4 + 2 ^ 10) (readsOf (by decide +kernel)) (by unfold entryR'; decide +kernel) (by unfold nodeZeros; decide +kernel))⟩
    , ⟨by decide +kernel, by decide +kernel, failsAt (.fit (4 + 15 * 2 ^ 6) (readsOf (by decide +kernel)) (by unfold entryR'; decide +kernel) (by unfold nodeZeros; decide +kernel)
        fun h => absurd h.1 (by decide +kernel))⟩
    , ⟨by decide +kernel, by decide +kernel, failsKid (nodeOk (by decide +kernel)) (.kidXlate _ _ _ _ _ (by decide) ⟨.unmapped, by decide +kernel⟩)⟩
    , ⟨by decide +kernel, by decide +kernel, failsKid (nodeOk (by decide +kernel)) (.kidRsvd _ _ _ (1 + 2 ^ 24) _ _ (by decide) (readsOf (by decide +kernel)) (by decide))⟩
    , ⟨by decide +kernel, by decide +kernel, failsKid (nodeOk (by decide +kernel)) (.kidChild _ _ _ 2 _ _ (by decide) (readsOf (by decide +kernel)) (by decide) (by decide +kernel))⟩
    , ⟨by decide +kernel, by decide +kernel, failsKid (nodeOk (by decide +kernel)) (.kidTwice _ _ _ 0 _ _ (by decide) (readsOf (by decide +kernel)) (by decide) (by decide +kernel) (by decide))⟩
    , ⟨by decide +kernel, by decide +kernel, .node _ 4 _ _ (nodeOk (by decide +kernel)) (.kidFails _ _ _ 1 _ _ _ _ (kidOk (by decide +kernel))
        (.nodeFails _ _ _ (.rsvd (2 ^ 40) (readsOf (by decide +kernel)) (by unfold entryR'; decide +kernel) (by unfold nodeZeros; decide +kernel))))⟩, ?_
    , ⟨by decide +kernel, by decide +kernel, by decide +kernel, by decide +kernel
      , walkTwo (nodeOk (by decide +kernel)) (nodeOk (by decide +kernel)) (nodeOk (by decide +kernel)) (kidOk (by decide +kernel)) (kidOk (by decide +kernel))⟩⟩
  · intro r hr
    fin_cases hr <;> decide +kernel
  · intro p hp
    fin_cases hp <;> exact ⟨by decide +kernel, by decide +kernel, by decide +kernel, by decide +kernel
      , walkOne (nodeOk (by decide +kernel)) (nodeOk (by decide +kernel)) (kidOk (by decide +kernel))⟩

/-- A census with capacity 0 and at the least that it needs, one whose record's page is absent, and one that an absent page has delayed; a reservation beside a launch that leaves the Shelf just too little and just enough;
a node that is ready, one that has been dispatched, and none; a dispatch of a higher one; needs that are not alike; a pass that has room and one that
has not; the end of a launch that has failed and of one without maps; cancelled launches. -/
theorem witness_TreeLaunchesGoThroughTheirPhases :
    (∀ c ∈ [0, 1], let s := sCensus c
      let t := treeOf s
      s.trees.find? (fun x => x.id == t.id) = some t ∧ t.cancelled = false ∧ t.phase = .waiting ∧ s.heldTrees t.die < 64 ∧
      (∀ x ∈ s.trees, x.die = t.die → x.phase = .waiting → t.id ≤ x.id) ∧ (s.census t).gone = none ∧
      (s.census t).err = if c = 0 then some (2, 0) else none) ∧
    (let s := sCensus 1 leafAbsent
     let t := treeOf s
     s.trees.find? (fun x => x.id == t.id) = some t ∧ t.cancelled = false ∧ t.phase = .waiting ∧ (s.census t).gone.isSome = true) ∧
    (let t := { tree0 false .census .unopened with id := 72 }
     (sTree t).trees.find? (fun x => x.id == t.id) = some t ∧ t.cancelled = false ∧ t.phase = .census) ∧
    (∀ n ∈ [65534, 65535], let t := tree0 false .shelf .unopened
      let s := sTree t
      let s := { s with trees := [t, { tree0 false .sweeping .ready with id := 71, record := (n : Nat) * 2 ^ 192 }] }
      s.trees.find? (fun x => x.id == t.id) = some t ∧ t.cancelled = false ∧ t.phase = .shelf ∧
      ∀ x, s.trees.find? (fun x => x.die = t.die && x.phase = .shelf) = some x → x.id = t.id) ∧
    (∀ p ∈ [(NState.ready, false), (.ready, true), (.done, false)], let t := { tree0 false .sweeping p.1 with nodes := [node0, { node1 p.1 with dispatched := p.2 }] }
      let s := sTree t
      s.trees.find? (fun x => x.id == t.id) = some t ∧ t.cancelled = false ∧ t.phase = .sweeping ∧ s.phaseReady t.tag t.slot = true ∧
      t.nodes.find? (fun x => x.st = .ready) = if p.1 = .ready then some { node1 .ready with dispatched := p.2 } else none) ∧
    (let t := tree0 false .sweeping .ready
     let d := { Dispatch.probe with kind := .node, tree := some t.id, node := some 2 }
     (sTree t).trees.find? (fun x => x.id == t.id) = some t ∧ d.kind = .node ∧ d.tree = some t.id ∧ d.node = some 2 ∧ node1 .ready ∈ t.nodes ∧
      (node1 .ready).st = .ready ∧ (node1 .ready).idx < 2) ∧
    (let x := { node0 with children := [1, 2] }
     x.children.Nodup ∧ (x.setNeed [{ node1 .done with need := 1 }, { node1 .done with idx := 2, need := 3 }]).order = [2, 1] ∧
      (x.setNeed [{ node1 .done with need := 1 }, { node1 .done with idx := 2, need := 3 }]).need = 3) ∧
    (∀ k ∈ [1, 2], let t := tPass k
      t.down = false ∧ (t.nodes.map fun x => x.idx).Nodup ∧
      (nodeOf t.pass.1.nodes 2).map (fun x => x.st) = some (if k = 2 then .ready else .unopened) ∧
      ∃ x ∈ t.pass.1.nodes, x.st = .opened ∧ x.released = false ∧
        (k = 1 → ∃ c y, x.order.find? (fun c => unopenedR t.pass.1 c) = some c ∧ t.pass.1.nodes.find? (fun z => z.idx == c) = some y)) ∧
    (∀ p ∈ [TPhase.ending, .report], let t := { tree0 false p .done with written := [0, 1, 2, 3] }
      let s := sTree t
      s.trees.find? (fun x => x.id == t.id) = some t ∧ t.cancelled = false ∧ t.phase = p ∧ ∀ w ∈ t.writes, w.1 ∈ t.written) ∧
    (∀ p ∈ [TPhase.waiting, .census, .shelf, .sweeping], let t := { tree0 false p .ready with cancelled := true }
      (sTree t).trees.find? (fun x => x.id == t.id) = some t ∧ t.cancelled = true ∧ t.phase = p) := by
  refine ⟨?_, by decide +kernel, by decide +kernel, ?_, ?_, by decide +kernel, by decide +kernel, ?_, ?_, ?_⟩
  rotate_right
  · intro p hp
    fin_cases hp <;> decide +kernel
  · intro c hc
    fin_cases hc <;> decide +kernel
  · intro n hn
    fin_cases hn <;> exact ⟨by decide +kernel, by decide +kernel, by decide +kernel, forSome _ (by decide +kernel : _ = some (tree0 false .shelf .unopened)) rfl⟩
  · intro p hp
    fin_cases hp <;> decide +kernel
  · intro k hk
    fin_cases hk
    · exact ⟨by decide +kernel, by decide +kernel, by decide +kernel, _, List.mem_cons_self, by decide +kernel, by decide +kernel
        , fun _ => ⟨2, node2, by decide +kernel, by decide +kernel⟩⟩
    · exact ⟨by decide +kernel, by decide +kernel, by decide +kernel, _, List.mem_cons_self, by decide +kernel, by decide +kernel
        , fun h => absurd h (by decide)⟩
  · intro p hp
    fin_cases hp <;> decide +kernel

/-- A logged load of one lane, at address `va`, whose retry is due. -/
def due0 (va : Nat) : MemOp := { op0 .load 0 0 with lanes := [⟨0, va, none, false, 0, 0, 0⟩], logged := true, retry := true }
/-- The registers of an invalidation of context 5's page 1, in progress or not. -/
def sInval (busy : Bool) : State :=
  st id id fun s => { s with invHost := ⟨0x10005#64, 0xFFFFFFFFFFFF#48, busy, none⟩, input := { s.input with inv := .host, val := 1#64 } }

/-- A logged load that has been retried, with the lane's page resident; a team that has issued an XINV over the page, and an invalidation of it. -/
def opRetried (d : Bool) : MemOp :=
  { due0 0x10020 with lanes := [⟨0, 0x10020, some 0x100010020, d, 0, 0, 0⟩], replays := 1, retry := false }
def sRetried (d : Bool) : State :=
  st (fun t => { t with ops := [opRetried d], xinv := some (0x10000, 0x20000) }) id fun s =>
    { s with invHost := ⟨0x10005#64, 1#48, true, some (0x10000, 0x20000)⟩ }

/-- Memory with the tables of two pages that follow each other. -/
def twoPages : State :=
  let s := tabled leafHere s0
  { s with mem := s.mem.wr 0x203008 (natBytes 8 (leafHere + 0x200000)) }
/-- A walk that ends in a page, from what it gives. -/
theorem walkPage {s : State} {c : Ctx} {a : Nat} (h : (match s.walk c a with | .page _ => true | _ => false) = true) :
    s.walk c a = .page (match s.walk c a with | .page p => p | _ => ⟨0, 0, 0, false, false, false, false⟩) := by
  split at h <;> simp_all

/-- A write of a routing entry holds back the tables of the address in w1. -/
def sHeldX : State :=
  { sHeld with blocks := sHeld.blocks.map fun b => { b with teams := b.teams.map fun t => { t with w := t.w.set 1 0x40000#64 } } }

/-- The last byte of a page, and an address whose tables are held back; an earlier store that an invalidation waits for, a length of 0, a Bureau, a length of 2^48 - 1; a range over two
pages; a retry to a page that
is there, and one that is not; an invalidation in progress and none. -/
theorem witness_TranslationsAreReadAndInvalidated :
    F s0 [.w 1] [.x 7] true ∧
    (F sHeldX [.w 1] [.x 7] true ∧ (bk sHeldX).bureau = none ∧ sHeldX.tableWait (bk sHeldX).tag (((tk sHeldX).rw 1#6).toNat % 2 ^ 56) = true ∧
      (sHeldX.xlate (bk sHeldX) (((tk sHeldX).rw 1#6).toNat % 2 ^ 56)).1 = .absent) ∧
    (F (sOp (op0 .store 1 0)) [.w 1, .w 2] [] false ∧
      (∃ o ∈ (tk (sOp (op0 .store 1 0))).ops, o.path = .l ∧ o.kind ≠ .load ∧ o.id < (sOp (op0 .store 1 0)).cur.base)) ∧
    (∀ n ∈ [0#64, 0xFFFFFFFFFFFF#64], let s := setW [(1, 0xFFFF#64), (2, n)]
      F s [.w 1, .w 2] [] false ∧ (∀ o ∈ (tk s).ops, ¬(o.path = .l ∧ o.kind ≠ .load ∧ o.id < s.cur.base)) ∧ (tk s).rw 2#6 = n ∧
      (bk s).bureau = none ∧ nothingLogged s (bk s).tag) ∧
    (let s := twoPages
     let c := { ctx0 with root := 0x200000 }
     ∃ p q, s.ctx? c.tag = some c ∧ s.walk c 0x1FFFFF = .page p ∧ s.walk c (0x1FFFFF + 2 - 1) = .page q ∧ p ≠ q) ∧
    (let s := st id (fun b => { b with bureau := some 3 }) id
     F s [.w 1, .w 2] [] false ∧ (tk s).ops = [] ∧ (bk s).bureau.isSome = true) ∧
    (∀ a ∈ [0x10, 0x50000], let s := sOp (due0 a)
      DueRetry s 0 7 (bk s) (tk s) (due0 a) ∧ (due0 a).lanes = [⟨0, a, none, false, 0, 0, 0⟩]) ∧
    (∀ x, s0.block? 0 = some x → ∀ t ∈ x.teams, ∀ o ∈ t.ops, o.id = 7 → o.retry = false) ∧
    (s0.team? ⟨0, 0⟩ = some (bk s0, tk s0)) ∧
    (∀ d ∈ [false, true], let s := sRetried d
      s.team? ⟨0, 0⟩ = some (bk s, tk s) ∧ (tk s).ended = false ∧ (tk s).trap = none ∧ (tk s).wait = none ∧ (bk s).live = true ∧
      (tk s).xinv = some (0x10000, 0x20000) ∧ s.retriesLeft (bk s).tag (0x10000, 0x20000) = !d ∧ (s.inval .host).busy = true ∧
      (s.inval .host).going = some (0x10000, 0x20000) ∧ (s.inval .host).addr.setWidth 12 = (bk s).tag ∧ s.routeHolds = []) ∧
    (∀ y ∈ [true, false], let s := sInval y
      (s.inval s.input.inv).busy = y ∧ (s.inval .host).busy = y ∧ (s.inval .host).len ≠ 0#48 ∧ (s.inval .host).going = none ∧ nothingLogged s ((s.inval .host).addr.setWidth 12)) := by
  refine ⟨mkFree (by decide +kernel), ⟨mkFree (by decide +kernel), by decide +kernel⟩, ⟨mkFree (by decide +kernel), by decide +kernel⟩, ?_
    , ⟨_, _, by decide +kernel, walkPage (by decide +kernel), walkPage (by decide +kernel), by decide +kernel⟩, ⟨mkFree (by decide +kernel), by decide +kernel⟩, ?_
    , forSome (bk s0) (by decide +kernel) (by decide +kernel), by decide +kernel, ?_, ?_⟩
  · intro n hn
    fin_cases hn <;> exact ⟨mkFree (by decide +kernel), by decide +kernel, by decide +kernel, by decide +kernel, by unfold nothingLogged; decide +kernel⟩
  · intro a ha
    fin_cases ha <;> exact ⟨⟨by decide +kernel, by decide +kernel, by decide +kernel, by decide +kernel, by decide +kernel, by decide +kernel, by decide +kernel⟩, rfl⟩
  · intro d hd
    fin_cases hd <;> decide +kernel
  · intro y hy
    fin_cases hy <;> exact ⟨by decide +kernel, by decide +kernel, by decide +kernel, by decide +kernel, by unfold nothingLogged; decide +kernel⟩

/-- The small state with an input. -/
def sIn (f : Input → Input) : State := st id id fun s => { s with input := f s.input }
def sReg (r : DevReg) : State := sIn fun q => { q with reg := r, val := 0xFFFFFFFFFFFFFFFF#64 }

/-- A trace record, and die 3 with two of them queued at the end of its buffer, while VCTL is written with EN = 0. -/
def rec0 : Rec := ⟨2, 1023, 15, 31, 100, 0, 5, 0, 0, 0x24, 1, 2, 3⟩
def sDrain : State :=
  st id id fun s => { s with dies := s.dies.set 3 { Die.reset with vstate := capRunning, vctl := 1#64, wptr := 65535, queue := [(rec0, none), (rec0, none)] }
                             input := { s.input with die := 3#2, val := 0xF0#64 } }

/-- Writes of all ones to the last of each kind of register; the partition of a core that another context holds; the table with a reserved bit and with
every valid one; TERMQ empty and with an entry; EN = 0 with records queued. -/
theorem witness_RegisterWritesActOnTheirUnit :
    s0.dies.length = 4 ∧
    (let o := sDrain.die sDrain.input.die.toNat
     sDrain.dies.length = 4 ∧ sDrain.input.val.toNat % 2 = 0 ∧ o.vstate = capRunning ∧ o.made = [] ∧ o.wptr < 65536 ∧ o.queue.length ≤ 256 ∧
      (∀ x ∈ o.queue, x.2 = none) ∧ o.queue[1]? = some (rec0, none)) ∧
    (heldByOther (sIn fun q => { q with val := 0x1006#64 }) 0 6#12) ∧ (¬heldByOther s0 0 5#12) ∧
    (s0.routes.length = 512 ∧ (0x40000#64 : Dword) &&& 0xFFFFFFFF3FFC0000#64 ≠ 0#64 ∧ (0xC003FFFF#64 : Dword) &&& 0xFFFFFFFF3FFC0000#64 = 0#64) ∧
    (∀ n ∈ [3, 4], let s := st id id fun s => { s with dawn := { s.dawn with step := n } }
      (4 ≤ s.dawn.step ↔ n = 4)) ∧
    ((st id id fun s => { s with unacked := [(5#12, 0x40018)], input := { s.input with val := 5#64 } }).input.val.setWidth 12 = 5#12) ∧
    (s0.termq = [] ∧ (st id id fun s => { s with termq := [5#12, 6#12] }).termq = 5#12 :: [6#12]) ∧
    ((sReg (DevReg.filter 3#2)).input.reg = .filter 3#2 ∧ (sReg (DevReg.blkid0 3#2)).input.reg = .blkid0 3#2 ∧ (sReg (DevReg.hangwd 3#2)).input.reg = .hangwd 3#2 ∧
      (sReg (DevReg.stopbrk 3#2 63#6)).input.reg = .stopbrk 3#2 63#6 ∧ ((sReg (DevReg.stopbrk 3#2 63#6)).die 3).stopbrk.length = 64 ∧
      (sReg (DevReg.cerr 3#2 20#5)).input.reg = .cerr 3#2 20#5 ∧ (s0.die 3).cerr.length = 21 ∧ (sReg DevReg.hint).input.reg = .hint ∧
      (sReg (DevReg.invaddr .host)).input.reg = .invaddr .host) ∧
    ((s0.inval .host).busy = false ∧ (sInval true).invHost.busy = true) ∧
    ((5#3 : BitVec 3).toNat < 6 ∧ (s0.core 1023).cmp.length = 6 ∧ (sReg (DevReg.cmpCtl 1023#10 5#3)).input.reg = .cmpCtl 1023#10 5#3 ∧
      (sReg (DevReg.cmpAddr 1023#10 5#3)).input.reg = .cmpAddr 1023#10 5#3) ∧
    ((s0.core 1023).stall.length = 16 ∧ (sReg (DevReg.stall 1023#10 15#4)).input.reg = .stall 1023#10 15#4) := by
  refine ⟨by decide, by decide +kernel, ?_, ?_, by decide +kernel, by decide, by decide, by decide +kernel, by decide +kernel, by decide +kernel, by decide +kernel, by decide +kernel⟩
    <;> unfold heldByOther <;> decide +kernel

/-- The block of the small state named by BLKID0, stopped or not. -/
def sHalt (stopped : Bool) (x : Option (Nat × Nat × Nat × Dword)) (parked : Bool) : State :=
  st (fun t => { t with parked := parked, run := { t.run with count := 1 } }) (fun b => { b with stopped := stopped, stopping := x })
    fun s => { s with dies := s.dies.set 3 { Die.reset with blkid0 := 0x30000#64 }, input := { s.input with die := 3#2 } }
/-- A watchdog of one unit, at the clock `n`. -/
def sHang (lim : BitVec 16) (n : Nat) : State :=
  st id id fun s => { s with clock := n, dies := s.dies.set 0 { Die.reset with hangwd := lim.setWidth 64 } }

/-- A sample beyond the sensor's range, its largest, both sides of each threshold; a countdown that has not expired and one that has; a block that
runs and one stopped, with a copy outstanding and none; a stop whose team runs, whose team waits, and whose team's results are not written; the watchdog off, a cycle early and due; no signature and one at the last
offset. -/
theorem witness_UnitsSampleExpireAndStop :
    (∀ p ∈ [(16, 0x10), (15, 0xC81), (15, 0xC80), (0, 0x6E0), (0, 0x6DF), (0, 0x690), (0, 0x68F)], let s := sIn fun q =>
        { q with die := 3#2, idx := BitVec.ofNat 32 p.1, val := BitVec.ofNat 64 p.2 }
      let d := s.die s.input.die.toNat
      s.dies.length = 4 ∧ d.sens.length = 16 ∧ d.armed.length = 16 ∧ s.input.idx.toNat = p.1 ∧ (s.input.val.setWidth 16).toNat = p.2) ∧
    (∀ k ∈ [100, 101], let s := st id id fun s => { s with dies := s.dies.set 3 { Die.reset with tickEnd := some k } }
      s.dies.length = 4 ∧ (s.die (3#2 : BitVec 2).toNat).tickEnd = some k ∧ s.clock = 100) ∧
    (∀ y ∈ [true, false], let s := sHalt y none true
      Named s s.input.die.toNat s.input.idx (bk s) ∧ (bk s).stopped = y ∧ ¬((∃ c ∈ s.copies, c.b = (bk s).id) ∨ ∃ z ∈ (bk s).tiles, z.ops ≠ [])) ∧
    (let s := { sHalt true none true with copies := [copy0] }
     Named s s.input.die.toNat s.input.idx (bk s) ∧ (bk s).stopped = true ∧ ∃ c ∈ s.copies, c.b = (bk s).id) ∧
    (∀ r ∈ [false, true], let s := sHalt true (some (1, 5, 0, 0x20#64)) r
      s.block? 0 = some (bk s) ∧ (bk s).id = 0 ∧ (bk s).stopping = some (1, 5, 0, 0x20#64) ∧ (bk s).team? 0 = some (tk s) ∧
      if r = false then ∃ u ∈ (bk s).teams, ¬standsR u else ∀ u ∈ (bk s).teams, standsR u) ∧
    (let s := st (fun t => { t with parked := true, run := ⟨4, [⟨.w 63 5#64, 101⟩], true, 0⟩ }) (fun b => { b with stopped := true, stopping := some (1, 5, 0, 0x20#64) }) id
     (bk s).stopping = some (1, 5, 0, 0x20#64) ∧ ∃ u ∈ (bk s).teams, ¬standsR u) ∧
    (∀ p ∈ [(0#16, 100), (1#16, 65535), (1#16, 65536)], let s := sHang p.1 p.2
      let lim := (s.die (0#2 : BitVec 2).toNat).hangwd.toNat % 65536
      s.dies.length = 4 ∧ s.ctx? 5#12 = some ctx0 ∧ (∀ b ∈ s.blocks, b.tag = 5#12 → b.stopped = false) ∧
      (∃ b ∈ s.blocks, b.tag = 5#12 ∧ b.bureau = none ∧ b.place = .resident ∧ b.core / 256 = (0#2 : BitVec 2).toNat) ∧
      (if p.2 = 65536 then lim ≠ 0 ∧ ctx0.alive.getD 0 0 + 65536 * lim ≤ s.clock else lim = 0 ∨ s.clock < ctx0.alive.getD 0 0 + 65536 * lim)) ∧
    (s0.signing = none ∧ (0x3FF80 + 128 ≤ 0x40000 ∧ s0.migrations = [])) := by
  refine ⟨?_, ?_, ?_
    , ⟨⟨by decide +kernel, by decide +kernel, by decide +kernel, by decide +kernel, by decide +kernel⟩, by decide +kernel⟩, ?_, ?_, ?_, by decide +kernel⟩
  · intro p hp
    fin_cases hp <;> decide +kernel
  · intro k hk
    fin_cases hk <;> decide +kernel
  · intro y hy
    fin_cases hy <;> exact ⟨⟨by decide +kernel, by decide +kernel, by decide +kernel, by decide +kernel, by decide +kernel⟩, by decide +kernel⟩
  · intro r hr
    fin_cases hr <;> simp only [standsR] <;> decide +kernel
  · simp only [standsR]; decide +kernel
  · intro p hp
    fin_cases hp <;> decide +kernel

/-- A dispatch of two blocks over cores 0 and 1, core 0 taken by the block of the small state, core 1 in the partition of context `g` or of none. -/
def disp0 : Dispatch := { Dispatch.probe with id := 60, tag := 5#12, total := 2, count := 2, args := [1#64], shape := { Dispatch.probe.shape with entry := 12#56 } }
def sPlace (x : Dispatch) (l : List (Nat × BitVec 13)) : State :=
  st id id fun s => { s with dispatches := [x], parts := l, blocks := s.blocks.map fun b => { b with spadSize := 0x40000 } }

/-- A dispatch of one pair over cores 1 to 4. -/
def pair0 : Dispatch := { disp0 with pair := true, first := 1, count := 4, cursor := 1 }

/-- The first core is taken and the second fits; a pair whose first fit is cores 2 and 3, and one that fits none now; a node held by a cluster of which the context has no core fits elsewhere; neither fits; the partition holds no core; the dispatch is on its way to another cluster. -/
theorem witness_BlocksArePlacedWhereTheyFit :
    (let s := sPlace disp0 [(0, 0x1005#13), (1, 0x1005#13)]
     Placeable s 60 disp0 1 ∧ disp0.args.length ≤ 64 ∧ 32 * disp0.shape.wm ≤ 1024) ∧
    (let x := { disp0 with kind := .node, node := some 3, tree := some 70, held := some 0, first := 4, count := 1, cursor := 4, total := 1 }
     Placeable (sPlace x [(4, 0x1005#13)]) 60 x 4) ∧
    (let s := sPlace disp0 [(0, 0x1005#13), (1, 0x1006#13)]
     s.dispatches.find? (fun y => y.id = 60) = some disp0 ∧ s.mayPlace disp0 = true ∧ disp0.pair = false ∧ disp0.next < disp0.total ∧
      (∀ c ∈ scanR s disp0, s.fits disp0.tag disp0.shape c = false) ∧ s.neverFits disp0 = false) ∧
    (let s := sPlace disp0 []
     s.dispatches.find? (fun y => y.id = 60) = some disp0 ∧ s.mayPlace disp0 = true ∧ disp0.next = 0 ∧ disp0.num = 0 ∧ disp0.kind ≠ .node ∧
      s.neverFits disp0 = true ∧ disp0.future = none) ∧
    (let x := { disp0 with flying := true }
     let s := sPlace x [(0, 0x1005#13), (1, 0x1005#13)]
     s.dispatches.find? (fun y => y.id = 60) = some x ∧ s.mayPlace x = false ∧ x.next = 0 ∧ x.num = 0 ∧ s.neverFits x = false) ∧
    (let s := sPlace pair0 [(2, 0x1005#13), (3, 0x1005#13), (4, 0x1005#13)]
     PairPlaceable s 60 pair0 2 ∧ pair0.args.length ≤ 64 ∧ 32 * pair0.shape.wm ≤ 1024) ∧
    (let s := { sPlace pair0 [(2, 0x1005#13), (3, 0x1005#13)] with blocks := [{ block0 with core := 2, spadSize := 0x40000 }] }
     s.dispatches.find? (fun y => y.id = 60) = some pair0 ∧ s.mayPlace pair0 = true ∧ pair0.next < pair0.total ∧ pair0.pair = true ∧
      (∀ c ∈ scanR s pair0, ¬pairFits s pair0 c) ∧ s.neverFits pair0 = false) :=
  ⟨⟨⟨by decide +kernel, by decide +kernel, by decide +kernel, by decide +kernel, ⟨[0], [], by decide +kernel⟩, by decide +kernel⟩, by decide +kernel⟩
    , ⟨by decide +kernel, by decide +kernel, by decide +kernel, by decide +kernel, ⟨[], [], by decide +kernel⟩, by decide +kernel⟩
    , by decide +kernel, by decide +kernel, by decide +kernel
    , ⟨⟨by decide +kernel, by decide +kernel, by decide +kernel, by decide +kernel, ⟨[1], [3, 4], by decide +kernel, by simp only [pairFits]; decide +kernel⟩
      , by simp only [pairFits]; decide +kernel⟩, by decide +kernel⟩
    , by decide +kernel, by decide +kernel, by decide +kernel, by decide +kernel, by simp only [pairFits]; decide +kernel, by decide +kernel⟩

/-- The block of the small state with its team ended, with a fault, or of a Bureau. -/
def sEnd (f : Option (Cause × BitVec 56 × Nat)) (e : Option Nat) : State := st (fun t => { t with ended := true }) (fun b => { b with fault := f, bureau := e }) id
theorem spentOf {s : State} (h : s.block? 0 = some (bk s) ∧ (bk s).place = .resident ∧ (∀ t ∈ (bk s).teams, t.ended = true ∧ t.run.writes = [] ∧ t.ops = []) ∧
    (∀ z ∈ (bk s).tiles, z.ops = []) ∧ (∀ c ∈ s.copies, c.names (bk s).id = false) ∧ (∀ m ∈ s.nmsgs, m.r.b ≠ (bk s).id) ∧
    s.reached (bk s).id = false) : Spent s 0 (bk s) := ⟨h.1, h.2.1, h.2.2.1, h.2.2.2.1, h.2.2.2.2.1, h.2.2.2.2.2.1, h.2.2.2.2.2.2⟩

/-- A steal of the last cluster from cluster 0, for cores of which the last has everything free. -/
def steal0 : Steal := { thief := 255, victim := 0, cores := List.replicate 4 { CoreFree.empty with tag := some 5#12 } }
def sSteal (l : List Steal) (c : Nat) : State :=
  st id id fun s => { s with steals := l, dispatches := [{ disp0 with held := some c }, { disp0 with id := 61, kind := .node, node := some 3, held := some c }] }

/-- The block is the last member of its launch, of one where a phase has faulted, in a cancelled graph, of bad members before. -/
def levelLast (n : Nat) (c : Bool) (bad : Nat) : Level := { level0 with counter := n, cancelled := c, bad := bad, ndone := 2 ^ 25 - 1 }
def ctxLast (n : Nat) (c : Bool) (bad : Nat) : Ctx := { ctx0 with levels := [levelLast n c bad] }
def sLast (f : Option (Cause × BitVec 56 × Nat)) (n : Nat) (c : Bool) (bad : Nat) : State := { sEnd f none with ctxs := [ctxLast n c bad] }
/-- The block is a task's with the last future of die 3, done, faulted or reclaimed; held or not. -/
def futEnd (h : Bool) : Future :=
  { id := 9, gen := 0xFFFFFFFF#32, owner := some 5#12, st := .pending, value := 0#64, pcount := 0, task := 0x1000000030000#48, count := 65535
    addr := if h then 0x1000000000040 else 0x100000040, slot := 0, tag := 5#12 }
def sFutEnd (f : Option (Cause × BitVec 56 × Nat)) (r h : Bool) : State :=
  let s := sEnd f none
  { s with dies := s.dies.set 3 { Die.reset with futures := [(65535, futEnd h)] }, routeHolds := if h then [(1, 40)] else []
           blocks := s.blocks.map (fun b => { b with future := some (3, 9), pcount := 65535, reclaim := r })
             ++ [{ block0 with id := 1, core := 1, teams := [{ team0 with ops := [farOp] }] }] }
/-- The block is that of the leaf of an upward sweep, done, faulted or cut by a cancel. -/
def treeEnd (c : Bool) : Tree := { tree0 false .sweeping .running with nodes := [{ node0 with st := .opened }, node1 .running], cancelled := c }
def sNodeEnd (f : Option (Cause × BitVec 56 × Nat)) (c : Bool) : State :=
  let s := sEnd f none
  { s with trees := [treeEnd c], blocks := s.blocks.map fun b => { b with tree := some 70, node := some 1, cancelled := c } }

/-- A block done and one faulted; the last member of a launch, done, faulted after others, cancelled, and in a level whose counter is 0; a task's block;
a tree node's block; of a Bureau; a team that still runs; a cluster with work, with a request out, and idle; a reply
that no request awaits, and one with a launch and a node to give. -/
theorem witness_BlocksEndAndDispatchesMove :
    (∀ f ∈ [none, some (Cause.swtrap, 0#56, 0)], let s := sEnd f none
      Spent s 0 (bk s) ∧ (bk s).bureau = none ∧ (bk s).tree = none ∧ (bk s).future = none ∧ (bk s).holds = [] ∧ s.ctx? (bk s).tag = some ctx0 ∧
      ctx0.level? (bk s).slot = some level0 ∧ level0.complete = false ∧ 1 < level0.counter) ∧
    (∀ p ∈ [(none, 1, false, 0), (some (Cause.swtrap, 0#56, 0), 1, false, 3), (none, 1, true, 0), (none, 0, false, 0)], let s := sLast p.1 p.2.1 p.2.2.1 p.2.2.2
      Spent s 0 (bk s) ∧ (bk s).bureau = none ∧ (bk s).tree = none ∧ (bk s).future = none ∧ (bk s).holds = [] ∧
      s.ctx? (bk s).tag = some (ctxLast p.2.1 p.2.2.1 p.2.2.2) ∧ (ctxLast p.2.1 p.2.2.1 p.2.2.2).level? (bk s).slot = some (levelLast p.2.1 p.2.2.1 p.2.2.2) ∧
      (levelLast p.2.1 p.2.2.1 p.2.2.2).complete = false ∧ (levelLast p.2.1 p.2.2.1 p.2.2.2).counter ≤ 1) ∧
    (∀ p ∈ [(none, false, false), (some (Cause.swtrap, 0#56, 0), false, true), (none, true, false)], let s := sFutEnd p.1 p.2.1 p.2.2
      Spent s 0 (bk s) ∧ (bk s).bureau = none ∧ (bk s).tree = none ∧ (bk s).holds = [] ∧ (bk s).future = some (3, 9) ∧ 3 < s.dies.length ∧
      (s.die 3).futures.find? (fun q => q.2.id == 9 && q.2.owner.isSome) = some (65535, futEnd p.2.2) ∧ (futEnd p.2.2).st = .pending ∧
      s.held (futEnd p.2.2).addr = p.2.2 ∧ s.unitQ = [] ∧ s.migrations = [] ∧ (bk s).pcount < 2 ^ 16) ∧
    (∀ p ∈ [(none, false), (some (Cause.swtrap, 0#56, 0), false), (none, true)], let s := sNodeEnd p.1 p.2
      Spent s 0 (bk s) ∧ (bk s).bureau = none ∧ (bk s).future = none ∧ (bk s).holds = [] ∧ nodeBlock s (bk s) (treeEnd p.2) (node1 .running) ∧
      (bk s).fault = p.1 ∧ (bk s).dying = p.2 ∧ (treeEnd p.2).down = false ∧ (node1 .running).entry = some 1 ∧ hasEntry (treeEnd p.2) 1 ∧
      parentsR (treeEnd p.2) 1 [0] ∧ (treeEnd p.2).cancelled = p.2 ∧ ((treeEnd p.2).nodes.filter fun z => z.st = .running).map (fun z => z.idx) = [1] ∧
      ((s.ctx? (treeEnd p.2).tag).bind fun c => c.level? (treeEnd p.2).slot) = some level0) ∧
    (let s := sEnd none (some 3)
     Spent s 0 (bk s) ∧ (bk s).bureau.isSome = true) ∧
    (s0.block? 0 = some (bk s0) ∧ ∃ t ∈ (bk s0).teams, t.ended = false ∨ t.ops ≠ [] ∨ t.run.writes ≠ []) ∧
    (∃ d ∈ (sSteal [] 255).dispatches, d.held = some 255) ∧ (∃ q ∈ (sSteal [steal0] 0).steals, q.thief = 255) ∧
    (let s := sSteal [] 0
     (∀ d ∈ s.dispatches, d.held ≠ some 255) ∧ (∀ q ∈ s.steals, q.thief ≠ 255) ∧ ∃ i, i < 4 ∧ 0 < (s.coreFree (4 * 255 + i)).teams) ∧
    (let s := sSteal [steal0] 0
     s.steals.find? (fun y => y.thief = 255) = some steal0 ∧ (s.dispatches.map fun d => d.id).Nodup ∧
      ∃ d ∈ s.dispatches, (d.held = some 0 ∧ d.flying = false ∧ ∃ k ∈ steal0.cores, k.tag = some d.tag ∧ k.fits d.shape = true) ∧ d.kind = .node) := by
  refine ⟨?_, ?_, ?_, ?_, ⟨spentOf (by decide +kernel), by decide +kernel⟩, by decide +kernel, by decide +kernel, by decide +kernel
    , ⟨by decide +kernel, by decide +kernel, 3, by decide, by decide +kernel⟩, by decide +kernel⟩
  · intro f hf
    fin_cases hf <;> exact ⟨spentOf (by decide +kernel), by decide +kernel⟩
  · intro p hp
    fin_cases hp <;> exact ⟨spentOf (by decide +kernel), by decide +kernel⟩
  · intro p hp
    fin_cases hp <;> exact ⟨spentOf (by decide +kernel), by decide +kernel⟩
  · intro p hp
    fin_cases hp <;> exact ⟨spentOf (by decide +kernel), by decide +kernel, by decide +kernel, by decide +kernel
      , ⟨70, 1, by decide +kernel, by decide +kernel, by decide +kernel, by decide +kernel⟩, by decide +kernel, by decide +kernel, by decide +kernel
      , by decide +kernel, ⟨_, rfl, rfl⟩, ⟨⟨_, rfl, rfl⟩, trivial⟩, by decide +kernel⟩

/-- A team with a pending result and with the results of an ended run. -/
def sPend (ready : Option (List RegWrite)) : State := st (fun t => { t with pend := [⟨7, [.w 63], ready, false, false⟩] }) id id
def sRun (e : Bool) (l : List RunWrite) : State := st (fun t => { t with run := ⟨4, l, e, 0⟩ }) id id
/-- No write of the list is one of the context's vectors. -/
def plain (w : RegWrite) : Prop := ∀ v, w ≠ .ctl 24 v ∧ w ≠ .ctl 25 v

/-- A team that has raised a trap, with the frame free; with a result outstanding; with no handler installed; inside its handler. -/
def trap0 : TrapReq := { cause := .swtrap, info := 63, pc := 0x24#56, resume := 0x30#56, lanes := [], extn := none, misrec := 0#64 }
def sTrap (w : List RunWrite) (hd : Option Nat) (vec : Dword) : State :=
  st (fun t => { t with trap := some trap0, handler := hd, run := ⟨4, w, true, 0⟩ }) id fun s => { s with ctxs := [{ ctx0 with trapvec := vec }] }
/-- That team has claimed frame 0 and waits for a network reduction's result, in a block that is reclaimed or not. -/
def sReduced (y : Bool) : State :=
  st (fun t => { t with trap := some trap0, frame := some 0, run := ⟨4, [], true, 0⟩, pend := [⟨9, [.w 8, .w 9], none, true, false⟩] })
    (fun b => { b with reclaim := y }) fun s => { s with ctxs := [{ ctx0 with claimed := [0] }] }
/-- A Bureau's team with an interrupt and an event pending. -/
def sIntr (i : BitVec 17) (e : BitVec 4) (hd : Option Nat) : State :=
  st (fun t => { t with handler := hd }) (fun b => { b with bureau := some 3 })
    fun s => { s with dies := s.dies.set 3 { Die.reset with istat := i, evstat := e, trapvec := 12#64 } }

/-- Results that are ready and are not; runs that go on, that wait for the next cycle, and whose result is due; the vectors; traps as named above; an
interrupt of a task's team, in a handler, none pending, and one taken. -/
theorem witness_ResultsTrapsAndInterruptsArrive :
    (∀ y ∈ [none, some [RegWrite.w 63 5#64], some [.w 62 5#64, .w 63 6#64]], let s := sPend y
      s.team? ⟨0, 0⟩ = some (bk s, tk s) ∧ (tk s).pend.find? (fun q => q.id = 7) = some ⟨7, [.w 63], y, false, false⟩) ∧
    plain (.w 63 5#64) ∧
    (∀ p ∈ [(false, 100), (true, 101), (true, 100)], let s := sRun p.1 [⟨.w 63 5#64, p.2⟩]
      s.team? ⟨0, 0⟩ = some (bk s, tk s) ∧ (tk s).run.ended = p.1 ∧ (tk s).run.writes = [⟨.w 63 5#64, p.2⟩] ∧ s.clock = 100) ∧
    (∀ k ∈ [24, 25], let s := sRun true [⟨.ctl k 36#64, 100⟩]
      s.team? ⟨0, 0⟩ = some (bk s, tk s) ∧ (tk s).run.ended = true ∧ (tk s).run.writes = [⟨.ctl k 36#64, 100⟩] ∧ (100 : Nat) ≤ s.clock ∧ (bk s).bureau = none ∧
      (tk s).trap = none ∧ (s.ctx? (bk s).tag).isSome = true) ∧
    (let s := sTrap [] none 12#64
     s.team? ⟨0, 0⟩ = some (bk s, tk s) ∧ (bk s).live = true ∧ (tk s).trap = some trap0 ∧ FrameReady s (bk s) (tk s) trap0.cause 0 0x100020000) ∧
    (let s := sTrap [⟨.w 63 5#64, 101⟩] none 12#64
     s.team? ⟨0, 0⟩ = some (bk s, tk s) ∧ (bk s).live = true ∧ (tk s).trap = some trap0 ∧ ∃ w ∈ (tk s).run.writes, w.write = .w 63 5#64) ∧
    (∀ p ∈ [(none, 0#64), (some 0, 12#64), (none, 8#64)], let s := sTrap [] p.1 p.2
      s.team? ⟨0, 0⟩ = some (bk s, tk s) ∧ (bk s).live = true ∧ (tk s).trap = some trap0 ∧ (tk s).run.writes = [] ∧ (tk s).frame = none ∧
      (installed (s.vectorOf (bk s) trap0.cause) = false ∨ (tk s).handler.isSome = true)) ∧
    (∀ y ∈ [false, true], let s := sReduced y
      s.team? ⟨0, 0⟩ = some (bk s, tk s) ∧ (bk s).live = true ∧ (tk s).trap = some trap0 ∧ (tk s).frame = some 0 ∧ (tk s).run.writes = [] ∧
      (bk s).dying = y ∧ ∃ p ∈ (tk s).pend, p.nred = true ∧ p.awaited = true) ∧
    (s0.team? ⟨0, 0⟩ = some (bk s0, tk s0) ∧ (bk s0).bureau = none) ∧
    (let s := { sIntr 0x10000#17 0#4 none with movers := [⟨0, 0⟩] }
     s.team? ⟨0, 0⟩ = some (bk s, tk s) ∧ ⟨0, 0⟩ ∈ s.movers) ∧
    (let s := st (fun t => { t with defer := some trap0 }) (fun b => { b with bureau := some 3 }) id
     s.team? ⟨0, 0⟩ = some (bk s, tk s) ∧ (bk s).bureau.isSome = true ∧ (tk s).defer.isSome = true) ∧
    (let s := sIntr 0#17 0#4 none
     s.team? ⟨0, 0⟩ = some (bk s, tk s) ∧ (bk s).bureau = some 3 ∧ (s.die 3).istat = 0#17 ∧ (s.die 3).evstat = 0#4) ∧
    (∀ p ∈ [(0x10000#17, 0#4), (0#17, 1#4)], let s := sIntr p.1 p.2 none
      s.team? ⟨0, 0⟩ = some (bk s, tk s) ∧ (bk s).bureau = some 3 ∧ ((s.die 3).istat ≠ 0#17 ∨ (s.die 3).evstat ≠ 0#4) ∧ (tk s).ended = false ∧
      (tk s).trap = none ∧ (tk s).defer = none ∧ (tk s).wait = none ∧ ((tk s).run.ended = true ∨ (tk s).run.count = 0) ∧ ⟨0, 0⟩ ∉ s.movers ∧
      FrameReady s (bk s) (tk s) .intr 0 0x8002F00F0000) := by
  have pl : plain (.w 63 5#64) := fun v => ⟨by simp, by simp⟩
  refine ⟨?_, pl, ?_, ?_, ⟨by decide +kernel, by decide +kernel, by decide +kernel, ⟨by decide +kernel, by decide +kernel, by decide +kernel, by decide +kernel, by decide +kernel, by decide +kernel, by decide +kernel
      , ⟨pageOf 0x20000, by decide +kernel, by decide +kernel, by decide +kernel⟩, by decide +kernel, forSome ctx0 (by decide +kernel) (by decide +kernel)
      , by decide +kernel, by decide +kernel⟩⟩, by decide +kernel, ?_, ?_, by decide +kernel, by decide +kernel, by decide +kernel, by decide +kernel, ?_⟩
  · intro y hy
    fin_cases hy <;> decide +kernel
  · intro p hp
    fin_cases hp <;> decide +kernel
  · intro k hk
    fin_cases hk <;> decide +kernel
  · intro p hp
    fin_cases hp <;> decide +kernel
  · intro y hy
    fin_cases hy <;> decide +kernel
  · intro p hp
    fin_cases hp <;> exact ⟨by decide +kernel, by decide +kernel, by decide +kernel, by decide +kernel, by decide +kernel, by decide +kernel, by decide +kernel, by decide +kernel
      , by decide +kernel, ⟨by decide +kernel, by decide +kernel, by decide +kernel, by decide +kernel, by decide +kernel, by decide +kernel, by decide +kernel, ⟨⟨0x8002F00C0000, 0x40000, 0x8002F00C0000, true, true, false, true⟩, by decide +kernel, by decide +kernel, by decide +kernel⟩
        , by decide +kernel, forNone (by decide +kernel), by decide +kernel, by decide +kernel⟩⟩

/-- The host's read or write at an address, after Dawn's last step, with a poisoned line or none. -/
def sHost (q : HostReq) (l : List Nat) : State :=
  st id id fun s => { s with dawn := { s.dawn with step := 6 }, poison := l, input := { s.input with host := q } }
/-- A load, a store or a swap whose lane's home is module 5. -/
def opFar (k : AccKind) : MemOp := { op0 k 0 0 with lanes := [⟨0, 0x20, some (5 * 2 ^ 48), false, 0, 0, 0⟩] }

/-- Reads and writes of the last byte of HBM and of the byte above it, of a poisoned line, and of the fabric page's last register; accesses of another
module to the last dword of HBM; an own access whose home is another module, and one returned; a line that moves back to itself, one that an access
carries, one that moves already, and one that moves; each request of the board bus. -/
theorem witness_OutsideAccessesAreAnswered :
    ((sHost (.read (2 ^ 39) 1) []).hostMay (2 ^ 39) 1 = false ∧ (sHost (.write (2 ^ 39) [1#8]) []).hostMay (2 ^ 39) [1#8].length = false) ∧
    (∀ l ∈ [[], [0x1FFFFFFFF]], let s := sHost (.read (2 ^ 39 - 1) 1) l
      s.input.host = .read (2 ^ 39 - 1) 1 ∧ 6 ≤ s.dawn.step ∧ 2 ^ 39 - 1 + 1 ≤ 2 ^ 39 ∧ s.migrations = [] ∧
      s.hostMay (2 ^ 39 - 1) 1 = true ∧ (if l = [] then s.poison = [] else s.localPa (2 ^ 39 - 1 + 0) / 64 ∈ s.poison)) ∧
    (let a := fabricPage + 0x1FF8
     (sHost (.read a 8) []).hostMay a 8 = true ∧ isRegister a = true ∧ inPorts a = false ∧ a % 8 = 0 ∧
      (sHost (.write a (natBytes 8 1)) []).hostMay a (natBytes 8 1).length = true) ∧
    ((sHost (.write (2 ^ 39 - 1) [1#8]) []).input.host = .write (2 ^ 39 - 1) [1#8] ∧ 6 ≤ (sHost (.write (2 ^ 39 - 1) [1#8]) []).dawn.step ∧ [1#8] ≠ [] ∧
      2 ^ 39 - 1 + [1#8].length ≤ 2 ^ 39) ∧
    (let a := 2 ^ 39 - 8
     a / 2 ^ 48 % 512 = s0.pod.toNat ∧ s0.migrations = [] ∧ a % 2 ^ 48 + 8 ≤ 2 ^ 39 ∧ a % 2 ^ 48 + (natBytes 8 1).length ≤ 2 ^ 39 ∧ natBytes 8 1 ≠ [] ∧
      (10#4 : BitVec 4).toNat ≤ 10 ∧ is64 6#4 = true ∧ a % 8 = 0) ∧
    (∀ k ∈ [AccKind.load, .store, .atom], ∀ p ∈ [([], false), ([(5, 0)], true)], let s := { sOp (opFar k) with input := { Input.zero with fab := .own ⟨0, 0⟩ 7 }, routeHolds := p.1 }
      let l : LaneAcc := ⟨0, 0x20, some (5 * 2 ^ 48), false, 0, 0, 0⟩
      s.input.fab = .own ⟨0, 0⟩ 7 ∧ s.dueOp ⟨0, 0⟩ 7 = some (bk s, tk s, opFar k) ∧ (bk s).bureau = none ∧ (opFar k).sp = false ∧ unheld s (tk s) (opFar k) ∧
      (∀ p ∈ (tk s).ops.takeWhile (fun p => p.id != 7), ∀ l ∈ (opFar k).lanes, s.lineHolds p l = false) ∧
      s.moduleHeld (s.homeModule (5 * 2 ^ 48)) (opFar k).id = false ∧ (opFar k).lanes = [l] ∧ 5 * 2 ^ 48 % 64 + (opFar k).size ≤ 64 ∧ paModule (s.home (5 * 2 ^ 48)) ≠ s.pod.toNat ∧ (opFar k).kind = k ∧
      s.returned (opFar k) l = p.2 ∧ (tk s).defer = none ∧ (tk s).ended = false) ∧
    (∀ y ∈ [true, false], let s : State := { sIn fun q => { q with mig := ⟨0x40, 0x40⟩ } with
        tlb1 := if y then [(0, [{ page0 0 with frame := 0 }])] else [], migrations := [(1, 9)] }
      s.input.mig.src / 64 = s.input.mig.dst / 64 ∧ s.carried (s.input.mig.src / 64) = y) ∧
    (let s : State := { sIn fun q => { q with mig := ⟨0x40, 0x80⟩ } with migrations := [(1, 9)] }
     s.input.mig.src / 64 ≠ s.input.mig.dst / 64 ∧ ∃ p ∈ s.migrations, p.1 = s.input.mig.src / 64) ∧
    (let s : State := { sIn fun q => { q with mig := ⟨0x40, 0x80⟩ } with migrations := [(3, 1)] }
     s.input.mig.src / 64 ≠ s.input.mig.dst / 64 ∧ ∀ p ∈ s.migrations, p.1 ≠ s.input.mig.src / 64 ∧ p.2 ≠ s.input.mig.dst / 64 ∧
       (p.1 = s.input.mig.dst / 64 → p.2 = s.input.mig.src / 64)) ∧
    (∀ q ∈ [I3cReq.dawnStatus, .identityKey, .sens 3#2 15#4, .pwr 3#2, .cerr 3#2 20#5, .evstat 3#2, .request (List.replicate 64 1#8)],
      (sIn fun x => { x with i3c := q }).input.i3c = q) ∧ (List.replicate 64 1#8).length = 64 := by
  refine ⟨by decide +kernel, ?_, by decide +kernel, by decide +kernel, by decide +kernel, ?_, ?_, by decide +kernel, by decide +kernel, ?_, by decide⟩
  · intro l hl
    fin_cases hl <;> decide +kernel
  · intro k hk p hp
    fin_cases hk <;> fin_cases hp <;> exact ⟨by decide +kernel, by decide +kernel, by decide +kernel, by decide +kernel, ⟨by decide +kernel, by decide +kernel⟩, by decide +kernel⟩
  · intro y hy
    fin_cases hy <;> decide +kernel
  · intro q hq
    fin_cases hq <;> rfl

/-- Dawn before each of its steps, with the images that are in the flash. -/
def image0 (e : Nat) : Image :=
  { die := e, magic := 0, length := 3, load := sramBase e, entry := 12, param := 0x100, version := 1, key := List.replicate 1952 0#8, sig := List.replicate 3309 0#8
    bytes := [1#8, 2#8, 3#8] }
def sDawn (n : Nat) (f : Option Nat) (l : List Image) : State := st id id fun s => { s with dawn := { s.dawn with step := n, failed := f, flash := l } }

/-- Dawn after its last step and after a failure; the last entry that the log's area holds; every step; a die without an image; four images. Whether an image is verified is a free value. -/
theorem witness_DawnBringsTheModuleUp :
    ((sDawn 2 (some 3) []).dawn.failed.isSome = true ∧ 6 ≤ (sDawn 6 none []).dawn.step) ∧
    (let x := List.replicate 80 1#8
     let s := st id id fun s => { s with dawn := { s.dawn with step := 6, log := 203 }, input := { s.input with reg := .measured x } }
     s.input.reg = .measured x ∧ s.dawn.step = 6 ∧ x.length = 80 ∧ 80 * (s.dawn.log + 1) ≤ 0x4000) ∧
    (∀ n ∈ [0, 1, 2, 3, 4, 5], let s := sDawn n none ((List.range 4).map image0)
      s.dawn.failed = none ∧ s.dawn.step = n ∧ flashed s image0) ∧
    (let s := sDawn 1 none []
     s.dawn.failed = none ∧ s.dawn.step = 1 ∧ s.imageOk 0 = false) := by
  refine ⟨by decide +kernel, by decide +kernel, ?_, by decide +kernel⟩
  intro n hn
  fin_cases hn <;> exact ⟨rfl, rfl, fun e he => by interval_cases e <;> rfl⟩

/-- The specification of context 6, and the machine without and with Dawn's last step. -/
def spec0 : CtxSpec :=
  { CtxSpec.zero with tag := 6#12, frames := 16384, rsize := 65536, pattern := natBytes 64 (12 * 2 ^ 392) }
def sSpec (n : Nat) : State := st id id fun s => { s with dawn := { s.dawn with step := n }, input := { s.input with ctx := spec0 } }
/-- Context 5 without its block. -/
def sBare (f : Input → Input) : State := { sIn (fun q => f { q with idx := 5#32 }) with blocks := [], tlb1 := [] }
def sErr (e : ErrAt) (l : List (BitVec 12 × Nat)) : State := { sIn fun q => { q with err := e } with unacked := l }
/-- An error in a unit while the L1 of core 1023 holds a line of context 5. -/
def sL1 (u : EntryUnit) : State := { sErr (.entry u 3#2 4095#12 7 5#12) [] with l1 := [(1023, [(5#12, 7)])] }

/-- Before Dawn's last step and after it; a context with a block and one without work; an error of no context, of one whose report is not
acknowledged, of a context; units that hold an entry of it and that do not; an L2 line that is not held; an HBM line without a requester. -/
theorem witness_ContextsBeginAndEnd :
    ((sSpec 5).mayCreate (sSpec 5).input.ctx = false ∧ (sSpec 6).mayCreate (sSpec 6).input.ctx = true ∧ (sSpec 6).dies.length = 4) ∧
    (let s := sIn fun q => { q with idx := 5#32 }
     s.ctx? (s.input.idx.setWidth 12) = some ctx0 ∧ ∃ b ∈ s.blocks, b.tag = s.input.idx.setWidth 12 ∧ b.bureau = none) ∧
    (let s := sBare id
     let g := s.input.idx.setWidth 12
     s.ctx? g = some ctx0 ∧ (∀ b ∈ s.blocks, b.tag = g → b.bureau ≠ none) ∧ (∀ d ∈ s.dispatches, d.tag ≠ g) ∧ (∀ t ∈ s.trees, t.tag ≠ g) ∧
      (∀ m ∈ s.nmsgs, m.tag ≠ g) ∧ ∀ d ∈ s.dies, ∀ b ∈ d.bins, b.tag ≠ g) ∧
    (let s := sErr (.entry .area 3#2 4095#12 7 6#12) []
     s.input.err = .entry .area 3#2 4095#12 7 6#12 ∧ s.ctx? 6#12 = none ∧ ∀ p ∈ s.unacked, p.1 ≠ 6#12) ∧
    (∀ u ∈ [EntryUnit.futures, .tlb, .bins, .merge], holdsR (sErr (.entry u 3#2 4095#12 7 5#12) []) u 3 4095 5#12 = false) ∧
    (∀ u ∈ [EntryUnit.l1, .levels, .area], holdsR (sL1 u) u 3 4095 5#12 = true ∧ (sL1 u).input.err = .entry u 3#2 4095#12 7 5#12 ∧
      (sL1 u).ctx? 5#12 = some ctx0 ∧ (sL1 u).dies.length = 4) ∧
    (let s := sErr (.entry .area 3#2 4095#12 7 6#12) [(6#12, 2 ^ 39 - 8)]
     s.ctx? 6#12 = none ∧ s.unacked.find? (fun p => p.1 = 6#12) = some (6#12, 2 ^ 39 - 8) ∧ (2 ^ 39 - 8) % 64 ≤ 56 ∧ (2 ^ 39 - 8) % 2 ^ 48 + 8 ≤ 2 ^ 39 ∧
      s.poison = [] ∧ s.migrations = []) ∧
    (let s := sErr (.entry .area 3#2 4095#12 7 5#12) []
     s.input.err = .entry .area 3#2 4095#12 7 5#12 ∧ s.ctx? 5#12 = some ctx0 ∧ s.dies.length = 4 ∧ ctx0.rbase % 64 = 0 ∧
      ctx0.rbase % 2 ^ 48 + 64 ≤ 2 ^ 39 ∧ s.poison = [] ∧ s.migrations = []) ∧
    ((sErr (.l2 5) []).input.err = .l2 5 ∧ (∀ x ∈ (sErr (.l2 5) []).l2, x.line ≠ 5) ∧ (sErr (.hbm 5 []) []).input.err = .hbm 5 []) := by
  refine ⟨?_, ?_, ?_, ?_, ?_, ?_, ?_, ?_, ?_⟩ <;> decide +kernel

/-- Die 3's Bureau with a map of value `v` in its SRAM, at the address in w1, and a block of context 5 on core 8. -/
def other (p : Place) : Block := { block0 with id := 1, core := 8, place := p, bureau := none }
def sMove (v : Nat) (p : Place) (m : List TRef) (d : List Nat) (w : Dword) : State :=
  st (fun t => { t with w := t.w.set 1 w }) (fun b => { b with bureau := some 3, core := 768 })
    fun s => { s with blocks := s.blocks ++ [other p], movers := m, dusked := d, parts := [(8, 0x1005#13)]
                      mem := Memory.wr [] 0x8002F00C0000 (natBytes 128 v) }
def sram3 : Dword := 0x8002F00C0000#64
theorem servedOf {s : State} {n : Nat} (h : free? s [.w 1] [.w 63] false = true)
    (h1 : s.movers = [] ∧ s.moving = none ∧ (tk s).ops = [] ∧ (bk s).bureau = some 3 ∧ (tk s).rw 1#6 = sram3) (h2 : n = 32 ∨ n = 128) :
    Served s (bk s) (tk s) 63#6 1#6 n (s.pmRd (s.localPa (((tk s).rw 1#6).toNat % 2 ^ 48)) n) :=
  ⟨mkFree h, ⟨h1.1, h1.2.1⟩, h1.2.2.1, ⟨3, h1.2.2.2.1, by rw [h1.2.2.2.2]; rcases h2 with h | h <;> subst h <;> decide, by rw [h1.2.2.2.2]; decide
    , by rw [h1.2.2.2.2]; decide⟩, rfl⟩
/-- The map that the team's word names. -/
def mapOf (s : State) (n : Nat) : Nat := s.pmRd (s.localPa (((tk s).rw 1#6).toNat % 2 ^ 48)) n

/-- A task's team; maps off their alignment; another team before it; a swap of no cluster, of one under Dusk, of one with a saved block, one with a block
on its way, and of one with a block that is quiet; a Dusk of a core whose slot is full, and of one whose block is quiet; a block that is resident, one that no core takes, one that resumes and one on its way. -/
theorem witness_BlocksMoveToAndFromTheShadow :
    (F s0 [.w 1] [.w 63] false ∧ (bk s0).bureau = none) ∧
    (∀ w ∈ [0x8002F00C0010#64, 0x8002F00C0040#64], let s := sMove 4 .resident [] [] w
      F s [.w 1] [.w 63] false ∧ (bk s).bureau.isSome = true ∧ s.movers = [] ∧ s.moving = none ∧ (tk s).ops = [] ∧ ((tk s).rw 1#6).toNat % 128 ≠ 0 ∧
      (w = 0x8002F00C0010#64 → ((tk s).rw 1#6).toNat % 32 ≠ 0)) ∧
    (let s := sMove 4 .resident [⟨9, 0⟩] [] sram3
     F s [.w 1] [.w 63] false ∧ (bk s).bureau.isSome = true ∧ s.movers = ⟨9, 0⟩ :: [] ∧ (⟨9, 0⟩ : TRef) ≠ s.cur.r) ∧
    (∀ p ∈ [(2 ^ 256, Place.resident, []), (4, .resident, [8]), (4, .saved, []), (4, .moving, [])], let s := sMove p.1 p.2.1 [] p.2.2 sram3
      Served s (bk s) (tk s) 63#6 1#6 32 (mapOf s 32) ∧
      (mapOf s 32 % 2 ^ 256 = 0 ∨ (∃ c ∈ s.dusked, c < 1024 ∧ (mapOf s 32).testBit (c / 4) = true) ∨
        ∃ x ∈ s.blocks, ((mapOf s 32).testBit (x.core / 4) = true ∧ x.core < 1024) ∧ (x.place = .saved ∧ x.bureau = none ∨ x.place = .moving))) ∧
    (let s := sMove 4 .resident [] [] sram3
     Served s (bk s) (tk s) 63#6 1#6 32 (mapOf s 32) ∧ mapOf s 32 % 2 ^ 256 ≠ 0 ∧ (∀ c ∈ s.dusked, (mapOf s 32).testBit (c / 4) = false) ∧
      (∀ x ∈ s.blocks, ((mapOf s 32).testBit (x.core / 4) = true ∧ x.core < 1024) → x.place ≠ .moving ∧ (x.bureau = none → x.place ≠ .saved)) ∧
      ∀ x ∈ s.blocks, ((mapOf s 32).testBit (x.core / 4) = true ∧ x.core < 1024) → x.bureau = none → x.place = .resident →
        ∀ y ∈ s.blocks, y.id = x.id → s.blockQuiet y = true) ∧
    (∀ p ∈ [Place.swapped, .resident], let s := sMove 256 p [] [] sram3
      let new := (List.range 1024).filter (fun c => (mapOf s 128).testBit c && !s.dusked.contains c)
      Served s (bk s) (tk s) 63#6 1#6 128 (mapOf s 128) ∧ s.duskBad new = decide (p = .swapped) ∧ (∀ x ∈ s.blocks, x.place = .moving → x.core ∉ new) ∧
      ∀ x ∈ s.blocks, x.id ∈ s.toSave new → s.blockQuiet x = true) ∧
    (s0.block? 0 = some (bk s0) ∧ (bk s0).place = .resident) ∧
    (let s := sMove 256 .saved [] [8] sram3
     s.block? 1 = some (other .saved) ∧ (other .saved).place = .saved ∧ s.nextResume (other .saved).tag = none) ∧
    (let s := sMove 256 .moving [] [] sram3
     s.block? 1 = some (other .moving) ∧ (other .moving).place = .moving) ∧
    (let s := sMove 256 .saved [] [] sram3
     s.block? 1 = some (other .saved) ∧ (other .saved).place = .saved ∧ s.nextResume (other .saved).tag = some [other .saved] ∧ (other .saved).group = none ∧
      (other .saved).partner = none) := by
  refine ⟨⟨mkFree (by decide +kernel), by decide +kernel⟩, ?_, ⟨mkFree (by decide +kernel), by decide +kernel⟩, ?_
    , ⟨servedOf (by decide +kernel) (by decide +kernel) (.inl rfl), by decide +kernel⟩, ?_, by decide +kernel, by decide +kernel, by decide +kernel, by decide +kernel⟩
  · intro w hw
    fin_cases hw <;> exact ⟨mkFree (by decide +kernel), by decide +kernel⟩
  · intro p hp
    fin_cases hp <;> exact ⟨servedOf (by decide +kernel) (by decide +kernel) (.inl rfl), by decide +kernel⟩
  · intro p hp
    fin_cases hp <;> exact ⟨servedOf (by decide +kernel) (by decide +kernel) (.inr rfl), by decide +kernel⟩

/-- The state that an instruction leads to. -/
def nextOf (i : Instr) (s : State) : State := match exec i s with | .next v => v | _ => s
def goes (i : Instr) (s : State) : Bool := match exec i s with | .next v => v.cur.res == .issued | _ => false
theorem goesOn {i : Instr} {s : State} (h : goes i s = true) : exec i s = .next (nextOf i s) ∧ (nextOf i s).cur.res = .issued := by
  unfold goes at h
  unfold nextOf
  split at h
  · rename_i v e
    rw [e]
    exact ⟨rfl, by simpa using h⟩
  · exact absurd h (by decide)

/-- A word that computes, into m0; one that jumps by the longest way. -/
theorem witness_RegisterWordsChangeOnlyTheirDestination :
    ∀ i ∈ [Instr.mand h0 0#1 0#3 1#3 2#3, .jmp h0 0x20000#18], (computes i = true ∨ flows i = true) ∧ s0.team? s0.cur.r = some (bk s0, tk s0) ∧
      exec i s0 = .next (nextOf i s0) ∧ (nextOf i s0).cur.res = .issued := by
  intro i hi
  fin_cases hi <;> exact ⟨by decide, by decide +kernel, goesOn (by decide +kernel)⟩

/-- That a step is calm, from the teams of its state. -/
def calm? (s v : State) : Bool :=
  s.blocks.all fun b => b.teams.all fun t => t.frame.isNone &&
    match v.team? ⟨b.id, t.idx⟩ with | some (_, u) => decide (u.trap = t.trap ∧ u.handler = t.handler ∧ u.ended = t.ended) | none => true
theorem calmOf {s v : State} (h : calm? s v = true) : calm s v := by
  intro r b t hr
  unfold State.team? at hr
  split at hr
  · rename_i x hx
    split at hr
    · rename_i y hy
      cases hr
      have hb := List.find?_some hx
      have ht := List.find?_some hy
      simp only [beq_iff_eq] at hb ht
      have e : r = ⟨b.id, t.idx⟩ := by cases r; simp_all
      have g := List.all_eq_true.1 (List.all_eq_true.1 h b (List.mem_of_find?_eq_some hx)) t (List.mem_of_find?_eq_some hy)
      rw [← e, Bool.and_eq_true] at g
      refine ⟨fun _ => Option.isNone_iff_eq_none.1 g.1, fun c u hu => ?_⟩
      have k := g.2
      rw [hu] at k
      exact of_decide_eq_true k
    · cases hr
  · cases hr

/-- A team holds a translation register over a page that it invalidates. -/
def sXinv : State := st (fun t => { t with x := t.x.set 1 x0, w := (t.w.set 1 0#64).set 2 1#64 }) id id

/-- A store, a SCATC, a level wait and an XLAT that issue; the words on futures, of the last future of die 3; a task with one, where O34 has it issue; a push of an entry, a pop
and a wait that find what they wait for, and a wait that does not; an invalidation. -/
theorem witness_MemoryWordsLeaveMemoryUntilPerformed :
    (let s := sAcc 2 (nth [0, 65532]) false
     let i := Instr.stw h0 5#6 1#3 63#6 3#2
     accesses i = true ∧ s.team? s.cur.r = some (bk s, tk s) ∧ (bk s).dying = false ∧ (tk s).wait = none ∧ exec i s = .next (nextOf i s) ∧
      (nextOf i s).cur.res = .issued) ∧
    (let s := sLevel false handle1
     let i := Instr.lvlwaitPoll h0 63#6 1#6
     handsWork i = true ∧ s.team? s.cur.r = some (bk s, tk s) ∧ (bk s).dying = false ∧ (tk s).wait = none ∧ exec i s = .next (nextOf i s) ∧
      (nextOf i s).cur.res = .issued) ∧
    (let s := sAcc 2 (nth [1016, 1020]) false
     let i := Instr.scatc h0 0#3 4#6 0#3 6#6 1#1 1#2
     accesses i = true ∧ s.team? s.cur.r = some (bk s, tk s) ∧ (bk s).dying = false ∧ (tk s).wait = none ∧ exec i s = .next (nextOf i s) ∧
      (nextOf i s).cur.res = .issued) ∧
    (let i := Instr.xlat h0 7#3 1#6
     handsWork i = true ∧ s0.team? s0.cur.r = some (bk s0, tk s0) ∧ (bk s0).dying = false ∧ (tk s0).wait = none ∧ exec i s0 = .next (nextOf i s0) ∧
      (nextOf i s0).cur.res = .issued) ∧
    (∀ i ∈ [Instr.fref h0 1#6, .fdrop h0 1#6], let s := sFut (fut 2 .done) none false
      takesFutures i = true ∧ s.team? s.cur.r = some (bk s, tk s) ∧ NamesFut s (bk s) ((tk s).rw 1#6) 3 65535 (fut 2 .done) ∧
      exec i s = .next (nextOf i s) ∧ (nextOf i s).cur.res = .issued ∧ inRecord s (s.home (0x100000000 + 31))) ∧
    (let s := sLevel false handle1
     let i := Instr.lvlcancel h0 1#6
     takesFutures i = true ∧ s.team? s.cur.r = some (bk s, tk s) ∧ exec i s = .next (nextOf i s) ∧ (nextOf i s).cur.res = .issued) ∧
    (let s := sTask taskRec 0xFFE0 0
     let s1 := (gotL s 16 0x1000 5).2
     SpawnReady s (bk s) (tk s) 63#6 10#6 taskRec [0, 0, 0, 0] s1 ∧
      s1.legalVa (bk s) .wr 32 ((tk s).opnd 10#6 1 % 2 ^ 56) = (.pa 0x10000FFE0, (s1.legalVa (bk s) .wr 32 ((tk s).opnd 10#6 1 % 2 ^ 56)).2) ∧
      (Obligations.SpawnsHandInTheirTask → ∃ v : State, exec (.spawnf h0 63#6 10#6) s = .next v ∧ v.cur.res = .issued)) ∧
    (let q := queue0 8 6 0 0
     let s := sQueue q
     let i := Instr.qpush h0 56#6 1#6
     s.team? s.cur.r = some (bk s, tk s) ∧ (tk s).ended = false ∧ (tk s).wait = none ∧ namesQueue s (bk s) ((tk s).rw 1#6) 3 4095 q ∧
      s.entryLegal (bk s) .wr (q.slots q.tail) = .ok (lg s .wr (q.slots q.tail)).1 (lg s .wr (q.slots q.tail)).2 ∧ exec i s = .next (nextOf i s) ∧
      (nextOf i s).cur.res = .issued ∧ calm s (nextOf i s)) ∧
    (∀ x ∈ [FState.done, .pending], let s := sFut (fut 1 x) none false
      let i := Instr.fwait h0 63#6 1#6
      s.team? s.cur.r = some (bk s, tk s) ∧ (tk s).ended = false ∧ (tk s).wait = none ∧ (bk s).dying = false ∧ exec i s = .next (nextOf i s) ∧
      (nextOf i s).cur.res = .issued ∧ calm s (nextOf i s)) ∧
    (∀ p ∈ [(0, 1), (0, 0)], let q := queue0 8 6 p.1 p.2
      let s := sQueue q
      let i := Instr.qpop h0 56#6 1#6
      s.team? s.cur.r = some (bk s, tk s) ∧ (tk s).ended = false ∧ (tk s).wait = none ∧ (bk s).dying = false ∧
      namesQueue s (bk s) ((tk s).rw 1#6) 3 4095 q ∧ exec i s = .next (nextOf i s) ∧ (nextOf i s).cur.res = .issued ∧ calm s (nextOf i s)) ∧
    (let i := Instr.xinv h0 1#6 2#6
     sXinv.team? sXinv.cur.r = some (bk sXinv, tk sXinv) ∧ (tk sXinv).wait = none ∧ exec i sXinv = .next (nextOf i sXinv) ∧
      (nextOf i sXinv).cur.res = .issued ∧ ((tk (nextOf i sXinv)).x[1]?).map (fun y => y.limit) = some 0#30) := by
  refine ⟨⟨by decide, by decide +kernel, by decide +kernel, by decide +kernel, goesOn (by decide +kernel)⟩
    , ⟨by decide, by decide +kernel, by decide +kernel, by decide +kernel, goesOn (by decide +kernel)⟩
    , ⟨by decide, by decide +kernel, by decide +kernel, by decide +kernel, goesOn (by decide +kernel)⟩
    , ⟨by decide, by decide +kernel, by decide +kernel, by decide +kernel, goesOn (by decide +kernel)⟩, ?_
    , ⟨by decide, by decide +kernel, goesOn (by decide +kernel)⟩
    , ⟨spawnReady (by decide +kernel) (by decide +kernel), Prod.ext (by decide +kernel) rfl, fun h => ?_⟩
    , ⟨by decide +kernel, by decide +kernel, by decide +kernel, namesQ (by unfold handleIs; decide +kernel) (by decide +kernel) (by decide +kernel)
      , lg_eq (by decide +kernel), (goesOn (by decide +kernel)).1, (goesOn (by decide +kernel)).2, calmOf (by decide +kernel)⟩, ?_, ?_
    , ⟨by decide +kernel, by decide +kernel, (goesOn (by decide +kernel)).1, (goesOn (by decide +kernel)).2, by decide +kernel⟩⟩
  · intro i hi
    fin_cases hi <;> exact ⟨by decide, by decide +kernel, namesFut (by unfold handleIs; decide +kernel) (by decide +kernel) (by decide +kernel)
      , (goesOn (by decide +kernel)).1, (goesOn (by decide +kernel)).2, 3, fut 2 .done, 31, .inl ⟨65535, by decide +kernel⟩, by decide, rfl⟩
  · have k := (h.2.2 h0 63#6 10#6 _ _ (((gotL (sTask taskRec 0xFFE0 0) 16 0x1000 5).2.legalVa (bk (sTask taskRec 0xFFE0 0)) .wr 32
        ((tk (sTask taskRec 0xFFE0 0)).opnd 10#6 1 % 2 ^ 56)).2) _ _ taskRec 0x10000FFE0 [0, 0, 0, 0] (spawnReady (by decide +kernel) (by decide +kernel))
      (Prod.ext (by decide +kernel) rfl) (by decide +kernel) (by decide +kernel)).2.2 (by decide +kernel) (by decide +kernel)
      (forSome ctx0 (by decide +kernel) ⟨by decide +kernel, fun h => absurd h (by decide +kernel)⟩)
    obtain ⟨v, _, _, e, g, _⟩ := k
    exact ⟨v, e, g⟩
  · intro x hx
    fin_cases hx <;> exact ⟨by decide +kernel, by decide +kernel, by decide +kernel, by decide +kernel, (goesOn (by decide +kernel)).1
      , (goesOn (by decide +kernel)).2, calmOf (by decide +kernel)⟩
  · intro p hp
    fin_cases hp <;> exact ⟨by decide +kernel, by decide +kernel, by decide +kernel, by decide +kernel
      , namesQ (by unfold handleIs; decide +kernel) (by decide +kernel) (by decide +kernel), (goesOn (by decide +kernel)).1
      , (goesOn (by decide +kernel)).2, calmOf (by decide +kernel)⟩

/-- The small state before a chain of words at `a`, with its schedule. -/
def sStep (a : Nat) (ws : List Word) (t : List Turn) : State :=
  { st (fun t => { t with pc := BitVec.ofNat 56 a }) id id with
    schedule := t, mem := Memory.wr [] (0x100000000 + a) (wordsBytes ws) }
/-- What the fetch of words gives. -/
def after (s : State) (b : Block) (a : BitVec 56) : List Word → State
  | [] => s
  | _ :: ws => after (s.fetchWord b a.toNat).2 b (a + 4#56) ws
theorem issuesOf {s : State} (h : s.team? ⟨0, 0⟩ = some (bk s, tk s) ∧ (bk s).live = true ∧
      ((tk s).ended = false ∧ (tk s).trap = none ∧ (tk s).wait = none ∧ (tk s).defer = none ∧ (tk s).xinv = none ∧ (tk s).run.ended = false) ∧ (bk s).bureau = none ∧
      s.withheld (bk s) = false) (h1 : (s.core (bk s).core).cmp = List.replicate 6 (0#64, 0#64)) : Issues s ⟨0, 0⟩ (bk s) (tk s) :=
  ⟨h.1, h.2.1, h.2.2.1, .inl h.2.2.2.1, h.2.2.2.2, unwatchedOf h1⟩
theorem nexts {o : Out} (h : (match o with | .next _ => true | _ => false) = true) : ∃ v, o = .next v := by
  split at h
  · exact ⟨_, rfl⟩
  · cases h
def wVadd : Instr := .vadd ⟨false, false, some ⟨none, some 5#4, 0#3, true, none⟩, none⟩ 0#3 1#6 2#6 3#6
def wXlat : Instr := .xlat h0 1#3 0#6

/-- A team that waits in MMA, and whose tiles may be taken; `ws` stands at its pc. -/
def sTake (ws : List Word) : State :=
  { sMma 1 32 8 32 tA tB false fun t => { t with want := .mma (rq (sMma 1 32 8 32 tA tB false id) 0#1) } with
    mem := Memory.wr [] 0x100000000 (wordsBytes ws), schedule := [.unit (.mmaTake ⟨0, 0⟩)] }
/-- The state in which its first move is made. -/
abbrev moves (s : State) : State := { s with schedule := [] }
/-- Whether the take of that team leads on to its turn, and whether its chain then issues. -/
def takes (ws : List Word) : Option Bool :=
  match exec (.mmaTake ⟨0, 0⟩) (moves (sTake ws)) with
  | .next v => if v.due = some ⟨0, 0⟩ then (match v.issueTurn ⟨0, 0⟩ with | .next x => some x.due.isNone | _ => none) else none
  | _ => none

/-- A word with its prefix and one in the packet's last slot; a scratchpad word kept apart; a unit's step and one from outside; a take of no team's MMA, one whose chain issues
and one whose chain does not; a cycle. -/
theorem witness_StepRunsTheDecodedInstruction :
    (let ws := [0x3C054400#32, 0x0C001083#32]
     let s := sStep 0 ws [.issue ⟨0, 0⟩]
     let s' : State := { s with schedule := [], cur := { s.cur with res := .none } }
     s.schedule = .issue ⟨0, 0⟩ :: [] ∧ Issues s ⟨0, 0⟩ (bk s) (tk s) ∧ [0x3C054400#32].length < 3 - (tk s).pc.toNat % 12 / 4 ∧ (tk s).pc.toNat % 4 = 0 ∧
      decode (wordsBytes ([0x3C054400#32] ++ [0x0C001083#32])) = .ok wVadd ∧ wordC 0x0C001083#32 = false ∧ mayRun (bk s) 0x0C001083#32 ∧
      fetched s' (bk s) (tk s).pc ws (after s' (bk s) (tk s).pc ws)) ∧
    (let ws := [0x3A001000#32]
     let s := sStep 8 ws [.issue ⟨0, 0⟩]
     let s' : State := { s with schedule := [], cur := { s.cur with res := .none } }
     s.schedule = .issue ⟨0, 0⟩ :: [] ∧ Issues s ⟨0, 0⟩ (bk s) (tk s) ∧ ([] : List Word).length < 3 - (tk s).pc.toNat % 12 / 4 ∧ (tk s).pc.toNat % 4 = 0 ∧
      decode (wordsBytes ([] ++ [0x3A001000#32])) = .ok wXlat ∧ wordC 0x3A001000#32 = false ∧ mayRun (bk s) 0x3A001000#32 ∧
      fetched s' (bk s) (tk s).pc ws (after s' (bk s) (tk s).pc ws)) ∧
    (let s := sStep 0 (encode (.sts h0 0#3 4#6 6#6 0#2)) [.apart ⟨0, 0⟩]
     s.schedule = .apart ⟨0, 0⟩ :: [] ∧ (match ({ s with schedule := [], apart := true } : State).issueTurn ⟨0, 0⟩ with | .next _ => true | _ => false) = true) ∧
    (let s := sStep 0 [] [.unit .dawn]
     stepOf s (moves s) .dawn ∧ Instr.dawn.word = none ∧ (∀ r, takesAt .dawn r = false) ∧ ∃ v : State, exec .dawn { s with schedule := [] } = .next v) ∧
    (takesAt (.mmaTake ⟨9, 0⟩) ⟨9, 0⟩ = true ∧ takesAt (.drawerReservation ⟨9, 0⟩) ⟨9, 0⟩ = true) ∧
    (match exec (.mmaTake ⟨9, 0⟩) s0 with | .next v => decide (v.due = some ⟨9, 0⟩) | _ => true) = false ∧
    takes (encode (.mma h0 1#4 10#6 0#1 0#2 0#2 0#1)) = some true ∧ takes [] = some false ∧
    stepOf (sTake []) (moves (sTake [])) (.mmaTake ⟨0, 0⟩) ∧ (match (moves (sTake [])).issueTurn ⟨0, 0⟩ with | .next _ => true | _ => false) = true ∧
    (∀ x ∈ [none, some Wait.wfi], let s : State := { sIntr 0x10000#17 0#4 none with
        schedule := [.unit (.interruptEntry ⟨0, 0⟩)], blocks := (sIntr 0x10000#17 0#4 none).blocks.map fun b => { b with teams := b.teams.map fun t => { t with wait := x } } }
      stepOf s (moves s) (.interruptEntry ⟨0, 0⟩) ∧ s.team? ⟨0, 0⟩ = some (bk s, tk s) ∧ (moves s).interruptDue (bk s) (tk s) = true ∧ (tk s).wait = x ∧
      (∃ v, (moves s).issueTurn ⟨0, 0⟩ = .next v) ∧ ∃ v, exec (.interruptEntry ⟨0, 0⟩) (moves s) = .next v) ∧
    ((sStep 0 [] [.cache (.l1Drop 0 0)]).schedule = .cache (.l1Drop 0 0) :: [] ∧ (sStep 0 [] [.cache (.l1Drop 0 0)]).hurt = [] ∧
      (sStep 0 [] [.cache (.l1Drop 0 0)]).unitQ = []) ∧
    (let s := sStep 0 [] [.outside .pagerdy Input.zero]
     stepOf s { s with schedule := [], input := Input.zero } .pagerdy ∧ Instr.pagerdy.word = none ∧ ∃ v : State, exec .pagerdy { s with schedule := [], input := Input.zero } = .next v) ∧
    ((sStep 0 [] [.tick]).schedule = .tick :: [] ∧ (sStep 0 [] [.tick]).hurt = [] ∧ (sStep 0 [] [.tick]).unitQ = []) := by
  refine ⟨⟨rfl, issuesOf (by decide +kernel) (by decide +kernel), by decide +kernel, by decide +kernel, by decide +kernel, by decide +kernel
      , .inl (by decide +kernel), ⟨_, Prod.ext (by decide +kernel) rfl, _, Prod.ext (by decide +kernel) rfl, rfl⟩⟩
    , ⟨rfl, issuesOf (by decide +kernel) (by decide +kernel), by decide +kernel, by decide +kernel, by decide +kernel, by decide +kernel
      , .inl (by decide +kernel), ⟨_, Prod.ext (by decide +kernel) rfl, rfl⟩⟩, ⟨rfl, by decide +kernel⟩, ⟨⟨[], .inl ⟨rfl, rfl⟩⟩, by decide, fun _ => rfl, _, rfl⟩
    , by decide, by decide +kernel, by decide +kernel, by decide +kernel, ⟨[], .inl ⟨rfl, rfl⟩⟩, by decide +kernel, ?_, ⟨rfl, rfl, rfl⟩
    , ⟨⟨[], .inr ⟨_, rfl, rfl⟩⟩, by decide, _, rfl⟩, rfl, rfl, rfl⟩
  intro x hx
  fin_cases hx <;> exact ⟨⟨[], .inl ⟨rfl, rfl⟩⟩, by decide +kernel, by decide +kernel, by decide +kernel, nexts (by decide +kernel), nexts (by decide +kernel)⟩

/-- Words with a prefix, with both immediates of a prefix, and with none. -/
theorem witness_EncodeThenDecodeIsTheSame :
    ∀ i ∈ [wVadd, Instr.bwait ⟨false, false, none, some 0xA0#23⟩ 26#6 63#6, wXlat, .brk], i.wf = true ∧ i.word.isSome = true := by decide

/-- A step that leads on, by its schedule. -/
theorem stepsTick (s : State) (h : s.schedule = [.tick]) : ∃ v, leadsTo s v := by
  refine ⟨({ s with schedule := [] } : State).cycle.after, ?_⟩
  simp only [leadsTo, Sys2Proof.Machine.step, h, State.move]

/-- A cycle from a state whose memory lists the bytes of a word. -/
theorem witness_MemoryStaysCanonical :
    (sStep 0 [0x3A001000#32] [.tick]).mem.wf = true ∧ ∃ v, leadsTo (sStep 0 [0x3A001000#32] [.tick]) v :=
  ⟨by decide +kernel, stepsTick _ rfl⟩

theorem witness_TablesKeepTheirLengths : Shaped (sStep 0 [] [.tick]) ∧ ∃ v, leadsTo (sStep 0 [] [.tick]) v :=
  ⟨⟨by decide +kernel, by decide +kernel, by decide +kernel, by decide +kernel⟩, stepsTick _ rfl⟩

end Sys2Proof.Tests
end

section
/-! PROOFS. The scope (00_scope.md): the machine after reset; and two invariants of every step, the canonical form of memory (log entry 1)
and the lengths of the tables.

Both invariants are carried by one relation between two states, `Keeps`. For each function `f` of the model that changes the state, the
lemma `Keeps.f` says once that it keeps the invariants, wherever they have been kept so far; the proof of a function cites those of the
functions that it calls, in their order. `step_keeps` is the last of them, and the obligations follow from it. -/

namespace Sys2Proof.Machine
open Sys2Proof.Claims (Shaped leadsTo)

-- As in the tests above: one thread for each theorem of this part would exceed the limits of the check.
set_option Elab.async false

/-! ### What every move keeps -/

/-- Two dies whose registers have the same number of places. -/
structure Die.SameSizes (d e : Die) : Prop where
  sens : e.sens.length = d.sens.length
  armed : e.armed.length = d.armed.length
  cerr : e.cerr.length = d.cerr.length
  stopbrk : e.stopbrk.length = d.stopbrk.length

/-- Two cores whose comparators and stall counters have the same number of places. -/
structure Core.SameSizes (c e : Core) : Prop where
  cmp : e.cmp.length = c.cmp.length
  stall : e.stall.length = c.stall.length

/-- The invariants that a move takes from a state over to the next: memory stays canonical (log entry 1), and the tables keep the lengths
that the spec gives them. -/
structure Keeps (s v : State) : Prop where
  mem : s.mem.wf = true → v.mem.wf = true
  shaped : Shaped s → Shaped v

/-- An outcome that leads on keeps the invariants. -/
def OutKeeps (s : State) : Out → Prop
  | .next v => Keeps s v
  | _ => True

/-- A read at issue keeps the invariants where it gives a value. -/
def GotKeeps {α : Type} (s : State) : Got α → Prop
  | .ok _ v => Keeps s v
  | _ => True

/-- The write of a trap frame keeps the invariants. -/
def FrameKeeps (s : State) : FrameOut → Prop
  | .absent v => Keeps s v
  | .bad v => Keeps s v
  | .ok v => Keeps s v

/-- Reaching a unit of a copy keeps the invariants. -/
def ReachKeeps (s : State) : Reach → Prop
  | .wait v _ => Keeps s v
  | .bad v _ => Keeps s v
  | .pa _ v _ => Keeps s v

/-- The checks of a chain keep the invariants where they stop it. -/
def CheckKeeps (s : State) : ChainCheck → Prop
  | .stops o => OutKeeps s o
  | .passes _ => True

section
variable {s₀ s v : State}

theorem Keeps.refl (s : State) : Keeps s s := ⟨id, id⟩

/-- An update that leaves memory, the dies, the routes and the cores alone. -/
theorem Keeps.same (hs : Keeps s₀ s) (hm : v.mem = s.mem := by rfl) (hd : v.dies = s.dies := by rfl)
    (hr : v.routes = s.routes := by rfl) (hc : v.cores = s.cores := by rfl) : Keeps s₀ v where
  mem h := hm ▸ hs.mem h
  shaped h :=
    have ⟨dies, routes, die, core⟩ := hs.shaped h
    ⟨hd ▸ dies, hr ▸ routes, hd ▸ die, hc ▸ core⟩

theorem Keeps.ite {c : Prop} [Decidable c] {a b : State} (ha : Keeps s₀ a) (hb : Keeps s₀ b) :
    Keeps s₀ (if c then a else b) := by
  split
  · exact ha
  · exact hb

theorem OutKeeps.ite {c : Prop} [Decidable c] {a b : Out} (ha : OutKeeps s₀ a) (hb : OutKeeps s₀ b) :
    OutKeeps s₀ (if c then a else b) := by
  split
  · exact ha
  · exact hb

theorem FrameKeeps.ite {c : Prop} [Decidable c] {a b : FrameOut} (ha : FrameKeeps s₀ a) (hb : FrameKeeps s₀ b) :
    FrameKeeps s₀ (if c then a else b) := by
  split
  · exact ha
  · exact hb

theorem GotKeeps.ite {α : Type} {c : Prop} [Decidable c] {a b : Got α} (ha : GotKeeps s₀ a) (hb : GotKeeps s₀ b) :
    GotKeeps s₀ (if c then a else b) := by
  split
  · exact ha
  · exact hb

theorem ReachKeeps.ite {c : Prop} [Decidable c] {a b : Reach} (ha : ReachKeeps s₀ a) (hb : ReachKeeps s₀ b) :
    ReachKeeps s₀ (if c then a else b) := by
  split
  · exact ha
  · exact hb

/-- An answer that a condition chooses. -/
theorem Keeps.ite_snd {α : Type} {c : Prop} [Decidable c] {a b : α × State} (ha : Keeps s₀ a.2) (hb : Keeps s₀ b.2) :
    Keeps s₀ (if c then a else b).2 := by
  split
  · exact ha
  · exact hb

theorem Keeps.ite_fst {α : Type} {c : Prop} [Decidable c] {a b : State × α} (ha : Keeps s₀ a.1) (hb : Keeps s₀ b.1) :
    Keeps s₀ (if c then a else b).1 := by
  split
  · exact ha
  · exact hb

theorem Keeps.foldl {α : Type} {f : State → α → State} {l : List α} (hs : Keeps s₀ s)
    (hf : ∀ s x, Keeps s₀ s → Keeps s₀ (f s x)) : Keeps s₀ (l.foldl f s) := by
  induction l generalizing s with
  | nil => exact hs
  | cons x l ih => exact ih (hf s x hs)

theorem Keeps.foldl_fst {α β : Type} {f : State × β → α → State × β} {l : List α} {p : State × β} (hp : Keeps s₀ p.1)
    (hf : ∀ p x, Keeps s₀ p.1 → Keeps s₀ (f p x).1) : Keeps s₀ (l.foldl f p).1 := by
  induction l generalizing p with
  | nil => exact hp
  | cons x l ih => exact ih (hf p x hp)

/-- The state of an answer once the answer is known. -/
theorem Keeps.of_eq {α : Type} {p : α × State} {a : α} (hp : Keeps s₀ p.2) (e : p = (a, v)) : Keeps s₀ v := by
  subst e; exact hp

theorem Keeps.of_fst {α : Type} {p : State × α} {a : α} (hp : Keeps s₀ p.1) (e : p = (v, a)) : Keeps s₀ v := by
  subst e; exact hp

theorem OutKeeps.of_next {o : Out} (ho : OutKeeps s₀ o) (e : o = .next v) : Keeps s₀ v := by
  subst e; exact ho

theorem GotKeeps.of_ok {α : Type} {g : Got α} {a : α} (hg : GotKeeps s₀ g) (e : g = .ok a v) : Keeps s₀ v := by
  subst e; exact hg

theorem ReachKeeps.of_eq {r q : Reach} (hr : ReachKeeps s₀ r) (e : r = q) : ReachKeeps s₀ q := e ▸ hr

theorem FrameKeeps.of_eq {r q : FrameOut} (hr : FrameKeeps s₀ r) (e : r = q) : FrameKeeps s₀ q := e ▸ hr

/-! ### Dies and cores -/

theorem updAt_length {α : Type} (f : α → α) (l : List α) (i : Nat) : (updAt f l i).length = l.length := by
  induction l generalizing i with
  | nil => rfl
  | cons x l ih => cases i with
    | zero => rfl
    | succ i => simp [updAt, ih]

theorem mem_updAt {α : Type} {f : α → α} {l : List α} {i : Nat} {y : α} (h : y ∈ updAt f l i) :
    y ∈ l ∨ ∃ x, l[i]? = some x ∧ y = f x := by
  induction l generalizing i with
  | nil => cases h
  | cons x l ih => cases i with
    | zero =>
      rcases List.mem_cons.1 h with rfl | h
      · exact .inr ⟨x, rfl, rfl⟩
      · exact .inl (List.mem_cons_of_mem x h)
    | succ i =>
      rcases List.mem_cons.1 h with rfl | h
      · exact .inl List.mem_cons_self
      · exact (ih h).imp_left (List.mem_cons_of_mem x)

theorem Die.SameSizes.refl (d : Die) : d.SameSizes d := ⟨rfl, rfl, rfl, rfl⟩

theorem Die.SameSizes.trans {d e f : Die} (h : d.SameSizes e) (k : e.SameSizes f) : d.SameSizes f :=
  ⟨k.sens.trans h.sens, k.armed.trans h.armed, k.cerr.trans h.cerr, k.stopbrk.trans h.stopbrk⟩

/-- Every die replaced by one of the same sizes, in an update that leaves memory, the routes and the cores alone. -/
theorem Keeps.of_dies (hs : Keeps s₀ s) (hl : v.dies.length = s.dies.length)
    (hd : ∀ d ∈ v.dies, ∃ e ∈ s.dies, e.SameSizes d) (hm : v.mem = s.mem := by rfl) (hr : v.routes = s.routes := by rfl)
    (hc : v.cores = s.cores := by rfl) : Keeps s₀ v where
  mem h := hm ▸ hs.mem h
  shaped h := by
    obtain ⟨dies, routes, die, core⟩ := hs.shaped h
    refine ⟨hl.trans dies, hr ▸ routes, fun d hx => ?_, hc ▸ core⟩
    obtain ⟨e, he, k⟩ := hd d hx
    have := die e he
    rwa [k.sens, k.armed, k.cerr, k.stopbrk]

theorem Keeps.mapDies (hs : Keeps s₀ s) (f : Die → Die) (hd : v.dies = s.dies.map f := by rfl)
    (hf : ∀ d : Die, d.SameSizes (f d) := by exact fun _ => ⟨rfl, rfl, rfl, rfl⟩) (hm : v.mem = s.mem := by rfl)
    (hr : v.routes = s.routes := by rfl) (hc : v.cores = s.cores := by rfl) : Keeps s₀ v := by
  refine hs.of_dies (by simp [hd]) (fun d hx => ?_) hm hr hc
  rw [hd, List.mem_map] at hx
  obtain ⟨e, he, rfl⟩ := hx
  exact ⟨e, he, hf e⟩

/-- One die replaced by one of the same sizes. -/
theorem Keeps.atDie (hs : Keeps s₀ s) {e : Nat} {f : Die → Die} (hd : v.dies = updAt f s.dies e := by rfl)
    (hf : ∀ d : Die, d.SameSizes (f d) := by exact fun _ => ⟨rfl, rfl, rfl, rfl⟩) (hm : v.mem = s.mem := by rfl)
    (hr : v.routes = s.routes := by rfl) (hc : v.cores = s.cores := by rfl) : Keeps s₀ v := by
  refine hs.of_dies (by rw [hd, updAt_length]) (fun d hx => ?_) hm hr hc
  rw [hd] at hx
  obtain hmem | ⟨x, hget, rfl⟩ := mem_updAt hx
  · exact ⟨d, hmem, .refl d⟩
  · exact ⟨x, List.mem_of_getElem? hget, hf x⟩

theorem Keeps.updDie (hs : Keeps s₀ s) {e : Nat} {f : Die → Die}
    (hf : ∀ d : Die, d.SameSizes (f d) := by exact fun _ => ⟨rfl, rfl, rfl, rfl⟩) : Keeps s₀ (s.updDie e f) :=
  hs.atDie rfl hf

/-- A die replaced by one of its own sizes. -/
theorem Keeps.setDie (hs : Keeps s₀ s) {e : Nat} {d : Die} (h : (s.die e).SameSizes d) : Keeps s₀ (s.updDie e fun _ => d) := by
  refine hs.of_dies (updAt_length _ s.dies e) fun y hy => ?_
  obtain hmem | ⟨x, hget, rfl⟩ := mem_updAt hy
  · exact ⟨y, hmem, .refl y⟩
  · have hx : s.die e = x := by simp [State.die, List.getD, hget]
    exact ⟨x, List.mem_of_getElem? hget, hx ▸ h⟩

/-- Every core either as one was before, in its sizes, or of the sizes that the spec gives. -/
theorem Keeps.of_cores (hs : Keeps s₀ s)
    (hc : ∀ c ∈ v.cores, (∃ e ∈ s.cores, e.SameSizes c) ∨ c.cmp.length = 6 ∧ c.stall.length = 16)
    (hm : v.mem = s.mem := by rfl) (hd : v.dies = s.dies := by rfl) (hr : v.routes = s.routes := by rfl) : Keeps s₀ v where
  mem h := hm ▸ hs.mem h
  shaped h := by
    obtain ⟨dies, routes, die, core⟩ := hs.shaped h
    refine ⟨hd ▸ dies, hr ▸ routes, hd ▸ die, fun c hx => ?_⟩
    obtain ⟨e, he, k⟩ | k := hc c hx
    · have := core e he
      rwa [k.cmp, k.stall]
    · exact k

theorem Keeps.updCore (hs : Keeps s₀ s) {c : Nat} {f : Core → Core}
    (hf : ∀ x : Core, x.SameSizes (f x) := by exact fun _ => ⟨rfl, rfl⟩) : Keeps s₀ (s.updCore c f) := by
  unfold State.updCore
  split
  · refine hs.of_cores fun x hx => .inl ?_
    obtain ⟨y, hy, rfl⟩ := List.mem_map.1 hx
    refine ⟨y, hy, ?_⟩
    split
    · exact hf y
    · exact ⟨rfl, rfl⟩
  · next hn =>
    refine hs.of_cores fun x hx => ?_
    rcases List.mem_append.1 hx with hx | hx
    · exact .inl ⟨x, hx, rfl, rfl⟩
    · obtain rfl := List.mem_singleton.1 hx
      have hnone : s.cores.find? (fun x => x.idx == c) = none := by
        simpa [List.find?_eq_none] using hn
      have k := hf (s.core c)
      simp only [State.core, hnone] at k
      exact .inr (by simp only [State.core, hnone, k.cmp, k.stall, List.length_replicate, and_self])

theorem Die.record_sizes (d : Die) (r : Rec) (src : Option Nat) : d.SameSizes (d.record r src) := by
  unfold Die.record
  split
  · exact ⟨rfl, rfl, rfl, rfl⟩
  · exact .refl d

theorem Die.store_sizes (d : Die) (r : Rec) (src : Option Nat) : d.SameSizes (d.store r src) := by
  unfold Die.store
  split
  · dsimp only
    split
    · exact ⟨rfl, rfl, rfl, rfl⟩
    · split
      · exact ⟨rfl, rfl, rfl, rfl⟩
      · exact ⟨rfl, rfl, rfl, rfl⟩
  · exact .refl d

theorem Die.capture_sizes (d : Die) : d.SameSizes d.capture := by
  unfold Die.capture
  dsimp only
  split
  · exact ⟨rfl, rfl, rfl, rfl⟩
  · exact Die.SameSizes.trans (e := { d.enqueue with queue := _ }) ⟨rfl, rfl, rfl, rfl⟩ (Die.store_sizes ..)

theorem Die.foldl_store_sizes (l : List (Rec × Option Nat)) (d e : Die) (h : d.SameSizes e) :
    d.SameSizes (l.foldl (fun e x => e.store x.1 x.2) e) := by
  induction l generalizing e with
  | nil => exact h
  | cons x l ih => exact ih _ (h.trans (Die.store_sizes ..))

theorem Die.drain_sizes (d : Die) : d.SameSizes d.drain := Die.foldl_store_sizes _ d _ ⟨rfl, rfl, rfl, rfl⟩

theorem Die.updPort_sizes (d : Die) (p : Nat) (f : Port → Port) : d.SameSizes (d.updPort p f) := by
  unfold Die.updPort
  split
  · exact ⟨rfl, rfl, rfl, rfl⟩
  · exact .refl d

theorem Die.takeAll_sizes (d : Die) (ps : List Nat) : d.SameSizes (d.takeAll ps).2 := by
  induction ps generalizing d with
  | nil => exact .refl d
  | cons p ps ih => exact (Die.updPort_sizes ..).trans (ih _)

theorem Die.sample_sizes (d : Die) (i : Nat) (v : BitVec 16) : d.SameSizes (d.sample i v) := by
  have harm : ∀ c : Bool, (if c then d.armed.set i false else d.armed).length = d.armed.length := by
    intro c
    cases c
    · rfl
    · exact List.length_set
  unfold Die.sample
  dsimp only
  split
  · exact ⟨List.length_set, harm _, rfl, rfl⟩
  · exact ⟨List.length_set, harm _, rfl, rfl⟩

theorem Die.measure_sizes (d : Die) (v : Dword) : d.SameSizes (d.measure v) := by
  obtain ⟨hsens, harmed, -, hstop⟩ := d.capture_sizes
  refine ⟨hsens, harmed, ?_, hstop⟩
  unfold Die.measure
  dsimp only
  split
  · exact updAt_length ..
  · rfl

theorem addCodes_length (l : List (BitVec 48)) (codes : List Nat) : (addCodes l codes).length = l.length := by
  induction codes generalizing l with
  | nil => rfl
  | cons c codes ih => exact (ih _).trans List.length_set

/-! ### The shared operations (Machine/Ops.lean) -/

theorem Keeps.fresh (hs : Keeps s₀ s) : Keeps s₀ s.fresh.2 := hs.same

theorem Keeps.choice (hs : Keeps s₀ s) {n} : Keeps s₀ (s.choice n).2 := hs.same

theorem Keeps.newId (hs : Keeps s₀ s) : Keeps s₀ s.newId.2 := hs.same

theorem Keeps.updBlock (hs : Keeps s₀ s) {b f} : Keeps s₀ (s.updBlock b f) := hs.same

theorem Keeps.updTeam (hs : Keeps s₀ s) {r f} : Keeps s₀ (s.updTeam r f) := hs.same

theorem Keeps.updCtx (hs : Keeps s₀ s) {t f} : Keeps s₀ (s.updCtx t f) := hs.same

theorem Keeps.issue (hs : Keeps s₀ s) {h switch f} : Keeps s₀ (s.issue h switch f) := hs.same

theorem Keeps.park (hs : Keeps s₀ s) {why} : Keeps s₀ (s.park why) := hs.same

theorem Keeps.parkFor (hs : Keeps s₀ s) {why w} : Keeps s₀ (s.parkFor why w) := hs.same

theorem Keeps.regWrite (hs : Keeps s₀ s) {r w} : Keeps s₀ (s.regWrite r w) := by
  unfold State.regWrite
  split
  · split
    · split
      · exact hs.updDie
      · exact hs.same
    · exact hs
  · split
    · split
      · exact hs.updDie
      · exact hs.same
    · exact hs
  · exact hs.same

theorem Keeps.regWrites (hs : Keeps s₀ s) {r ws} : Keeps s₀ (s.regWrites r ws) := hs.foldl fun _ _ h => h.regWrite

theorem Keeps.record (hs : Keeps s₀ s) {b r bit} : Keeps s₀ (s.record b r bit) := by
  unfold State.record
  split
  · exact hs.updDie fun d => d.record_sizes _ _
  · exact hs

theorem Keeps.pmWr (hs : Keeps s₀ s) {pa bs} : Keeps s₀ (s.pmWr pa bs) := by
  have hm : s₀.mem.wf = true → (s.pmWr pa bs).mem.wf = true := fun h => s.pmWr_wf pa bs (hs.mem h)
  refine ⟨hm, fun h => ?_⟩
  obtain ⟨dies, routes, die, core⟩ := hs.shaped h
  unfold State.pmWr
  split
  · exact ⟨dies, routes, die, core⟩
  · exact ⟨dies, routes, die, core⟩

theorem Keeps.l2Room (hs : Keeps s₀ s) {line} : Keeps s₀ (s.l2Room line) := by
  unfold State.l2Room
  refine .ite hs (.ite hs ?_)
  dsimp only [State.choice]
  split
  · exact hs.same
  · exact hs.same

theorem Keeps.l2Access (hs : Keeps s₀ s) {tag line write} : Keeps s₀ (s.l2Access tag line write) :=
  .ite hs hs.l2Room.same

theorem Keeps.l1Fill (hs : Keeps s₀ s) {core tag pa} : Keeps s₀ (s.l1Fill core tag pa) := .ite hs hs.same

theorem Keeps.cacheMove (hs : Keeps s₀ s) {m} : Keeps s₀ (s.cacheMove m) := by
  cases m with
  | l1Drop => exact hs.same
  | l2Back => exact hs.same
  | l2Drop => exact hs.same

theorem Keeps.fill (hs : Keeps s₀ s) {tag line} : Keeps s₀ (s.fill tag line) := .ite hs.same hs

theorem Keeps.memWr (hs : Keeps s₀ s) {tag pa bs} : Keeps s₀ (s.memWr tag pa bs) := by
  unfold State.memWr
  have h0 : ∀ c line, Keeps s₀ (if c = true then { s with poison := s.poison.filter fun x => x != line } else s.fill tag line) :=
    fun _ _ => .ite hs.same hs.fill
  exact (h0 _ _).l2Access.pmWr.same

theorem Keeps.memRd (hs : Keeps s₀ s) {tag pa n} : Keeps s₀ (s.memRd tag pa n).2 := hs.fill.l2Access

theorem Keeps.touchAll (hs : Keeps s₀ s) {tag as} : Keeps s₀ (s.touchAll tag as) := hs.foldl fun _ _ h => h.memRd

theorem Keeps.unitWr (hs : Keeps s₀ s) {tag pa bs} : Keeps s₀ (s.unitWr tag pa bs) := .ite hs.same hs.memWr

theorem Keeps.flushUnits (hs : Keeps s₀ s) : Keeps s₀ s.flushUnits :=
  hs.foldl fun _ _ h => .ite h (Keeps.memWr h.same)

theorem Keeps.walked (hs : Keeps s₀ s) {c va} : Keeps s₀ (s.walked c va).2 := hs.foldl fun _ _ h => h.memRd

theorem Keeps.tlb (hs : Keeps s₀ s) {c core va} : Keeps s₀ (s.tlb c core va).2 := by
  unfold State.tlb
  dsimp only
  split
  · exact hs
  · split
    · exact hs.same
    · have hw : Keeps s₀ (if s.tablesHeld c (va % 2 ^ 56) then (Walk.absent, s) else s.walked c (va % 2 ^ 56)).2 := by
        split
        · exact hs
        · exact hs.walked
      split
      · next e => exact (hw.of_eq e).same
      · exact hw

theorem Keeps.xlate (hs : Keeps s₀ s) {b va} : Keeps s₀ (s.xlate b va).2 := by
  unfold State.xlate
  split
  · exact hs
  · split
    · exact hs.tlb
    · exact hs

theorem Keeps.serve (hs : Keeps s₀ s) {e p} : Keeps s₀ (s.serve e p) := by
  unfold State.serve
  split
  · exact hs
  · dsimp only
    split
    · exact (hs.updDie fun d => d.updPort_sizes _ _).same
    · exact hs

theorem Keeps.acceptMsg (hs : Keeps s₀ s) {e p v} : Keeps s₀ (s.acceptMsg e p v) := by
  refine Keeps.serve (hs.updDie fun d => ?_)
  obtain ⟨hsens, harmed, hcerr, hstop⟩ := d.updPort_sizes p fun x => { x with msgs := x.msgs ++ [v] }
  exact ⟨hsens, harmed, hcerr, hstop⟩

theorem Keeps.ownMsg (hs : Keeps s₀ s) {e p v} : Keeps s₀ (s.ownMsg e p v) := by
  unfold State.ownMsg
  split
  · exact hs
  · exact .ite hs.acceptMsg (hs.updDie fun d => d.updPort_sizes _ _)

theorem Keeps.postAbsent (hs : Keeps s₀ s) {tag va} : Keeps s₀ (s.postAbsent tag va) := by
  unfold State.postAbsent
  split
  · exact hs
  · exact .ite hs (Keeps.ownMsg hs.same)

theorem Keeps.absence (hs : Keeps s₀ s) {tag va} : Keeps s₀ (s.absence tag va) := by
  unfold State.absence
  split
  · exact hs
  · exact .ite hs hs.postAbsent

theorem Keeps.memWrAll (hs : Keeps s₀ s) {tag pa bs} : Keeps s₀ (s.memWrAll tag pa bs) :=
  hs.foldl fun _ _ h => h.memWr

theorem Keeps.writeFrame (hs : Keeps s₀ s) {tag pa as} : Keeps s₀ (s.writeFrame tag pa as) :=
  hs.foldl fun _ _ h => h.memWrAll

theorem Keeps.freeFrameOf (hs : Keeps s₀ s) {b t} : Keeps s₀ (s.freeFrameOf b t) := by
  unfold State.freeFrameOf
  split
  · exact .ite hs hs.same
  · exact hs

theorem Keeps.ungrant (hs : Keeps s₀ s) {r} : Keeps s₀ (s.ungrant r) := by
  unfold State.ungrant
  split
  · exact hs
  · exact hs.same

theorem Keeps.faultBlock (hs : Keeps s₀ s) {b q} : Keeps s₀ (s.faultBlock b q) :=
  (hs.foldl (l := b.teams) fun _ _ h => h.ungrant.freeFrameOf).same

theorem Keeps.faultRecord (hs : Keeps s₀ s) {b t q entered} : Keeps s₀ (s.faultRecord b t q entered) :=
  .ite hs hs.record

theorem Keeps.frameWrite (hs : Keeps s₀ s) {b t q f} : FrameKeeps s₀ (s.frameWrite b t q f) := by
  unfold State.frameWrite
  dsimp only
  split
  · next e => exact (hs.xlate.of_eq e).absence
  · next e => exact hs.xlate.of_eq e
  · next e =>
    have h1 := hs.xlate.of_eq e
    exact .ite h1 (.ite h1 h1.writeFrame)

theorem Keeps.claimFrame (hs : Keeps s₀ s) {r b f} : Keeps s₀ (s.claimFrame r b f) := (Keeps.ite hs hs.updCtx).updTeam

theorem Keeps.endTeam (hs : Keeps s₀ s) {r} : Keeps s₀ (s.endTeam r) := by
  unfold State.endTeam
  split
  · exact hs
  · exact hs.ungrant.freeFrameOf.same

theorem Keeps.lateWrites (hs : Keeps s₀ s) {r t} : Keeps s₀ (s.lateWrites r t) := Keeps.regWrites hs.same

theorem Keeps.failTrap (hs : Keeps s₀ s) {r b t q} : Keeps s₀ (s.failTrap r b t q) :=
  hs.faultRecord.lateWrites.faultBlock

theorem Keeps.entryScore (hs : Keeps s₀ s) {r b t} : Keeps s₀ (s.entryScore r b t) := by
  unfold State.entryScore
  refine .ite hs.same ?_
  have h2 : Keeps s₀ (if t.counted then s.entryPark r .score
      else ((s.entryPark r .score).countPoint b).updTeam r fun u => { u with counted := true }) := .ite hs.same hs.same
  exact .ite h2.endTeam h2

theorem Keeps.enterFrame (hs : Keeps s₀ s) {r q f} : Keeps s₀ (s.enterFrame r q f) := by
  unfold State.enterFrame
  split
  · exact hs
  · next b t _ =>
    refine .ite hs.entryScore ?_
    have hf : FrameKeeps s₀ (s.frameWrite b t q f) := hs.frameWrite
    split
    · next e => exact Keeps.same (hf.of_eq e)
    · next e => exact Keeps.failTrap (hf.of_eq e)
    · next s1 e =>
      have h1 : Keeps s₀ (s1.updTeam r fun u => u.enter q f (s1.vectorOf b q.cause)) := Keeps.same (s := s1) (hf.of_eq e)
      exact h1.faultRecord.regWrites

theorem Keeps.enterTrap (hs : Keeps s₀ s) {r} : Keeps s₀ (s.enterTrap r) := by
  unfold State.enterTrap
  split
  · exact hs
  · split
    · exact hs
    · refine .ite hs.same ?_
      split
      · exact hs.enterFrame
      · refine .ite hs.failTrap ?_
        split
        · exact hs.same
        · exact hs.claimFrame.enterFrame

theorem Keeps.raise (hs : Keeps s₀ s) {r q} : Keeps s₀ (s.raise r q) := Keeps.enterTrap hs.ungrant.same

theorem Keeps.trapReq (hs : Keeps s₀ s) {q} : Keeps s₀ (s.trapReq q) := hs.raise.same

theorem Keeps.trapAt (hs : Keeps s₀ s) {c info lanes} : Keeps s₀ (s.trapAt c info lanes) := hs.trapReq

theorem Keeps.trap (hs : Keeps s₀ s) {c} : Keeps s₀ (s.trap c) := hs.trapAt

theorem Keeps.trapNext (hs : Keeps s₀ s) {c info extn} : Keeps s₀ (s.trapNext c info extn) := hs.trapReq

theorem Keeps.atPoint (hs : Keeps s₀ s) {h : Hd} {b : Block} {f : Out} (hf : OutKeeps s₀ f) :
    OutKeeps s₀ (s.atPoint h b f) :=
  .ite (Keeps.endTeam (hs.same)) hf

theorem Keeps.scorePark (hs : Keeps s₀ s) {b t rs} : Keeps s₀ (s.scorePark b t rs) := by
  unfold State.scorePark
  have h1 : Keeps s₀ (if t.counted then s else (s.countPoint b).updTeam s.cur.r fun u => { u with counted := true }) :=
    .ite hs hs.same
  exact .ite (.ite h1.endTeam.same h1.same) hs.same

theorem Keeps.chk (hs : Keeps s₀ s) {reads writes : List RegName} {scored : Bool} {f : Block → Team → Out}
    (hf : ∀ b t, OutKeeps s₀ (f b t)) : OutKeeps s₀ (s.chk reads writes scored f) := by
  rcases s.chk_cases reads writes scored f with ⟨-, e⟩ | ⟨b, t, -, ⟨-, e⟩ | ⟨-, e⟩ | ⟨-, e⟩ | ⟨-, e⟩⟩
  · rw [e]; trivial
  · rw [e]; exact hs.trap
  · rw [e]; exact hs.scorePark
  · rw [e]; exact Keeps.same hs
  · rw [e]; exact hf b t

theorem Keeps.fetchWord (hs : Keeps s₀ s) {b va} : Keeps s₀ (s.fetchWord b va).2 := by
  unfold State.fetchWord
  split
  · exact hs
  · split
    · next e => exact (hs.xlate.of_eq e).absence
    · next e => exact hs.xlate.of_eq e
    · next e =>
      have h1 := hs.xlate.of_eq e
      dsimp only
      split
      · exact h1
      · split
        · split
          · exact h1
          · split
            · exact h1
            · exact h1.memRd (n := 4)
        · split
          · exact h1
          · exact h1

/-! ### Operands, Vespers and the memory words (Machine/Operands.lean, Observe.lean, Memory.lean) -/

theorem Keeps.vOp (hs : Keeps s₀ s) {h k wide lat d srcs f} : OutKeeps s₀ (s.vOp h k wide lat d srcs f) :=
  hs.chk fun _ _ => hs.issue

theorem Keeps.legalVa (hs : Keeps s₀ s) {b need n va} : Keeps s₀ (s.legalVa b need n va).2 := by
  unfold State.legalVa
  dsimp only
  split
  · exact hs
  · split
    · next e => exact hs.xlate.of_eq e
    · next e => exact hs.xlate.of_eq e
    · next e => exact hs.xlate.of_eq e

theorem Keeps.legalX (hs : Keeps s₀ s) {b x need n o} : Keeps s₀ (s.legalX b x need n o).2.2 := by
  unfold State.legalX
  dsimp only
  split
  · exact hs
  · split
    · exact hs
    · split
      · exact hs
      · split
        · next e => exact hs.xlate.of_eq e
        · next e => exact hs.xlate.of_eq e
        · next e => exact hs.xlate.of_eq e

theorem Keeps.checkX (hs : Keeps s₀ s) {b : Block} {x : XReg} {need : Need} {n : Nat} {off : Nat → Int} {val cmp : Nat → Nat}
    {ls : List Nat} : Keeps s₀ (s.checkX b x need n off val cmp ls).2 := by
  induction ls generalizing s with
  | nil => exact hs
  | cons l ls ih =>
    unfold State.checkX
    dsimp only
    split
    · exact ih hs.legalX
    · exact ih hs.legalX
    · exact ih hs.legalX

theorem Keeps.recordIf (hs : Keeps s₀ s) {b r ev bit} : Keeps s₀ (s.recordIf b r ev bit) :=
  .ite (hs.updDie fun d => d.record_sizes _ _) hs

theorem Keeps.hitRecord (hs : Keeps s₀ s) {b t i ctl lanes addr} : Keeps s₀ (s.hitRecord b t i ctl lanes addr) :=
  hs.recordIf

theorem Keeps.hit (hs : Keeps s₀ s) {b t i ctl lanes addr stop} : Keeps s₀ (s.hit b t i ctl lanes addr stop).1 :=
  hs.hitRecord

theorem Keeps.dataHits (hs : Keeps s₀ s) {b t rd wr size acc} : Keeps s₀ (s.dataHits b t rd wr size acc).1 := by
  refine .ite_fst hs (Keeps.foldl_fst hs fun p i hp => ?_)
  exact .ite_fst hp.hit hp

theorem Keeps.pcHits (hs : Keeps s₀ s) {b t lanes} : Keeps s₀ (s.pcHits b t lanes).1 := by
  refine .ite_fst hs (Keeps.foldl_fst hs fun p i hp => ?_)
  exact .ite_fst hp.hit hp

theorem Keeps.countWord (hs : Keeps s₀ s) {b t} : Keeps s₀ (s.countWord b t).2 :=
  .ite_snd hs (.ite_snd hs (.ite_snd (hs.updCore (f := fun x => { x with mwords := _ })) hs))

theorem Keeps.sampleRecord (hs : Keeps s₀ s) {b t pc time phase replays sp sec acc} :
    Keeps s₀ (s.sampleRecord b t pc time phase replays sp sec acc) := Keeps.recordIf hs.same

theorem Keeps.spadWr (hs : Keeps s₀ s) {b o bs} : Keeps s₀ (s.spadWr b o bs) := hs.same

theorem Keeps.stopAt (hs : Keeps s₀ s) {b t cause cmp} : Keeps s₀ (s.stopAt b t cause cmp) := hs.same

theorem Keeps.onLanes (hs : Keeps s₀ s) {t : Team} {lane : Option (BitVec 3)} {c : Checked}
    {f : List LaneAcc → (Team → Team) → Out} (hf : ∀ ls upd, OutKeeps s₀ (f ls upd)) :
    OutKeeps s₀ (s.onLanes t lane c f) := by
  unfold State.onLanes
  split
  · exact hf _ _
  · split
    · exact .ite (hf _ _) hs.trapAt
    · exact hs.trapAt

theorem Keeps.memGo (hs : Keeps s₀ s) {h b t lane m ls upd} : OutKeeps s₀ (s.memGo h b t lane m ls upd) := by
  unfold State.memGo
  refine .ite hs.park ?_
  split
  · next e => exact (hs.dataHits.of_fst e).stopAt
  · next s0 e =>
    have h1 := (hs.dataHits.of_fst e).countWord (b := b) (t := t)
    have h3 : ∀ n, Keeps s₀ (ls.foldl (fun s a => if a.pa.isNone then s.absence b.tag a.va else s)
        { (s0.countWord b t).2 with nextId := n }) := fun n => Keeps.foldl h1.same fun _ _ h => .ite h.absence h
    exact .ite hs.park (.ite (Keeps.ite (h3 _).sampleRecord (h3 _)).issue (h3 _).issue)

theorem Keeps.memLanes (hs : Keeps s₀ s) {h k x o need reads writes m val cmp} :
    OutKeeps s₀ (s.memLanes h k x o need reads writes m val cmp) := by
  refine hs.chk fun b t => ?_
  split
  next e =>
    have h1 := hs.checkX.of_eq e
    exact h1.onLanes fun _ _ => h1.memGo

theorem Keeps.memUni (hs : Keeps s₀ s) {h x o need reads writes m val} :
    OutKeeps s₀ (s.memUni h x o need reads writes m val) := by
  refine hs.chk fun b t => ?_
  split
  next e =>
    have h1 := hs.checkX.of_eq e
    exact h1.onLanes fun _ _ => h1.memGo

theorem Keeps.spTest (hs : Keeps s₀ s) {b : Block} {t : Team} {lane : Option (BitVec 3)} {rd wr : Bool} {size : Nat}
    {ls : List LaneAcc} {f : Bool → State → Out} (hf : ∀ smp v, Keeps s₀ v → OutKeeps s₀ (f smp v)) :
    OutKeeps s₀ (s.spTest b t lane rd wr size ls f) := by
  unfold State.spTest
  split
  · next e => exact (hs.dataHits.of_fst e).stopAt
  · next e => exact hf _ _ (hs.dataHits.of_fst e).countWord.updTeam

theorem Keeps.spGo (hs : Keeps s₀ s) {b : Block} {t : Team} {lane : Option (BitVec 3)} {rd wr : Bool} {size : Nat}
    {ls : List LaneAcc} {f : State → Out} (hf : ∀ v, Keeps s₀ v → OutKeeps s₀ (f v)) :
    OutKeeps s₀ (s.spGo b t lane rd wr size ls f) :=
  hs.spTest fun _ _ h => hf _ (.ite h.sampleRecord h)

theorem Keeps.spJoin (hs : Keeps s₀ s) {h b m smp ls upd} : Keeps s₀ (s.spJoin h b m smp ls upd) := hs.same

theorem Keeps.spWord (hs : Keeps s₀ s) {h : Hd} {b : Block} {t : Team} {lane : Option (BitVec 3)} {m : MSpec}
    {ls : List LaneAcc} {upd : Team → Team} {now : State → Out} (hf : ∀ v, Keeps s₀ v → OutKeeps s₀ (now v)) :
    OutKeeps s₀ (s.spWord h b t lane m ls upd now) :=
  .ite (hs.spTest fun _ _ h => h.spJoin) (hs.spGo hf)

theorem Keeps.spLoad (hs : Keeps s₀ s) {h b lane e z dest ls upd} : OutKeeps s₀ (s.spLoad h b lane e z dest ls upd) := by
  unfold State.spLoad
  split
  · trivial
  · exact hs.spWord fun _ h => .ite h.issue h.same

theorem Keeps.execLds (hs : Keeps s₀ s) {h k d o e z} : OutKeeps s₀ (execLds h k d o e z s) :=
  hs.chk fun _ _ => hs.onLanes fun _ _ => hs.spLoad

theorem Keeps.execLdws (hs : Keeps s₀ s) {h d o e z} : OutKeeps s₀ (execLdws h d o e z s) :=
  hs.chk fun _ _ => hs.onLanes fun _ _ => hs.spLoad

theorem Keeps.spStore (hs : Keeps s₀ s) {size ls} : Keeps s₀ (s.spStore size ls) := hs.foldl fun _ _ h => h.spadWr

theorem Keeps.execSts (hs : Keeps s₀ s) {h k d o z} : OutKeeps s₀ (execSts h k d o z s) :=
  hs.chk fun _ _ => hs.onLanes fun _ _ => hs.spWord fun _ h => h.spStore.issue

theorem Keeps.execStws (hs : Keeps s₀ s) {h d o z} : OutKeeps s₀ (execStws h d o z s) :=
  hs.chk fun _ _ => hs.onLanes fun _ _ => hs.spWord fun _ h => h.spStore.issue

theorem Keeps.emptyAll (hs : Keeps s₀ s) {gs} : Keeps s₀ (s.emptyAll gs) := hs.foldl fun _ _ h => h.updBlock

theorem Keeps.wakeConsume (hs : Keeps s₀ s) {r} : Keeps s₀ (s.wakeConsume r) := by
  unfold State.wakeConsume
  split
  · split
    · refine .ite ?_ hs
      have h1 : ∀ c gs, Keeps s₀ (if c = true then s.emptyAll gs else s) := fun _ _ => .ite hs.emptyAll hs
      dsimp only
      split
      · exact (h1 _ _).sampleRecord.updTeam
      · exact (h1 _ _).updTeam
    · exact hs
  · exact hs

theorem Keeps.consume (hs : Keeps s₀ s) {h k d o e z empty} : OutKeeps s₀ (s.consume h k d o e z empty) := by
  refine hs.chk fun b t => hs.atPoint <| hs.onLanes fun ls upd => hs.spTest fun smp v hv => ?_
  have h1 : Keeps s₀ (v.countPoint b) := hv.same
  exact .ite (Keeps.ite h1.sampleRecord h1).issue (Keeps.wakeConsume (Keeps.same h1))

theorem Keeps.feSample (hs : Keeps s₀ s) {b t pc time phase a} : Keeps s₀ (s.feSample b t pc time phase a) :=
  hs.sampleRecord

theorem Keeps.feRange (hs : Keeps s₀ s) {h d o kind} : OutKeeps s₀ (s.feRange h d o kind) := by
  refine hs.chk fun b t => .ite hs.trap (.ite hs.trap ?_)
  split
  · exact hs.trap
  · have h1 := hs.countWord (b := b) (t := t)
    exact .ite (Keeps.ite h1.feSample h1).issue h1.same

theorem Keeps.spAtoms (hs : Keeps s₀ s) {size op : Nat} {ty : BitVec 4} {ls : List LaneAcc} :
    Keeps s₀ (s.spAtoms size op ty ls).2 := by
  induction ls generalizing s with
  | nil => exact hs
  | cons a as ih => exact ih hs.spadWr

theorem Keeps.atomWord (hs : Keeps s₀ s) {h p k d x o sp ret} : OutKeeps s₀ (s.atomWord h p k d x o sp ret) := by
  refine .ite (hs.chk fun _ _ => hs.onLanes fun _ _ => hs.spWord fun _ h => ?_) hs.memLanes
  exact .ite h.spAtoms.issue h.spAtoms.same

theorem Keeps.execFence (hs : Keeps s₀ s) {h} : OutKeeps s₀ (execFence h s) :=
  hs.chk fun _ _ => .ite hs.park (.ite hs.park hs.issue)

theorem Keeps.execXfence (hs : Keeps s₀ s) {h q p} : OutKeeps s₀ (execXfence h q p s) :=
  hs.chk fun _ _ => .ite hs.park hs.issue

theorem Keeps.execSpfence (hs : Keeps s₀ s) {h} : OutKeeps s₀ (execSpfence h s) :=
  hs.chk fun _ _ => .ite hs.park hs.same

/-! ### Benches, lane words, sparse words and network reductions (Machine/Bench.lean to Nred.lean) -/

theorem Keeps.post (hs : Keeps s₀ s) {blk off na nb} : Keeps s₀ (s.post blk off na nb) := hs.spadWr

theorem Keeps.benchJoin (hs : Keeps s₀ s) {h b kind a blk off val} : Keeps s₀ (s.benchJoin h b kind a blk off val) :=
  hs.same

theorem Keeps.execBinit (hs : Keeps s₀ s) {h d o} : OutKeeps s₀ (execBinit h d o s) := by
  refine hs.chk fun b t => ?_
  split
  · exact hs.trap
  · exact .ite hs.trap (.ite hs.benchJoin hs.spadWr.issue)

theorem Keeps.execBarrive (hs : Keeps s₀ s) {h o} : OutKeeps s₀ (execBarrive h o s) := by
  refine hs.chk fun b t => ?_
  split
  · exact hs.trap
  · exact .ite hs.benchJoin hs.post.issue

theorem Keeps.wakeBench (hs : Keeps s₀ s) {r} : Keeps s₀ (s.wakeBench r) := by
  unfold State.wakeBench
  split
  · split
    · exact .ite hs.updTeam hs
    · exact hs
  · exact hs

theorem Keeps.execBwait (hs : Keeps s₀ s) {h d o} : OutKeeps s₀ (execBwait h d o s) := by
  refine hs.chk fun b t => hs.atPoint ?_
  split
  · exact hs.trap
  · exact Keeps.wakeBench hs.same

theorem Keeps.wakeSg (hs : Keeps s₀ s) {r} : Keeps s₀ (s.wakeSg r) := by
  unfold State.wakeSg
  split
  · split
    · exact .ite hs.same hs
    · exact hs
  · exact hs

theorem Keeps.execSgjoin (hs : Keeps s₀ s) {h d} : OutKeeps s₀ (execSgjoin h d s) :=
  hs.chk fun _ _ => hs.atPoint <| .ite hs.trap (.ite hs.park (Keeps.wakeSg hs.same))

theorem Keeps.execScatc (hs : Keeps s₀ s) {h k d x o y q} : OutKeeps s₀ (execScatc h k d x o y q s) := by
  refine .ite (hs.chk fun b t => hs.onLanes fun ls upd => ?_) (hs.chk fun b t => ?_)
  · split
    · next e => exact (hs.dataHits.of_fst e).stopAt
    · next e =>
      have h1 := (hs.dataHits.of_fst e).countWord (b := b) (t := t)
      exact .ite (Keeps.ite h1.sampleRecord h1).issue h1.spJoin
  · split
    next e =>
      have h1 := hs.checkX.of_eq e
      exact h1.onLanes fun _ _ => h1.memGo

theorem Keeps.isectWord (hs : Keeps s₀ s) {h d b z out} : OutKeeps s₀ (s.isectWord h d b z out) := by
  refine hs.chk fun b t => ?_
  dsimp only
  split
  · exact hs.trap
  · exact hs.trap
  · exact hs.trap
  · exact .ite hs.trap hs.spJoin

theorem Keeps.isectPut (hs : Keeps s₀ s) {o w ms j} : Keeps s₀ (s.isectPut o w ms j) := by
  unfold State.isectPut
  split
  · exact hs.spadWr
  · exact hs

theorem Keeps.isectLane (hs : Keeps s₀ s) {o i} : Keeps s₀ (s.isectLane o i).2 := by
  unfold State.isectLane
  split
  · refine .ite_snd hs (.ite_snd hs (.ite_snd hs (.ite_snd ?_ hs)))
    exact .ite_snd hs.isectPut hs
  · exact hs

theorem Keeps.isectRun (hs : Keeps s₀ s) {o} : Keeps s₀ (s.isectRun o).1 := by
  unfold State.isectRun
  split
  · exact hs.foldl fun _ _ h => h.isectPut
  · exact hs

theorem Keeps.nredWord (hs : Keeps s₀ s) {h u b o r ord} : OutKeeps s₀ (s.nredWord h u b o r ord) :=
  hs.chk fun _ _ => .ite hs.trap (.ite hs.trap (.ite hs.same hs.same))

theorem Keeps.nredFree (hs : Keeps s₀ s) {o n : Nat} {l : List Nat} : Keeps s₀ (s.nredFree o n l).2 := by
  induction n generalizing s l with
  | zero => exact hs
  | succ n ih =>
    unfold State.nredFree
    split
    · exact ih hs.same
    · exact hs

theorem Keeps.nredAnswer (hs : Keeps s₀ s) {r pend d o x st} : Keeps s₀ (s.nredAnswer r pend d o x st) := hs.updTeam

theorem Keeps.nredJoin (hs : Keeps s₀ s) {m i} : Keeps s₀ (s.nredJoin m i) := by
  refine .ite hs.same (Keeps.foldl ?_ fun _ _ h => h.nredAnswer)
  exact .ite_snd hs.same (Keeps.nredFree hs.same)

theorem Keeps.execNredContributionArrival (hs : Keeps s₀ s) {n} : OutKeeps s₀ (execNredContributionArrival n s) := by
  unfold Machine.execNredContributionArrival
  split
  · exact hs
  · refine .ite hs (.ite hs.same ?_)
    have h1 : ∀ l, Keeps s₀ { s with nmsgs := l } := fun _ => hs.same
    dsimp only
    split
    · exact (h1 _).nredJoin
    · exact .ite (h1 _).nredAnswer (.ite (h1 _).nredAnswer (h1 _).nredJoin)

/-! ### Levels, futures and cancels (Machine/Levels.lean) -/

theorem Keeps.slotGen (hs : Keeps s₀ s) {c slot} : Keeps s₀ (s.slotGen c slot).2 := by
  unfold State.slotGen
  split
  · exact hs
  · exact hs.same

theorem Keeps.newLevel (hs : Keeps s₀ s) {tag kind lk parent n phase auto die} :
    Keeps s₀ (s.newLevel tag kind lk parent n phase auto die).2 := by
  unfold State.newLevel
  split
  next e =>
    have h1 : Keeps s₀ (s.choice levelSlots).2 := hs.same
    have h1 := h1.of_eq e
    split
    · exact h1
    · exact h1.slotGen.updCtx

theorem Keeps.newPhase (hs : Keeps s₀ s) {tag die} : Keeps s₀ (s.newPhase tag die).2 := by
  unfold State.newPhase
  split
  · exact hs
  · exact hs.newLevel.updCtx

theorem Keeps.newLaunch (hs : Keeps s₀ s) {tag src ng np lk n die} :
    Keeps s₀ (s.newLaunch tag src ng np lk n die).2.2 := by
  unfold State.newLaunch
  split
  · exact hs
  · dsimp only
    split
    · exact hs.newPhase.newLevel.newLevel
    · split
      · exact hs.newLevel.newLevel
      · exact hs.newLevel

theorem Keeps.closeLevel (hs : Keeps s₀ s) {tag slot st} : Keeps s₀ (s.closeLevel tag slot st) := hs.updCtx

theorem Keeps.placeFault (hs : Keeps s₀ s) {tag slot} : Keeps s₀ (s.placeFault tag slot) := hs.updCtx

theorem Keeps.futWrite (hs : Keeps s₀ s) {f} : Keeps s₀ (s.futWrite f) := by
  have h1 : Keeps s₀ (if f.pcount < 2 ^ 16 then (f.pcount, s) else (s.fresh.1.toNat % 2 ^ 16, s.fresh.2)).2 :=
    .ite_snd hs hs.same
  exact h1.unitWr

theorem Keeps.updFuture (hs : Keeps s₀ s) {die fut f} : Keeps s₀ (s.updFuture die fut f) := hs.updDie

theorem Keeps.futForget (hs : Keeps s₀ s) {die} : Keeps s₀ (s.futForget die) := hs.updDie

theorem Keeps.futFree (hs : Keeps s₀ s) {die fut} : Keeps s₀ (s.futFree die fut) := by
  refine hs.updDie fun d => ?_
  split
  · exact .refl d
  · exact ⟨rfl, rfl, rfl, rfl⟩

theorem Keeps.futEnd (hs : Keeps s₀ s) {f st value pcount} : Keeps s₀ (s.futEnd f st value pcount) := by
  unfold State.futEnd
  split
  · exact hs
  · split
    · exact hs
    · exact .ite hs.updFuture.futWrite.futForget hs

theorem Keeps.futLower (hs : Keeps s₀ s) {die fut} : Keeps s₀ (s.futLower die fut).2 := by
  unfold State.futLower
  split
  · exact hs
  · refine .ite_snd hs ?_
    have h1 : ∀ x f g, Keeps s₀ ((s.updFuture die x f).futWrite g) := fun _ _ _ => hs.updFuture.futWrite
    exact .ite_snd (h1 _ _ _).futFree.futForget (h1 _ _ _)

theorem Keeps.markCancelled (hs : Keeps s₀ s) {tag slot} : Keeps s₀ (s.markCancelled tag slot) := hs.updCtx

theorem Keeps.dropDispatch (hs : Keeps s₀ s) {d} : Keeps s₀ (s.dropDispatch d) := Keeps.futEnd (Keeps.same hs)

theorem Keeps.reclaimTask (hs : Keeps s₀ s) {die fut} : Keeps s₀ (s.reclaimTask die fut).2 := by
  unfold State.reclaimTask
  split
  · exact hs.markCancelled.dropDispatch
  · split
    · exact hs.markCancelled.updBlock
    · exact hs

theorem Keeps.futDrops (hs : Keeps s₀ s) {fuel : Nat} {l : List (Nat × Nat)} : Keeps s₀ (State.futDrops fuel s l) := by
  induction fuel generalizing s l with
  | zero => cases l <;> exact hs
  | succ fuel ih =>
    cases l with
    | nil => exact hs
    | cons p rest =>
      unfold State.futDrops
      split
      · next e => exact ih (hs.futLower.of_eq e)
      · next e => exact ih (hs.futLower.of_eq e).reclaimTask

theorem Keeps.futDropAll (hs : Keeps s₀ s) {l} : Keeps s₀ (s.futDropAll l) := hs.futDrops

theorem Keeps.closeBins (hs : Keeps s₀ s) {tag p} : Keeps s₀ (s.closeBins tag p) :=
  hs.foldl fun _ _ h => h.updDie.foldl fun _ _ k => k.updCtx

theorem Keeps.cancelLevel (hs : Keeps s₀ s) {tag slot} : Keeps s₀ (s.cancelLevel tag slot) := by
  unfold State.cancelLevel
  split
  · exact hs
  · split
    · exact hs
    · refine .ite hs ?_
      exact (Keeps.foldl (Keeps.closeBins hs.same) fun _ _ h => h.dropDispatch).futDropAll

theorem Keeps.closeIfCancelled (hs : Keeps s₀ s) {tag slot} : Keeps s₀ (s.closeIfCancelled tag slot) :=
  .ite hs.closeLevel hs

/-! ### Copies (Machine/Copy.lean) -/

theorem Keeps.getVa (hs : Keeps s₀ s) {b n va} : GotKeeps s₀ (s.getVa b n va) := by
  unfold State.getVa
  split
  · trivial
  · trivial
  · next e => exact .ite trivial ((hs.legalVa.of_eq e).memRd (n := n))

theorem Keeps.getList (hs : Keeps s₀ s) {b : Block} {n va k : Nat} : GotKeeps s₀ (s.getList b n va k) := by
  induction k generalizing s va with
  | zero => exact hs
  | succ k ih =>
    unfold State.getList
    split
    · trivial
    · trivial
    · next e =>
      have h2 := ih (hs.getVa.of_ok e) (va := va + n)
      split
      · trivial
      · trivial
      · next e2 => exact (h2.of_ok e2 :)

theorem Keeps.withGot {α : Type} (hs : Keeps s₀ s) {b : Block} {g : Got α} {f : α → State → Out} (hg : GotKeeps s₀ g)
    (hf : ∀ a v, Keeps s₀ v → OutKeeps s₀ (f a v)) : OutKeeps s₀ (s.withGot b g f) := by
  cases g with
  | ok a v => exact hf a v hg
  | bad c => exact hs.trap
  | absent va => exact hs.absence.park

theorem Keeps.withChk {α : Type} (hs : Keeps s₀ s) {e : Except Cause α} {f : α → Out} (hf : ∀ a, OutKeeps s₀ (f a)) :
    OutKeeps s₀ (s.withChk e f) := by
  cases e with
  | ok a => exact hf a
  | error c => exact hs.trap

theorem Keeps.reach (hs : Keeps s₀ s) {b c need k n va} : ReachKeeps s₀ (s.reach b c need k n va) := by
  unfold State.reach
  dsimp only
  split
  · exact hs
  · split
    · next e => exact .ite (hs.legalVa.of_eq e).postAbsent (hs.legalVa.of_eq e)
    · next e => exact .ite (hs.legalVa.of_eq e) (hs.legalVa.of_eq e).absence
    · next e => exact .ite hs (hs.legalVa.of_eq e)

theorem Keeps.regWordWr (hs : Keeps s₀ s) {b ti o old bs} : Keeps s₀ (s.regWordWr b ti o old bs) := by
  unfold State.regWordWr
  exact hs.regWrite

theorem Keeps.tileWr (hs : Keeps s₀ s) {b d ring byte bs} : Keeps s₀ (s.tileWr b d ring byte bs) := hs.updBlock

theorem Keeps.chipWr (hs : Keeps s₀ s) {b c k bs} : Keeps s₀ (s.chipWr b c k bs).1 := by
  unfold State.chipWr
  dsimp only
  split
  · exact hs.spadWr.updBlock
  · exact hs.tileWr
  · split
    · exact hs.regWordWr
    · exact hs
  · exact hs

theorem Keeps.xStep (hs : Keeps s₀ s) {b c rows m} : Keeps s₀ (s.xStep b c rows m).1 := by
  unfold State.xStep
  dsimp only
  split
  · exact hs
  · split
    · exact hs
    · next n va _ =>
      split
      · next e => exact (hs.reach.of_eq e :)
      · next e => exact (hs.reach.of_eq e :)
      · next e => exact Keeps.memRd (hs.reach.of_eq e :) (n := n)

theorem Keeps.copySrc (hs : Keeps s₀ s) {b c j} : Keeps s₀ (s.copySrc b c j).1 := by
  unfold State.copySrc
  split
  · exact hs.xStep
  · refine .ite_fst hs (.ite_fst (.ite_fst hs hs) ?_)
    split
    · exact hs
    · split
      · next e => exact (hs.reach.of_eq e :)
      · next e => exact (hs.reach.of_eq e :)
      · next e => exact Keeps.memRd (hs.reach.of_eq e :) (n := c.esize)

theorem Keeps.memUnit (hs : Keeps s₀ s) {b c k va bs} : Keeps s₀ (s.memUnit b c k va bs).1 := by
  unfold State.memUnit
  split
  · next e => exact (hs.reach.of_eq e :)
  · next e => exact (hs.reach.of_eq e :)
  · next e => exact Keeps.memWr (hs.reach.of_eq e :)

theorem Keeps.copyDst (hs : Keeps s₀ s) {b c k} : Keeps s₀ (s.copyDst b c k).1 := by
  unfold State.copyDst
  refine .ite_fst hs (.ite_fst ?_ ?_)
  · split
    · exact .ite_fst hs.chipWr hs
    · exact hs
  · split
    · exact hs
    · refine .ite_fst ?_ ?_
      · split
        · exact hs.memUnit
        · exact hs
      · split
        · exact .ite_fst hs hs.memUnit
        · exact hs

theorem Keeps.putCopy (hs : Keeps s₀ s) {c} : Keeps s₀ (s.putCopy c) := hs.same

theorem Keeps.element (hs : Keeps s₀ s) {n k} : Keeps s₀ (s.element n k) := by
  unfold State.element
  split
  · exact hs
  · split
    · exact hs
    · exact Keeps.putCopy (.ite_fst hs.copySrc hs.copyDst)

theorem Keeps.xMake (hs : Keeps s₀ s) {b c i r} : Keeps s₀ (s.xMake b c i r).1 := by
  unfold State.xMake
  split
  · exact hs.xStep
  · exact hs

theorem Keeps.xRow (hs : Keeps s₀ s) {b c i} : Keeps s₀ (s.xRow b c i).1 :=
  hs.xMake.xMake.foldl_fst fun _ _ h => h.xMake.foldl_fst fun _ _ k => k.xMake

theorem Keeps.xAll (hs : Keeps s₀ s) {b c} : Keeps s₀ (s.xAll b c).1 := by
  unfold State.xAll
  split
  · exact hs.foldl_fst fun _ _ h => h.xRow
  · exact hs

theorem Keeps.moveRest (hs : Keeps s₀ s) {b c} : Keeps s₀ (s.moveRest b c).1 := by
  refine hs.xAll.foldl_fst fun p k hp => ?_
  exact Keeps.copyDst (.ite_fst hp (hp.foldl_fst fun _ _ h => h.copySrc))

theorem Keeps.tileCount (hs : Keeps s₀ s) {c} : Keeps s₀ (s.tileCount c) := by
  unfold State.tileCount
  split
  · exact hs.updBlock
  · exact hs

theorem Keeps.copyPost (hs : Keeps s₀ s) {c} : Keeps s₀ (s.copyPost c) := by
  unfold State.copyPost
  split
  · exact hs.post
  · exact hs

theorem Keeps.copyTell (hs : Keeps s₀ s) {c} : Keeps s₀ (s.copyTell c) := by
  unfold State.copyTell
  split
  · exact hs.updTeam
  · exact hs

theorem Keeps.finishCopy (hs : Keeps s₀ s) {c} : Keeps s₀ (s.finishCopy c) := by
  unfold State.finishCopy
  refine .ite hs.copyPost.same ?_
  have h1 : Keeps s₀ ((s.tileCount c).choice 2).2 := hs.tileCount.same
  dsimp only
  split
  · next e => exact (h1.of_eq e).copyPost.copyTell.same
  · next e => exact (h1.of_eq e).copyTell.putCopy

theorem Keeps.execCopyCompletion (hs : Keeps s₀ s) {n} : OutKeeps s₀ (execCopyCompletion n s) := by
  unfold Machine.execCopyCompletion
  split
  · exact hs
  · split
    · exact hs.same
    · exact .ite hs.moveRest.putCopy hs.moveRest.putCopy.finishCopy

theorem Keeps.copyGo (hs : Keeps s₀ s) {h t c} : OutKeeps s₀ (s.copyGo h t c) := by
  unfold State.copyGo
  extract_lets ready
  split
  · exact hs.parkFor
  · cases c.chip <;> exact Keeps.ite (Keeps.finishCopy hs.same) hs.same

theorem Keeps.execDrawerReservation (hs : Keeps s₀ s) {r} : OutKeeps s₀ (execDrawerReservation r s) := by
  unfold Machine.execDrawerReservation
  split
  · exact hs
  · split
    · split
      · exact hs
      · refine .ite hs ?_
        split
        · exact .ite hs.same hs
        · exact hs
    · exact hs

theorem Keeps.copyWord (hs : Keeps s₀ s) {h : Hd} {u b : BitVec 6} {k : BitVec 3} {n : Nat} {f : Block → Team → Out}
    (hf : ∀ b t, OutKeeps s₀ (f b t)) : OutKeeps s₀ (s.copyWord h u b k n f) :=
  hs.chk fun _ _ => .ite hs.issue (hf _ _)

theorem Keeps.execCpy (hs : Keeps s₀ s) {h u b k tk dir} : OutKeeps s₀ (execCpy h u b k tk dir s) := by
  refine hs.copyWord fun x t => .ite hs.trap ?_
  exact hs.withChk fun chip => hs.withChk fun bench => .ite hs.trap hs.copyGo

theorem Keeps.execTcpy (hs : Keeps s₀ s) {h u b k tk dir} : OutKeeps s₀ (execTcpy h u b k tk dir s) := by
  refine hs.copyWord fun x t => hs.withGot hs.getVa fun rec v hv => hv.withChk fun chip => hv.withChk fun bench => ?_
  exact .ite hv.trap (hv.withGot hv.getList fun perm w hw => hw.copyGo)

theorem Keeps.rowsWord (hs : Keeps s₀ s) {h kind u b k tk dir} : OutKeeps s₀ (s.rowsWord h kind u b k tk dir) := by
  refine hs.copyWord fun x t => .ite hs.park (hs.withGot hs.getVa fun rec v hv => ?_)
  exact hv.withChk fun list => hv.withChk fun chip => hv.withChk fun bench => .ite hv.trap hv.copyGo

/-! ### Tile operations, Chest and drawers (Machine/Matrix.lean) -/

theorem Keeps.scoreNow (hs : Keeps s₀ s) {h d v switch} : Keeps s₀ (s.scoreNow h d v switch) := hs.same

theorem Keeps.execMpair (hs : Keeps s₀ s) {h d} : OutKeeps s₀ (execMpair h d s) := by
  refine hs.chk fun b t => ?_
  split
  · exact hs.issue
  · have h1 : ∀ o : Option Block, Keeps s₀
        (match o with | some x => (x.core, s) | none => (s.fresh.1.toNat % 1024, s.fresh.2)).2 := by
      intro o
      cases o with
      | none => exact hs.same
      | some x => exact hs
    exact (h1 _).issue

theorem Keeps.holdTiles (hs : Keeps s₀ s) {b q} : Keeps s₀ (s.holdTiles b q) := by
  unfold State.holdTiles
  refine .ite ?_ hs.updBlock
  split
  · exact hs.updBlock.updBlock
  · exact hs.updBlock

theorem Keeps.placeMma (hs : Keeps s₀ s) {b t q} : Keeps s₀ (s.placeMma b t q) := by
  unfold State.placeMma
  have h1 : Keeps s₀ (s.holdTiles b q).newId.2 := Keeps.same hs.holdTiles
  dsimp only
  split
  · exact h1.updBlock.updBlock
  · exact h1.updBlock

theorem Keeps.mmaWord (hs : Keeps s₀ s) {h z b p n k u zero} : OutKeeps s₀ (s.mmaWord h z b p n k u zero) := by
  refine hs.chk fun b t => .ite hs.trap (.ite hs.trap (.ite hs.trap (.ite hs.trap (.ite hs.same ?_))))
  split
  · exact hs.trap
  · exact hs.parkFor
  · exact hs.placeMma.issue

theorem Keeps.execMmaTake (hs : Keeps s₀ s) {r} : OutKeeps s₀ (execMmaTake r s) := by
  unfold Machine.execMmaTake
  split
  · exact hs
  · split
    · refine .ite hs ?_
      split
      · exact hs
      · exact hs.raise
      · exact hs.placeMma.same
    · exact hs

theorem Keeps.placeOp (hs : Keeps s₀ s) {h b t z pair kind addr bench} :
    Keeps s₀ (s.placeOp h b t z pair kind addr bench) := by
  unfold State.placeOp
  dsimp only
  split
  · exact hs.same
  · exact hs.same

theorem Keeps.tileMove (hs : Keeps s₀ s) {h z b p kind} : OutKeeps s₀ (s.tileMove h z b p kind) := by
  refine hs.chk fun b t => .ite hs.trap (.ite hs.trap (.ite hs.trap (.ite hs.trap ?_)))
  exact hs.withChk fun _ => hs.placeOp

theorem Keeps.execMzero (hs : Keeps s₀ s) {h z p} : OutKeeps s₀ (execMzero h z p s) :=
  hs.chk fun _ _ => .ite hs.trap (.ite hs.trap hs.placeOp)

theorem Keeps.execMstat (hs : Keeps s₀ s) {h d z l} : OutKeeps s₀ (execMstat h d z l s) := by
  refine hs.chk fun b t => ?_
  split
  · exact hs.trap
  · exact Keeps.scoreNow (.ite hs.updBlock hs)

theorem Keeps.execMperm (hs : Keeps s₀ s) {h b} : OutKeeps s₀ (execMperm h b s) :=
  hs.chk fun _ _ => .ite hs.trap (.ite hs.trap hs.same)

theorem Keeps.mmaPart (hs : Keeps s₀ s) {lead o z x ap bp r0 m old} : Keeps s₀ (s.mmaPart lead o z x ap bp r0 m old) := by
  unfold State.mmaPart
  split
  · exact hs
  · split
    · exact hs
    · exact hs.same

theorem Keeps.tileDone (hs : Keeps s₀ s) {x z f} : Keeps s₀ (s.tileDone x z f) := hs.updBlock

theorem Keeps.misTrap (hs : Keeps s₀ s) {o rec} : Keeps s₀ (s.misTrap o rec) := hs.updTeam

theorem Keeps.updOp (hs : Keeps s₀ s) {o z f} : Keeps s₀ (s.updOp o z f) := hs.foldl fun _ _ h => h.updBlock

theorem Keeps.tileGranule (hs : Keeps s₀ s) {o z g} : Keeps s₀ (s.tileGranule o z g) := .ite hs.same hs.same

theorem Keeps.tileRest (hs : Keeps s₀ s) {o z} : Keeps s₀ (s.tileRest o z) := hs.foldl fun _ _ h => h.tileGranule

theorem Keeps.perform (hs : Keeps s₀ s) {lead o z} : Keeps s₀ (s.perform lead o z) := by
  unfold State.perform
  have hdone : ∀ {v f}, Keeps s₀ v → Keeps s₀ (o.cores.foldl (fun s c => s.tileDone c.1 z f) v) :=
    fun h => h.foldl fun _ _ k => k.tileDone
  dsimp only
  split
  · have h0 : Keeps s₀ { s with free := s.free + 1 } := hs.same
    split
    · exact h0.mmaPart.mmaPart.updBlock
    · exact h0.mmaPart.updBlock
  · exact hdone hs
  · split
    · exact (hdone hs.tileRest).post
    · exact hdone hs.tileRest
  · split
    · exact (hdone hs).misTrap
    · split
      · exact (hdone hs.tileRest).post
      · exact hdone hs.tileRest

theorem Keeps.granule (hs : Keeps s₀ s) {b z g} : Keeps s₀ (s.granule b z g) := by
  unfold State.granule
  split
  · exact .ite hs hs.tileGranule.updOp
  · exact hs

theorem Keeps.execTileOpPerform (hs : Keeps s₀ s) {b z} : OutKeeps s₀ (execTileOpPerform b z s) := by
  unfold Machine.execTileOpPerform
  split
  · exact hs.perform
  · exact hs

theorem Keeps.execCclaim (hs : Keeps s₀ s) {h d b} : OutKeeps s₀ (execCclaim h d b s) := by
  refine hs.chk fun b t => .ite hs.trap ?_
  split
  · exact hs.trap
  · exact hs.same

theorem Keeps.execCclaimGrant (hs : Keeps s₀ s) {b} : OutKeeps s₀ (execCclaimGrant b s) := by
  unfold Machine.execCclaimGrant
  split
  · exact hs
  · split
    · exact hs
    · exact .ite hs hs.same

theorem Keeps.leaveChest (hs : Keeps s₀ s) {b out} : Keeps s₀ (s.leaveChest b out) := hs.updCore.updBlock

theorem Keeps.execCrelease (hs : Keeps s₀ s) {h b} : OutKeeps s₀ (execCrelease h b s) :=
  hs.chk fun _ _ => .ite hs.trap (.ite hs.park hs.leaveChest.same)

theorem Keeps.execDinit (hs : Keeps s₀ s) {h n b} : OutKeeps s₀ (execDinit h n b s) :=
  hs.chk fun _ _ => .ite hs.trap (.ite hs.park hs.same)

/-! ### Blocks at their start and the placement scan (Machine/Place.lean) -/

theorem Keeps.startBlock (hs : Keeps s₀ s) {d id core idx partner} : Keeps s₀ (s.startBlock d id core idx partner) :=
  hs.same

theorem Keeps.leave (hs : Keeps s₀ s) {b} : Keeps s₀ (s.leave b) := .ite hs hs.updCore

theorem Keeps.resumeAt (hs : Keeps s₀ s) {b core} : Keeps s₀ (s.resumeAt b core) := hs.updBlock

theorem Keeps.resumeUnit {g k : Nat} {bs : List Block} (hs : Keeps s₀ s) (h : s.resumeUnit g k bs = some v) : Keeps s₀ v := by
  induction bs generalizing s with
  | nil => exact Option.some.inj h ▸ hs
  | cons b bs ih =>
    unfold State.resumeUnit at h
    dsimp only at h
    split at h
    · exact ih hs.resumeAt h
    · cases h

theorem Keeps.putDispatch (hs : Keeps s₀ s) {d} : Keeps s₀ (s.putDispatch d) := .ite hs.same hs.same

theorem Keeps.nodeRuns (hs : Keeps s₀ s) {d cursor} : Keeps s₀ (s.nodeRuns d cursor) := by
  unfold State.nodeRuns
  split
  · exact hs.same
  · exact hs

theorem Keeps.binRuns (hs : Keeps s₀ s) {d cursor} : Keeps s₀ (s.binRuns d cursor) := .ite (hs.mapDies _) hs

theorem Keeps.placeAt (hs : Keeps s₀ s) {d c} : Keeps s₀ (s.placeAt d c) := by
  refine .ite (Keeps.putDispatch hs.same) ?_
  have h1 : Keeps s₀ (if d.total = 1 then (d.id, s) else s.newId).2 := .ite_snd hs hs.same
  exact (Keeps.nodeRuns h1.startBlock).binRuns.putDispatch

theorem Keeps.failDispatch (hs : Keeps s₀ s) {d} : Keeps s₀ (s.failDispatch d) := by
  have h1 : Keeps s₀ { s with
      dispatches := s.dispatches.filter fun (x : Dispatch) => !(x.tag == d.tag && x.slot == d.slot)
      dies := s.dies.map fun (e : Die) => { e with bins := e.bins.filter fun b => !(b.tag == d.tag && b.slot == d.slot) } } :=
    hs.mapDies _
  exact h1.placeFault.futEnd

theorem Keeps.tryPlace (hs : Keeps s₀ s) {d} : Keeps s₀ (s.tryPlace d) := by
  unfold State.tryPlace
  split
  · exact hs.placeAt
  · exact hs.putDispatch

theorem Keeps.execBlockPlacement (hs : Keeps s₀ s) {d} : OutKeeps s₀ (execBlockPlacement d s) := by
  unfold Machine.execBlockPlacement
  split
  · exact .ite hs.failDispatch (.ite hs.tryPlace hs)
  · exact hs

theorem Keeps.execStealRequest (hs : Keeps s₀ s) {c} : OutKeeps s₀ (execStealRequest c s) := .ite hs.same hs

theorem Keeps.execStealReply (hs : Keeps s₀ s) {c} : OutKeeps s₀ (execStealReply c s) := by
  unfold Machine.execStealReply
  split
  · exact hs
  · exact hs.same

/-! ### Tree launches (Machine/Tree.lean) -/

theorem Keeps.putTree (hs : Keeps s₀ s) {t} : Keeps s₀ (s.putTree t) := hs.same

theorem Keeps.execCensus (hs : Keeps s₀ s) {l} : OutKeeps s₀ (execCensus l s) := by
  unfold Machine.execCensus
  split
  · exact hs
  · next t _ =>
    refine .ite hs (.ite hs.putTree (.ite hs ?_))
    have h0 : ∀ l, Keeps s₀ (s.touchAll (some t.tag) l) := fun _ => hs.touchAll
    dsimp only
    split
    · exact (h0 _).putTree.absence
    · exact (h0 _).putTree
    · exact (h0 _).atDie

theorem Keeps.settleTree (hs : Keeps s₀ s) {t} : Keeps s₀ (s.settleTree t) := by
  unfold State.settleTree
  refine .ite hs.putTree ?_
  dsimp only
  exact hs.updDie.putTree

theorem Keeps.execShelfReservation (hs : Keeps s₀ s) {l} : OutKeeps s₀ (execShelfReservation l s) := by
  unfold Machine.execShelfReservation
  split
  · exact hs
  · exact .ite hs.putTree (.ite hs hs.settleTree)

theorem Keeps.execNodeDispatch (hs : Keeps s₀ s) {l} : OutKeeps s₀ (execNodeDispatch l s) := by
  unfold Machine.execNodeDispatch
  split
  · exact hs
  · refine .ite hs ?_
    split
    · exact hs
    · refine .ite hs ?_
      exact Keeps.ite (Keeps.tryPlace hs.same) hs.same

theorem Keeps.nodeEnd (hs : Keeps s₀ s) {b} : Keeps s₀ (s.nodeEnd b) := by
  unfold State.nodeEnd
  split
  · split
    · exact hs
    · have h1 : ∀ t f, Keeps s₀ (s.updCtx t f) := fun _ _ => hs.updCtx
      dsimp only
      split
      · exact hs
      · exact (h1 _ _).settleTree
      · exact .ite (h1 _ _).settleTree (h1 _ _).settleTree
  · exact hs

theorem Keeps.execSweepEnd (hs : Keeps s₀ s) {l} : OutKeeps s₀ (execSweepEnd l s) := by
  unfold Machine.execSweepEnd
  split
  · exact hs
  · refine .ite hs ?_
    extract_lets todo
    generalize hq : List.foldl _ _ todo = q
    have h1 : Keeps s₀ q.1 := by
      subst hq
      refine hs.foldl_fst fun p w hp => ?_
      dsimp only
      split
      · exact hp.touchAll
      · exact hp.touchAll.absence
      · exact hp.touchAll.memWr
    obtain ⟨s1, written, again⟩ := q
    cases again with
    | true => exact h1.putTree
    | false => exact Keeps.closeLevel (Keeps.atDie h1)

theorem Keeps.newTree (hs : Keeps s₀ s) {tag slot die record} : Keeps s₀ (s.newTree tag slot die record) := hs.same

theorem Keeps.execNres (hs : Keeps s₀ s) {h a w} : OutKeeps s₀ (execNres h a w s) := by
  refine hs.chk fun b t => ?_
  split
  · exact hs.trap
  · exact hs.same

theorem Keeps.execNresK (hs : Keeps s₀ s) {h a p w} : OutKeeps s₀ (execNresK h a p w s) := by
  refine hs.chk fun b t => ?_
  split
  · exact hs.trap
  · exact hs.same

theorem Keeps.execNchild (hs : Keeps s₀ s) {h d p w} : OutKeeps s₀ (execNchild h d p w s) := by
  refine hs.chk fun b t => ?_
  split
  · exact hs.trap
  · exact hs.scoreNow

theorem Keeps.execNparent (hs : Keeps s₀ s) {h d w} : OutKeeps s₀ (execNparent h d w s) := by
  refine hs.chk fun b t => ?_
  split
  · exact hs.trap
  · exact hs.scoreNow

/-! ### Control registers, launches and level waits (Machine/Ctrl.lean) -/

theorem Keeps.execRgive (hs : Keeps s₀ s) {h k} : OutKeeps s₀ (execRgive h k s) :=
  hs.chk fun _ _ => .ite hs.same (.ite hs.trap (.ite hs.park (.ite hs.park hs.same)))

theorem Keeps.execRclaim (hs : Keeps s₀ s) {h k} : OutKeeps s₀ (execRclaim h k s) := by
  refine hs.chk fun b t => .ite hs.trap (.ite hs.park ?_)
  exact .ite hs.same hs.same

theorem Keeps.execRclaimGrant (hs : Keeps s₀ s) {b} : OutKeeps s₀ (execRclaimGrant b s) := by
  unfold Machine.execRclaimGrant
  split
  · exact hs
  · dsimp only
    split
    · exact .ite hs.updBlock hs
    · exact hs

theorem Keeps.wakeBar (hs : Keeps s₀ s) {r} : Keeps s₀ (s.wakeBar r) := by
  unfold State.wakeBar
  dsimp only
  split
  · split
    · exact .ite hs.same hs.same
    · exact hs
  · exact hs

theorem Keeps.execBar (hs : Keeps s₀ s) {h} : OutKeeps s₀ (execBar h s) :=
  hs.chk fun _ _ => hs.atPoint (Keeps.wakeBar hs.same)

theorem Keeps.launchWord (hs : Keeps s₀ s) {d a : BitVec 6} {p g : BitVec 1} {f : Block → Nat → State → Out}
    (hf : ∀ b r v, Keeps s₀ v → OutKeeps s₀ (f b r v)) : OutKeeps s₀ (s.launchWord d a p g f) :=
  hs.chk fun _ _ => .ite hs.park (hs.withGot hs.getVa fun _ _ hv => .ite hv.trap (hf _ _ _ hv))

theorem Keeps.execLaunchFlat (hs : Keeps s₀ s) {h d a p g} : OutKeeps s₀ (execLaunchFlat h d a p g s) := by
  refine hs.launchWord fun b r v hv => .ite hv.trap ?_
  have h4 := hv.newLaunch (tag := b.tag) (src := b.slot) (ng := g = 1#1) (np := p = 1#1) (lk := .flat) (n := flatCount r)
    (die := coreDie b.core)
  exact Keeps.ite (Keeps.closeIfCancelled h4.same) h4.same

theorem Keeps.execLaunchTree (hs : Keeps s₀ s) {h d a p g} : OutKeeps s₀ (execLaunchTree h d a p g s) := by
  refine hs.launchWord fun b r v hv => ?_
  exact Keeps.ite hv.newLaunch.scoreNow.closeIfCancelled hv.newLaunch.scoreNow.newTree

theorem Keeps.execLaunchBin (hs : Keeps s₀ s) {h d a p g} : OutKeeps s₀ (execLaunchBin h d a p g s) := by
  refine hs.launchWord fun b r v hv => .ite hv.trap ?_
  split
  · exact hv.trap
  · exact Keeps.ite hv.newLaunch.scoreNow.closeIfCancelled hv.newLaunch.scoreNow.updDie

theorem Keeps.wakeLevel (hs : Keeps s₀ s) {r} : Keeps s₀ (s.wakeLevel r) := by
  unfold State.wakeLevel
  split
  · split
    · split
      · exact hs.updTeam
      · exact hs
    · exact hs
  · exact hs

theorem Keeps.forgetPast (hs : Keeps s₀ s) : Keeps s₀ s.forgetPast := .ite hs hs.same

theorem Keeps.execLvlwait (hs : Keeps s₀ s) {h d a} : OutKeeps s₀ (execLvlwait h d a s) := by
  refine hs.chk fun b t => hs.atPoint <| hs.withChk fun l => .ite hs.trap ?_
  exact Keeps.wakeLevel hs.same

theorem Keeps.execLvlwaitPoll (hs : Keeps s₀ s) {h d a} : OutKeeps s₀ (execLvlwaitPoll h d a s) :=
  hs.chk fun _ _ => hs.withChk fun _ => .ite hs.trap hs.scoreNow

theorem Keeps.execLvlcancel (hs : Keeps s₀ s) {h a} : OutKeeps s₀ (execLvlcancel h a s) :=
  hs.chk fun _ _ => hs.withChk fun _ => hs.cancelLevel.issue

theorem Keeps.execExit (hs : Keeps s₀ s) {h} : OutKeeps s₀ (execExit h s) := hs.chk fun _ _ => Keeps.endTeam hs.same

/-! ### Tasks, futures and bins (Machine/Task.lean) -/

theorem Keeps.takeGen (hs : Keeps s₀ s) {g} : Keeps s₀ (s.takeGen g).2 := by
  unfold State.takeGen
  split
  · exact hs
  · exact hs.same

theorem Keeps.startTask (hs : Keeps s₀ s) {d} : Keeps s₀ (s.startTask d) := .ite hs.closeIfCancelled.futEnd hs.same

theorem Keeps.spawnWord (hs : Keeps s₀ s) {d b : BitVec 6} {f : Block → Team → Nat → List Dword → State → Out}
    (hf : ∀ b t r l v, Keeps s₀ v → OutKeeps s₀ (f b t r l v)) : OutKeeps s₀ (s.spawnWord d b f) := by
  refine hs.chk fun b t => .ite hs.park (hs.withGot hs.getList fun l v hv => ?_)
  split
  · exact .ite hv.trap (hf _ _ _ _ _ hv)
  · exact hv

theorem Keeps.execSpawn (hs : Keeps s₀ s) {h d b} : OutKeeps s₀ (execSpawn h d b s) := by
  refine hs.spawnWord fun bl t r args v hv => .ite hv.trap (hv.withGot hv.getList fun rs w hw => ?_)
  exact .ite hw.trap (.ite hw.trap (.ite hw.park (Keeps.startTask hw.newLaunch.same)))

theorem Keeps.execSpawnf (hs : Keeps s₀ s) {h d b} : OutKeeps s₀ (execSpawnf h d b s) := by
  refine hs.spawnWord fun bl t r args v hv => ?_
  dsimp only
  split
  · next e => exact (hv.legalVa.of_eq e).trap
  · next e => exact (hv.legalVa.of_eq e).absence.park
  · next s2 e =>
    have h2 := hv.legalVa.of_eq e
    refine .ite h2.park (.ite h2.trap (.ite h2.trap ?_))
    have h4 : Keeps s₀ ((s2.newLaunch bl.tag bl.slot (taskNg r) (taskNp r) .task 1 (coreDie bl.core)).2.2.choice 65536).2 :=
      Keeps.same h2.newLaunch
    refine Keeps.startTask (Keeps.scoreNow (Keeps.updBlock (Keeps.futWrite ?_)))
    exact Keeps.atDie h4.takeGen

theorem Keeps.withFut (hs : Keeps s₀ s) {b : Block} {h : Dword} {f : Nat → Future → Out}
    (hf : ∀ e x, OutKeeps s₀ (f e x)) : OutKeeps s₀ (s.withFut b h f) := by
  unfold State.withFut
  split
  · exact hf _ _
  · exact hs.trap

theorem Keeps.execFref (hs : Keeps s₀ s) {h b} : OutKeeps s₀ (execFref h b s) :=
  hs.chk fun _ _ => hs.withFut fun _ _ => .ite hs.trap hs.updFuture.futWrite.issue

theorem Keeps.execFdrop (hs : Keeps s₀ s) {h b} : OutKeeps s₀ (execFdrop h b s) :=
  hs.chk fun _ _ => hs.withFut fun _ _ => Keeps.futDropAll hs.same

theorem Keeps.wakeFuture (hs : Keeps s₀ s) {r} : Keeps s₀ (s.wakeFuture r) := by
  unfold State.wakeFuture
  split
  · split
    · split
      · exact hs
      · split
        · exact hs
        · exact hs.updTeam.futForget
        · exact hs.updTeam.futForget.raise
    · exact hs
  · exact hs

theorem Keeps.execFwait (hs : Keeps s₀ s) {h d b} : OutKeeps s₀ (execFwait h d b s) :=
  hs.chk fun _ _ => hs.atPoint <| hs.withFut fun _ _ => .ite hs.trap (Keeps.wakeFuture hs.same)

theorem Keeps.execFpoll (hs : Keeps s₀ s) {h d b} : OutKeeps s₀ (execFpoll h d b s) :=
  hs.chk fun _ _ => hs.withFut fun _ _ => hs.same

theorem Keeps.execRpoint (hs : Keeps s₀ s) {h} : OutKeeps s₀ (execRpoint h s) := hs.chk fun _ _ => hs.atPoint hs.same

theorem Keeps.putBin (hs : Keeps s₀ s) {e x} : Keeps s₀ (s.putBin e x) := hs.updDie

theorem Keeps.joinLevel (hs : Keeps s₀ s) {tag slot} : Keeps s₀ (s.joinLevel tag slot) := hs.updCtx

theorem Keeps.closeBin (hs : Keeps s₀ s) {e x} : Keeps s₀ (s.closeBin e x) := hs.updDie.updCtx

theorem Keeps.binDispatch (hs : Keeps s₀ s) {e x n} : Keeps s₀ (s.binDispatch e x n) :=
  .ite (Keeps.closeBin hs.same) (Keeps.putBin hs.same)

theorem Keeps.binAccept (hs : Keeps s₀ s) {e x r last} : Keeps s₀ (s.binAccept e x r last) := by
  unfold State.binAccept
  extract_lets x1 s1
  have h1 : Keeps s₀ s1 := .ite hs.binDispatch hs.putBin
  refine .ite h1 ?_
  split
  · exact h1
  · refine .ite h1.closeBin ?_
    extract_lets s2
    split
    · exact h1.binDispatch.closeBin
    · exact h1.binDispatch

theorem Keeps.execBinpost (hs : Keeps s₀ s) {h wh b n l} : OutKeeps s₀ (execBinpost h wh b n l s) := by
  refine hs.chk fun b t => ?_
  split
  · exact hs.trap
  · exact .ite hs.park (.ite hs.park hs.issue.binAccept)

theorem Keeps.execBinTimerExpiry (hs : Keeps s₀ s) {e n} : OutKeeps s₀ (execBinTimerExpiry e n s) := by
  unfold Machine.execBinTimerExpiry
  split
  · exact hs
  · split
    · exact .ite hs.binDispatch hs
    · exact hs

/-! ### Ports, patterns and queues (Machine/Hutch.lean, Queue.lean) -/

theorem Keeps.openPort (hs : Keeps s₀ s) {e tag} : Keeps s₀ (s.openPort e tag).2.2 := by
  have h1 : Keeps s₀ (s.choice 4096).2 := hs.same
  exact h1.takeGen.updDie

theorem Keeps.execPortopen (hs : Keeps s₀ s) {h d b} : OutKeeps s₀ (execPortopen h d b s) :=
  hs.chk fun _ _ => .ite hs.trap hs.openPort.scoreNow

theorem Keeps.execSend (hs : Keeps s₀ s) {h p b} : OutKeeps s₀ (execSend h p b s) := by
  refine hs.chk fun b t => ?_
  split
  · exact hs.trap
  · exact .ite hs.park (.ite hs.trap (.ite hs.park hs.issue.acceptMsg))

theorem Keeps.execSendt (hs : Keeps s₀ s) {h d b} : OutKeeps s₀ (execSendt h d b s) := by
  refine hs.chk fun b t => ?_
  split
  · exact hs.trap
  · exact .ite hs.park (.ite hs.scoreNow (.ite hs.park hs.scoreNow.acceptMsg))

theorem Keeps.wakeRecv (hs : Keeps s₀ s) {r} : Keeps s₀ (s.wakeRecv r) := by
  unfold State.wakeRecv
  split
  · split
    · exact hs.serve
    · exact hs
  · exact hs

theorem Keeps.execRecv (hs : Keeps s₀ s) {h d p} : OutKeeps s₀ (execRecv h d p s) := by
  refine hs.chk fun b t => hs.atPoint ?_
  split
  · exact hs.trap
  · refine .ite hs.trap (Keeps.wakeRecv (Keeps.updDie (Keeps.same hs) fun d => d.updPort_sizes _ _))

theorem Die.trim_sizes (d : Die) : d.SameSizes d.trim := ⟨rfl, rfl, rfl, rfl⟩

theorem Keeps.activate (hs : Keeps s₀ s) {e tag r ports} : Keeps s₀ (s.activate e tag r ports).2 := by
  have h1 : Keeps s₀ (s.choice 1024).2 := hs.same
  exact Keeps.joinLevel (Keeps.atDie h1.takeGen)

theorem Keeps.execPatset (hs : Keeps s₀ s) {h d b} : OutKeeps s₀ (execPatset h d b s) := by
  refine hs.chk fun b t => .ite hs.park (hs.withGot hs.getVa fun r v hv => .ite hv.trap (.ite hv.scorePark ?_))
  split
  · exact hv.trap
  · exact .ite hv.park hv.activate.scoreNow

theorem Keeps.execPatternFiring (hs : Keeps s₀ s) {e} : OutKeeps s₀ (execPatternFiring e s) := by
  unfold Machine.execPatternFiring
  split
  · exact hs
  · next q _ =>
    split
    · exact hs
    · split
      · exact hs
      · next ms d1 e1 e2 =>
        have hd := (s.die e.toNat).takeAll_sizes q.ports
        rw [e2] at hd
        have h1 : Keeps s₀ (s.updDie e.toNat fun _ => d1.trim) := hs.setDie (hd.trans d1.trim_sizes)
        dsimp only
        exact h1.newLevel.newLevel.newId.startTask

theorem Keeps.execHeldMessageAppend (hs : Keeps s₀ s) {e p} : OutKeeps s₀ (execHeldMessageAppend e p s) := by
  unfold Machine.execHeldMessageAppend
  split
  · exact hs
  · split
    · exact hs
    · exact .ite (hs.updDie fun d => d.updPort_sizes _ _).acceptMsg hs

theorem Keeps.postMsg (hs : Keeps s₀ s) {e p v} : Keeps s₀ (s.postMsg e p v) := by
  unfold State.postMsg
  split
  · exact .ite hs.same (.ite (hs.updDie fun d => d.updPort_sizes _ _) hs.acceptMsg)
  · exact hs.same

theorem Keeps.settlePort (hs : Keeps s₀ s) {e : BitVec 2} {p : BitVec 12} {fuel : Nat} :
    Keeps s₀ (State.settlePort e p fuel s) := by
  induction fuel generalizing s with
  | zero => exact hs
  | succ fuel ih =>
    refine .ite hs ?_
    have ho : OutKeeps s₀ (if s.firing e.toNat then Machine.execPatternFiring e s else Machine.execHeldMessageAppend e p s) :=
      .ite hs.execPatternFiring hs.execHeldMessageAppend
    split
    · next h => exact ih (ho.of_next h)
    · exact hs

theorem Keeps.post' (hs : Keeps s₀ s) {e p v} : Keeps s₀ (s.post' e p v) := hs.settlePort.postMsg

theorem Keeps.execPost (hs : Keeps s₀ s) : OutKeeps s₀ (execPost s) := .ite hs.same hs.post'

theorem Keeps.updQueue (hs : Keeps s₀ s) {e i f} : Keeps s₀ (s.updQueue e i f) := by
  refine hs.updDie fun d => ?_
  split
  · exact ⟨rfl, rfl, rfl, rfl⟩
  · exact .refl d

theorem Keeps.execQcreate (hs : Keeps s₀ s) {h d b} : OutKeeps s₀ (execQcreate h d b s) := by
  refine hs.chk fun b t => .ite hs.trap ?_
  have h1 : Keeps s₀ (s.choice 4096).2 := hs.same
  exact h1.takeGen.updDie.scoreNow

theorem Keeps.execQcreateFree (hs : Keeps s₀ s) {h b} : OutKeeps s₀ (execQcreateFree h b s) := by
  refine hs.chk fun b t => ?_
  split
  · exact hs.trap
  · exact .ite hs.trap hs.updQueue.issue

theorem Keeps.entryLegal (hs : Keeps s₀ s) {b : Block} {need : Need} {l : List Nat} : GotKeeps s₀ (s.entryLegal b need l) := by
  induction l generalizing s with
  | nil => exact hs
  | cons va vs ih =>
    unfold State.entryLegal
    split
    · trivial
    · trivial
    · next e =>
      have h2 := ih (hs.legalVa.of_eq e)
      refine .ite trivial ?_
      split
      · next e2 => exact (h2.of_ok e2 :)
      · exact h2

theorem Keeps.servePop (hs : Keeps s₀ s) {e i} : Keeps s₀ (s.servePop e i) := by
  unfold State.servePop
  split
  · exact hs
  · split
    · exact hs
    · refine .ite hs ?_
      split
      · exact hs
      · split
        · split
          · exact hs.absence.updTeam
          · exact hs.updQueue.updTeam.raise
          · next e =>
            have h1 := hs.entryLegal.of_ok e
            exact (h1.foldl_fst fun _ _ h => h.memRd (n := 8)).updQueue.updTeam
        · exact hs

theorem Keeps.wakePop (hs : Keeps s₀ s) {r} : Keeps s₀ (s.wakePop r) := by
  unfold State.wakePop
  split
  · split
    · exact hs.servePop
    · exact hs
  · exact hs

theorem Keeps.execQpush (hs : Keeps s₀ s) {h a b} : OutKeeps s₀ (execQpush h a b s) := by
  refine hs.chk fun b t => ?_
  split
  · exact hs.trap
  · refine .ite hs.trap (.ite hs.trap (.ite hs.scorePark (hs.withGot hs.entryLegal fun as v hv => ?_)))
    refine .ite (Keeps.parkFor (.ite hv hv.updQueue)) (.ite hv.park ?_)
    exact (Keeps.foldl hv fun _ _ h => h.memWr).updQueue.issue.servePop

theorem Keeps.execQpop (hs : Keeps s₀ s) {h d b} : OutKeeps s₀ (execQpop h d b s) := by
  refine hs.chk fun b t => hs.atPoint ?_
  split
  · exact hs.trap
  · refine .ite hs.trap (.ite hs.trap (.ite hs.scorePark (.ite hs.park ?_)))
    exact Keeps.wakePop (Keeps.updQueue (Keeps.same hs))

/-! ### Translation words and invalidation (Machine/Xlat.lean) -/

theorem Keeps.execXlat (hs : Keeps s₀ s) {h d a} : OutKeeps s₀ (execXlat h d a s) :=
  hs.chk fun _ _ => .ite hs.park (Keeps.same hs.xlate)

theorem Keeps.dropTlb (hs : Keeps s₀ s) {tag g} : Keeps s₀ (s.dropTlb tag g) := hs.same

theorem Keeps.retryLane (hs : Keeps s₀ s) {b o l} : Keeps s₀ (s.retryLane b o l).2 := by
  unfold State.retryLane
  refine .ite_snd hs ?_
  split
  · next e => exact hs.legalVa.of_eq e
  · next e => exact (hs.legalVa.of_eq e).absence
  · next e => exact (hs.legalVa.of_eq e).postAbsent

theorem Keeps.retryLanes (hs : Keeps s₀ s) {b : Block} {o : MemOp} {ls : List LaneAcc} :
    Keeps s₀ (s.retryLanes b o ls).2 := by
  induction ls generalizing s with
  | nil => exact hs
  | cons l ls ih => exact ih hs.retryLane

theorem Keeps.retryOp (hs : Keeps s₀ s) {b r o} : Keeps s₀ (s.retryOp b r o) := hs.retryLanes.updTeam

theorem Keeps.retryRange (hs : Keeps s₀ s) {tag g} : Keeps s₀ (s.retryRange tag g) := hs.foldl fun _ _ h => h.retryOp

theorem Keeps.retryCopies (hs : Keeps s₀ s) {tag g} : Keeps s₀ (s.retryCopies tag g) := hs.same

theorem Keeps.invalidate (hs : Keeps s₀ s) {tag g} : Keeps s₀ (s.invalidate tag g) :=
  Keeps.retryCopies (Keeps.retryRange hs.dropTlb)

theorem Keeps.execLogRetry (hs : Keeps s₀ s) {b n} : OutKeeps s₀ (execLogRetry b n s) := by
  unfold Machine.execLogRetry
  split
  · exact hs
  · refine .ite hs ?_
    split
    · exact hs.retryOp
    · exact hs

theorem Keeps.execXinv (hs : Keeps s₀ s) {h a b} : OutKeeps s₀ (execXinv h a b s) :=
  hs.chk fun _ _ => .ite hs.park (.ite hs.issue hs.issue.invalidate.updTeam)

theorem Keeps.putInval (hs : Keeps s₀ s) {p x} : Keeps s₀ (s.putInval p x) := by
  unfold State.putInval
  split
  · exact hs.same
  · exact hs.same

theorem Keeps.wrInvaddr (hs : Keeps s₀ s) {p v} : Keeps s₀ (s.wrInvaddr p v) := .ite hs hs.putInval

theorem Keeps.wrInvlen (hs : Keeps s₀ s) {p v} : Keeps s₀ (s.wrInvlen p v) := .ite hs hs.putInval

theorem Keeps.execInvalidationDone (hs : Keeps s₀ s) {p} : OutKeeps s₀ (execInvalidationDone p s) := by
  unfold Machine.execInvalidationDone
  refine .ite hs ?_
  split
  · exact hs.putInval
  · exact hs.invalidate.putInval

theorem Keeps.wrPagerdy (hs : Keeps s₀ s) {v} : Keeps s₀ (s.wrPagerdy v) := Keeps.retryCopies hs.same

/-! ### The registers of the units (Machine/Device.lean) -/

theorem Keeps.wrTick (hs : Keeps s₀ s) {e v} : Keeps s₀ (s.wrTick e v) := hs.updDie

theorem Keeps.wrAlert (hs : Keeps s₀ s) {e v} : Keeps s₀ (s.wrAlert e v) := by
  refine ⟨hs.mem, fun h => ?_⟩
  obtain ⟨dies, routes, die, core⟩ := hs.shaped h
  refine ⟨(updAt_length ..).trans dies, routes, fun d hd => ?_, core⟩
  obtain hmem | ⟨x, hget, rfl⟩ := mem_updAt hd
  · exact die d hmem
  · obtain ⟨hsens, -, hcerr, hstop⟩ := die x (List.mem_of_getElem? hget)
    exact ⟨hsens, List.length_replicate, hcerr, hstop⟩

theorem Keeps.wrIstat (hs : Keeps s₀ s) {e v} : Keeps s₀ (s.wrIstat e v) := hs.updDie

theorem Keeps.wrEvstat (hs : Keeps s₀ s) {e v} : Keeps s₀ (s.wrEvstat e v) := hs.updDie

theorem Keeps.wrThrot (hs : Keeps s₀ s) {e v} : Keeps s₀ (s.wrThrot e v) := hs.updDie

theorem Keeps.execSensorSample (hs : Keeps s₀ s) : OutKeeps s₀ (execSensorSample s) :=
  .ite (hs.updDie fun d => d.sample_sizes _ _) hs

theorem Keeps.execTickExpiry (hs : Keeps s₀ s) {e} : OutKeeps s₀ (execTickExpiry e s) := by
  unfold Machine.execTickExpiry
  split
  · exact .ite hs.updDie hs
  · exact hs

theorem Keeps.wrVctl (hs : Keeps s₀ s) {e v} : Keeps s₀ (s.wrVctl e v) := by
  refine hs.updDie fun d => ?_
  split
  · obtain ⟨hsens, harmed, hcerr, hstop⟩ := d.drain_sizes
    exact ⟨hsens, harmed, hcerr, hstop⟩
  · split
    · exact ⟨rfl, rfl, rfl, rfl⟩
    · exact ⟨rfl, rfl, rfl, rfl⟩

theorem Keeps.wrSampctl (hs : Keeps s₀ s) {e v} : Keeps s₀ (s.wrSampctl e v) := by
  have hdie : Keeps s₀ (s.updDie e fun d => { d with sampctl := BitVec.ofNat 64 v &&& 0x1FFF1F01#64 }) := hs.updDie
  refine .ite hs (hdie.of_cores fun c hc => .inl ?_)
  obtain ⟨x, hx, rfl⟩ := List.mem_map.1 hc
  refine ⟨x, hx, ?_⟩
  split
  · exact ⟨rfl, rfl⟩
  · exact ⟨rfl, rfl⟩

theorem Keeps.wrFilter (hs : Keeps s₀ s) {e v} : Keeps s₀ (s.wrFilter e v) := .ite hs hs.updDie

theorem Keeps.stopBlock (hs : Keeps s₀ s) {e blk} : Keeps s₀ (s.stopBlock e blk) := by
  unfold State.stopBlock
  split
  · exact .ite hs hs.updBlock
  · exact hs

theorem Keeps.resumeBlock (hs : Keeps s₀ s) {e blk} : Keeps s₀ (s.resumeBlock e blk) := by
  unfold State.resumeBlock
  split
  · exact .ite hs.updBlock hs
  · exact hs

theorem Keeps.wrBlkid1 (hs : Keeps s₀ s) {e v} : Keeps s₀ (s.wrBlkid1 e v) := by
  unfold State.wrBlkid1
  split
  · exact hs.stopBlock
  · exact hs.resumeBlock
  · exact hs

theorem Keeps.execStopComplete (hs : Keeps s₀ s) {b} : OutKeeps s₀ (execStopComplete b s) := by
  unfold Machine.execStopComplete
  split
  · exact hs
  · split
    · exact hs
    · refine .ite hs ?_
      split
      · exact hs
      · exact hs.record.updBlock

theorem Keeps.execHangWatchdogExpiry (hs : Keeps s₀ s) {e t} : OutKeeps s₀ (execHangWatchdogExpiry e t s) := by
  unfold Machine.execHangWatchdogExpiry
  dsimp only
  split
  · exact hs
  · refine .ite hs (hs.updCtx.updDie fun d => ?_)
    split
    · obtain ⟨hsens, harmed, hcerr, hstop⟩ := d.record_sizes _ none
      exact ⟨hsens, harmed, hcerr, hstop⟩
    · exact ⟨rfl, rfl, rfl, rfl⟩

theorem Keeps.wrTermack (hs : Keeps s₀ s) {v} : Keeps s₀ (s.wrTermack v) := .ite hs.same hs

theorem Keeps.takeTermb (hs : Keeps s₀ s) : Keeps s₀ s.takeTermb := hs.same

theorem Keeps.wrPart (hs : Keeps s₀ s) {core v} : Keeps s₀ (s.wrPart core v) := .ite hs hs.same

theorem Keeps.wrSignctl (hs : Keeps s₀ s) {v} : Keeps s₀ (s.wrSignctl v) := .ite hs hs.same

theorem Keeps.execSignComplete (hs : Keeps s₀ s) : OutKeeps s₀ (execSignComplete s) := by
  unfold Machine.execSignComplete
  split
  · exact hs
  · exact hs.pmWr.same

theorem Keeps.wrRoute (hs : Keeps s₀ s) {m v} : Keeps s₀ (s.wrRoute m v) := by
  unfold State.wrRoute
  refine .ite hs ⟨hs.mem, fun h => ?_⟩
  obtain ⟨dies, routes, die, core⟩ := hs.shaped h
  exact ⟨dies, List.length_set.trans routes, die, core⟩

/-- An update of memory that keeps its canonical form and leaves the dies, the routes and the cores alone. -/
theorem Keeps.withMem (hs : Keeps s₀ s) (hm : s.mem.wf = true → v.mem.wf = true) (hd : v.dies = s.dies := by rfl)
    (hr : v.routes = s.routes := by rfl) (hc : v.cores = s.cores := by rfl) : Keeps s₀ v where
  mem h := hm (hs.mem h)
  shaped h :=
    have ⟨dies, routes, die, core⟩ := hs.shaped h
    ⟨hd ▸ dies, hr ▸ routes, hd ▸ die, hc ▸ core⟩

/-- Cells of one module moved to another module's addresses stay in their order, and apart from the cells that were there (R426). -/
theorem rehome_wf (m : Memory) (old new : Nat) (h : m.wf = true) : (rehome m old new).wf = true := by
  unfold rehome
  split
  · exact h
  · rw [Memory.wf_iff] at h ⊢
    obtain ⟨hne, hlt⟩ := h
    constructor
    · intro c hc
      simp only [List.mem_append, List.mem_filter, List.mem_map] at hc
      obtain (⟨⟨hm, -⟩, -⟩ | ⟨d, ⟨hm, -⟩, rfl⟩) | ⟨⟨hm, -⟩, -⟩ := hc
      · exact hne c hm
      · exact hne d hm
      · exact hne c hm
    · simp only [List.pairwise_append, List.mem_append, List.mem_filter, List.mem_map, decide_eq_true_eq]
      have hmap : ((m.filter fun c => c.1 / 2 ^ 48 = old).map fun c => (new * 2 ^ 48 + c.1 % 2 ^ 48, c.2)).Pairwise
          fun c d : Host.Cell => c.1 < d.1 := by
        refine List.pairwise_map.2 ((hlt.filter _).imp_of_mem fun {c d} hc hd hcd => ?_)
        simp only [List.mem_filter, decide_eq_true_eq] at hc hd
        have := hc.2
        have := hd.2
        dsimp only
        omega
      refine ⟨⟨(hlt.filter _).filter _, hmap, ?_⟩, (hlt.filter _).filter _, ?_⟩
      · rintro c ⟨-, hc⟩ _ ⟨d, -, rfl⟩
        exact Nat.lt_of_lt_of_le hc (Nat.le_add_right _ _)
      · rintro c (⟨-, hc⟩ | ⟨d, -, rfl⟩) e ⟨-, he⟩
        · omega
        · dsimp only
          omega

theorem Keeps.wrModid (hs : Keeps s₀ s) {v} : Keeps s₀ (s.wrModid v) := .ite hs (hs.withMem (rehome_wf _ _ _))

theorem Keeps.appendLog (hs : Keeps s₀ s) {e} : Keeps s₀ (s.appendLog e) := hs.withMem (Memory.wr_wf _ _ _)

theorem Keeps.measured (hs : Keeps s₀ s) {e} : Keeps s₀ (s.measured e) := .ite hs.appendLog hs

theorem Keeps.wrReg (hs : Keeps s₀ s) {r v} : Keeps s₀ (s.wrReg r v) := by
  unfold State.wrReg
  split
  · exact hs.wrFilter
  · exact hs.updDie
  · exact hs.updDie
  · exact hs.updDie fun d => ⟨rfl, rfl, rfl, List.length_set⟩
  · refine hs.updDie fun d => ?_
    split
    · exact ⟨rfl, rfl, List.length_set, rfl⟩
    · exact .refl d
  · exact hs.same
  · exact hs.wrInvaddr
  · exact .ite (hs.updCore fun c => ⟨updAt_length .., rfl⟩) hs
  · exact .ite (hs.updCore fun c => ⟨updAt_length .., rfl⟩) hs
  · exact hs.measured
  · exact hs.updCore fun c => ⟨rfl, List.length_set⟩

theorem Keeps.corePageWr (hs : Keeps s₀ s) {core o v} : Keeps s₀ (s.corePageWr core o v) :=
  .ite hs.wrReg (.ite hs.wrReg hs)

theorem Keeps.bureauWr (hs : Keeps s₀ s) {e o v} : Keeps s₀ (s.bureauWr e o v) :=
  .ite hs.wrAlert (.ite hs.wrIstat (.ite hs.wrThrot (.ite hs.wrTick hs)))

theorem Keeps.mgmtWr (hs : Keeps s₀ s) {e o v} : Keeps s₀ (s.mgmtWr e o v) := by
  refine .ite hs.wrEvstat (.ite (.ite hs.wrTermack hs) (.ite (.ite hs.wrSignctl hs) (.ite hs.wrReg ?_)))
  exact .ite (.ite hs.wrInvaddr hs) (.ite (.ite hs.wrInvlen hs) (.ite hs.wrPart hs))

theorem Keeps.debugWr (hs : Keeps s₀ s) {e o v} : Keeps s₀ (s.debugWr e o v) := by
  refine .ite hs.wrVctl (.ite hs.wrSampctl (.ite hs.wrFilter (.ite hs.wrReg (.ite hs.wrBlkid1 ?_))))
  exact .ite hs.wrReg (.ite hs.wrReg (.ite hs.corePageWr hs))

theorem Keeps.hostPageWr (hs : Keeps s₀ s) {o v} : Keeps s₀ (s.hostPageWr o v) :=
  .ite hs.wrPagerdy (.ite hs.wrReg (.ite hs.wrTermack (.ite hs.wrInvaddr (.ite hs.wrInvlen hs))))

theorem Keeps.fabricWr (hs : Keeps s₀ s) {o v} : Keeps s₀ (s.fabricWr o v) := .ite hs.wrRoute (.ite hs.wrModid hs)

theorem Keeps.coreByteWr (hs : Keeps s₀ s) {core o v} : Keeps s₀ (s.coreByteWr core o v) := by
  unfold State.coreByteWr
  split
  · split
    · exact hs.regWrite
    · exact hs
  · split
    · split
      · exact hs.spadWr.updBlock
      · exact hs.updCore
    · split
      · dsimp only
        split
        · exact hs.updBlock
        · exact hs.updCore
      · dsimp only
        split
        · exact hs.updBlock
        · exact hs.updCore

theorem Keeps.coreBytesWr (hs : Keeps s₀ s) {core o : Nat} {bs : List Byte} : Keeps s₀ (s.coreBytesWr core o bs) := by
  induction bs generalizing s o with
  | nil => exact hs
  | cons b bs ih => exact ih hs.coreByteWr

theorem Keeps.regTake (hs : Keeps s₀ s) {a} : Keeps s₀ (s.regTake a) := .ite hs.same (.ite hs.takeTermb hs)

theorem Keeps.regWr (hs : Keeps s₀ s) {a v} : Keeps s₀ (s.regWr a v) :=
  .ite hs.bureauWr (.ite hs.mgmtWr (.ite hs.debugWr (.ite hs.fabricWr (.ite hs.hostPageWr hs))))

theorem Keeps.localRd (hs : Keeps s₀ s) {a n} : Keeps s₀ (s.localRd a n).2 :=
  .ite_snd hs.regTake (.ite_snd hs (hs.memRd (n := n)))

theorem Keeps.localWr (hs : Keeps s₀ s) {a bs} : Keeps s₀ (s.localWr a bs) :=
  .ite hs.regWr.same (.ite hs.coreBytesWr.same hs.memWr)

/-! ### System words (Machine/System.lean) -/

theorem Keeps.tretGo (hs : Keeps s₀ s) {b : Block} {t : Team} {f : Nat} {stay : State → State}
    {go : State → BitVec 56 → List RegWrite → State} (hstay : ∀ v, Keeps s₀ v → Keeps s₀ (stay v))
    (hgo : ∀ v r ws, Keeps s₀ v → Keeps s₀ (go v r ws)) : OutKeeps s₀ (s.tretGo b t f stay go) := by
  unfold State.tretGo
  extract_lets va
  split
  · next e => exact (hs.xlate.of_eq e).absence.park
  · next e => exact (hs.xlate.of_eq e).trap
  · next s1 e =>
    have h1 := hs.xlate.of_eq e
    extract_lets pa win gone r ws s2
    have h2 : Keeps s₀ s2 := h1.touchAll
    clear_value r
    refine .ite h1.trap (.ite h1.park (.ite (hstay _ h1) (.ite h1.park ?_)))
    exact .ite h2.trap (.ite h2.scorePark (hgo _ _ _ h2.freeFrameOf))

theorem Keeps.execTret (hs : Keeps s₀ s) {h} : OutKeeps s₀ (execTret h s) := by
  refine hs.chk fun b t => ?_
  split
  · exact hs.trap
  · exact hs.tretGo (fun _ h => h.issue) fun _ _ _ h => h.issue.updTeam

theorem Keeps.wakeTret (hs : Keeps s₀ s) {r pc first} : OutKeeps s₀ (s.wakeTret r pc first) := by
  unfold State.wakeTret
  split
  · exact hs
  · dsimp only
    split
    · exact hs
    · exact Keeps.tretGo hs.same (fun _ h => h) fun _ _ _ h => h.updTeam

theorem Keeps.execTrig (hs : Keeps s₀ s) {h a n} : OutKeeps s₀ (execTrig h a n s) := hs.chk fun _ _ => hs.record.issue

theorem Keeps.execWfi (hs : Keeps s₀ s) {h} : OutKeeps s₀ (execWfi h s) := by
  refine hs.chk fun b t => ?_
  split
  · exact hs.trap
  · exact .ite hs.issue hs.issue

theorem Keeps.execBrk (hs : Keeps s₀ s) : OutKeeps s₀ (execBrk s) := hs.chk fun _ _ => .ite hs.stopAt hs.trapNext

/-! ### Accesses performed, results and traps (Machine/Perform.lean) -/

theorem Keeps.bureauLane (hs : Keeps s₀ s) {o l pa} : Keeps s₀ (s.bureauLane o l pa).2 := by
  unfold State.bureauLane
  split
  · exact hs.localRd
  · exact hs.localWr

theorem Keeps.ctxLane (hs : Keeps s₀ s) {tag o l pa} : Keeps s₀ (s.ctxLane tag o l pa).2 := by
  have hget : ∀ n, Keeps s₀ (if o.sp then (s.spadRd l.blk pa n, s) else s.memRd (some tag) pa n).2 :=
    fun n => .ite_snd hs (hs.memRd (n := n))
  have hput : ∀ v x, Keeps s₀ v →
      Keeps s₀ (if o.sp then v.spadWr l.blk pa (natBytes o.size x) else v.memWr (some tag) pa (natBytes o.size x)) :=
    fun v x h => .ite h.spadWr h.memWr
  unfold State.ctxLane
  dsimp only
  split
  · exact hget _
  · exact hput _ _ (hget _)
  · exact hput _ _ hs
  · exact hs.updBlock
  · exact hs.updBlock
  · exact hput _ _ hs
  · exact hs.post
  · exact .ite hs (hput _ _ hs)
  · exact hs

theorem Keeps.coreLane (hs : Keeps s₀ s) {b o l pa} : Keeps s₀ (s.coreLane b o l pa).2 :=
  .ite hs.ctxLane.l1Fill hs.ctxLane

theorem Keeps.oneLane (hs : Keeps s₀ s) {b t own o n} : Keeps s₀ (s.oneLane b t own o n).2 := by
  unfold State.oneLane
  split
  · exact hs
  · split
    · exact hs
    · refine .ite_snd hs (.ite_snd hs.coreLane (.ite_snd hs (.ite_snd ?_ hs.coreLane)))
      exact hs.bureauLane

theorem Keeps.runLanes (hs : Keeps s₀ s) {b : Block} {t : Team} {own : Bool} {o : MemOp} {ns : List Nat} :
    Keeps s₀ (s.runLanes b t own o ns).2 := by
  induction ns generalizing s o with
  | nil => exact hs
  | cons n ns ih => exact ih hs.oneLane

theorem Keeps.opSample (hs : Keeps s₀ s) {b t o} : Keeps s₀ (s.opSample b t o) :=
  .ite hs (.ite hs.feSample hs.sampleRecord)

theorem Keeps.opGone (hs : Keeps s₀ s) {r b t o ws} : Keeps s₀ (s.opGone r b t o ws) := hs.updTeam.opSample

theorem Keeps.settleOp (hs : Keeps s₀ s) {r b t o} : Keeps s₀ (s.settleOp r b t o) := .ite hs.opGone hs.updTeam

theorem Keeps.isectDone (hs : Keeps s₀ s) {r b t o} : Keeps s₀ (s.isectDone r b t o) := by
  unfold State.isectDone
  split
  · exact .ite hs.isectRun.opGone hs
  · exact hs

theorem Keeps.performOp (hs : Keeps s₀ s) {r b t o own} : Keeps s₀ (s.performOp r b t o own) :=
  .ite hs.isectDone hs.runLanes.settleOp

theorem Keeps.execAccessPerformed (hs : Keeps s₀ s) {r n} : OutKeeps s₀ (execAccessPerformed r n s) := by
  unfold Machine.execAccessPerformed
  split
  · exact hs
  · exact hs.performOp

theorem Keeps.returnLanes (hs : Keeps s₀ s) {r o} : Keeps s₀ (s.returnLanes r o).2 := by
  unfold State.returnLanes
  split
  · exact hs
  · exact hs.updTeam

theorem Keeps.remoteOp (hs : Keeps s₀ s) {r b t o} : Keeps s₀ (s.remoteOp r b t o) := hs.returnLanes.runLanes.settleOp

theorem Keeps.laneTurn (hs : Keeps s₀ s) {r n l} : Keeps s₀ (s.laneTurn r n l) := by
  unfold State.laneTurn
  split
  · exact hs
  · refine .ite (.ite hs.isectLane.updTeam hs) ?_
    exact hs.returnLanes.oneLane.oneLane.settleOp

theorem Keeps.remoteWr (hs : Keeps s₀ s) {a bs} : Keeps s₀ (s.remoteWr a bs) := hs.foldl fun _ _ h => h.pmWr.same

theorem Keeps.execFabricRemoteAccess (hs : Keeps s₀ s) : OutKeeps s₀ (execFabricRemoteAccess s) := by
  unfold Machine.execFabricRemoteAccess
  split
  · split
    · exact hs
    · exact .ite hs hs.remoteOp
  · exact .ite (Keeps.same (hs.memRd (n := 0))) hs
  · exact .ite hs (.ite hs.memWrAll hs.remoteWr)
  · exact .ite (Keeps.same (Keeps.memWr (hs.memRd (n := 0)))) hs

theorem Keeps.moveLine (hs : Keeps s₀ s) {src dst} : Keeps s₀ (s.moveLine src dst) := hs.withMem (Memory.wr_wf _ _ _)

theorem Keeps.execPageMigrationLine (hs : Keeps s₀ s) : OutKeeps s₀ (execPageMigrationLine s) :=
  .ite hs.same (.ite hs hs.moveLine)

theorem Keeps.execResultArrival (hs : Keeps s₀ s) {r n} : OutKeeps s₀ (execResultArrival r n s) := by
  unfold Machine.execResultArrival
  split
  · exact hs
  · split
    · split
      · exact .ite hs.endTeam hs.updTeam.regWrites
      · exact hs
    · exact hs

theorem Keeps.execRunBoundWrite (hs : Keeps s₀ s) {r} : OutKeeps s₀ (execRunBoundWrite r s) := by
  unfold Machine.execRunBoundWrite
  split
  · exact hs
  · refine .ite hs ?_
    split
    · exact .ite hs hs.updTeam.regWrites
    · exact .ite hs hs.updTeam.regWrites

theorem Keeps.execTrapEntry (hs : Keeps s₀ s) {r} : OutKeeps s₀ (execTrapEntry r s) := by
  unfold Machine.execTrapEntry
  split
  · exact .ite hs.enterTrap hs
  · exact hs

theorem Keeps.execInterruptEntry (hs : Keeps s₀ s) {r} : OutKeeps s₀ (execInterruptEntry r s) := by
  unfold Machine.execInterruptEntry
  split
  · exact hs
  · exact .ite hs hs.updTeam.raise

/-! ### The end of a block and of a context (Machine/Finish.lean, Contain.lean, Context.lean) -/

/-- An update that takes its dies from one state and the rest from another. -/
theorem Keeps.withDies {u : State} (hs : Keeps s₀ s) (hu : Keeps s₀ u) (hd : v.dies = u.dies := by rfl)
    (hm : v.mem = s.mem := by rfl) (hr : v.routes = s.routes := by rfl) (hc : v.cores = s.cores := by rfl) : Keeps s₀ v where
  mem h := hm ▸ hs.mem h
  shaped h :=
    have ⟨_, routes, _, core⟩ := hs.shaped h
    have ⟨dies, _, die, _⟩ := hu.shaped h
    ⟨hd ▸ dies, hr ▸ routes, hd ▸ die, hc ▸ core⟩

theorem Keeps.endFuture (hs : Keeps s₀ s) {b} : Keeps s₀ (s.endFuture b) := by
  unfold State.endFuture
  split
  · exact hs.futEnd
  · exact .ite hs.futEnd hs.futEnd

theorem Keeps.countEnd (hs : Keeps s₀ s) {b} : Keeps s₀ (s.countEnd b) := .ite hs.nodeEnd hs.updCtx

theorem Keeps.removeBlock (hs : Keeps s₀ s) {b} : Keeps s₀ (s.removeBlock b) := by
  unfold State.removeBlock
  extract_lets s1
  have h1 : Keeps s₀ s1 := by
    dsimp only [s1]
    split
    · exact hs.leave
    · exact hs
  exact h1.same

theorem Keeps.dropHolds (hs : Keeps s₀ s) {b} : Keeps s₀ (s.dropHolds b) := .ite hs.futDropAll hs

theorem Keeps.execBlockEnd (hs : Keeps s₀ s) {b} : OutKeeps s₀ (execBlockEnd b s) := by
  unfold Machine.execBlockEnd
  split
  · exact hs
  · exact .ite hs (.ite hs.removeBlock hs.endFuture.removeBlock.dropHolds.countEnd)

theorem Keeps.wipe (hs : Keeps s₀ s) {b} : Keeps s₀ (s.wipe b) := hs.leave

theorem Keeps.eraseCtx (hs : Keeps s₀ s) {tag} : Keeps s₀ (s.eraseCtx tag) := by
  have hd : Keeps s₀ { s with dies := s.dies.map fun d => d.drop tag (s.nextId + 1) } := hs.mapDies _
  exact (hs.foldl (f := State.wipe) (l := s.blocksOf tag) fun _ _ h => h.wipe).withDies hd

theorem Keeps.reportPiece (hs : Keeps s₀ s) {tag pa bs} : Keeps s₀ (s.reportPiece tag pa bs) := .ite hs hs.unitWr

theorem Keeps.reportWr (hs : Keeps s₀ s) {tag pa bs} : Keeps s₀ (s.reportWr tag pa bs) :=
  hs.foldl fun _ _ h => h.reportPiece

theorem Keeps.endTree (hs : Keeps s₀ s) {t} : Keeps s₀ (s.endTree t) := by
  refine .ite hs (hs.foldl fun s w h => ?_)
  split
  · exact h.unitWr
  · exact h

theorem Keeps.endFutures (hs : Keeps s₀ s) {tag} : Keeps s₀ (s.endFutures tag) :=
  hs.foldl fun _ _ h => .ite h.futWrite h

theorem Keeps.announce (hs : Keeps s₀ s) {tag nerr} : Keeps s₀ (s.announce tag nerr) := hs.atDie

theorem Keeps.terminate (hs : Keeps s₀ s) {c cause wher} : Keeps s₀ (s.terminate c cause wher) := by
  have h1 := (hs.foldl (l := s.trees.filter fun t => t.tag == c.tag) (f := fun s t => s.endTree t) fun _ _ h => h.endTree)
  exact h1.endFutures.eraseCtx.reportWr.announce

theorem Keeps.again (hs : Keeps s₀ s) {tag} : Keeps s₀ (s.again tag) := by
  unfold State.again
  split
  · exact hs.reportPiece
  · exact hs

theorem Keeps.strike (hs : Keeps s₀ s) {cause wher tag} : Keeps s₀ (s.strike cause wher tag) := by
  unfold State.strike
  split
  · exact hs.terminate
  · exact hs.again

theorem Keeps.strikes (hs : Keeps s₀ s) {cause wher tags} : Keeps s₀ (s.strikes cause wher tags) :=
  hs.foldl fun _ _ h => h.strike

theorem Keeps.fillError (hs : Keeps s₀ s) {line tags} : Keeps s₀ (s.fillError line tags) := hs.strikes

theorem Keeps.loseLine (hs : Keeps s₀ s) {l} : Keeps s₀ (s.loseLine l) := by
  unfold State.loseLine
  dsimp only
  split
  · exact hs.same
  · exact hs.withMem (Memory.wr_wf _ _ _)

theorem Keeps.execUncorrectableError (hs : Keeps s₀ s) : OutKeeps s₀ (execUncorrectableError s) := by
  unfold Machine.execUncorrectableError
  split
  · split
    · exact hs.strikes
    · exact hs
  · exact Keeps.ite hs.strikes hs
  · split
    · exact hs.loseLine.strikes
    · exact hs
  · exact Keeps.ite hs.same (Keeps.fillError hs.same)
  · exact hs.fresh.strikes
  · exact hs.fresh.strikes
  · exact hs.fresh.strikes

theorem Keeps.settleHurt (hs : Keeps s₀ s) : Keeps s₀ s.settleHurt := Keeps.foldl hs.same fun _ _ h => h.fillError

theorem Keeps.startJob (hs : Keeps s₀ s) {tag} : Keeps s₀ (s.startJob tag) := by
  unfold State.startJob
  dsimp only
  exact hs.newLevel.newLevel.updCtx

theorem Keeps.startPorts (hs : Keeps s₀ s) {q} : Keeps s₀ (s.startPorts q) := hs.openPort.openPort.updCtx.activate

theorem Keeps.execContextCreation (hs : Keeps s₀ s) : OutKeeps s₀ (execContextCreation s) :=
  .ite (Keeps.startPorts (Keeps.startJob hs.same)) hs

theorem Keeps.execContextEnd (hs : Keeps s₀ s) : OutKeeps s₀ (execContextEnd s) := .ite hs.eraseCtx.same hs

/-! ### The shadow store and Dusk (Machine/Dusk.lean) -/

theorem Keeps.moved (hs : Keeps s₀ s) : Keeps s₀ s.moved := hs.same

theorem Keeps.movePark (hs : Keeps s₀ s) : Keeps s₀ s.movePark := hs.park

theorem Keeps.moveWord (hs : Keeps s₀ s) {d a : BitVec 6} {n : Nat} {f : Nat → State → Out}
    (hf : ∀ x v, Keeps s₀ v → OutKeeps s₀ (f x v)) : OutKeeps s₀ (s.moveWord d a n f) := by
  refine hs.chk fun b t => ?_
  split
  · exact hs.trap
  · extract_lets s1 va
    have h1 : Keeps s₀ s1 := .ite hs hs.same
    exact .ite h1.movePark (.ite h1.moved.trap (hf _ _ h1))

theorem Keeps.moveDone (hs : Keeps s₀ s) {h d v} : Keeps s₀ (s.moveDone h d v) := hs.moved.issue

theorem Keeps.vacate (hs : Keeps s₀ s) {ids p} : Keeps s₀ (s.vacate ids p) :=
  (hs.foldl (f := State.leave) fun _ _ h => h.leave).same

theorem Keeps.exchange (hs : Keeps s₀ s) {cores} : Keeps s₀ (s.exchange cores) :=
  (hs.vacate (ids := (s.on cores).map fun b => b.id) (p := .swapped)).same

theorem Keeps.execCswap (hs : Keeps s₀ s) {h d a} : OutKeeps s₀ (execCswap h d a s) := by
  refine hs.moveWord fun x v hv => .ite hv.moved.trap (.ite (Keeps.same hv) ?_)
  exact Keeps.moveDone (Keeps.exchange hv.same)

theorem Keeps.releaseHeld (hs : Keeps s₀ s) {named} : Keeps s₀ (s.releaseHeld named) := hs.same

theorem Keeps.execDusk (hs : Keeps s₀ s) {h d a} : OutKeeps s₀ (execDusk h d a s) := by
  refine hs.moveWord fun x v hv => .ite hv.moved.trap (.ite (Keeps.same hv) ?_)
  exact Keeps.moveDone (Keeps.releaseHeld (Keeps.vacate hv.same))

theorem Keeps.execDuskRet (hs : Keeps s₀ s) {h d a} : OutKeeps s₀ (execDuskRet h d a s) :=
  hs.moveWord fun _ _ hv => Keeps.moveDone hv.same

theorem Keeps.execDuskResume (hs : Keeps s₀ s) {b} : OutKeeps s₀ (execDuskResume b s) := by
  unfold Machine.execDuskResume
  split
  · exact hs
  · split
    · exact hs.same
    · split
      · exact hs
      · refine .ite hs ?_
        dsimp only
        split
        · next h => exact hs.choice.resumeUnit h
        · exact hs
    · exact hs

/-! ### Dawn, the host and the board (Machine/Dawn.lean) -/

theorem Memory.filter_wf (m : Memory) (p : Host.Cell → Bool) (h : m.wf = true) : Memory.wf (m.filter p) = true := by
  rw [Memory.wf_iff] at h ⊢
  exact ⟨fun c hc => h.1 c (List.mem_of_mem_filter hc), h.2.filter p⟩

theorem Keeps.dawnAt (hs : Keeps s₀ s) {n} : Keeps s₀ (s.dawnAt n) := hs.same

theorem Keeps.dawnRom (hs : Keeps s₀ s) : Keeps s₀ s.dawnRom := by
  refine ⟨fun h => Memory.filter_wf _ _ (hs.mem h), fun h => ?_⟩
  refine ⟨List.length_replicate, (hs.shaped h).routes, fun d hd => ?_, fun c hc => absurd hc List.not_mem_nil⟩
  obtain rfl := List.eq_of_mem_replicate hd
  exact ⟨rfl, rfl, rfl, rfl⟩

theorem Keeps.dawnFirmware (hs : Keeps s₀ s) : Keeps s₀ s.dawnFirmware := by
  unfold State.dawnFirmware
  split
  · exact hs.same
  · refine hs.dawnAt.foldl fun s e h => ?_
    split
    · exact h.withMem (Memory.wr_wf _ _ _)
    · exact h

theorem Keeps.dawnMeasure (hs : Keeps s₀ s) : Keeps s₀ s.dawnMeasure := by
  refine hs.dawnAt.foldl fun s e h => ?_
  split
  · exact h.appendLog
  · exact h

theorem Keeps.dawnTopology (hs : Keeps s₀ s) : Keeps s₀ s.dawnTopology := by
  have hv : ∀ l p, Keeps s₀ { s.dawnAt 4 with leafmap := l, podmap := p } := fun _ _ => hs.same
  exact hv _ _

theorem Keeps.dawnFeatures (hs : Keeps s₀ s) : Keeps s₀ s.dawnFeatures := hs.same

theorem Keeps.startBureau (hs : Keeps s₀ s) {i} : Keeps s₀ (s.startBureau i) := hs.same

theorem Keeps.dawnStart (hs : Keeps s₀ s) : Keeps s₀ s.dawnStart := by
  refine hs.dawnAt.foldl fun s e h => ?_
  split
  · exact h.startBureau
  · exact h

theorem Keeps.execDawn (hs : Keeps s₀ s) : OutKeeps s₀ (execDawn s) := by
  unfold Machine.execDawn
  refine .ite hs ?_
  split
  · exact hs.dawnRom
  · exact hs.dawnFirmware
  · exact hs.dawnMeasure
  · exact hs.dawnTopology
  · exact hs.dawnFeatures
  · exact hs.dawnStart
  · exact hs

theorem Keeps.hostRd (hs : Keeps s₀ s) {ps : List (Nat × List Byte)} : Keeps s₀ (s.hostRd ps).2 := by
  induction ps generalizing s with
  | nil => exact hs
  | cons p ps ih => exact ih hs.localRd

theorem Keeps.hostWr (hs : Keeps s₀ s) {a bs} : Keeps s₀ (s.hostWr a bs) := .ite (.ite hs.post' hs) hs.localWr

theorem Keeps.execHostAccess (hs : Keeps s₀ s) : OutKeeps s₀ (execHostAccess s) := by
  unfold Machine.execHostAccess
  split
  · exact .ite hs.same (Keeps.same hs.hostRd)
  · next a bs _ =>
    have h1 := hs.foldl (l := hostPieces a bs) (f := fun s p => s.hostWr p.1 p.2) fun _ _ h => h.hostWr
    exact .ite hs.same h1.same

theorem Keeps.execI3cRequest (hs : Keeps s₀ s) : OutKeeps s₀ (execI3cRequest s) := by
  unfold Machine.execI3cRequest
  dsimp only
  split
  · exact hs.same
  · exact hs.same
  · exact hs.same
  · exact hs.same
  · exact hs.same
  · exact hs.same
  · exact .ite hs.memWr.same hs

/-! ### Chains and flow words (Machine/Chain.lean, Flow.lean) -/

theorem Keeps.gather (hs : Keeps s₀ s) {b : Block} {p : Prefixes} {ms : List Member} {left : Nat} {va : BitVec 56} :
    Keeps s₀ (s.gather b p ms left va).2 := by
  induction left generalizing s p ms va with
  | zero => exact hs
  | succ left ih =>
    unfold State.gather
    split
    · next e => exact hs.fetchWord.of_eq e
    · next e => exact hs.fetchWord.of_eq e
    · next e =>
      have h1 := hs.fetchWord.of_eq e
      refine .ite_snd (.ite_snd h1 h1) (.ite_snd (.ite_snd h1 ?_) (.ite_snd (ih h1) h1))
      split
      · exact ih h1
      · exact h1

theorem Keeps.flow (hs : Keeps s₀ s) {h frozen target f} : Keeps s₀ (s.flow h frozen target f) := hs.same

theorem Keeps.execRet (hs : Keeps s₀ s) {h w} : OutKeeps s₀ (execRet h w s) := hs.chk fun _ _ => .ite hs.trap hs.flow

theorem Keeps.execVbr (hs : Keeps s₀ s) {h k o} : OutKeeps s₀ (execVbr h k o s) :=
  hs.chk fun _ _ => .ite hs.trap (.ite hs.flow hs.same)

theorem Keeps.execRecon (hs : Keeps s₀ s) {h} : OutKeeps s₀ (execRecon h s) := by
  refine hs.chk fun b t => ?_
  split
  · exact hs.trap
  · exact .ite hs.flow hs.flow

theorem Keeps.execMsetw (hs : Keeps s₀ s) {h d a b} : OutKeeps s₀ (execMsetw h d a b s) :=
  hs.chk fun _ _ => .ite hs.issue hs.issue

/-! ### Every instruction (Machine/Dispatch.lean) -/

theorem Keeps.exec (hs : Keeps s₀ s) {i : Instr} : OutKeeps s₀ (Machine.exec i s) := by
  cases i with
  | nop | sample | uadd | usub | umul | umulh | uand | uor | uxor | ushl | ushr | usar | umin | umax | ucmp
    | ubfx | ubfi | uaddImm | uandImm | uorImm | uxorImm | ushlImm | ushrImm | usarImm | umulImm | ului | mand
    | mor | mxor | mandn | mlead | mfirst | mcount | mgetw | cvt | vcmpEq | vcmpNe | vcmpLt | vcmpLe | vcmpGt
    | vcmpGe | vcmpUn | vcmpOrd | vtest | vred | vsel | pref | vconf | vcompress | rdc | rdcV | wrc =>
    exact hs.chk fun _ _ => hs.issue
  | trap | extn => exact hs.chk fun _ _ => hs.trapNext
  | tret => exact hs.execTret
  | trig => exact hs.execTrig
  | wfi => exact hs.execWfi
  | cswap => exact hs.execCswap
  | dusk => exact hs.execDusk
  | duskRet => exact hs.execDuskRet
  | brk => exact hs.execBrk
  | jmp | call | brmAny | brmAll | brmNone | bruZ | bruNz | bruNeg | bruNneg => exact hs.chk fun _ _ => hs.flow
  | ret => exact hs.execRet
  | vbr => exact hs.execVbr
  | recon => exact hs.execRecon
  | msetw => exact hs.execMsetw
  | vadd | vsub | vmul | vmulh | vand | vor | vxor | vshl | vshr | vsar | vmin | vmax | vabs | vbfx | vbfi
    | vaddImm | vandImm | vorImm | vxorImm | vshlImm | vshrImm | vsarImm | vmulImm | vmovImm | fadd | fsub
    | fmul | ffma | fmin | fmax | fabs | frcp | frsq | fsqrt | fdiv | fexp2 | flog2 | fneg | dadd | dsub | dmul
    | dfma | dmin | dmax | ddiv | dsqrt | hadd2 | hsub2 | hmul2 | hfma2 | hmin2 | hmax2 | vdot4 | vshuf | vbcast
    | vscan | vmov | vmovw | mpath | vsegred | vsegscan | vexpand => exact hs.vOp
  | ldg | stg => exact hs.memLanes
  | lds => exact hs.execLds
  | ldsFe | ldsFk => exact hs.consume
  | ldw | stw => exact hs.memUni
  | ldws => exact hs.execLdws
  | sts => exact hs.execSts
  | stws => exact hs.execStws
  | feset | feclr => exact hs.feRange
  | atom | red => exact hs.atomWord
  | fence => exact hs.execFence
  | xfence => exact hs.execXfence
  | spfence => exact hs.execSpfence
  | binit => exact hs.execBinit
  | barrive => exact hs.execBarrive
  | bwait => exact hs.execBwait
  | sgjoin => exact hs.execSgjoin
  | sgleave => exact hs.chk fun _ _ => hs.updBlock.issue
  | cpy => exact hs.execCpy
  | tcpy => exact hs.execTcpy
  | gcpy | scpy => exact hs.rowsWord
  | isect | isectn => exact hs.isectWord
  | scatc => exact hs.execScatc
  | nredOrd | nredAny => exact hs.nredWord
  | mma | mmaZ => exact hs.mmaWord
  | mzero => exact hs.execMzero
  | mload | mdrain => exact hs.tileMove
  | mpair => exact hs.execMpair
  | mstat => exact hs.execMstat
  | mperm => exact hs.execMperm
  | cclaim => exact hs.execCclaim
  | crelease => exact hs.execCrelease
  | dinit => exact hs.execDinit
  | dstat => exact hs.chk fun _ _ => hs.scoreNow
  | spawn => exact hs.execSpawn
  | spawnf => exact hs.execSpawnf
  | fref => exact hs.execFref
  | fdrop => exact hs.execFdrop
  | fwait => exact hs.execFwait
  | fpoll => exact hs.execFpoll
  | rpoint => exact hs.execRpoint
  | binpost => exact hs.execBinpost
  | send => exact hs.execSend
  | sendt => exact hs.execSendt
  | recv => exact hs.execRecv
  | patset => exact hs.execPatset
  | portopen => exact hs.execPortopen
  | qcreate => exact hs.execQcreate
  | qcreateFree => exact hs.execQcreateFree
  | qpush => exact hs.execQpush
  | qpop => exact hs.execQpop
  | nres => exact hs.execNres
  | nresK => exact hs.execNresK
  | nchild => exact hs.execNchild
  | nparent => exact hs.execNparent
  | rgive => exact hs.execRgive
  | rclaim => exact hs.execRclaim
  | bar => exact hs.execBar
  | launchFlat => exact hs.execLaunchFlat
  | launchTree => exact hs.execLaunchTree
  | launchBin => exact hs.execLaunchBin
  | lvlwait => exact hs.execLvlwait
  | lvlwaitPoll => exact hs.execLvlwaitPoll
  | lvlcancel => exact hs.execLvlcancel
  | exit => exact hs.execExit
  | xlat => exact hs.execXlat
  | xinv => exact hs.execXinv
  | dawn => exact hs.execDawn
  | i3cRequest => exact hs.execI3cRequest
  | blockPlacement => exact hs.execBlockPlacement
  | blockEnd => exact hs.execBlockEnd
  | census => exact hs.execCensus
  | shelfReservation => exact hs.execShelfReservation
  | nodeDispatch => exact hs.execNodeDispatch
  | sweepEnd => exact hs.execSweepEnd
  | stealRequest => exact hs.execStealRequest
  | stealReply => exact hs.execStealReply
  | donatedDispatchArrival | termq => exact hs.same
  | resultArrival => exact hs.execResultArrival
  | trapEntry => exact hs.execTrapEntry
  | interruptEntry => exact hs.execInterruptEntry
  | logRetry => exact hs.execLogRetry
  | drawerReservation => exact hs.execDrawerReservation
  | copyCompletion => exact hs.execCopyCompletion
  | mmaTake => exact hs.execMmaTake
  | tileOpPerform => exact hs.execTileOpPerform
  | cclaimGrant => exact hs.execCclaimGrant
  | rclaimGrant => exact hs.execRclaimGrant
  | nredContributionArrival => exact hs.execNredContributionArrival
  | patternFiring => exact hs.execPatternFiring
  | heldMessageAppend => exact hs.execHeldMessageAppend
  | binTimerExpiry => exact hs.execBinTimerExpiry
  | pageMigrationLine => exact hs.execPageMigrationLine
  | hostAccess => exact hs.execHostAccess
  | fabricRemoteAccess => exact hs.execFabricRemoteAccess
  | post => exact hs.execPost
  | pagerdy => exact hs.wrPagerdy
  | termack => exact hs.wrTermack
  | invlen => exact hs.wrInvlen
  | invalidationDone => exact hs.execInvalidationDone
  | routingTableWrite => exact hs.wrRoute
  | modid => exact hs.wrModid
  | sensorSample => exact hs.execSensorSample
  | tickExpiry => exact hs.execTickExpiry
  | tick => exact hs.wrTick
  | alert => exact hs.wrAlert
  | istat => exact hs.wrIstat
  | throt => exact hs.wrThrot
  | evstat => exact hs.wrEvstat
  | termb => exact hs.takeTermb
  | signctl => exact hs.wrSignctl
  | signComplete => exact hs.execSignComplete
  | part => exact hs.wrPart
  | uncorrectableError => exact hs.execUncorrectableError
  | vctl => exact hs.wrVctl
  | sampctl => exact hs.wrSampctl
  | blkid1Stop => exact hs.stopBlock
  | blkid1Resume => exact hs.resumeBlock
  | stopComplete => exact hs.execStopComplete
  | hangWatchdogExpiry => exact hs.execHangWatchdogExpiry
  | duskResume => exact hs.execDuskResume
  | registerWrite => exact hs.wrReg
  | contextCreation => exact hs.execContextCreation
  | contextEnd => exact hs.execContextEnd
  | runBoundWrite => exact hs.execRunBoundWrite
  | accessPerformed => exact hs.execAccessPerformed

/-! ### The moves (Machine/Turn.lean) -/

theorem Keeps.runMember (hs : Keeps s₀ s) {iss bureau m} : OutKeeps s₀ (s.runMember iss bureau m) := by
  unfold State.runMember
  split
  · exact Keeps.exec hs.same
  · exact Keeps.trap hs.same
  · exact Keeps.trap hs.same

theorem Keeps.countPoint (hs : Keeps s₀ s) {b} : Keeps s₀ (s.countPoint b) := hs.updBlock

theorem Keeps.parkMore (hs : Keeps s₀ s) {r u} : Keeps s₀ (s.parkMore r u) := by
  unfold State.parkMore
  split
  · exact hs
  · refine .ite hs ?_
    extract_lets s1 s2
    have h2 : Keeps s₀ s2 := .ite (Keeps.updTeam hs.updTeam.countPoint) hs.updTeam
    exact .ite h2.endTeam h2

theorem Keeps.parkAll (h1 : Keeps s₀ v) {iss bureau ms} : Keeps s₀ (s.parkAll iss bureau ms v) := by
  refine .ite (h1.foldl fun s1 m h => ?_) h1
  split
  · split
    · exact .ite h.parkMore h
    · exact h
  · exact h

theorem Keeps.checkAll (hs : Keeps s₀ s) {iss bureau ms} : CheckKeeps s₀ (s.checkAll iss bureau ms) := by
  induction ms with
  | nil => trivial
  | cons m ms ih =>
    unfold State.checkAll
    split
    · next e =>
      split
      · exact ih
      · split
        · trivial
        · exact ih
      · exact (hs.runMember.of_next e).parkAll
    · next o _ => exact (hs.runMember : OutKeeps s₀ _)

theorem Keeps.runAll (hs : Keeps s₀ s) {iss bureau ms} : OutKeeps s₀ (s.runAll iss bureau ms) := by
  induction ms generalizing s with
  | nil => exact hs
  | cons m ms ih =>
    unfold State.runAll
    split
    · next e => exact .ite (ih (hs.runMember.of_next e)) (hs.runMember.of_next e)
    · exact hs.runMember

theorem Keeps.chainHits (hs : Keeps s₀ s) {iss b t ms} : Keeps s₀ (s.chainHits iss b t ms).1 := by
  induction ms generalizing s with
  | nil => exact hs
  | cons m ms ih =>
    unfold State.chainHits
    exact ih (Keeps.pcHits hs.same)

theorem Keeps.allStop (hs : Keeps s₀ s) {core} : Keeps s₀ (s.allStop core) :=
  hs.updCore fun _ => ⟨List.length_map .., rfl⟩

theorem Keeps.chainRecords (hs : Keeps s₀ s) {iss b ms} : Keeps s₀ (s.chainRecords iss b ms) := by
  refine hs.foldl fun s m h => ?_
  split
  · next e =>
    split
    · exact h.withDies (h.allStop.runMember.of_next e)
    · exact h
  · exact h

theorem Keeps.chainDone (hs : Keeps s₀ s) {iss b last} : Keeps s₀ (s.chainDone iss b last) :=
  .ite hs.updTeam hs.updTeam.updCtx

theorem Keeps.notIssued (hs : Keeps s₀ s) {r s1} : Keeps s₀ (s.notIssued r s1) := by
  unfold State.notIssued
  split
  · exact hs.updTeam
  · exact hs

theorem Keeps.issueChain (hs : Keeps s₀ s) {r b t ms next} : OutKeeps s₀ (s.issueChain r b t ms next) := by
  unfold State.issueChain
  extract_lets iss
  have hc := hs.checkAll (iss := iss) (bureau := b.bureau.isSome) (ms := ms)
  split
  · next e => exact (e ▸ hc :)
  · split
    next e1 =>
    have h0 := (hs.chainHits (iss := iss) (b := b) (t := t) (ms := ms)).of_fst e1
    split
    · exact Keeps.stopAt (Keeps.same h0.chainRecords)
    · split
      · next e =>
        refine .ite (h0.runAll.of_next e).chainDone ?_
        split
        · exact Keeps.trapReq hs.same
        · exact hs.notIssued
      · exact h0.runAll

theorem Keeps.chainTurn (hs : Keeps s₀ s) {r b t} : OutKeeps s₀ (s.chainTurn r b t) := by
  unfold State.chainTurn
  dsimp only
  split
  · next e => exact Keeps.park (Keeps.same (hs.gather.of_eq e))
  · next e => exact Keeps.trapReq (Keeps.same (hs.gather.of_eq e))
  · next e => exact Keeps.trap (Keeps.same (hs.gather.of_eq e))
  · next e =>
    have h1 := hs.gather.of_eq e
    exact .ite (Keeps.trap h1.same) h1.issueChain

theorem Keeps.unlist (hs : Keeps s₀ s) {r} : Keeps s₀ (s.unlist r) := hs.mapDies _

theorem Keeps.unwait (hs : Keeps s₀ s) {r} : Keeps s₀ (s.unwait r) := hs.unlist.updTeam.updBlock

theorem Keeps.takeDefer (hs : Keeps s₀ s) {r q at'} : Keeps s₀ (s.takeDefer r q at') := hs.updTeam.raise

theorem Keeps.wake (hs : Keeps s₀ s) {r w} : OutKeeps s₀ (s.wake r w) := by
  cases w with
  | bar => exact hs.wakeBar
  | level => exact hs.wakeLevel
  | bench => exact hs.wakeBench
  | consume => exact hs.wakeConsume
  | future => exact hs.wakeFuture
  | recv => exact hs.wakeRecv
  | qpop => exact hs.wakePop
  | sgjoin => exact hs.wakeSg
  | wfi => exact hs.execInterruptEntry
  | tret => exact hs.wakeTret

theorem Keeps.waitTurn (hs : Keeps s₀ s) {r b t w} : OutKeeps s₀ (s.waitTurn r b t w) := by
  refine .ite hs (.ite hs.wake (.ite hs.unlist.endTeam ?_))
  split
  · next e =>
    have h1 := hs.wake.of_next e
    split
    · exact .ite hs.unwait.takeDefer h1
    · exact h1
  · exact hs.wake

theorem Keeps.chainOrInterrupt (hs : Keeps s₀ s) {r b t} : OutKeeps s₀ (s.chainOrInterrupt r b t) := by
  unfold State.chainOrInterrupt
  split
  · next e => exact .ite (hs.chainTurn.of_next e) hs.execInterruptEntry
  · exact hs.chainTurn

theorem Keeps.runTurn (hs : Keeps s₀ s) {r b t} : OutKeeps s₀ (s.runTurn r b t) := by
  refine .ite hs.updTeam (.ite hs.updTeam ?_)
  extract_lets s0 edge t1 s1
  have h0 : Keeps s₀ s0 := .ite hs.updTeam hs
  have h1 : Keeps s₀ s1 := .ite h0.updTeam h0
  clear_value s0 s1 t1 edge
  refine .ite ?_ ?_
  · split
    · exact h0.takeDefer
    · exact h0.chainOrInterrupt
  · split
    · exact h1.takeDefer
    · exact h1.chainTurn

theorem Keeps.throttled (hs : Keeps s₀ s) {r b t} : OutKeeps s₀ (s.throttled r b t) := by
  unfold State.throttled
  split
  · next e => exact .ite hs.updTeam ((Keeps.runTurn hs.same).of_next e)
  · exact Keeps.runTurn hs.same

theorem Keeps.issueTurn (hs : Keeps s₀ s) {r} : OutKeeps s₀ (s.issueTurn r) := by
  unfold State.issueTurn
  split
  · exact hs
  · refine .ite hs (.ite hs.execTrapEntry ?_)
    split
    · exact hs.waitTurn
    · exact .ite hs hs.throttled

theorem Keeps.takeTurn (hs : Keeps s₀ s) {r given} (hg : OutKeeps s₀ given) : OutKeeps s₀ (s.takeTurn r given) := by
  unfold State.takeTurn
  split
  · refine .ite ?_ hg
    have h1 := Keeps.issueTurn hg (r := r)
    split
    · next e => exact .ite (h1.of_next e) hs.issueTurn
    · exact h1
  · exact hg

theorem Keeps.interruptTurn (hs : Keeps s₀ s) {r} : OutKeeps s₀ (s.interruptTurn r) := by
  unfold State.interruptTurn
  split
  · exact .ite hs.issueTurn hs.execInterruptEntry
  · exact hs

theorem Keeps.unitMove (hs : Keeps s₀ s) {i} : OutKeeps s₀ (s.unitMove i) := by
  unfold State.unitMove
  split
  · exact hs.takeTurn hs.execMmaTake
  · exact hs.takeTurn hs.execDrawerReservation
  · exact hs.interruptTurn
  · exact hs.exec

theorem Keeps.countStalls (hs : Keeps s₀ s) : Keeps s₀ s.countStalls := by
  refine hs.foldl fun z b h => .ite ?_ h
  have hcore : Keeps s₀ (z.updCore b.core fun x => { x with stall := addCodes x.stall (b.teams.map (s.codeOf b)) }) :=
    h.updCore fun _ => ⟨rfl, addCodes_length ..⟩
  exact hcore.updBlock

theorem Keeps.measureAll (hs : Keeps s₀ s) : Keeps s₀ s.measureAll :=
  hs.foldl fun _ _ h => h.fresh.updDie fun d => d.measure_sizes _

theorem Keeps.cycle (hs : Keeps s₀ s) : Keeps s₀ s.cycle := Keeps.measureAll hs.countStalls.same

theorem Keeps.move (hs : Keeps s₀ s) {m} : OutKeeps s₀ (s.move m) := by
  cases m with
  | issue r => exact hs.issueTurn
  | apart r =>
    have h1 : OutKeeps s₀ ({ s with apart := true }.issueTurn r) := Keeps.issueTurn hs.same
    dsimp only [State.move]
    split
    · next e => exact (h1.of_next e).same
    · exact h1
  | unit i => exact .ite hs.unitMove hs
  | outside i q => exact .ite (Keeps.unitMove hs.same) hs
  | lane r n l => exact hs.laneTurn
  | element n k => exact hs.element
  | granule b z g => exact hs.granule
  | cache m => exact hs.cacheMove
  | tick => exact hs.cycle

theorem Keeps.after (hs : Keeps s₀ s) : Keeps s₀ s.after := hs.flushUnits.settleHurt.forgetPast.same

end

/-- A step that leads on keeps the invariants: its move does, and so does what follows every move. -/
theorem step_keeps {s v : State} (h : leadsTo s v) : Keeps s v := by
  have hmove (ts : List Turn) (m : Turn) : OutKeeps s ({ s with schedule := ts }.move m) := Keeps.move (Keeps.refl s).same
  unfold leadsTo step at h
  extract_lets o at h
  have ho : OutKeeps s o := by
    dsimp only [o]
    split
    · exact hmove ..
    · exact hmove s.schedule _
  clear_value o
  cases o with
  | next s1 =>
    obtain rfl := Host.Outcome.next.inj h
    exact Keeps.after ho
  | fault f => cases h
  | refused r => cases h

/-! ### The obligations of the scope (00_scope.md) -/

theorem mem_dies_reset {d : Die} (h : d ∈ State.reset.dies) : d = Die.reset := List.eq_of_mem_replicate h

theorem die_reset {e : Nat} (h : e < 4) : State.reset.die e = Die.reset := by
  have hget : State.reset.dies[e]? = some Die.reset := List.getElem?_replicate_of_lt h
  simp only [State.die, List.getD, hget, Option.getD_some]

theorem reset_shaped : Shaped State.reset where
  dies := List.length_replicate
  routes := List.length_replicate
  die d h := by
    obtain rfl := mem_dies_reset h
    exact ⟨rfl, rfl, rfl, rfl⟩
  core _ h := absurd h List.not_mem_nil

/-- An entry of zeros is not valid (R424). -/
theorem route?_reset (m : Nat) : State.reset.route? m = none := by
  have hget : State.reset.routes.getD m 0#64 = 0#64 := by
    simp only [State.reset, List.getD, List.getElem?_replicate]
    split
    · rfl
    · rfl
  unfold State.route?
  rw [hget]
  rfl

/-- Settles O58: each table of the reset state is a `List.replicate` of its length, and the rest is the state written out. -/
theorem resetIsBeforeDawn : Obligations.ResetIsBeforeDawn := by
  refine ⟨reset_shaped, rfl, fun _ => rfl, rfl, rfl, rfl, rfl, rfl, rfl, rfl, rfl, rfl, rfl, rfl, rfl, rfl, route?_reset, ?_⟩
  intro e he
  rw [die_reset he]
  exact ⟨rfl, rfl, rfl, rfl, rfl, rfl, rfl, rfl⟩

/-- Settles O59: every move keeps memory canonical (`step_keeps`), since memory changes only by `Memory.wr`, `List.filter` and `rehome`,
each of which keeps it so. -/
theorem memoryStaysCanonical : Obligations.MemoryStaysCanonical := fun _ _ hm h => (step_keeps h).mem hm

/-- Settles O60: every move leaves dies and cores of the same sizes, or those of reset (`step_keeps`). -/
theorem tablesKeepTheirLengths : Obligations.TablesKeepTheirLengths := fun _ _ hs h => (step_keeps h).shaped hs

end Sys2Proof.Machine
end

section
/-! PROOFS. The execution model (02_execution_model.md): how teams and blocks start, wait, end and move, what a word that computes leaves
alone, level waits and cancels, and the end of contexts. -/

namespace Sys2Proof.Machine
open Sys2Proof.Claims

-- As in the proofs above: one thread for each theorem of this part would exceed the limits of the check.
set_option Elab.async false

/-! ### An error of a context that has ended (R407, R425) -/

/-- A write that a write of its module's routing entry holds does not reach memory yet (R425). -/
theorem State.unitWr_of_held {s : State} {pa : Nat} (tag : Option (BitVec 12)) (bs : List Byte) (h : s.held pa = true) :
    s.unitWr tag pa bs = { s with unitQ := s.unitQ ++ [{ tag := tag, addr := pa, bytes := bs, id := s.nextId }] } := by
  unfold State.unitWr
  rw [h]
  rfl

/-- The report of context 6, which has ended, lies on module 1 and is not acknowledged; the routing entry of module 1 has been written
while a unit's write to that module was outstanding, so that later accesses to it are held (R425). -/
def reportHeld : State :=
  { State.reset with
    unacked := [(6#12, 2 ^ 48)], unitQ := [{ tag := none, addr := 2 ^ 48 + 64, bytes := [], id := 0 }], routeHolds := [(1, 1)], nextId := 1
    input := { Input.zero with err := .entry .area 0#2 0#12 0 6#12 } }

theorem reportHeld_held : reportHeld.held (2 ^ 48) = true := by decide

/-- The second error's count waits in the unit's queue, and memory is as it was. -/
theorem uncorrectableError_reportHeld_mem :
    ∀ v : State, exec .uncorrectableError reportHeld = .next v → v.mem = [] := by
  intro v h
  have hexec : exec .uncorrectableError reportHeld = .next (reportHeld.unitWr (some 6#12) (2 ^ 48) (natBytes 8 (reportHeld.pmRd (2 ^ 48) 8 + 1))) := by
    rfl
  rw [hexec, State.unitWr_of_held _ _ reportHeld_held] at h
  obtain rfl := Host.Outcome.next.inj h
  rfl

/-- Refutes O51: the second error of a context that has ended adds 1 to NERR of its report by a write that R425 holds where the routing entry
of the report's module has been written and accesses to it are outstanding; in `reportHeld` the dword is then as it was. -/
theorem not_contextsBeginAndEnd : ¬ Obligations.ContextsBeginAndEnd := by
  rintro ⟨-, -, herr, -⟩
  obtain ⟨-, -, hagain, -⟩ := herr reportHeld .area 0#2 0#12 6#12 0 rfl
  obtain ⟨v, hv, hbytes, -⟩ := hagain (2 ^ 48) rfl rfl rfl (by decide) (by decide) rfl rfl
  have hcount := hbytes (2 ^ 48)
  rw [uncorrectableError_reportHeld_mem v hv] at hcount
  exact absurd hcount (by decide)
/-! ### Finding a team after its block or itself has changed -/

theorem State.team?_eq_some {s : State} {r : TRef} {b : Block} {t : Team} :
    s.team? r = some (b, t) ↔ s.block? r.b = some b ∧ b.team? r.t = some t := by
  unfold State.team?
  constructor
  · intro h
    split at h
    · next c hc =>
      split at h
      · next u hu =>
        obtain ⟨rfl, rfl⟩ : c = b ∧ u = t := by simpa using h
        exact ⟨hc, hu⟩
      · cases h
    · cases h
  · rintro ⟨hb, ht⟩
    rw [hb]
    dsimp only
    rw [ht]

theorem State.block?_id {s : State} {i : Nat} {b : Block} (h : s.block? i = some b) : b.id = i := by
  simpa using find?_key h

theorem Block.team?_idx {b : Block} {i : Nat} {t : Team} (h : b.team? i = some t) : t.idx = i := by
  simpa using find?_key h

/-- A team whose block has been changed. -/
theorem State.team?_updBlock {s : State} {r : TRef} {b : Block} {t u : Team} (f : Block → Block) (hf : ∀ x, (f x).id = x.id)
    (h : s.team? r = some (b, t)) (hu : (f b).team? r.t = some u) : (s.updBlock r.b f).team? r = some (f b, u) := by
  rw [State.team?_eq_some] at h ⊢
  rw [s.block?_updBlock r.b f hf, h.1]
  exact ⟨rfl, hu⟩

/-- The same, where the change names the block by its identity. -/
theorem State.team?_updBlock_id {s : State} {r : TRef} {b : Block} {t u : Team} (f : Block → Block) (hf : ∀ x, (f x).id = x.id)
    (h : s.team? r = some (b, t)) (hu : (f b).team? r.t = some u) : (s.updBlock b.id f).team? r = some (f b, u) := by
  rw [State.block?_id (State.team?_eq_some.1 h).1]
  exact State.team?_updBlock f hf h hu

theorem State.block?_of_team? {s : State} {r : TRef} {b : Block} {t : Team} (h : s.team? r = some (b, t)) :
    s.block? r.b = some b := (State.team?_eq_some.1 h).1

/-- The team of a block that counts a reclamation point. -/
theorem State.team?_countPoint {s : State} {r : TRef} {b : Block} {t : Team} (h : s.team? r = some (b, t)) :
    (s.countPoint b).team? r = some ({ b with pcount := b.pcount + 1 }, t) :=
  State.team?_updBlock_id (fun x => { x with pcount := x.pcount + 1 }) (fun _ => rfl) h (State.team?_eq_some.1 h).2

theorem forall_mem_updWhere {α : Type} {p : α → Bool} {f : α → α} {l : List α} {q : α → Prop} :
    (∀ y ∈ updWhere p f l, q y) ↔ ∀ x ∈ l, q (if p x then f x else x) := by
  unfold updWhere
  exact List.forall_mem_map

/-- What holds of every element of a list and is kept by the change of some holds of the changed list. -/
theorem forall_mem_updWhere_of_iff {α : Type} {p : α → Bool} {f : α → α} {l : List α} {q : α → Prop} (h : ∀ x, q (f x) ↔ q x) :
    (∀ y ∈ updWhere p f l, q y) ↔ ∀ x ∈ l, q x := by
  rw [forall_mem_updWhere]
  refine forall₂_congr fun x _ => ?_
  split
  · exact h x
  · exact Iff.rfl

theorem Block.forall_teams_updTeam {b : Block} {i : Nat} {f : Team → Team} {q : Team → Prop} (h : ∀ x, q (f x) ↔ q x) :
    (∀ u ∈ (b.updTeam i f).teams, q u) ↔ ∀ u ∈ b.teams, q u := forall_mem_updWhere_of_iff h

/-! ### The block barrier (R131, R132, R141) -/

/-- Some team has arrived, and every team has arrived or ended: the barrier's phase is to complete (R131). -/
def Block.Gathered (b : Block) : Prop := b.barArr ≠ [] ∧ ∀ u ∈ b.teams, arrived b u

theorem Block.gathered_iff (b : Block) : b.Gathered ↔
    (!b.barArr.isEmpty && b.teams.all (fun t => t.ended || (b.barArr.contains t.idx && t.ops.all fun o => o.path != .l))) = true := by
  simp [Block.Gathered, arrived]

theorem Block.barCheck_of_gathered {b : Block} (h : b.Gathered) :
    b.barCheck = { b with barArr := [], barPhase := b.barPhase + 1 } := if_pos (b.gathered_iff.1 h)

theorem Block.barCheck_of_not_gathered {b : Block} (h : ¬b.Gathered) : b.barCheck = b :=
  if_neg fun e => h (b.gathered_iff.2 e)

/-- The barrier's check moves the barrier alone. -/
theorem Block.barCheck_eq (b : Block) : b.barCheck = { b with barArr := b.barCheck.barArr, barPhase := b.barCheck.barPhase } := by
  by_cases h : b.Gathered
  · rw [Block.barCheck_of_gathered h]
  · rw [Block.barCheck_of_not_gathered h]

@[simp] theorem Block.barCheck_id (b : Block) : b.barCheck.id = b.id := by rw [b.barCheck_eq]
@[simp] theorem Block.barCheck_pool (b : Block) : b.barCheck.pool = b.pool := by rw [b.barCheck_eq]
@[simp] theorem Block.barCheck_pcount (b : Block) : b.barCheck.pcount = b.pcount := by rw [b.barCheck_eq]
@[simp] theorem Block.barCheck_teams (b : Block) : b.barCheck.teams = b.teams := by rw [b.barCheck_eq]

@[simp] theorem Block.team?_barCheck (b : Block) (i : Nat) : b.barCheck.team? i = b.team? i :=
  congrArg (fun l => l.find? fun x => x.idx == i) b.barCheck_teams

theorem Block.barPhase_le_barCheck (b : Block) : b.barPhase ≤ b.barCheck.barPhase := by
  by_cases h : b.Gathered
  · rw [Block.barCheck_of_gathered h]
    exact Nat.le_succ _
  · rw [Block.barCheck_of_not_gathered h]

@[simp] theorem State.wakeBar_cur (s : State) (r : TRef) : (s.wakeBar r).cur = s.cur := by
  unfold State.wakeBar
  dsimp only
  split
  · split
    · split
      · rfl
      · rfl
    · rfl
  · rfl

section
variable {s : State} {r : TRef} {b : Block} {t : Team} {p : Nat} (h : s.team? r = some (b, t)) (hw : t.wait = some (.bar p))
include h hw

/-- A team that waits at the barrier goes on once its phase is complete. -/
theorem State.wakeBar_of_lt (hp : p < b.barCheck.barPhase) :
    (s.wakeBar r).team? r = some (b.barCheck.updTeam r.t fun u => { u with wait := none }, { t with wait := none }) := by
  have h1 : (s.updBlock r.b Block.barCheck).team? r = some (b.barCheck, t) :=
    State.team?_updBlock Block.barCheck Block.barCheck_id h ((b.team?_barCheck r.t).trans (State.team?_eq_some.1 h).2)
  unfold State.wakeBar
  simp only [h1, hw, if_pos hp]
  exact State.team?_updTeam (fun u => { u with wait := none }) (fun _ => rfl) h1

/-- A team whose phase is not complete waits on. -/
theorem State.wakeBar_of_not_lt (hp : ¬p < b.barCheck.barPhase) : (s.wakeBar r).team? r = some (b.barCheck, t) := by
  have h1 : (s.updBlock r.b Block.barCheck).team? r = some (b.barCheck, t) :=
    State.team?_updBlock Block.barCheck Block.barCheck_id h ((b.team?_barCheck r.t).trans (State.team?_eq_some.1 h).2)
  unfold State.wakeBar
  simp only [h1, hw, if_neg hp]

end

theorem Run.word_ended (r : Run) (s : Bool) : (r.word s true).ended = true := by
  unfold Run.word
  split
  · next h => exact h
  · simp

/-- The block of a team that has issued BAR, before its barrier is looked at. -/
def Block.atBar (b : Block) (i : Nat) (h : Hd) (next : BitVec 56) : Block :=
  { ({ b with pcount := b.pcount + 1 }.updTeam i fun u => ({ u with wait := some (.bar b.barPhase) } : Team).retire h true next) with
    barArr := b.barArr ++ [i] }

theorem Block.gathered_atBar (b : Block) (i : Nat) (h : Hd) (next : BitVec 56) :
    (b.atBar i h next).Gathered ↔ ∀ u ∈ b.teams, arrives b i u := by
  have hteams : (∀ u ∈ (b.atBar i h next).teams, arrived (b.atBar i h next) u) ↔ ∀ u ∈ b.teams, arrived (b.atBar i h next) u :=
    Block.forall_teams_updTeam (b := { b with pcount := b.pcount + 1 }) fun _ => by rfl
  unfold Block.Gathered
  rw [hteams]
  simp [Block.atBar, arrived, arrives]

/-- The state after BAR has issued and its team has arrived, before the barrier is looked at. -/
def State.arrive (s : State) (h : Hd) (b : Block) : State :=
  ((s.countPoint b).issue h true fun u => { u with wait := some (.bar b.barPhase) }).updBlock b.id fun x =>
    { x with barArr := x.barArr ++ [s.cur.r.t] }

section
variable {s : State} {b : Block} {t : Team} (hf : s.Free [] [] false b t)
include hf

/-- BAR of a team whose block is not to end: its team arrives, and the barrier is looked at. -/
theorem execBar_of_free (h : Hd) (hd : b.dying = false) : exec (.bar h) s = .next ((s.arrive h b).wakeBar s.cur.r) := by
  have hexec : exec (.bar h) s = execBar h s := rfl
  rw [hexec, execBar, State.chk_free hf, State.atPoint, hd, Block.team?_idx (State.team?_eq_some.1 hf.team).2]
  rfl

theorem State.team?_arrive (h : Hd) : (s.arrive h b).team? s.cur.r =
    some (b.atBar s.cur.r.t h s.cur.next, ({ t with wait := some (.bar b.barPhase) } : Team).retire h true s.cur.next) := by
  have hissue := State.team?_issue (s := s.countPoint b) h true (fun u => { u with wait := some (.bar b.barPhase) }) (fun _ => rfl)
    (State.team?_countPoint hf.team)
  exact State.team?_updBlock_id (fun x => { x with barArr := x.barArr ++ [s.cur.r.t] }) (fun _ => rfl) hissue
    (State.team?_eq_some.1 hissue).2

theorem bar_last (h : Hd) (hd : b.dying = false) (hall : ∀ u ∈ b.teams, arrives b t.idx u) :
    issuesWith (.bar h) s fun v u => u.wait = none ∧ u.run.ended = true ∧
      ∃ c, v.block? s.cur.r.b = some c ∧ c.barPhase = b.barPhase + 1 ∧ c.barArr = [] := by
  rw [Block.team?_idx (State.team?_eq_some.1 hf.team).2] at *
  have hcheck := Block.barCheck_of_gathered ((b.gathered_atBar s.cur.r.t h s.cur.next).2 hall)
  have hwake := State.wakeBar_of_lt (State.team?_arrive hf h) rfl (by rw [hcheck]; exact Nat.lt_succ_self _)
  refine ⟨_, _, _, execBar_of_free hf h hd, by rw [State.wakeBar_cur]; rfl, hwake, rfl, Run.word_ended _ _, _, State.block?_of_team? hwake, ?_, ?_⟩
  · rw [hcheck]
    rfl
  · rw [hcheck]
    rfl

theorem bar_waits (h : Hd) (hd : b.dying = false) (hsome : ∃ u ∈ b.teams, ¬arrives b t.idx u) :
    issuesWith (.bar h) s fun v u => u.wait = some (.bar b.barPhase) ∧ u.stall = .bench ∧ u.run.ended = true ∧
      ∃ c, v.block? s.cur.r.b = some c ∧ c.barPhase = b.barPhase ∧ c.barArr = b.barArr ++ [t.idx] := by
  rw [Block.team?_idx (State.team?_eq_some.1 hf.team).2] at *
  obtain ⟨u, hu, hnot⟩ := hsome
  have hcheck := Block.barCheck_of_not_gathered fun hg => hnot ((b.gathered_atBar s.cur.r.t h s.cur.next).1 hg u hu)
  have hwake := State.wakeBar_of_not_lt (State.team?_arrive hf h) rfl (by rw [hcheck]; exact Nat.lt_irrefl _)
  refine ⟨_, _, _, execBar_of_free hf h hd, by rw [State.wakeBar_cur]; rfl, hwake, rfl, rfl, Run.word_ended _ _, _, State.block?_of_team? hwake, ?_, ?_⟩
  · rw [hcheck]
    rfl
  · rw [hcheck]
    rfl

end
/-! The end of a team (R33, R141) -/

theorem State.ungrant_of_not_granted {s : State} {r : TRef} {b : Block} {t : Team} (h : s.team? r = some (b, t)) (hg : t.granted = false) :
    (s.ungrant r).team? r = some (b.updTeam r.t fun u => { u with want := .none, granted := false }, { t with want := .none, granted := false }) := by
  have hsame : (s.updBlock b.id fun x => x.ungrant t).team? r = some (b, t) := by
    have hb : b.ungrant t = b := by simp [Block.ungrant, hg]
    have h1 := State.team?_updBlock_id (fun x => x.ungrant t) (fun x => by simp [Block.ungrant, hg]) h (u := t)
      (by rw [hb]; exact (State.team?_eq_some.1 h).2)
    rwa [hb] at h1
  unfold State.ungrant
  simp only [h]
  exact State.team?_updTeam (fun u => { u with want := .none, granted := false }) (fun _ => rfl) hsame

@[simp] theorem State.freeFrameOf_blocks (s : State) (b : Block) (t : Team) : (s.freeFrameOf b t).blocks = s.blocks := by
  unfold State.freeFrameOf
  split
  · split
    · rfl
    · rfl
  · rfl

/-- Where the blocks are the same, so are the teams. -/
theorem State.team?_congr {s v : State} (h : v.blocks = s.blocks) (r : TRef) : v.team? r = s.team? r := by
  unfold State.team? State.block?
  rw [h]

/-- The block of a team that has ended, before its barrier is looked at. -/
def Block.withoutTeam (b : Block) (i : Nat) (t : Team) : Block :=
  { (b.updTeam i Team.finish) with
    pool := b.pool + t.regs / 8, barArr := b.barArr.filter fun j => j != i, rclaims := b.rclaims.filter fun q => q.1 != i }

theorem Block.endTeam_of_live {b : Block} {i : Nat} {t : Team} (h : b.team? i = some t) (he : t.ended = false) :
    b.endTeam i = (b.withoutTeam i t).barCheck := by
  unfold Block.endTeam
  simp only [h, he]
  rfl

/-- The barrier's phase completes at the end of a team where another has arrived and every other has arrived or ended (R131, R141). -/
theorem Block.gathered_withoutTeam (b : Block) (i : Nat) (t : Team) :
    (b.withoutTeam i t).Gathered ↔ (∃ j ∈ b.barArr, j ≠ i) ∧ ∀ u ∈ b.teams, u.idx = i ∨ arrived b u := by
  have harr : (b.withoutTeam i t).barArr ≠ [] ↔ ∃ j ∈ b.barArr, j ≠ i := by
    simp [Block.withoutTeam, List.filter_eq_nil_iff]
  have hteam (u : Team) :
      arrived (b.withoutTeam i t) (if u.idx == i then u.finish else u) ↔ u.idx = i ∨ arrived b u := by
    by_cases hi : u.idx = i
    · simp [hi, arrived, Team.finish]
    · simp [hi, arrived, Block.withoutTeam]
  have hteams : (∀ u ∈ (b.withoutTeam i t).teams, arrived (b.withoutTeam i t) u) ↔ ∀ u ∈ b.teams, u.idx = i ∨ arrived b u :=
    forall_mem_updWhere.trans (forall₂_congr fun u _ => hteam u)
  unfold Block.Gathered
  rw [harr, hteams]

theorem Block.endTeam_id (b : Block) (i : Nat) : (b.endTeam i).id = b.id := by
  unfold Block.endTeam
  split
  · rfl
  · split
    · rfl
    · exact Block.barCheck_id _

/-- A live team whose end is not given back anything: it is found ended, in its block without it. -/
theorem State.team?_endTeam {s : State} {r : TRef} {b : Block} {t : Team} (h : s.team? r = some (b, t)) (hg : t.granted = false)
    (he : t.ended = false) :
    (s.endTeam r).team? r = some (((b.updTeam r.t fun u => { u with want := .none, granted := false }).withoutTeam r.t t).barCheck, t.finish) := by
  have hu := State.ungrant_of_not_granted h hg
  have h1 : ((s.ungrant r).freeFrameOf b t).team? r = _ := (State.team?_congr (State.freeFrameOf_blocks _ b t) r).trans hu
  have hlive := Block.endTeam_of_live (State.team?_eq_some.1 h1).2 he
  have hend : ((b.updTeam r.t fun u => { u with want := .none, granted := false }).endTeam r.t).team? r.t = some t.finish := by
    rw [hlive, Block.team?_barCheck]
    have h2 := Block.team?_updTeam _ r.t Team.finish (fun _ => rfl) |>.trans (congrArg (Option.map Team.finish) (State.team?_eq_some.1 h1).2)
    exact h2
  have h3 := State.team?_updBlock (fun x => x.endTeam r.t) (fun x => x.endTeam_id r.t) h1 hend
  unfold State.endTeam
  simp only [h]
  rw [h3, hlive]
  rfl

@[simp] theorem State.ungrant_cur (s : State) (r : TRef) : (s.ungrant r).cur = s.cur := by
  unfold State.ungrant
  split
  · rfl
  · rfl

@[simp] theorem State.freeFrameOf_cur (s : State) (b : Block) (t : Team) : (s.freeFrameOf b t).cur = s.cur := by
  unfold State.freeFrameOf
  split
  · split
    · rfl
    · rfl
  · rfl

@[simp] theorem State.endTeam_cur (s : State) (r : TRef) : (s.endTeam r).cur = s.cur := by
  unfold State.endTeam
  split
  · rfl
  · simp

/-- The block of a team that has issued EXIT. -/
def Block.atExit (b : Block) (i : Nat) (h : Hd) (next : BitVec 56) : Block :=
  ({ b with pcount := b.pcount + 1 }.updTeam i fun u => u.retire h true next).updTeam i fun u => { u with want := .none, granted := false }

theorem Block.gathered_atExit (b : Block) (i : Nat) (h : Hd) (next : BitVec 56) (t : Team) :
    ((b.atExit i h next).withoutTeam i t).Gathered ↔ (∃ j ∈ b.barArr, j ≠ i) ∧ ∀ u ∈ b.teams, u.idx = i ∨ arrived b u := by
  rw [Block.gathered_withoutTeam]
  have hgiven : (∀ u ∈ (b.atExit i h next).teams, u.idx = i ∨ arrived b u) ↔
      ∀ u ∈ (({ b with pcount := b.pcount + 1 } : Block).updTeam i fun u => u.retire h true next).teams, u.idx = i ∨ arrived b u :=
    Block.forall_teams_updTeam fun _ => by rfl
  have hissued : (∀ u ∈ (({ b with pcount := b.pcount + 1 } : Block).updTeam i fun u => u.retire h true next).teams, u.idx = i ∨ arrived b u) ↔
      ∀ u ∈ b.teams, u.idx = i ∨ arrived b u := Block.forall_teams_updTeam fun _ => by rfl
  exact and_congr Iff.rfl (hgiven.trans hissued)

theorem exit_ends {s : State} {b : Block} {t : Team} (hf : s.Free [] [] false b t) (h : Hd) (he : t.ended = false) :
    issuesWith (.exit h) s fun v u => u.ended = true ∧ u.v = [] ∧ u.pend = [] ∧ u.ops = t.ops ∧ u.handler = none ∧
      ∃ c, v.block? s.cur.r.b = some c ∧ c.pool = b.pool + t.regs / 8 ∧ c.pcount = b.pcount + 1 ∧
        let all := (∃ i ∈ b.barArr, i ≠ t.idx) ∧ ∀ u ∈ b.teams, u.idx = t.idx ∨ arrived b u
        (all → c.barPhase = b.barPhase + 1 ∧ c.barArr = []) ∧
        (¬all → c.barPhase = b.barPhase ∧ c.barArr = b.barArr.filter fun i => i != t.idx) := by
  have hissue := State.team?_issue (s := s.countPoint b) h true id (fun _ => rfl) (State.team?_countPoint hf.team)
  have hend := State.team?_endTeam hissue rfl he
  have hexec : exec (.exit h) s = .next (((s.countPoint b).issue h true id).endTeam s.cur.r) := by
    have h1 : exec (.exit h) s = execExit h s := rfl
    rw [h1, execExit, State.chk_free hf]
  rw [Block.team?_idx (State.team?_eq_some.1 hf.team).2]
  refine ⟨_, _, _, hexec, by rw [State.endTeam_cur]; rfl, hend, rfl, rfl, rfl, rfl, rfl, _, State.block?_of_team? hend, ?_, ?_, ?_, ?_⟩
  · rw [Block.barCheck_pool]
    rfl
  · rw [Block.barCheck_pcount]
    rfl
  · intro hall
    have hg := (b.gathered_atExit s.cur.r.t h s.cur.next (t.retire h true s.cur.next)).2 hall
    exact ⟨congrArg Block.barPhase (Block.barCheck_of_gathered hg), congrArg Block.barArr (Block.barCheck_of_gathered hg)⟩
  · intro hall
    have hg := mt (b.gathered_atExit s.cur.r.t h s.cur.next (t.retire h true s.cur.next)).1 hall
    exact ⟨(congrArg Block.barPhase (Block.barCheck_of_not_gathered hg)).trans rfl,
      (congrArg Block.barArr (Block.barCheck_of_not_gathered hg)).trans rfl⟩

/-- A team that waits at the barrier goes on with the phase, at the moment that the last team arrives or later (R131). -/
theorem wakeBar_goes {s : State} {r : TRef} {b : Block} {t : Team} {p : Nat} (h : s.team? r = some (b, t)) (hw : t.wait = some (.bar p)) :
    (p < b.barPhase → ∃ c u, (s.wakeBar r).team? r = some (c, u) ∧ u = { t with wait := none }) ∧
    (p = b.barPhase → b.barArr ≠ [] → (∀ u ∈ b.teams, arrived b u) →
      ∃ c u, (s.wakeBar r).team? r = some (c, u) ∧ u = { t with wait := none } ∧ c.barPhase = p + 1 ∧ c.barArr = []) ∧
    (p = b.barPhase → (∃ u ∈ b.teams, ¬arrived b u) →
      ∃ c, (s.wakeBar r).team? r = some (c, t) ∧ c.barPhase = p ∧ c.barArr = b.barArr) := by
  refine ⟨fun hp => ?_, ?_, ?_⟩
  · exact ⟨_, _, State.wakeBar_of_lt h hw (Nat.lt_of_lt_of_le hp b.barPhase_le_barCheck), rfl⟩
  · rintro rfl harr hall
    have hcheck := Block.barCheck_of_gathered ⟨harr, hall⟩
    refine ⟨_, _, State.wakeBar_of_lt h hw (by rw [hcheck]; exact Nat.lt_succ_self _), rfl, ?_, ?_⟩
    · exact congrArg Block.barPhase hcheck
    · exact congrArg Block.barArr hcheck
  · rintro rfl ⟨u, hu, hnot⟩
    have hcheck := Block.barCheck_of_not_gathered fun hg : b.Gathered => hnot (hg.2 u hu)
    refine ⟨_, State.wakeBar_of_not_lt h hw (by rw [hcheck]; exact Nat.lt_irrefl _), ?_, ?_⟩
    · exact congrArg Block.barPhase hcheck
    · exact congrArg Block.barArr hcheck

/-- Settles O14: the check of the barrier completes its phase exactly where every team has arrived or ended (`Block.Gathered`), and BAR,
the wait at the barrier and EXIT each end with that check. -/
theorem barAndExitCountTeams : Obligations.BarAndExitCountTeams :=
  ⟨fun h _ _ _ hf hd _ => ⟨bar_last hf h hd, bar_waits hf h hd⟩, fun _ _ _ _ _ ht hw => wakeBar_goes ht hw, fun h _ _ _ hf he => exit_ends hf h he⟩
/-! ### What a word that computes changes (R28, R91, R94) -/

theorem updWhere_updWhere {α : Type} {p : α → Bool} {f g : α → α} {l : List α} (h : ∀ x, p x = true → p (f x) = true) :
    updWhere p g (updWhere p f l) = updWhere p (fun x => g (f x)) l := by
  unfold updWhere
  rw [List.map_map]
  refine List.map_congr_left fun x _ => ?_
  by_cases hx : p x = true
  · simp [hx, h x hx]
  · simp [hx]

theorem Block.updTeam_updTeam (b : Block) (i : Nat) (f g : Team → Team) (hf : ∀ x, (f x).idx = x.idx) :
    (b.updTeam i f).updTeam i g = b.updTeam i fun u => g (f u) := by
  unfold Block.updTeam
  rw [updWhere_updWhere fun x hx => by simpa [hf x] using hx]

theorem State.updBlock_updBlock (s : State) (i : Nat) (f g : Block → Block) (hf : ∀ x, (f x).id = x.id) :
    (s.updBlock i f).updBlock i g = s.updBlock i fun x => g (f x) := by
  have h : updWhere (fun x : Block => x.id == i) g (updWhere (fun x => x.id == i) f s.blocks) =
      updWhere (fun x => x.id == i) (fun x => g (f x)) s.blocks :=
    updWhere_updWhere fun x hx => by simpa [hf x] using hx
  exact congrArg (fun l => { s with blocks := l }) h

theorem State.updTeam_updTeam (s : State) (r : TRef) (f g : Team → Team) (hf : ∀ x, (f x).idx = x.idx) :
    (s.updTeam r f).updTeam r g = s.updTeam r fun u => g (f u) := by
  unfold State.updTeam
  rw [s.updBlock_updBlock r.b (fun b => b.updTeam r.t f) _ fun _ => rfl]
  simp only [Block.updTeam_updTeam _ _ _ _ hf]

theorem sameRegs_refl (t : Team) : sameRegs t t := ⟨rfl, rfl, rfl, rfl, rfl, rfl, rfl, rfl, rfl, rfl, rfl, rfl⟩

theorem sameRegs_trans {t u v : Team} (h : sameRegs t u) (k : sameRegs u v) : sameRegs t v := by
  obtain ⟨h1, h2, h3, h4, h5, h6, h7, h8, h9, h10, h11, h12⟩ := h
  obtain ⟨k1, k2, k3, k4, k5, k6, k7, k8, k9, k10, k11, k12⟩ := k
  exact ⟨k1.trans h1, k2.trans h2, k3.trans h3, k4.trans h4, k5.trans h5, k6.trans h6, k7.trans h7, k8.trans h8, k9.trans h9,
    k10.trans h10, k11.trans h11, k12.trans h12⟩

/-- Every write of a list names a register of another list. -/
def Within (ws : List RegWrite) (ds : List RegName) : Prop := ∀ w ∈ ws, ∃ n ∈ ds, w.name? = some n

/-- A team whose registers keep their values and whose run has further results to write, in registers of a list (R91). -/
structure Team.Extends (ds : List RegName) (t u : Team) : Prop where
  idx : u.idx = t.idx
  regs : sameRegs t u
  status : u.status = t.status
  ops : u.ops = t.ops
  pend : u.pend = t.pend
  writes : ∃ ws : List RunWrite, u.run.writes = t.run.writes ++ ws ∧ ∀ w ∈ ws, ∃ n ∈ ds, w.write.name? = some n

section
variable {ds : List RegName} {t u : Team}

/-- An update that leaves the registers, the outstanding results and the accesses alone. -/
theorem Team.Extends.same (hi : u.idx = t.idx := by rfl) (hr : sameRegs t u := by exact sameRegs_refl _) (hs : u.status = t.status := by rfl)
    (ho : u.ops = t.ops := by rfl) (hp : u.pend = t.pend := by rfl) (hw : u.run.writes = t.run.writes := by rfl) : t.Extends ds u :=
  ⟨hi, hr, hs, ho, hp, [], by rw [hw, List.append_nil], fun _ h => absurd h List.not_mem_nil⟩

theorem Team.Extends.trans {v : Team} (h : t.Extends ds u) (k : u.Extends ds v) : t.Extends ds v := by
  obtain ⟨ws, hw, hd⟩ := h.writes
  obtain ⟨xs, kw, kd⟩ := k.writes
  refine ⟨k.idx.trans h.idx, sameRegs_trans h.regs k.regs, k.status.trans h.status, k.ops.trans h.ops, k.pend.trans h.pend, ws ++ xs, ?_, ?_⟩
  · rw [kw, hw, List.append_assoc]
  · intro w hx
    exact (List.mem_append.1 hx).elim (hd w) (kd w)

theorem Team.Extends.addRun (t : Team) (due : Nat) {ws : List RegWrite} (h : Within ws ds) : t.Extends ds (t.addRun due ws) := by
  refine ⟨rfl, sameRegs_refl _, rfl, rfl, rfl, _, rfl, fun w hw => ?_⟩
  obtain ⟨x, hx, rfl⟩ := List.mem_map.1 hw
  exact h x hx

theorem Run.word_writes (r : Run) (s switch : Bool) : (r.word s switch).writes = r.writes := by
  unfold Run.word
  split
  · rfl
  · rfl

theorem Team.Extends.retire (t : Team) (h : Hd) (switch : Bool) (next : BitVec 56) : t.Extends ds (t.retire h switch next) :=
  .same (hw := Run.word_writes _ _ _)

end

/-- Where an outcome is that its word has issued, the step has changed the issuing team alone, by a change that extends its run with results in
registers of a list and that has a property. -/
def Advances (ds : List RegName) (p : Team → Team → Prop) (s : State) (o : Out) : Prop :=
  ∀ v, o = .next v → v.cur.res = .issued → ∃ (g : Team → Team) (c : Issue), (∀ t, t.Extends ds (g t) ∧ p t (g t)) ∧
    v = { s with blocks := (s.updTeam s.cur.r g).blocks, cur := c }

section
variable {ds : List RegName} {p : Team → Team → Prop} {s : State}

theorem Advances.chk {rs ws : List RegName} {k : Bool} {f : Block → Team → Out} (h : ∀ b t, Advances ds p s (f b t)) :
    Advances ds p s (s.chk rs ws k f) := by
  intro v hv hres
  obtain ⟨b, t, -, hf⟩ := State.chk_issued hv hres
  exact h b t v hf hres

/-- A word that traps has not issued. -/
theorem Advances.trap (c : Cause) : Advances ds p s (.next (s.trap c)) := by
  intro v hv hres
  obtain rfl := Host.Outcome.next.inj hv
  rw [State.trap_res] at hres
  cases hres

theorem Advances.ite {c : Prop} [Decidable c] {a b : Out} (ha : Advances ds p s a) (hb : Advances ds p s b) :
    Advances ds p s (if c then a else b) := by
  split
  · exact ha
  · exact hb

theorem Advances.issue (h : Hd) (switch : Bool) {f : Team → Team} (hf : ∀ t : Team, t.Extends ds (f t))
    (hp : ∀ t, p t ((f t).retire h switch s.cur.next)) : Advances ds p s (.next (s.issue h switch f)) := by
  intro v hv _
  obtain rfl := Host.Outcome.next.inj hv
  exact ⟨fun t => (f t).retire h switch s.cur.next, _, fun t => ⟨(hf t).trans (.retire _ _ _ _), hp t⟩, rfl⟩

/-- A further change of the team that has issued. -/
theorem Advances.updTeam {u : State} {f : Team → Team} {q : Team → Team → Prop} (h : Advances ds q s (.next u))
    (hf : ∀ t : Team, t.Extends ds (f t)) (hp : ∀ t x, q t x → p t (f x)) : Advances ds p s (.next (u.updTeam s.cur.r f)) := by
  intro v hv hres
  obtain rfl := Host.Outcome.next.inj hv
  obtain ⟨g, c, hg, rfl⟩ := h u rfl hres
  refine ⟨fun t => f (g t), c, fun t => ⟨(hg t).1.trans (hf _), hp t _ (hg t).2⟩, ?_⟩
  rw [← s.updTeam_updTeam s.cur.r g f fun t => (hg t).1.idx]
  rfl

end

/-- The team goes on at the next word with its reconvergence stack as it was. -/
def Straight (next : BitVec 56) (t u : Team) : Prop := u.stack = t.stack ∧ u.pc = next

/-- A word that computes: it goes on at the next word, with results in registers of a list. -/
abbrev Computes (ds : List RegName) (s : State) (o : Out) : Prop := Advances ds (Straight s.cur.next) s o

section
variable {ds : List RegName} {s : State}

theorem Computes.issue_addRun (h : Hd) (due : Nat) {ws : List RegWrite} (hw : Within ws ds) :
    Computes ds s (.next (s.issue h false fun u => u.addRun due ws)) :=
  Advances.issue h false (fun t => .addRun t due hw) fun _ => ⟨rfl, rfl⟩

theorem Computes.issue_id (h : Hd) : Computes ds s (.next (s.issue h false id)) :=
  Advances.issue h false (fun _ => .same) fun _ => ⟨rfl, rfl⟩

theorem Within.single {w : RegWrite} {n : RegName} (h : w.name? = some n) : Within [w] [n] := by
  intro x hx
  obtain rfl := List.mem_singleton.1 hx
  exact ⟨n, List.mem_singleton_self n, h⟩

theorem within_vWrite (wide : Bool) (d : BitVec 6) (n : Nat) (g : Nat → Option Nat) : Within (vWrite wide d.toNat n g) (vName wide d) := by
  cases wide with
  | false => exact Within.single rfl
  | true => simp [Within, vWrite, vName, RegWrite.name?]

/-- A word with one result in a register. -/
theorem Computes.one (h : Hd) (due : Nat) {w : RegWrite} {n : RegName} (hn : w.name? = some n := by rfl) :
    Computes [n] s (.next (s.issue h false fun u => u.addRun due [w])) := .issue_addRun h due (.single hn)

theorem Computes.uBin {h : Hd} {d a b : BitVec 6} {f : Dword → Dword → Dword} : Computes [.w d.toNat] s (s.uBin h d a b f) :=
  Advances.chk fun _ _ => Computes.one h _

theorem Computes.uImm {h : Hd} {d a : BitVec 6} {i : BitVec 9} {f : Dword → Dword → Dword} : Computes [.w d.toNat] s (s.uImm h d a i f) :=
  Advances.chk fun _ _ => Computes.one h _

theorem Computes.mBin {h : Hd} {l : BitVec 1} {d a b : BitVec 3} {f : Mask → Mask → Mask} : Computes [.m d.toNat] s (s.mBin h l d a b f) :=
  Advances.chk fun _ _ => Computes.one h _

theorem Computes.mandn {h : Hd} {l : BitVec 1} {d a b : BitVec 3} : Computes [.m d.toNat] s (execMandn h l d a b s) := Computes.mBin

theorem Computes.vOp {h : Hd} {k : BitVec 3} {wide : Bool} {lat : Nat} {d : BitVec 6} {srcs : List RegName} {f : Team → Nat → Nat} :
    Computes (vName wide d) s (s.vOp h k wide lat d srcs f) :=
  Advances.chk fun _ _ => Computes.issue_addRun h _ (within_vWrite wide d _ _)

theorem Computes.vTest {h : Hd} {k d : BitVec 3} {a b : BitVec 6} {wide : Bool} {f : Team → Nat → Nat → Bool} :
    Computes [.m d.toNat] s (s.vTest h k d a b wide f) := Advances.chk fun _ _ => Computes.one h _

theorem Computes.vCmp {h : Hd} {k d : BitVec 3} {a b : BitVec 6} {q : Test} : Computes [.m d.toNat] s (s.vCmp h k d a b q) :=
  Computes.vTest

theorem Computes.vtest {h : Hd} {k d : BitVec 3} {a b : BitVec 6} : Computes [.m d.toNat] s (execVtest h k d a b s) := Computes.vTest

/-- A word with one vector destination that is not a lane-by-lane word. -/
theorem Computes.vector {h : Hd} {rs ws : List RegName} {wide : Bool} {d : BitVec 6} {due : Block → Team → Nat}
    {g : Block → Team → Nat → Option Nat} : Computes (vName wide d) s (s.chk rs ws false fun b t =>
      .next (s.issue h false fun u => u.addRun (due b t) (vWrite wide d.toNat t.lanes (g b t)))) :=
  Advances.chk fun _ _ => Computes.issue_addRun h _ (within_vWrite wide d _ _)

/-- A word with one destination, of any kind. -/
theorem Computes.scalar {h : Hd} {rs ws : List RegName} {n : RegName} {due : Block → Team → Nat} {w : Block → Team → RegWrite}
    (hn : ∀ b t, (w b t).name? = some n := by intros; rfl) : Computes [n] s (s.chk rs ws false fun b t =>
      .next (s.issue h false fun u => u.addRun (due b t) [w b t])) :=
  Advances.chk fun b t => Computes.one h _ (hn b t)

/-- MSETW writes one lane word of its destination, or nothing (R125). -/
theorem Computes.msetw {h : Hd} {d : BitVec 3} {a b : BitVec 6} : Computes [.m d.toNat] s (execMsetw h d a b s) :=
  Advances.chk fun _ _ => .ite (Computes.one h _) (Computes.issue_id h)

end

theorem exec_computes (i : Instr) (s : State) (h : computes i = true) : Computes (destsOf i) s (exec i s) := by
  cases i with
  | uadd | usub | umul | umulh | uand | uor | uxor | ushl | ushr | usar | umin | umax | ucmp | ubfx => exact Computes.uBin
  | uaddImm | uandImm | uorImm | uxorImm | ushlImm | ushrImm | usarImm | umulImm => exact Computes.uImm
  | mand | mor | mxor => exact Computes.mBin
  | mandn => exact Computes.mandn
  | msetw => exact Computes.msetw
  | ubfi | ului | mlead | mfirst | mcount | mgetw | vred | vconf | rdc | rdcV => exact Computes.scalar
  | vcmpEq | vcmpNe | vcmpLt | vcmpLe | vcmpGt | vcmpGe | vcmpUn | vcmpOrd => exact Computes.vCmp
  | vtest => exact Computes.vtest
  | cvt | vsel | vcompress => exact Computes.vector
  | vadd | vsub | vmul | vmulh | vand | vor | vxor | vshl | vshr | vsar | vmin | vmax | vabs | vbfx | vbfi | vaddImm | vandImm | vorImm
  | vxorImm | vshlImm | vshrImm | vsarImm | vmulImm | vmovImm | vdot4 => exact Computes.vOp
  | fadd | fsub | fmul | ffma | fmin | fmax | fabs | frcp | frsq | fsqrt | fdiv | fexp2 | flog2 | fneg => exact Computes.vOp (wide := false)
  | dadd | dsub | dmul | dfma | dmin | dmax | ddiv | dsqrt => exact Computes.vOp (wide := true)
  | hadd2 | hsub2 | hmul2 | hfma2 | hmin2 | hmax2 => exact Computes.vOp
  | vshuf | vbcast | vscan | vmov | vmovw | mpath | vsegred | vsegscan | vexpand => exact Computes.vOp
  | _ => cases h

section
variable {ds : List RegName} {s : State}

/-- A flow word: it may go anywhere and change the reconvergence stack (R121). -/
abbrev Moves (ds : List RegName) (s : State) (o : Out) : Prop := Advances ds (fun _ _ => True) s o

theorem Moves.flow (h : Hd) (frozen : Bool) (target : Option (BitVec 56)) {f : Team → Team} (hf : ∀ t : Team, t.Extends ds (f t)) :
    Moves ds s (.next (s.flow h frozen target f)) :=
  Advances.updTeam (.issue h true hf fun _ => trivial) (fun _ => .same) fun _ _ h => h

theorem Moves.flow_id (h : Hd) (frozen : Bool) (target : Option (BitVec 56)) : Moves ds s (.next (s.flow h frozen target id)) :=
  .flow h frozen target fun _ => .same

theorem Team.Extends.withStack (t : Team) (st : List Recon) (now : Nat) (x : Mask) :
    t.Extends [.m 0] (Team.addRun { t with stack := st } now [.m 0 x]) :=
  Team.Extends.trans (u := { t with stack := st }) .same (.addRun _ now (.single rfl))

theorem Team.Extends.vbr (t : Team) (now : Nat) (yes no : Mask) (pc : BitVec 56) : t.Extends [.m 0] (t.vbr now yes no pc) := by
  unfold Team.vbr
  split
  · exact .withStack ..
  · exact .withStack ..

theorem Moves.brm {h : Hd} {k : BitVec 3} {o : BitVec 18} {c : Mask → Mask → Bool} : Moves [] s (s.brm h k o c) :=
  Advances.chk fun _ _ => Moves.flow_id _ _ _

theorem Moves.bru {h : Hd} {w : BitVec 6} {o : BitVec 15} {c : Dword → Bool} : Moves [] s (s.bru h w o c) :=
  Advances.chk fun _ _ => Moves.flow_id _ _ _

theorem Moves.jmp {h : Hd} {o : BitVec 18} : Moves [] s (execJmp h o s) := Advances.chk fun _ _ => Moves.flow_id _ _ _

theorem Moves.call {h : Hd} {w : BitVec 6} {o : BitVec 15} : Moves [.w w.toNat] s (execCall h w o s) :=
  Advances.chk fun _ _ => Moves.flow _ _ _ fun t => .addRun t _ (.single rfl)

theorem Moves.ret {h : Hd} {w : BitVec 6} : Moves [] s (execRet h w s) :=
  Advances.chk fun _ _ => .ite (.trap _) (Moves.flow_id _ _ _)

theorem Moves.vbr {h : Hd} {k : BitVec 3} {o : BitVec 18} : Moves [.m 0] s (execVbr h k o s) :=
  Advances.chk fun _ _ => .ite (.trap _) <|
    .ite (Moves.flow _ _ _ fun t => .vbr t ..) <|
      Advances.updTeam (Moves.flow _ _ _ fun t => .vbr t ..) (fun _ => .same) fun _ _ h => h

theorem Moves.recon {h : Hd} : Moves [.m 0] s (execRecon h s) := by
  refine Advances.chk fun _ t => ?_
  split
  · exact .trap _
  · exact .ite (Moves.flow _ _ _ fun t => .withStack ..) (Moves.flow _ _ _ fun t => .withStack ..)

end

theorem exec_moves (i : Instr) (s : State) (h : flows i = true) : Moves (destsOf i) s (exec i s) := by
  cases i with
  | jmp => exact Moves.jmp
  | call => exact Moves.call
  | ret => exact Moves.ret
  | brmAny | brmAll | brmNone => exact Moves.brm
  | bruZ k w o => exact show Moves [] s (execBruZ k w o s) from Moves.bru
  | bruNz k w o => exact show Moves [] s (execBruNz k w o s) from Moves.bru
  | bruNeg k w o => exact show Moves [] s (execBruNeg k w o s) from Moves.bru
  | bruNneg k w o => exact show Moves [] s (execBruNneg k w o s) from Moves.bru
  | vbr => exact Moves.vbr
  | recon => exact Moves.recon
  | _ => cases h

theorem othersSame_of_updTeam {s v : State} (g : Team → Team) (hg : ∀ x, (g x).idx = x.idx)
    (hv : v.blocks = (s.updTeam s.cur.r g).blocks) : othersSame s v := by
  intro q b t hq ht
  have h : (v.team? q).map Prod.snd = some t := by
    rw [State.team?_congr hv q, State.team?_updTeam_ne g hg hq, ht]
    rfl
  obtain ⟨⟨c, u⟩, hu, rfl⟩ := Option.map_eq_some_iff.1 h
  exact ⟨c, u, hu, sameRegs_refl _, rfl, rfl, rfl, rfl⟩

/-- What the statement says of a step of the issuing team, from `Advances`. -/
theorem Advances.frame {ds : List RegName} {p : Team → Team → Prop} {s v : State} {o : Out} {b : Block} {t : Team} (ha : Advances ds p s o)
    (ht : s.team? s.cur.r = some (b, t)) (hv : o = .next v) (hi : v.cur.res = .issued) :
    (∀ a, v.mem.rd a = s.mem.rd a) ∧ v.ctxs = s.ctxs ∧ v.dies = s.dies ∧ v.dispatches = s.dispatches ∧ v.copies = s.copies ∧
    v.clock = s.clock ∧ othersSame s v ∧ ∃ (c : Block) (u : Team), v.team? s.cur.r = some (c, u) ∧ t.Extends ds u ∧ p t u := by
  obtain ⟨g, c, hg, rfl⟩ := ha v hv hi
  have hidx : ∀ x, (g x).idx = x.idx := fun x => (hg x).1.idx
  exact ⟨fun _ => rfl, rfl, rfl, rfl, rfl, rfl, othersSame_of_updTeam g hidx rfl, _, _, State.team?_updTeam g hidx ht, hg t⟩

/-- Settles O53: what a word that computes does is a change of its team alone (`exec_computes`, `exec_moves`), which leaves the registers and
adds results in its destination to the run. -/
theorem registerWordsChangeOnlyTheirDestination : Obligations.RegisterWordsChangeOnlyTheirDestination := by
  unfold Obligations.RegisterWordsChangeOnlyTheirDestination
  intro i s v b t hc ht hv hi
  by_cases h : computes i = true
  · obtain ⟨hm, hx, hd, hp, hy, hk, ho, c, u, hu, ⟨_, hr, hs, hops, hpend, ws, hw, hds⟩, hgo⟩ := (exec_computes i s h).frame ht hv hi
    exact ⟨hm, hx, hd, hp, hy, hk, ho, c, u, ws, hu, hr, hs, hops, hpend, hw, hds, fun _ => hgo⟩
  · obtain ⟨hm, hx, hd, hp, hy, hk, ho, c, u, hu, ⟨_, hr, hs, hops, hpend, ws, hw, hds⟩, -⟩ :=
      (exec_moves i s (hc.resolve_left h)).frame ht hv hi
    exact ⟨hm, hx, hd, hp, hy, hk, ho, c, u, ws, hu, hr, hs, hops, hpend, hw, hds, fun k => absurd k h⟩
/-! ### The placement of blocks (R31, R32, R48, R49, R137) -/

theorem State.scanOf_eq_scanR (s : State) (x : Dispatch) : s.scanOf x = scanR s x := by
  unfold State.scanOf scanR
  refine if_congr ?_ rfl rfl
  simp

section
variable {s : State} {x : Dispatch} {c : Nat}

/-- The scan of single blocks finds the first core of its order that the block fits (R49). -/
theorem State.findCore_single (hx : x.pair = false) (hf : s.fits x.tag x.shape c = true)
    (h : ∃ l k, scanR s x = l ++ c :: k ∧ ∀ j ∈ l, s.fits x.tag x.shape j = false) : s.findCore x = some c := by
  obtain ⟨l, k, hl, hn⟩ := h
  unfold State.findCore
  rw [if_neg (by simp [hx]), State.scanOf_eq_scanR]
  exact List.find?_eq_some_iff_append.2 ⟨hf, l, k, hl, fun j hj => by simp [hn j hj]⟩

/-- The test of the scan of pairs is the statement's (R137). -/
theorem pairFits_iff (s : State) (x : Dispatch) (c : Nat) :
    (c % 2 = 0 && c + 1 < x.first + x.count && s.fits x.tag x.shape c && s.fits x.tag x.shape (c + 1)) = true ↔ pairFits s x c := by
  simp [pairFits, and_assoc]

theorem State.findCore_pair (hx : x.pair = true) (hf : pairFits s x c)
    (h : ∃ l k, scanR s x = l ++ c :: k ∧ ∀ j ∈ l, ¬pairFits s x j) : s.findCore x = some c := by
  obtain ⟨l, k, hl, hn⟩ := h
  unfold State.findCore
  rw [if_pos hx, State.scanOf_eq_scanR]
  refine List.find?_eq_some_iff_append.2 ⟨(pairFits_iff s x c).2 hf, l, k, hl, fun j hj => ?_⟩
  have := mt (pairFits_iff s x j).1 (hn j hj)
  simpa only [Bool.not_eq_true', Bool.not_eq_true] using this

theorem State.findCore_none (h : ∀ c ∈ scanR s x, if x.pair then ¬pairFits s x c else s.fits x.tag x.shape c = false) :
    s.findCore x = none := by
  unfold State.findCore
  rw [State.scanOf_eq_scanR]
  by_cases hp : x.pair = true
  · rw [if_pos hp, List.find?_eq_none]
    intro c hc
    have := h c hc
    rw [if_pos hp] at this
    exact mt (pairFits_iff s x c).1 this
  · rw [if_neg hp, List.find?_eq_none]
    intro c hc
    have := h c hc
    rw [if_neg hp] at this
    simp [this]

/-- A dispatch whose launch can be placed is not found unplaceable (R44). -/
theorem State.unplaceable_eq_false (h : x.next = 0 → x.num = 0 → x.kind ≠ .node → s.neverFits x = false) : s.unplaceable x = false := by
  unfold State.unplaceable
  by_cases h1 : x.next = 0
  · by_cases h2 : x.num = 0
    · by_cases h3 : x.kind = .node
      · simp [h3]
      · simp [h h1 h2 h3]
    · simp [h2]
  · simp [h1]

variable {d : Nat}

theorem State.dispatch_id (h : s.dispatches.find? (fun y => y.id = d) = some x) : x.id = d := by
  simpa using List.find?_some h

theorem exec_blockPlacement (h : s.dispatches.find? (fun y => y.id = d) = some x) : exec (.blockPlacement d) s =
    if s.unplaceable x then .next (s.failDispatch x) else if s.mayPlace x then .next (s.tryPlace x) else .next s := by
  have hb : s.dispatches.find? (fun y => y.id == d) = some x := h
  have hexec : exec (.blockPlacement d) s = execBlockPlacement d s := rfl
  rw [hexec]
  unfold execBlockPlacement
  rw [hb]

/-- A dispatch that may be placed is tried (R49). -/
theorem exec_blockPlacement_tries (h : s.dispatches.find? (fun y => y.id = d) = some x) (hm : s.mayPlace x = true)
    (hc : x.next = 0 → x.num = 0 → s.neverFits x = false) : exec (.blockPlacement d) s = .next (s.tryPlace x) := by
  rw [exec_blockPlacement h, State.unplaceable_eq_false fun h1 h2 _ => hc h1 h2, if_neg Bool.false_ne_true, if_pos hm]

end

/-! A block at its start. -/

theorem maskAll_getLsbD (n l : Nat) (h : n ≤ 1024) : (maskAll n).getLsbD l = decide (l < n) := by
  unfold maskAll
  rw [BitVec.getLsbD_ofNat, Nat.testBit_two_pow_sub_one]
  have : l < n → l < 1024 := by omega
  simpa using this

theorem Shape.roleOf_toNat (p : Shape) (i : Nat) : (p.roleOf i).toNat = p.role.toNat / 16 ^ i % 16 := by
  unfold Shape.roleOf
  rw [BitVec.extractLsb'_toNat, Nat.shiftRight_eq_div_pow, pow_mul]
  rfl

/-- A team's first uniform registers hold the arguments, and the others 0 (R32). -/
theorem start_args (as : List Dword) (h : as.length ≤ 64) (k : Nat) (hk : k < 64) :
    (as.take 64 ++ List.replicate (64 - as.length) 0#64)[k]? = some (as.getD k 0#64) := by
  rw [List.take_of_length_le h, List.getD_eq_getElem?_getD]
  by_cases hl : k < as.length
  · rw [List.getElem?_append_left hl, List.getElem?_eq_getElem hl]
    rfl
  · have hl := Nat.le_of_not_lt hl
    rw [List.getElem?_append_right hl, List.getElem?_eq_none hl, List.getElem?_replicate, if_pos (by omega)]
    rfl

theorem Team.start_starts (i slot : Nat) (p : Shape) (as : List Dword) (ha : as.length ≤ 64) (hw : 32 * p.wm ≤ 1024) :
    Starts (Team.start i slot (32 * p.wm) p.regs (p.roleOf i) p.entry as) i p as where
  num := rfl
  lanes := rfl
  pc := rfl
  role := p.roleOf_toNat i
  v := rfl
  args := start_args as ha
  m0 := fun l => maskAll_getLsbD _ l hw
  m := fun k h1 h2 => by
    obtain ⟨j, rfl⟩ := Nat.exists_eq_add_of_le' h1
    exact (List.getElem?_replicate ..).trans (if_pos (by omega))
  x := fun k hk => ⟨XReg.invalid, (List.getElem?_replicate ..).trans (if_pos hk), rfl⟩
  stack := rfl
  free := ⟨rfl, rfl, rfl, rfl, rfl, rfl, rfl⟩

theorem State.startBlock_started (s : State) (x : Dispatch) (id c n : Nat) (pt : Option (Nat × Bool)) (ha : x.args.length ≤ 64)
    (hw : 32 * x.shape.wm ≤ 1024) : ∃ b : Block, s.startBlock x id c n pt = { s with blocks := s.blocks ++ [b] } ∧ b.id = id ∧
      b.partner = pt ∧ Started b x c n := by
  refine ⟨_, rfl, rfl, rfl, ⟨rfl, rfl, rfl, rfl⟩, ⟨by simp, fun i u hu => ?_⟩, fun hk => ?_, ⟨fun hr => ?_, rfl⟩, ⟨by simp, ?_⟩,
    ⟨by simp, ?_⟩⟩
  · rw [List.getElem?_map] at hu
    obtain ⟨j, hj, rfl⟩ := Option.map_eq_some_iff.1 hu
    obtain ⟨hl, rfl⟩ := List.getElem?_eq_some_iff.1 hj
    rw [List.getElem_range]
    exact Team.start_starts _ _ x.shape x.args ha hw
  · simp [hk]
  · simp [hr, dwordBytes, cellsFrom]
  · simp
  · simp [Tile.zero]

/-! The dispatch after a placement (R49). -/

/-- Whether some dispatch of a state has an identity. -/
def State.hasDispatch (s : State) (d : Nat) : Prop := ∃ y ∈ s.dispatches, y.id = d

theorem exists_mem_updWhere {α : Type} {p : α → Bool} {f : α → α} {l : List α} {q : α → Prop} (h : ∃ x ∈ l, q x)
    (hf : ∀ x, q x → q (f x)) : ∃ x ∈ updWhere p f l, q x := by
  obtain ⟨x, hx, hq⟩ := h
  refine ⟨_, List.mem_map_of_mem hx, ?_⟩
  split
  · exact hf x hq
  · exact hq

/-- A step of a placement that starts no block: it leaves the blocks and memory, and no dispatch goes. -/
structure State.Marks (s v : State) : Prop where
  blocks : v.blocks = s.blocks
  mem : v.mem = s.mem
  has : ∀ d, s.hasDispatch d → v.hasDispatch d

theorem State.nodeRuns_marks (s : State) (x : Dispatch) (k : Nat) : s.Marks (s.nodeRuns x k) := by
  unfold State.nodeRuns
  split
  · exact ⟨rfl, rfl, fun d h => exists_mem_updWhere h fun _ h => h⟩
  · exact ⟨rfl, rfl, fun _ h => h⟩

theorem State.binRuns_marks (s : State) (x : Dispatch) (k : Nat) : s.Marks (s.binRuns x k) := by
  unfold State.binRuns
  split
  · exact ⟨rfl, rfl, fun d h => exists_mem_updWhere h fun _ h => h⟩
  · exact ⟨rfl, rfl, fun _ h => h⟩

theorem State.putDispatch_blocks (s : State) (x : Dispatch) : (s.putDispatch x).blocks = s.blocks := by
  unfold State.putDispatch
  split <;> rfl

theorem State.putDispatch_mem (s : State) (x : Dispatch) : (s.putDispatch x).mem = s.mem := by
  unfold State.putDispatch
  split <;> rfl

theorem State.putDispatch_ctxs (s : State) (x : Dispatch) : (s.putDispatch x).ctxs = s.ctxs := by
  unfold State.putDispatch
  split <;> rfl

/-- A dispatch that is not whole stays, as it was put. -/
theorem State.mem_putDispatch {s : State} {x : Dispatch} (h : s.hasDispatch x.id) (hx : x.next < x.total) : x ∈ (s.putDispatch x).dispatches := by
  unfold State.putDispatch
  rw [if_neg (Nat.not_le.2 hx)]
  obtain ⟨y, hy, he⟩ := h
  exact List.mem_map.2 ⟨y, hy, if_pos (beq_iff_eq.2 he)⟩

theorem State.goesOn_putDispatch {s : State} {x : Dispatch} (n k : Nat) (h : s.hasDispatch x.id) :
    goesOn (s.putDispatch { x with next := n, cursor := k }) x.id x n k := by
  refine ⟨fun hn y hy he => ?_, fun hn => ⟨_, State.mem_putDispatch (x := { x with next := n, cursor := k }) h hn, rfl, rfl, rfl⟩⟩
  unfold State.putDispatch at hy
  rw [if_pos hn] at hy
  simpa [he] using (List.mem_filter.1 hy).2

theorem Dispatch.next'_single {x : Dispatch} (hx : x.pair = false) (c : Nat) :
    x.next' c = if c + 1 < x.first + x.count then c + 1 else x.first := by
  unfold Dispatch.next'
  rw [hx]
  rfl

theorem Dispatch.next'_pair {x : Dispatch} (hx : x.pair = true) (c : Nat) :
    x.next' c = if c + 2 < x.first + x.count then c + 2 else x.first := by
  unfold Dispatch.next'
  rw [hx]
  rfl

section
variable {s : State} {x : Dispatch}

/-- The identity of a single block: its dispatch's where it is alone in it, else a fresh one. -/
theorem State.singleId_eq (s : State) (x : Dispatch) : ∃ i n, (if x.total = 1 then (x.id, s) else s.newId) = (i, { s with nextId := n }) := by
  split
  · exact ⟨_, _, rfl⟩
  · exact ⟨_, _, rfl⟩

/-- A single block placed on a core (R32, R49). -/
theorem State.placeAt_single (hx : x.pair = false) (hd : s.hasDispatch x.id) (ha : x.args.length ≤ 64) (hw : 32 * x.shape.wm ≤ 1024) (c : Nat) :
    ∃ b, (s.placeAt x c).blocks = s.blocks ++ [b] ∧ (s.placeAt x c).mem = s.mem ∧ Started b x c x.next ∧
      goesOn (s.placeAt x c) x.id x (x.next + 1) (if c + 1 < x.first + x.count then c + 1 else x.first) := by
  obtain ⟨i, n, hi⟩ := State.singleId_eq s x
  obtain ⟨b, hb, -, -, hst⟩ := State.startBlock_started { s with nextId := n } x i c x.next none ha hw
  have hpl : s.placeAt x c = ((({ s with nextId := n, blocks := s.blocks ++ [b] } : State).nodeRuns x (x.after' c)).binRuns x
      (x.after' c)).putDispatch { x with next := x.next + 1, cursor := x.next' c } := by
    unfold State.placeAt
    rw [if_neg (by simp [hx]), hi]
    exact congrArg (fun u => ((State.nodeRuns u x (x.after' c)).binRuns x (x.after' c)).putDispatch _) hb
  have hn := State.nodeRuns_marks { s with nextId := n, blocks := s.blocks ++ [b] } x (x.after' c)
  have hr := State.binRuns_marks (({ s with nextId := n, blocks := s.blocks ++ [b] } : State).nodeRuns x (x.after' c)) x (x.after' c)
  rw [hpl, State.putDispatch_blocks, State.putDispatch_mem, hr.blocks, hr.mem, hn.blocks, hn.mem, ← Dispatch.next'_single hx]
  exact ⟨b, rfl, rfl, hst, State.goesOn_putDispatch _ _ (hr.has _ (hn.has _ hd))⟩

/-- The two blocks of a pair placed on two adjacent cores, each the other's partner (R137). -/
theorem State.placeAt_pair (hx : x.pair = true) (hd : s.hasDispatch x.id) (ha : x.args.length ≤ 64) (hw : 32 * x.shape.wm ≤ 1024) (c : Nat) :
    ∃ a b, (s.placeAt x c).blocks = s.blocks ++ [a, b] ∧ (s.placeAt x c).mem = s.mem ∧ Started a x c x.next ∧
      Started b x (c + 1) (x.next + 1) ∧ a.id ≠ b.id ∧ a.partner = some (b.id, true) ∧ b.partner = some (a.id, false) ∧
      goesOn (s.placeAt x c) x.id x (x.next + 2) (if c + 2 < x.first + x.count then c + 2 else x.first) := by
  obtain ⟨a, h1, ha1, ha2, ha3⟩ := State.startBlock_started { s with nextId := s.nextId + 1 + 1 } x s.nextId c x.next
    (some (s.nextId + 1, true)) ha hw
  obtain ⟨b, h2, hb1, hb2, hb3⟩ := State.startBlock_started { s with nextId := s.nextId + 1 + 1, blocks := s.blocks ++ [a] } x (s.nextId + 1)
    (c + 1) (x.next + 1) (some (s.nextId, false)) ha hw
  have hpl : s.placeAt x c = ({ s with nextId := s.nextId + 1 + 1, blocks := s.blocks ++ [a] ++ [b] } : State).putDispatch
      { x with next := x.next + 2, cursor := x.next' c } := by
    unfold State.placeAt
    rw [if_pos hx]
    exact congrArg (State.putDispatch · _) ((congrArg (State.startBlock · x _ _ _ _) h1).trans h2)
  rw [hpl, State.putDispatch_blocks, State.putDispatch_mem, ← Dispatch.next'_pair hx]
  exact ⟨a, b, List.append_assoc .., rfl, ha3, hb3, by omega, by rw [ha2, hb1], by rw [hb2, ha1], State.goesOn_putDispatch _ _ hd⟩

/-- A dispatch that fits no core waits, whether a cluster now holds it or not (R49, R363). -/
theorem State.tryPlace_waits (hf : s.findCore x = none) (hd : s.hasDispatch x.id) (hn : x.next < x.total) :
    (s.tryPlace x).blocks = s.blocks ∧ (s.tryPlace x).ctxs = s.ctxs ∧ ∃ y ∈ (s.tryPlace x).dispatches, y.id = x.id ∧ y.next = x.next := by
  have hp : ∃ h, s.parkDispatch x = { x with held := h } := by
    unfold State.parkDispatch
    split
    · exact ⟨_, rfl⟩
    · exact ⟨_, rfl⟩
  obtain ⟨h, hp⟩ := hp
  have ht : s.tryPlace x = s.putDispatch { x with held := h } := by
    unfold State.tryPlace
    rw [hf, ← hp]
  have hm := State.mem_putDispatch (x := { x with held := h }) hd hn
  rw [ht]
  exact ⟨State.putDispatch_blocks .., State.putDispatch_ctxs .., _, hm, rfl, rfl⟩

/-- A launch that can never be placed goes, with every dispatch of its slot (R44). -/
theorem State.failDispatch_goes (hf : x.future = none) : (s.failDispatch x).blocks = s.blocks ∧
    ∀ y ∈ (s.failDispatch x).dispatches, ¬(y.tag = x.tag ∧ y.slot = x.slot) := by
  unfold State.failDispatch
  rw [hf]
  refine ⟨rfl, fun y hy ⟨ht, hs⟩ => ?_⟩
  have := (List.mem_filter.1 hy).2
  simp [ht, hs] at this

end

/-- Settles O46: the scan's search is the statement's (`State.findCore_single`, `State.findCore_pair`), and what is placed on the core that it
finds starts as R32 has it (`State.placeAt_single`, `State.placeAt_pair`). -/
theorem blocksArePlacedWhereTheyFit : Obligations.BlocksArePlacedWhereTheyFit := by
  unfold Obligations.BlocksArePlacedWhereTheyFit
  intro s d x
  have has (h : s.dispatches.find? (fun y => y.id = d) = some x) : s.hasDispatch x.id := ⟨x, List.mem_of_find?_eq_some h, rfl⟩
  refine ⟨fun c h ha hw => ?_, fun c h ha hw => ?_, fun h hm hn hf hc => ?_, fun h hm hn hnum hk hnf hfut => ?_, fun h hm hc => ?_⟩
  · obtain rfl := State.dispatch_id h.found
    have ht : s.tryPlace x = s.placeAt x c := by unfold State.tryPlace; rw [State.findCore_single h.alone h.fits h.first]
    obtain ⟨b, hb⟩ := State.placeAt_single h.alone (has h.found) ha hw c
    exact ⟨_, b, by rw [exec_blockPlacement_tries h.found h.may h.can, ht], hb⟩
  · obtain rfl := State.dispatch_id h.found
    have ht : s.tryPlace x = s.placeAt x c := by unfold State.tryPlace; rw [State.findCore_pair h.pairs h.fits h.first]
    obtain ⟨a, b, hab⟩ := State.placeAt_pair h.pairs (has h.found) ha hw c
    exact ⟨_, a, b, by rw [exec_blockPlacement_tries h.found h.may h.can, ht], hab⟩
  · obtain rfl := State.dispatch_id h
    exact ⟨_, exec_blockPlacement_tries h hm hc, State.tryPlace_waits (State.findCore_none hf) (has h) hn⟩
  · have hu : s.unplaceable x = true := by simp [State.unplaceable, hn, hnum, hk, hnf]
    exact ⟨_, by rw [exec_blockPlacement h, if_pos hu], State.failDispatch_goes hfut⟩
  · rw [exec_blockPlacement h, State.unplaceable_eq_false hc, hm]
    rfl
/-! ### Level handles (R139) -/

section
variable {s : State} {b : Block} {w : Dword} {l : Level}

theorem handleOwner_eq_iff (w : Dword) (tag : BitVec 12) : handleOwner w = tag.toNat ↔ w.extractLsb' 52 12 = tag := by
  rw [← BitVec.toNat_inj, BitVec.extractLsb'_toNat, Nat.shiftRight_eq_div_pow]
  rfl

theorem handleGen_eq_iff (w : Dword) (g : BitVec 32) : handleGen w = g.toNat ↔ g = w.extractLsb' 16 32 := by
  rw [← BitVec.toNat_inj, BitVec.extractLsb'_toNat, Nat.shiftRight_eq_div_pow]
  exact eq_comm

theorem notOwn_iff (b : Block) (w : Dword) :
    notOwn b w ↔ (w.extractLsb' 52 12 ≠ b.tag || natBits w.toNat 48 3 = 0 || 5 ≤ natBits w.toNat 48 3) = true := by
  unfold notOwn
  rw [Ne, handleOwner_eq_iff, Bool.or_eq_true, Bool.or_eq_true, decide_eq_true_iff, decide_eq_true_iff, decide_eq_true_iff, or_assoc]
  rfl

theorem State.levelArg_of_notOwn (h : notOwn b w) : s.levelArg b w = .error .lvlown := if_pos ((notOwn_iff b w).1 h)

theorem State.levelArg_of_own (h : ¬notOwn b w) : s.levelArg b w =
    match s.ctxOf b with
    | none => .error .lvlstale
    | some c =>
      match c.level? (natBits w.toNat 0 16) with
      | some l => if l.gen = w.extractLsb' 16 32 then .ok l else .error .lvlstale
      | none => .error .lvlstale := if_neg fun e => h ((notOwn_iff b w).2 e)

/-- The low 16 bits of a handle, its slot. -/
theorem natBits_slot (n : Nat) : natBits n 0 16 = n % 2 ^ 16 := by simp [natBits]

theorem State.levelArg_of_names (h : namesLevel s b w l) : s.levelArg b w = .ok l := by
  obtain ⟨ho, hk1, hk4, c, hc, hl, hg⟩ := h
  have hown : ¬notOwn b w := by
    rintro (h | h | h)
    · exact h ho
    · omega
    · omega
  rw [State.levelArg_of_own hown]
  simp only [hc, natBits_slot, hl]
  exact if_pos ((handleGen_eq_iff w l.gen).1 hg)

theorem State.levelArg_of_stale (h : staleHandle s b w) : s.levelArg b w = .error .lvlstale := by
  obtain ⟨hown, hst⟩ := h
  rw [State.levelArg_of_own hown]
  split
  · rfl
  · next c hc =>
    split
    · next l hl =>
      rw [natBits_slot] at hl
      exact if_neg fun e => hst c l hc hl ((handleGen_eq_iff w l.gen).2 e)
    · rfl

theorem State.levelSelf_of_isSelf (h : isSelf s b l) : s.levelSelf b l = true := by
  obtain ⟨c, hc, h⟩ := h
  unfold State.levelSelf State.phaseOf
  simp only [hc]
  rcases h with h | ⟨hk, x, hx, hlt⟩
  · simp [h]
  · simp [hk, hx, hlt]

theorem State.levelSelf_of_notSelf (h : notSelf s b l) : s.levelSelf b l = false := by
  unfold State.levelSelf State.phaseOf
  cases hc : s.ctxOf b with
  | none => rfl
  | some c =>
    obtain ⟨hb, hp, h0⟩ := h c hc
    by_cases hk : l.kind = 3
    · cases hx : c.level? b.slot with
      | none => simp [hb, hx, h0 hx hk]
      | some x => simp [hb, hx, hp hk x hx]
    · simp [hb, hk]

end

/-! ### LVLWAIT (R139) -/

/-- What LVLWAIT finds of the level that it names: its status word, once it is complete. -/
theorem Ctx.statusAt_of_level {c : Ctx} {k : Nat} {l : Level} (hl : c.level? k = some l) :
    c.statusAt l.slot (BitVec.ofNat 32 l.gen.toNat) = if l.complete then some l.status else none := by
  have hk : l.slot = k := by simpa using List.find?_some hl
  unfold Ctx.statusAt
  rw [hk, hl, BitVec.ofNat_toNat, BitVec.setWidth_eq]
  exact if_pos rfl

/-- The team of LVLWAIT as it waits with SCORE for level `l`. -/
def Team.waitLevel (u : Team) (l : Level) (d : BitVec 6) (id : Nat) : Team :=
  Team.addPend { u with wait := some (.level l.slot l.gen.toNat d.toNat id) } id [.w d.toNat] none false

/-- The state in which LVLWAIT has issued, before it looks at the level. -/
def State.waitLevel (s : State) (h : Hd) (b : Block) (l : Level) (d : BitVec 6) : State :=
  ({ s.countPoint b with nextId := s.nextId + 1 } : State).issue h true fun u => u.waitLevel l d s.nextId

section
variable {s : State} {b : Block} {t : Team} {d a : BitVec 6} (hf : s.Free [.w a.toNat] [.w d.toNat] true b t)
include hf

theorem exec_lvlwaitPoll (h : Hd) : exec (.lvlwaitPoll h d a) s = s.withChk (s.levelArg b (t.rw a)) fun l =>
    if s.levelSelf b l then .next (s.trap .lvlself)
    else .next (s.scoreNow h d (if l.complete then l.status else 0xFFFFFFFFFFFFFFFF#64) true) := by
  have hexec : exec (.lvlwaitPoll h d a) s = execLvlwaitPoll h d a s := rfl
  rw [hexec, execLvlwaitPoll, State.chk_free hf]

theorem exec_lvlwait (h : Hd) (hd : b.dying = false) : exec (.lvlwait h d a) s = s.withChk (s.levelArg b (t.rw a)) fun l =>
    if s.levelSelf b l then .next (s.trap .lvlself) else .next ((s.waitLevel h b l d).wakeLevel s.cur.r) := by
  have hexec : exec (.lvlwait h d a) s = execLvlwait h d a s := rfl
  rw [hexec, execLvlwait, State.chk_free hf, State.atPoint, hd]
  rfl

theorem lvlwaitPoll_gives (h : Hd) {l : Level} (hl : namesLevel s b (t.rw a) l) (hs : notSelf s b l) :
    issuesWith (.lvlwaitPoll h d a) s fun _ u => givesW t u d (if l.complete then l.status else 0xFFFFFFFFFFFFFFFF#64) := by
  refine ⟨_, _, _, ?_, rfl, State.team?_issue (s := { s with nextId := s.nextId + 1 }) h true
    (fun u => u.addPend s.nextId [.w d.toNat] (some [.w d.toNat (if l.complete then l.status else 0xFFFFFFFFFFFFFFFF#64)]) false)
    (fun _ => rfl) hf.team, s.nextId, rfl⟩
  rw [exec_lvlwaitPoll hf, State.levelArg_of_names hl]
  simp only [State.withChk, State.levelSelf_of_notSelf hs]
  rfl

theorem State.team?_waitLevel (h : Hd) (l : Level) : ∃ c, (s.waitLevel h b l d).team? s.cur.r =
    some (c, (t.waitLevel l d s.nextId).retire h true s.cur.next) ∧ c.bureau = b.bureau ∧ c.tag = b.tag :=
  ⟨_, State.team?_issue (s := { s.countPoint b with nextId := s.nextId + 1 }) h true (fun u => u.waitLevel l d s.nextId) (fun _ => rfl)
    (State.team?_countPoint hf.team), rfl, rfl⟩

/-- Where the level is not complete, the team waits on. -/
theorem lvlwait_waits (h : Hd) (hd : b.dying = false) {l : Level} (hl : namesLevel s b (t.rw a) l) (hs : notSelf s b l)
    (hn : l.complete = false) : issuesWith (.lvlwait h d a) s fun _ u => u.run.ended = true ∧
      (∃ id, u.wait = some (.level l.slot l.gen.toNat d.toNat id)) ∧ ∃ p ∈ u.pend, p.regs = [.w d.toNat] ∧ p.ready = none := by
  obtain ⟨c, ht, hb, hg⟩ := State.team?_waitLevel hf h l
  obtain ⟨-, -, -, x, hx, hlev, -⟩ := id hl
  have hx' : (s.waitLevel h b l d).ctxOf c = some x := by
    unfold State.ctxOf at hx ⊢
    rw [hb, hg]
    exact hx
  have hw : (s.waitLevel h b l d).wakeLevel s.cur.r = s.waitLevel h b l d := by
    unfold State.wakeLevel
    rw [ht]
    dsimp only [Team.waitLevel, Team.addPend, Team.retire]
    rw [hx']
    dsimp only
    rw [Ctx.statusAt_of_level hlev, hn]
    rfl
  refine ⟨s.waitLevel h b l d, c, _, ?_, rfl, ht, Run.word_ended _ _, ⟨_, rfl⟩, _, List.mem_append_right _ (List.mem_singleton_self _), rfl, rfl⟩
  rw [exec_lvlwait hf h hd, State.levelArg_of_names hl]
  simp only [State.withChk, State.levelSelf_of_notSelf hs, hw]
  rfl

/-- Where it is complete, its status word arrives at once. -/
theorem lvlwait_arrives (h : Hd) (hd : b.dying = false) {l : Level} (hl : namesLevel s b (t.rw a) l) (hs : notSelf s b l)
    (hn : l.complete = true) : issuesWith (.lvlwait h d a) s fun _ u => u.run.ended = true ∧ u.wait = none ∧
      u.w = t.w.set d.toNat l.status ∧ (∀ p ∈ u.pend, p ∈ t.pend) ∧ ∀ p ∈ t.pend, p.id < s.nextId → p ∈ u.pend := by
  obtain ⟨c, ht, hb, hg⟩ := State.team?_waitLevel hf h l
  obtain ⟨-, -, -, x, hx, hlev, -⟩ := id hl
  have hx' : (s.waitLevel h b l d).ctxOf c = some x := by
    unfold State.ctxOf at hx ⊢
    rw [hb, hg]
    exact hx
  have hw : (s.waitLevel h b l d).wakeLevel s.cur.r =
      (s.waitLevel h b l d).updTeam s.cur.r fun u => u.deliver s.nextId [.w d.toNat l.status] := by
    unfold State.wakeLevel
    rw [ht]
    dsimp only [Team.waitLevel, Team.addPend, Team.retire]
    rw [hx']
    dsimp only
    rw [Ctx.statusAt_of_level hlev, hn]
    rfl
  refine ⟨_, _, _, ?_, ?_, State.team?_updTeam (fun u => u.deliver s.nextId [.w d.toNat l.status]) (fun _ => rfl) ht,
    Run.word_ended _ _, rfl, rfl, fun p hp => ?_, fun p hp hid => ?_⟩
  · rw [exec_lvlwait hf h hd, State.levelArg_of_names hl]
    simp only [State.withChk, State.levelSelf_of_notSelf hs, hw]
    rfl
  · rfl
  · obtain ⟨hp, hid⟩ := List.mem_filter.1 hp
    rcases List.mem_append.1 hp with hp | hp
    · exact hp
    · obtain rfl := List.mem_singleton.1 hp
      simp at hid
  · exact List.mem_filter.2 ⟨List.mem_append_left _ hp, by simp; omega⟩

/-- Both words trap with the cause that the handle raises. -/
theorem lvlwait_traps (h : Hd) {c : Cause} (hc : s.levelArg b (t.rw a) = .error c ∨
      ∃ l, s.levelArg b (t.rw a) = .ok l ∧ s.levelSelf b l = true ∧ c = .lvlself) :
    exec (.lvlwaitPoll h d a) s = .next (s.trap c) ∧ (b.dying = false → exec (.lvlwait h d a) s = .next (s.trap c)) := by
  refine ⟨?_, fun hd => ?_⟩
  · rw [exec_lvlwaitPoll hf]
    rcases hc with hc | ⟨l, hl, hs, rfl⟩
    · rw [hc]; rfl
    · rw [hl]; exact if_pos hs
  · rw [exec_lvlwait hf h hd]
    rcases hc with hc | ⟨l, hl, hs, rfl⟩
    · rw [hc]; rfl
    · rw [hl]; exact if_pos hs
end

/-! ### LVLCANCEL (R46, R140) -/

/-- Block `y` is block `x` with nothing changed of what a cancel looks at, but that it may have begun to die. -/
structure Block.Fades (x y : Block) : Prop where
  id : y.id = x.id
  tag : y.tag = x.tag
  slot : y.slot = x.slot
  bureau : y.bureau = x.bureau
  idxs : y.teams.map Team.idx = x.teams.map Team.idx
  dying : x.dying = true → y.dying = true

theorem Block.Fades.refl (x : Block) : x.Fades x := ⟨rfl, rfl, rfl, rfl, rfl, fun h => h⟩

theorem Block.Fades.trans {x y z : Block} (h : x.Fades y) (k : y.Fades z) : x.Fades z :=
  ⟨k.id.trans h.id, k.tag.trans h.tag, k.slot.trans h.slot, k.bureau.trans h.bureau, k.idxs.trans h.idxs, fun e => k.dying (h.dying e)⟩

/-- Work is only withdrawn from one state to the next: dispatches go, blocks begin to die, and nothing of the tree launches changes. -/
structure State.Withdraws (s v : State) : Prop where
  cur : v.cur = s.cur
  trees : v.trees = s.trees
  dispatches : ∀ d ∈ v.dispatches, d ∈ s.dispatches
  blocks : ∃ f : Block → Block, v.blocks = s.blocks.map f ∧ ∀ x : Block, x.Fades (f x)

section
variable {s₀ s v : State}

theorem State.Withdraws.refl (s : State) : s.Withdraws s := ⟨rfl, rfl, fun _ h => h, fun x => x, (List.map_id' _).symm, .refl⟩

theorem State.Withdraws.trans (h : s₀.Withdraws s) (k : s.Withdraws v) : s₀.Withdraws v := by
  obtain ⟨f, hf, hF⟩ := h.blocks
  obtain ⟨g, hg, hG⟩ := k.blocks
  exact ⟨k.cur.trans h.cur, k.trees.trans h.trees, fun d hd => h.dispatches d (k.dispatches d hd), g ∘ f, by rw [hg, hf, List.map_map],
    fun x => (hF x).trans (hG (f x))⟩

/-- An update that leaves the blocks, the dispatches, the trees and the step's own place alone. -/
theorem State.Withdraws.same (hs : s₀.Withdraws s) (hc : v.cur = s.cur := by rfl) (ht : v.trees = s.trees := by rfl)
    (hd : v.dispatches = s.dispatches := by rfl) (hb : v.blocks = s.blocks := by rfl) : s₀.Withdraws v := by
  obtain ⟨f, hf, hF⟩ := hs.blocks
  exact ⟨hc.trans hs.cur, ht.trans hs.trees, fun d h => hs.dispatches d (hd ▸ h), f, hb.trans hf, hF⟩

theorem State.Withdraws.mapBlocks (hs : s₀.Withdraws s) {f : Block → Block} (hf : ∀ x : Block, x.Fades (f x)) :
    s₀.Withdraws { s with blocks := s.blocks.map f } :=
  hs.trans ⟨rfl, rfl, fun _ h => h, f, rfl, hf⟩

theorem State.Withdraws.updBlock (hs : s₀.Withdraws s) {i : Nat} {f : Block → Block} (hf : ∀ x : Block, x.Fades (f x)) :
    s₀.Withdraws (s.updBlock i f) := by
  refine hs.mapBlocks fun x => ?_
  split
  · exact hf x
  · exact .refl x

theorem State.Withdraws.filterDispatches (hs : s₀.Withdraws s) {p : Dispatch → Bool} :
    s₀.Withdraws { s with dispatches := s.dispatches.filter p } :=
  hs.trans ⟨rfl, rfl, fun _ h => List.mem_of_mem_filter h, fun x => x, (List.map_id' _).symm, .refl⟩

theorem State.Withdraws.ite {c : Prop} [Decidable c] {a b : State} (ha : s₀.Withdraws a) (hb : s₀.Withdraws b) :
    s₀.Withdraws (if c then a else b) := by
  split
  · exact ha
  · exact hb

theorem State.Withdraws.ite_snd {α : Type} {c : Prop} [Decidable c] {a b : α × State} (ha : s₀.Withdraws a.2) (hb : s₀.Withdraws b.2) :
    s₀.Withdraws (if c then a else b).2 := by
  split
  · exact ha
  · exact hb

theorem State.Withdraws.foldl {α : Type} {f : State → α → State} {l : List α} (hs : s₀.Withdraws s)
    (hf : ∀ s x, s₀.Withdraws s → s₀.Withdraws (f s x)) : s₀.Withdraws (l.foldl f s) := by
  induction l generalizing s with
  | nil => exact hs
  | cons x l ih => exact ih (hf s x hs)

theorem State.Withdraws.pmWr (hs : s₀.Withdraws s) {pa bs} : s₀.Withdraws (s.pmWr pa bs) := .ite hs.same hs.same

theorem State.Withdraws.l2Room (hs : s₀.Withdraws s) {line} : s₀.Withdraws (s.l2Room line) := by
  unfold State.l2Room
  refine .ite hs (.ite hs ?_)
  dsimp only [State.choice]
  split
  · exact hs.same
  · exact hs.same

theorem State.Withdraws.l2Access (hs : s₀.Withdraws s) {tag line write} : s₀.Withdraws (s.l2Access tag line write) :=
  .ite hs hs.l2Room.same

theorem State.Withdraws.unspin (hs : s₀.Withdraws s) {p} : s₀.Withdraws (s.unspin p) := by
  refine hs.mapBlocks fun x => ?_
  split
  · exact .refl x
  · refine ⟨rfl, rfl, rfl, rfl, ?_, fun h => h⟩
    unfold Block.unspin
    rw [List.map_map]
    refine List.map_congr_left fun t _ => ?_
    dsimp only [Function.comp_apply]
    split <;> rfl

theorem State.Withdraws.memWr (hs : s₀.Withdraws s) {tag pa bs} : s₀.Withdraws (s.memWr tag pa bs) := by
  unfold State.memWr
  have h0 : ∀ c line, s₀.Withdraws (if c = true then { s with poison := s.poison.filter fun x => x != line } else s.fill tag line) :=
    fun _ _ => .ite hs.same (.ite hs.same hs)
  exact (h0 _ _).l2Access.pmWr.unspin

theorem State.Withdraws.unitWr (hs : s₀.Withdraws s) {tag pa bs} : s₀.Withdraws (s.unitWr tag pa bs) := .ite hs.same hs.memWr

theorem State.Withdraws.futWrite (hs : s₀.Withdraws s) {f} : s₀.Withdraws (s.futWrite f) := by
  have h1 : s₀.Withdraws (if f.pcount < 2 ^ 16 then (f.pcount, s) else (s.fresh.1.toNat % 2 ^ 16, s.fresh.2)).2 :=
    .ite_snd hs hs.same
  exact h1.unitWr

theorem State.Withdraws.updDie (hs : s₀.Withdraws s) {e f} : s₀.Withdraws (s.updDie e f) := hs.same

theorem State.Withdraws.updCtx (hs : s₀.Withdraws s) {tag f} : s₀.Withdraws (s.updCtx tag f) := hs.same

theorem State.Withdraws.updFuture (hs : s₀.Withdraws s) {die fut f} : s₀.Withdraws (s.updFuture die fut f) := hs.updDie

theorem State.Withdraws.futForget (hs : s₀.Withdraws s) {die} : s₀.Withdraws (s.futForget die) := hs.updDie

theorem State.Withdraws.futFree (hs : s₀.Withdraws s) {die fut} : s₀.Withdraws (s.futFree die fut) := hs.updDie

theorem State.Withdraws.futEnd (hs : s₀.Withdraws s) {f st value pcount} : s₀.Withdraws (s.futEnd f st value pcount) := by
  unfold State.futEnd
  split
  · exact hs
  · split
    · exact hs
    · exact .ite hs.updFuture.futWrite.futForget hs

theorem State.Withdraws.futLower (hs : s₀.Withdraws s) {die fut} : s₀.Withdraws (s.futLower die fut).2 := by
  unfold State.futLower
  split
  · exact hs
  · refine .ite_snd hs ?_
    have h1 : ∀ x f g, s₀.Withdraws ((s.updFuture die x f).futWrite g) := fun _ _ _ => hs.updFuture.futWrite
    exact .ite_snd (h1 _ _ _).futFree.futForget (h1 _ _ _)

theorem State.Withdraws.dropDispatch (hs : s₀.Withdraws s) {d} : s₀.Withdraws (s.dropDispatch d) :=
  hs.filterDispatches.updCtx.futEnd

theorem State.Withdraws.reclaimTask (hs : s₀.Withdraws s) {die fut} : s₀.Withdraws (s.reclaimTask die fut).2 := by
  unfold State.reclaimTask
  split
  · exact hs.updCtx.dropDispatch
  · split
    · exact hs.updCtx.updBlock fun x => ⟨rfl, rfl, rfl, rfl, rfl, fun _ => by simp [Block.dying]⟩
    · exact hs

theorem State.Withdraws.of_eq {α : Type} {x : α × State} {a : α} (hs : s₀.Withdraws x.2) (e : x = (a, v)) : s₀.Withdraws v := by
  rw [e] at hs
  exact hs

theorem State.Withdraws.futDrops (hs : s₀.Withdraws s) {fuel : Nat} {l : List (Nat × Nat)} : s₀.Withdraws (State.futDrops fuel s l) := by
  induction fuel generalizing s l with
  | zero => cases l <;> exact hs
  | succ fuel ih =>
    cases l with
    | nil => exact hs
    | cons p rest =>
      unfold State.futDrops
      split
      · next e => exact ih (hs.futLower.of_eq e)
      · next e => exact ih (hs.futLower.of_eq e).reclaimTask

theorem State.Withdraws.closeBins (hs : s₀.Withdraws s) {tag p} : s₀.Withdraws (s.closeBins tag p) :=
  hs.foldl fun _ _ h => h.updDie.foldl fun _ _ k => k.updCtx

/-- Dispatches dropped one after another are gone. -/
theorem State.dropDispatches_gone (l : List Dispatch) (s : State) :
    ∀ d ∈ (l.foldl (fun s d => s.dropDispatch d) s).dispatches, ∀ x ∈ l, d.id ≠ x.id := by
  induction l generalizing s with
  | nil => exact fun _ _ _ h => absurd h List.not_mem_nil
  | cons y l ih =>
    intro d hd x hx
    rcases List.mem_cons.1 hx with rfl | hx
    · have hw : (s.dropDispatch x).Withdraws (l.foldl (fun s d => s.dropDispatch d) (s.dropDispatch x)) :=
        State.Withdraws.foldl (.refl _) fun _ _ h => h.dropDispatch
      have hu : State.Withdraws { s with dispatches := s.dispatches.filter fun y => y.id != x.id } (s.dropDispatch x) :=
        (State.Withdraws.refl _).updCtx.futEnd
      simpa using (List.mem_filter.1 (hu.dispatches d (hw.dispatches d hd))).2
    · exact ih _ d hd x hx
end

theorem State.block?_of_map {s v : State} {f : Block → Block} (hv : v.blocks = s.blocks.map f) (hid : ∀ x, (f x).id = x.id) (i : Nat) :
    v.block? i = (s.block? i).map f := by
  unfold State.block?
  rw [hv, List.find?_map]
  exact congrArg (fun p => (List.find? p s.blocks).map f) (funext fun x => by simp [hid x])

/-- A team where every block is changed: what a function of the teams, which tells their numbers, gives for those of a block is what it gave. -/
theorem State.team?_of_map {s v : State} {f : Block → Block} {α : Type} {g : Team → α} {k : α → Nat} (hv : v.blocks = s.blocks.map f)
    (hid : ∀ x, (f x).id = x.id) (hk : ∀ t, k (g t) = t.idx) (hg : ∀ x, (f x).teams.map g = x.teams.map g) {r : TRef} {b : Block} {t : Team}
    (ht : s.team? r = some (b, t)) : ∃ u, v.team? r = some (f b, u) ∧ g u = g t := by
  obtain ⟨hb, hu⟩ := State.team?_eq_some.1 ht
  have hfind (x : Block) : (x.team? r.t).map g = (x.teams.map g).find? fun y => k y == r.t := by
    rw [List.find?_map]
    exact congrArg (fun p => (List.find? p x.teams).map g) (funext fun y => by simp [hk y])
  have hsame : ((f b).team? r.t).map g = some (g t) := by rw [hfind, hg, ← hfind, hu]; rfl
  obtain ⟨u, hfu, hgu⟩ := Option.map_eq_some_iff.1 hsame
  exact ⟨u, State.team?_eq_some.2 ⟨by rw [State.block?_of_map hv hid, hb]; rfl, hfu⟩, hgu⟩

/-- The team that cancels is still there. -/
theorem State.team?_of_fades {s v : State} {f : Block → Block} (hf : v.blocks = s.blocks.map f) (hF : ∀ x : Block, x.Fades (f x)) {r : TRef}
    {b : Block} {t : Team} (ht : s.team? r = some (b, t)) : ∃ c u, v.team? r = some (c, u) := by
  obtain ⟨u, hu, -⟩ := State.team?_of_map (g := Team.idx) (k := fun n => n) hf (fun x => (hF x).id) (fun _ => rfl) (fun x => (hF x).idxs) ht
  exact ⟨_, u, hu⟩

/-- A cancel's marks (R46): the instances, blocks and tree launches that it reaches, and no node of one of these left to dispatch. -/
def State.markCancel (s : State) (tag : BitVec 12) (hit : Nat → Bool) : State :=
  { s.updCtx tag fun c =>
      { c with levels := c.levels.map fun l => if !l.complete && hit l.slot then { l with cancelled := true } else l } with
    trees := s.trees.map fun (t : Tree) => if t.tag == tag && hit t.slot then t.cancel else t
    dispatches := s.dispatches.filter fun (d : Dispatch) => !(d.tag == tag && hit d.slot && d.tree.isSome)
    blocks := s.blocks.map fun (b : Block) =>
      if b.tag == tag && b.bureau.isNone && hit b.slot then { b with cancelled := true, holds := [] } else b }

section
variable {s : State} {tag : BitVec 12} {slot : Nat} {c : Ctx} {l : Level} (hc : s.ctx? tag = some c) (hl : c.level? slot = some l)
include hc hl

theorem State.cancelLevel_of_complete (h : l.complete = true) : s.cancelLevel tag slot = s := by
  unfold State.cancelLevel
  simp only [hc, hl]
  exact if_pos h

theorem State.cancelLevel_of_open (h : l.complete = false) : s.cancelLevel tag slot =
    State.futDropAll ((s.dispatches.filter fun d => d.tag == tag && c.below slot d.slot && d.tree.isNone).foldl
      (fun s d => s.dropDispatch d) ((s.markCancel tag (c.below slot)).closeBins tag (c.below slot)))
      ((s.blocks.filter fun b => b.tag == tag && b.bureau.isNone && c.below slot b.slot).flatMap fun b => b.holds) := by
  unfold State.cancelLevel
  simp only [hc, hl]
  rw [h]
  rfl

theorem State.cancelLevel_withdraws (h : l.complete = false) : (s.markCancel tag (c.below slot)).Withdraws (s.cancelLevel tag slot) := by
  rw [State.cancelLevel_of_open hc hl h]
  exact ((State.Withdraws.refl _).closeBins.foldl fun _ _ h => h.dropDispatch).futDrops

/-- Of what a cancel reaches, nothing is left to start. -/
theorem State.cancelLevel_dispatches (h : l.complete = false) :
    ∀ d ∈ (s.cancelLevel tag slot).dispatches, d.tag = tag → c.below slot d.slot = false := by
  intro d hd ht
  rw [Bool.eq_false_iff]
  intro hb
  obtain ⟨hmem, hkeep⟩ := List.mem_filter.1 ((State.cancelLevel_withdraws hc hl h).dispatches d hd)
  have htree : d.tree.isNone = true := by simpa [ht, hb] using hkeep
  rw [State.cancelLevel_of_open hc hl h] at hd
  have hgone := State.dropDispatches_gone _ _ d ((State.Withdraws.refl _).futDrops.dispatches d hd)
  exact hgone d (List.mem_filter.2 ⟨hmem, by simp [ht, hb, htree]⟩) rfl

/-- The blocks that a cancel reaches are dying. -/
theorem State.cancelLevel_blocks (h : l.complete = false) : ∀ x ∈ (s.cancelLevel tag slot).blocks, x.tag = tag → x.bureau = none →
    c.below slot x.slot = true → x.dying = true := by
  obtain ⟨f, hf, hF⟩ := (State.cancelLevel_withdraws hc hl h).blocks
  rw [hf]
  refine List.forall_mem_map.2 fun y hy ht hu hb => (hF y).dying ?_
  rw [(hF y).tag] at ht
  rw [(hF y).bureau] at hu
  rw [(hF y).slot] at hb
  obtain ⟨z, -, rfl⟩ := List.mem_map.1 hy
  split
  · simp [Block.dying]
  · next hn =>
    rw [if_neg hn] at ht hu hb
    exact absurd (by simp [ht, hu, hb]) hn

/-- The tree launches that a cancel reaches are cancelled. -/
theorem State.cancelLevel_trees (h : l.complete = false) : ∀ x ∈ (s.cancelLevel tag slot).trees, x.tag = tag →
    c.below slot x.slot = true → x.cancelled = true := by
  rw [(State.cancelLevel_withdraws hc hl h).trees]
  refine List.forall_mem_map.2 fun z _ => ?_
  split
  · exact fun _ _ => rfl
  · next hn => exact fun ht hb => absurd (by simp [ht, hb]) hn

end

section
variable {s : State} {b : Block} {t : Team} {a : BitVec 6} (hf : s.Free [.w a.toNat] [] false b t)
include hf

theorem exec_lvlcancel (h : Hd) : exec (.lvlcancel h a) s = s.withChk (s.levelArg b (t.rw a)) fun l =>
    .next ((s.cancelLevel b.tag l.slot).issue h false id) := by
  have hexec : exec (.lvlcancel h a) s = execLvlcancel h a s := rfl
  rw [hexec, execLvlcancel, State.chk_free hf]

theorem lvlcancel_cancels (h : Hd) {l : Level} {c : Ctx} (hl : namesLevel s b (t.rw a) l) (hc : s.ctxOf b = some c) :
    (l.complete = true → exec (.lvlcancel h a) s = .next (s.issue h false id)) ∧
    (l.complete = false → issuesWith (.lvlcancel h a) s fun v _ =>
      (∀ d ∈ v.dispatches, d.tag = b.tag → c.below l.slot d.slot = false) ∧
      (∀ x ∈ v.blocks, x.tag = b.tag → x.bureau = none → c.below l.slot x.slot = true → x.dying = true) ∧
      (∀ x ∈ v.trees, x.tag = b.tag → c.below l.slot x.slot = true → x.cancelled = true)) := by
  obtain ⟨-, -, -, c', hc', hlev, -⟩ := id hl
  obtain rfl : c' = c := Option.some_inj.1 (hc'.symm.trans hc)
  have hctx : s.ctx? b.tag = some c' := by
    unfold State.ctxOf at hc
    split at hc
    · cases hc
    · exact hc
  have hslot : c'.level? l.slot = some l := by
    have : l.slot = (t.rw a).toNat % 2 ^ 16 := by simpa using List.find?_some hlev
    rw [this]
    exact hlev
  have hex : exec (.lvlcancel h a) s = .next ((s.cancelLevel b.tag l.slot).issue h false id) := by
    rw [exec_lvlcancel hf, State.levelArg_of_names hl]
    rfl
  refine ⟨fun h1 => ?_, fun h0 => ?_⟩
  · rw [hex, State.cancelLevel_of_complete hctx hslot h1]
  · have hw := State.cancelLevel_withdraws hctx hslot h0
    obtain ⟨f, hb, hF⟩ := hw.blocks
    obtain ⟨y, w, hy⟩ := State.team?_of_fades (s := s) (v := s.markCancel b.tag (c'.below l.slot)) rfl (fun x => by
      split
      · exact ⟨rfl, rfl, rfl, rfl, rfl, fun _ => by simp [Block.dying]⟩
      · exact .refl x) hf.team
    obtain ⟨x, u, hu⟩ := State.team?_of_fades hb hF hy
    have hcur : (s.cancelLevel b.tag l.slot).cur.r = s.cur.r := by rw [hw.cur]; rfl
    have hteam := State.team?_issue h false id (fun _ => rfl) (hcur ▸ hu)
    refine ⟨_, _, _, hex, rfl, hcur ▸ hteam, State.cancelLevel_dispatches hctx hslot h0, ?_, State.cancelLevel_trees hctx hslot h0⟩
    exact (forall_mem_updWhere_of_iff fun x => by rfl).2 (State.cancelLevel_blocks hctx hslot h0)

end

/-- Settles O16: what a handle names is what the statement says (`State.levelArg_of_names`, `State.levelSelf_of_notSelf`), LVLWAIT waits or is
given the status word, and a cancel withdraws all that lies below its level (`State.Withdraws`). -/
theorem levelWordsWaitAndCancel : Obligations.LevelWordsWaitAndCancel := by
  unfold Obligations.LevelWordsWaitAndCancel
  refine ⟨fun h d a s b t hf => ⟨fun l hl hs => ⟨lvlwaitPoll_gives hf h hl hs, fun hd => ?_⟩, ?_⟩, fun h a s b t hf => ⟨fun ho => ?_, fun hs => ?_⟩,
    fun h a s b t l c hf hl hc => lvlcancel_cancels hf h hl hc⟩
  · cases hn : l.complete with
    | false =>
      obtain ⟨v, x, u, he, hi, hu, hr, hw⟩ := lvlwait_waits hf h hd hl hs hn
      exact ⟨v, x, u, he, hi, hu, hr, fun k => (Bool.false_ne_true k).elim, fun _ => hw⟩
    | true =>
      obtain ⟨v, x, u, he, hi, hu, hr, hw⟩ := lvlwait_arrives hf h hd hl hs hn
      exact ⟨v, x, u, he, hi, hu, hr, fun _ => hw, fun k => (Bool.false_ne_true k.symm).elim⟩
  · exact ⟨fun ho => lvlwait_traps hf h (.inl (State.levelArg_of_notOwn ho)), fun hs => lvlwait_traps hf h (.inl (State.levelArg_of_stale hs)),
      fun l hl hs => lvlwait_traps hf h (.inr ⟨l, State.levelArg_of_names hl, State.levelSelf_of_isSelf hs, rfl⟩)⟩
  · rw [exec_lvlcancel hf, State.levelArg_of_notOwn ho]
    rfl
  · rw [exec_lvlcancel hf, State.levelArg_of_stale hs]
    rfl
/-! ### The words of the sequencer (R391, R395) -/

/-- With no word in the sequencer, to be served first is to change nothing. -/
theorem State.moved_of_idle {s : State} (hm : s.movers = []) (hv : s.moving = none) : State.moved { s with movers := [s.cur.r] } = s := by
  obtain ⟨⟩ := s
  simp only at hm hv
  subst hm hv
  rfl

theorem State.pmRd_movers (s : State) (l : List TRef) (pa n : Nat) : State.pmRd { s with movers := l } pa n = s.pmRd pa n := by
  refine congrArg bytesNat ?_
  induction n generalizing pa with
  | zero => rfl
  | succ n ih => exact congrArg (_ :: ·) (ih (pa + 1))

section
variable {s : State} {b : Block} {t : Team} {d a : BitVec 6} {n : Nat}

section
variable (hf : s.Free [.w a.toNat] [.w d.toNat] false b t)
include hf

theorem State.moveWord_priv (hb : b.bureau = none) (f : Nat → State → Out) : s.moveWord d a n f = .next (s.trap .priv) := by
  rw [State.moveWord, State.chk_free hf, hb]

/-- The first word of an idle sequencer: its map is looked at, and where it may lie so, the word goes on. -/
theorem State.moveWord_first {e : Nat} (hb : b.bureau = some e) (hm : s.movers = []) (ho : t.ops = []) (f : Nat → State → Out) :
    let va := (t.rw a).toNat % 2 ^ 48
    s.moveWord d a n f = if (va % n ≠ 0 || va < sramBase e || sramBase e + 0x40000 ≤ va) = true then
        .next (State.trap (State.moved { s with movers := [s.cur.r] }) .sysarg)
      else f (s.pmRd (s.localPa va) n) { s with movers := [s.cur.r] } := by
  rw [State.moveWord, State.chk_free hf, hb]
  simp only [hm, ho, List.contains_nil, Bool.false_eq_true, if_false, List.nil_append, List.head?_cons, bne_self_eq_false, List.any_nil,
    Bool.or_self, State.pmRd_movers]
  rfl

/-- A map that is not aligned to its size (R395). -/
theorem State.moveWord_unaligned (hb : b.bureau.isSome = true) (hm : s.movers = []) (hv : s.moving = none) (ho : t.ops = []) (hn : n ∣ 2 ^ 48)
    (h : (t.rw a).toNat % n ≠ 0) (f : Nat → State → Out) : s.moveWord d a n f = .next (s.trap .sysarg) := by
  obtain ⟨e, hb⟩ := Option.isSome_iff_exists.1 hb
  rw [State.moveWord_first hf hb hm ho, State.moved_of_idle hm hv]
  refine if_pos ?_
  rw [Nat.mod_mod_of_dvd _ hn]
  simp [h]

/-- Another word is in the sequencer: the word waits for its turn (R395). -/
theorem State.moveWord_waits (hb : b.bureau.isSome = true) {r : TRef} {l : List TRef} (hm : s.movers = r :: l) (hr : r ≠ s.cur.r)
    (f : Nat → State → Out) : ∃ v u c, s.moveWord d a n f = .next v ∧ v.cur.res = .parked ∧ v.team? s.cur.r = some (c, u) ∧
      u.reason = .pipe ∧ s.cur.r ∈ v.movers := by
  obtain ⟨e, hb⟩ := Option.isSome_iff_exists.1 hb
  obtain ⟨k, hk, hmem⟩ : ∃ k, (if s.movers.contains s.cur.r then s else { s with movers := s.movers ++ [s.cur.r] }) =
      { s with movers := r :: k } ∧ s.cur.r ∈ r :: k := by
    rw [hm]
    split
    · next h => exact ⟨l, by rw [← hm], List.contains_iff_mem.1 h⟩
    · exact ⟨l ++ [s.cur.r], rfl, by simp⟩
  refine ⟨State.movePark { s with movers := r :: k }, { t with reason := .pipe, parked := true }, _, ?_, rfl,
    State.team?_updTeam (s := { s with movers := r :: k }) (fun u => { u with reason := .pipe, parked := true }) (fun _ => rfl) hf.team, rfl, hmem⟩
  rw [State.moveWord, State.chk_free hf, hb]
  simp only [hk]
  exact if_pos (by simp [hr])

end

/-- A word that is served at once goes on with its map. -/
theorem State.moveWord_served {v : Nat} (h : Served s b t d a n v) (f : Nat → State → Out) :
    s.moveWord d a n f = f v { s with movers := [s.cur.r] } := by
  obtain ⟨hf, ⟨hm, -⟩, ho, ⟨e, hb, hal, hlo, hhi⟩, hmap⟩ := h
  rw [State.moveWord_first hf hb hm ho, hmap]
  refine if_neg ?_
  simp only [hal, ne_eq, not_true_eq_false, decide_false, Bool.false_or, Bool.or_eq_true, decide_eq_true_eq]
  omega

/-- The Bureau's own block is none that is moved. -/
theorem served_other {v : Nat} {x : Block} (hS : Served s b t d a n v) (hx : s.block? x.id = some x) (hb : x.bureau = none) : x.id ≠ s.cur.r.b := by
  intro he
  obtain ⟨e, hbe, -⟩ := hS.own
  have hcur := State.block?_of_team? hS.free.team
  rw [← he, hx] at hcur
  obtain rfl := Option.some_inj.1 hcur
  rw [hb] at hbe
  cases hbe

end
/-! ### Blocks that move (R57, R58, R396, R397) -/

/-- Block `y` is block `x` in another place: what the sequencer moves keeps its identity, its core and what its teams have yet to write. -/
structure Block.Moves (x y : Block) : Prop where
  id : y.id = x.id
  core : y.core = x.core
  bureau : y.bureau = x.bureau
  teams : y.teams.map (fun t => (t.idx, t.run.writes)) = x.teams.map fun t => (t.idx, t.run.writes)

theorem Block.Moves.refl (x : Block) : x.Moves x := ⟨rfl, rfl, rfl, rfl⟩

theorem Block.Moves.trans {x y z : Block} (h : x.Moves y) (k : y.Moves z) : x.Moves z :=
  ⟨k.id.trans h.id, k.core.trans h.core, k.bureau.trans h.bureau, k.teams.trans h.teams⟩

/-- A block that halts, if it is one of those named (R397). -/
def Block.haltIn (ids : List Nat) (b : Block) : Block := if ids.contains b.id then { b with halt := true, teams := b.teams.map Team.cut } else b
/-- A block that leaves its core for a place, if it is one of those named (R396). -/
def Block.vacateIn (ids : List Nat) (p : Place) (b : Block) : Block := if ids.contains b.id then { b with place := p, ocache := [] } else b
/-- A block that goes on, if it is one of those named (R396). -/
def Block.backIn (ids : List Nat) (b : Block) : Block := if ids.contains b.id then b.goOn else b

theorem Team.cut_cases (t : Team) : t.cut = t ∨ t.cut = t.cutRun := by
  unfold Team.cut
  split
  · exact .inr rfl
  · exact .inl rfl

theorem Block.haltIn_place (ids : List Nat) (b : Block) : (b.haltIn ids).place = b.place := by
  unfold Block.haltIn
  split <;> rfl

theorem Block.haltIn_moves (ids : List Nat) (b : Block) : b.Moves (b.haltIn ids) := by
  unfold Block.haltIn
  split
  · refine ⟨rfl, rfl, rfl, ?_⟩
    rw [List.map_map]
    refine List.map_congr_left fun t _ => ?_
    rcases t.cut_cases with h | h
    · rw [Function.comp_apply, h]
    · rw [Function.comp_apply, h]
      rfl
  · exact .refl b

theorem Block.vacateIn_moves (ids : List Nat) (p : Place) (b : Block) : b.Moves (b.vacateIn ids p) := by
  unfold Block.vacateIn
  split
  · exact ⟨rfl, rfl, rfl, rfl⟩
  · exact .refl b

theorem Block.goOn_moves (b : Block) : b.Moves b.goOn := by
  refine ⟨rfl, rfl, rfl, ?_⟩
  unfold Block.goOn
  rw [List.map_map]
  rfl

theorem Block.backIn_moves (ids : List Nat) (b : Block) : b.Moves (b.backIn ids) := by
  unfold Block.backIn
  split
  · exact b.goOn_moves
  · exact .refl b

/-- What is left of an access to wait for does not depend on where blocks are (R205). -/
theorem State.travels_eq (s : State) (bs : List Block) (m : Option Move) (ds : List Nat) (ms : List TRef) {b x : Block} {t u : Team} (hb : x.bureau = b.bureau)
    (hu : u.ops = t.ops) : State.travels { s with blocks := bs, moving := m, dusked := ds, movers := ms } x u = s.travels b t := by
  funext o
  have hmay (l : LaneAcc) : State.laneMay { s with blocks := bs, moving := m, dusked := ds, movers := ms } x u o l = s.laneMay b t o l := by
    unfold State.laneMay
    rw [hb, hu]
    rfl
  unfold State.travels
  simp only [hmay]

/-- A quiet team stays quiet as it halts (R57). -/
theorem State.teamQuiet_cut {s : State} (bs : List Block) (m : Option Move) (ds : List Nat) (ms : List TRef) {b x : Block} {t : Team} (hb : x.bureau = b.bureau)
    (h : s.teamQuiet b t = true) : State.teamQuiet { s with blocks := bs, moving := m, dusked := ds, movers := ms } x t.cut = true := by
  rcases t.cut_cases with hc | hc
  · rw [hc]
    unfold State.teamQuiet at h ⊢
    rw [State.travels_eq s bs m ds ms hb rfl]
    exact h
  · rw [hc]
    unfold State.teamQuiet at h ⊢
    rw [State.travels_eq s bs m ds ms hb (show t.cutRun.ops = t.ops from rfl)]
    rw [Bool.and_eq_true, Bool.and_eq_true] at h ⊢
    obtain ⟨⟨hrun, hpend⟩, hops⟩ := h
    refine ⟨⟨?_, hpend⟩, hops⟩
    rw [Bool.or_eq_true] at hrun ⊢
    refine hrun.imp (fun hrun => ?_) fun htrap => htrap
    unfold Team.atBoundary at hrun ⊢
    exact Bool.and_eq_true_iff.2 ⟨(Bool.and_eq_true_iff.1 hrun).1, rfl⟩

theorem State.blockQuiet_haltIn {s : State} (bs : List Block) (m : Option Move) (ds : List Nat) (ms : List TRef) (ids : List Nat) {b : Block}
    (h : s.blockQuiet b = true) : State.blockQuiet { s with blocks := bs, moving := m, dusked := ds, movers := ms } (b.haltIn ids) = true := by
  unfold State.blockQuiet at h ⊢
  rw [Bool.and_eq_true, Bool.and_eq_true] at h ⊢
  obtain ⟨⟨hteams, htiles⟩, hcopies⟩ := h
  rw [List.all_eq_true] at hteams
  unfold Block.haltIn
  split
  · refine ⟨⟨List.all_eq_true.2 fun u hu => ?_, htiles⟩, hcopies⟩
    obtain ⟨t, ht, rfl⟩ := List.mem_map.1 hu
    exact State.teamQuiet_cut bs m ds ms rfl (hteams t ht)
  · refine ⟨⟨List.all_eq_true.2 fun t ht => ?_, htiles⟩, hcopies⟩
    have h := hteams t ht
    unfold State.teamQuiet at h ⊢
    rw [State.travels_eq s bs m ds ms rfl rfl]
    exact h

theorem State.leave_eq (s : State) (b : Block) : ∃ cs, s.leave b = { s with cores := cs } := by
  unfold State.leave State.updCore
  split
  · exact ⟨_, rfl⟩
  · split
    · exact ⟨_, rfl⟩
    · exact ⟨_, rfl⟩

theorem State.foldl_leave_eq (s : State) (l : List Block) : ∃ cs, l.foldl State.leave s = { s with cores := cs } := by
  induction l generalizing s with
  | nil => exact ⟨_, rfl⟩
  | cons b l ih =>
    obtain ⟨cs, hcs⟩ := s.leave_eq b
    obtain ⟨ds, hds⟩ := ih (s.leave b)
    exact ⟨ds, by rw [List.foldl_cons, hds, hcs]⟩

theorem State.vacate_eq (s : State) (ids : List Nat) (p : Place) :
    ∃ cs, s.vacate ids p = { s with cores := cs, blocks := s.blocks.map (Block.vacateIn ids p) } := by
  obtain ⟨cs, hcs⟩ := s.foldl_leave_eq (s.blocks.filter fun b => ids.contains b.id)
  refine ⟨cs, ?_⟩
  unfold State.vacate
  rw [hcs]
  rfl

/-- The blocks of cores that are swapped out (R396). -/
def State.swappedOn (s : State) (cores : List Nat) : List Nat :=
  (s.blocks.filter fun b => cores.contains b.core && b.place = .swapped).map fun b => b.id

/-- The resident blocks of cores (R396). -/
def State.onIds (s : State) (cores : List Nat) : List Nat := (s.on cores).map fun b => b.id

theorem State.exchange_eq (s : State) (cores : List Nat) : ∃ cs, s.exchange cores =
    { s with cores := cs, blocks := (s.blocks.map (Block.vacateIn (s.onIds cores) .swapped)).map (Block.backIn (s.swappedOn cores)) } := by
  obtain ⟨cs, hcs⟩ := s.vacate_eq (s.onIds cores) .swapped
  refine ⟨cs, ?_⟩
  unfold State.exchange
  dsimp only
  rw [show (s.on cores).map (fun b => b.id) = s.onIds cores from rfl, hcs]
  rfl

/-- Looking for blocks by place and core, one finds the same when they halt. -/
theorem State.onIds_halt (s : State) (ids cores : List Nat) : (s.haltBlocks ids).onIds cores = s.onIds cores := by
  unfold State.onIds State.on
  rw [show (s.haltBlocks ids).blocks = s.blocks.map (Block.haltIn ids) from rfl, List.filter_map, List.map_map]
  simp only [Function.comp_def, Block.haltIn_place, (Block.haltIn_moves ids _).core, (Block.haltIn_moves ids _).bureau,
    (Block.haltIn_moves ids _).id]

theorem State.swappedOn_halt (s : State) (ids cores : List Nat) : (s.haltBlocks ids).swappedOn cores = s.swappedOn cores := by
  unfold State.swappedOn
  rw [show (s.haltBlocks ids).blocks = s.blocks.map (Block.haltIn ids) from rfl, List.filter_map, List.map_map]
  simp only [Function.comp_def, Block.haltIn_place, (Block.haltIn_moves ids _).core, (Block.haltIn_moves ids _).id]

/-! The word is performed. -/

/-- The word of the sequencer has issued where the blocks have moved, with its result (R395). -/
theorem moveDone_moved {s z : State} (h : Hd) (d : BitVec 6) (n : Nat) {f : Block → Block} {b : Block} {t : Team}
    (ht : s.team? s.cur.r = some (b, t)) (hc : z.cur = s.cur) (hk : z.clock = s.clock) (hm : z.mem = s.mem) (hl : z.movers = [s.cur.r])
    (hb : z.blocks = s.blocks.map f) (hf : ∀ x : Block, x.Moves (f x)) :
    ∃ c u, (z.moveDone h d n).team? s.cur.r = some (c, u) ∧ movedR s (z.moveDone h d n) t u d n := by
  obtain ⟨u, hu, hw⟩ := State.team?_of_map (g := fun t : Team => (t.idx, t.run.writes)) (k := Prod.fst) (v := z.moved) hb
    (fun x => (hf x).id) (fun _ => rfl) (fun x => (hf x).teams) ht
  have hcur : z.moved.cur.r = s.cur.r := by rw [← hc]; rfl
  have hi := State.team?_issue (s := z.moved) h true (fun u => u.addRun z.clock [.w d.toNat (BitVec.ofNat 64 n)]) (fun _ => rfl) (hcur ▸ hu)
  refine ⟨_, _, hcur ▸ hi, Run.word_ended _ _, ?_, congrArg (List.drop 1) hl, rfl, hm⟩
  have hwr : u.run.writes = t.run.writes := congrArg Prod.snd hw
  refine (Run.word_writes _ _ _).trans ?_
  rw [← hwr, ← hk]
  rfl
/-! The maps of the sequencer's words (R395 to R397). -/

theorem bitsAt_eq (v n : Nat) : bitsAt v n = (List.range n).filter fun i => v.testBit i := by
  unfold bitsAt natBits
  exact List.filter_congr fun i _ => by rw [Nat.testBit_eq_decide_div_mod_eq]; rfl

theorem clusterCores_filter (p : Nat → Bool) (l : List Nat) : clusterCores (l.filter p) = (clusterCores l).filter fun c => p (c / 4) := by
  induction l with
  | nil => rfl
  | cons c l ih =>
    have hmem : ∀ j ∈ (List.range 4).map (fun i => 4 * c + i), p (j / 4) = p c := by
      refine List.forall_mem_map.2 fun i hi => congrArg p ?_
      have := List.mem_range.1 hi
      omega
    have hcl (k : List Nat) : clusterCores (c :: k) = (List.range 4).map (fun i => 4 * c + i) ++ clusterCores k := rfl
    rw [hcl, List.filter_append, ← ih]
    cases hp : p c with
    | true =>
      have hall : ((List.range 4).map fun i => 4 * c + i).filter (fun c => p (c / 4)) = (List.range 4).map fun i => 4 * c + i :=
        List.filter_eq_self.2 fun j hj => by rw [hmem j hj, hp]
      rw [List.filter_cons_of_pos hp, hcl, hall]
    | false =>
      have hnil : ((List.range 4).map fun i => 4 * c + i).filter (fun c => p (c / 4)) = [] :=
        List.filter_eq_nil_iff.2 fun j hj => by simp [hmem j hj, hp]
      rw [List.filter_cons_of_neg (by simp [hp]), hnil, List.nil_append]

theorem clusterCores_range (n : Nat) : clusterCores (List.range n) = List.range (4 * n) := by
  induction n with
  | zero => rfl
  | succ n ih =>
    have : clusterCores (List.range n ++ [n]) = clusterCores (List.range n) ++ (List.range 4).map fun i => 4 * n + i := by
      simp [clusterCores]
    rw [List.range_succ, this, ih, Nat.mul_succ, List.range_add]

/-- The cores of the clusters that CSWAP's map names, in order (R396). -/
def swapCores (v : Nat) : List Nat := (List.range 1024).filter fun c => v.testBit (c / 4)

theorem clusterCores_bitsAt (v : Nat) : clusterCores (bitsAt v 256) = swapCores v := by
  rw [bitsAt_eq, clusterCores_filter, clusterCores_range]
  rfl

theorem mem_swapCores {v c : Nat} : c ∈ swapCores v ↔ v.testBit (c / 4) = true ∧ c < 1024 := by
  simp [swapCores, and_comm]

theorem swapCores_eq_nil_iff (v : Nat) : swapCores v = [] ↔ v % 2 ^ 256 = 0 := by
  rw [List.eq_nil_iff_forall_not_mem]
  constructor
  · refine fun h => Nat.eq_of_testBit_eq fun i => ?_
    rw [Nat.testBit_mod_two_pow, Nat.zero_testBit]
    rw [Bool.and_eq_false_iff, decide_eq_false_iff_not, or_iff_not_imp_left, not_not, ← Bool.not_eq_true]
    intro hi ht
    refine h (4 * i) (mem_swapCores.2 ⟨?_, by omega⟩)
    rwa [Nat.mul_div_cancel_left i (by decide)]
  · intro h c hc
    obtain ⟨hb, hc⟩ := mem_swapCores.1 hc
    have : (v % 2 ^ 256).testBit (c / 4) = true := by
      rw [Nat.testBit_mod_two_pow, hb]
      simp
      omega
    rw [h, Nat.zero_testBit] at this
    exact Bool.false_ne_true this

/-! What a word of the sequencer leaves. -/

section
variable {s z : State} {f : Block → Block} (hb : z.blocks = s.blocks.map f) (hf : ∀ x : Block, x.Moves (f x)) (hc : z.cur = s.cur)
include hb hf hc

/-- A block once the word has been performed: where it was moved to, and unchanged otherwise but for the Bureau's own. -/
theorem State.block?_moveDone (h : Hd) (d : BitVec 6) (n : Nat) {x : Block} (hx : s.block? x.id = some x) :
    ∃ y, (z.moveDone h d n).block? x.id = some y ∧ y.place = (f x).place ∧ y.core = x.core ∧ (x.id ≠ s.cur.r.b → y = f x) := by
  have hz : z.block? x.id = some (f x) := by rw [State.block?_of_map hb fun x => (hf x).id, hx]; rfl
  have hr : z.moved.cur.r.b = s.cur.r.b := by rw [← hc]; rfl
  have hid (y : Block) : (y.updTeam z.moved.cur.r.t fun u =>
      (u.addRun z.clock [.w d.toNat (BitVec.ofNat 64 n)]).retire h true z.moved.cur.next).id = y.id := rfl
  by_cases he : x.id = s.cur.r.b
  · have hu := State.block?_updBlock z.moved z.moved.cur.r.b _ hid
    have hz' : z.moved.block? z.moved.cur.r.b = some (f x) := by rw [hr, ← he]; exact hz
    rw [hz'] at hu
    exact ⟨_, (congrArg _ (he.trans hr.symm)).trans hu, rfl, (hf x).core, fun hn => absurd he hn⟩
  · have hu := State.block?_updBlock_ne z.moved z.moved.cur.r.b x.id _ hid (by rw [hr]; exact he)
    exact ⟨f x, hu.trans hz, rfl, (hf x).core, fun _ => rfl⟩

end
/-! ### CSWAP (R396) -/

/-- The blocks that a word halts where none has been halted before: those resident of the identities given (R397). -/
theorem State.mem_halting {s : State} {l : List Nat} {i : Nat} :
    i ∈ s.halting [] l ↔ ∃ x ∈ s.blocks, (x.place = .resident ∧ x.id ∈ l) ∧ x.id = i := by
  simp [State.halting, and_assoc]

theorem State.mem_onIds {s : State} {l : List Nat} {i : Nat} :
    i ∈ s.onIds l ↔ ∃ x ∈ s.blocks, (x.core ∈ l ∧ x.place = .resident ∧ x.bureau = none) ∧ x.id = i := by
  simp [State.onIds, State.on, and_assoc]

theorem State.mem_swappedOn {s : State} {l : List Nat} {i : Nat} :
    i ∈ s.swappedOn l ↔ ∃ x ∈ s.blocks, (x.core ∈ l ∧ x.place = .swapped) ∧ x.id = i := by
  simp [State.swappedOn, and_assoc]

theorem State.swapBad_iff (s : State) (v : Nat) : s.swapBad (swapCores v) = true ↔
    v % 2 ^ 256 = 0 ∨ (∃ c ∈ s.dusked, c < 1024 ∧ v.testBit (c / 4) = true) ∨
      ∃ x ∈ s.blocks, (v.testBit (x.core / 4) = true ∧ x.core < 1024) ∧ (x.place = .saved ∧ x.bureau = none ∨ x.place = .moving) := by
  unfold State.swapBad State.movingOnto State.slotBlocks
  simp only [Bool.or_eq_true, List.isEmpty_iff, swapCores_eq_nil_iff, List.any_eq_true, Bool.and_eq_true, List.contains_iff_mem, mem_swapCores,
    decide_eq_true_eq, List.mem_filter, Option.isNone_iff_eq_none]
  constructor
  · rintro ((h | ⟨x, hx, hc, hp⟩) | ⟨c, hc, hd | ⟨x, ⟨hx, ⟨rfl, hp⟩, hb⟩, hs⟩⟩)
    · exact .inl h
    · exact .inr (.inr ⟨x, hx, hc, .inr hp⟩)
    · exact .inr (.inl ⟨c, hd, hc.2, hc.1⟩)
    · exact .inr (.inr ⟨x, hx, hc, .inl ⟨hs, hb⟩⟩)
  · rintro (h | ⟨c, hd, hc⟩ | ⟨x, hx, hc, ⟨hs, hb⟩ | hp⟩)
    · exact .inl (.inl h)
    · exact .inr ⟨c, ⟨hc.2, hc.1⟩, .inl hd⟩
    · exact .inr ⟨x.core, hc, .inr ⟨x, ⟨hx, ⟨rfl, .inl hs⟩, hb⟩, hs⟩⟩
    · exact .inl (.inr ⟨x, hx, hc, hp⟩)

/-- All that a halt awaits is quiet, once the blocks have halted, where it was quiet before (R57). -/
theorem State.allQuiet_halt {s : State} {ids : List Nat} (m : Option Move) (ds : List Nat) (ms : List TRef)
    (h : ∀ x ∈ s.blocks, x.id ∈ ids → s.blockQuiet x = true) :
    State.allQuiet { s.haltBlocks ids with moving := m, dusked := ds, movers := ms } ids = true := by
  refine List.all_eq_true.2 fun y hy => ?_
  obtain ⟨x, hx, rfl⟩ := List.mem_map.1 hy
  have hid : (x.haltIn ids).id = x.id := (x.haltIn_moves ids).id
  change (!ids.contains (x.haltIn ids).id || State.blockQuiet _ (x.haltIn ids)) = true
  rw [hid]
  by_cases hi : x.id ∈ ids
  · exact Bool.or_eq_true_iff.2 (.inr (State.blockQuiet_haltIn _ m ds ms ids (h x hx hi)))
  · exact Bool.or_eq_true_iff.2 (.inl (by simpa using hi))

/-- What CSWAP makes of a block (R396). -/
def State.swapIn (s : State) (cores : List Nat) (x : Block) : Block :=
  ((x.haltIn (s.halting [] (s.onIds cores))).vacateIn (s.onIds cores) .swapped).backIn (s.swappedOn cores)

theorem State.swapIn_moves (s : State) (cores : List Nat) (x : Block) : x.Moves (s.swapIn cores x) :=
  (x.haltIn_moves _).trans ((Block.vacateIn_moves _ _ _).trans (Block.backIn_moves _ _))

/-- The state in which CSWAP has halted the blocks of its cores (R396). -/
def State.swapHalt (s : State) (cores : List Nat) : State :=
  { s.haltBlocks (s.halting [] (s.onIds cores)) with
    moving := some { cores := cores, named := cores, ids := s.halting [] (s.onIds cores) }, movers := [s.cur.r] }

section
variable {s : State} {b : Block} {t : Team} {d a : BitVec 6} {v : Nat} (hS : Served s b t d a 32 v)
include hS

theorem exec_cswap (h : Hd) : exec (.cswap h d a) s =
    if s.swapBad (swapCores v) = true then .next (s.trap .sysarg)
    else if (!(s.swapHalt (swapCores v)).allQuiet (s.halting [] (s.onIds (swapCores v)))) = true then .next (s.swapHalt (swapCores v)).movePark
    else
      let z := (s.swapHalt (swapCores v)).exchange (swapCores v)
      .next (z.moveDone h d ((swapCores v).filter fun c => (z.slotBlocks c).any fun b => b.place = .swapped).length) := by
  have hexec : exec (.cswap h d a) s = execCswap h d a s := rfl
  rw [hexec, execCswap, State.moveWord_served hS]
  simp only [hS.idle.2, clusterCores_bitsAt, Option.isNone_none, Bool.true_and]
  rw [← hS.idle.2]
  rw [State.moved_of_idle hS.idle.1 hS.idle.2]
  rfl

/-- Where nothing stands against it and the blocks are quiet, CSWAP exchanges them at once. -/
theorem exec_cswap_exchanges (h : Hd) (hbad : s.swapBad (swapCores v) = false)
    (hq : ∀ x ∈ s.blocks, x.id ∈ s.onIds (swapCores v) → s.blockQuiet x = true) : ∃ (z : State) (n : Nat),
      exec (.cswap h d a) s = .next (z.moveDone h d n) ∧ z.blocks = s.blocks.map (s.swapIn (swapCores v)) ∧ z.cur = s.cur ∧
      z.clock = s.clock ∧ z.mem = s.mem ∧ z.movers = [s.cur.r] ∧
      n = ((swapCores v).filter fun c => (z.slotBlocks c).any fun b => b.place = .swapped).length := by
  have hquiet : (s.swapHalt (swapCores v)).allQuiet (s.halting [] (s.onIds (swapCores v))) = true :=
    State.allQuiet_halt _ s.dusked [s.cur.r] fun x hx hi => by
      obtain ⟨y, hy, ⟨-, hon⟩, hid⟩ := State.mem_halting.1 hi
      exact hq x hx (hid ▸ hon)
  obtain ⟨cs, hcs⟩ := State.exchange_eq (s.swapHalt (swapCores v)) (swapCores v)
  refine ⟨(s.swapHalt (swapCores v)).exchange (swapCores v), _, ?_, ?_, ?_, ?_, ?_, ?_, rfl⟩
  · rw [exec_cswap hS, hbad, hquiet]
    rfl
  · rw [hcs]
    have hon : (s.swapHalt (swapCores v)).onIds (swapCores v) = s.onIds (swapCores v) := State.onIds_halt ..
    have hsw : (s.swapHalt (swapCores v)).swappedOn (swapCores v) = s.swappedOn (swapCores v) := State.swappedOn_halt ..
    dsimp only
    rw [hon, hsw]
    change List.map _ (List.map _ (s.blocks.map (Block.haltIn _))) = _
    rw [List.map_map, List.map_map]
    rfl
  all_goals rw [hcs]; rfl

end

/-! Where CSWAP puts a block that alone has its identity. -/

section
variable {s : State} {cores : List Nat} {x : Block} (hx : x ∈ s.blocks) (hu : ∀ y ∈ s.blocks, y.id = x.id → y = x)
include hx hu

theorem State.mem_onIds_alone : x.id ∈ s.onIds cores ↔ x.core ∈ cores ∧ x.place = .resident ∧ x.bureau = none := by
  rw [State.mem_onIds]
  exact ⟨fun ⟨y, hy, h, hid⟩ => hu y hy hid ▸ h, fun h => ⟨x, hx, h, rfl⟩⟩

theorem State.mem_swappedOn_alone : x.id ∈ s.swappedOn cores ↔ x.core ∈ cores ∧ x.place = .swapped := by
  rw [State.mem_swappedOn]
  exact ⟨fun ⟨y, hy, h, hid⟩ => hu y hy hid ▸ h, fun h => ⟨x, hx, h, rfl⟩⟩

/-- A resident block of a core named is swapped out, and one that is swapped out is resident again (R396). -/
theorem State.swapIn_place (hb : x.bureau = none) (hc : x.core ∈ cores) (hp : x.place = .resident ∨ x.place = .swapped) :
    (s.swapIn cores x).place = if x.place = .resident then .swapped else .resident := by
  have hid : (x.haltIn (s.halting [] (s.onIds cores))).id = x.id := (Block.haltIn_moves _ x).id
  have hid2 : ((x.haltIn (s.halting [] (s.onIds cores))).vacateIn (s.onIds cores) .swapped).id = x.id :=
    (Block.vacateIn_moves _ _ _).id.trans hid
  unfold State.swapIn Block.backIn
  rw [hid2]
  rcases hp with hp | hp
  · have hon : x.id ∈ s.onIds cores := (State.mem_onIds_alone hx hu).2 ⟨hc, hp, hb⟩
    have hback : x.id ∉ s.swappedOn cores := fun h => by
      have := ((State.mem_swappedOn_alone hx hu).1 h).2
      rw [hp] at this
      cases this
    rw [if_neg (by simpa using hback), if_pos hp]
    unfold Block.vacateIn
    rw [hid, if_pos (by simpa using hon)]
  · have hback : x.id ∈ s.swappedOn cores := (State.mem_swappedOn_alone hx hu).2 ⟨hc, hp⟩
    rw [if_pos (by simpa using hback), hp]
    rfl

/-- A block of another core stays as it is (R396). -/
theorem State.swapIn_elsewhere (hc : x.core ∉ cores) : s.swapIn cores x = x := by
  have hon : x.id ∉ s.onIds cores := fun h => hc ((State.mem_onIds_alone hx hu).1 h).1
  have hback : x.id ∉ s.swappedOn cores := fun h => hc ((State.mem_swappedOn_alone hx hu).1 h).1
  have hhalt : x.id ∉ s.halting [] (s.onIds cores) := fun h => by
    obtain ⟨y, hy, ⟨-, ho⟩, hid⟩ := State.mem_halting.1 h
    exact hon (hid ▸ ho)
  have h1 : x.haltIn (s.halting [] (s.onIds cores)) = x := if_neg (by simpa using hhalt)
  have h2 : x.vacateIn (s.onIds cores) .swapped = x := if_neg (by simpa using hon)
  unfold State.swapIn
  rw [h1, h2]
  exact if_neg (by simpa using hback)

theorem State.block?_alone : s.block? x.id = some x := by
  obtain ⟨y, hy⟩ := Option.isSome_iff_exists.1 (show (s.block? x.id).isSome = true from List.find?_isSome.2 ⟨x, hx, beq_self_eq_true x.id⟩)
  rw [hy, hu y (List.mem_of_find?_eq_some hy) (State.block?_id hy)]

end

/-- The cores of a map with a block swapped out, counted in the state after the word as in the one before it issues (R396). -/
theorem State.swapCount (z : State) (h : Hd) (d : BitVec 6) (n v : Nat) :
    ((swapCores v).filter fun c => (z.slotBlocks c).any fun b => b.place = .swapped).length =
      (List.range 1024).countP fun c => v.testBit (c / 4) &&
        (z.moveDone h d n).blocks.any fun x => decide (x.core = c) && decide (x.place = .swapped) && x.bureau.isNone := by
  rw [swapCores, List.filter_filter, List.countP_eq_length_filter]
  refine congrArg List.length (List.filter_congr fun c _ => ?_)
  rw [Bool.and_comm]
  refine congrArg (v.testBit (c / 4) && ·) ?_
  have hz : (z.moveDone h d n).blocks = z.blocks.map fun x => if x.id == z.moved.cur.r.b then x.updTeam z.moved.cur.r.t fun u =>
      (u.addRun z.clock [.w d.toNat (BitVec.ofNat 64 n)]).retire h true z.moved.cur.next else x := rfl
  rw [hz, List.any_map, State.slotBlocks, List.any_filter]
  refine congrArg (List.any z.blocks) (funext fun x => ?_)
  have hslot : ((decide (x.core = c) && (decide (x.place = .saved) || decide (x.place = .swapped)) && x.bureau.isNone) && decide (x.place = .swapped)) =
      (decide (x.core = c) && decide (x.place = .swapped) && x.bureau.isNone) := by
    generalize x.place = q
    cases q <;> simp
  rw [hslot, Function.comp_apply]
  split
  · rfl
  · rfl

section
variable {s : State} {b : Block} {t : Team} {d a : BitVec 6} {v : Nat} (hS : Served s b t d a 32 v)
include hS

theorem cswap_refused (h : Hd) (hbad : v % 2 ^ 256 = 0 ∨ (∃ c ∈ s.dusked, c < 1024 ∧ v.testBit (c / 4) = true) ∨
      ∃ x ∈ s.blocks, (v.testBit (x.core / 4) = true ∧ x.core < 1024) ∧ (x.place = .saved ∧ x.bureau = none ∨ x.place = .moving)) :
    exec (.cswap h d a) s = .next (s.trap .sysarg) := by
  rw [exec_cswap hS, if_pos ((s.swapBad_iff v).2 hbad)]

theorem cswap_exchanges (h : Hd) (hne : v % 2 ^ 256 ≠ 0) (hdusk : ∀ c ∈ s.dusked, v.testBit (c / 4) = false)
    (hpl : ∀ x ∈ s.blocks, (v.testBit (x.core / 4) = true ∧ x.core < 1024) → x.place ≠ .moving ∧ (x.bureau = none → x.place ≠ .saved))
    (hq : ∀ x ∈ s.blocks, (v.testBit (x.core / 4) = true ∧ x.core < 1024) → x.bureau = none → x.place = .resident →
      ∀ y ∈ s.blocks, y.id = x.id → s.blockQuiet y = true) :
    issuesWith (.cswap h d a) s fun w u =>
      movedR s w t u d ((List.range 1024).countP fun c => v.testBit (c / 4) &&
        w.blocks.any fun x => decide (x.core = c) && decide (x.place = .swapped) && x.bureau.isNone) ∧
      ∀ x ∈ s.blocks, (∀ y ∈ s.blocks, y.id = x.id → y = x) → x.bureau = none →
        ((v.testBit (x.core / 4) = true ∧ x.core < 1024) → nowAt w x (if x.place = .resident then .swapped else .resident)) ∧
        (¬(v.testBit (x.core / 4) = true ∧ x.core < 1024) → w.block? x.id = some x) := by
  have hbad : s.swapBad (swapCores v) = false := by
    rw [← Bool.not_eq_true, State.swapBad_iff]
    rintro (h | ⟨c, hc, -, hb⟩ | ⟨x, hx, hn, ⟨hp, hb⟩ | hp⟩)
    · exact hne h
    · rw [hdusk c hc] at hb
      exact Bool.false_ne_true hb
    · exact (hpl x hx hn).2 hb hp
    · exact (hpl x hx hn).1 hp
  obtain ⟨z, n, hex, hz, hcur, hclock, hmem, hmov, hn⟩ := exec_cswap_exchanges hS h hbad fun x hx hi => by
    obtain ⟨y, hy, ⟨hc, hp, hb⟩, hid⟩ := State.mem_onIds.1 hi
    exact hq y hy (mem_swapCores.1 hc) hb hp x hx hid.symm
  have hcount := hn.trans (z.swapCount h d n v)
  obtain ⟨c, u, hu, hmoved⟩ := moveDone_moved h d n hS.free.team hcur hclock hmem hmov hz (s.swapIn_moves (swapCores v))
  refine ⟨_, c, u, hex, rfl, hu, hcount ▸ hmoved, fun x hx hu hb => ?_⟩
  obtain ⟨y, hy, hyp, hyc, hyo⟩ := State.block?_moveDone hz (s.swapIn_moves (swapCores v)) hcur h d n (State.block?_alone hx hu)
  refine ⟨fun hn => ⟨y, hy, ?_, hyc⟩, fun hn => ?_⟩
  · rw [hyp]
    refine State.swapIn_place hx hu hb (mem_swapCores.2 hn) ?_
    have ⟨hm, hs⟩ := hpl x hx hn
    cases hxp : x.place with
    | resident => exact .inl rfl
    | swapped => exact .inr rfl
    | saved => exact absurd hxp (hs hb)
    | moving => exact absurd hxp hm
  · rw [hy, hyo (served_other hS (State.block?_alone hx hu) hb), State.swapIn_elsewhere hx hu fun h => hn (mem_swapCores.1 h)]

end
/-! ### DUSK and DUSK.ret (R397, R398) -/

/-- What DUSK makes of a block (R397). -/
def State.duskIn (s : State) (new : List Nat) (x : Block) : Block :=
  (x.haltIn (s.halting [] (s.toSave new))).vacateIn (s.halting [] (s.toSave new)) .saved

theorem State.duskIn_moves (s : State) (new : List Nat) (x : Block) : x.Moves (s.duskIn new x) :=
  (x.haltIn_moves _).trans (Block.vacateIn_moves _ _ _)

theorem subset_tiedUp (all : List Block) (n : Nat) (ids : List Nat) : ∀ i ∈ ids, i ∈ tiedUp all n ids := by
  induction n generalizing ids with
  | zero => exact fun _ h => h
  | succ n ih =>
    intro i hi
    unfold tiedUp
    dsimp only
    split
    · exact hi
    · exact ih _ i (List.mem_append_left _ hi)

theorem State.mem_toSave_of_on {s : State} {new : List Nat} {i : Nat} (h : i ∈ s.onIds new) : i ∈ s.toSave new :=
  subset_tiedUp _ _ _ i h

/-- The state in which DUSK has halted the blocks that it saves (R397). -/
def State.duskHalt (s : State) (new named : List Nat) : State :=
  { s.haltBlocks (s.halting [] (s.toSave new)) with
    moving := some { cores := new, named := named, ids := s.halting [] (s.toSave new) },
    dusked := s.dusked ++ new.filter fun c => !s.dusked.contains c, movers := [s.cur.r] }

/-- The cores that DUSK newly vacates (R397). -/
def State.duskNew (s : State) (v : Nat) : List Nat := (List.range 1024).filter fun c => v.testBit c && !s.dusked.contains c

theorem State.duskNew_eq (s : State) (v : Nat) : (bitsAt v 1024).filter (fun c => !s.dusked.contains c) = s.duskNew v := by
  rw [bitsAt_eq, List.filter_filter]
  exact List.filter_congr fun c _ => Bool.and_comm _ _

theorem State.mem_duskHalt (s : State) (v c : Nat) (named : List Nat) : c ∈ (s.duskHalt (s.duskNew v) named).dusked ↔ c ∈ s.dusked ∨ c ∈ s.duskNew v := by
  have : c ∈ s.duskNew v → c ∉ s.dusked := fun h => by simpa using (Bool.and_eq_true_iff.1 (List.mem_filter.1 h).2).2
  unfold State.duskHalt
  simp only [List.mem_append, List.mem_filter, Bool.not_eq_true', List.contains_eq_mem, decide_eq_false_iff_not]
  exact or_congr_right (and_iff_left_of_imp this)

/-- The blocks that DUSK saves, counted (R397). -/
theorem State.duskCount (s : State) (new : List Nat) :
    (s.halting [] (s.toSave new)).length = s.blocks.countP fun x => decide (x.place = .resident) && (s.toSave new).contains x.id := by
  rw [State.halting, List.length_map, List.countP_eq_length_filter]
  rfl

theorem State.movingOnto_halt {s z : State} {ids cores : List Nat} (hz : z.blocks = s.blocks.map (Block.haltIn ids))
    (h : ∀ x ∈ s.blocks, x.place = .moving → x.core ∉ cores) : z.movingOnto cores = false := by
  refine List.any_eq_false.2 ?_
  rw [hz]
  refine List.forall_mem_map.2 fun x hx hb => ?_
  rw [Block.haltIn_place, (Block.haltIn_moves ids x).core, Bool.and_eq_true, decide_eq_true_eq] at hb
  exact h x hx hb.2 (List.contains_iff_mem.1 hb.1)

/-- The cores that DUSK.ret gives back (R398). -/
def State.duskBack (s : State) (v : Nat) : List Nat := (List.range 1024).filter fun c => v.testBit c && s.dusked.contains c

/-- The state in which DUSK.ret has given its cores back, before its word is performed. -/
def State.duskGiven (s : State) (v : Nat) : State :=
  { s with movers := [s.cur.r], dusked := s.dusked.filter fun c => !(s.duskBack v).contains c }

section
variable {s : State} {b : Block} {t : Team} {d a : BitVec 6} {v : Nat} (hS : Served s b t d a 128 v)
include hS

theorem exec_dusk (h : Hd) : exec (.dusk h d a) s =
    if s.duskBad (s.duskNew v) = true then .next (s.trap .sysarg)
    else
      let z := s.duskHalt (s.duskNew v) (bitsAt v 1024)
      if (z.movingOnto (s.duskNew v) || !z.allQuiet (s.halting [] (s.toSave (s.duskNew v)))) = true then .next z.movePark
      else .next (((z.vacate (s.halting [] (s.toSave (s.duskNew v))) .saved).releaseHeld (bitsAt v 1024)).moveDone h d
        ((s.halting [] (s.toSave (s.duskNew v))).length % 2 ^ 16 + (s.duskNew v).length * 2 ^ 16)) := by
  have hexec : exec (.dusk h d a) s = execDusk h d a s := rfl
  rw [hexec, execDusk, State.moveWord_served hS]
  simp only [hS.idle.2, State.duskNew_eq, Option.isNone_none, Bool.true_and]
  rw [← hS.idle.2]
  rw [State.moved_of_idle hS.idle.1 hS.idle.2]
  rfl

theorem dusk_refused (h : Hd) (hbad : s.duskBad (s.duskNew v) = true) : exec (.dusk h d a) s = .next (s.trap .sysarg) := by
  rw [exec_dusk hS, if_pos hbad]

/-- Where nothing stands against it and the blocks are quiet, DUSK saves them at once. -/
theorem exec_dusk_saves (h : Hd) (hbad : s.duskBad (s.duskNew v) = false) (hmov : ∀ x ∈ s.blocks, x.place = .moving → x.core ∉ s.duskNew v)
    (hq : ∀ x ∈ s.blocks, x.id ∈ s.toSave (s.duskNew v) → s.blockQuiet x = true) : ∃ (z : State) (n : Nat),
      exec (.dusk h d a) s = .next (z.moveDone h d n) ∧ z.blocks = s.blocks.map (s.duskIn (s.duskNew v)) ∧ z.cur = s.cur ∧
      z.clock = s.clock ∧ z.mem = s.mem ∧ z.movers = [s.cur.r] ∧ (∀ c, c ∈ z.dusked ↔ c ∈ s.dusked ∨ c ∈ s.duskNew v) ∧
      n = (s.blocks.countP fun x => decide (x.place = .resident) && (s.toSave (s.duskNew v)).contains x.id) % 2 ^ 16 +
        2 ^ 16 * (s.duskNew v).length := by
  have hquiet : (s.duskHalt (s.duskNew v) (bitsAt v 1024)).allQuiet (s.halting [] (s.toSave (s.duskNew v))) = true :=
    State.allQuiet_halt _ _ [s.cur.r] fun x hx hi => by
      obtain ⟨y, hy, ⟨-, hsave⟩, hid⟩ := State.mem_halting.1 hi
      exact hq x hx (hid ▸ hsave)
  have honto : (s.duskHalt (s.duskNew v) (bitsAt v 1024)).movingOnto (s.duskNew v) = false := State.movingOnto_halt rfl hmov
  obtain ⟨cs, hcs⟩ := State.vacate_eq (s.duskHalt (s.duskNew v) (bitsAt v 1024)) (s.halting [] (s.toSave (s.duskNew v))) .saved
  refine ⟨State.releaseHeld ((s.duskHalt (s.duskNew v) (bitsAt v 1024)).vacate (s.halting [] (s.toSave (s.duskNew v))) .saved) (bitsAt v 1024), _,
    ?_, ?_, ?_, ?_, ?_, ?_, fun c => ?_, congrArg₂ (· % 2 ^ 16 + ·) (s.duskCount (s.duskNew v)) (Nat.mul_comm _ _)⟩
  · rw [exec_dusk hS]
    dsimp only
    rw [hbad, honto, hquiet]
    rfl
  · rw [hcs]
    change List.map _ (s.blocks.map (Block.haltIn _)) = _
    rw [List.map_map]
    rfl
  · rw [hcs]; rfl
  · rw [hcs]; rfl
  · rw [hcs]; rfl
  · rw [hcs]; rfl
  · rw [hcs]
    exact s.mem_duskHalt v c (bitsAt v 1024)

theorem dusk_saves (h : Hd) (hbad : s.duskBad (s.duskNew v) = false) (hmov : ∀ x ∈ s.blocks, x.place = .moving → x.core ∉ s.duskNew v)
    (hq : ∀ x ∈ s.blocks, x.id ∈ s.toSave (s.duskNew v) → s.blockQuiet x = true) :
    issuesWith (.dusk h d a) s fun w u => movedR s w t u d ((s.blocks.countP fun x => decide (x.place = .resident) &&
        (s.toSave (s.duskNew v)).contains x.id) % 2 ^ 16 + 2 ^ 16 * (s.duskNew v).length) ∧
      (∀ c, c ∈ w.dusked ↔ c ∈ s.dusked ∨ c ∈ s.duskNew v) ∧
      ∀ x, s.block? x.id = some x → x.bureau = none →
        (x.place = .resident → x.core ∈ s.duskNew v → nowAt w x .saved) ∧ (x.id ∉ s.toSave (s.duskNew v) → w.block? x.id = some x) := by
  obtain ⟨z, n, hex, hz, hcur, hclock, hmem, hmovers, hdusk, hn⟩ := exec_dusk_saves hS h hbad hmov hq
  obtain ⟨c, u, hu, hmoved⟩ := moveDone_moved h d n hS.free.team hcur hclock hmem hmovers hz (s.duskIn_moves (s.duskNew v))
  refine ⟨_, c, u, hex, rfl, hu, hn ▸ hmoved, hdusk, fun x hx hb => ?_⟩
  obtain ⟨y, hy, hyp, hyc, hyo⟩ := State.block?_moveDone hz (s.duskIn_moves (s.duskNew v)) hcur h d n hx
  have hmem := List.mem_of_find?_eq_some hx
  refine ⟨fun hr hc => ⟨y, hy, ?_, hyc⟩, fun hs => ?_⟩
  · have hon : x.id ∈ s.onIds (s.duskNew v) := State.mem_onIds.2 ⟨x, hmem, ⟨hc, hr, hb⟩, rfl⟩
    have hhalt : x.id ∈ s.halting [] (s.toSave (s.duskNew v)) := State.mem_halting.2 ⟨x, hmem, ⟨hr, State.mem_toSave_of_on hon⟩, rfl⟩
    rw [hyp, State.duskIn, Block.vacateIn, (Block.haltIn_moves _ x).id, if_pos (by simpa using hhalt)]
  · have hhalt : x.id ∉ s.halting [] (s.toSave (s.duskNew v)) := fun h => by
      obtain ⟨y, -, ⟨-, hsave⟩, hid⟩ := State.mem_halting.1 h
      exact hs (hid ▸ hsave)
    have h1 : x.haltIn (s.halting [] (s.toSave (s.duskNew v))) = x := if_neg (by simpa using hhalt)
    have h2 : x.vacateIn (s.halting [] (s.toSave (s.duskNew v))) .saved = x := if_neg (by simpa using hhalt)
    rw [hy, hyo (served_other hS hx hb), State.duskIn, h1, h2]

/-- DUSK.ret gives the cores of its map back (R398). -/
theorem duskRet_gives (h : Hd) : issuesWith (.duskRet h d a) s fun w u =>
    movedR s w t u d ((List.range 1024).countP fun c => v.testBit c && s.dusked.contains c) ∧
    w.blocks.map (fun x => x.place) = s.blocks.map (fun x => x.place) ∧ ∀ c, c ∈ w.dusked ↔ c ∈ s.dusked ∧ ¬(c < 1024 ∧ v.testBit c = true) := by
  have hback : (bitsAt v 1024).filter (fun c => s.dusked.contains c) = s.duskBack v := by
    rw [bitsAt_eq, List.filter_filter]
    exact List.filter_congr fun c _ => Bool.and_comm _ _
  have hex : exec (.duskRet h d a) s = .next ((s.duskGiven v).moveDone h d (s.duskBack v).length) := by
    have hexec : exec (.duskRet h d a) s = execDuskRet h d a s := rfl
    rw [hexec, execDuskRet, State.moveWord_served hS]
    simp only [hback]
    rfl
  obtain ⟨c, u, hu, hmoved⟩ := moveDone_moved (z := s.duskGiven v) h d (s.duskBack v).length hS.free.team rfl rfl rfl rfl
    (List.map_id' _).symm .refl
  refine ⟨_, c, u, hex, rfl, hu, ?_, ?_, fun k => ?_⟩
  · rw [List.countP_eq_length_filter]
    exact hmoved
  · change (updWhere _ _ s.blocks).map _ = _
    unfold updWhere
    rw [List.map_map]
    refine List.map_congr_left fun x _ => ?_
    rw [Function.comp_apply]
    split
    · rfl
    · rfl
  · change k ∈ s.dusked.filter _ ↔ _
    rw [List.mem_filter]
    refine and_congr_right fun hk => ?_
    simp [State.duskBack, hk, imp_iff_not_or]

end
/-! ### DUSK_RESUME (R399) -/

/-- What a block holds that its move onto a core leaves: its scratchpad, the bytes of its slots and its teams' registers. -/
structure Block.SameRegs (x y : Block) : Prop where
  spad : y.spad = x.spad
  chest : y.chest.map (fun q => q.bytes) = x.chest.map (fun q => q.bytes)
  teams : y.teams.map (fun t => (t.w, t.v, t.m)) = x.teams.map fun t => (t.w, t.v, t.m)

theorem rebind_bytes (l : List Chest) (free : List Nat) : (rebind l free).map (fun q => q.bytes) = l.map fun q => q.bytes := by
  induction l generalizing free with
  | nil => rfl
  | cons q l ih =>
    unfold rebind
    split
    · exact congrArg (q.bytes :: ·) (ih _)
    · exact congrArg (q.bytes :: ·) (ih _)

/-- A block on its way onto core `k` (R399). -/
def State.landing (s : State) (k : Nat) (x : Block) : Block :=
  { x with core := k, place := .moving
           teams := x.teams.zipIdx.map fun (p : Team × Nat) => { p.1 with slot := (freeOf 16 (s.usedSlots k)).getD p.2 0 }
           pages := (freeOf 256 (s.usedPages k)).take x.pages.length
           chest := rebind x.chest (s.freeSlots k)
           tiles := x.tiles.zipIdx.map fun (p : Tile × Nat) => { p.1 with phys := (freeOf 16 (s.usedTiles k)).getD p.2 0 } }

theorem State.resumeAt_eq (s : State) (x : Block) (k : Nat) : s.resumeAt x k = s.updBlock x.id (s.landing k) := rfl

theorem State.landing_sameRegs (s : State) (k : Nat) (x : Block) : x.SameRegs (s.landing k x) := by
  refine ⟨rfl, rebind_bytes _ _, ?_⟩
  unfold State.landing
  dsimp only
  rw [List.map_map]
  have hfst : (fun t : Team => (t.w, t.v, t.m)) ∘ (fun p : Team × Nat => { p.1 with slot := (freeOf 16 (s.usedSlots k)).getD p.2 0 }) =
      (fun t : Team => (t.w, t.v, t.m)) ∘ Prod.fst := rfl
  rw [hfst, ← List.map_map, List.zipIdx_map_fst]

/-- A core that takes a block is none that the sequencer is exchanging or vacating (R396). -/
theorem State.takes_not_moving {s : State} {x : Block} {k : Nat} (h : s.takes x k = true) (m : Move) (hm : s.moving = some m) : k ∉ m.cores := by
  unfold State.takes State.swapping at h
  rw [hm] at h
  intro hk
  simp [hk] at h

theorem Block.goOn_sameRegs (x : Block) : x.SameRegs x.goOn := by
  refine ⟨rfl, rfl, ?_⟩
  unfold Block.goOn
  dsimp only
  rw [List.map_map]
  rfl

section
variable {s : State} {b : Nat} {x : Block} (hx : s.block? b = some x)
include hx

theorem exec_duskResume : exec (.duskResume b) s = match x.place with
    | .moving => .next { s with blocks := s.blocks.map (Block.backIn (s.arriving b)) }
    | .saved =>
      (match s.nextResume x.tag with
       | none => .next s
       | some u =>
         if !(u.any fun y => y.id == b) then .next s
         else
           match State.resumeUnit { s with free := s.free + 1 } (unitWidth u)
               ((s.resumePlaces u).getD (s.choice (s.resumePlaces u).length).1 0) u with
           | some s2 => .next s2
           | none => .next s)
    | _ => .next s := by
  have hexec : exec (.duskResume b) s = execDuskResume b s := rfl
  rw [hexec, execDuskResume, hx]
  rfl

theorem duskResume_stays (h : x.place = .resident ∨ x.place = .swapped ∨ x.place = .saved ∧ s.nextResume x.tag = none) :
    exec (.duskResume b) s = .next s := by
  rw [exec_duskResume hx]
  rcases h with h | h | ⟨h, hn⟩
  · rw [h]
  · rw [h]
  · rw [h, hn]

/-- A block on its way arrives, and goes on (R399). -/
theorem duskResume_arrives (h : x.place = .moving) : ∃ v y, exec (.duskResume b) s = .next v ∧ v.block? b = some y ∧ y.place = .resident ∧
    y.core = x.core ∧ y.halt = false ∧ y.ocache = [] ∧ x.SameRegs y ∧ ∀ t ∈ y.teams, t.run.ended = true := by
  have hin : (s.arriving b).contains x.id = true := by
    rw [State.block?_id hx, List.contains_iff_mem]
    exact subset_tiedUp _ _ _ b (List.mem_singleton_self b)
  refine ⟨{ s with blocks := s.blocks.map (Block.backIn (s.arriving b)) }, x.goOn, by rw [exec_duskResume hx, h], ?_, rfl, rfl, rfl, rfl,
    x.goOn_sameRegs, ?_⟩
  · rw [State.block?_of_map (s := s) rfl fun y => (y.backIn_moves _).id, hx]
    exact congrArg some (if_pos hin)
  · unfold Block.goOn
    exact List.forall_mem_map.2 fun _ _ => rfl

/-- A saved block that is a unit of its own, the context's first that can resume, takes a core (R399). -/
theorem duskResume_lands (hp : x.place = .saved) (hn : s.nextResume x.tag = some [x]) (hg : x.group = none) (hpt : x.partner = none) :
    ∃ v y, exec (.duskResume b) s = .next v ∧ v.block? b = some y ∧ y.place = .moving ∧ s.takes x y.core = true ∧
      (∀ m, s.moving = some m → y.core ∉ m.cores) ∧ y.core < 1024 ∧ x.SameRegs y := by
  have hw : unitWidth [x] = 1 := by simp [unitWidth, hg, hpt]
  have hne : (s.resumePlaces [x]).isEmpty = false := by simpa using List.find?_some hn
  obtain ⟨k, hk, hkm⟩ : ∃ k, (s.resumePlaces [x]).getD (s.choice (s.resumePlaces [x]).length).1 0 = k ∧ k ∈ s.resumePlaces [x] := by
    have hlen : 0 < (s.resumePlaces [x]).length := List.length_pos_iff.2 (by simpa using hne)
    have hlt : (s.choice (s.resumePlaces [x]).length).1 < (s.resumePlaces [x]).length := by
      unfold State.choice
      rw [if_neg (Nat.pos_iff_ne_zero.1 hlen)]
      exact Nat.mod_lt _ hlen
    exact ⟨_, List.getD_eq_getElem _ _ hlt, List.getElem_mem hlt⟩
  obtain ⟨hr, hsome⟩ := List.mem_filter.1 hkm
  rw [hw] at hr hsome
  have hunit (z : State) : z.resumeUnit 1 k [x] = if z.takes x k then some (z.resumeAt x k) else none := by
    unfold State.resumeUnit
    rw [Nat.mod_one, Nat.add_zero, Nat.one_mul]
    rfl
  have htakes : s.takes x k = true := by
    rw [hunit] at hsome
    by_contra hf
    rw [if_neg hf] at hsome
    cases hsome
  have hid := State.block?_id hx
  have hex : exec (.duskResume b) s = .next (State.resumeAt { s with free := s.free + 1 } x k) := by
    have htk : State.takes { s with free := s.free + 1 } x k = true := htakes
    rw [exec_duskResume hx, hp, hn]
    simp only [hw, hk, hunit, htk, List.any_cons, hid, beq_self_eq_true, Bool.true_or, Bool.not_true, Bool.false_eq_true, if_false, if_true]
  refine ⟨_, State.landing { s with free := s.free + 1 } k x, hex, ?_, rfl, htakes, State.takes_not_moving htakes, ?_, State.landing_sameRegs _ _ _⟩
  · rw [State.resumeAt_eq, hid]
    exact (State.block?_updBlock _ b (State.landing _ k) fun _ => rfl).trans (congrArg _ hx)
  · have : k < 1024 := by simpa using hr
    exact this

end

/-- The three words are words of the sequencer, with maps of 32 and 128 bytes (R395). -/
theorem exec_sequencer (h : Hd) (d a : BitVec 6) (s : State) : (∃ f, exec (.cswap h d a) s = s.moveWord d a 32 f) ∧
    (∃ f, exec (.dusk h d a) s = s.moveWord d a 128 f) ∧ ∃ f, exec (.duskRet h d a) s = s.moveWord d a 128 f := by
  have hcswap : exec (.cswap h d a) s = execCswap h d a s := rfl
  have hdusk : exec (.dusk h d a) s = execDusk h d a s := rfl
  have hret : exec (.duskRet h d a) s = execDuskRet h d a s := rfl
  rw [hcswap, hdusk, hret]
  exact ⟨⟨_, rfl⟩, ⟨_, rfl⟩, ⟨_, rfl⟩⟩

/-- Settles O52: the words of the sequencer through what each makes of a block (`State.swapIn`, `State.duskIn`), of which `Block.Moves` tells
what it keeps; a block's way back through the core that it is given (`State.landing`). -/
theorem blocksMoveToAndFromTheShadow : Obligations.BlocksMoveToAndFromTheShadow := by
  unfold Obligations.BlocksMoveToAndFromTheShadow
  refine ⟨fun h d a s b t hf => ?_, fun h d a s b t v hS => ?_, fun h d a s b t v hS => ?_, fun s b x hx => ?_⟩
  · obtain ⟨⟨f, hcswap⟩, ⟨g, hdusk⟩, k, hret⟩ := exec_sequencer h d a s
    rw [hcswap, hdusk, hret]
    refine ⟨fun hb => ?_, fun hb hm hv ho => ⟨fun hal => ?_, fun hal => ?_⟩, fun r l hb hm hr => State.moveWord_waits hf hb hm hr _⟩
    · exact ⟨State.moveWord_priv hf hb _, State.moveWord_priv hf hb _, State.moveWord_priv hf hb _⟩
    · exact State.moveWord_unaligned hf hb hm hv ho (by decide) hal _
    · exact ⟨State.moveWord_unaligned hf hb hm hv ho (by decide) hal _, State.moveWord_unaligned hf hb hm hv ho (by decide) hal _⟩
  · exact ⟨cswap_refused hS h, fun hne hdusk hpl hq => cswap_exchanges hS h hne hdusk hpl hq⟩
  · refine ⟨duskRet_gives hS h, fun new hnew => ?_⟩
    have hcores : new = s.duskNew v := hnew
    rw [hcores]
    exact ⟨dusk_refused hS h, dusk_saves hS h⟩
  · refine ⟨duskResume_stays hx, fun hp hn hg hpt => ?_, fun hp => ?_⟩
    · obtain ⟨v, y, he, hy, hyp, ht, hm, hc, hr⟩ := duskResume_lands hx hp hn hg hpt
      exact ⟨v, y, he, hy, hyp, ht, hm, hc, hr.spad, hr.chest, hr.teams⟩
    · obtain ⟨v, y, he, hy, hyp, hc, hh, ho, hr, ht⟩ := duskResume_arrives hx hp
      exact ⟨v, y, he, hy, hyp, hc, hh, ho, ⟨hr.spad, hr.chest, hr.teams⟩, ht⟩
/-! ### The end of a block (R33) -/

section
variable {s : State} {b : Nat} {x : Block}

/-- What the statement calls spent is what the model does. -/
theorem State.spent_of_spent (h : Spent s b x) : s.spent x = true := by
  obtain ⟨-, -, hteams, htiles, hcopies, hmsgs, hothers⟩ := h
  unfold State.spent
  simp only [Bool.and_eq_true, Bool.not_eq_true', List.all_eq_true, List.any_eq_false, hothers, and_true]
  refine ⟨⟨⟨fun t ht => ?_, fun z hz => ?_⟩, fun c hc => ?_⟩, fun m hm => ?_⟩
  · obtain ⟨he, hw, ho⟩ := hteams t ht
    simp [he, ho, Team.runDone, hw]
  · simp [htiles z hz]
  · simp [hcopies c hc]
  · simpa using hmsgs m hm

/-- A block that leaves, and nothing else of memory, contexts, trees or units (R33). -/
theorem State.removeBlock_eq (s : State) (b : Nat) :
    ∃ cs, s.removeBlock b = { s with cores := cs, blocks := s.blocks.filter fun z => z.id != b } := by
  unfold State.removeBlock
  split
  · next x _ =>
    obtain ⟨cs, hcs⟩ := s.leave_eq x
    exact ⟨cs, by rw [hcs]⟩
  · exact ⟨s.cores, rfl⟩

theorem State.dropHolds_of_nil (s : State) (h : x.holds = []) : s.dropHolds x = s := by
  unfold State.dropHolds
  rw [h]
  have hdrop : s.futDropAll [] = s := by
    unfold State.futDropAll State.futDrops
    rfl
  rw [hdrop]
  split <;> rfl

theorem State.endFuture_of_none (s : State) (h : x.future = none) : s.endFuture x = s := by
  unfold State.endFuture
  rw [h]
  split
  · rfl
  · split <;> rfl

theorem exec_blockEnd (h : s.block? b = some x) : exec (.blockEnd b) s =
    if (x.place != .resident || !s.spent x) = true then .next s
    else if x.bureau.isSome then .next (s.removeBlock b)
    else .next ((((s.endFuture x).removeBlock b).dropHolds x).countEnd x) := by
  have hexec : exec (.blockEnd b) s = execBlockEnd b s := rfl
  rw [hexec, execBlockEnd, h]

/-- A spent block that holds no future leaves and counts (R33). -/
theorem exec_blockEnd_spent (h : Spent s b x) (hb : x.bureau = none) (hh : x.holds = []) :
    exec (.blockEnd b) s = .next (((s.endFuture x).removeBlock b).countEnd x) := by
  rw [exec_blockEnd h.block, State.spent_of_spent h, h.here, hb, State.dropHolds_of_nil _ hh]
  rfl

/-- A spent block without a future leaves, with the cores' places given back, and counts. -/
theorem exec_blockEnd_plain (h : Spent s b x) (hb : x.bureau = none) (hf : x.future = none) (hh : x.holds = []) : ∃ cs,
    exec (.blockEnd b) s = .next (State.countEnd { s with cores := cs, blocks := s.blocks.filter fun z => z.id != b } x) := by
  obtain ⟨cs, hcs⟩ := s.removeBlock_eq b
  exact ⟨cs, by rw [exec_blockEnd_spent h hb hh, State.endFuture_of_none _ hf, hcs]⟩

theorem blockEnd_bureau (h : Spent s b x) (hb : x.bureau.isSome = true) :
    ∃ v : State, exec (.blockEnd b) s = .next v ∧ v.blocks = s.blocks.filter fun z => z.id != b := by
  obtain ⟨cs, hcs⟩ := s.removeBlock_eq b
  refine ⟨s.removeBlock b, ?_, by rw [hcs]⟩
  rw [exec_blockEnd h.block, State.spent_of_spent h, h.here, hb]
  rfl

/-- A block with something outstanding stays (R33). -/
theorem blockEnd_stays (h : s.block? b = some x) (ho : (∃ t ∈ x.teams, t.ended = false ∨ t.ops ≠ [] ∨ t.run.writes ≠ []) ∨
    (∃ z ∈ x.tiles, z.ops ≠ []) ∨ ∃ q ∈ s.copies, q.b = x.id) : exec (.blockEnd b) s = .next s := by
  have hspent : s.spent x = false := by
    rw [← Bool.not_eq_true]
    intro hs
    unfold State.spent at hs
    simp only [Bool.and_eq_true, Bool.not_eq_true', List.all_eq_true, List.any_eq_false] at hs
    obtain ⟨⟨⟨⟨hteams, htiles⟩, hcopies⟩, -⟩, -⟩ := hs
    rcases ho with ⟨t, ht, ho⟩ | ⟨z, hz, ho⟩ | ⟨q, hq, ho⟩
    · obtain ⟨⟨he, hr⟩, hops⟩ := hteams t ht
      rcases ho with ho | ho | ho
      · rw [he] at ho; cases ho
      · exact ho (List.isEmpty_iff.1 hops)
      · exact ho (List.isEmpty_iff.1 hr)
    · exact ho (List.isEmpty_iff.1 (htiles z hz))
    · exact hcopies q hq (by simp [Copy.names, ho])
  rw [exec_blockEnd h, hspent]
  exact if_pos (Bool.or_true _)

end

/-! ### A member of a level ends (R38, R43) -/

section
variable {c : Ctx} {k : Nat} {l : Level}

theorem Ctx.level?_slot (h : c.level? k = some l) : l.slot = k := by simpa using List.find?_some h

theorem Ctx.level?_putLevel (h : c.level? k = some l) (m : Level) (hm : m.slot = k) : (c.putLevel m).level? k = some m := by
  have := find?_updWhere_same (fun x : Level => x.slot == m.slot) (fun _ => m) c.levels fun _ _ => beq_self_eq_true m.slot
  rw [hm] at this
  unfold Ctx.level? Ctx.putLevel at *
  rw [hm, this, h]
  rfl

theorem Ctx.level?_putLevel_ne (c : Ctx) (m : Level) (hm : m.slot ≠ k) : (c.putLevel m).level? k = c.level? k := by
  refine find?_updWhere_other _ _ _ c.levels fun x hx => ?_
  have : x.slot = m.slot := by simpa using hx
  simp [this, hm]

/-- A level has completed, with a generation and a status word that its slot still holds or has left (R42, R43). -/
theorem leftStatus_putLevel {g : BitVec 32} {st : Dword} {j : Nat} {q m : Level} (h : leftStatus c k g st) (hq : c.level? j = some q)
    (hs : m.slot = q.slot) (hg : m.gen = q.gen) (hd : q.complete = true → m.complete = true ∧ m.status = q.status) :
    leftStatus (c.putLevel m) k g st := by
  have hj : m.slot = j := hs.trans (Ctx.level?_slot hq)
  rcases h with ⟨l, hl, hlg, hlc, hls⟩ | h
  · refine .inl ?_
    by_cases hkj : j = k
    · subst hkj
      obtain rfl := Option.some_inj.1 (hl.symm.trans hq)
      obtain ⟨hc, hst⟩ := hd hlc
      exact ⟨m, Ctx.level?_putLevel hq m hj, hg.trans hlg, hc, hst.trans hls⟩
    · exact ⟨l, (Ctx.level?_putLevel_ne c m (by rw [hj]; exact hkj)).trans hl, hlg, hlc, hls⟩
  · exact .inr h

/-- The slots that a level's end frees leave their status words behind (R42). -/
theorem leftStatus_dropSlots {g : BitVec 32} {st : Dword} (p : Level → Bool) (h : leftStatus c k g st) : leftStatus (c.dropSlots p) k g st := by
  rcases h with ⟨l, hl, hlg, hlc, hls⟩ | h
  · by_cases hp : p l = true
    · refine .inr (List.mem_append_right _ (List.mem_map.2 ⟨l, List.mem_filter.2 ⟨List.mem_of_find?_eq_some hl, hp⟩, ?_⟩))
      rw [Ctx.level?_slot hl, hlg, hls]
    · refine .inl ⟨l, ?_, hlg, hlc, hls⟩
      obtain ⟨hs, as, bs, hlv, has⟩ := List.find?_eq_some_iff_append.1 hl
      unfold Ctx.level? Ctx.dropSlots
      rw [hlv, List.filter_append, List.filter_cons_of_pos (by simpa using hp)]
      exact List.find?_eq_some_iff_append.2 ⟨hs, _, _, rfl, fun a ha => has a (List.mem_of_mem_filter ha)⟩
  · exact .inr (List.mem_append_left _ h)

/-- The slots that the end of a level frees (R42), for `Ctx.finish`. -/
def Ctx.freeBelow (c : Ctx) (j : Nat) (q : Level) : Ctx :=
  if q.auto then c.dropSlots fun x => c.below j x.slot else c.dropSlots fun x => x.parent == some j

theorem Ctx.freeBelow_tag (c : Ctx) (j : Nat) (q : Level) : (c.freeBelow j q).tag = c.tag := by
  unfold Ctx.freeBelow
  split <;> rfl

theorem leftStatus_freeBelow {g : BitVec 32} {st : Dword} (j : Nat) (q : Level) (h : leftStatus c k g st) :
    leftStatus (c.freeBelow j q) k g st := by
  unfold Ctx.freeBelow
  split
  · exact leftStatus_dropSlots _ h
  · exact leftStatus_dropSlots _ h

/-- One step of the completion of a level that is not complete: it completes, frees its slots, and ends in its parent (R38). -/
theorem Ctx.finish_succ (fuel : Nat) (w : Option Dword) (h : c.level? k = some l) (hn : l.complete = false) :
    Ctx.finish (fuel + 1) c k w =
      let c2 := (c.putLevel { l with complete := true, counter := 0, status := w.getD l.statusOf }).freeBelow k l
      match l.parent with
      | none => c2
      | some p =>
        match c2.level? p with
        | none => c2
        | some q =>
          let q1 := q.member ((w.getD l.statusOf).toNat % 4) none
          if q1.counter = 0 then Ctx.finish fuel (c2.putLevel q1) p none else c2.putLevel q1 := by
  rw [Ctx.finish, h]
  dsimp only
  rw [if_neg (by simp [hn])]
  rfl

/-- What every step of a completion keeps, a completion keeps. -/
theorem Ctx.finish_induction {p : Ctx → Prop} (hput : ∀ c j q m, p c → c.level? j = some q → m.slot = q.slot → m.gen = q.gen →
      (q.complete = true → m.complete = true ∧ m.status = q.status) → p (c.putLevel m))
    (hfree : ∀ c j q, p c → p (c.freeBelow j q)) (fuel : Nat) (c : Ctx) (j : Nat) (w : Option Dword) (h : p c) : p (Ctx.finish fuel c j w) := by
  induction fuel generalizing c j w with
  | zero => exact h
  | succ fuel ih =>
    cases hq : c.level? j with
    | none => unfold Ctx.finish; rw [hq]; exact h
    | some q =>
      cases hn : q.complete with
      | true => unfold Ctx.finish; simp only [hq, hn]; exact h
      | false =>
        rw [Ctx.finish_succ fuel w hq hn]
        have h2 := hfree _ j q (hput c j q { q with complete := true, counter := 0, status := w.getD q.statusOf } h hq rfl rfl fun hc => by
          rw [hn] at hc; cases hc)
        dsimp only
        split
        · exact h2
        · split
          · exact h2
          · next r hr =>
            have h3 := fun e => hput _ _ r (r.member e none) h2 hr rfl rfl fun hc => ⟨hc, rfl⟩
            split
            · exact ih _ _ _ (h3 _)
            · exact h3 _

theorem leftStatus_finish {g : BitVec 32} {st : Dword} (fuel : Nat) (j : Nat) (w : Option Dword) (h : leftStatus c k g st) :
    leftStatus (Ctx.finish fuel c j w) k g st :=
  Ctx.finish_induction (p := fun c => leftStatus c k g st) (fun _ _ _ _ h hq hs hg hd => leftStatus_putLevel h hq hs hg hd)
    (fun _ j q h => leftStatus_freeBelow j q h) fuel c j w h

theorem Ctx.finish_tag (fuel : Nat) (c : Ctx) (j : Nat) (w : Option Dword) : (Ctx.finish fuel c j w).tag = c.tag :=
  Ctx.finish_induction (p := fun x => x.tag = c.tag) (fun _ _ _ _ h _ _ _ _ => h) (fun _ _ _ h => (Ctx.freeBelow_tag ..).trans h) fuel c j w rfl

/-- A level that completes has the status word that its counts give (R43). -/
theorem leftStatus_close (h : c.level? k = some l) (hn : l.complete = false) : leftStatus (c.close k none) k l.gen l.statusOf := by
  unfold Ctx.close
  rw [Ctx.finish_succ _ none h hn]
  have hslot : l.slot = k := Ctx.level?_slot h
  have h1 : leftStatus (c.putLevel { l with complete := true, counter := 0, status := l.statusOf }) k l.gen l.statusOf :=
    .inl ⟨_, Ctx.level?_putLevel h _ hslot, rfl, rfl, rfl⟩
  have h2 := leftStatus_freeBelow k l h1
  dsimp only
  split
  · exact h2
  · split
    · exact h2
    · next r hr =>
      have h3 := fun e => leftStatus_putLevel (m := r.member e none) h2 hr rfl rfl fun hc => ⟨hc, rfl⟩
      split
      · exact leftStatus_finish _ _ _ (h3 _)
      · exact h3 _

/-- A member that is not the last: its level counts it (R38). -/
theorem Ctx.leave_open (h : c.level? k = some l) (hn : l.complete = false) (e : Nat) (low : Option Nat) (hc : 1 < l.counter) :
    (c.leave k e low).level? k = some (l.member e low) := by
  have hne : (l.member e low).counter ≠ 0 := by
    change l.counter - 1 ≠ 0
    omega
  have hslot : l.slot = k := Ctx.level?_slot h
  rw [Ctx.leave, h]
  dsimp only
  rw [if_neg (by simp [hn]), if_neg hne]
  exact Ctx.level?_putLevel h _ hslot

/-- The last member completes its level (R38, R43). -/
theorem Ctx.leave_last (h : c.level? k = some l) (hn : l.complete = false) (e : Nat) (low : Option Nat) (hc : l.counter ≤ 1) :
    leftStatus (c.leave k e low) k l.gen (l.member e low).statusOf := by
  have hz : (l.member e low).counter = 0 := by
    change l.counter - 1 = 0
    omega
  have hslot : l.slot = k := Ctx.level?_slot h
  rw [Ctx.leave, h]
  dsimp only
  rw [if_neg (by simp [hn]), if_pos hz]
  have hclose := leftStatus_close (Ctx.level?_putLevel h (l.member e low) hslot) hn
  exact hclose

theorem Ctx.leave_tag (c : Ctx) (k e : Nat) (low : Option Nat) : (c.leave k e low).tag = c.tag := by
  unfold Ctx.leave
  split
  · rfl
  · split
    · rfl
    · dsimp only
      split
      · exact Ctx.finish_tag _ _ _ _
      · rfl

/-- The fields of a status word (R43). -/
theorem Level.statusOf_fields (l : Level) : l.statusOf.toNat % 2 ^ 15 = l.endCode ∧ l.statusOf.toNat / 2 ^ 15 % 2 ^ 25 = l.ndone % 2 ^ 25 ∧
    l.statusOf.toNat / 2 ^ 40 = if l.kind = 1 ∧ (l.lkind = .flat ∨ l.lkind = .bin) then l.low.getD 0 % 2 ^ 24 else 0 := by
  have hend : l.endCode < 4 := by
    unfold Level.endCode
    split
    · omega
    · split
      · omega
      · split <;> omega
  unfold Level.statusOf
  dsimp only
  have hlow : ∀ low, low % 2 ^ 24 * 2 ^ 40 + l.ndone % 2 ^ 25 * 2 ^ 15 + l.endCode < 2 ^ 64 := fun low => by omega
  rw [BitVec.toNat_ofNat, Nat.mod_eq_of_lt (hlow _)]
  refine ⟨by omega, by omega, ?_⟩
  simp only [Bool.and_eq_true, Bool.or_eq_true, decide_eq_true_eq]
  split
  · omega
  · omega

end
/-! A block as a member of its level (R43). -/

/-- What a block's end adds to its level's counts (R43). -/
theorem Block.endsAs_done (x : Block) : x.endsAs.1 = 0 ↔ x.fault = none ∧ x.dying = false := by
  unfold Block.endsAs
  cases x.fault with
  | some _ => simp
  | none => cases x.dying <;> simp

theorem Block.endsAs_low (x : Block) (o : Option Nat) : optMin o x.endsAs.2 = lowR o x := by
  unfold Block.endsAs lowR
  cases x.fault with
  | some _ => cases o <;> rfl
  | none => cases x.dying <;> cases o <;> rfl

/-- A level whose member is block `x`, which has ended: it counts as done, or as one that is not (R43). -/
theorem Level.member_ndone (l : Level) (x : Block) :
    (l.member x.endsAs.1 x.endsAs.2).ndone = if x.fault = none ∧ x.dying = false then l.ndone + 1 else l.ndone := by
  unfold Level.member
  simp only [x.endsAs_done]
  split <;> rfl

theorem Level.member_endCode (l : Level) (x : Block) : (l.member x.endsAs.1 x.endsAs.2).endCode =
    if l.cancelled then 3 else if l.pfault then 2 else if l.bad = 0 ∧ x.fault = none ∧ x.dying = false then 0 else 1 := by
  unfold Level.member Level.endCode
  simp only [x.endsAs_done]
  by_cases hx : x.fault = none ∧ x.dying = false
  · simp [hx]
  · simp [hx]


section
variable {s : State} {b : Nat} {x : Block} {c : Ctx} {l : Level} (h : Spent s b x) (hb : x.bureau = none) (ht : x.tree = none)
  (hf : x.future = none) (hh : x.holds = []) (hc : s.ctx? x.tag = some c) (hl : c.level? x.slot = some l) (hn : l.complete = false)
include h hb ht hf hh hc

/-- A block of no tree leaves, and its level counts it (R33, R38). -/
theorem blockEnd_leaves : ∃ v : State, exec (.blockEnd b) s = .next v ∧ v.blocks = s.blocks.filter (fun z => z.id != b) ∧ v.mem = s.mem ∧
    v.ctx? x.tag = some (c.leave x.slot x.endsAs.1 x.endsAs.2) := by
  obtain ⟨cs, hex⟩ := exec_blockEnd_plain h hb hf hh
  have hcount (u : State) : u.countEnd x = u.updCtx x.tag fun c => c.leave x.slot x.endsAs.1 x.endsAs.2 := by
    unfold State.countEnd
    rw [ht]
    rfl
  rw [hcount] at hex
  refine ⟨_, hex, rfl, rfl, ?_⟩
  rw [State.ctx?_updCtx _ _ _ fun c => Ctx.leave_tag c _ _ _]
  exact congrArg _ hc

include hl hn

theorem blockEnd_counts (hm : 1 < l.counter) : ∃ v y k, exec (.blockEnd b) s = .next v ∧ v.blocks = s.blocks.filter (fun z => z.id != b) ∧
    v.mem = s.mem ∧ v.ctx? x.tag = some y ∧ y.level? x.slot = some k ∧ k.counter = l.counter - 1 ∧ k.complete = false ∧
    k.ndone = (if x.fault = none ∧ x.dying = false then l.ndone + 1 else l.ndone) ∧
    k.low = (if x.fault = none then l.low else some (match l.low with | some i => min i x.index | none => x.index)) := by
  obtain ⟨v, he, hbl, hmem, hctx⟩ := blockEnd_leaves h hb ht hf hh hc
  exact ⟨v, _, _, he, hbl, hmem, hctx, Ctx.leave_open hl hn _ _ hm, rfl, hn, l.member_ndone x, x.endsAs_low l.low⟩

theorem blockEnd_completes (hm : l.counter ≤ 1) : ∃ v y st, exec (.blockEnd b) s = .next v ∧
    v.blocks = s.blocks.filter (fun z => z.id != b) ∧ v.mem = s.mem ∧ v.ctx? x.tag = some y ∧ leftStatus y x.slot l.gen st ∧
    st.toNat % 2 ^ 15 = (if l.cancelled then 3 else if l.pfault then 2 else
      if l.bad = 0 ∧ x.fault = none ∧ x.dying = false then 0 else 1) ∧
    st.toNat / 2 ^ 15 % 2 ^ 25 = (if x.fault = none ∧ x.dying = false then l.ndone + 1 else l.ndone) % 2 ^ 25 ∧
    st.toNat / 2 ^ 40 = if l.kind = 1 ∧ (l.lkind = .flat ∨ l.lkind = .bin) then (lowR l.low x).getD 0 % 2 ^ 24 else 0 := by
  obtain ⟨v, he, hbl, hmem, hctx⟩ := blockEnd_leaves h hb ht hf hh hc
  obtain ⟨hend, hdone, hlow⟩ := (l.member x.endsAs.1 x.endsAs.2).statusOf_fields
  rw [l.member_endCode x] at hend
  rw [l.member_ndone x] at hdone
  have hlowR : (l.member x.endsAs.1 x.endsAs.2).low = lowR l.low x := x.endsAs_low l.low
  rw [hlowR] at hlow
  exact ⟨v, _, _, he, hbl, hmem, hctx, Ctx.leave_last hl hn _ _ hm, hend, hdone, hlow⟩

end
/-! ### The future of a block's task (R334, R335, R425) -/

/-- A write of memory looks at the caches and the line's tag first, none of which is memory, and writes its bytes (R401, R402). -/
theorem State.memWr_eq (s : State) (tag : Option (BitVec 12)) (pa : Nat) (bs : List Byte) : ∃ (u : State) (p : Spin → Bool),
    s.memWr tag pa bs = (u.pmWr pa bs).unspin p ∧ u.mem = s.mem ∧ u.migrations = s.migrations ∧ u.dies = s.dies := by
  refine ⟨_, _, rfl, ?_⟩
  have hfill : ∀ c line, let z := if c = true then { s with poison := s.poison.filter fun x => x != line } else s.fill tag line
      z.mem = s.mem ∧ z.migrations = s.migrations ∧ z.dies = s.dies := by
    intro c line
    dsimp only
    split
    · exact ⟨rfl, rfl, rfl⟩
    · unfold State.fill
      split
      · exact ⟨rfl, rfl, rfl⟩
      · exact ⟨rfl, rfl, rfl⟩
  have hroom : ∀ (z : State) line, (z.l2Room line).mem = z.mem ∧ (z.l2Room line).migrations = z.migrations ∧ (z.l2Room line).dies = z.dies := by
    intro z line
    unfold State.l2Room
    split
    · exact ⟨rfl, rfl, rfl⟩
    · dsimp only [State.choice]
      split
      · exact ⟨rfl, rfl, rfl⟩
      · split
        · exact ⟨rfl, rfl, rfl⟩
        · exact ⟨rfl, rfl, rfl⟩
  have haccess : ∀ (z : State) line, (z.l2Access tag line true).mem = z.mem ∧ (z.l2Access tag line true).migrations = z.migrations ∧
      (z.l2Access tag line true).dies = z.dies := by
    intro z line
    unfold State.l2Access
    split
    · exact ⟨rfl, rfl, rfl⟩
    · exact hroom z line
  obtain ⟨h1, h2, h3⟩ := hfill (decide (pa % 64 = 0) && decide (bs.length = 64)) (s.home pa / 64)
  obtain ⟨k1, k2, k3⟩ := haccess (if (decide (pa % 64 = 0) && decide (bs.length = 64)) = true then
    { s with poison := s.poison.filter fun x => x != s.home pa / 64 } else s.fill tag (s.home pa / 64)) (s.home pa / 64)
  exact ⟨k1.trans h1, k2.trans h2, k3.trans h3⟩

theorem State.memWr_dies (s : State) (tag : Option (BitVec 12)) (pa : Nat) (bs : List Byte) : (s.memWr tag pa bs).dies = s.dies := by
  obtain ⟨u, p, he, -, -, hd⟩ := s.memWr_eq tag pa bs
  rw [he, ← hd]
  unfold State.pmWr
  split <;> rfl

/-- With no line migrating, a write of memory writes its bytes where they are addressed. -/
theorem State.memWr_mem (s : State) (tag : Option (BitVec 12)) (pa : Nat) (bs : List Byte) (hm : s.migrations = []) :
    (s.memWr tag pa bs).mem = s.mem.wr pa bs := by
  obtain ⟨u, p, he, hmem, hmig, -⟩ := s.memWr_eq tag pa bs
  have hu : (u.pmWr pa bs).mem = u.mem.wr pa bs := by
    unfold State.pmWr
    rw [hmig, hm]
    rfl
  rw [he, ← hmem]
  exact hu

theorem State.unitWr_dies (s : State) (tag : Option (BitVec 12)) (pa : Nat) (bs : List Byte) : (s.unitWr tag pa bs).dies = s.dies := by
  unfold State.unitWr
  split
  · rfl
  · exact State.memWr_dies ..

/-- A unit's write that nothing holds is made at once (R425). -/
theorem State.unitWr_mem (s : State) (tag : Option (BitVec 12)) (pa : Nat) (bs : List Byte) (hh : s.held pa = false) (hq : s.unitQ = [])
    (hm : s.migrations = []) : (s.unitWr tag pa bs).mem = s.mem.wr pa bs := by
  unfold State.unitWr
  rw [hh, hq]
  exact State.memWr_mem s tag pa bs hm

theorem State.futWrite_dies (s : State) (g : Future) : (s.futWrite g).dies = s.dies := by
  unfold State.futWrite
  split
  next p s1 h =>
    rw [State.unitWr_dies]
    split at h
    · obtain ⟨-, rfl⟩ := Prod.mk.inj h; rfl
    · obtain ⟨-, rfl⟩ := Prod.mk.inj h; rfl

/-- A record that a write of a module's routing entry holds is not written yet (R425). -/
theorem State.futWrite_mem_of_held (s : State) (g : Future) (h : s.held g.addr = true) : (s.futWrite g).mem = s.mem := by
  unfold State.futWrite
  split
  next p s1 he =>
    split at he
    · obtain ⟨-, rfl⟩ := Prod.mk.inj he
      rw [State.unitWr_of_held _ _ h]
    · obtain ⟨-, rfl⟩ := Prod.mk.inj he
      rw [State.unitWr_of_held _ _ (show s.fresh.2.held g.addr = true from h)]
      rfl

theorem State.futWrite_mem (s : State) (g : Future) (hp : g.pcount < 2 ^ 16) (hh : s.held g.addr = false) (hq : s.unitQ = [])
    (hm : s.migrations = []) : (s.futWrite g).mem = s.mem.wr g.addr (g.bytes g.pcount) := by
  unfold State.futWrite
  rw [if_pos hp]
  exact State.unitWr_mem s _ _ _ hh hq hm

theorem bytesNat_append (l m : List Byte) : bytesNat (l ++ m) = bytesNat l + 256 ^ l.length * bytesNat m := by
  induction l with
  | nil => simp [bytesNat]
  | cons b l ih => rw [List.cons_append, bytesNat, ih, bytesNat, List.length_cons, Nat.pow_succ]; ring

theorem Future.bytes_length (f : Future) (p : Nat) : (f.bytes p).length = 32 := by
  simp [Future.bytes, natBytes_length]

/-- The record of a future as one value (R334). -/
theorem Future.bytesNat_bytes (f : Future) (p : Nat) (hp : p < 2 ^ 16) : bytesNat (f.bytes p) = f.value.toNat + f.task.toNat * 2 ^ 64 +
    (f.st.code + p * 2 ^ 20 + f.count % 2 ^ 16 * 2 ^ 36 + f.tag.toNat * 2 ^ 52) * 2 ^ 128 := by
  have hcode : f.st.code ≤ 3 := by cases f.st <;> decide
  have hv : f.value.toNat < 256 ^ 8 := f.value.isLt
  have ht : f.task.toNat < 256 ^ 8 := lt_of_lt_of_le f.task.isLt (by norm_num)
  have hg : f.tag.toNat < 2 ^ 12 := f.tag.isLt
  have hd : f.st.code + p * 2 ^ 20 + f.count % 2 ^ 16 * 2 ^ 36 + f.tag.toNat * 2 ^ 52 < 256 ^ 8 := by omega
  have hz : bytesNat (List.replicate 8 0#8) = 0 := by decide
  unfold Future.bytes
  simp only [bytesNat_append, bytesNat_natBytes, natBytes_length, List.length_append, hz, Nat.mod_eq_of_lt hv, Nat.mod_eq_of_lt ht,
    Nat.mod_eq_of_lt hd, Nat.mod_eq_of_lt hp]
  ring

/-! The state of a future. -/

theorem State.future?_of_entry {s : State} {e n i : Nat} {f : Future}
    (h : (s.die e).futures.find? (fun p => p.2.id == n && p.2.owner.isSome) = some (i, f)) : s.future? e n = some f := by
  unfold State.future?
  rw [h]

/-- The entry of a future that has been given another record of the same identity and owner (R330). -/
theorem State.entry_updFuture {s : State} {e n i : Nat} {f g : Future} (he : e < s.dies.length)
    (h : (s.die e).futures.find? (fun p => p.2.id == n && p.2.owner.isSome) = some (i, f)) (hid : g.id = f.id) (hown : g.owner = f.owner) :
    ((s.updFuture e n fun _ => g).die e).futures.find? (fun p => p.2.id == n && p.2.owner.isSome) = some (i, g) := by
  have hf := List.find?_some h
  unfold State.updFuture
  rw [State.die_updDie _ _ _ he]
  have := find?_updWhere_same (fun p : Nat × Future => p.2.id == n && p.2.owner.isSome) (fun p => (p.1, g)) (s.die e).futures
    fun _ _ => by rw [hid, hown]; exact hf
  rw [h] at this
  exact this

/-- Forgetting what nothing waits for leaves the entries of the futures. -/
theorem State.futures_futForget {s : State} {e : Nat} (he : e < s.dies.length) : ((s.futForget e).die e).futures = (s.die e).futures := by
  unfold State.futForget
  rw [State.die_updDie _ _ _ he]

/-- A future as its block's end leaves it: its state, its value and its PCOUNT (R335). -/
def Block.ended (x : Block) (f : Future) : Future :=
  { f with
    st := if x.fault ≠ none then .faulted else if x.dying then .reclaimed else .done
    value := if x.fault = none ∧ x.dying = false then x.value else 0#64
    pcount := x.pcount }

theorem State.endFuture_of_pending {s : State} {x : Block} {e n : Nat} {f : Future} (hx : x.future = some (e, n)) (hf : s.future? e n = some f)
    (hp : f.st = .pending) : s.endFuture x = ((s.updFuture e n fun _ => x.ended f).futWrite (x.ended f)).futForget e := by
  have hend (st : FState) (value : Dword) : s.futEnd (some (e, n)) st value x.pcount =
      ((s.updFuture e n fun _ => { f with st := st, value := value, pcount := x.pcount }).futWrite
        { f with st := st, value := value, pcount := x.pcount }).futForget e := by
    unfold State.futEnd
    simp only [hf, hp, if_true]
  unfold State.endFuture Block.ended
  rw [hx]
  cases hfault : x.fault with
  | some _ => simp only [hend]; simp
  | none =>
    cases hdying : x.dying with
    | true => simp only [hend]; simp
    | false => simp only [hend]; simp

/-- A task's future receives its state, value and PCOUNT, and its record them where no write of a routing entry holds it (R335, R425). -/
theorem blockEnd_future {s : State} {b : Nat} {x : Block} {e n i : Nat} {f : Future} (h : Spent s b x) (hb : x.bureau = none)
    (ht : x.tree = none) (hh : x.holds = []) (hx : x.future = some (e, n)) (he : e < s.dies.length)
    (hf : (s.die e).futures.find? (fun p => p.2.id == n && p.2.owner.isSome) = some (i, f)) (hp : f.st = .pending) :
    ∃ v : State, exec (.blockEnd b) s = .next v ∧ v.future? e n = some (x.ended f) ∧
      (s.held f.addr = false → s.unitQ = [] → s.migrations = [] → x.pcount < 2 ^ 16 →
        v.mem = s.mem.wr f.addr ((x.ended f).bytes x.pcount)) ∧
      (s.held f.addr = true → v.mem = s.mem) := by
  have hend := State.endFuture_of_pending hx (State.future?_of_entry hf) hp
  obtain ⟨cs, hcs⟩ := (s.endFuture x).removeBlock_eq b
  have hcount (u : State) : u.countEnd x = u.updCtx x.tag fun c => c.leave x.slot x.endsAs.1 x.endsAs.2 := by
    unfold State.countEnd
    rw [ht]
    rfl
  have hex := exec_blockEnd_spent h hb hh
  rw [hcs, hcount] at hex
  have hmem : (s.endFuture x).mem = ((s.updFuture e n fun _ => x.ended f).futWrite (x.ended f)).mem := by rw [hend]; rfl
  refine ⟨_, hex, ?_, fun h1 h2 h3 h4 => ?_, fun h1 => ?_⟩
  · refine State.future?_of_entry (i := i) ?_
    have hlen : e < ((s.updFuture e n fun _ => x.ended f).futWrite (x.ended f)).dies.length := by
      rw [State.futWrite_dies]
      exact (updAt_length _ _ _).symm ▸ he
    have hfut : ((s.endFuture x).die e).futures = ((s.updFuture e n fun _ => x.ended f).die e).futures := by
      rw [hend, State.futures_futForget hlen]
      unfold State.die
      rw [State.futWrite_dies]
    change ((s.endFuture x).die e).futures.find? _ = _
    rw [hfut]
    exact State.entry_updFuture he hf rfl rfl
  · change (s.endFuture x).mem = _
    rw [hmem]
    exact State.futWrite_mem (s.updFuture e n fun _ => x.ended f) (x.ended f) h4 h1 h2 h3
  · change (s.endFuture x).mem = _
    rw [hmem]
    exact State.futWrite_mem_of_held (s.updFuture e n fun _ => x.ended f) (x.ended f) h1
/-! ### Idle clusters ask for held dispatches (R363, R364) -/

section
variable {s : State} {c : Nat}

theorem stealRequest_none (h : (∃ d ∈ s.dispatches, d.held = some c) ∨ ∃ q ∈ s.steals, q.thief = c) :
    exec (.stealRequest c) s = .next s := by
  have hexec : exec (.stealRequest c) s = execStealRequest c s := rfl
  rw [hexec, execStealRequest]
  refine if_neg ?_
  simp only [State.idleCluster, Bool.and_eq_true, Bool.not_eq_true', List.any_eq_false, decide_eq_true_eq, beq_iff_eq]
  rintro ⟨⟨-, hd, -⟩, hq⟩
  rcases h with ⟨d, hm, hh⟩ | ⟨q, hm, hh⟩
  · exact hd d hm hh
  · exact hq q hm hh

theorem State.describe_eq (s : State) (k : Nat) :
    s.describe k = { s.coreFree k with tag := if k ∈ s.dusked then none else (s.coreFree k).tag } := by
  unfold State.describe
  by_cases h : k ∈ s.dusked
  · simp [h]
  · simp [h]

/-- The place in its list from which a cluster asks next (R363). -/
def askAt (s : State) (c : Nat) : Nat := ((entry? s.victims c).getD 0) % (victims c).length

/-- The request of an idle cluster (R363, R418). -/
def stealOf (s : State) (c : Nat) : Steal :=
  { thief := c, victim := (victims c).getD (askAt s c) 0, cores := (List.range 4).map fun j => s.describe (4 * c + j) }

theorem exec_stealRequest (hc : c < 256) (hd : ∀ d ∈ s.dispatches, d.held ≠ some c) (hq : ∀ q ∈ s.steals, q.thief ≠ c)
    (hfree : ∃ i, i < 4 ∧ 0 < (s.coreFree (4 * c + i)).teams) :
    exec (.stealRequest c) s = .next { s with
      steals := s.steals ++ [stealOf s c]
      victims := entryPut s.victims c ((askAt s c + 1) % (victims c).length) } := by
  have hexec : exec (.stealRequest c) s = execStealRequest c s := rfl
  have hidle : s.idleCluster c = true := by
    obtain ⟨i, hi, hfree⟩ := hfree
    simp only [State.idleCluster, Bool.and_eq_true, Bool.not_eq_true', List.any_eq_false, List.any_eq_true, beq_iff_eq, decide_eq_true_eq]
    exact ⟨hd, i, List.mem_range.2 hi, hfree⟩
  have hnone : (s.steals.any fun q => q.thief == c) = false := List.any_eq_false.2 fun q hm => by simpa using hq q hm
  rw [hexec, execStealRequest, hidle, hnone]
  exact if_pos (by simp [hc])

theorem stealRequest_asks (hc : c < 256) (hd : ∀ d ∈ s.dispatches, d.held ≠ some c) (hq : ∀ q ∈ s.steals, q.thief ≠ c)
    (hfree : ∃ i, i < 4 ∧ 0 < (s.coreFree (4 * c + i)).teams) :
    ∃ v q, exec (.stealRequest c) s = .next v ∧ v.steals = s.steals ++ [q] ∧ q.thief = c ∧ q.victim = (victims c).getD (askAt s c) 0 ∧
      (∀ j, j < 4 → q.cores[j]? = some { s.coreFree (4 * c + j) with
        tag := if 4 * c + j ∈ s.dusked then none else (s.coreFree (4 * c + j)).tag }) ∧
      entry? v.victims c = some ((askAt s c + 1) % (victims c).length) := by
  refine ⟨_, stealOf s c, exec_stealRequest hc hd hq hfree, rfl, rfl, rfl, fun j hj => ?_, ?_⟩
  · rw [stealOf, List.getElem?_map, List.getElem?_range hj, ← s.describe_eq]
    rfl
  · exact entry?_entryPut _ _ _

theorem stealReply_none (h : ∀ q ∈ s.steals, q.thief ≠ c) : exec (.stealReply c) s = .next s := by
  have hexec : exec (.stealReply c) s = execStealReply c s := rfl
  have hn : s.steals.find? (fun q => q.thief == c) = none := List.find?_eq_none.2 fun q hm => by simpa using h q hm
  rw [hexec, execStealReply, hn]

end

/-! The order in which held dispatches are given (R73, R364): nodes by rising index first. -/

/-- The index of the node that a dispatch is for. -/
def Dispatch.nodeIdx (d : Dispatch) : Nat := d.node.getD 0

/-- A dispatch put in its place among nodes of rising index. -/
def insertNode (d : Dispatch) (r : List Dispatch) : List Dispatch :=
  r.filter (fun x => decide (x.node.getD 0 < d.node.getD 0)) ++ [d] ++ r.filter fun x => decide (d.node.getD 0 ≤ x.node.getD 0)

theorem mem_insertNode {d y : Dispatch} {r : List Dispatch} : y ∈ insertNode d r ↔ y = d ∨ y ∈ r := by
  simp only [insertNode, List.mem_append, List.mem_filter, List.mem_singleton, decide_eq_true_eq]
  constructor
  · rintro ((⟨h, -⟩ | h) | ⟨h, -⟩)
    · exact .inr h
    · exact .inl h
    · exact .inr h
  · rintro (h | h)
    · exact .inl (.inr h)
    · rcases Nat.lt_or_ge (y.node.getD 0) (d.node.getD 0) with hlt | hge
      · exact .inl (.inl ⟨h, hlt⟩)
      · exact .inr ⟨h, hge⟩

theorem insertNode_sorted {d : Dispatch} {r : List Dispatch} (h : r.Pairwise fun a b => a.nodeIdx ≤ b.nodeIdx) :
    (insertNode d r).Pairwise fun a b => a.nodeIdx ≤ b.nodeIdx := by
  unfold insertNode
  rw [List.append_assoc, List.pairwise_append]
  refine ⟨h.filter _, List.pairwise_cons.2 ⟨fun b hb => ?_, h.filter _⟩, fun a ha b hb => ?_⟩
  · exact of_decide_eq_true (List.mem_filter.1 hb).2
  · have hlt : a.nodeIdx < d.nodeIdx := of_decide_eq_true (List.mem_filter.1 ha).2
    rcases List.mem_cons.1 hb with rfl | hb
    · exact Nat.le_of_lt hlt
    · have hge : d.nodeIdx ≤ b.nodeIdx := of_decide_eq_true (List.mem_filter.1 hb).2
      omega

/-- The nodes among held dispatches, in rising order. -/
def heldNodes (l : List Dispatch) : List Dispatch := (l.filter fun d => d.kind = .node).foldr insertNode []

theorem orderHeld_eq (l : List Dispatch) : orderHeld l = heldNodes l ++ l.filter fun d => d.kind != .node := rfl

theorem mem_heldNodes {l : List Dispatch} {y : Dispatch} : y ∈ heldNodes l ↔ y ∈ l ∧ y.kind = .node := by
  have h : ∀ m : List Dispatch, y ∈ m.foldr insertNode [] ↔ y ∈ m := by
    intro m
    induction m with
    | nil => rfl
    | cons d m ih => rw [List.foldr_cons, mem_insertNode, ih, List.mem_cons]
  rw [heldNodes, h, List.mem_filter, decide_eq_true_eq]

theorem heldNodes_sorted (l : List Dispatch) : (heldNodes l).Pairwise fun a b => a.nodeIdx ≤ b.nodeIdx := by
  unfold heldNodes
  induction l.filter fun d => d.kind = .node with
  | nil => exact .nil
  | cons d m ih => exact insertNode_sorted ih

theorem mem_orderHeld {l : List Dispatch} {y : Dispatch} (h : y ∈ orderHeld l) : y ∈ l := by
  rw [orderHeld_eq, List.mem_append] at h
  exact h.elim (fun h => (mem_heldNodes.1 h).1) List.mem_of_mem_filter

/-- Where a node is held, the first dispatch in the order is a node of the least index. -/
theorem orderHeld_head {l : List Dispatch} {d : Dispatch} (h : d ∈ l) (hk : d.kind = .node) :
    ∃ e m, orderHeld l = e :: m ∧ e ∈ l ∧ e.kind = .node ∧ e.nodeIdx ≤ d.nodeIdx := by
  have hd : d ∈ heldNodes l := mem_heldNodes.2 ⟨h, hk⟩
  rw [orderHeld_eq]
  cases hm : heldNodes l with
  | nil => rw [hm] at hd; cases hd
  | cons e m =>
    have hs := heldNodes_sorted l
    have he : e ∈ heldNodes l := hm ▸ List.mem_cons_self
    rw [hm] at hd hs
    refine ⟨e, _, rfl, (mem_heldNodes.1 he).1, (mem_heldNodes.1 he).2, ?_⟩
    rcases List.mem_cons.1 hd with rfl | hd
    · exact Nat.le_refl _
    · exact (List.pairwise_cons.1 hs).1 d hd
/-! The reply to a request (R364). -/

/-- Whether a held dispatch may be given to the cluster that asks: its victim holds it, and it fits a core told of. -/
def Steal.may (q : Steal) (d : Dispatch) : Prop :=
  d.held = some q.victim ∧ d.flying = false ∧ ∃ k ∈ q.cores, k.tag = some d.tag ∧ k.fits d.shape = true

/-- The dispatches that a request may be answered with. -/
def Steal.offered (q : Steal) (l : List Dispatch) : List Dispatch :=
  l.filter fun d => d.held == some q.victim && !d.flying && q.takes d

/-- The dispatches that a request is answered with: the first four of those. -/
def Steal.given (q : Steal) (l : List Dispatch) : List Dispatch := (orderHeld (q.offered l)).take 4

/-- A dispatch given to cluster `c`, on its way (R364). -/
def Dispatch.givenTo (d : Dispatch) (c : Nat) : Dispatch := { d with held := some c, flying := true }

/-- A dispatch as the reply leaves it. -/
def Dispatch.replied (d : Dispatch) (give : List Nat) (c : Nat) : Dispatch := if give.contains d.id then d.givenTo c else d

theorem Steal.mem_offered {q : Steal} {l : List Dispatch} {d : Dispatch} : d ∈ q.offered l ↔ d ∈ l ∧ q.may d := by
  simp [Steal.offered, Steal.may, Steal.takes, List.mem_filter, and_assoc]

theorem Steal.may_of_given {q : Steal} {l : List Dispatch} {d : Dispatch} (h : d ∈ q.given l) : d ∈ l ∧ q.may d :=
  Steal.mem_offered.1 (mem_orderHeld (List.mem_of_mem_take h))

/-- Dispatches that differ have ids that differ. -/
theorem eq_of_id_eq {l : List Dispatch} (h : (l.map fun d => d.id).Nodup) {d e : Dispatch} (hd : d ∈ l) (he : e ∈ l) (hid : d.id = e.id) : d = e :=
  List.inj_on_of_nodup_map h hd he hid

theorem Steal.given_of_id {q : Steal} {l : List Dispatch} (h : (l.map fun d => d.id).Nodup) {d : Dispatch} (hd : d ∈ l)
    (hid : d.id ∈ (q.given l).map fun d => d.id) : d ∈ q.given l := by
  obtain ⟨e, he, hed⟩ := List.mem_map.1 hid
  exact eq_of_id_eq h (Steal.may_of_given he).1 hd hed ▸ he

/-- The least node that may be given is the first given, or another of its index is. -/
theorem Steal.given_least {q : Steal} {l : List Dispatch} {d : Dispatch} (hd : d ∈ l) (hm : q.may d) (hk : d.kind = .node)
    (hleast : ∀ e ∈ l, q.may e → e.kind = .node → d.nodeIdx ≤ e.nodeIdx) :
    ∃ e ∈ q.given l, e ∈ l ∧ q.may e ∧ e.kind = .node ∧ e.nodeIdx = d.nodeIdx := by
  obtain ⟨e, m, ho, he, hek, hle⟩ := orderHeld_head (Steal.mem_offered.2 ⟨hd, hm⟩) hk
  obtain ⟨hel, hem⟩ := Steal.mem_offered.1 he
  refine ⟨e, ?_, hel, hem, hek, Nat.le_antisymm hle (hleast e hel hem hek)⟩
  rw [Steal.given, ho, List.take_succ_cons]
  exact List.mem_cons_self

/-- A reply changes four dispatches at most. -/
theorem replied_countP {l : List Dispatch} {give : List Nat} (h : (l.map fun d => d.id).Nodup) (hg : give.length ≤ 4) (c : Nat) :
    l.countP (fun d => decide (d ∉ l.map fun d => d.replied give c)) ≤ 4 := by
  have hsub : (l.filter fun d => decide (d ∉ l.map fun d => d.replied give c)).map (fun d => d.id) ⊆ give := by
    intro i hi
    obtain ⟨d, hd, rfl⟩ := List.mem_map.1 hi
    obtain ⟨hl, hd⟩ := List.mem_filter.1 hd
    by_contra hn
    refine of_decide_eq_true hd (List.mem_map.2 ⟨d, hl, if_neg ?_⟩)
    simpa using hn
  have hnodup : ((l.filter fun d => decide (d ∉ l.map fun d => d.replied give c)).map fun d => d.id).Nodup :=
    h.sublist (List.filter_sublist.map _)
  have hle := (List.subperm_of_subset hnodup hsub).length_le
  rw [List.length_map] at hle
  rw [List.countP_eq_length_filter]
  exact hle.trans hg

section
variable {s : State} {c : Nat} {q : Steal} (h : s.steals.find? (fun y => y.thief = c) = some q)
include h

theorem exec_stealReply : exec (.stealReply c) s = .next { s with
    steals := s.steals.filter fun x => x.thief != c
    dispatches := s.dispatches.map fun d => d.replied ((q.given s.dispatches).map fun d => d.id) c } := by
  have hexec : exec (.stealReply c) s = execStealReply c s := rfl
  have hf : s.steals.find? (fun y => y.thief == c) = some q := h
  rw [hexec, execStealReply, hf]
  rfl

theorem stealReply_gives (hn : (s.dispatches.map fun d => d.id).Nodup) :
    ∃ v : State, exec (.stealReply c) s = .next v ∧ (∀ y ∈ v.steals, y.thief ≠ c) ∧ v.dispatches.length = s.dispatches.length ∧
      (∀ (i : Nat) (d : Dispatch), s.dispatches[i]? = some d → v.dispatches[i]? = some d ∨
        (q.may d ∧ v.dispatches[i]? = some (d.givenTo c))) ∧
      (s.dispatches.countP (fun d => decide (d ∉ v.dispatches)) ≤ 4) ∧
      (∀ d ∈ s.dispatches, q.may d → d.kind = .node → (∀ e ∈ s.dispatches, q.may e → e.kind = .node → d.nodeIdx ≤ e.nodeIdx) →
        d.givenTo c ∈ v.dispatches ∨ ∃ e ∈ s.dispatches, e ≠ d ∧ q.may e ∧ e.kind = .node ∧ e.nodeIdx = d.nodeIdx) := by
  refine ⟨_, exec_stealReply h, fun y hy => ?_, List.length_map _, fun i d hi => ?_, ?_, fun d hd hm hk hleast => ?_⟩
  · simpa using (List.mem_filter.1 hy).2
  · have hv : (s.dispatches.map fun d => d.replied ((q.given s.dispatches).map fun d => d.id) c)[i]? =
        some (d.replied ((q.given s.dispatches).map fun d => d.id) c) := by rw [List.getElem?_map, hi]; rfl
    by_cases hg : d.id ∈ (q.given s.dispatches).map fun d => d.id
    · have hgiven := Steal.given_of_id hn (List.mem_of_getElem? hi) hg
      exact .inr ⟨(Steal.may_of_given hgiven).2, hv.trans (congrArg some (if_pos (List.contains_iff_mem.2 hg)))⟩
    · exact .inl (hv.trans (congrArg some (if_neg fun hc => hg (List.contains_iff_mem.1 hc))))
  · refine replied_countP hn ?_ c
    rw [List.length_map]
    exact List.length_take_le _ _
  · obtain ⟨e, heg, hel, hem, hek, hidx⟩ := Steal.given_least hd hm hk hleast
    by_cases hed : e = d
    · have hid : d.id ∈ (q.given s.dispatches).map fun d => d.id := List.mem_map.2 ⟨d, hed ▸ heg, rfl⟩
      exact .inl (List.mem_map.2 ⟨d, hd, if_pos (List.contains_iff_mem.2 hid)⟩)
    · exact .inr ⟨e, hel, hed, hem, hek, hidx⟩

end

theorem donatedDispatchArrival_arrives (s : State) (d : Nat) : ∃ v : State, exec (.donatedDispatchArrival d) s = .next v ∧
    v.blocks = s.blocks ∧ v.dispatches = s.dispatches.map fun x => if x.id = d then { x with flying := false } else x := by
  have hexec : exec (.donatedDispatchArrival d) s = execDonatedDispatchArrival d s := rfl
  refine ⟨_, hexec, rfl, List.map_congr_left fun x _ => ?_⟩
  by_cases hid : x.id = d
  · cases hx : x.flying with
    | true => simp [hid]
    | false => cases x; simp_all
  · simp [hid]
/-! ### What the events of a sweep keep (R71, R72, R77) -/

/-- A node as a sweep goes on: its doom is what it was, and so is its state where it has ended (R71). -/
structure Node.Stays (x y : Node) : Prop where
  doomed : y.doomed = x.doomed
  st : x.st.final = true → y.st = x.st

/-- A launch as its sweep goes on. -/
structure Tree.Keeps (t u : Tree) : Prop where
  id : u.id = t.id
  node : ∀ n, Option.Rel Node.Stays (nodeOf t.nodes n) (nodeOf u.nodes n)

/-- A launch as its sweep goes on, with what its Shelf entries hold; no entry is taken. -/
structure Tree.Settles (t u : Tree) : Prop extends Tree.Keeps t u where
  shelf : u.shelf = t.shelf
  cut : u.cutRunning = t.cutRunning
  free : t.free ⊆ u.free

section
variable {t u v : Tree}

theorem Node.Stays.refl (x : Node) : x.Stays x := ⟨rfl, fun _ => rfl⟩

theorem Node.Stays.trans {x y z : Node} (h : x.Stays y) (k : y.Stays z) : x.Stays z :=
  ⟨k.doomed.trans h.doomed, fun hx => (k.st (by rw [h.st hx]; exact hx)).trans (h.st hx)⟩

theorem Tree.Keeps.refl (t : Tree) : t.Keeps t :=
  ⟨rfl, fun n => by cases nodeOf t.nodes n with
    | none => exact .none
    | some x => exact .some (.refl x)⟩

theorem Tree.Keeps.trans (h : t.Keeps u) (k : u.Keeps v) : t.Keeps v := by
  refine ⟨k.id.trans h.id, fun n => ?_⟩
  have hn := h.node n
  have kn := k.node n
  cases ht : nodeOf t.nodes n with
  | none =>
    rw [ht] at hn
    cases hu : nodeOf u.nodes n with
    | none => rw [hu] at kn; exact kn
    | some y => rw [hu] at hn; cases hn
  | some x =>
    rw [ht] at hn
    cases hu : nodeOf u.nodes n with
    | none => rw [hu] at hn; cases hn
    | some y =>
      rw [hu] at hn kn
      cases hv : nodeOf v.nodes n with
      | none => rw [hv] at kn; cases kn
      | some z =>
        rw [hv] at kn
        cases hn with
        | some hxy => cases kn with
          | some hyz => exact .some (hxy.trans hyz)

theorem Tree.Settles.refl (t : Tree) : t.Settles t := ⟨.refl t, rfl, rfl, List.Subset.refl _⟩

theorem Tree.Settles.trans (h : t.Settles u) (k : u.Settles v) : t.Settles v :=
  ⟨h.toKeeps.trans k.toKeeps, k.shelf.trans h.shelf, k.cut.trans h.cut, fun _ ha => k.free (h.free ha)⟩

/-- A node that has ended keeps its state. -/
theorem Tree.Keeps.ended (h : t.Keeps u) {n : Nat} {x : Node} (hx : nodeOf t.nodes n = some x) (hf : x.st.final = true) :
    ∃ y, nodeOf u.nodes n = some y ∧ y.st = x.st := by
  have hn := h.node n
  rw [hx] at hn
  cases hu : nodeOf u.nodes n with
  | none => rw [hu] at hn; cases hn
  | some y =>
    rw [hu] at hn
    cases hn with
    | some hxy => exact ⟨y, rfl, hxy.st hf⟩

/-- A node that is found after is found before, with the same doom. -/
theorem Tree.Keeps.doom (h : t.Keeps u) {n : Nat} {y : Node} (hy : nodeOf u.nodes n = some y) :
    ∃ x, nodeOf t.nodes n = some x ∧ y.doomed = x.doomed := by
  have hn := h.node n
  rw [hy] at hn
  cases ht : nodeOf t.nodes n with
  | none => rw [ht] at hn; cases hn
  | some x =>
    rw [ht] at hn
    cases hn with
    | some hxy => exact ⟨x, rfl, hxy.doomed⟩

theorem nodeOf_map {ns : List Node} {f : Node → Node} (hf : ∀ x, (f x).idx = x.idx) (n : Nat) :
    nodeOf (ns.map f) n = (nodeOf ns n).map f := by
  unfold nodeOf
  rw [List.find?_map]
  have : (fun x : Node => x.idx == n) ∘ f = fun x => x.idx == n := funext fun x => by simp [hf]
  rw [this]

theorem nodeOf_idx {ns : List Node} {n : Nat} {x : Node} (h : nodeOf ns n = some x) : x.idx = n := by simpa using List.find?_some h

/-- Nodes changed in place, none of them in its number. -/
theorem Tree.Keeps.of_map (f : Node → Node) (hid : u.id = t.id) (hn : u.nodes = t.nodes.map f) (hf : ∀ x, (f x).idx = x.idx)
    (hs : ∀ n x, nodeOf t.nodes n = some x → x.Stays (f x)) : t.Keeps u := by
  refine ⟨hid, fun n => ?_⟩
  rw [hn, nodeOf_map hf]
  cases hx : nodeOf t.nodes n with
  | none => exact .none
  | some x => exact .some (hs n x hx)

/-- What one event keeps, a list of them keeps. -/
theorem Tree.Settles.foldl {α : Type} {f : Tree → α → Tree} (h : ∀ (t : Tree) (a : α), t.Settles (f t a)) (l : List α) (t : Tree) :
    t.Settles (l.foldl f t) :=
  List.foldlRecOn l f (motive := fun u => t.Settles u) (.refl t) fun u hu a _ => hu.trans (h u a)

theorem Tree.nodeOf_upd (t : Tree) {f : Node → Node} (hf : ∀ x, (f x).idx = x.idx) (n m : Nat) :
    nodeOf (t.upd n f).nodes m = (nodeOf t.nodes m).map fun x => if x.idx == n then f x else x :=
  nodeOf_map (fun x => by split; exacts [hf x, rfl]) m

/-- A node that has not ended, or not in its state, is changed. -/
theorem Tree.settles_upd (t : Tree) (n : Nat) {f : Node → Node} (hf : ∀ x, (f x).idx = x.idx)
    (hs : ∀ x, nodeOf t.nodes n = some x → x.Stays (f x)) : t.Settles (t.upd n f) := by
  refine ⟨.of_map (fun x => if x.idx == n then f x else x) rfl rfl (fun x => ?_) fun m x hx => ?_, rfl, rfl, List.Subset.refl _⟩
  · split
    exacts [hf x, rfl]
  · by_cases hm : x.idx = n
    · rw [if_pos (beq_iff_eq.2 hm)]
      have hmn : m = n := (nodeOf_idx hx).symm.trans hm
      exact hs x (hmn ▸ hx)
    · rw [if_neg (by simpa using hm)]
      exact .refl x

/-! Entries freed. -/

theorem Node.stays_dropEntry (x : Node) (e : Nat) : x.Stays (x.dropEntry e) := ⟨rfl, fun _ => rfl⟩

theorem Tree.settles_freeEntry (t : Tree) (e : Nat) : t.Settles (t.freeEntry e) := by
  refine ⟨.of_map (fun x => x.dropEntry e) rfl rfl (fun _ => rfl) fun _ x _ => x.stays_dropEntry e, rfl, rfl, fun a ha => ?_⟩
  simp only [Tree.freeEntry]
  split
  · exact ha
  · rcases Nat.lt_trichotomy a e with hlt | heq | hgt
    · simp [ha, hlt]
    · simp [heq]
    · simp [ha, hgt]

theorem Tree.mem_freeEntry (t : Tree) (e : Nat) : e ∈ (t.freeEntry e).free := by
  simp only [Tree.freeEntry]
  split
  · next h => exact List.contains_iff_mem.1 h
  · simp

theorem Tree.settles_freeSubtree (t : Tree) (n : Nat) : t.Settles (t.freeSubtree n) :=
  Tree.Settles.foldl Tree.settles_freeEntry _ t

/-- The entry of a child freed, where it has one (R72, R75). -/
def Tree.freeChild (t : Tree) (c : Nat) : Tree :=
  match nodeOf t.nodes c with
  | some y => (match y.entry with | some e => t.freeEntry e | none => t)
  | none => t

theorem Tree.freeOthers_eq (t : Tree) (x : Node) : t.freeOthers x = (x.order.drop 1).foldl Tree.freeChild t := rfl

theorem Tree.settles_freeChild (t : Tree) (c : Nat) : t.Settles (t.freeChild c) := by
  unfold Tree.freeChild
  split
  · split
    · exact t.settles_freeEntry _
    · exact .refl t
  · exact .refl t

theorem Tree.settles_freeOthers (t : Tree) (x : Node) : t.Settles (t.freeOthers x) := by
  rw [t.freeOthers_eq]
  exact Tree.Settles.foldl Tree.settles_freeChild _ t

/-- An entry that is free, or that a node of a launch holds: freed with the node's, if not before. -/
def Tree.Gives (t : Tree) (c e : Nat) : Prop := e ∈ t.free ∨ ∃ z, nodeOf t.nodes c = some z ∧ z.entry = some e

theorem Tree.Gives.freeChild {c e : Nat} (h : t.Gives c e) (a : Nat) : (t.freeChild a).Gives c e := by
  unfold Tree.freeChild
  split
  · split
    · next f _ =>
      rcases h with h | ⟨z, hz, he⟩
      · exact .inl ((t.settles_freeEntry f).free h)
      · by_cases hef : e = f
        · exact .inl (hef ▸ t.mem_freeEntry e)
        · refine .inr ⟨z.dropEntry f, ?_, ?_⟩
          · have := nodeOf_map (ns := t.nodes) (f := fun x => x.dropEntry f) (fun _ => rfl) c
            rw [hz] at this
            exact this
          · exact (if_neg (by rw [he]; simpa using hef)).trans he
    · exact h
  · exact h

theorem Tree.Gives.mem_free {c e : Nat} (h : t.Gives c e) : e ∈ (t.freeChild c).free := by
  rcases h with h | ⟨z, hz, he⟩
  · exact (t.settles_freeChild c).free h
  · rw [Tree.freeChild, hz]
    dsimp only
    rw [he]
    exact t.mem_freeEntry e

theorem Tree.Gives.mem_free_foldl {c e : Nat} {l : List Nat} (h : t.Gives c e) (hc : c ∈ l) : e ∈ (l.foldl Tree.freeChild t).free := by
  induction l generalizing t with
  | nil => cases hc
  | cons a l ih =>
    rw [List.foldl_cons]
    rcases List.mem_cons.1 hc with rfl | hc
    · exact (Tree.Settles.foldl Tree.settles_freeChild l _).free h.mem_free
    · exact ih (h.freeChild a) hc

/-! Nodes that become ready, and releases (R71, R77). -/

theorem Tree.settles_readyUp (t : Tree) : t.Settles t.readyUp := by
  refine ⟨.of_map _ rfl rfl (fun x => ?_) fun _ x _ => ?_, rfl, rfl, List.Subset.refl _⟩
  · split
    · rfl
    · rfl
  · split
    · next h =>
      have hst : x.st = .opened := by
        simp only [Bool.and_eq_true, decide_eq_true_eq] at h
        exact h.1.1
      exact ⟨rfl, fun hf => by rw [hst] at hf; cases hf⟩
    · exact .refl x

theorem Tree.settles_release (fuel : Nat) (t : Tree) : t.Settles (Tree.release fuel t) := by
  induction fuel generalizing t with
  | zero => exact .refl t
  | succ fuel ih =>
    unfold Tree.release
    split
    · next x _ =>
      have hsub := t.settles_freeSubtree x.idx
      have hrel := (t.freeSubtree x.idx).settles_upd x.idx (f := fun y => { y with released := true }) (fun _ => rfl)
        fun _ _ => ⟨rfl, fun _ => rfl⟩
      exact (hsub.trans hrel).trans (ih _)
    · exact .refl t

/-! Opening passes (R72, R76). -/

/-- The child that a node would open is not open yet. -/
theorem Tree.nextChild_unopened {x : Node} {c : Nat} (h : t.nextChild x = some c) : t.stOf c = .unopened := by
  have hst := List.find?_some h
  exact of_decide_eq_true hst

theorem Tree.settles_tryOpen (t : Tree) (n : Nat) : t.Settles (t.tryOpen n).1 := by
  unfold Tree.tryOpen
  split
  · exact .refl t
  · next x _ =>
    split
    · exact .refl t
    · next c hc =>
      split
      · exact .refl t
      · next y hy =>
        dsimp only
        have hst : y.st = .unopened := by
          have := Tree.nextChild_unopened hc
          rw [Tree.stOf, hy] at this
          exact this
        have hopen (e : Node → Option Nat) : t.Settles (t.upd c fun y => { y with budget := y.need, st := t.openState y, entry := e y }) := by
          refine t.settles_upd c (fun _ => rfl) fun z hz => ⟨rfl, fun hf => ?_⟩
          have hzy : z = y := Option.some_inj.1 (hz.symm.trans hy)
          rw [hzy, hst] at hf
          cases hf
        have hrefuse : t.Settles (t.upd n fun x => { x with refused := true }) :=
          t.settles_upd n (fun _ => rfl) fun _ _ => ⟨rfl, fun _ => rfl⟩
        by_cases hsum : if t.down then t.held x + t.open' x + y.need ≤ x.budget + 1 else t.held x + t.open' x + y.need ≤ x.budget
        · rw [if_pos hsum]
          exact hopen _
        · rw [if_neg hsum]
          exact hrefuse

theorem Tree.settles_passLoop (fuel : Nat) (t : Tree) : t.Settles (Tree.passLoop fuel t) := by
  induction fuel generalizing t with
  | zero => exact .refl t
  | succ fuel ih =>
    have hround (ns : List Nat) : t.Settles
        (ns.foldl (fun (p : Tree × Bool) n => ((p.1.tryOpen n).1, p.2 || (p.1.tryOpen n).2)) (t, false)).1 :=
      List.foldlRecOn ns _ (motive := fun p : Tree × Bool => t.Settles p.1) (.refl t) fun p hp n _ => hp.trans (p.1.settles_tryOpen n)
    have hfirst := hround ((t.nodes.filter fun x => t.opens x && (t.nextChild x).isSome).map fun x => x.idx)
    unfold Tree.passLoop
    dsimp only
    split
    · next h =>
      rw [h] at hfirst
      exact hfirst.trans (ih _)
    · next h =>
      rw [h] at hfirst
      exact hfirst

theorem Tree.settles_pass (t : Tree) : t.Settles t.pass.1 := by
  have hclear : t.Settles { t with nodes := t.nodes.map fun x => { x with refused := false } } :=
    ⟨.of_map _ rfl rfl (fun _ => rfl) fun _ _ _ => ⟨rfl, fun _ => rfl⟩, rfl, rfl, List.Subset.refl _⟩
  have hcount : ∀ (t1 : Tree) (ids : List Nat),
      t1.Settles { t1 with nodes := t1.nodes.map fun x => if ids.contains x.idx then { x with counted := true } else x } := by
    refine fun t1 ids => ⟨.of_map _ rfl rfl (fun x => ?_) fun _ x _ => ?_, rfl, rfl, List.Subset.refl _⟩
    · split
      · rfl
      · rfl
    · split
      · exact ⟨rfl, fun _ => rfl⟩
      · exact .refl x
  exact (hclear.trans (Tree.settles_passLoop _ _)).trans (hcount _ _)

theorem State.settleTree_of_cancelled (s : State) (h : t.cancelled = true) :
    s.settleTree t = s.putTree (if t.sweepOver then { t with phase := .ending } else t) := by
  unfold State.settleTree
  rw [h]
  rfl

theorem State.settleTree_of_sweeping (s : State) {n : Nat} (hc : t.cancelled = false)
    (hp : (if t.down then t else Tree.release t.nodes.length t.readyUp).pass = (u, n)) : ∃ ds, s.settleTree t =
      State.putTree { s with dies := ds } (if u.sweepOver then { u with phase := .ending, capstall := u.capstall + n }
        else { u with capstall := u.capstall + n }) := by
  unfold State.settleTree
  simp only [hc, hp, Bool.false_eq_true, if_false]
  exact ⟨_, rfl⟩

/-- The launch that an event of a sweep leaves, told of a cancelled one (R79). -/
def Tree.SettledTo (t u : Tree) : Prop :=
  t.Settles u ∧ (t.cancelled = true → u = if t.sweepOver then { t with phase := .ending } else t)

/-- An event of a sweep settles: only dies and its launch change. -/
theorem State.settleTree_to (s : State) (t : Tree) : ∃ ds u, s.settleTree t = State.putTree { s with dies := ds } u ∧ t.SettledTo u := by
  cases hc : t.cancelled with
  | true =>
    refine ⟨s.dies, _, s.settleTree_of_cancelled hc, ?_, fun _ => rfl⟩
    split
    · exact ⟨⟨rfl, (Tree.Keeps.refl t).node⟩, rfl, rfl, List.Subset.refl _⟩
    · exact .refl t
  | false =>
    have hup : t.Settles (if t.down then t else Tree.release t.nodes.length t.readyUp) := by
      split
      · exact .refl t
      · exact t.settles_readyUp.trans (Tree.settles_release _ _)
    have hpass := hup.trans (Tree.settles_pass _)
    cases hp : (if t.down then t else Tree.release t.nodes.length t.readyUp).pass with
    | mk u n =>
      rw [hp] at hpass
      obtain ⟨ds, hds⟩ := s.settleTree_of_sweeping hc hp
      refine ⟨ds, _, hds, hpass.trans ?_, fun h => by rw [hc] at h; cases h⟩
      split
      · exact ⟨⟨rfl, (Tree.Keeps.refl u).node⟩, rfl, rfl, List.Subset.refl _⟩
      · exact ⟨⟨rfl, (Tree.Keeps.refl u).node⟩, rfl, rfl, List.Subset.refl _⟩

end
/-! ### A node's block ends (R75 to R79) -/

/-- The nodes of a launch at the fault of node `n`, whose ancestors `anc` are doomed (R77). -/
def faultedNode (n : Nat) (anc : List Nat) (x : Node) : Node :=
  if x.idx = n then { x with st := .faulted } else if anc.contains x.idx then { x with doomed := true } else x

/-- A launch with node `y` faulted and poison in its entry, before any entry is freed (R20, R77). -/
def Tree.poisoned (t : Tree) (y : Node) (c : Cause) : Tree :=
  { t with
    shelf := match y.entry with | some e => t.shelf.set e (poisonRec y.idx c) | none => t.shelf
    nodes := t.nodes.map (faultedNode y.idx (if t.down then [] else ancestors t.nodes t.nodes.length y.idx)) }

/-- A launch with node `y` cut by a cancel while it ran (R79). -/
def Tree.cutNode (t : Tree) (y : Node) : Tree :=
  { (t.upd y.idx fun x => { x with st := .faulted }) with cutRunning := t.cutRunning ++ [y.idx] }

/-- A launch at the end of the block of node `y`. -/
def Tree.nodeEnded (t : Tree) (y : Node) (x : Block) : Tree :=
  match x.fault with
  | some (c, _, _) => t.faultNode y.idx c
  | none => if x.dying then t.cutNode y else if t.down then t.doneDown y else t.doneUp y

section
variable {t u : Tree} {y : Node}

theorem Tree.find?_idx {n : Nat} (hy : nodeOf t.nodes n = some y) : nodeOf t.nodes y.idx = some y := by
  rw [nodeOf_idx hy]
  exact hy

theorem Tree.nodeOf_setSt (t : Tree) (st : NState) (n m : Nat) : nodeOf (t.upd n fun x => { x with st := st }).nodes m =
    (nodeOf t.nodes m).map fun x => if x.idx == n then { x with st := st } else x :=
  t.nodeOf_upd (f := fun x => { x with st := st }) (fun _ => rfl) n m

theorem faultedNode_idx (n : Nat) (anc : List Nat) (x : Node) : (faultedNode n anc x).idx = x.idx := by
  unfold faultedNode
  split
  · rfl
  · split
    · rfl
    · rfl

theorem Tree.nodeOf_poisoned (t : Tree) (y : Node) (c : Cause) (n : Nat) : nodeOf (t.poisoned y c).nodes n =
    (nodeOf t.nodes n).map (faultedNode y.idx (if t.down then [] else ancestors t.nodes t.nodes.length y.idx)) :=
  nodeOf_map (faultedNode_idx _ _) n

/-- A fault: the node, its poison and the dooms, then entries that are freed. -/
theorem Tree.settles_faultNode (c : Cause) (hy : nodeOf t.nodes y.idx = some y) : (t.poisoned y c).Settles (t.faultNode y.idx c) := by
  have heq : t.faultNode y.idx c = if t.down then (t.poisoned y c).freeSubtree y.idx else
      match nodeOf (t.poisoned y c).nodes y.idx with | some x => (t.poisoned y c).freeOthers x | none => t.poisoned y c := by
    unfold Tree.faultNode Tree.poisoned
    rw [hy]
    rfl
  rw [heq]
  split
  · exact Tree.settles_freeSubtree _ _
  · split
    · exact Tree.settles_freeOthers _ _
    · exact .refl _

/-- A node's ancestors, as far as they are told of, are among those that its fault dooms. -/
theorem mem_ancestors {n : Nat} {l : List Nat} {fuel : Nat} (h : parentsR t n l) (hlen : l.length ≤ fuel) :
    ∀ m ∈ l, m ∈ ancestors t.nodes fuel n := by
  induction l generalizing n fuel with
  | nil => exact fun m hm => by cases hm
  | cons p l ih =>
    obtain ⟨⟨x, hx, hp⟩, hl⟩ := h
    cases fuel with
    | zero => cases hlen
    | succ fuel =>
      have hx : nodeOf t.nodes n = some x := hx
      have hanc : ancestors t.nodes (fuel + 1) n = p :: ancestors t.nodes fuel p := by
        rw [ancestors, hx]
        dsimp only
        rw [hp]
      rw [hanc]
      intro m hm
      rcases List.mem_cons.1 hm with rfl | hm
      · exact List.mem_cons_self
      · exact List.mem_cons_of_mem _ (ih hl (Nat.le_of_succ_le_succ hlen) m hm)

/-- The ancestors of a faulted node are doomed in an upward sweep (R77). -/
theorem Tree.poisoned_dooms {c : Cause} (hd : t.down = false) {l : List Nat} (hl : parentsR t y.idx l) (hlen : l.length ≤ t.nodes.length)
    {m : Nat} (hm : m ∈ l) (hne : m ≠ y.idx) {z : Node} (hz : nodeOf (t.poisoned y c).nodes m = some z) : z.doomed = true := by
  rw [Tree.nodeOf_poisoned, hd] at hz
  obtain ⟨x, hx, rfl⟩ := Option.map_eq_some_iff.1 hz
  have hmx := nodeOf_idx hx
  unfold faultedNode
  rw [if_neg (by rw [hmx]; exact hne), hmx, if_pos]
  exact List.contains_iff_mem.2 (mem_ancestors hl hlen m hm)

/-- The poison in a faulted node's entry (R20; log entry 13). -/
theorem Tree.shelfAt_poisoned {e : Nat} (he : y.entry = some e) (hs : hasEntry t e) (c : Cause) {w : Nat} (hw : w < 8) :
    shelfAt (t.poisoned y c) e w = if w = 0 then BitVec.ofNat 64 y.idx else if w = 1 then BitVec.ofNat 64 c.code else 0#64 := by
  obtain ⟨r, hr, -⟩ := hs
  have hlt : e < t.shelf.length := (List.getElem?_eq_some_iff.1 hr).1
  have hshelf : (t.poisoned y c).shelf = t.shelf.set e (poisonRec y.idx c) := by
    unfold Tree.poisoned
    rw [he]
  have hentry : (t.shelf.set e (poisonRec y.idx c)).getD e [] = poisonRec y.idx c := by
    rw [List.getD_eq_getElem?_getD, List.getElem?_set_self hlt, Option.getD_some]
  rw [shelfAt, hshelf, hentry]
  interval_cases w <;> rfl

/-! A node that is done (R75, R76). -/

/-- Node `n` of a launch is done. -/
def Tree.Done (t : Tree) (n : Nat) : Prop := ∃ y, nodeOf t.nodes n = some y ∧ y.st = .done

theorem Tree.Keeps.done (h : t.Keeps u) {n : Nat} (hd : t.Done n) : u.Done n := by
  obtain ⟨y, hy, hst⟩ := hd
  obtain ⟨z, hz, hzst⟩ := h.ended hy (by rw [hst]; rfl)
  exact ⟨z, hz, hzst.trans hst⟩

theorem Tree.done_upd (hy : nodeOf t.nodes y.idx = some y) : (t.upd y.idx fun x => { x with st := .done }).Done y.idx := by
  refine ⟨{ y with st := .done }, ?_, rfl⟩
  rw [t.nodeOf_setSt, hy, Option.map_some, if_pos (beq_self_eq_true _)]

theorem Tree.keeps_childEntry (t : Tree) (x : Node) (pos : Nat) : t.Keeps (t.childEntry x pos).2 := by
  have hset (es : List (Option Nat) → List (Option Nat)) : t.Keeps (t.upd x.idx fun y => { y with entries := es y.entries }) :=
    (t.settles_upd x.idx (f := fun y => { y with entries := es y.entries }) (fun _ => rfl) fun _ _ => ⟨rfl, fun _ => rfl⟩).toKeeps
  unfold Tree.childEntry
  split
  · exact .refl t
  · split
    · exact hset fun l => l.set pos x.entry
    · split
      · next e es _ =>
        exact ⟨rfl, (hset fun l => l.set pos (some e)).node⟩
      · exact .refl t

theorem Tree.doneDown_done (hy : nodeOf t.nodes y.idx = some y) : (t.doneDown y).id = t.id ∧ (t.doneDown y).Done y.idx := by
  have hkeep : (t.upd y.idx fun x => { x with st := .done }).Keeps (t.doneDown y) := by
    unfold Tree.doneDown
    dsimp only
    split
    · split
      · exact (Tree.settles_freeEntry _ _).toKeeps
      · exact .refl _
    · refine List.foldlRecOn _ _ (motive := fun u => (t.upd y.idx fun x => { x with st := .done }).Keeps u) (.refl _) fun u hu pos _ => ?_
      split
      · exact hu
      · next z _ =>
        have hz := hu.trans (u.keeps_childEntry z pos)
        split
        · next e t2 h2 =>
          rw [h2] at hz
          split
          · exact ⟨hz.id, hz.node⟩
          · exact hz
        · next t2 h2 =>
          rw [h2] at hz
          exact hz
  exact ⟨hkeep.id, hkeep.done (Tree.done_upd hy)⟩

theorem Tree.doneUp_done (hy : nodeOf t.nodes y.idx = some y) : (t.doneUp y).id = t.id ∧ (t.doneUp y).Done y.idx := by
  have hkeep := Tree.settles_freeOthers (t.upd y.idx fun x => { x with st := .done }) y
  exact ⟨hkeep.id, hkeep.done (Tree.done_upd hy)⟩

/-- The entries of a done node's children but the first are freed (R75). -/
theorem Tree.doneUp_frees {c e : Nat} {z : Node} (hc : c ∈ y.order.drop 1) (hz : nodeOf t.nodes c = some z) (he : z.entry = some e) :
    e ∈ (t.doneUp y).free := by
  have hgives : (t.upd y.idx fun x => { x with st := .done }).Gives c e := by
    refine .inr ⟨_, (t.nodeOf_setSt .done y.idx c).trans (by rw [hz]; rfl), ?_⟩
    dsimp only
    split
    · exact he
    · exact he
  exact hgives.mem_free_foldl hc

/-! A node that a cancel cut (R79). -/

theorem Tree.nodeOf_cutNode (hy : nodeOf t.nodes y.idx = some y) : nodeOf (t.cutNode y).nodes y.idx = some { y with st := .faulted } := by
  have := t.nodeOf_setSt .faulted y.idx y.idx
  rw [hy, Option.map_some, if_pos (beq_self_eq_true _)] at this
  exact this

theorem Tree.doomSame_cutNode (t : Tree) (y : Node) : doomSame t (t.cutNode y) := by
  intro n a b ha hb
  have hn := t.nodeOf_setSt .faulted y.idx n
  have ha : nodeOf t.nodes n = some a := ha
  rw [ha] at hn
  have hb := Option.some_inj.1 (hn.symm.trans hb)
  rw [← hb]
  dsimp only
  split
  · rfl
  · rfl

theorem Tree.Keeps.doomSame (h : t.Keeps u) {v : Tree} (hv : doomSame v t) : doomSame v u := by
  intro n a b ha hb
  obtain ⟨x, hx, hbx⟩ := h.doom hb
  exact hbx.trans (hv n a x ha hx)

/-- A cancelled sweep is over once no other node runs (R79). -/
theorem Tree.sweepOver_cutNode (hc : t.cancelled = true) :
    (t.cutNode y).sweepOver = true ↔ ∀ z ∈ t.nodes, z.st = .running → z.idx = y.idx := by
  have hover : (t.cutNode y).sweepOver = (t.cutNode y).nodes.all fun x => x.st != .running := by
    unfold Tree.sweepOver
    exact if_pos hc
  have hnodes : (t.cutNode y).nodes = updWhere (fun x => x.idx == y.idx) (fun x => { x with st := .faulted }) t.nodes := rfl
  rw [hover, List.all_eq_true, hnodes, forall_mem_updWhere]
  refine forall₂_congr fun z _ => ?_
  by_cases hz : z.idx = y.idx
  · simp [hz]
  · simp [hz]

end
/-! ### The end of a node's block, for its launch and its level (R38, R75 to R79) -/

/-- A launch put in its place is the one of its identity. -/
theorem launchIs_putTree {s : State} {l : Nat} {u : Tree} (h : ∃ x ∈ s.trees, x.id = l) (hu : u.id = l) {p : Tree → Prop} (hp : p u) :
    launchIs (s.putTree u) l p := by
  obtain ⟨x, hx, hxl⟩ := h
  refine ⟨⟨u, List.mem_map.2 ⟨x, hx, if_pos (beq_iff_eq.2 (hxl.trans hu.symm))⟩, hu⟩, ?_⟩
  unfold State.putTree
  refine forall_mem_updWhere.2 fun z _ => ?_
  by_cases hz : z.id = u.id
  · rw [if_pos (beq_iff_eq.2 hz)]
    exact fun _ => hp
  · rw [if_neg (by simpa using hz)]
    exact fun hzl => absurd (hzl.trans hu.symm) hz

theorem Ctx.nodeLeave_tag (c : Ctx) (k : Nat) : (c.nodeLeave k).tag = c.tag := by
  unfold Ctx.nodeLeave
  split
  · rfl
  · rfl

theorem Ctx.level?_nodeLeave {c : Ctx} {k : Nat} {l : Level} (h : c.level? k = some l) :
    (c.nodeLeave k).level? k = some { l with counter := max 1 (l.counter - 1) } := by
  unfold Ctx.nodeLeave
  rw [h]
  have hslot := Ctx.level?_slot h
  exact Ctx.level?_putLevel h _ hslot

section
variable {s : State} {b : Nat} {x : Block} {t : Tree} {y : Node}

/-- A node's block counts in its launch: as one member fewer, and as an event of the sweep. -/
theorem State.countEnd_node (h : nodeBlock s x t y) :
    s.countEnd x = (s.updCtx t.tag fun c => c.nodeLeave t.slot).settleTree (t.nodeEnded y x) := by
  obtain ⟨l, n, htree, hnode, ht, hy⟩ := h
  have hy : nodeOf t.nodes n = some y := hy
  have hyn : y.idx = n := nodeOf_idx hy
  rw [State.countEnd, htree]
  unfold State.nodeEnd
  rw [htree, hnode]
  dsimp only
  rw [ht]
  dsimp only
  rw [hy]
  unfold Tree.nodeEnded Tree.cutNode
  rw [hyn]
  cases x.fault with
  | some f => rfl
  | none =>
    cases x.dying with
    | true => rfl
    | false => rfl

/-- What an end of a node's block leaves: the launch settled, and the level with one member fewer (R38). -/
structure NodeLeft (s v : State) (b : Nat) (t : Tree) (u : Tree) : Prop where
  blocks : v.blocks = s.blocks.filter fun z => z.id != b
  mem : v.mem = s.mem
  launch : ∀ {p : Tree → Prop}, p u → launchIs v t.id p
  counter : ∀ c l, s.ctx? t.tag = some c → c.level? t.slot = some l →
    ∃ d k, v.ctx? t.tag = some d ∧ d.level? t.slot = some k ∧ k.counter = max 1 (l.counter - 1)

theorem nodeOf_of_nodeBlock (h : nodeBlock s x t y) : nodeOf t.nodes y.idx = some y := by
  obtain ⟨-, n, -, -, -, hy⟩ := h
  exact Tree.find?_idx (n := n) hy

theorem Tree.nodeEnded_id (hy : nodeOf t.nodes y.idx = some y) (x : Block) : (t.nodeEnded y x).id = t.id := by
  unfold Tree.nodeEnded
  split
  · next c _ _ _ => exact (Tree.settles_faultNode c hy).id
  · split
    · rfl
    · split
      · exact (Tree.doneDown_done hy).1
      · exact (Tree.doneUp_done hy).1

theorem blockEnd_node (h : Spent s b x) (hb : x.bureau = none) (hf : x.future = none) (hh : x.holds = []) (hn : nodeBlock s x t y) :
    ∃ v u, exec (.blockEnd b) s = .next v ∧ NodeLeft s v b t u ∧ (t.nodeEnded y x).SettledTo u := by
  obtain ⟨cs, hex⟩ := exec_blockEnd_plain h hb hf hh
  have hn' : nodeBlock { s with cores := cs, blocks := s.blocks.filter fun z => z.id != b } x t y := hn
  rw [State.countEnd_node hn'] at hex
  obtain ⟨ds, u, hs, hu⟩ := State.settleTree_to (State.updCtx { s with cores := cs, blocks := s.blocks.filter fun z => z.id != b } t.tag
    fun c => c.nodeLeave t.slot) (t.nodeEnded y x)
  rw [hs] at hex
  obtain ⟨l, -, -, -, ht, -⟩ := id hn
  refine ⟨_, u, hex, ⟨rfl, rfl, fun hp => ?_, fun c k hc hk => ?_⟩, hu⟩
  · exact launchIs_putTree ⟨t, List.mem_of_find?_eq_some ht, rfl⟩ (hu.1.id.trans (Tree.nodeEnded_id (nodeOf_of_nodeBlock hn) x)) hp
  · refine ⟨c.nodeLeave t.slot, _, ?_, Ctx.level?_nodeLeave hk, rfl⟩
    have hctx := State.ctx?_updCtx s t.tag (fun c => c.nodeLeave t.slot) fun c => Ctx.nodeLeave_tag c _
    rw [hc] at hctx
    exact hctx

/-! The three ends of a node: done, faulted, cut (R75, R77, R79). -/

section
variable {u : Tree} (hy : nodeOf t.nodes y.idx = some y) (hu : (t.nodeEnded y x).SettledTo u)
include hy hu

theorem nodeEnded_done (hf : x.fault = none) (hd : x.dying = false) :
    (∃ z, nodeOf u.nodes y.idx = some z ∧ z.st = .done) ∧ (t.down = false → ∀ c ∈ y.order.drop 1, ∀ z e,
      nodeOf t.nodes c = some z → z.entry = some e → e ∈ u.free) := by
  have hend : t.nodeEnded y x = if t.down then t.doneDown y else t.doneUp y := by
    unfold Tree.nodeEnded
    rw [hf, hd]
    rfl
  obtain ⟨hs, -⟩ := hu
  rw [hend] at hs
  cases hdown : t.down with
  | true =>
    rw [hdown] at hs
    exact ⟨hs.done (Tree.doneDown_done hy).2, fun h => by cases h⟩
  | false =>
    rw [hdown] at hs
    exact ⟨hs.done (Tree.doneUp_done hy).2, fun _ c hc z e hz he => hs.free (Tree.doneUp_frees hc hz he)⟩

theorem nodeEnded_faulted {k : Cause} {pc : BitVec 56} {i : Nat} (hf : x.fault = some (k, pc, i)) :
    (∃ z, nodeOf u.nodes y.idx = some z ∧ z.st = .faulted) ∧
    (∀ e, y.entry = some e → hasEntry t e → ∀ w, w < 8 →
      shelfAt u e w = if w = 0 then BitVec.ofNat 64 y.idx else if w = 1 then BitVec.ofNat 64 k.code else 0#64) ∧
    (t.down = false → ∀ l, parentsR t y.idx l → l.length ≤ t.nodes.length → ∀ m ∈ l, m ≠ y.idx → ∀ z,
      nodeOf u.nodes m = some z → z.doomed = true) := by
  have hend : t.nodeEnded y x = t.faultNode y.idx k := by
    unfold Tree.nodeEnded
    rw [hf]
  obtain ⟨hs, -⟩ := hu
  rw [hend] at hs
  have hpois := (Tree.settles_faultNode k hy).trans hs
  refine ⟨?_, fun e he hent w hw => ?_, fun hdown l hl hlen m hm hne z hz => ?_⟩
  · have hnode := t.nodeOf_poisoned y k y.idx
    rw [hy, Option.map_some, faultedNode, if_pos rfl] at hnode
    exact hpois.ended hnode rfl
  · rw [shelfAt, hpois.shelf]
    exact Tree.shelfAt_poisoned he hent k hw
  · obtain ⟨a, ha, hza⟩ := hpois.doom hz
    exact hza.trans (Tree.poisoned_dooms hdown hl hlen hm hne ha)

theorem nodeEnded_cut (hf : x.fault = none) (hd : x.dying = true) :
    (∃ z, nodeOf u.nodes y.idx = some z ∧ z.st = .faulted) ∧ u.cutRunning = t.cutRunning ++ [y.idx] ∧ u.shelf = t.shelf ∧ doomSame t u ∧
    (t.cancelled = true → (∀ z ∈ t.nodes, z.st = .running → z.idx = y.idx) → u.phase = .ending) ∧
    (t.cancelled = true → (∃ z ∈ t.nodes, z.st = .running ∧ z.idx ≠ y.idx) → u.phase = t.phase) := by
  have hend : t.nodeEnded y x = t.cutNode y := by
    unfold Tree.nodeEnded
    rw [hf, hd]
    rfl
  obtain ⟨hs, hcut⟩ := hu
  rw [hend] at hs hcut
  refine ⟨hs.ended (Tree.nodeOf_cutNode hy) rfl, hs.cut, hs.shelf, hs.doomSame (t.doomSame_cutNode y), fun hc hall => ?_, fun hc hex => ?_⟩
  · rw [hcut hc, if_pos ((Tree.sweepOver_cutNode hc).2 hall)]
  · obtain ⟨z, hz, hst, hne⟩ := hex
    rw [hcut hc, if_neg fun h => hne ((Tree.sweepOver_cutNode hc).1 h z hz hst)]
    rfl

end

end
/-! The record of a future (R334), read back. -/

/-- The record of a future that its block's end has written: its 32 bytes, and no other byte of memory. -/
theorem Future.record_written {m v : Memory} {g : Future} {p : Nat} (hv : v = m.wr g.addr (g.bytes p)) (hp : p < 2 ^ 16) :
    v.rdN g.addr 32 = g.value.toNat + g.task.toNat * 2 ^ 64 + (g.st.code + p * 2 ^ 20 + g.count % 2 ^ 16 * 2 ^ 36 + g.tag.toNat * 2 ^ 52) * 2 ^ 128 ∧
      ∀ a, a < g.addr ∨ g.addr + 32 ≤ a → v.rd a = m.rd a := by
  have hlen := g.bytes_length p
  refine ⟨?_, fun a ha => ?_⟩
  · have hread : v.bytes g.addr 32 = g.bytes p := by
      rw [hv, ← hlen]
      exact Memory.bytes_wr _ _ _
    rw [Memory.rdN, hread, Future.bytesNat_bytes g p hp]
  · rw [hv]
    exact m.rd_wr_out _ (g.bytes p) a (by rw [hlen]; exact ha)

theorem FState.code_eq (x : FState) :
    x.code = match x with | .pending => 0 | .done => 1 | .faulted => 2 | .reclaimed => 3 := by
  cases x <;> rfl

/-- Settles O47: each end of a block goes through `exec_blockEnd`; a level counts it by `Ctx.leave`, a launch by an event of its sweep that
keeps ended nodes, dooms and Shelf contents (`Tree.Settles`); a steal is the first four of the held dispatches in order. -/
theorem blocksEndAndDispatchesMove : Obligations.BlocksEndAndDispatchesMove := by
  unfold Obligations.BlocksEndAndDispatchesMove
  refine ⟨fun s b x c l h hb ht hf hh hc hl hn hm => blockEnd_counts h hb ht hf hh hc hl hn hm,
    fun s b x c l h hb ht hf hh hc hl hn hm => blockEnd_completes h hb ht hf hh hc hl hn hm,
    fun s b x e n i f h hb ht hh hx he hf hp => ?_, fun s b x t y h hb hf hh hn => ?_,
    fun s b x h hb => blockEnd_bureau h hb, fun s b x h ho => blockEnd_stays h ho,
    fun s c => ⟨stealRequest_none, fun hc hd hq hfree => stealRequest_asks hc hd hq hfree⟩, fun s c h => stealReply_none h,
    fun s c q h hn => stealReply_gives h hn, donatedDispatchArrival_arrives⟩
  case refine_1 =>
    obtain ⟨v, hex, hfut, hmem, hheld⟩ := blockEnd_future h hb ht hh hx he hf hp
    refine ⟨v, x.ended f, hex, hfut, rfl, fun h1 h2 h3 h4 => ?_, hheld⟩
    obtain ⟨hrec, hother⟩ := Future.record_written (g := x.ended f) (hmem h1 h2 h3 h4) h4
    rw [FState.code_eq] at hrec
    exact ⟨hrec, hother⟩
  case refine_2 =>
    obtain ⟨v, u, hex, hleft, hu⟩ := blockEnd_node h hb hf hh hn
    have hy := nodeOf_of_nodeBlock hn
    refine ⟨v, hex, hleft.blocks, hleft.mem, fun hf hd => ?_, fun k pc i hf => ?_, fun hf hd => ?_, hleft.counter⟩
    · exact hleft.launch (nodeEnded_done hy hu hf hd)
    · exact hleft.launch (nodeEnded_faulted hy hu hf)
    · exact hleft.launch (nodeEnded_cut hy hu hf hd)

end Sys2Proof.Machine
end

section
/-! PROOFS. Tree launches (03_tree_launch.md): the census and its walk, the Shelf, opening passes, the dispatch of nodes and the end of a
launch. -/

namespace Sys2Proof.Machine
open Sys2Proof.Claims

-- As in the proofs above: one thread for each theorem of this part would exceed the limits of the check.
set_option Elab.async false

/-! ### Needs and opening orders (R68) -/

section
variable {need : Nat → Nat} {l cs : List Nat} {c : Nat}

/-- A child put into an opening order: behind those of at least its need (R68). -/
def insertChild (need : Nat → Nat) (l : List Nat) (c : Nat) : List Nat :=
  l.takeWhile (fun x => decide (need c ≤ need x)) ++ [c] ++ l.dropWhile fun x => decide (need c ≤ need x)

theorem openingOrder_append (need : Nat → Nat) (cs : List Nat) (c : Nat) :
    openingOrder need (cs ++ [c]) = insertChild need (openingOrder need cs) c := by
  unfold openingOrder
  rw [List.foldl_append]
  rfl

theorem insertChild_perm (need : Nat → Nat) (l : List Nat) (c : Nat) : (insertChild need l c).Perm (l ++ [c]) := by
  unfold insertChild
  rw [List.append_assoc]
  refine ((List.perm_append_comm (l₁ := [c])).append_left _).trans ?_
  rw [← List.append_assoc, List.takeWhile_append_dropWhile]

theorem openingOrder_perm (need : Nat → Nat) (cs : List Nat) : (openingOrder need cs).Perm cs := by
  induction cs using List.reverseRecOn with
  | nil => exact .refl _
  | append_singleton cs c ih =>
    rw [openingOrder_append]
    exact (insertChild_perm need _ c).trans (ih.append_right [c])

/-- In an order of descending needs, what stands behind a child's place has a smaller need. -/
theorem need_lt_of_mem_dropWhile (h : l.Pairwise fun a b => need b ≤ need a) {x : Nat}
    (hx : x ∈ l.dropWhile fun x => decide (need c ≤ need x)) : need x < need c := by
  induction l with
  | nil => cases hx
  | cons a l ih =>
    obtain ⟨hal, hl⟩ := List.pairwise_cons.1 h
    by_cases ha : need c ≤ need a
    · rw [List.dropWhile_cons_of_pos (by simpa using ha)] at hx
      exact ih hl hx
    · rw [List.dropWhile_cons_of_neg (by simpa using ha)] at hx
      rcases List.mem_cons.1 hx with rfl | hx
      · omega
      · have := hal x hx
        omega

/-- A child put into an order keeps a relation of the order, where what stays before and behind it is so related to it. -/
theorem insertChild_pairwise {r : Nat → Nat → Prop} (hs : l.Pairwise fun a b => need b ≤ need a) (h : l.Pairwise r)
    (hle : ∀ x ∈ l, need c ≤ need x → r x c) (hlt : ∀ x ∈ l, need x < need c → r c x) : (insertChild need l c).Pairwise r := by
  have hbefore : ∀ x ∈ l.takeWhile (fun x => decide (need c ≤ need x)), r x c := fun x hx =>
    hle x ((List.takeWhile_sublist _).subset hx) (by simpa using List.mem_takeWhile_imp hx)
  have hbehind : ∀ x ∈ l.dropWhile (fun x => decide (need c ≤ need x)), r c x := fun x hx =>
    hlt x ((List.dropWhile_sublist _).subset hx) (need_lt_of_mem_dropWhile hs hx)
  rw [← List.takeWhile_append_dropWhile (p := fun x => decide (need c ≤ need x)) (l := l), List.pairwise_append] at h
  obtain ⟨htake, hdrop, hboth⟩ := h
  unfold insertChild
  rw [List.append_assoc, List.singleton_append]
  refine List.pairwise_append.2 ⟨htake, List.pairwise_cons.2 ⟨hbehind, hdrop⟩, fun a ha b hb => ?_⟩
  rcases List.mem_cons.1 hb with rfl | hb
  · exact hbefore a ha
  · exact hboth a ha b hb

theorem openingOrder_sorted (need : Nat → Nat) (cs : List Nat) : (openingOrder need cs).Pairwise fun a b => need b ≤ need a := by
  induction cs using List.reverseRecOn with
  | nil => exact .nil
  | append_singleton cs c ih =>
    rw [openingOrder_append]
    exact insertChild_pairwise ih ih (fun _ _ h => h) fun _ _ h => Nat.le_of_lt h

/-- The model's opening order is the statement's (R68). -/
theorem openingOrder_orderR (need : Nat → Nat) (h : cs.Nodup) : orderR need cs (openingOrder need cs) := by
  refine ⟨openingOrder_perm need cs, ?_⟩
  induction cs using List.reverseRecOn with
  | nil => exact .nil
  | append_singleton cs c ih =>
    obtain ⟨hcs, -, hdis⟩ := List.nodup_append.1 h
    have hc : c ∉ cs := fun hm => hdis c hm c (List.mem_singleton.2 rfl) rfl
    have hmem : ∀ x ∈ openingOrder need cs, x ∈ cs := fun x => (openingOrder_perm need cs).mem_iff.1
    have hidx : ∀ x ∈ cs, (cs ++ [c]).idxOf x = cs.idxOf x := fun x => List.idxOf_append_of_mem
    have hlast : (cs ++ [c]).idxOf c = cs.length := by simp [List.idxOf_append_of_notMem hc]
    rw [openingOrder_append]
    have hsort := openingOrder_sorted need cs
    refine insertChild_pairwise hsort ((ih hcs).imp_of_mem fun ha hb => ?_) (fun x hx hle => ?_) fun x _ hlt => .inl hlt
    · rw [hidx _ (hmem _ ha), hidx _ (hmem _ hb)]
      exact id
    · rw [hidx x (hmem x hx), hlast]
      have := List.idxOf_lt_length_iff.2 (hmem x hx)
      omega

/-- The greatest of some numbers, as the model takes it. -/
theorem foldl_max_spec {l : List Nat} (h : l ≠ []) : l.foldl max 0 ∈ l ∧ ∀ a ∈ l, a ≤ l.foldl max 0 := by
  obtain ⟨x, l, rfl⟩ := List.exists_cons_of_ne_nil h
  have hmax : (x :: l).max? = some ((x :: l).foldl max 0) := by rw [List.max?_cons', List.foldl_cons, Nat.zero_max]
  exact List.max?_eq_some_iff.1 hmax

/-- The need of a node whose children have an opening order, as the model takes it (R68). -/
def needOver (need : Nat → Nat) (o : List Nat) : Nat :=
  if o.isEmpty then 1 else (o.zipIdx.map fun p => need p.1 + p.2).foldl max 0

theorem needOver_needR (need : Nat → Nat) (o : List Nat) : needR need o (needOver need o) := by
  cases o with
  | nil => exact ⟨fun _ => rfl, fun i c h => (by simp at h), fun h => absurd rfl h⟩
  | cons a o =>
    have hmem : ∀ v, v ∈ ((a :: o).zipIdx.map fun p => need p.1 + p.2) ↔ ∃ i c, (a :: o)[i]? = some c ∧ need c + i = v := by
      intro v
      simp only [List.mem_map, Prod.exists, List.mk_mem_zipIdx_iff_getElem?]
      exact exists_comm
    obtain ⟨hin, hle⟩ := foldl_max_spec (l := (a :: o).zipIdx.map fun p => need p.1 + p.2) (by simp)
    exact ⟨fun h => (by cases h), fun i c h => hle _ ((hmem _).2 ⟨i, c, h, rfl⟩), fun _ => (hmem _).1 hin⟩

/-- The need that the census has for a child: 0 for one that it has not reached. -/
def needIn (ns : List Node) (c : Nat) : Nat := ((nodeOf ns c).map fun z => z.need).getD 0

theorem Node.setNeed_eq (x : Node) (ns : List Node) : x.setNeed ns =
    { x with order := openingOrder (needIn ns) x.children, need := needOver (needIn ns) (openingOrder (needIn ns) x.children) } := by
  have hneed : (fun c => match nodeOf ns c with | some y => y.need | none => 0) = needIn ns := by
    funext c
    unfold needIn
    cases nodeOf ns c <;> rfl
  rw [← hneed]
  rfl

/-- Needs and opening orders are those of R68. -/
theorem Node.setNeed_orderR (x : Node) (ns : List Node) (h : x.children.Nodup) :
    orderR (needIn ns) x.children (x.setNeed ns).order ∧ needR (needIn ns) (x.setNeed ns).order (x.setNeed ns).need := by
  rw [x.setNeed_eq ns]
  exact ⟨openingOrder_orderR _ h, needOver_needR _ _⟩

/-- A need over an opening order is determined by the needs of the children (R68). -/
theorem needR_eq_of_needIs {o : List Nat} {m n : Nat} (ho : o.Perm cs) (hs : o.Pairwise fun a b => need b ≤ need a) (hn : needR need o n)
    (hm : needIs (cs.map need) m) : n = m := by
  obtain ⟨p, hp, hps, hm0, hmle, hmge⟩ := hm
  have hop : o.map need = p := by
    have hperm : (o.map need).Perm p := (ho.map need).trans hp.symm
    refine hperm.eq_of_pairwise (le := fun a b => b ≤ a) (fun a b _ _ hab hba => Nat.le_antisymm hba hab) ?_ hps
    exact List.pairwise_map.2 hs
  obtain ⟨hn0, hnle, hnge⟩ := hn
  subst hop
  by_cases hnil : o = []
  · rw [hn0 hnil, hm0 (by simp [hnil])]
  · obtain ⟨i, c, hic, rfl⟩ := hnge hnil
    obtain ⟨j, a, hja, rfl⟩ := hmge (by simpa using hnil)
    have h1 := hmle i (need c) (by simp [hic])
    rw [List.getElem?_map, Option.map_eq_some_iff] at hja
    obtain ⟨d, hjd, rfl⟩ := hja
    have h2 := hnle j d hjd
    omega

theorem Node.setNeed_need (x : Node) {ns : List Node} {m : Nat} (h : needIs (x.children.map (needIn ns)) m) : (x.setNeed ns).need = m := by
  rw [x.setNeed_eq ns]
  exact needR_eq_of_needIs (openingOrder_perm _ _) (openingOrder_sorted _ _) (needOver_needR _ _) h

end

/-! ### What the census reads and checks (R64 to R67, R69) -/

section
variable {s : State} {t : Tree} {c : Census}

/-- Two points of a census that differ only in the places read. -/
structure Census.Like (c d : Census) : Prop where
  nodes : d.nodes = c.nodes
  err : d.err = c.err
  gone : d.gone = c.gone

/-- A census that no absent page has delayed reads what the statement's does, with the values of R64. -/
theorem State.censusRd_val (hs : t.seen = []) {n a v : Nat} (h : readsR s t n a v) (c : Census) :
    ∃ d, s.censusRd t n a c = .val v false d ∧ c.Like d := by
  obtain ⟨p, hp, rfl⟩ := h
  unfold State.censusRd
  rw [hs, hp]
  exact ⟨_, rfl, rfl, rfl, rfl⟩

theorem State.censusRd_bad (hs : t.seen = []) {n a : Nat} (h : unreadR s t n a) (c : Census) :
    ∃ d, s.censusRd t n a c = .bad d ∧ c.Like d := by
  obtain ⟨w, hw⟩ := h
  unfold State.censusRd
  rw [hs, hw]
  exact ⟨_, rfl, rfl, rfl, rfl⟩

/-- The model's test of the entry point of a node's kind is the statement's (R69 ENTRY). -/
theorem entryBad_iff (t : Tree) (r : Nat) :
    (t.entryOf (natBits r 0 2) = 0 || t.entryOf (natBits r 0 2) % 12 ≠ 0) = true ↔ ¬entryR' t r := by
  have hdef : entryR' t r ↔ t.entryOf (natBits r 0 2) ≠ 0 ∧ t.entryOf (natBits r 0 2) % 12 = 0 := Iff.rfl
  rw [hdef]
  simp only [Bool.or_eq_true, decide_eq_true_eq]
  tauto

/-- The test of a node record's reserved fields (R69 RSVD). -/
theorem rsvdBad_iff (r : Nat) : (natBits r 10 6 ≠ 0 || natBits r 40 24 ≠ 0) = true ↔ ¬nodeZeros r := by
  have hdef : nodeZeros r ↔ natBits r 10 6 = 0 ∧ natBits r 40 24 = 0 := Iff.rfl
  rw [hdef]
  simp only [Bool.or_eq_true, decide_eq_true_eq]
  tauto

/-- The test of a node's block against an empty core of the partition (R48, R69 FIT). -/
theorem State.fitsDie_iff (s : State) (t : Tree) (r : Nat) :
    s.fitsDie t (t.shape (natBits r 0 2) (natBits r 6 4 + 1)) = true ↔ fitsR s t r := by
  have hteams : natBits r 6 4 + 1 ≤ 16 := Nat.mod_lt _ (by decide)
  unfold State.fitsDie CoreFree.fits CoreFree.empty Shape.regBytes Tree.shape fitsR
  simp only [Bool.and_eq_true, decide_eq_true_eq, List.any_eq_true, List.mem_range]
  have hspad : 1024 * t.fld 219 9 ≤ 262144 ↔ fieldR t.record 219 9 ≤ 256 := by
    change 1024 * fieldR t.record 219 9 ≤ 262144 ↔ _
    omega
  rw [hspad]
  exact ⟨fun ⟨⟨⟨⟨⟨_, hreg⟩, hsp⟩, hslot⟩, htile⟩, hpart⟩ => ⟨hreg, hsp, hslot, htile, hpart⟩,
    fun ⟨hreg, hsp, hslot, htile, hpart⟩ => ⟨⟨⟨⟨⟨hteams, hreg⟩, hsp⟩, hslot⟩, htile⟩, hpart⟩⟩

/-- A node as the census first has it: from its record, with its children still to come. -/
def walkedNode (parent : Option Nat) (n r : Nat) : Node :=
  { idx := n, kind := fieldR r 0 2, teams := fieldR r 6 4 + 1
    args := [BitVec.ofNat 64 (fieldR r 64 64), BitVec.ofNat 64 (fieldR r 128 64), BitVec.ofNat 64 (fieldR r 192 64)]
    children := [], order := [], parent := parent, need := 1, budget := 0, st := .unopened, doomed := false
    released := false, entry := none, refused := false, counted := false, dispatched := false
    entries := List.replicate (fieldR r 2 4) none }

/-- A node that passes the checks of R67 item 2 is reached. -/
theorem State.visit_passes (hs : t.seen = []) {n r : Nat} (h : NodePasses s t n r) (parent : Option Nat) (c : Census) :
    ∃ d, c.Like d ∧ s.visit t parent n c =
      ({ d with nodes := d.nodes ++ [walkedNode parent n r] }, fieldR r 2 4, fieldR r 16 24) := by
  obtain ⟨d, hd, hlike⟩ := State.censusRd_val hs h.read c
  have hentry := mt (entryBad_iff t r).1 (not_not.2 h.entry)
  have hzeros := mt (rsvdBad_iff r).1 (not_not.2 h.zeros)
  have hfit := (s.fitsDie_iff t r).2 h.fit
  refine ⟨d, hlike, ?_⟩
  unfold State.visit
  dsimp only
  rw [show t.nodesPtr + 32 * n = nodeAddr t n from rfl, hd]
  dsimp only
  rw [if_neg hentry, if_neg hzeros, if_neg (by simp [hfit])]
  rfl

/-- A node that fails one of the checks of R67 item 2 ends the census with the first that it fails. -/
theorem State.visit_fails (hs : t.seen = []) {n k : Nat} (h : NodeFails s t n k) (parent : Option Nat) (c : Census) :
    (s.visit t parent n c).1.err = some (k, n) ∧ (s.visit t parent n c).1.gone = c.gone := by
  unfold State.visit
  dsimp only
  rw [show t.nodesPtr + 32 * n = nodeAddr t n from rfl]
  cases h with
  | xlate h =>
    obtain ⟨d, hd, hlike⟩ := State.censusRd_bad hs h c
    rw [hd]
    exact ⟨rfl, hlike.gone⟩
  | entry r hr he =>
    obtain ⟨d, hd, hlike⟩ := State.censusRd_val hs hr c
    rw [hd]
    dsimp only
    rw [if_pos ((entryBad_iff t r).2 he)]
    exact ⟨rfl, hlike.gone⟩
  | rsvd r hr he hz =>
    obtain ⟨d, hd, hlike⟩ := State.censusRd_val hs hr c
    rw [hd]
    dsimp only
    rw [if_neg (mt (entryBad_iff t r).1 (not_not.2 he)), if_pos ((rsvdBad_iff r).2 hz)]
    exact ⟨rfl, hlike.gone⟩
  | fit r hr he hz hf =>
    obtain ⟨d, hd, hlike⟩ := State.censusRd_val hs hr c
    have hfit : s.fitsDie t (t.shape (natBits r 0 2) (natBits r 6 4 + 1)) = false := by
      simpa using mt (s.fitsDie_iff t r).1 hf
    rw [hd]
    dsimp only
    rw [if_neg (mt (entryBad_iff t r).1 (not_not.2 he)), if_neg (mt (rsvdBad_iff r).1 (not_not.2 hz)), if_pos (by simp [hfit])]
    exact ⟨rfl, hlike.gone⟩

end

/-! ### The walk (R67) -/

/-- The stack of a walk: nodes with their child counts, their OFFSETs and the positions of their next children. -/
abbrev WalkStack := List (Nat × Nat × Nat × Nat)

/-- The place of a node with record `r` on the stack of a walk, whose child at position `k` is to come. -/
def walkFrame (n r k : Nat) : Nat × Nat × Nat × Nat := (n, fieldR r 2 4, fieldR r 16 24, k)

/-- A child is added to the node of a walk. -/
def Census.addChild (c : Census) (n ch : Nat) : Census :=
  { c with nodes := updWhere (fun x => x.idx == n) (fun x => { x with children := x.children ++ [ch] }) c.nodes }

/-- A walk's node gets its need (R68). -/
def Census.setNeed (c : Census) (n : Nat) : Census :=
  { c with nodes := updWhere (fun x => x.idx == n) (fun x => x.setNeed c.nodes) c.nodes }

/-- A node is reached and its children are walked, with `rest` of the stack below it. -/
def State.walkNode (s : State) (t : Tree) (fuel : Nat) (rest : WalkStack) (parent : Option Nat) (n : Nat) (c : Census) :
    Census :=
  s.walkTree t fuel ((n, (s.visit t parent n c).2.1, (s.visit t parent n c).2.2, 0) :: rest) (s.visit t parent n c).1

/-- A census has ended with check `k` failed at node `n`. -/
def Census.FailsAt (c : Census) (k n : Nat) : Prop := c.err = some (k, n) ∧ c.gone = none

/-- What the walk of a stage comes to from a point of the census. -/
def walkRun (s : State) (t : Tree) (fuel : Nat) (rest : WalkStack) (parent : Option Nat) (c : Census) : Stage → Census
  | .node n => s.walkNode t fuel rest parent n c
  | .kids n r k _ => s.walkTree t fuel (walkFrame n r k :: rest) c

section
variable {s : State} {t : Tree} {c : Census} {fuel : Nat} {rest : WalkStack}

/-- A walk goes no further than a check that fails. -/
theorem State.walkTree_stops (h : c.err.isSome = true) (fuel : Nat) (st : WalkStack) : s.walkTree t fuel st c = c := by
  cases fuel with
  | zero => cases st <;> rfl
  | succ fuel =>
    cases st with
    | nil => rfl
    | cons p st =>
      unfold State.walkTree
      rw [if_pos (by rw [h]; rfl)]

/-- A walk that has come to its end. -/
theorem State.walkTree_nil (s : State) (t : Tree) (fuel : Nat) (c : Census) : s.walkTree t fuel [] c = c := by
  cases fuel <;> rfl

variable {n r k : Nat} (he : c.err = none) (hg : c.gone = none)
include he hg

/-- The last child of a node has been walked: the node gets its need. -/
theorem State.walkTree_last (h : fieldR r 2 4 = k) :
    s.walkTree t (fuel + 1) (walkFrame n r k :: rest) c = s.walkTree t fuel rest (c.setNeed n) := by
  unfold walkFrame
  rw [State.walkTree, if_neg (by simp [he, hg]), if_pos h.le]
  rfl

/-- A child entry that may not be read (R67 item 3). -/
theorem State.walkTree_kid_unread (hs : t.seen = []) (hk : k < fieldR r 2 4) (h : unreadR s t 4 (kidAddr t (fieldR r 16 24 + k))) :
    (s.walkTree t (fuel + 1) (walkFrame n r k :: rest) c).FailsAt 8 n := by
  obtain ⟨d, hd, hlike⟩ := State.censusRd_bad hs h c
  have hgone := hlike.gone.trans hg
  unfold walkFrame
  rw [State.walkTree, if_neg (by simp [he, hg]), if_neg (Nat.not_le.2 hk)]
  dsimp only
  rw [show t.childPtr + 4 * (fieldR r 16 24 + k) = kidAddr t (fieldR r 16 24 + k) from rfl, hd]
  exact ⟨rfl, hgone⟩

/-- The checks of a child entry that is read (R67 item 3), and the walk down into the child that it names. -/
theorem State.walkTree_kid (hs : t.seen = []) (hk : k < fieldR r 2 4) {v : Nat} (h : readsR s t 4 (kidAddr t (fieldR r 16 24 + k)) v) :
    ∃ d, c.Like d ∧ s.walkTree t (fuel + 1) (walkFrame n r k :: rest) c =
      if fieldR v 24 8 ≠ 0 then { d with err := some (7, n) }
      else if countR t ≤ fieldR v 0 24 then { d with err := some (4, n) }
      else if (nodeOf d.nodes (fieldR v 0 24)).isSome then { d with err := some (5, n) }
      else s.walkNode t fuel (walkFrame n r (k + 1) :: rest) (some n) (fieldR v 0 24) (d.addChild n (fieldR v 0 24)) := by
  obtain ⟨d, hd, hlike⟩ := State.censusRd_val hs h c
  refine ⟨d, hlike, ?_⟩
  unfold walkFrame
  rw [State.walkTree, if_neg (by simp [he, hg]), if_neg (Nat.not_le.2 hk)]
  dsimp only
  rw [show t.childPtr + 4 * (fieldR r 16 24 + k) = kidAddr t (fieldR r 16 24 + k) from rfl, hd]
  rfl

theorem State.walkTree_kidRsvd (hs : t.seen = []) (hk : k < fieldR r 2 4) {v : Nat}
    (h : readsR s t 4 (kidAddr t (fieldR r 16 24 + k)) v) (hv : fieldR v 24 8 ≠ 0) :
    (s.walkTree t (fuel + 1) (walkFrame n r k :: rest) c).FailsAt 7 n := by
  obtain ⟨d, hlike, hd⟩ := State.walkTree_kid (fuel := fuel) (rest := rest) (n := n) he hg hs hk h
  rw [hd, if_pos hv]
  exact ⟨rfl, hlike.gone.trans hg⟩

section
variable {ch : Nat} (hs : t.seen = []) (hk : k < fieldR r 2 4) (h : readsR s t 4 (kidAddr t (fieldR r 16 24 + k)) ch) (hw : ch < 2 ^ 24)
include hs hk h hw

/-- The checks of a child entry whose reserved bits are zero. -/
theorem State.walkTree_kid_low : ∃ d, c.Like d ∧ s.walkTree t (fuel + 1) (walkFrame n r k :: rest) c =
      if countR t ≤ ch then { d with err := some (4, n) }
      else if (nodeOf d.nodes ch).isSome then { d with err := some (5, n) }
      else s.walkNode t fuel (walkFrame n r (k + 1) :: rest) (some n) ch (d.addChild n ch) := by
  obtain ⟨d, hlike, hd⟩ := State.walkTree_kid (fuel := fuel) (rest := rest) (n := n) he hg hs hk h
  have hlow : fieldR ch 0 24 = ch := by unfold fieldR; omega
  have hhigh : fieldR ch 24 8 = 0 := by unfold fieldR; omega
  rw [hlow, if_neg (not_not.2 hhigh)] at hd
  exact ⟨d, hlike, hd⟩

theorem State.walkTree_kidChild (hc : countR t ≤ ch) : (s.walkTree t (fuel + 1) (walkFrame n r k :: rest) c).FailsAt 4 n := by
  obtain ⟨d, hlike, hd⟩ := State.walkTree_kid_low (fuel := fuel) (rest := rest) (n := n) he hg hs hk h hw
  rw [hd, if_pos hc]
  exact ⟨rfl, hlike.gone.trans hg⟩

theorem State.walkTree_kidTwice (hc : ch < countR t) (ht : (nodeOf c.nodes ch).isSome = true) :
    (s.walkTree t (fuel + 1) (walkFrame n r k :: rest) c).FailsAt 5 n := by
  obtain ⟨d, hlike, hd⟩ := State.walkTree_kid_low (fuel := fuel) (rest := rest) (n := n) he hg hs hk h hw
  rw [hd, if_neg (Nat.not_le.2 hc), hlike.nodes, if_pos ht]
  exact ⟨rfl, hlike.gone.trans hg⟩

theorem State.walkTree_kid_passes (hc : ch < countR t) (ht : nodeOf c.nodes ch = none) :
    ∃ d, c.Like d ∧ s.walkTree t (fuel + 1) (walkFrame n r k :: rest) c =
      s.walkNode t fuel (walkFrame n r (k + 1) :: rest) (some n) ch (d.addChild n ch) := by
  obtain ⟨d, hlike, hd⟩ := State.walkTree_kid_low (fuel := fuel) (rest := rest) (n := n) he hg hs hk h hw
  rw [if_neg (Nat.not_le.2 hc), hlike.nodes, if_neg (by simp [ht])] at hd
  exact ⟨d, hlike, hd⟩

end

end

/-! The nodes of a walk. -/

theorem nodeOf_updWhere_same {ns : List Node} {n : Nat} {x : Node} (h : nodeOf ns n = some x) (f : Node → Node)
    (hf : ∀ y, (f y).idx = y.idx) : nodeOf (updWhere (fun y => y.idx == n) f ns) n = some (f x) := by
  unfold nodeOf at *
  rw [find?_updWhere_same _ f ns fun y hy => by simpa [hf y] using hy, h]
  rfl

theorem nodeOf_updWhere_ne {n i : Nat} (h : i ≠ n) (ns : List Node) (f : Node → Node) (hf : ∀ y, (f y).idx = y.idx) :
    nodeOf (updWhere (fun y => y.idx == n) f ns) i = nodeOf ns i :=
  find?_updWhere_other _ _ f ns fun y hy => by
    have hy : y.idx = n := by simpa using hy
    simp [hf y, hy, Ne.symm h]

theorem nodeOf_updWhere_isSome (ns : List Node) (n i : Nat) (f : Node → Node) (hf : ∀ y, (f y).idx = y.idx) :
    (nodeOf (updWhere (fun y => y.idx == n) f ns) i).isSome = (nodeOf ns i).isSome := by
  unfold updWhere
  rw [nodeOf_map fun y => by split; exacts [hf y, rfl], Option.isSome_map]

theorem nodeOf_append_same {ns : List Node} {x : Node} (h : nodeOf ns x.idx = none) : nodeOf (ns ++ [x]) x.idx = some x := by
  unfold nodeOf at *
  rw [List.find?_append, h]
  simp

theorem nodeOf_append_ne {ns : List Node} {x : Node} {i : Nat} (h : i ≠ x.idx) : nodeOf (ns ++ [x]) i = nodeOf ns i := by
  unfold nodeOf
  rw [List.find?_append]
  simp [Ne.symm h]

/-- A census that has reached the nodes of `l` and no other, with no check failed. -/
structure Census.Reached (c : Census) (t : Tree) (l : List Nat) : Prop where
  err : c.err = none
  gone : c.gone = none
  nodes : ∀ i, (nodeOf c.nodes i).isSome = true ↔ i ∈ l
  nodup : l.Nodup
  below : ∀ i ∈ l, i < countR t

/-- Node `y` is as its record `r` and its first `k` child entries have it (R65, R66). -/
structure NodePart (s : State) (t : Tree) (y : Node) (r k : Nat) : Prop where
  passes : NodePasses s t y.idx r
  kind : y.kind = fieldR r 0 2
  teams : y.teams = fieldR r 6 4 + 1
  args : y.args = [BitVec.ofNat 64 (fieldR r 64 64), BitVec.ofNat 64 (fieldR r 128 64), BitVec.ofNat 64 (fieldR r 192 64)]
  length : y.children.length = k
  kids : ∀ (j c : Nat), y.children[j]? = some c → readsR s t 4 (kidAddr t (fieldR r 16 24 + j)) c

/-- A census, with `l` reached, is at the start of a stage of the walk. -/
def WalkReady (s : State) (t : Tree) (c : Census) (l : List Nat) : Stage → Prop
  | .node n => n < countR t ∧ n ∉ l
  | .kids n r k ns =>
    ∃ x, nodeOf c.nodes n = some x ∧ NodePart s t x r k ∧ x.children.map (needIn c.nodes) = ns ∧ ∀ j ∈ x.children, j ∈ l

/-- The steps that a stage of the walk may take: a node that is not reached takes two, one on the stack takes one more. -/
def WalkFuel (t : Tree) (l : List Nat) (below fuel : Nat) : Stage → Prop
  | .node _ => 2 * countR t + below ≤ fuel + 2 * l.length + 1
  | .kids _ _ _ _ => 2 * countR t + below + 1 ≤ fuel + 2 * l.length

/-- The nodes that a stage of the walk leaves as they are, of those reached before it. -/
def WalkLeaves (l : List Nat) (i : Nat) : Stage → Prop
  | .node _ => i ∈ l
  | .kids n _ _ _ => i ∈ l ∧ i ≠ n

/-- The node of a stage. -/
def walkTop : Stage → Nat
  | .node n => n
  | .kids n _ _ _ => n

/-- What a stage that passes makes of a census. -/
structure Census.Walked (s : State) (t : Tree) (g : Stage) (l l' : List Nat) (m : Nat) (c d : Census) : Prop where
  reached : d.Reached t l'
  sub : ∀ i ∈ l, i ∈ l'
  top : walkTop g ∈ l'
  leaves : ∀ i, WalkLeaves l i g → nodeOf d.nodes i = nodeOf c.nodes i
  made : ∀ i ∈ l', ¬WalkLeaves l i g → ∃ y, nodeOf d.nodes i = some y ∧ nodeIs s t y
  need : needIn d.nodes (walkTop g) = m

/-- The walk of a stage comes to what the statement's walk has. -/
def WalkOf (s : State) (t : Tree) (g : Stage) (l : List Nat) (fuel : Nat) (rest : WalkStack) (parent : Option Nat)
    (c : Census) : Walked → Prop
  | .fails k n => (walkRun s t fuel rest parent c g).FailsAt k n
  | .passes l' m => ∃ f d, walkRun s t fuel rest parent c g = s.walkTree t f rest d ∧ Census.Walked s t g l l' m c d ∧
      2 * countR t + rest.length ≤ f + 2 * l'.length

section
variable {s : State} {t : Tree} {c d : Census} {l : List Nat}

theorem Census.Reached.of_like (h : c.Reached t l) (hd : c.Like d) : d.Reached t l :=
  ⟨hd.err.trans h.err, hd.gone.trans h.gone, fun i => by rw [hd.nodes]; exact h.nodes i, h.nodup, h.below⟩

theorem Census.Reached.not_mem (h : c.Reached t l) {i : Nat} (hi : i ∉ l) : nodeOf c.nodes i = none := by
  rw [← Option.not_isSome_iff_eq_none, h.nodes i]
  exact hi

/-- Nodes changed in place are reached as before. -/
theorem Census.Reached.of_updWhere (h : c.Reached t l) {n : Nat} {f : Node → Node} (hf : ∀ y, (f y).idx = y.idx) :
    Census.Reached { c with nodes := updWhere (fun y => y.idx == n) f c.nodes } t l :=
  ⟨h.err, h.gone, fun i => by rw [nodeOf_updWhere_isSome _ _ _ f hf]; exact h.nodes i, h.nodup, h.below⟩

theorem Census.Reached.length_le (h : c.Reached t l) : l.length ≤ countR t := by
  have hsub : l ⊆ List.range (countR t) := fun i hi => List.mem_range.2 (h.below i hi)
  simpa using (h.nodup.subperm hsub).length_le

/-- A node that is on the stack has a step left. -/
theorem Census.Reached.fuel_pos (h : c.Reached t l) {n r k below fuel : Nat} {ns : List Nat}
    (hf : WalkFuel t l below fuel (.kids n r k ns)) : ∃ f, fuel = f + 1 := by
  have hlen := h.length_le
  unfold WalkFuel at hf
  exact ⟨fuel - 1, by omega⟩

/-- A node that is reached is one more. -/
theorem Census.Reached.append (h : c.Reached t l) {x : Node} (hb : x.idx < countR t) (hx : x.idx ∉ l) :
    Census.Reached { c with nodes := c.nodes ++ [x] } t (x.idx :: l) := by
  refine ⟨h.err, h.gone, fun i => ?_, List.nodup_cons.2 ⟨hx, h.nodup⟩, List.forall_mem_cons.2 ⟨hb, h.below⟩⟩
  by_cases hi : i = x.idx
  · subst hi
    simp [nodeOf_append_same (h.not_mem hx)]
  · rw [nodeOf_append_ne hi, h.nodes i]
    simp [hi]

theorem needIn_of_nodeOf {ns : List Node} {n : Nat} {x : Node} (h : nodeOf ns n = some x) : needIn ns n = x.need := by
  unfold needIn
  rw [h]
  rfl

/-- A walk's node is known by what it leaves of the nodes. -/
theorem needIn_congr {ns ms : List Node} {i : Nat} (h : nodeOf ms i = nodeOf ns i) : needIn ms i = needIn ns i := by
  unfold needIn
  rw [h]

/-- A child added to a node changes no need. -/
theorem needIn_addChild (c : Census) (n ch i : Nat) : needIn (c.addChild n ch).nodes i = needIn c.nodes i := by
  unfold needIn Census.addChild updWhere
  rw [nodeOf_map fun y => by split <;> rfl, Option.map_map]
  congr 2
  funext y
  simp only [Function.comp_apply]
  split <;> rfl

theorem NodePart.addChild {x : Node} {r k ch : Nat} (h : NodePart s t x r k) (hr : readsR s t 4 (kidAddr t (fieldR r 16 24 + k)) ch) :
    NodePart s t { x with children := x.children ++ [ch] } r (k + 1) := by
  refine ⟨h.passes, h.kind, h.teams, h.args, by simp [h.length], fun j c hj => ?_⟩
  rcases Nat.lt_or_ge j x.children.length with hlt | hge
  · rw [List.getElem?_append_left hlt] at hj
    exact h.kids j c hj
  · rw [List.getElem?_append_right hge] at hj
    obtain ⟨hj0, rfl⟩ := List.getElem?_eq_some_iff.1 hj
    have hjk : j = k := by
      have := h.length
      simp at hj0
      omega
    simpa [hjk] using hr

/-- A node whose children have all been walked. -/
theorem NodePart.nodeIs {x : Node} {r k : Nat} (h : NodePart s t x r k) (hk : fieldR r 2 4 = k) (ns : List Node) :
    nodeIs s t (x.setNeed ns) :=
  ⟨r, h.passes, h.kind, h.teams, h.args, h.length.trans hk.symm, h.kids⟩

/-- A node that is reached passes to the walk of its children. -/
theorem walk_node_of_kids {n r fuel : Nat} {rest : WalkStack} {parent : Option Nat} {w : Walked} (hs : t.seen = [])
    (hp : NodePasses s t n r) (hc : c.Reached t l) (hg : WalkReady s t c l (.node n)) (hf : WalkFuel t l rest.length fuel (.node n))
    (ih : ∀ c, c.Reached t (n :: l) → WalkReady s t c (n :: l) (.kids n r 0 []) →
      WalkFuel t (n :: l) rest.length fuel (.kids n r 0 []) → WalkOf s t (.kids n r 0 []) (n :: l) fuel rest none c w) :
    WalkOf s t (.node n) l fuel rest parent c w := by
  obtain ⟨hb, hn⟩ := hg
  obtain ⟨d, hlike, hd⟩ := State.visit_passes hs hp parent c
  have hreach := (hc.of_like hlike).append (x := walkedNode parent n r) hb hn
  have hrun : walkRun s t fuel rest parent c (.node n) =
      walkRun s t fuel rest none { d with nodes := d.nodes ++ [walkedNode parent n r] } (.kids n r 0 []) := by
    change s.walkNode t fuel rest parent n c = _
    unfold State.walkNode
    rw [hd]
    rfl
  have hnode : nodeOf (d.nodes ++ [walkedNode parent n r]) n = some (walkedNode parent n r) :=
    nodeOf_append_same (x := walkedNode parent n r) ((hc.of_like hlike).not_mem hn)
  have hfuel : WalkFuel t (n :: l) rest.length fuel (.kids n r 0 []) := by
    unfold WalkFuel at hf ⊢
    simp only [List.length_cons]
    omega
  have hof := ih _ hreach ⟨_, hnode, ⟨hp, rfl, rfl, rfl, rfl, fun j c h => by cases h⟩, rfl, fun j h => by cases h⟩ hfuel
  cases w with
  | fails k m =>
    unfold WalkOf at hof ⊢
    rw [hrun]
    exact hof
  | passes l' m =>
    obtain ⟨f, e, he, hw, hfe⟩ := hof
    have hsub (i : Nat) (hi : i ∈ l) : i ∈ n :: l := List.mem_cons_of_mem n hi
    refine ⟨f, e, hrun.trans he,
      ⟨hw.reached, fun i hi => hw.sub i (hsub i hi), hw.top, fun i hi => ?_, fun i hi hl => ?_, hw.need⟩, hfe⟩
    · have hin : i ≠ n := fun h => hn (h ▸ hi)
      rw [hw.leaves i ⟨hsub i hi, hin⟩, ← hlike.nodes]
      exact nodeOf_append_ne hin
    · refine hw.made i hi fun ⟨hm, hin⟩ => ?_
      rcases List.mem_cons.1 hm with h | h
      · exact hin h
      · exact hl h

/-- A node whose children have all been walked gets its need (R68). -/
theorem walk_last {n r k m fuel : Nat} {ns : List Nat} {rest : WalkStack} {parent : Option Nat} (hk : fieldR r 2 4 = k)
    (hm : needIs ns m) (hc : c.Reached t l) (hg : WalkReady s t c l (.kids n r k ns))
    (hf : WalkFuel t l rest.length fuel (.kids n r k ns)) : WalkOf s t (.kids n r k ns) l fuel rest parent c (.passes l m) := by
  obtain ⟨x, hx, hpart, rfl, -⟩ := hg
  obtain ⟨fuel, rfl⟩ := hc.fuel_pos hf
  unfold WalkFuel at hf
  have hidx : ∀ y : Node, (y.setNeed c.nodes).idx = y.idx := fun _ => rfl
  have htop : nodeOf (c.setNeed n).nodes n = some (x.setNeed c.nodes) := nodeOf_updWhere_same hx _ hidx
  have hin : n ∈ l := (hc.nodes n).1 (by rw [hx]; rfl)
  refine ⟨fuel, c.setNeed n, State.walkTree_last hc.err hc.gone hk,
    ⟨hc.of_updWhere hidx, fun _ h => h, hin, fun i hi => ?_, fun i hi hl => ?_, ?_⟩, by omega⟩
  · exact nodeOf_updWhere_ne hi.2 _ _ hidx
  · obtain rfl : i = n := by
      by_contra h
      exact hl ⟨hi, h⟩
    exact ⟨_, htop, hpart.nodeIs hk _⟩
  · rw [show walkTop (.kids n r k (x.children.map (needIn c.nodes))) = n from rfl, needIn_of_nodeOf htop]
    exact x.setNeed_need hm

/-- The walk down into a child: what it is from, and that the node on the stack has the child then. -/
theorem walk_kid_down {n r k ch fuel : Nat} {ns : List Nat} {rest : WalkStack} (hs : t.seen = []) (hk : KidPasses s t r k l ch)
    (hc : c.Reached t l) (hg : WalkReady s t c l (.kids n r k ns)) (hf : WalkFuel t l rest.length fuel (.kids n r k ns)) :
    ∃ f d, s.walkTree t fuel (walkFrame n r k :: rest) c = s.walkNode t f (walkFrame n r (k + 1) :: rest) (some n) ch d ∧
      d.Reached t l ∧ WalkFuel t l (rest.length + 1) f (.node ch) ∧ (∀ i, i ≠ n → nodeOf d.nodes i = nodeOf c.nodes i) ∧
      ∃ x, nodeOf d.nodes n = some x ∧ NodePart s t x r (k + 1) ∧
        ∃ js, x.children = js ++ [ch] ∧ (∀ j ∈ js, j ∈ l) ∧ js.map (needIn d.nodes) = ns := by
  obtain ⟨x, hx, hpart, rfl, hjs⟩ := hg
  obtain ⟨fuel, rfl⟩ := hc.fuel_pos hf
  unfold WalkFuel at hf
  obtain ⟨d, hlike, hd⟩ := State.walkTree_kid_passes (fuel := fuel) (rest := rest) (n := n) hc.err hc.gone hs hk.pos hk.read hk.below.1
    hk.below.2 (hc.not_mem hk.new)
  have hidx : ∀ y : Node, ({ y with children := y.children ++ [ch] } : Node).idx = y.idx := fun _ => rfl
  refine ⟨fuel, d.addChild n ch, hd, (hc.of_like hlike).of_updWhere hidx, ?_, fun i hi => ?_, { x with children := x.children ++ [ch] }, ?_,
    hpart.addChild hk.read, x.children, rfl, hjs, ?_⟩
  · unfold WalkFuel
    omega
  · rw [← hlike.nodes]
    exact nodeOf_updWhere_ne hi _ _ hidx
  · exact nodeOf_updWhere_same (hlike.nodes ▸ hx) _ hidx
  · refine List.map_congr_left fun j _ => ?_
    rw [needIn_addChild, hlike.nodes]

/-- After a child's subtree, the walk goes on with the next child. -/
theorem walk_kid_next {n r k ch m fuel : Nat} {ns l' : List Nat} {rest : WalkStack} {parent : Option Nat} {w : Walked}
    (hs : t.seen = []) (hk : KidPasses s t r k l ch) (hc : c.Reached t l) (hg : WalkReady s t c l (.kids n r k ns))
    (hf : WalkFuel t l rest.length fuel (.kids n r k ns))
    (ihkid : ∀ fuel rest d, d.Reached t l → WalkReady s t d l (.node ch) → WalkFuel t l rest.length fuel (.node ch) →
      WalkOf s t (.node ch) l fuel rest (some n) d (.passes l' m))
    (ihnext : ∀ fuel d, d.Reached t l' → WalkReady s t d l' (.kids n r (k + 1) (ns ++ [m])) →
      WalkFuel t l' rest.length fuel (.kids n r (k + 1) (ns ++ [m])) → WalkOf s t (.kids n r (k + 1) (ns ++ [m])) l' fuel rest parent d w) :
    WalkOf s t (.kids n r k ns) l fuel rest parent c w := by
  have hn : n ∈ l := by
    obtain ⟨x, hx, -⟩ := hg
    exact (hc.nodes n).1 (by rw [hx]; rfl)
  obtain ⟨f, d, hdown, hd, hfd, hother, x, hx, hpart, js, hxjs, hjs, hns⟩ := walk_kid_down hs hk hc hg hf
  obtain ⟨f', e, hup, hkid, hfe⟩ := ihkid f (walkFrame n r (k + 1) :: rest) d hd ⟨hk.below.2, hk.new⟩ hfd
  have hready : WalkReady s t e l' (.kids n r (k + 1) (ns ++ [m])) := by
    refine ⟨x, (hkid.leaves n hn).trans hx, hpart, ?_, fun j hj => ?_⟩
    · have hch : needIn e.nodes ch = m := hkid.need
      rw [hxjs, List.map_append, List.map_singleton, hch, ← hns]
      exact congrArg (· ++ [m]) (List.map_congr_left fun j hj => needIn_congr (hkid.leaves j (hjs j hj)))
    · rw [hxjs] at hj
      rcases List.mem_append.1 hj with hj | hj
      · exact hkid.sub j (hjs j hj)
      · rw [List.mem_singleton.1 hj]
        exact hkid.top
  have hfuel : WalkFuel t l' rest.length f' (.kids n r (k + 1) (ns ++ [m])) := hfe
  have hof := ihnext f' e hkid.reached hready hfuel
  have hrun : walkRun s t fuel rest parent c (.kids n r k ns) = walkRun s t f' rest parent e (.kids n r (k + 1) (ns ++ [m])) :=
    hdown.trans hup
  cases w with
  | fails j i =>
    unfold WalkOf at hof ⊢
    rw [hrun]
    exact hof
  | passes l'' m' =>
    obtain ⟨g, z, hz, hw, hfz⟩ := hof
    refine ⟨g, z, hrun.trans hz,
      ⟨hw.reached, fun i hi => hw.sub i (hkid.sub i hi), hw.top, fun i hi => ?_, fun i hi hl => ?_, hw.need⟩, hfz⟩
    · rw [hw.leaves i ⟨hkid.sub i hi.1, hi.2⟩, hkid.leaves i hi.1, hother i hi.2]
    · by_cases hm : i ∈ l' ∧ i ≠ n
      · rw [hw.leaves i hm]
        exact hkid.made i hm.1 fun h => hl ⟨h, hm.2⟩
      · exact hw.made i hi hm

/-- The model's walk is the statement's (R67). -/
theorem walk_of (hs : t.seen = []) {g : Stage} {w : Walked} (h : Walks s t g l w) : ∀ fuel rest parent c, Census.Reached c t l →
    WalkReady s t c l g → WalkFuel t l rest.length fuel g → WalkOf s t g l fuel rest parent c w := by
  induction h with
  | nodeFails n k l h =>
    intro fuel rest parent c hc hg hf
    obtain ⟨herr, hgone⟩ := State.visit_fails hs h parent c
    change (s.walkNode t fuel rest parent n c).FailsAt k n
    unfold State.walkNode
    rw [State.walkTree_stops (by rw [herr]; rfl)]
    exact ⟨herr, hgone.trans hc.gone⟩
  | node n r l w hp _ ih => exact fun fuel rest parent c hc hg hf => walk_node_of_kids hs hp hc hg hf fun c => ih fuel rest none c
  | last n r k m ns l hk hm => exact fun fuel rest parent c hc hg hf => walk_last hk hm hc hg hf
  | kidXlate n r k ns l hk h =>
    intro fuel rest parent c hc hg hf
    obtain ⟨f, rfl⟩ := hc.fuel_pos hf
    exact State.walkTree_kid_unread hc.err hc.gone hs hk h
  | kidRsvd n r k v ns l hk h hv =>
    intro fuel rest parent c hc hg hf
    obtain ⟨f, rfl⟩ := hc.fuel_pos hf
    exact State.walkTree_kidRsvd hc.err hc.gone hs hk h hv
  | kidChild n r k ch ns l hk h hw hb =>
    intro fuel rest parent c hc hg hf
    obtain ⟨f, rfl⟩ := hc.fuel_pos hf
    exact State.walkTree_kidChild hc.err hc.gone hs hk h hw hb
  | kidTwice n r k ch ns l hk h hw hb hl =>
    intro fuel rest parent c hc hg hf
    obtain ⟨f, rfl⟩ := hc.fuel_pos hf
    exact State.walkTree_kidTwice hc.err hc.gone hs hk h hw hb ((hc.nodes ch).2 hl)
  | kidFails n r k ch j m ns l hk _ ih =>
    intro fuel rest parent c hc hg hf
    obtain ⟨f, d, hdown, hd, hfd, -⟩ := walk_kid_down hs hk hc hg hf
    have hfail := ih f (walkFrame n r (k + 1) :: rest) (some n) d hd ⟨hk.below.2, hk.new⟩ hfd
    change (s.walkTree t fuel (walkFrame n r k :: rest) c).FailsAt j m
    rw [hdown]
    exact hfail
  | kid n r k ch m ns l l' w hk _ _ ihkid ihnext =>
    exact fun fuel rest parent c hc hg hf =>
      walk_kid_next hs hk hc hg hf (fun f q d => ihkid f q (some n) d) fun f d => ihnext f rest parent d

end

/-! ### The census (R67, R69, R80) -/

section
variable {s : State} {t : Tree}

theorem launchIs_of_trees {v w : State} {l : Nat} {p : Tree → Prop} (h : v.trees = w.trees) (hw : launchIs w l p) : launchIs v l p := by
  unfold launchIs at *
  rw [h]
  exact hw

theorem launchIs_imp {v : State} {l : Nat} {p q : Tree → Prop} (h : launchIs v l p) (hpq : ∀ x, p x → q x) : launchIs v l q :=
  ⟨h.1, fun x hx hl => hpq x (h.2 x hx hl)⟩

/-- COUNT of a launch's record is in its range, and ROOT below it (R69 COUNT). -/
def Tree.Counted (t : Tree) : Prop := 1 ≤ countR t ∧ countR t ≤ 2 ^ 24 ∧ rootR t < countR t

/-- Before the walk, COUNT and the record's reserved fields are checked (R67 item 1). -/
theorem State.census_count (h : ¬t.Counted) : (s.census t).FailsAt 1 0 := by
  have hbad : (t.count = 0 || 2 ^ 24 < t.count || t.count ≤ t.root) = true := by
    change (countR t = 0 || 2 ^ 24 < countR t || countR t ≤ rootR t) = true
    unfold Tree.Counted at h
    simp only [Bool.or_eq_true, decide_eq_true_eq]
    omega
  unfold State.census
  rw [if_pos hbad]
  exact ⟨rfl, rfl⟩

/-- The census once COUNT has passed. -/
theorem State.census_counted (h : t.Counted) :
    ¬(t.count = 0 || 2 ^ 24 < t.count || t.count ≤ t.root) = true := by
  change ¬(countR t = 0 || 2 ^ 24 < countR t || countR t ≤ rootR t) = true
  unfold Tree.Counted at h
  simp only [Bool.or_eq_true, decide_eq_true_eq]
  omega

theorem Tree.rsvd_iff (t : Tree) : t.rsvd = true ↔ ¬zerosR t := by
  have hz : zerosR t ↔ t.fld 190 2 = 0 ∧ t.fld 185 4 = 0 ∧ t.fld 120 8 = 0 ∧ t.fld 56 8 = 0 := Iff.rfl
  rw [hz]
  unfold Tree.rsvd
  simp only [Bool.or_eq_true, decide_eq_true_eq]
  tauto

theorem State.census_rsvd (h : t.Counted) (hz : ¬zerosR t) : (s.census t).FailsAt 7 0 := by
  unfold State.census
  rw [if_neg (State.census_counted h), if_pos ((t.rsvd_iff).2 hz)]
  exact ⟨rfl, rfl⟩

/-- The census before it has read anything. -/
def Census.start (t : Tree) : Census := { nodes := [], err := none, gone := none, reads := [], seen := t.seen }

/-- The checks that follow the walk (R67 item 4). -/
def Census.finish (c : Census) (t : Tree) : Census :=
  if c.err.isSome || c.gone.isSome then c
  else
    match (List.range t.count).find? fun i => (nodeOf c.nodes i).isNone with
    | some i => { c with err := some (6, i) }
    | none =>
      if t.cap = 0 || 4096 < t.cap || t.cap < needIn c.nodes t.root then { c with err := some (2, 0) }
      else { c with nodes := (List.range t.count).filterMap fun i => nodeOf c.nodes i }

/-- A census that passes the checks before its walk walks from the root (R67). -/
theorem State.census_walks (h : t.Counted) (hz : zerosR t) :
    s.census t = (walkRun s t (18 * t.count + 1) [] none (Census.start t) (.node (rootR t))).finish t := by
  have hneed (c : Census) : (match nodeOf c.nodes t.root with | some x => x.need | none => 0) = needIn c.nodes t.root := by
    unfold needIn
    cases nodeOf c.nodes t.root <;> rfl
  unfold State.census
  rw [if_neg (State.census_counted h), if_neg (mt (t.rsvd_iff).1 (not_not.2 hz))]
  unfold Census.finish
  simp only [← hneed]
  rfl

theorem Census.start_reached (t : Tree) : (Census.start t).Reached t [] :=
  ⟨rfl, rfl, fun i => by simp [Census.start, nodeOf], .nil, fun _ h => by cases h⟩

section
variable (hs : t.seen = []) (h : t.Counted) (hz : zerosR t)
include hs h hz

/-- The first check that fails in the walk ends the census (R67). -/
theorem State.census_walkFails {k n : Nat} (hw : Walks s t (.node (rootR t)) [] (.fails k n)) : (s.census t).FailsAt k n := by
  have hfuel : WalkFuel t [] 0 (18 * t.count + 1) (.node (rootR t)) := by
    change 2 * countR t + 0 ≤ 18 * countR t + 1 + 0 + 1
    omega
  obtain ⟨herr, hgone⟩ := walk_of hs hw (18 * t.count + 1) [] none _ (Census.start_reached t) ⟨h.2.2, List.not_mem_nil⟩ hfuel
  rw [State.census_walks h hz]
  unfold Census.finish
  rw [if_pos (by rw [herr]; rfl)]
  exact ⟨herr, hgone⟩

/-- A walk that passes comes to the checks that follow it. -/
theorem State.census_walkPasses {l : List Nat} {m : Nat} (hw : Walks s t (.node (rootR t)) [] (.passes l m)) :
    ∃ c : Census, s.census t = c.finish t ∧ c.Reached t l ∧ (∀ i ∈ l, ∃ y, nodeOf c.nodes i = some y ∧ nodeIs s t y) ∧
      needIn c.nodes t.root = m := by
  have hfuel : WalkFuel t [] 0 (18 * t.count + 1) (.node (rootR t)) := by
    change 2 * countR t + 0 ≤ 18 * countR t + 1 + 0 + 1
    omega
  obtain ⟨f, c, hrun, hwalk, -⟩ := walk_of hs hw (18 * t.count + 1) [] none _ (Census.start_reached t) ⟨h.2.2, List.not_mem_nil⟩ hfuel
  rw [State.walkTree_nil] at hrun
  refine ⟨c, by rw [State.census_walks h hz, hrun], hwalk.reached, fun i hi => hwalk.made i hi List.not_mem_nil, hwalk.need⟩

end

section
variable {c : Census} {l : List Nat} (hc : c.Reached t l)
include hc

/-- The lowest node that the walk has not reached is reported (R67 item 4, R69 NOREACH). -/
theorem Census.finish_noReach {i : Nat} (hi : i < countR t) (hl : i ∉ l) (hlow : ∀ j, j < i → j ∈ l) : (c.finish t).FailsAt 6 i := by
  have hfind : (List.range t.count).find? (fun i => (nodeOf c.nodes i).isNone) = some i := by
    rw [List.find?_range_eq_some]
    refine ⟨by simp [hc.not_mem hl], List.mem_range.2 hi, fun j hj => ?_⟩
    have := (hc.nodes j).2 (hlow j hj)
    simpa [Option.isSome_iff_ne_none] using this
  unfold Census.finish
  rw [if_neg (by simp [hc.err, hc.gone]), hfind]
  exact ⟨rfl, hc.gone⟩

variable (hl : ∀ i, i < countR t → i ∈ l)
include hl

/-- The census once every node has been reached. -/
theorem Census.finish_reached : c.finish t = if t.cap = 0 || 4096 < t.cap || t.cap < needIn c.nodes t.root then { c with err := some (2, 0) }
      else { c with nodes := (List.range t.count).filterMap fun i => nodeOf c.nodes i } := by
  have hfind : (List.range t.count).find? (fun i => (nodeOf c.nodes i).isNone) = none := by
    rw [List.find?_range_eq_none]
    intro i hi
    have := (hc.nodes i).2 (hl i hi)
    simpa [Option.isSome_iff_ne_none] using this
  unfold Census.finish
  rw [if_neg (by simp [hc.err, hc.gone]), hfind]

/-- The check of CAP (R67 item 4, R69 CAP). -/
theorem Census.finish_cap (h : capR t = 0 ∨ 4096 < capR t ∨ capR t < needIn c.nodes t.root) : (c.finish t).FailsAt 2 0 := by
  have hbad : (t.cap = 0 || 4096 < t.cap || t.cap < needIn c.nodes t.root) = true := by
    simp only [Bool.or_eq_true, decide_eq_true_eq, or_assoc]
    exact h
  rw [Census.finish_reached hc hl, if_pos hbad]
  exact ⟨rfl, hc.gone⟩

/-- A census that passes has all nodes, in increasing index. -/
theorem Census.finish_passes (h1 : 1 ≤ capR t) (h2 : capR t ≤ 4096) (h3 : needIn c.nodes t.root ≤ capR t)
    (hn : ∀ i ∈ l, ∃ y, nodeOf c.nodes i = some y ∧ nodeIs s t y) : (c.finish t).err = none ∧ (c.finish t).gone = none ∧
      (c.finish t).nodes.map (fun y => y.idx) = List.range (countR t) ∧ ∀ y ∈ (c.finish t).nodes, nodeIs s t y := by
  have hgood : ¬(t.cap = 0 || 4096 < t.cap || t.cap < needIn c.nodes t.root) = true := by
    change ¬(capR t = 0 || 4096 < capR t || capR t < needIn c.nodes t.root) = true
    simp only [Bool.or_eq_true, decide_eq_true_eq]
    omega
  rw [Census.finish_reached hc hl, if_neg hgood]
  refine ⟨hc.err, hc.gone, ?_, fun y hy => ?_⟩
  · have hidx : ∀ i ∈ List.range t.count, (nodeOf c.nodes i).map (fun y => y.idx) = some i := fun i hi => by
      obtain ⟨y, hy, -⟩ := hn i (hl i (List.mem_range.1 hi))
      rw [hy, Option.map_some, nodeOf_idx hy]
    rw [List.map_filterMap, List.filterMap_congr hidx, List.filterMap_some]
    rfl
  · obtain ⟨i, hi, hy⟩ := List.mem_filterMap.1 hy
    obtain ⟨z, hz, hzn⟩ := hn i (hl i (List.mem_range.1 hi))
    obtain rfl := Option.some_inj.1 (hy.symm.trans hz)
    exact hzn

end

end

/-! What a census step leaves of the launches. -/

theorem State.touchAll_trees (s : State) (tag : Option (BitVec 12)) (as : List Nat) : (s.touchAll tag as).trees = s.trees := by
  have hroom (u : State) (line : Nat) : (u.l2Room line).trees = u.trees := by
    unfold State.l2Room
    split
    · rfl
    · dsimp only [State.choice]
      split
      · rfl
      · split <;> rfl
  have hfill (u : State) (line : Nat) : (u.fill tag line).trees = u.trees := by
    unfold State.fill
    split <;> rfl
  have hacc (u : State) (line : Nat) : (u.l2Access tag line false).trees = u.trees := by
    unfold State.l2Access
    split
    · rfl
    · exact hroom u line
  exact List.foldlRecOn (motive := fun u : State => u.trees = s.trees) _ _ rfl fun u hu a _ => (hacc _ _).trans ((hfill u _).trans hu)

theorem State.serve_trees (s : State) (e p : Nat) : (s.serve e p).trees = s.trees := by
  unfold State.serve
  split
  · rfl
  · split <;> rfl

theorem State.ownMsg_trees (s : State) (e p : Nat) (v : Dword) : (s.ownMsg e p v).trees = s.trees := by
  unfold State.ownMsg
  split
  · rfl
  · split
    · exact State.serve_trees _ _ _
    · rfl

theorem State.absence_trees (s : State) (tag : BitVec 12) (va : Nat) : (s.absence tag va).trees = s.trees := by
  have hpost : (s.postAbsent tag va).trees = s.trees := by
    unfold State.postAbsent
    split
    · rfl
    · dsimp only
      split
      · rfl
      · exact State.ownMsg_trees _ _ _ _
  unfold State.absence
  split
  · rfl
  · split
    · rfl
    · exact hpost

section
variable {s : State} {t : Tree} (h : s.trees.find? (fun x => x.id == t.id) = some t)
include h

/-- The launch of an identity is there. -/
theorem tree_mem : ∃ x ∈ s.trees, x.id = t.id := ⟨t, List.mem_of_find?_eq_some h, rfl⟩

/-- The launch put in its place. -/
theorem launchIs_put (u : Tree) (hu : u.id = t.id) {p : Tree → Prop} (hp : p u) : launchIs (s.putTree u) t.id p :=
  launchIs_putTree (tree_mem h) hu hp

/-- A launch that is cancelled before its census ends at once (R46). -/
theorem exec_census_cancelled (hc : t.cancelled = true) (hp : t.phase = .waiting ∨ t.phase = .census) :
    exec (.census t.id) s = .next (s.putTree { t with phase := .ending }) := by
  have hexec : exec (.census t.id) s = execCensus t.id s := rfl
  rw [hexec]
  unfold execCensus
  rw [h]
  dsimp only
  rw [if_neg (by rcases hp with hp | hp <;> simp [hp]), if_pos hc]

variable (hc : t.cancelled = false) (hp : t.phase = .census ∨ t.phase = .waiting ∧ s.heldTrees t.die < 64 ∧
  ∀ x ∈ s.trees, x.die = t.die → x.phase = .waiting → t.id ≤ x.id)
include hc hp

/-- A census that is due makes its reads and checks (R67, R80): the launch is as they have it, and no other launch changes. -/
theorem exec_census_makes : ∃ v : State, exec (.census t.id) s = .next v ∧
    (∀ a, (s.census t).gone = some a → v.trees = (s.putTree { t with phase := .census, seen := (s.census t).seen }).trees) ∧
    (∀ e n, (s.census t).FailsAt e n → v.trees = (s.putTree { t with phase := .report, cause := e, at' := n }).trees) ∧
    ((s.census t).gone = none → (s.census t).err = none →
      v.trees = s.trees.filter (fun x => x.id != t.id) ++ [{ t with phase := .shelf, nodes := (s.census t).nodes }]) := by
  have hexec : exec (.census t.id) s = execCensus t.id s := rfl
  have hphase : ¬(t.phase != .waiting && t.phase != .census) = true := by
    rcases hp with hp | ⟨hp, -⟩ <;> simp [hp]
  have hturn : ¬(t.phase = .waiting
      && (64 ≤ s.heldTrees t.die || s.trees.any fun x => x.die = t.die && x.phase = .waiting && decide (x.id < t.id))) = true := by
    rcases hp with hp | ⟨-, hheld, hold⟩
    · simp [hp]
    · have hany : (s.trees.any fun x => x.die = t.die && x.phase = .waiting && decide (x.id < t.id)) = false := by
        simp only [List.any_eq_false, Bool.and_eq_true, decide_eq_true_eq, not_and, Nat.not_lt, and_imp]
        exact hold
      simp [hany, hheld]
  have htouch := s.touchAll_trees (some t.tag) (s.census t).reads
  have hput (u : Tree) : ((s.touchAll (some t.tag) (s.census t).reads).putTree u).trees = (s.putTree u).trees :=
    congrArg (updWhere _ _) htouch
  rw [hexec]
  unfold execCensus
  rw [h]
  dsimp only
  rw [if_neg hphase, if_neg (by simp [hc]), if_neg hturn]
  cases hgone : (s.census t).gone with
  | some a =>
    refine ⟨_, rfl, fun _ _ => (State.absence_trees ..).trans (hput _), fun e n hf => ?_, fun hg => by cases hg⟩
    exact absurd (hgone.symm.trans hf.2) (Option.some_ne_none a)
  | none =>
    cases herr : (s.census t).err with
    | some p =>
      refine ⟨_, rfl, fun a ha => (by cases ha), fun e n hf => ?_, fun _ he => (by cases he)⟩
      obtain rfl := Option.some_inj.1 (herr.symm.trans hf.1)
      exact hput _
    | none =>
      refine ⟨_, rfl, fun a ha => (by cases ha), fun e n hf => ?_, fun _ _ => ?_⟩
      · exact absurd (hf.1.symm.trans herr) (Option.some_ne_none _)
      · rw [← htouch]
        rfl

/-- A census that an absent page delays keeps what it has read (R67). -/
theorem census_delayed {a : Nat} (hg : (s.census t).gone = some a) : ∃ v : State, exec (.census t.id) s = .next v ∧
    launchIs v t.id fun x => x = { t with phase := .census, seen := (s.census t).seen } := by
  obtain ⟨v, hv, hgone, -, -⟩ := exec_census_makes h hc hp
  exact ⟨v, hv, launchIs_of_trees (hgone a hg) (launchIs_put h { t with phase := .census, seen := (s.census t).seen } rfl rfl)⟩

/-- A census of which a check fails ends its launch with that check and its node (R69). -/
theorem census_reports {e n : Nat} (hf : (s.census t).FailsAt e n) : reportsR s t e n := by
  obtain ⟨v, hv, -, hfails, -⟩ := exec_census_makes h hc hp
  refine ⟨v, hv, launchIs_of_trees (hfails e n hf) ?_⟩
  exact launchIs_put h { t with phase := .report, cause := e, at' := n } rfl ⟨rfl, rfl, rfl⟩

/-- A launch whose census has passed waits for the Shelf with its nodes (R67, R70). -/
theorem census_passed (hg : (s.census t).gone = none) (he : (s.census t).err = none) : ∃ v : State, exec (.census t.id) s = .next v ∧
    launchIs v t.id fun x => x.phase = .shelf ∧ x.nodes = (s.census t).nodes := by
  obtain ⟨v, hv, -, -, hpass⟩ := exec_census_makes h hc hp
  refine ⟨v, hv, ?_⟩
  unfold launchIs
  rw [hpass hg he]
  refine ⟨⟨_, List.mem_append_right _ (List.mem_singleton.2 rfl), rfl⟩, fun x hx hid => ?_⟩
  rcases List.mem_append.1 hx with hx | hx
  · simp [hid] at hx
  · rw [List.mem_singleton.1 hx]
    exact ⟨rfl, rfl⟩

/-- A census with nothing read before makes the checks of R69 in R67's order. -/
theorem census_checks (hs : t.seen = []) : let counted := 1 ≤ countR t ∧ countR t ≤ 2 ^ 24 ∧ rootR t < countR t
    (¬counted → reportsR s t 1 0) ∧ (counted → ¬zerosR t → reportsR s t 7 0) ∧
    (counted → zerosR t → (∀ k n, Walks s t (.node (rootR t)) [] (.fails k n) → reportsR s t k n) ∧
      (∀ l m, Walks s t (.node (rootR t)) [] (.passes l m) →
        (∀ i, i < countR t → i ∉ l → (∀ j, j < i → j ∈ l) → reportsR s t 6 i) ∧
        ((∀ i, i < countR t → i ∈ l) →
          (capR t = 0 ∨ 4096 < capR t ∨ capR t < m → reportsR s t 2 0) ∧
          (1 ≤ capR t → capR t ≤ 4096 → m ≤ capR t → ∃ v : State, exec (.census t.id) s = .next v ∧ launchIs v t.id fun x =>
            x.phase = .shelf ∧ x.nodes.map (fun y => y.idx) = List.range (countR t) ∧ ∀ y ∈ x.nodes, nodeIs s t y)))) := by
  intro counted
  have report {k n : Nat} (hf : (s.census t).FailsAt k n) : reportsR s t k n := census_reports h hc hp hf
  refine ⟨fun hn => report (State.census_count hn), fun hn hz => report (State.census_rsvd hn hz), fun hn hz =>
    ⟨fun k n hw => report (State.census_walkFails hs hn hz hw), fun l m hw => ?_⟩⟩
  obtain ⟨c, hcen, hreach, hmade, rfl⟩ := State.census_walkPasses hs hn hz hw
  refine ⟨fun i hi hl hlow => report ?_, fun hl => ⟨fun hcap => report ?_, fun h1 h2 h3 => ?_⟩⟩
  · rw [hcen]
    exact Census.finish_noReach hreach hi hl hlow
  · rw [hcen]
    exact Census.finish_cap hreach hl hcap
  · obtain ⟨herr, hgone, hidx, hnodes⟩ := Census.finish_passes hreach hl h1 h2 h3 hmade
    rw [← hcen] at herr hgone hidx hnodes
    obtain ⟨v, hv, hlaunch⟩ := census_passed h hc hp hgone herr
    exact ⟨v, hv, launchIs_imp hlaunch fun x hx => ⟨hx.1, by rw [hx.2]; exact hidx, by rw [hx.2]; exact hnodes⟩⟩

end

/-! ### Opening passes of an upward sweep (R72) -/

/-- A node without the marks that an opening pass leaves: whether it was refused a child, and whether its stall was counted. -/
def Node.bare (x : Node) : Node := { x with refused := false, counted := false }

/-- Two points of a sweep that differ only in the marks of opening passes. -/
structure Tree.Like (t u : Tree) : Prop where
  record : u.record = t.record
  nodes : u.nodes.map Node.bare = t.nodes.map Node.bare

/-- A node as an opening pass leaves it: as it was, or opened with its need as budget (R71, R72). -/
inductive Node.Opens (x y : Node) : Prop
  | stays : y.bare = x.bare → Node.Opens x y
  | opens : x.st = .unopened → y.bare = { x.bare with st := if x.children = [] then .ready else .opened, budget := x.need } →
      Node.Opens x y

/-- A launch as an opening pass goes on. -/
structure Tree.Opening (t u : Tree) : Prop where
  record : u.record = t.record
  idxs : u.nodes.map (fun x => x.idx) = t.nodes.map fun x => x.idx
  node : ∀ n y, nodeOf u.nodes n = some y → ∃ x, nodeOf t.nodes n = some x ∧ x.Opens y

/-- Node `n` of a launch is `x`, and the next child that it would open is `c`, node `y` (R72). -/
def Tree.Next (t : Tree) (n : Nat) (x : Node) (c : Nat) (y : Node) : Prop :=
  nodeOf t.nodes n = some x ∧ t.nextChild x = some c ∧ nodeOf t.nodes c = some y

/-- The next child of node `n`, if it has one, is refused (R72). -/
def Tree.Refuses (t : Tree) (n : Nat) : Prop := ∀ x c y, t.Next n x c y → x.budget < t.held x + t.open' x + y.need

/-- The nodes of a launch that are not opened. -/
def Tree.closed (t : Tree) : Nat := t.nodes.countP fun x => x.st = .unopened

/-- The nodes that a repetition of an opening pass tests (R72). -/
def Tree.tested (t : Tree) : List Nat := (t.nodes.filter fun x => t.opens x && (t.nextChild x).isSome).map fun x => x.idx

/-- The tests of a list of nodes, in their order. -/
def Tree.tests (t : Tree) (b : Bool) (ns : List Nat) : Tree × Bool :=
  ns.foldl (fun p n => ((p.1.tryOpen n).1, p.2 || (p.1.tryOpen n).2)) (t, b)

section
variable {t u v : Tree} {x y : Node}

theorem Tree.passLoop_succ (fuel : Nat) (t : Tree) :
    Tree.passLoop (fuel + 1) t =
      if (t.tests false t.tested).2 then Tree.passLoop fuel (t.tests false t.tested).1 else (t.tests false t.tested).1 := by
  have hfold : ∀ (p : Tree × Bool), (match p with | (t1, true) => Tree.passLoop fuel t1 | (t1, false) => t1) =
      if p.2 then Tree.passLoop fuel p.1 else p.1 := by
    rintro ⟨t1, _ | _⟩ <;> rfl
  rw [← hfold]
  rfl

theorem Node.bare_fields (h : y.bare = x.bare) : y.idx = x.idx ∧ y.children = x.children ∧ y.order = x.order ∧ y.st = x.st ∧
    y.released = x.released ∧ y.budget = x.budget ∧ y.need = x.need := by
  unfold Node.bare at h
  injection h
  refine ⟨?_, ?_, ?_, ?_, ?_, ?_, ?_⟩ <;> assumption

/-- Nodes that differ only in their marks. -/
theorem Node.eq_of_bare (h : y.bare = x.bare) : y = { x with refused := y.refused, counted := y.counted } := by
  cases x
  cases y
  unfold Node.bare at h
  simp only [Node.mk.injEq] at h ⊢
  tauto

theorem Tree.Like.refl (t : Tree) : t.Like t := ⟨rfl, rfl⟩
theorem Tree.Like.symm (h : t.Like u) : u.Like t := ⟨h.record.symm, h.nodes.symm⟩
theorem Tree.Like.trans (h : t.Like u) (k : u.Like v) : t.Like v := ⟨k.record.trans h.record, k.nodes.trans h.nodes⟩

/-- Marks set on some nodes. -/
theorem Tree.like_map (t : Tree) {f : Node → Node} (hf : ∀ x, (f x).bare = x.bare) : t.Like { t with nodes := t.nodes.map f } := by
  refine ⟨rfl, ?_⟩
  rw [List.map_map]
  exact List.map_congr_left fun x _ => hf x

theorem Tree.Like.nodeOf_bare (h : t.Like u) (n : Nat) : (nodeOf u.nodes n).map Node.bare = (nodeOf t.nodes n).map Node.bare := by
  rw [← nodeOf_map (f := Node.bare) fun _ => rfl, ← nodeOf_map (f := Node.bare) fun _ => rfl, h.nodes]

theorem Tree.Like.node (h : t.Like u) {n : Nat} (hx : nodeOf t.nodes n = some x) : ∃ y, nodeOf u.nodes n = some y ∧ y.bare = x.bare := by
  have hb := h.nodeOf_bare n
  rw [hx] at hb
  exact Option.map_eq_some_iff.1 hb

theorem Tree.Like.down (h : t.Like u) : u.down = t.down := by
  unfold Tree.down Tree.fld
  rw [h.record]

/-- What a sweep reads of a node does not depend on the marks. -/
theorem Tree.Like.read {α : Type} (h : t.Like u) (n : Nat) (f : Node → α) (d : α) (hf : ∀ x, f x.bare = f x) :
    ((nodeOf u.nodes n).map f).getD d = ((nodeOf t.nodes n).map f).getD d := by
  have hbare : ∀ o : Option Node, o.map f = (o.map Node.bare).map f := by
    intro o
    rw [Option.map_map]
    exact congrArg (Option.map · o) (funext fun x => (hf x).symm)
  rw [hbare (nodeOf u.nodes n), hbare (nodeOf t.nodes n), h.nodeOf_bare]

theorem Tree.stOf_eq (t : Tree) (n : Nat) : t.stOf n = ((nodeOf t.nodes n).map fun x => x.st).getD .unopened := by
  unfold Tree.stOf
  cases nodeOf t.nodes n <;> rfl

theorem Tree.Like.stOf (h : t.Like u) (n : Nat) : u.stOf n = t.stOf n := by
  rw [u.stOf_eq, t.stOf_eq]
  exact h.read n _ _ fun _ => rfl

section
variable (hd : t.down = false)
include hd

theorem Tree.held_up (x : Node) : t.held x = heldR t x := by
  unfold Tree.held heldR
  rw [if_neg (by simp [hd]), List.countP_eq_length_filter]
  congr 2
  funext c
  unfold Tree.stOf nodeOf
  cases t.nodes.find? fun y => y.idx == c <;> rfl

theorem Tree.open_up (x : Node) : t.open' x = openR t x := by
  unfold Tree.open' openR
  rw [← List.sum_eq_foldl]
  congr 2
  funext c
  unfold nodeOf
  cases t.nodes.find? fun y => y.idx == c with
  | none => rfl
  | some y => simp [hd, NState.final, Bool.or_assoc]

theorem Tree.nextChild_up (x : Node) : t.nextChild x = x.order.find? fun c => unopenedR t c := by
  unfold Tree.nextChild
  rw [if_neg (by simp [hd])]
  congr 1
  funext c
  unfold Tree.stOf unopenedR nodeOf
  cases t.nodes.find? fun y => y.idx == c <;> rfl

theorem Tree.opens_up (x : Node) : t.opens x = true ↔ x.st = .opened ∧ x.released = false := by
  unfold Tree.opens
  simp [hd]

theorem Tree.openState_up (x : Node) : t.openState x = if x.children = [] then .ready else .opened := by
  unfold Tree.openState
  simp [hd]

end

/-- The sums of a node's children do not depend on the marks of the nodes. -/
theorem Tree.Like.held (h : t.Like u) (hd : t.down = false) (hb : y.bare = x.bare) : u.held y = t.held x := by
  obtain ⟨-, hch, -⟩ := Node.bare_fields hb
  unfold Tree.held
  rw [h.down, hd, hch]
  simp only [h.stOf]

/-- What a child counts in open(n) (R72, R77). -/
def Node.openBudget (x : Node) : Nat := if x.st = .unopened || x.st = .done || x.st = .faulted || x.released then 0 else x.budget

theorem openR_eq (t : Tree) (x : Node) : openR t x = (x.children.map fun c => ((nodeOf t.nodes c).map Node.openBudget).getD 0).sum := by
  unfold openR
  congr 2
  funext c
  unfold nodeOf
  cases t.nodes.find? fun y => y.idx == c <;> rfl

theorem Tree.Like.open' (h : t.Like u) (hd : t.down = false) (hb : y.bare = x.bare) : u.open' y = t.open' x := by
  obtain ⟨-, hch, -⟩ := Node.bare_fields hb
  have hread (c : Nat) := h.read c Node.openBudget 0 fun _ => rfl
  rw [Tree.open_up (h.down.trans hd), Tree.open_up hd, openR_eq, openR_eq, hch]
  simp only [hread]

theorem Tree.Like.nextChild (h : t.Like u) (hb : y.bare = x.bare) : u.nextChild y = t.nextChild x := by
  obtain ⟨-, -, hord, -⟩ := Node.bare_fields hb
  unfold Tree.nextChild
  rw [h.down, hord]
  simp only [h.stOf]

theorem Tree.Like.opens (h : t.Like u) (hb : y.bare = x.bare) : u.opens y = t.opens x := by
  obtain ⟨-, -, -, hst, hrel, -⟩ := Node.bare_fields hb
  unfold Tree.opens
  rw [h.down, hst, hrel]

theorem Tree.Like.refuses (h : t.Like u) (hd : t.down = false) {n : Nat} (hr : t.Refuses n) : u.Refuses n := by
  rintro x c y ⟨hx, hc, hy⟩
  obtain ⟨x', hx', hbx⟩ := h.symm.node hx
  obtain ⟨y', hy', hby⟩ := h.symm.node hy
  have hsum := hr x' c y' ⟨hx', (h.symm.nextChild hbx).trans hc, hy'⟩
  rw [h.symm.held (h.down.trans hd) hbx, h.symm.open' (h.down.trans hd) hbx] at hsum
  obtain ⟨-, -, -, -, -, hbud, -⟩ := Node.bare_fields hbx
  obtain ⟨-, -, -, -, -, -, hneed⟩ := Node.bare_fields hby
  rwa [hbud, hneed] at hsum

theorem Tree.Like.closed (h : t.Like u) : u.closed = t.closed := by
  have hmap (w : Tree) : w.closed = (w.nodes.map Node.bare).countP fun x => x.st = .unopened := by
    rw [List.countP_map]
    rfl
  rw [hmap u, hmap t, h.nodes]

/-! One test, and a repetition. -/

theorem Tree.Like.opening (h : t.Like u) : t.Opening u := by
  have hidx (w : Tree) : w.nodes.map (fun x => x.idx) = (w.nodes.map Node.bare).map fun x => x.idx := by
    rw [List.map_map]
    rfl
  refine ⟨h.record, by rw [hidx u, hidx t, h.nodes], fun n y hy => ?_⟩
  obtain ⟨x, hx, hb⟩ := h.symm.node hy
  exact ⟨x, hx, .stays hb.symm⟩

theorem Node.Opens.trans {z : Node} (h : x.Opens y) (k : y.Opens z) : x.Opens z := by
  cases h with
  | stays hb =>
    cases k with
    | stays hz => exact .stays (hz.trans hb)
    | opens hst hz =>
      obtain ⟨-, hch, -, hxy, -, -, hneed⟩ := Node.bare_fields hb
      exact .opens (hxy.symm.trans hst) (by rw [hz, hb, hch, hneed])
  | opens hst hb =>
    cases k with
    | stays hz => exact .opens hst (hz.trans hb)
    | opens hst' _ =>
      have hy : y.st = if x.children = [] then .ready else .opened := congrArg Node.st hb
      rw [hst'] at hy
      split at hy <;> cases hy

theorem Tree.Opening.trans (h : t.Opening u) (k : u.Opening v) : t.Opening v := by
  refine ⟨k.record.trans h.record, k.idxs.trans h.idxs, fun n z hz => ?_⟩
  obtain ⟨y, hy, hyz⟩ := k.node n z hz
  obtain ⟨x, hx, hxy⟩ := h.node n y hy
  exact ⟨x, hx, hxy.trans hyz⟩

theorem Tree.Opening.down (h : t.Opening u) : u.down = t.down := by
  unfold Tree.down Tree.fld
  rw [h.record]

theorem Tree.openState_ne (t : Tree) (x : Node) : t.openState x ≠ .unopened := by
  unfold Tree.openState
  split
  · exact fun h => by cases h
  · exact fun h => by cases h

theorem countP_lt_of_mem {α : Type} {p q : α → Bool} {l : List α} {a : α} (h : ∀ x, q x = true → p x = true) (ha : a ∈ l)
    (hp : p a = true) (hq : q a = false) : l.countP q < l.countP p := by
  obtain ⟨as, bs, rfl⟩ := List.append_of_mem ha
  have h1 := List.countP_mono_left (l := as) fun x _ => h x
  have h2 := List.countP_mono_left (l := bs) fun x _ => h x
  simp only [List.countP_append, List.countP_cons, hp, hq, if_true, Bool.false_eq_true, if_false]
  omega

/-- A child that is opened: no other node changes, and one fewer is not open. -/
theorem Tree.opening_upd (hd : t.down = false) {c : Nat} {e : Node → Option Nat} (hy : nodeOf t.nodes c = some y) (hst : y.st = .unopened)
    (he : ∀ x, e x = x.entry) : t.Opening (t.upd c fun x => { x with budget := x.need, st := t.openState x, entry := e x }) ∧
      (t.upd c fun x => { x with budget := x.need, st := t.openState x, entry := e x }).closed < t.closed := by
  refine ⟨⟨rfl, ?_, fun n z hz => ?_⟩, ?_⟩
  · unfold Tree.upd updWhere
    rw [List.map_map]
    refine List.map_congr_left fun x _ => ?_
    rw [Function.comp_apply]
    split <;> rfl
  · rw [Tree.nodeOf_upd t (f := fun x => { x with budget := x.need, st := t.openState x, entry := e x }) fun _ => rfl] at hz
    obtain ⟨x, hx, rfl⟩ := Option.map_eq_some_iff.1 hz
    refine ⟨x, hx, ?_⟩
    by_cases hxc : x.idx = c
    · have hnc : n = c := (nodeOf_idx hx).symm.trans hxc
      obtain rfl := Option.some_inj.1 (hx.symm.trans (hnc ▸ hy))
      rw [if_pos (beq_iff_eq.2 hxc), Tree.openState_up hd, he]
      exact .opens hst rfl
    · rw [if_neg (by simpa using hxc)]
      exact .stays rfl
  · unfold Tree.closed Tree.upd updWhere
    rw [List.countP_map]
    refine countP_lt_of_mem (fun x hx => ?_) (List.mem_of_find?_eq_some hy) (by simp [hst]) ?_
    · rw [Function.comp_apply] at hx
      by_cases hxc : x.idx = c
      · rw [if_pos (beq_iff_eq.2 hxc)] at hx
        exact absurd (of_decide_eq_true hx) (t.openState_ne x)
      · rwa [if_neg (by simpa using hxc)] at hx
    · rw [Function.comp_apply, if_pos (beq_iff_eq.2 (nodeOf_idx hy))]
      exact decide_eq_false (t.openState_ne y)

/-- A node that has no child to open is passed over. -/
theorem Tree.tryOpen_idle {n : Nat} (h : ∀ x c y, ¬t.Next n x c y) : t.tryOpen n = (t, false) := by
  unfold Tree.tryOpen
  split
  · rfl
  · next x hx =>
    split
    · rfl
    · next c hc =>
      split
      · rfl
      · next y hy => exact absurd ⟨hx, hc, hy⟩ (h x c y)

/-- The test of R72. -/
theorem Tree.tryOpen_next (hd : t.down = false) {n c : Nat} (h : t.Next n x c y) : t.tryOpen n =
    if t.held x + t.open' x + y.need ≤ x.budget then
      (t.upd c fun z => { z with budget := z.need, st := t.openState z
                                 entry := if t.down then x.entries.getD (x.children.idxOf c) none else z.entry }, true)
    else (t.upd n fun z => { z with refused := true }, false) := by
  obtain ⟨hx, hc, hy⟩ := h
  rw [Tree.tryOpen, hx]
  dsimp only
  rw [hc]
  dsimp only
  rw [hy]
  simp only [hd, Bool.false_eq_true, if_false]

/-- A test opens the node's next child, or leaves all as it is and refuses it (R72). -/
theorem Tree.tryOpen_cases (hd : t.down = false) (n : Nat) :
    ((t.tryOpen n).2 = true ∧ t.Opening (t.tryOpen n).1 ∧ (t.tryOpen n).1.closed < t.closed) ∨
      ((t.tryOpen n).2 = false ∧ t.Like (t.tryOpen n).1 ∧ t.Refuses n) := by
  by_cases h : ∃ x c y, t.Next n x c y
  · obtain ⟨x, c, y, hx, hc, hy⟩ := h
    rw [Tree.tryOpen_next hd ⟨hx, hc, hy⟩]
    by_cases hsum : t.held x + t.open' x + y.need ≤ x.budget
    · have hst : y.st = .unopened := by
        have := Tree.nextChild_unopened hc
        rw [Tree.stOf, hy] at this
        exact this
      rw [if_pos hsum]
      exact .inl ⟨rfl, Tree.opening_upd hd hy hst fun z => if_neg (by simp [hd])⟩
    · rw [if_neg hsum]
      refine .inr ⟨rfl, t.like_map fun z => ?_, fun x' c' y' ⟨h, h', h''⟩ => ?_⟩
      · split <;> rfl
      · obtain rfl := Option.some_inj.1 (h.symm.trans hx)
        obtain rfl := Option.some_inj.1 (h'.symm.trans hc)
        obtain rfl := Option.some_inj.1 (h''.symm.trans hy)
        exact Nat.lt_of_not_le hsum
  · rw [Tree.tryOpen_idle fun x c y hn => h ⟨x, c, y, hn⟩]
    exact .inr ⟨rfl, .refl t, fun x c y hn => absurd ⟨x, c, y, hn⟩ h⟩

/-- A repetition of an opening pass opens nodes, or refuses all that it tests (R72). -/
theorem Tree.tests_cases (hd : t.down = false) (b : Bool) (ns : List Nat) :
    t.Opening (t.tests b ns).1 ∧ (t.tests b ns).1.closed ≤ t.closed ∧
    ((t.tests b ns).2 = true → b = true ∨ (t.tests b ns).1.closed < t.closed) ∧
    ((t.tests b ns).2 = false → b = false ∧ t.Like (t.tests b ns).1 ∧ ∀ n ∈ ns, t.Refuses n) := by
  induction ns generalizing t b with
  | nil => exact ⟨(Tree.Like.refl t).opening, le_rfl, .inl, fun h => ⟨h, .refl t, fun _ h => by cases h⟩⟩
  | cons n ns ih =>
    have hrun : t.tests b (n :: ns) = (t.tryOpen n).1.tests (b || (t.tryOpen n).2) ns := rfl
    rw [hrun]
    rcases Tree.tryOpen_cases hd n with ⟨htrue, hopen, hlt⟩ | ⟨hfalse, hlike, href⟩
    · obtain ⟨hop, hle, hyes, hno⟩ := ih (hopen.down.trans hd) (b || (t.tryOpen n).2)
      refine ⟨hopen.trans hop, hle.trans hlt.le, fun _ => .inr (hle.trans_lt hlt), fun h => ?_⟩
      have := (hno h).1
      rw [htrue, Bool.or_true] at this
      cases this
    · have hd' := hlike.down.trans hd
      obtain ⟨hop, hle, hyes, hno⟩ := ih hd' (b || (t.tryOpen n).2)
      rw [hlike.closed] at hle hyes
      refine ⟨hlike.opening.trans hop, hle, fun h => (hyes h).imp_left fun hb => ?_, fun h => ?_⟩
      · rwa [hfalse, Bool.or_false] at hb
      · obtain ⟨hb, hlike', hrefs⟩ := hno h
        rw [hfalse, Bool.or_false] at hb
        exact ⟨hb, hlike.trans hlike', List.forall_mem_cons.2 ⟨href, fun m hm => hlike.symm.refuses hd' (hrefs m hm)⟩⟩

/-- The repetitions of an opening pass end where every node that they test is refused (R72): each before the last opens a node. -/
theorem Tree.passLoop_ends (hd : t.down = false) {fuel : Nat} (h : t.closed < fuel) : t.Opening (Tree.passLoop fuel t) ∧
    ∃ u : Tree, u.down = false ∧ u.Like (Tree.passLoop fuel t) ∧ ∀ n ∈ u.tested, u.Refuses n := by
  induction fuel generalizing t with
  | zero => cases h
  | succ fuel ih =>
    obtain ⟨hop, -, hyes, hno⟩ := Tree.tests_cases hd false t.tested
    rw [Tree.passLoop_succ]
    cases hb : (t.tests false t.tested).2 with
    | true =>
      have hlt : (t.tests false t.tested).1.closed < t.closed := (hyes hb).resolve_left Bool.false_ne_true
      obtain ⟨hop', hend⟩ := ih (hop.down.trans hd) (by omega)
      exact ⟨hop.trans hop', hend⟩
    | false =>
      obtain ⟨-, hlike, hrefs⟩ := hno hb
      exact ⟨hop, t, hd, hlike, hrefs⟩

/-- An opening pass of an upward sweep (R72). -/
theorem Tree.pass_ends (hd : t.down = false) : t.Opening t.pass.1 ∧
    ∃ u : Tree, u.down = false ∧ u.Like t.pass.1 ∧ ∀ n ∈ u.tested, u.Refuses n := by
  have hclear : t.Like { t with nodes := t.nodes.map fun x => { x with refused := false } } := t.like_map fun _ => rfl
  have hfuel : Tree.closed { t with nodes := t.nodes.map fun x => { x with refused := false } } < t.nodes.length + 1 := by
    rw [hclear.closed]
    exact Nat.lt_succ_of_le List.countP_le_length
  obtain ⟨hop, u, hu, hlike, hrefs⟩ := Tree.passLoop_ends (hclear.down.trans hd) hfuel
  have hcount (w : Tree) (ids : List Nat) :
      w.Like { w with nodes := w.nodes.map fun x => if ids.contains x.idx then { x with counted := true } else x } :=
    w.like_map fun x => by split <;> rfl
  exact ⟨(hclear.opening.trans hop).trans (hcount _ _).opening, u, hu, hlike.trans (hcount _ _), hrefs⟩

theorem nodeOf_of_mem {ns : List Node} (h : (ns.map fun x => x.idx).Nodup) (hx : x ∈ ns) : nodeOf ns x.idx = some x := by
  unfold nodeOf
  obtain ⟨y, hy⟩ := Option.isSome_iff_exists.1
    (List.find?_isSome (p := fun y : Node => y.idx == x.idx).2 ⟨x, hx, beq_self_eq_true x.idx⟩)
  have hidx : y.idx = x.idx := by simpa using List.find?_some hy
  rw [hy, List.inj_on_of_nodup_map h (List.mem_of_find?_eq_some hy) hx hidx]

/-- A node that an opening pass leaves has its state, or is opened with its need as budget (R71, R72). -/
theorem Tree.pass_node (hd : t.down = false) {n : Nat} (hx : nodeOf t.nodes n = some x) (hy : nodeOf t.pass.1.nodes n = some y) :
    y = { x with refused := y.refused, counted := y.counted } ∨
      x.st = .unopened ∧ y = { x with st := if x.children = [] then .ready else .opened, budget := x.need, refused := y.refused
                                      counted := y.counted } := by
  obtain ⟨x', hx', hop⟩ := (Tree.pass_ends hd).1.node n y hy
  obtain rfl := Option.some_inj.1 (hx'.symm.trans hx)
  cases hop with
  | stays hb => exact .inl (Node.eq_of_bare hb)
  | opens hst hb =>
    exact .inr ⟨hst, Node.eq_of_bare (x := { x' with st := if x'.children = [] then .ready else .opened, budget := x'.need }) hb⟩

/-- At the end of an opening pass no opened node has room for the first child that it has not opened (R72). -/
theorem Tree.pass_noRoom (hd : t.down = false) (hn : (t.nodes.map fun x => x.idx).Nodup) (hx : x ∈ t.pass.1.nodes) (hst : x.st = .opened)
    (hr : x.released = false) {c : Nat} (hc : x.order.find? (fun c => unopenedR t.pass.1 c) = some c)
    (hy : nodeOf t.pass.1.nodes c = some y) : x.budget < heldR t.pass.1 x + openR t.pass.1 x + y.need := by
  obtain ⟨hop, u, hu, hlike, hrefs⟩ := Tree.pass_ends hd
  have hdv := hop.down.trans hd
  have hxv : nodeOf t.pass.1.nodes x.idx = some x := nodeOf_of_mem (by rw [hop.idxs]; exact hn) hx
  have hnext : t.pass.1.nextChild x = some c := (Tree.nextChild_up hdv x).trans hc
  obtain ⟨z, hz, hb⟩ := hlike.symm.node hxv
  have htest : x.idx ∈ u.tested := by
    refine List.mem_map.2 ⟨z, List.mem_filter.2 ⟨List.mem_of_find?_eq_some hz, ?_⟩, nodeOf_idx hz⟩
    rw [hlike.symm.opens hb, hlike.symm.nextChild hb, hnext, (Tree.opens_up hdv x).2 ⟨hst, hr⟩]
    rfl
  have hroom := hlike.refuses hu (hrefs _ htest) x c y ⟨hxv, hnext, hy⟩
  rwa [Tree.held_up hdv, Tree.open_up hdv] at hroom

end

/-! ### The Shelf (R70) -/

/-- A launch of which only nodes and free entries have changed. -/
def Tree.Moves (t u : Tree) : Prop := ∃ ns fs, u = { t with nodes := ns, free := fs }

section
variable {t u v : Tree}

theorem Tree.Moves.refl (t : Tree) : t.Moves t := ⟨_, _, rfl⟩

theorem Tree.Moves.trans (h : t.Moves u) (k : u.Moves v) : t.Moves v := by
  obtain ⟨_, _, rfl⟩ := h
  obtain ⟨_, _, rfl⟩ := k
  exact ⟨_, _, rfl⟩

theorem Tree.moves_foldl {α : Type} {f : Tree → α → Tree} (h : ∀ (t : Tree) (a : α), t.Moves (f t a)) (l : List α) (t : Tree) :
    t.Moves (l.foldl f t) :=
  List.foldlRecOn l f (motive := fun u => t.Moves u) (.refl t) fun u hu a _ => hu.trans (h u a)

theorem Tree.moves_release (fuel : Nat) (t : Tree) : t.Moves (Tree.release fuel t) := by
  induction fuel generalizing t with
  | zero => exact .refl t
  | succ fuel ih =>
    unfold Tree.release
    split
    · next x _ =>
      have hfree : t.Moves (t.freeSubtree x.idx) := Tree.moves_foldl (f := fun t e => t.freeEntry e) (fun _ _ => ⟨_, _, rfl⟩) _ t
      have hupd (w : Tree) : w.Moves (w.upd x.idx fun y => { y with released := true }) := ⟨_, _, rfl⟩
      exact (hfree.trans (hupd _)).trans (ih _)
    · exact .refl t

theorem Tree.moves_tryOpen (t : Tree) (n : Nat) : t.Moves (t.tryOpen n).1 := by
  have either (p : Prop) [Decidable p] {a b : Tree} (ha : t.Moves a) (hb : t.Moves b) : t.Moves (if p then (a, true) else (b, false)).1 := by
    split
    · exact ha
    · exact hb
  unfold Tree.tryOpen
  split
  · exact .refl t
  · split
    · exact .refl t
    · split
      · exact .refl t
      · exact either _ ⟨_, _, rfl⟩ ⟨_, _, rfl⟩

theorem Tree.moves_passLoop (fuel : Nat) (t : Tree) : t.Moves (Tree.passLoop fuel t) := by
  induction fuel generalizing t with
  | zero => exact .refl t
  | succ fuel ih =>
    have htests : t.Moves (t.tests false t.tested).1 :=
      List.foldlRecOn (motive := fun p : Tree × Bool => t.Moves p.1) _ _ (.refl t) fun p hp n _ => hp.trans (p.1.moves_tryOpen n)
    rw [Tree.passLoop_succ]
    split
    · exact htests.trans (ih _)
    · exact htests

theorem Tree.moves_pass (t : Tree) : t.Moves t.pass.1 := by
  have hclear : t.Moves { t with nodes := t.nodes.map fun x => { x with refused := false } } := ⟨_, _, rfl⟩
  obtain ⟨ns, fs, h⟩ := hclear.trans (Tree.moves_passLoop (t.nodes.length + 1) _)
  unfold Tree.pass
  dsimp only
  rw [h]
  exact ⟨_, _, rfl⟩

/-- What follows an event of a sweep that is not cancelled: only nodes and free entries change, until the sweep ends. -/
theorem State.settleTree_moves (s : State) (hc : t.cancelled = false) : ∃ ds u, s.settleTree t = State.putTree { s with dies := ds } u ∧
    u.id = t.id ∧ u.shelf = t.shelf ∧ (u.phase = .ending ∨ u.phase = t.phase) := by
  have hup : t.Moves (if t.down then t else Tree.release t.nodes.length t.readyUp) := by
    split
    · exact .refl t
    · have hready : t.Moves t.readyUp := ⟨_, _, rfl⟩
      exact hready.trans (Tree.moves_release _ _)
  have hpass := hup.trans (Tree.moves_pass _)
  cases hp : (if t.down then t else Tree.release t.nodes.length t.readyUp).pass with
  | mk u n =>
    rw [hp] at hpass
    obtain ⟨ns, fs, rfl⟩ := hpass
    obtain ⟨ds, hds⟩ := s.settleTree_of_sweeping hc hp
    refine ⟨ds, _, hds, ?_⟩
    split
    · exact ⟨rfl, rfl, .inl rfl⟩
    · exact ⟨rfl, rfl, .inr rfl⟩

end

theorem find?_filter_of_pos {α : Type} {p q : α → Bool} {l : List α} {x : α} (h : l.find? q = some x) (hp : p x = true) :
    (l.filter p).find? q = some x := by
  obtain ⟨hq, as, bs, rfl, has⟩ := List.find?_eq_some_iff_append.1 h
  rw [List.filter_append, List.filter_cons_of_pos hp]
  exact List.find?_eq_some_iff_append.2 ⟨hq, _, _, rfl, fun a ha => has a (List.mem_of_mem_filter ha)⟩

section
variable {s : State} {t : Tree} (h : s.trees.find? (fun x => x.id == t.id) = some t)
include h

/-- A launch that waits for the Shelf, found by its identity. -/
theorem find?_shelf (hp : t.phase = .shelf) : (s.trees.filter fun x => x.phase = .shelf).find? (fun x => x.id == t.id) = some t :=
  find?_filter_of_pos h (by simp [hp])

/-- A launch that is cancelled while it waits for the Shelf ends at once (R46). -/
theorem exec_shelf_cancelled (hc : t.cancelled = true) (hp : t.phase = .shelf) :
    exec (.shelfReservation t.id) s = .next (s.putTree { t with phase := .ending }) := by
  have hexec : exec (.shelfReservation t.id) s = execShelfReservation t.id s := rfl
  rw [hexec]
  unfold execShelfReservation
  rw [find?_shelf h hp]
  dsimp only
  rw [if_pos hc]

/-- The launch as it begins its sweep (R70, R72, R76). -/
def Tree.begins (t : Tree) : Tree :=
  let t1 := { t with phase := .sweeping, shelf := List.replicate t.cap shelfZero, free := List.range t.cap }
  let t2 := t1.upd t.root fun x => { x with budget := t.cap, st := t.openState x }
  if t.down then { (t2.upd t.root fun x => { x with entry := some 0 }) with free := (List.range t.cap).drop 1 } else t2

variable (hc : t.cancelled = false) (hp : t.phase = .shelf)
  (hfirst : ∀ x, s.trees.find? (fun x => x.die = t.die && x.phase = .shelf) = some x → x.id = t.id)
include hc hp hfirst

/-- The reservation of the launch whose census passed first of those that wait (R70). -/
theorem exec_shelf_first : exec (.shelfReservation t.id) s =
    if 65536 < s.shelfUsed t.die + t.cap then .next s else .next (s.settleTree t.begins) := by
  have hexec : exec (.shelfReservation t.id) s = execShelfReservation t.id s := rfl
  obtain ⟨x, hx⟩ : ∃ x, s.trees.find? (fun x => x.die = t.die && x.phase = .shelf) = some x :=
    Option.isSome_iff_exists.1 (List.find?_isSome.2 ⟨t, List.mem_of_find?_eq_some h, by simp [hp]⟩)
  have hid := hfirst x hx
  rw [hexec]
  unfold execShelfReservation
  rw [find?_shelf h hp]
  dsimp only
  rw [hx, if_neg (by simp [hc])]
  by_cases hfull : 65536 < s.shelfUsed t.die + t.cap
  · rw [if_pos hfull, if_pos (by simp [hfull])]
  · rw [if_neg hfull, if_neg (by simp [hfull, hid])]
    rfl

/-- A launch for which the Shelf has no room waits (R70). -/
theorem shelf_waits (hfull : 65536 < s.shelfUsed t.die + t.cap) : exec (.shelfReservation t.id) s = .next s := by
  rw [exec_shelf_first h hc hp hfirst, if_pos hfull]

/-- A launch for which the Shelf has room takes CAP zeroed entries (R70). -/
theorem shelf_given (hroom : s.shelfUsed t.die + t.cap ≤ 65536) : ∃ v : State, exec (.shelfReservation t.id) s = .next v ∧
    launchIs v t.id fun x => x.phase ≠ .shelf ∧ x.shelf = List.replicate t.cap (List.replicate 8 0#64) := by
  have hbegin : t.begins.cancelled = false ∧ t.begins.id = t.id ∧ t.begins.phase = .sweeping ∧
      t.begins.shelf = List.replicate t.cap (List.replicate 8 0#64) := by
    unfold Tree.begins
    dsimp only
    split
    · exact ⟨hc, rfl, rfl, rfl⟩
    · exact ⟨hc, rfl, rfl, rfl⟩
  obtain ⟨hbc, hbid, hbp, hbs⟩ := hbegin
  obtain ⟨ds, u, hu, hid, hshelf, hphase⟩ := s.settleTree_moves hbc
  refine ⟨s.settleTree t.begins, by rw [exec_shelf_first h hc hp hfirst, if_neg (Nat.not_lt.2 hroom)], ?_⟩
  rw [hu]
  refine launchIs_putTree (s := { s with dies := ds }) (tree_mem h) (hid.trans hbid) ⟨?_, hshelf.trans hbs⟩
  rcases hphase with hphase | hphase
  · rw [hphase]
    exact fun he => by cases he
  · rw [hphase, hbp]
    exact fun he => by cases he

end

/-! ### The dispatch of nodes (R73) -/

/-- A ready node's dispatch (R73): placed at once where it may be, for `execNodeDispatch`. -/
def State.sendNode (s : State) (t : Tree) (x : Node) : State :=
  let t1 := (t.upd x.idx fun x => { x with dispatched := true }).leafEntry x.idx
  let d : Dispatch :=
    { id := s.nextId, kind := .node, tag := t.tag, slot := t.slot, shape := t.shape x.kind x.teams, args := x.args
      next := 0, total := 1, num := 0, first := 256 * t.die, count := 256, pair := false, cursor := t.cursor
      held := none, flying := false, node := some x.idx, tree := some t.id, future := none, regions := []
      after := [], rspad := 0, records := [], rw := 0 }
  let s1 := s.newId.2.putTree t1
  let s2 := { s1 with dispatches := s1.dispatches ++ [d] }
  if s2.mayPlace d then s2.tryPlace d else s2

/-- Node `n` of a launch has been dispatched. -/
def Tree.sent (n : Nat) (t : Tree) : Prop := ∀ z ∈ t.nodes, z.idx = n → z.dispatched = true

section
variable {s : State} {t : Tree} {d : Dispatch}

/-- A node of higher index is kept back until a ready one is placed (R73). -/
theorem mayPlace_behind (ht : t ∈ s.trees) {x : Node} {n : Nat} (hk : d.kind = .node) (hd : d.tree = some t.id) (hn : d.node = some n)
    (hx : x ∈ t.nodes) (hst : x.st = .ready) (hlt : x.idx < n) : s.mayPlace d = false := by
  have hbehind : s.behindNode d = true := by
    unfold State.behindNode
    rw [hd, hn]
    simp only [hk, decide_true, Bool.true_and, List.any_eq_true]
    exact ⟨t, ht, by simp only [beq_self_eq_true, Bool.true_and, List.any_eq_true]; exact ⟨x, hx, by simp [hst, hlt]⟩⟩
  unfold State.mayPlace
  rw [hbehind]
  simp

/-- A node that has been dispatched is so while it is placed. -/
theorem State.sent_nodeRuns {l n k : Nat} (h : launchIs s l (Tree.sent n)) : launchIs (s.nodeRuns d k) l (Tree.sent n) := by
  unfold State.nodeRuns
  split
  · obtain ⟨hex, hall⟩ := h
    refine ⟨exists_mem_updWhere hex fun _ hx => hx, forall_mem_updWhere.2 fun x hx => ?_⟩
    split
    · intro hid
      exact forall_mem_updWhere.2 fun z hz => by split; exacts [hall x hx hid z hz, hall x hx hid z hz]
    · exact hall x hx
  · exact h

theorem State.putDispatch_trees (s : State) (d : Dispatch) : (s.putDispatch d).trees = s.trees := by
  unfold State.putDispatch
  split <;> rfl

/-- An attempt to place a node's only block places it or leaves the dispatch, and its launch knows it for dispatched (R49, R73). -/
theorem State.tryPlace_node {l n : Nat} (hk : d.kind = .node) (hp : d.pair = false) (ht : d.total = 1) (h0 : d.next = 0)
    (hd : d ∈ s.dispatches) (h : launchIs s l (Tree.sent n)) : launchIs (s.tryPlace d) l (Tree.sent n) ∧
      ((∃ e ∈ (s.tryPlace d).dispatches, e.kind = .node ∧ e.tree = d.tree ∧ e.node = d.node ∧ e.args = d.args) ∨
        ∃ b ∈ (s.tryPlace d).blocks, b.tree = d.tree ∧ b.node = d.node ∧ b.tag = d.tag) := by
  unfold State.tryPlace
  cases s.findCore d with
  | none =>
    have hpark : ∃ e : Dispatch, s.parkDispatch d = e ∧ e.id = d.id ∧ e.next < e.total ∧ e.kind = .node ∧ e.tree = d.tree ∧
        e.node = d.node ∧ e.args = d.args := by
      have hlt : d.next < d.total := by omega
      unfold State.parkDispatch
      split
      · exact ⟨_, rfl, rfl, hlt, hk, rfl, rfl, rfl⟩
      · exact ⟨_, rfl, rfl, hlt, hk, rfl, rfl, rfl⟩
    obtain ⟨e, he, hid, hlt, hfields⟩ := hpark
    dsimp only
    rw [he]
    exact ⟨launchIs_of_trees (State.putDispatch_trees _ _) h, .inl ⟨e, State.mem_putDispatch ⟨d, hd, hid.symm⟩ hlt, hfields⟩⟩
  | some c =>
    have hstart : ∃ b : Block, s.startBlock d d.id c d.next none = { s with blocks := s.blocks ++ [b] } ∧
        b.tree = d.tree ∧ b.node = d.node ∧ b.tag = d.tag := ⟨_, rfl, rfl, rfl, rfl⟩
    obtain ⟨b, hb, hfields⟩ := hstart
    have hplace : s.placeAt d c = (State.nodeRuns { s with blocks := s.blocks ++ [b] } d (d.after' c)).putDispatch
        { d with next := d.next + 1, cursor := d.next' c } := by
      rw [← hb]
      unfold State.placeAt State.binRuns
      rw [if_neg (by simp [hp]), if_pos ht]
      dsimp only
      rw [if_neg (by simp [hk])]
    dsimp only
    rw [hplace]
    refine ⟨launchIs_of_trees (State.putDispatch_trees _ _) (State.sent_nodeRuns h), .inr ⟨b, ?_, hfields⟩⟩
    rw [State.putDispatch_blocks, (State.nodeRuns_marks _ _ _).blocks]
    exact List.mem_append_right _ (List.mem_singleton.2 rfl)

/-- A node marked as dispatched, with its entry where it is a leaf (R18, R73). -/
theorem Tree.sent_leafEntry (t : Tree) (n : Nat) :
    ((t.upd n fun x => { x with dispatched := true }).leafEntry n).sent n ∧
      ((t.upd n fun x => { x with dispatched := true }).leafEntry n).id = t.id := by
  have hsent : (t.upd n fun x => { x with dispatched := true }).sent n := by
    refine forall_mem_updWhere.2 fun z _ => ?_
    split
    · exact fun _ => rfl
    · next hz => exact fun he => absurd (beq_iff_eq.2 he) hz
  have hentry (u : Tree) (e : Nat) (fs : List Nat) (sh : List (List Dword)) (hu : u.sent n) :
      Tree.sent n { (u.upd n fun x => { x with entry := some e }) with free := fs, shelf := sh } :=
    forall_mem_updWhere.2 fun z hz => by split; exacts [hu z hz, hu z hz]
  unfold Tree.leafEntry
  split
  · split
    · exact ⟨hentry _ _ _ _ hsent, rfl⟩
    · exact ⟨hsent, rfl⟩
  · exact ⟨hsent, rfl⟩

end

section
variable {s : State} {t : Tree} (h : s.trees.find? (fun x => x.id == t.id) = some t)
include h

/-- A launch that is cancelled dispatches no node (R79). -/
theorem nodeDispatch_cancelled (hc : t.cancelled = true) : exec (.nodeDispatch t.id) s = .next s := by
  have hexec : exec (.nodeDispatch t.id) s = execNodeDispatch t.id s := rfl
  rw [hexec]
  unfold execNodeDispatch
  rw [h]
  dsimp only
  rw [if_pos (by simp [hc])]

variable (hc : t.cancelled = false) (hp : t.phase = .sweeping) (hr : s.phaseReady t.tag t.slot = true)
include hc hp hr

theorem nodeDispatch_none (hx : t.nodes.find? (fun x => x.st = .ready) = none) : exec (.nodeDispatch t.id) s = .next s := by
  have hexec : exec (.nodeDispatch t.id) s = execNodeDispatch t.id s := rfl
  rw [hexec]
  unfold execNodeDispatch
  rw [h]
  dsimp only
  rw [if_neg (by simp [hc, hp, hr]), hx]

/-- The dispatch of the ready node of lowest index, unless it has been dispatched (R73). -/
theorem exec_nodeDispatch_ready {x : Node} (hx : t.nodes.find? (fun x => x.st = .ready) = some x) :
    exec (.nodeDispatch t.id) s = if x.dispatched then .next s else .next (s.sendNode t x) := by
  have hexec : exec (.nodeDispatch t.id) s = execNodeDispatch t.id s := rfl
  rw [hexec]
  unfold execNodeDispatch
  rw [h]
  dsimp only
  rw [if_neg (by simp [hc, hp, hr]), hx]
  rfl

/-- The ready node of lowest index is dispatched once (R73). -/
theorem nodeDispatch_sent {x : Node} (hx : t.nodes.find? (fun x => x.st = .ready) = some x) (hs : x.dispatched = true) :
    exec (.nodeDispatch t.id) s = .next s := by
  rw [exec_nodeDispatch_ready h hc hp hr hx, if_pos hs]

theorem nodeDispatch_sends {x : Node} (hx : t.nodes.find? (fun x => x.st = .ready) = some x) (hs : x.dispatched = false) :
    ∃ v : State, exec (.nodeDispatch t.id) s = .next v ∧
      launchIs v t.id (fun y => ∀ z ∈ y.nodes, z.idx = x.idx → z.dispatched = true) ∧
      ((∃ d ∈ v.dispatches, d.kind = .node ∧ d.tree = some t.id ∧ d.node = some x.idx ∧ d.args = x.args) ∨
        ∃ b ∈ v.blocks, b.tree = some t.id ∧ b.node = some x.idx ∧ b.tag = t.tag) := by
  obtain ⟨hsent, hid⟩ := t.sent_leafEntry x.idx
  have hlaunch : launchIs (s.newId.2.putTree ((t.upd x.idx fun x => { x with dispatched := true }).leafEntry x.idx)) t.id (Tree.sent x.idx) :=
    launchIs_putTree (tree_mem h) hid hsent
  refine ⟨s.sendNode t x, by rw [exec_nodeDispatch_ready h hc hp hr hx, if_neg (by simp [hs])], ?_⟩
  unfold State.sendNode
  dsimp only
  split
  · exact State.tryPlace_node rfl rfl rfl rfl (List.mem_append_right _ (List.mem_singleton.2 rfl)) (launchIs_of_trees rfl hlaunch)
  · exact ⟨launchIs_of_trees rfl hlaunch, .inl ⟨_, List.mem_append_right _ (List.mem_singleton.2 rfl), rfl, rfl, rfl, rfl⟩⟩

end

/-! ### The end of a launch (R14, R24, R79) -/

/-- Every level of a slot has completed with a status word. -/
def Ctx.doneWith (k : Nat) (st : Dword) (c : Ctx) : Prop := ∀ x ∈ c.levels, x.slot = k → x.complete = true ∧ x.status = st

section
variable {c : Ctx} {k : Nat} {st : Dword} {l : Level}

theorem Ctx.doneWith.putLevel (h : c.doneWith k st) {j : Nat} {q m : Level} (hq : c.level? j = some q) (hs : m.slot = q.slot)
    (hd : q.complete = true → m.complete = true ∧ m.status = q.status) : (c.putLevel m).doneWith k st := by
  refine forall_mem_updWhere.2 fun x hx => ?_
  split
  · intro hm
    obtain ⟨hcom, hst⟩ := h q (List.mem_of_find?_eq_some hq) (hs.symm.trans hm)
    exact ⟨(hd hcom).1, (hd hcom).2.trans hst⟩
  · exact h x hx

theorem Ctx.doneWith.freeBelow (h : c.doneWith k st) (j : Nat) (q : Level) : (c.freeBelow j q).doneWith k st := by
  unfold Ctx.freeBelow
  split
  · exact fun x hx => h x (List.mem_of_mem_filter hx)
  · exact fun x hx => h x (List.mem_of_mem_filter hx)

theorem Ctx.doneWith.finish (h : c.doneWith k st) (fuel j : Nat) (w : Option Dword) : (Ctx.finish fuel c j w).doneWith k st :=
  Ctx.finish_induction (p := Ctx.doneWith k st) (fun _ _ _ _ h hq hs _ hd => h.putLevel hq hs hd) (fun _ j q h => h.freeBelow j q)
    fuel c j w h

/-- A level that is closed with a status word completes with it (R43). -/
theorem Ctx.close_doneWith (h : c.level? k = some l) (hn : l.complete = false) (st : Dword) : (c.close k (some st)).doneWith k st := by
  have hput : (c.putLevel { l with complete := true, counter := 0, status := st }).doneWith k st := by
    refine forall_mem_updWhere.2 fun x _ => ?_
    split
    · exact fun _ => ⟨rfl, rfl⟩
    · next hx => exact fun hxk => absurd (beq_iff_eq.2 (hxk.trans (Ctx.level?_slot h).symm)) hx
  have hfree := hput.freeBelow k l
  unfold Ctx.close
  rw [Ctx.finish_succ _ (some st) h hn]
  dsimp only
  split
  · exact hfree
  · split
    · exact hfree
    · next r hr =>
      have hmember := fun e => hfree.putLevel (m := r.member e none) hr rfl fun hc => ⟨hc, rfl⟩
      split
      · exact (hmember _).finish _ _ _
      · exact hmember _

end

/-- The status word of a cancelled launch has END = 3 (R14, R79). -/
theorem Tree.status_cancelled {t : Tree} (hc : t.cancelled = true) : t.status.toNat % 2 ^ 15 = 3 := by
  unfold Tree.status
  simp only [hc, if_true]
  split
  · rfl
  · rw [BitVec.toNat_ofNat]
    omega

/-- A context in which a level has been closed. -/
theorem State.ctx?_closeLevel {s : State} {tag : BitVec 12} {c : Ctx} (hc : s.ctx? tag = some c) (slot : Nat) (st : Option Dword) :
    (s.closeLevel tag slot st).ctx? tag = some (c.close slot st) := by
  rw [State.closeLevel, State.ctx?_updCtx s tag (fun c => c.close slot st) fun c => Ctx.finish_tag _ c _ _, hc]
  rfl

/-- A launch that has written its maps is gone, and its level complete with its status word (R14, R70). -/
theorem sweepEnd_ends {s : State} {t : Tree} (h : s.trees.find? (fun x => x.id == t.id) = some t)
    (hp : t.phase = .ending ∨ t.phase = .report) (hw : ∀ w ∈ t.writes, w.1 ∈ t.written) :
    ∃ v : State, exec (.sweepEnd t.id) s = .next v ∧ (∀ x ∈ v.trees, x.id ≠ t.id ∧ x ∈ s.trees) ∧
      ∀ c l d m, s.ctx? t.tag = some c → c.level? t.slot = some l → l.complete = false →
        v.ctx? t.tag = some d → d.level? t.slot = some m → m.complete = true ∧ m.status = t.status := by
  have hexec : exec (.sweepEnd t.id) s = execSweepEnd t.id s := rfl
  have htodo : (t.writes.filter fun w => !t.written.contains w.1) = [] :=
    List.filter_eq_nil_iff.2 fun w hm => by simpa using hw w hm
  rw [hexec]
  unfold execSweepEnd
  rw [h]
  dsimp only
  rw [if_neg (by rcases hp with hp | hp <;> simp [hp]), htodo]
  refine ⟨_, rfl, fun x hx => ?_, fun c l d m hc hl hn hd hm => ?_⟩
  · obtain ⟨hmem, hid⟩ := List.mem_filter.1 hx
    exact ⟨by simpa using hid, hmem⟩
  · obtain rfl := Option.some_inj.1 (hd.symm.trans (State.ctx?_closeLevel hc t.slot (some t.status)))
    exact Ctx.close_doneWith hl hn t.status m (List.mem_of_find?_eq_some hm) (Ctx.level?_slot hm)

/-! ### The obligation of tree launches (03_tree_launch.md) -/

/-- Settles O42: the census by `walk_of`, which carries the statement's walk to the model's with its stack; the Shelf, the dispatch of nodes
and the end of a launch by what their step leaves of it; needs and orders by insertion; opening passes by the last
repetition, which opens no node (`Tree.passLoop_ends`). -/
theorem treeLaunchesGoThroughTheirPhases : Obligations.TreeLaunchesGoThroughTheirPhases := by
  unfold Obligations.TreeLaunchesGoThroughTheirPhases
  refine ⟨fun s t h hc => ⟨fun hp => ?_, fun hp hfirst => ?_, fun hp hr => ?_, fun d x n hk hd hn hx hst hlt => ?_, fun hp hw => ?_⟩,
    fun s t h hc => ⟨fun hp => ?_, fun hp => ?_, ?_, ?_⟩, fun ns x hn => x.setNeed_orderR ns hn, fun t hd hn => ⟨fun n a b ha hb => ?_,
    fun x hx hst hr c y hc hy => ?_⟩⟩
  case refine_1 =>
    exact ⟨fun a => census_delayed h hc hp, fun e n hg he => census_reports h hc hp ⟨he, hg⟩, census_passed h hc hp,
      census_checks h hc hp⟩
  case refine_2 => exact ⟨shelf_waits h hc hp hfirst, shelf_given h hc hp hfirst⟩
  case refine_3 =>
    exact ⟨nodeDispatch_none h hc hp hr, fun x hx => ⟨nodeDispatch_sent h hc hp hr hx, nodeDispatch_sends h hc hp hr hx⟩⟩
  case refine_4 => exact mayPlace_behind (List.mem_of_find?_eq_some h) hk hd hn hx hst hlt
  case refine_5 => exact sweepEnd_ends h hp hw
  case refine_6 => exact ⟨_, exec_census_cancelled h hc hp, launchIs_put h { t with phase := .ending } rfl rfl⟩
  case refine_7 => exact ⟨_, exec_shelf_cancelled h hc hp, launchIs_put h { t with phase := .ending } rfl rfl⟩
  case refine_8 => exact nodeDispatch_cancelled h hc
  case refine_9 => exact Tree.status_cancelled hc
  case refine_10 => exact Tree.pass_node hd ha hb
  case refine_11 => exact Tree.pass_noRoom hd hn hx hst hr hc hy

end Sys2Proof.Machine
end

section
/-! PROOFS. Encoding and the opcode map (04_encoding_opcode_map.md): the decoding of an encoded instruction. The decoder splits a word by
its class; so one lemma for each class says which table reads a word that was joined with that class, the tables are then read
constructor by constructor (`decBody_word`), and the prefixes are those of `decodeWords_words`. -/

namespace Sys2Proof

-- As in the parts above: one thread for each theorem would exceed the limits of the check.
set_option Elab.async false

/-! ### Fields that share a field of the format (R98, R104) -/

/-- Three bit vectors joined, taken apart again. -/
theorem extract_append_append {m n k : Nat} (x : BitVec m) (y : BitVec n) (z : BitVec k) :
    (x ++ y ++ z).extractLsb' (n + k) m = x ∧ (x ++ y ++ z).extractLsb' k n = y ∧ (x ++ y ++ z).extractLsb' 0 k = z := by
  refine ⟨?_, ?_, BitVec.extractLsb'_append_eq_right⟩
  · apply BitVec.eq_of_getLsbD_eq
    intro i hi
    simp [BitVec.getLsbD_append, hi]
    grind
  · apply BitVec.eq_of_getLsbD_eq
    intro i hi
    simp [BitVec.getLsbD_append, hi]

-- The widths at which the opcode map joins fields: stated with the literal widths, so that `simp` finds them.
@[simp] theorem fields_1_2 (x : BitVec 1) (y : BitVec 2) :
    (x ++ y : BitVec 3).extractLsb' 2 1 = x ∧ (x ++ y : BitVec 3).extractLsb' 0 2 = y :=
  ⟨BitVec.extractLsb'_append_eq_left, BitVec.extractLsb'_append_eq_right⟩

@[simp] theorem fields_2_1 (x : BitVec 2) (y : BitVec 1) :
    (x ++ y : BitVec 3).extractLsb' 1 2 = x ∧ (x ++ y : BitVec 3).extractLsb' 0 1 = y :=
  ⟨BitVec.extractLsb'_append_eq_left, BitVec.extractLsb'_append_eq_right⟩

@[simp] theorem fields_2_2 (x : BitVec 2) (y : BitVec 2) :
    (x ++ y : BitVec 4).extractLsb' 2 2 = x ∧ (x ++ y : BitVec 4).extractLsb' 0 2 = y :=
  ⟨BitVec.extractLsb'_append_eq_left, BitVec.extractLsb'_append_eq_right⟩

@[simp] theorem fields_2_3 (x : BitVec 2) (y : BitVec 3) :
    (x ++ y : BitVec 5).extractLsb' 3 2 = x ∧ (x ++ y : BitVec 5).extractLsb' 0 3 = y :=
  ⟨BitVec.extractLsb'_append_eq_left, BitVec.extractLsb'_append_eq_right⟩

@[simp] theorem fields_2_4 (x : BitVec 2) (y : BitVec 4) :
    (x ++ y : BitVec 6).extractLsb' 4 2 = x ∧ (x ++ y : BitVec 6).extractLsb' 0 4 = y :=
  ⟨BitVec.extractLsb'_append_eq_left, BitVec.extractLsb'_append_eq_right⟩

@[simp] theorem fields_3_1 (x : BitVec 3) (y : BitVec 1) :
    (x ++ y : BitVec 4).extractLsb' 1 3 = x ∧ (x ++ y : BitVec 4).extractLsb' 0 1 = y :=
  ⟨BitVec.extractLsb'_append_eq_left, BitVec.extractLsb'_append_eq_right⟩

@[simp] theorem fields_3_2 (x : BitVec 3) (y : BitVec 2) :
    (x ++ y : BitVec 5).extractLsb' 2 3 = x ∧ (x ++ y : BitVec 5).extractLsb' 0 2 = y :=
  ⟨BitVec.extractLsb'_append_eq_left, BitVec.extractLsb'_append_eq_right⟩

@[simp] theorem fields_3_3 (x : BitVec 3) (y : BitVec 3) :
    (x ++ y : BitVec 6).extractLsb' 3 3 = x ∧ (x ++ y : BitVec 6).extractLsb' 0 3 = y :=
  ⟨BitVec.extractLsb'_append_eq_left, BitVec.extractLsb'_append_eq_right⟩

@[simp] theorem fields_6_3 (x : BitVec 6) (y : BitVec 3) :
    (x ++ y : BitVec 9).extractLsb' 3 6 = x ∧ (x ++ y : BitVec 9).extractLsb' 0 3 = y :=
  ⟨BitVec.extractLsb'_append_eq_left, BitVec.extractLsb'_append_eq_right⟩

@[simp] theorem fields_1_1_4 (x : BitVec 1) (y : BitVec 1) (z : BitVec 4) :
    (x ++ y ++ z : BitVec 6).extractLsb' 5 1 = x ∧ (x ++ y ++ z : BitVec 6).extractLsb' 4 1 = y ∧
      (x ++ y ++ z : BitVec 6).extractLsb' 0 4 = z := extract_append_append x y z

@[simp] theorem fields_1_2_2 (x : BitVec 1) (y : BitVec 2) (z : BitVec 2) :
    (x ++ y ++ z : BitVec 5).extractLsb' 4 1 = x ∧ (x ++ y ++ z : BitVec 5).extractLsb' 2 2 = y ∧
      (x ++ y ++ z : BitVec 5).extractLsb' 0 2 = z := extract_append_append x y z

@[simp] theorem fields_2_4_3 (x : BitVec 2) (y : BitVec 4) (z : BitVec 3) :
    (x ++ y ++ z : BitVec 9).extractLsb' 7 2 = x ∧ (x ++ y ++ z : BitVec 9).extractLsb' 3 4 = y ∧
      (x ++ y ++ z : BitVec 9).extractLsb' 0 3 = z := extract_append_append x y z

@[simp] theorem fields_4_1_1 (x : BitVec 4) (y : BitVec 1) (z : BitVec 1) :
    (x ++ y ++ z : BitVec 6).extractLsb' 2 4 = x ∧ (x ++ y ++ z : BitVec 6).extractLsb' 1 1 = y ∧
      (x ++ y ++ z : BitVec 6).extractLsb' 0 1 = z := extract_append_append x y z

/-- NRES.k's immediate is not one of NRES: its bits [8:3] are not zero. -/
@[simp] theorem one_append_ne_zero (p : BitVec 4) : (1#2 ++ p : BitVec 6) ≠ 0#6 := by
  intro h
  simpa using congrArg (BitVec.extractLsb' 4 2) h

/-! ### The table that reads a word of each class (R104) -/

section
variable (h : Hd) (fn : BitVec 4) (sub x qual : BitVec 3) (d a b data off u v2 : BitVec 6)

@[simp] theorem decBody_sys : decBody h.md h.im (joinA h.c h.s 0#5 fn sub d a b) = decSys h ⟨fn, sub, d, a, b⟩ := by
  simp [decBody]
@[simp] theorem decBody_ualu : decBody h.md h.im (joinA h.c h.s 1#5 fn sub d a b) = decUalu h ⟨fn, sub, d, a, b⟩ := by
  simp [decBody]
@[simp] theorem decBody_uimm (imm : BitVec 9) : decBody h.md h.im (joinI h.c h.s 2#5 fn d a imm) = decUimm h ⟨fn, d, a, imm⟩ := by
  simp [decBody]
@[simp] theorem decBody_ulong (imm : BitVec 19) : decBody h.md h.im (joinL h.c h.s 3#5 d imm) = decUlong h ⟨d, imm⟩ := by
  simp [decBody]
@[simp] theorem decBody_mask : decBody h.md h.im (joinA h.c h.s 5#5 fn sub d a b) = decMask h ⟨fn, sub, d, a, b⟩ := by
  simp [decBody]
@[simp] theorem decBody_vint : decBody h.md h.im (joinA h.c h.s 6#5 fn sub d a b) = decVint h ⟨fn, sub, d, a, b⟩ := by
  simp [decBody]
@[simp] theorem decBody_vimm (imm : BitVec 9) : decBody h.md h.im (joinI h.c h.s 7#5 fn d a imm) = decVimm h ⟨fn, d, a, imm⟩ := by
  simp [decBody]
@[simp] theorem decBody_vf32 : decBody h.md h.im (joinA h.c h.s 8#5 fn sub d a b) = decVf32 h ⟨fn, sub, d, a, b⟩ := by
  simp [decBody]
@[simp] theorem decBody_vf64 : decBody h.md h.im (joinA h.c h.s 9#5 fn sub d a b) = decVf64 h ⟨fn, sub, d, a, b⟩ := by
  simp [decBody]
@[simp] theorem decBody_vh16 : decBody h.md h.im (joinA h.c h.s 10#5 fn sub d a b) = decVh16 h ⟨fn, sub, d, a, b⟩ := by
  simp [decBody]
@[simp] theorem decBody_vcvt : decBody h.md h.im (joinA h.c h.s 11#5 fn sub d a b) = decVcvt h ⟨fn, sub, d, a, b⟩ := by
  simp [decBody]
@[simp] theorem decBody_vcmp : decBody h.md h.im (joinA h.c h.s 12#5 fn sub d a b) = decVcmp h ⟨fn, sub, d, a, b⟩ := by
  simp [decBody]
@[simp] theorem decBody_vlane : decBody h.md h.im (joinA h.c h.s 13#5 fn sub d a b) = decVlane h ⟨fn, sub, d, a, b⟩ := by
  simp [decBody]
@[simp] theorem decBody_load : decBody h.md h.im (joinM h.c h.s 14#5 fn sub data x off qual) = decLoad h ⟨fn, sub, data, x, off, qual⟩ := by
  simp [decBody]
@[simp] theorem decBody_store : decBody h.md h.im (joinM h.c h.s 15#5 fn sub data x off qual) = decStore h ⟨fn, sub, data, x, off, qual⟩ := by
  simp [decBody]
@[simp] theorem decBody_atom : decBody h.md h.im (joinM h.c h.s 16#5 fn sub data x off qual) = decAtom h ⟨fn, sub, data, x, off, qual⟩ := by
  simp [decBody]
@[simp] theorem decBody_fence : decBody h.md h.im (joinM h.c h.s 17#5 fn sub data x off qual) = decFence h ⟨fn, sub, data, x, off, qual⟩ := by
  simp [decBody]
@[simp] theorem decBody_spad : decBody h.md h.im (joinM h.c h.s 18#5 fn sub data x off qual) = decSpad h ⟨fn, sub, data, x, off, qual⟩ := by
  simp [decBody]
@[simp] theorem decBody_copy (shape : BitVec 5) (flags : BitVec 4) : decBody h.md h.im (joinE h.c h.s 19#5 fn u v2 shape flags) = decCopy h ⟨fn, u, v2, shape, flags⟩ := by
  simp [decBody]
@[simp] theorem decBody_nred (shape : BitVec 5) (flags : BitVec 4) : decBody h.md h.im (joinE h.c h.s 21#5 fn u v2 shape flags) = decNred h ⟨fn, u, v2, shape, flags⟩ := by
  simp [decBody]
@[simp] theorem decBody_mma (shape : BitVec 5) (flags : BitVec 4) : decBody h.md h.im (joinE h.c h.s 22#5 fn u v2 shape flags) = decMma h ⟨fn, u, v2, shape, flags⟩ := by
  simp [decBody]
@[simp] theorem decBody_chest (shape : BitVec 5) (flags : BitVec 4) : decBody h.md h.im (joinE h.c h.s 23#5 fn u v2 shape flags) = decChest h ⟨fn, u, v2, shape, flags⟩ := by
  simp [decBody]
@[simp] theorem decBody_task (shape : BitVec 5) (flags : BitVec 4) : decBody h.md h.im (joinE h.c h.s 24#5 fn u v2 shape flags) = decTask h ⟨fn, u, v2, shape, flags⟩ := by
  simp [decBody]
@[simp] theorem decBody_msg (shape : BitVec 5) (flags : BitVec 4) : decBody h.md h.im (joinE h.c h.s 25#5 fn u v2 shape flags) = decMsg h ⟨fn, u, v2, shape, flags⟩ := by
  simp [decBody]
@[simp] theorem decBody_queue (shape : BitVec 5) (flags : BitVec 4) : decBody h.md h.im (joinE h.c h.s 26#5 fn u v2 shape flags) = decQueue h ⟨fn, u, v2, shape, flags⟩ := by
  simp [decBody]
@[simp] theorem decBody_tree (imm : BitVec 9) : decBody h.md h.im (joinI h.c h.s 27#5 fn d a imm) = decTree h ⟨fn, d, a, imm⟩ := by
  simp [decBody]
@[simp] theorem decBody_ctrl : decBody h.md h.im (joinA h.c h.s 28#5 fn sub d a b) = decCtrl h ⟨fn, sub, d, a, b⟩ := by
  simp [decBody]
@[simp] theorem decBody_xlat : decBody h.md h.im (joinA h.c h.s 29#5 fn sub d a b) = decXlat h ⟨fn, sub, d, a, b⟩ := by
  simp [decBody]
@[simp] theorem decBody_extn (feat : BitVec 7) (k r : BitVec 1) : decBody h.md h.im (joinX h.c h.s 31#5 feat fn d a k r) = decExtn h ⟨feat, fn, d, a, k, r⟩ := by
  simp [decBody]

@[simp] theorem decBody_flowB (off : BitVec 18) : decBody h.md h.im (joinB h.c h.s 4#5 fn sub off) =
    decFlow h ⟨fn, sub, off⟩ (splitBW (joinB h.c h.s 4#5 fn sub off)) := by
  simp [decBody]

@[simp] theorem decBody_flowBW (w : BitVec 6) (off : BitVec 15) : decBody h.md h.im (joinBW h.c h.s 4#5 fn w off) =
    decFlow h (splitB (joinBW h.c h.s 4#5 fn w off)) ⟨fn, w, off⟩ := by
  simp [decBody]

/-- The formats B and BW have fn at one place. -/
@[simp] theorem splitB_joinBW_fn (c s : Bool) (cls : BitVec 5) (w : BitVec 6) (off : BitVec 15) :
    (splitB (joinBW c s cls fn w off)).fn = fn := congrArg FBW.fn (splitBW_joinBW c s cls fn w off)

@[simp] theorem decBody_sparseM : decBody h.md h.im (joinM h.c h.s 20#5 fn sub data x off qual) =
    decSparse h ⟨fn, sub, data, x, off, qual⟩ (splitA (joinM h.c h.s 20#5 fn sub data x off qual)) := by
  simp [decBody]

@[simp] theorem decBody_sparseA : decBody h.md h.im (joinA h.c h.s 20#5 fn sub d a b) =
    decSparse h (splitM (joinA h.c h.s 20#5 fn sub d a b)) ⟨fn, sub, d, a, b⟩ := by
  simp [decBody]

/-- The formats A and M have fn at one place. -/
@[simp] theorem splitM_joinA_fn (c s : Bool) (cls : BitVec 5) : (splitM (joinA c s cls fn sub d a b)).fn = fn :=
  congrArg FA.fn (splitA_joinA c s cls fn sub d a b)

end

/-! ### Decoding what was encoded -/

/-- The opcode map reads every instruction's target word as that instruction (R104). -/
theorem decBody_word {i : Instr} {h : Hd} {w : Word} (hh : i.hd = some h) (hw : i.word = some w) :
    decBody h.md h.im w = some i := by
  cases i <;> simp only [Instr.hd, Instr.word, Option.some.injEq, reduceCtorEq] at hh hw <;> subst hh hw <;>
    simp [decSys, decUalu, decUimm, decUlong, decFlow, decMask, decVint, decVimm, decVf32, decVf64, decVh16, decVcvt,
      decVcmp, decVlane, decLoad, decStore, decAtom, decFence, decSpad, decCopy, decSparse, decNred, decMma, decChest, decTask,
      decMsg, decQueue, decTree, decCtrl, decXlat, decExtn]

/-- A class 30 word is no target (R101). -/
theorem decBody_pfx {w : Word} (hp : isPfx w = true) (md : Option ModPfx) (im : Option (BitVec 23)) : decBody md im w = none := by
  have hc : wordClass w = 30#5 := by simpa [isPfx] using hp
  simp [decBody, hc]

/-- The BRK pattern is no word of the opcode map: as a word of class 31 its reserved bit is set (R107). -/
theorem decBody_brk (md : Option ModPfx) (im : Option (BitVec 23)) : decBody md im brkWord = none := by
  simp [decBody, brkWord, wordClass, decExtn, splitX]

/-- A well-formed instruction's target word, with what its header supplies, is taken for that instruction. -/
theorem decTarget_word {i : Instr} {h : Hd} {w : Word} (hh : i.hd = some h) (hw : i.word = some w) (hwf : i.wf = true) :
    decTarget h.md h.im w = .ok i := by
  have hb := decBody_word hh hw
  have hbrk : w ≠ brkWord := by
    rintro rfl
    simp [decBody_brk] at hb
  have hpfx : isPfx w = false := by
    by_contra hp
    simp [decBody_pfx (Bool.eq_true_of_not_eq_false hp)] at hb
  simp [decTarget, hbrk, hpfx, hb, hwf]

/-- BRK alone of the instruction words has no header (R107). -/
theorem eq_brk_of_hd_none {i : Instr} (hh : i.hd = none) (hw : i.word.isSome = true) : i = .brk := by
  cases i <;> simp_all [Instr.hd, Instr.word]

theorem decode_encode {i : Instr} (hwf : i.wf = true) (hw : i.word.isSome = true) : decode (wordsBytes (encode i)) = .ok i := by
  obtain ⟨w, hw'⟩ := Option.isSome_iff_exists.mp hw
  cases hh : i.hd with
  | none => rw [eq_brk_of_hd_none hh hw]; rfl
  | some h => simp [decode, encode, hh, hw', decodeWords_words, decTarget_word hh hw' hwf]

/-- Settles O56: the target word by the opcode map (`decBody_word`), the prefixes by `decodeWords_words`. -/
theorem encodeThenDecodeIsTheSame : Obligations.EncodeThenDecodeIsTheSame := fun _ => decode_encode

/-- Settles O57: each word is the encoding of its instruction, and decodes to it as every encoding does. -/
theorem specWordsDecode : Obligations.SpecWordsDecode := by
  unfold Obligations.SpecWordsDecode
  exact ⟨decode_encode (i := .xlat ⟨false, false, none, none⟩ 1#3 0#6) rfl rfl,
    decode_encode (i := .trap ⟨false, false, none, none⟩ 5#6) rfl rfl,
    decode_encode (i := .vmovw ⟨false, false, none, none⟩ 0#3 18#6 14#6) rfl rfl,
    decode_encode (i := .atom ⟨false, false, none, none⟩ 0#4 0#3 3#6 1#3 2#6 0#1) rfl rfl,
    decode_encode (i := .mperm ⟨false, false, none, none⟩ 29#6) rfl rfl, decode_encode (i := .brk) rfl rfl⟩

end Sys2Proof
end


section
/-! PROOFS. Flow words (R86, R121, R122): one equation says what every word of `flowRow` comes to, and one lemma where its team then goes on. -/

namespace Sys2Proof.Machine
open Sys2Proof.Claims

set_option Elab.async false

/-! ### Targets (R86, R100, R121) -/

theorem packetOf_eq (a : BitVec 56) : packetOf a = BitVec.ofNat 56 (packetR a) := by
  have := Nat.mod_le a.toNat 12
  apply BitVec.eq_of_toNat_eq
  simp only [packetOf, packetR, BitVec.toNat_sub, BitVec.toNat_ofNat]
  omega

theorem targetOf_eq {n : Nat} (a : BitVec 56) (o : BitVec n) : targetOf a o = targetR a o := by
  simp only [targetOf, targetR, packetOf_eq, BitVec.ofInt_add, BitVec.ofInt_mul, BitVec.ofInt_natCast, BitVec.signExtend]
  rfl

/-- The address of the next packet, as CALL writes it to its link. -/
theorem link_eq (a : BitVec 56) : (packetOf a + 12#56).setWidth 64 = BitVec.ofNat 64 ((packetR a + 12) % 2 ^ 56) := by
  apply BitVec.eq_of_toNat_eq
  simp only [packetOf_eq, BitVec.toNat_setWidth, BitVec.toNat_add, BitVec.toNat_ofNat]
  omega

/-! ### What a flow word comes to (R122) -/

@[simp] theorem Team.addRun_nil (t : Team) (due : Nat) : t.addRun due [] = t := by simp [Team.addRun]

section
variable {s : State} {b : Block} {t : Team}

/-- The value of a link, and whether there is one. -/
def State.linkWrites (s : State) (q : FlowRow) : List RegWrite :=
  q.link.toList.map fun w => .w w.toNat (BitVec.ofNat 64 ((packetR s.cur.addr + 12) % 2 ^ 56))

/-- Where a flow word of a team transfers to, if it does. -/
def State.flowTarget (s : State) (q : FlowRow) (t : Team) : Option (BitVec 56) :=
  if q.taken t then some (q.target t s.cur.addr) else none

/-- The state after a flow word of the table. -/
def State.flowRow (s : State) (q : FlowRow) (b : Block) (t : Team) : State :=
  s.flow q.h (s.frozen b.tag) (s.flowTarget q t) fun u => u.addRun (s.clock + 2) (s.linkWrites q)

theorem State.flowRow_of_link_none {q : FlowRow} (hl : q.link = none) :
    s.flowRow q b t = s.flow q.h (s.frozen b.tag) (s.flowTarget q t) id := by
  simp only [State.flowRow, State.linkWrites, hl, Option.toList_none, List.map_nil, Team.addRun_nil]
  rfl

/-- A branch on a mask. -/
theorem brm_eq {h : Hd} {k : BitVec 3} {o : BitVec 18} {c c' : Mask → Mask → Bool} {q : FlowRow} (hq : maskRow h k o c = some q)
    (hc : ∀ x m, c' x m = c (x &&& m) m) (hf : s.Free q.reads (q.link.toList.map fun w => .w w.toNat) false b t) :
    s.brm h k o c' = .next (s.flowRow q b t) := by
  obtain rfl := Option.some.inj hq
  refine (State.chk_free hf _).trans ?_
  rw [State.flowRow_of_link_none rfl]
  simp only [State.flowTarget, hc, targetOf_eq]

/-- A branch on a uniform register. -/
theorem bru_eq {h : Hd} {w : BitVec 6} {o : BitVec 15} {c : Int → Bool} {c' : Dword → Bool} {q : FlowRow} (hq : regRow h w o c = some q)
    (hc : ∀ x, c' x = c x.toInt) (hf : s.Free q.reads (q.link.toList.map fun w => .w w.toNat) false b t) :
    s.bru h w o c' = .next (s.flowRow q b t) := by
  obtain rfl := Option.some.inj hq
  refine (State.chk_free hf _).trans ?_
  rw [State.flowRow_of_link_none rfl]
  simp only [State.flowTarget, hc, targetOf_eq]

theorem toInt_beq_zero (x : Dword) : (x.toInt == 0) = decide (x = 0#64) := by
  rw [Bool.eq_iff_iff, beq_iff_eq, decide_eq_true_iff, ← BitVec.toInt_inj]
  rfl

theorem exec_flowRow {i : Instr} {q : FlowRow} (hq : flowRow i = some q)
    (hf : s.Free q.reads (q.link.toList.map fun w => .w w.toNat) false b t) : exec i s = .next (s.flowRow q b t) := by
  cases i with
  | jmp h o =>
    obtain rfl := Option.some.inj hq
    refine (State.chk_free hf _).trans ?_
    rw [State.flowRow_of_link_none rfl, State.flowTarget, if_pos rfl, targetOf_eq]
  | call h w o =>
    obtain rfl := Option.some.inj hq
    refine (State.chk_free hf _).trans ?_
    rw [link_eq, targetOf_eq]
    rfl
  | brmAny h k o => exact (brm_eq (c := fun x _ => x != 0#1024) hq (fun _ _ => rfl) hf : s.brm h k o brmAny = _)
  | brmAll h k o => exact (brm_eq (c := fun x m => x == m) hq (fun _ _ => rfl) hf : s.brm h k o brmAll = _)
  | brmNone h k o => exact (brm_eq (c := fun x _ => x == 0#1024) hq (fun _ _ => rfl) hf : s.brm h k o brmNone = _)
  | bruZ h w o => exact (bru_eq (c := fun x => x == 0) hq (fun x => (toInt_beq_zero x).symm) hf : execBruZ h w o s = _)
  | bruNz h w o => exact (bru_eq (c := fun x => x != 0) hq (fun x => by simp [bne, toInt_beq_zero]) hf : execBruNz h w o s = _)
  | bruNeg h w o => exact (bru_eq (c := fun x => decide (x < 0)) hq (fun x => x.msb_eq_toInt) hf : execBruNeg h w o s = _)
  | bruNneg h w o =>
    exact (bru_eq (c := fun x => decide (0 ≤ x)) hq (fun x => by
      simp only [BitVec.msb_eq_toInt, ← decide_not, not_lt]) hf : execBruNneg h w o s = _)
  | _ => cases hq

/-- A flow word ends the run, keeps its results, and the team goes on at its target or at the next word (R121). -/
theorem issuesWith_flow {i : Instr} {h : Hd} {fz : Bool} {x : Option (BitVec 56)} {f : Team → Team}
    (ht : s.team? s.cur.r = some (b, t)) (he : exec i s = .next (s.flow h fz x f)) (hf : ∀ u, (f u).idx = u.idx) : issuesWith i s fun _ u =>
      u.pc = x.getD s.cur.next ∧ u.run.ended = true ∧ u.run.writes = (f t).run.writes :=
  ⟨_, _, _, he, rfl, State.team?_updTeam _ (fun _ => rfl) (State.team?_issue h true f hf ht), rfl, Run.word_ended _ _,
    Run.word_writes _ _ _⟩

theorem issuesWith_imp {i : Instr} {p q : State → Team → Prop} (h : issuesWith i s p) (hpq : ∀ v u, p v u → q v u) :
    issuesWith i s q := by
  obtain ⟨v, c, u, he, hres, hu, hp⟩ := h
  exact ⟨v, c, u, he, hres, hu, hpq v u hp⟩

theorem flowRow_goes {i : Instr} {q : FlowRow} (hq : flowRow i = some q)
    (hf : s.Free q.reads (q.link.toList.map fun w => .w w.toNat) false b t) : issuesWith i s fun _ u =>
      u.pc = (if q.taken t then q.target t s.cur.addr else s.cur.next) ∧ u.run.ended = true ∧
      u.run.writes = t.run.writes ++ q.link.toList.map fun w =>
        { write := .w w.toNat (BitVec.ofNat 64 ((packetR s.cur.addr + 12) % 2 ^ 56)), at' := s.clock + 2 } := by
  have he : exec i s = .next (s.flow q.h (s.frozen b.tag) (s.flowTarget q t) fun u => u.addRun (s.clock + 2) (s.linkWrites q)) :=
    exec_flowRow hq hf
  refine issuesWith_imp (issuesWith_flow hf.team he fun _ => rfl) fun _ u ⟨hpc, hend, hw⟩ => ⟨?_, hend, ?_⟩
  · rw [hpc, State.flowTarget]
    split <;> rfl
  · rw [hw]
    simp [Team.addRun, State.linkWrites, Function.comp_def]

/-- RET to a packet start. -/
theorem ret_goes {h : Hd} {w : BitVec 6} (hf : s.Free [.w w.toNat] [] false b t) (hw : (t.rw w).toNat % 12 = 0) :
    issuesWith (.ret h w) s fun _ u => u.pc = (t.rw w).setWidth 56 ∧ u.run.ended = true ∧ u.run.writes = t.run.writes :=
  have he : exec (.ret h w) s = .next (s.flow h (s.frozen b.tag) (some ((t.rw w).setWidth 56)) id) :=
    (State.chk_free hf _).trans (if_neg (not_not_intro hw))
  issuesWith_flow hf.team he fun _ => rfl

theorem ret_traps {h : Hd} {w : BitVec 6} (hf : s.Free [.w w.toNat] [] false b t) (hw : (t.rw w).toNat % 12 ≠ 0) :
    exec (.ret h w) s = .next (s.trap .badpc) := (State.chk_free hf _).trans (if_pos hw)

end

/-- Settles O2: the words of the table by `flowRow_goes`, RET by `ret_goes` and `ret_traps`. -/
theorem flowWordsGoToTheirTargets : Obligations.FlowWordsGoToTheirTargets :=
  ⟨fun _ _ _ _ _ hq hf => flowRow_goes hq hf, fun _ _ _ _ _ hf => ⟨ret_goes hf, ret_traps hf⟩⟩

end Sys2Proof.Machine
end

section
/-! PROOFS. The system words (R107, R112, R388, R389, R392, R429, R452), each by what it does once its checks have passed. -/

namespace Sys2Proof.Machine
open Sys2Proof.Claims

set_option Elab.async false

section
variable {s : State} {b : Block} {t : Team}

theorem nop_issues (h : Hd) (hf : s.Free [] [] false b t) : exec (.nop h) s = .next (s.issue h false id) := State.chk_free hf _

theorem sample_issues (h : Hd) (hf : s.Free [] [] false b t) :
    exec (.sample h) s = .next (s.issue h true fun u => { u with sample := u.sample || s.vesp b }) := State.chk_free hf _

theorem wfi_priv (h : Hd) (hf : s.Free [] [] false b t) (hb : b.bureau = none) : exec (.wfi h) s = .next (s.trap .priv) := by
  refine (State.chk_free hf _).trans ?_
  rw [hb]

theorem wfi_waits (h : Hd) (hf : s.Free [] [] false b t) {e : Nat} (hb : b.bureau = some e) :
    exec (.wfi h) s = .next (s.issue h true fun u =>
      if t.handler.isSome || (s.die e).istat ≠ 0#17 || (s.die e).evstat ≠ 0#4 then u else { u with wait := some .wfi }) := by
  refine (State.chk_free hf _).trans ?_
  rw [hb]
  have hi : (t.handler.isSome || (s.die e).istat ≠ 0#17 || (s.die e).evstat ≠ 0#4) =
      (t.handler.isSome || (s.die e).interrupt) := Bool.or_assoc _ _ _
  cases h : t.handler.isSome || (s.die e).interrupt with
  | true => simp only [hi, h, if_true]; rfl
  | false => simp only [hi, h, Bool.false_eq_true, if_false]

theorem trig_records (h : Hd) (a n : BitVec 6) (hf : s.Free [.w a.toNat] [] false b t) : exec (.trig h a n) s =
    .next ((s.record b (s.recordOf b t 2 s.cur.addr.toNat n.toNat (t.rw a).toNat 0) 6).issue h true id) := State.chk_free hf _

theorem trap_traps (h : Hd) (n : BitVec 6) (hf : s.Free [] [] false b t) :
    exec (.trap h n) s = .next (s.trapReq (afterWord s .swtrap n.toNat none)) := State.chk_free hf _

theorem brk_traps (hf : s.Free [] [] false b t) (hb : (b.bureau.isNone && (s.die (coreDie b.core)).stopOnBreak b.tag) = false) :
    exec .brk s = .next (s.trapReq (afterWord s .break 0 none)) :=
  (State.chk_free hf _).trans (if_neg (Bool.eq_false_iff.1 hb))

theorem brk_stops (hf : s.Free [] [] false b t) (hb : (b.bureau.isNone && (s.die (coreDie b.core)).stopOnBreak b.tag) = true) :
    exec .brk s = .next (s.stopAt b t 2 0) := (State.chk_free hf _).trans (if_pos hb)

theorem extn_traps (h : Hd) (f : BitVec 7) (g : BitVec 4) (d a : BitVec 6) (k : BitVec 1)
    (hf : s.Free (if k = 1#1 then [.v d.toNat, .v a.toNat] else [.w d.toNat, .w a.toNat]) [] false b t) :
    exec (.extn h f g d a k) s =
      .next (s.trapReq (afterWord s .nofeat f.toNat (some (joinX h.c h.s 31#5 f g d a k 0#1)))) := State.chk_free hf _

end

/-- Settles O9, word by word. -/
theorem systemWordsActOrTrap : Obligations.SystemWordsActOrTrap :=
  ⟨fun h a n _ _ _ => ⟨fun hf => ⟨nop_issues h hf, sample_issues h hf, wfi_priv h hf, fun _ => wfi_waits h hf⟩, trig_records h a n⟩,
    fun h n d a f g k _ _ _ => ⟨fun hf => ⟨trap_traps h n hf, brk_traps hf, brk_stops hf⟩, fun hf => ⟨_, rfl, extn_traps h f g d a k hf⟩⟩⟩

end Sys2Proof.Machine
end

section
/-! PROOFS. Results (R91, R92): a result that arrives at a team which ends there is not written. -/

namespace Sys2Proof.Machine
open Sys2Proof.Claims

set_option Elab.async false

/-- A block of one team, whose task is reclaimed. The team is parked on a network-reduction result, which is ready: it writes 1 to w0, which
holds 0. -/
def resultAtEnd : State :=
  ((State.reset.startBlock Dispatch.probe 0 0 0 none).updBlock 0 fun b => { b with reclaim := true }).updTeam ⟨0, 0⟩ fun t =>
    { t with counted := true, parked := true
             pend := [{ id := 0, regs := [.w 0], ready := some [.w 0 1#64], nred := true }] }

/-- The arrival of that result ends the team (R285, R335), and w0 keeps its value. -/
theorem resultArrival_resultAtEnd : ∃ v : State, exec (.resultArrival ⟨0, 0⟩ 0) resultAtEnd = .next v ∧
    (v.team? ⟨0, 0⟩).map (fun x => x.2.w.head?) = some (some 0#64) := ⟨_, rfl, by decide⟩

/-- Refutes O48: its first clause has every ready result of one register written; but where the block is reclaimed or cancelled and the team
is parked on a network-reduction result, the arrival of that result is a reclamation point at which the team ends and the result is discarded
(R285, R335, R336). -/
theorem not_resultsTrapsAndInterruptsArrive : ¬ Obligations.ResultsTrapsAndInterruptsArrive := by
  unfold Obligations.ResultsTrapsAndInterruptsArrive
  intro h
  obtain ⟨b, t, p, ht, hp, hready, hw⟩ : ∃ b t p, resultAtEnd.team? ⟨0, 0⟩ = some (b, t) ∧ t.pend.find? (fun q => q.id = 0) = some p ∧
      p.ready = some [.w 0 1#64] ∧ t.w.length = 64 := ⟨_, _, _, rfl, rfl, rfl, by decide⟩
  obtain ⟨v, c, u, hv, hu, -, hwrote, -⟩ := (h.1.1 resultAtEnd ⟨0, 0⟩ 0 b t p ht hp).2.1 (.w 0 1#64) hready (by simp)
  obtain ⟨x, hx, h0⟩ := resultArrival_resultAtEnd
  obtain rfl : v = x := Host.Outcome.next.inj (hv.symm.trans hx)
  rw [hu] at h0
  have h1 : u.w = t.w.set 0 1#64 := hwrote.1
  obtain ⟨y, l, hl⟩ := List.exists_cons_of_length_eq_add_one hw
  simp [h1, hl] at h0

end Sys2Proof.Machine
end

section
/-! PROOFS. SPAWNF in a die that has another future of the identity which the new one is given (R334, R336): a future is found by its
identity alone. -/

namespace Sys2Proof.Machine
open Sys2Proof.Claims

set_option Elab.async false

/-! ### A free index is free -/

theorem findFrom_eq_some {p : Nat → Bool} {n lo i : Nat} (h : findFrom p lo n = some i) : p i = true := by
  induction n generalizing lo with
  | zero => cases h
  | succ n ih =>
    unfold findFrom at h
    split at h
    · next hp => exact Option.some.inj h ▸ hp
    · exact ih h

theorem findFrom_eq_none {p : Nat → Bool} {n lo k : Nat} (h : findFrom p lo n = none) (hk : k < n) : p (lo + k) = false := by
  induction n generalizing lo k with
  | zero => omega
  | succ n ih =>
    unfold findFrom at h
    split at h
    · cases h
    · next hp =>
      cases k with
      | zero => simpa using hp
      | succ k =>
        have := ih h (Nat.lt_of_succ_lt_succ hk)
        rwa [show lo + 1 + k = lo + (k + 1) by omega] at this

/-- Where index 0 alone is in use, the index given is another one. -/
theorem freeIdx_pos {n start : Nat} (hs : start < n) (hn : 1 < n) : 0 < freeIdx n start [0] := by
  unfold freeIdx
  split
  · next i h =>
    have := findFrom_eq_some h
    simp at this
    omega
  · next h =>
    by_cases h0 : start = 0
    · have := findFrom_eq_none h (k := 1) (by omega)
      simp [h0] at this
    · have := findFrom_eq_none h (k := 0) (by omega)
      simp [h0] at this

/-! ### What the write of a future's record leaves alone -/

/-- Two states with the same issuing word, contexts, waiting writes of units, own module and migrating lines. -/
structure State.Beside (s v : State) : Prop where
  cur : v.cur = s.cur
  ctxs : v.ctxs = s.ctxs
  unitQ : v.unitQ = s.unitQ
  pod : v.pod = s.pod
  migrations : v.migrations = s.migrations

theorem State.Beside.trans {s u v : State} (h : s.Beside u) (k : u.Beside v) : s.Beside v :=
  ⟨k.cur.trans h.cur, k.ctxs.trans h.ctxs, k.unitQ.trans h.unitQ, k.pod.trans h.pod, k.migrations.trans h.migrations⟩

theorem State.Beside.fill (s : State) (tag : Option (BitVec 12)) (line : Nat) : s.Beside (s.fill tag line) := by
  unfold State.fill
  split
  · exact ⟨rfl, rfl, rfl, rfl, rfl⟩
  · exact ⟨rfl, rfl, rfl, rfl, rfl⟩

theorem State.Beside.l2Room (s : State) (line : Nat) : s.Beside (s.l2Room line) := by
  unfold State.l2Room
  split
  · exact ⟨rfl, rfl, rfl, rfl, rfl⟩
  · dsimp only [State.choice]
    split
    · exact ⟨rfl, rfl, rfl, rfl, rfl⟩
    · split
      · exact ⟨rfl, rfl, rfl, rfl, rfl⟩
      · exact ⟨rfl, rfl, rfl, rfl, rfl⟩

theorem State.Beside.l2Access (s : State) (tag : Option (BitVec 12)) (line : Nat) (write : Bool) : s.Beside (s.l2Access tag line write) := by
  unfold State.l2Access
  split
  · exact ⟨rfl, rfl, rfl, rfl, rfl⟩
  · exact (State.Beside.l2Room s line).trans ⟨rfl, rfl, rfl, rfl, rfl⟩

theorem State.Beside.pmWr (s : State) (pa : Nat) (bs : List Byte) : s.Beside (s.pmWr pa bs) := by
  unfold State.pmWr
  split
  · exact ⟨rfl, rfl, rfl, rfl, rfl⟩
  · exact ⟨rfl, rfl, rfl, rfl, rfl⟩

theorem State.Beside.memWr (s : State) (tag : Option (BitVec 12)) (pa : Nat) (bs : List Byte) : s.Beside (s.memWr tag pa bs) := by
  have h0 : ∀ c line, s.Beside (if c = true then { s with poison := s.poison.filter fun x => x != line } else s.fill tag line) := by
    intro c line
    split
    · exact ⟨rfl, rfl, rfl, rfl, rfl⟩
    · exact .fill s tag line
  unfold State.memWr
  exact (((h0 _ _).trans (.l2Access _ _ _ _)).trans (.pmWr _ _ _)).trans ⟨rfl, rfl, rfl, rfl, rfl⟩

/-- A byte of the machine's own module is never held back by a routing entry (R425). -/
theorem State.held_own {s : State} {pa : Nat} (h : s.homeModule pa = s.pod.toNat) : s.held pa = false := by
  simp [State.held, State.moduleHeld, h]

theorem State.homeModule_of_still {s : State} (h : s.migrations = []) (pa : Nat) : s.homeModule pa = paModule pa := by
  simp [State.homeModule, State.home, h]

theorem State.Beside.futWrite {s : State} {f : Future} (hp : f.pcount < 2 ^ 16) (hq : s.unitQ = []) (hh : s.held f.addr = false) :
    s.Beside (s.futWrite f) := by
  unfold State.futWrite State.unitWr
  rw [if_pos hp]
  simp only [hh, hq, List.any_nil, Bool.or_false, Bool.false_eq_true, if_false]
  exact .memWr _ _ _ _

/-! ### A task that never starts -/

/-- In a context whose levels are all cancelled, the level of a slot is. -/
theorem State.levelCancelled_of_all {s : State} {tag : BitVec 12} {slot : Nat} {c : Ctx} {l : Level} (hc : s.ctx? tag = some c)
    (hall : ∀ x ∈ c.levels, x.cancelled = true) (hl : l ∈ c.levels) (hs : l.slot = slot) : s.levelCancelled tag slot = true := by
  unfold State.levelCancelled Ctx.level?
  rw [hc]
  dsimp only
  cases hf : c.levels.find? fun x => x.slot == slot with
  | none => exact absurd (List.find?_eq_none.mp hf l hl) (by simp [hs])
  | some x => exact hall x (List.mem_of_find?_eq_some hf)

/-- A task of a cancelled level is reclaimed as it starts: the record of its future, as the future is found by its identity, is written
(R334, R336). -/
theorem State.startTask_reclaims {s : State} {d : Dispatch} {e x : Nat} {g : Future} (hc : s.levelCancelled d.tag d.slot = true)
    (hd : d.future = some (e, x)) (hg : s.future? e x = some g) (hp : g.st = .pending) (hq : s.unitQ = [])
    (hh : s.held g.addr = false) (hm : s.migrations = []) :
    (s.startTask d).mem = s.mem.wr g.addr (({ g with st := .reclaimed, value := 0#64, pcount := 0 } : Future).bytes 0) ∧
      (s.startTask d).cur = s.cur := by
  have hfut : (s.closeLevel d.tag d.slot none).future? e x = some g := hg
  unfold State.startTask State.closeIfCancelled
  simp only [hc, if_true, hd, State.futEnd, hfut, hp]
  have hw : ((s.closeLevel d.tag d.slot none).updFuture e x fun _ => { g with st := .reclaimed, value := 0#64, pcount := 0 }).Beside _ :=
    .futWrite (f := { g with st := .reclaimed, value := 0#64, pcount := 0 }) (Nat.two_pow_pos 16) hq hh
  exact ⟨State.futWrite_mem ((s.closeLevel d.tag d.slot none).updFuture e x fun _ =>
    { g with st := .reclaimed, value := 0#64, pcount := 0 }) _ (Nat.two_pow_pos 16) hh hq hm, hw.cur⟩

/-! ### The state -/

/-- A level of a context, in slot `slot`, that is cancelled. -/
def cancelledLevel (slot : Nat) (parent : Option Nat) (counter : Nat) : Level :=
  { slot := slot, gen := 0#32, kind := 1, lkind := .flat, parent := parent, counter := counter, complete := false, status := 0#64
    cancelled := true, ndone := 0, bad := 0, low := none, pfault := false, phase := 0, auto := false, die := 0 }

/-- A pending future of identity 1 with its record at 0x13000. -/
def twinFuture : Future :=
  { id := 1, gen := 0#32, owner := some 0#12, tag := 0#12, addr := 0x13000, count := 1, pcount := 0, st := .pending, value := 0#64
    task := 0#48, slot := 0 }

/-- A team of a cancelled graph, with a task record at 0x11000 that w10 names, and w11 naming the place of a future's record at 0x12000. The
next identity, which that future is given, is 1, and each die has a pending future of that identity in its entry 0. -/
def twinState : State :=
  let s := State.reset
  let s1 : State := { s with
    ctxs := [{ Ctx.probe with levels := [cancelledLevel 0 (some 1) 1, cancelledLevel 1 none 1] }]
    tlb1 := [(0, [{ tag := 0#12, page := 0, size := 0x10000, frame := 0x10000, perm := 0xF#4 }])]
    mem := Memory.wr [] 0x11000 [12#8]
    dies := s.dies.map fun d => { d with futures := [(0, twinFuture)] }
    nextId := 1
    cur := ⟨⟨0, 0⟩, 0#56, 0#56, 4#56, 1, [], .none, none⟩ }
  (s1.startBlock Dispatch.probe 0 0 0 none).updTeam ⟨0, 0⟩ fun t => { t with w := (t.w.set 10 0x1000#64).set 11 0x2000#64 }

/-- The SPAWNF word of the state: the future's handle to w1, the record and the place named by w10 and w11. -/
def spawnTwin : Instr := .spawnf ⟨false, false, none, none⟩ 1#6 10#6

/-- SPAWNF from where its future has a generation: the future `f` put into a free entry of die 0, its record written, the handle given. -/
def State.makeFuture (s : State) (g : Option (BitVec 32)) (i : Nat) (f : Future) (w : Dword) : State :=
  let s1 := (s.takeGen g).2
  let s2 := { s1 with nextId := s1.nextId + 2 }
  let s3 := (s2.updDie 0 fun e => { e with futures := entryPut e.futures i f }).futWrite f
  let s4 := s3.updBlock 0 fun x => { x with holds := x.holds ++ [(0, s1.nextId)] }
  s4.scoreNow ⟨false, false, none, none⟩ 1#6 w

/-- The same with its task started. -/
def State.spawnOn (s : State) (g : Option (BitVec 32)) (i : Nat) (f : Future) (w : Dword) (slot : Nat) (shape : Shape)
    (args : List Dword) (core : Nat) : State :=
  (s.makeFuture g i f w).startTask
    (taskDispatch ((s.takeGen g).2.nextId + 1) 0#12 slot .task shape args core (some (0, (s.takeGen g).2.nextId)) [] [])

theorem exec_spawnTwin : ∃ (b : Block) (t : Team) (as : List Nat) (s1 s2 s : State) (g : Option (BitVec 32)) (start : Nat)
    (f : Future) (w : Dword) (slot : Nat) (shape : Shape) (args : List Dword) (core : Nat) (c : Ctx) (l : Level),
    SpawnReady twinState b t 1#6 10#6 12 as s1 ∧ s1.legalVa b .wr 32 (t.opnd 10#6 1 % 2 ^ 56) = (.pa 0x12000, s2) ∧
    exec spawnTwin twinState = .next (s.spawnOn g (freeIdx 65536 (Config.freeChoice start % 65536) [0]) f w slot shape args core) ∧
    f.pcount = 0 ∧ f.addr = 0x12000 ∧ s.nextId = 1 ∧ s.unitQ = [] ∧ s.migrations = [] ∧ s.pod = 0#9 ∧ s.dies = twinState.dies ∧ s.ctx? 0#12 = some c ∧
    c.levels = [cancelledLevel 0 (some 1) 1, cancelledLevel 1 none 2, l] ∧ l.cancelled = true ∧ l.slot = slot :=
  ⟨_, _, _, _, _, _, _, _, _, _, _, _, _, _, _, _, ⟨⟨rfl, rfl, rfl, rfl⟩, rfl, rfl, rfl⟩, rfl, rfl, rfl, rfl, rfl, rfl, rfl, rfl,
    rfl, rfl, rfl, rfl, rfl⟩

/-- The new future is put behind the other one of its identity, which is found. -/
theorem find?_entryPut_twin {i : Nat} (hi : 0 < i) (f : Future) :
    (entryPut [(0, twinFuture)] i f).find? (fun p => p.2.id == 1 && p.2.owner.isSome) = some (0, twinFuture) := by
  simp [entryPut, hi, twinFuture]

section
variable {s : State} {g : Option (BitVec 32)} {i : Nat} {f : Future} {w : Dword}

theorem State.makeFuture_beside (hp : f.pcount = 0) (ha : f.addr = 0x12000) (hq : s.unitQ = []) (hm : s.migrations = [])
    (hpod : s.pod = 0#9) :
    (s.makeFuture g i f w).ctxs = s.ctxs ∧ (s.makeFuture g i f w).unitQ = [] ∧ (s.makeFuture g i f w).migrations = [] ∧
      (s.makeFuture g i f w).pod = 0#9 ∧ (s.makeFuture g i f w).cur.res = .issued := by
  have hg : s.Beside (s.takeGen g).2 := by cases g <;> exact ⟨rfl, rfl, rfl, rfl, rfl⟩
  have hu : s.Beside (({ (s.takeGen g).2 with nextId := (s.takeGen g).2.nextId + 2 } : State).updDie 0 fun e =>
      { e with futures := entryPut e.futures i f }) := hg.trans ⟨rfl, rfl, rfl, rfl, rfl⟩
  have hh := State.held_own (pa := f.addr) ((State.homeModule_of_still (hu.migrations.trans hm) f.addr).trans
    (by rw [ha, hu.pod, hpod]; rfl))
  have hw := hu.trans (State.Beside.futWrite (f := f) (hp ▸ Nat.two_pow_pos 16) (hu.unitQ.trans hq) hh)
  exact ⟨hw.ctxs, hw.unitQ.trans hq, hw.migrations.trans hm, hw.pod.trans hpod, rfl⟩

theorem State.makeFuture_die (hd : s.dies = twinState.dies) :
    ((s.makeFuture g i f w).die 0).futures = entryPut [(0, twinFuture)] i f := by
  have hg : (s.takeGen g).2.dies = s.dies := by cases g <;> rfl
  have hu : (s.makeFuture g i f w).dies = ((s.takeGen g).2.updDie 0 fun e => { e with futures := entryPut e.futures i f }).dies :=
    State.futWrite_dies _ _
  simp only [State.die, hu, State.updDie, hg, hd]
  rfl

/-- With a free index other than 0, the reclamation of the new task writes the record of the other future. -/
theorem State.spawnOn_writes_twin {slot : Nat} {shape : Shape}
    {args : List Dword} {core : Nat} {c : Ctx} {l : Level} (hi : 0 < i) (hp : f.pcount = 0) (ha : f.addr = 0x12000) (hn : s.nextId = 1)
    (hq : s.unitQ = []) (hm : s.migrations = []) (hpod : s.pod = 0#9) (hd : s.dies = twinState.dies) (hc : s.ctx? 0#12 = some c)
    (hl : c.levels = [cancelledLevel 0 (some 1) 1, cancelledLevel 1 none 2, l]) (hx : l.cancelled = true) (hs : l.slot = slot) :
    (s.spawnOn g i f w slot shape args core).mem.rd 0x13010 = 3#8 ∧
      (s.spawnOn g i f w slot shape args core).cur.res = .issued := by
  obtain ⟨hctxs, hunit, hmig, hpod', hres⟩ := State.makeFuture_beside (g := g) (i := i) (w := w) hp ha hq hm hpod
  have hn' : (s.takeGen g).2.nextId = 1 := by cases g <;> exact hn
  have hlev : (s.makeFuture g i f w).levelCancelled 0#12 slot = true := by
    have hc' : (s.makeFuture g i f w).ctx? 0#12 = some c := by rw [← hc]; exact congrArg (List.find? fun c => c.tag == 0#12) hctxs
    exact State.levelCancelled_of_all hc' (by rw [hl]; simp [cancelledLevel, hx]) (by rw [hl]; simp) hs
  have hfut : (s.makeFuture g i f w).future? 0 1 = some twinFuture := by
    unfold State.future?
    rw [State.makeFuture_die hd, find?_entryPut_twin hi]
  have hheld := State.held_own (s := s.makeFuture g i f w) (pa := twinFuture.addr)
    ((State.homeModule_of_still hmig twinFuture.addr).trans (by rw [hpod']; rfl))
  obtain ⟨hmem, hcur⟩ := State.startTask_reclaims (d := taskDispatch ((s.takeGen g).2.nextId + 1) 0#12 slot .task shape args core
    (some (0, (s.takeGen g).2.nextId)) [] []) hlev (congrArg (fun n => some (0, n)) hn') hfut rfl hunit hheld hmig
  refine ⟨?_, (congrArg Issue.res hcur).trans hres⟩
  show Memory.rd (State.mem (State.startTask _ _)) (twinFuture.addr + 16) = _
  rw [hmem, Memory.rd_wr_in _ _ _ 16 (by rw [Future.bytes_length]; decide)]
  rfl

end

/-- Refutes O54: SPAWNF's clause has the record of the future that it makes as all that may change; but where the task's level is cancelled,
the task is reclaimed as it starts, and the record of the first future of its identity is written, which need not be the one that was made:
nothing says, as `NamesFut.alone` does for FREF, that no other future of the die has that identity (R334, R336). -/
theorem not_memoryWordsLeaveMemoryUntilPerformed : ¬ Obligations.MemoryWordsLeaveMemoryUntilPerformed := by
  unfold Obligations.MemoryWordsLeaveMemoryUntilPerformed
  rintro ⟨-, -, -, -, hspawnf, -⟩
  obtain ⟨b, t, as, s1, s2, s, g, start, f, w, slot, shape, args, core, c, l, hready, hva, hv, hp, ha, hn, hq, hm, hpod, hd, hc, hl, hx,
    hs⟩ := exec_spawnTwin
  obtain ⟨hbyte, hres⟩ := State.spawnOn_writes_twin (g := g) (w := w) (shape := shape) (args := args) (core := core)
    (freeIdx_pos (start := Config.freeChoice start % 65536) (Nat.mod_lt _ (by decide)) (by decide)) hp ha hn hq hm hpod hd hc hl hx hs
  have hkept := (hspawnf _ _ _ _ _ _ _ _ _ _ _ _ hready hva hv hres).1 0x13010 fun j hj => by
    have : twinState.home (0x12000 + j) = 0x12000 + j := rfl
    omega
  rw [hbyte] at hkept
  exact absurd hkept.symm (by decide +kernel)

end Sys2Proof.Machine
end

section
/-! PROOFS. What issues, while the team of a word has not parked, as an invariant that the operations of a word keep, and what a word
comes to (R86 to R95): where its team has parked, it has its stall reason. -/

namespace Sys2Proof.Machine
open Sys2Proof.Claims

set_option Elab.async false

/-- The word of team `me` issues, and the team has not parked on it. -/
structure Going (me : TRef) (s : State) : Prop where
  ref : s.cur.r = me
  notParked : s.cur.res ≠ .parked

/-- A team has ended, or all that is named as it has its stall reason. -/
def Settled (r : TRef) (v : State) : Prop :=
  ∀ c u, v.team? r = some (c, u) → u.ended = true ∨ ∀ b ∈ v.blocks, b.id = r.b → ∀ x ∈ b.teams, x.idx = r.t → x.reason = u.reason

/-- What a word comes to: where its team has parked, it is settled. -/
def OutSettles (me : TRef) : Out → Prop
  | .next v => v.cur.res = .parked → Settled me v
  | _ => True

/-- A read at issue. -/
def GotGoes {α : Type} (me : TRef) : Got α → Prop
  | .ok _ v => Going me v
  | _ => True

/-- The write of a trap frame. -/
def FrameGoes (me : TRef) : FrameOut → Prop
  | .absent v => Going me v
  | .bad v => Going me v
  | .ok v => Going me v

section
variable {me : TRef} {s v : State}

/-- An update that leaves alone what issues. -/
theorem Going.same (hs : Going me s) (h : v.cur = s.cur := by rfl) : Going me v := ⟨h ▸ hs.ref, h ▸ hs.notParked⟩

theorem Going.ite {c : Prop} [Decidable c] {a b : State} (ha : Going me a) (hb : Going me b) : Going me (if c then a else b) := by
  split
  · exact ha
  · exact hb

theorem OutSettles.ite {c : Prop} [Decidable c] {a b : Out} (ha : OutSettles me a) (hb : OutSettles me b) :
    OutSettles me (if c then a else b) := by
  split
  · exact ha
  · exact hb

theorem GotGoes.ite {α : Type} {c : Prop} [Decidable c] {a b : Got α} (ha : GotGoes me a) (hb : GotGoes me b) :
    GotGoes me (if c then a else b) := by
  split
  · exact ha
  · exact hb

theorem FrameGoes.ite {c : Prop} [Decidable c] {a b : FrameOut} (ha : FrameGoes me a) (hb : FrameGoes me b) :
    FrameGoes me (if c then a else b) := by
  split
  · exact ha
  · exact hb

/-- An answer that a condition chooses. -/
theorem Going.ite_snd {α : Type} {c : Prop} [Decidable c] {a b : α × State} (ha : Going me a.2) (hb : Going me b.2) :
    Going me (if c then a else b).2 := by
  split
  · exact ha
  · exact hb

theorem Going.ite_fst {α : Type} {c : Prop} [Decidable c] {a b : State × α} (ha : Going me a.1) (hb : Going me b.1) :
    Going me (if c then a else b).1 := by
  split
  · exact ha
  · exact hb

theorem Going.foldl {α : Type} {f : State → α → State} {l : List α} (hs : Going me s)
    (hf : ∀ s x, Going me s → Going me (f s x)) : Going me (l.foldl f s) := by
  induction l generalizing s with
  | nil => exact hs
  | cons x l ih => exact ih (hf s x hs)

theorem Going.foldl_fst {α β : Type} {f : State × β → α → State × β} {l : List α} {p : State × β} (hp : Going me p.1)
    (hf : ∀ p x, Going me p.1 → Going me (f p x).1) : Going me (l.foldl f p).1 := by
  induction l generalizing p with
  | nil => exact hp
  | cons x l ih => exact ih (hf p x hp)

/-- The state of an answer once the answer is known. -/
theorem Going.of_eq {α : Type} {p : α × State} {a : α} (hp : Going me p.2) (e : p = (a, v)) : Going me v := by
  subst e; exact hp

theorem Going.of_fst {α : Type} {p : State × α} {a : α} (hp : Going me p.1) (e : p = (v, a)) : Going me v := by
  subst e; exact hp

theorem GotGoes.of_ok {α : Type} {g : Got α} {a : α} (hg : GotGoes me g) (e : g = .ok a v) : Going me v := by
  subst e; exact hg

/-! ### The shared operations (Machine/Ops.lean) -/

theorem Going.updTeam (hs : Going me s) {r f} : Going me (s.updTeam r f) := hs.same

theorem Going.updBlock (hs : Going me s) {b f} : Going me (s.updBlock b f) := hs.same

theorem Going.updCtx (hs : Going me s) {tag f} : Going me (s.updCtx tag f) := hs.same

theorem Going.updDie (hs : Going me s) {e f} : Going me (s.updDie e f) := hs.same

theorem Going.newId (hs : Going me s) : Going me s.newId.2 := hs.same

theorem Going.updCore (hs : Going me s) {c f} : Going me (s.updCore c f) := by
  unfold State.updCore
  split
  · exact hs.same
  · exact hs.same

theorem Going.l2Room (hs : Going me s) {line} : Going me (s.l2Room line) := by
  unfold State.l2Room
  refine .ite hs (.ite hs ?_)
  dsimp only [State.choice]
  split
  · exact hs.same
  · exact hs.same

theorem Going.l2Access (hs : Going me s) {tag line write} : Going me (s.l2Access tag line write) := .ite hs hs.l2Room.same

theorem Going.fill (hs : Going me s) {tag line} : Going me (s.fill tag line) := .ite hs.same hs

theorem Going.memRd (hs : Going me s) {tag pa n} : Going me (s.memRd tag pa n).2 := hs.fill.l2Access

theorem Going.touchAll (hs : Going me s) {tag as} : Going me (s.touchAll tag as) := hs.foldl fun _ _ h => h.memRd

theorem Going.record (hs : Going me s) {b r bit} : Going me (s.record b r bit) := by
  unfold State.record
  split
  · exact hs.same
  · exact hs

theorem Going.walked (hs : Going me s) {c va} : Going me (s.walked c va).2 := hs.foldl fun _ _ h => h.memRd

theorem Going.tlb (hs : Going me s) {c core va} : Going me (s.tlb c core va).2 := by
  unfold State.tlb
  dsimp only
  split
  · exact hs
  · split
    · exact hs.same
    · have hw : Going me (if s.tablesHeld c (va % 2 ^ 56) then (Walk.absent, s) else s.walked c (va % 2 ^ 56)).2 := .ite_snd hs hs.walked
      split
      · next e => exact (hw.of_eq e).same
      · exact hw

theorem Going.xlate (hs : Going me s) {b va} : Going me (s.xlate b va).2 := by
  unfold State.xlate
  split
  · exact hs
  · split
    · exact hs.tlb
    · exact hs

/-! ### Writes of memory -/

theorem Going.pmWr (hs : Going me s) {pa bs} : Going me (s.pmWr pa bs) := .ite hs.same hs.same

theorem Going.memWr (hs : Going me s) {tag pa bs} : Going me (s.memWr tag pa bs) := by
  have h0 : ∀ c line, Going me (if c = true then { s with poison := s.poison.filter fun x => x != line } else s.fill tag line) :=
    fun _ _ => .ite hs.same hs.fill
  exact Going.same (h0 _ _).l2Access.pmWr

theorem Going.unitWr (hs : Going me s) {tag pa bs} : Going me (s.unitWr tag pa bs) := .ite hs.same hs.memWr

/-! ### Messages and absences -/

theorem Going.serve (hs : Going me s) {e p} : Going me (s.serve e p) := by
  unfold State.serve
  split
  · exact hs
  · dsimp only
    split
    · exact hs.same
    · exact hs

theorem Going.acceptMsg (hs : Going me s) {e p v} : Going me (s.acceptMsg e p v) := Going.serve hs.same

theorem Going.ownMsg (hs : Going me s) {e p v} : Going me (s.ownMsg e p v) := by
  unfold State.ownMsg
  split
  · exact hs
  · exact .ite hs.acceptMsg hs.same

theorem Going.postAbsent (hs : Going me s) {tag va} : Going me (s.postAbsent tag va) := by
  unfold State.postAbsent
  split
  · exact hs
  · exact .ite hs (Going.ownMsg hs.same)

theorem Going.absence (hs : Going me s) {tag va} : Going me (s.absence tag va) := by
  unfold State.absence
  split
  · exact hs
  · exact .ite hs hs.postAbsent

/-! ### A trap -/

theorem Going.regWrite (hs : Going me s) {r w} : Going me (s.regWrite r w) := by
  unfold State.regWrite
  split
  · split
    · split
      · exact hs.same
      · exact hs.same
    · exact hs
  · split
    · split
      · exact hs.same
      · exact hs.same
    · exact hs
  · exact hs.same

theorem Going.regWrites (hs : Going me s) {r ws} : Going me (s.regWrites r ws) := hs.foldl fun _ _ h => h.regWrite

theorem Going.writeFrame (hs : Going me s) {tag pa as} : Going me (s.writeFrame tag pa as) :=
  hs.foldl fun _ _ h => h.foldl fun _ _ k => k.memWr

theorem Going.endTeam (hs : Going me s) {r} : Going me (s.endTeam r) := hs.same (s.endTeam_cur r)

theorem Going.faultBlock (hs : Going me s) {b q} : Going me (s.faultBlock b q) :=
  Going.same <| hs.foldl (l := b.teams) fun _ _ h => (h.same (State.ungrant_cur _ _)).same (State.freeFrameOf_cur _ _ _)

theorem Going.faultRecord (hs : Going me s) {b t q entered} : Going me (s.faultRecord b t q entered) := .ite hs hs.record

theorem Going.failTrap (hs : Going me s) {r b t q} : Going me (s.failTrap r b t q) :=
  Going.faultBlock <| Going.regWrites <| Going.same hs.faultRecord

theorem Going.entryScore (hs : Going me s) {r b t} : Going me (s.entryScore r b t) := by
  have h2 : Going me (if t.counted then s.entryPark r .score
      else ((s.entryPark r .score).countPoint b).updTeam r fun u => { u with counted := true }) := .ite hs.same hs.same
  exact .ite hs.same (.ite h2.endTeam h2)

theorem Going.frameWrite (hs : Going me s) {b t q f} : FrameGoes me (s.frameWrite b t q f) := by
  unfold State.frameWrite
  dsimp only
  split
  · next e => exact (hs.xlate.of_eq e).absence
  · next e => exact hs.xlate.of_eq e
  · next e =>
    have h1 := hs.xlate.of_eq e
    exact .ite h1 (.ite h1 h1.writeFrame)

theorem Going.enterFrame (hs : Going me s) {r q f} : Going me (s.enterFrame r q f) := by
  unfold State.enterFrame
  split
  · exact hs
  · next b t _ =>
    refine .ite hs.entryScore ?_
    have hf : FrameGoes me (s.frameWrite b t q f) := hs.frameWrite
    split
    · next e => rw [e] at hf; exact Going.same hf
    · next e => rw [e] at hf; exact Going.failTrap hf
    · next s1 e =>
      rw [e] at hf
      have h1 : Going me s1 := hf
      exact Going.regWrites (Going.faultRecord h1.same)

theorem Going.claimFrame (hs : Going me s) {r b f} : Going me (s.claimFrame r b f) :=
  Going.same <| Going.ite (c := b.bureau.isSome) (a := s) (b := s.updCtx b.tag fun c => { c with claimed := f :: c.claimed }) hs hs.same

theorem Going.enterTrap (hs : Going me s) {r} : Going me (s.enterTrap r) := by
  unfold State.enterTrap
  split
  · exact hs
  · split
    · exact hs
    · refine .ite hs.same ?_
      split
      · exact hs.enterFrame
      · refine .ite hs.failTrap ?_
        split
        · exact hs.same
        · exact hs.claimFrame.enterFrame

theorem Going.raise (hs : Going me s) {r q} : Going me (s.raise r q) :=
  Going.enterTrap <| Going.same (hs.same (State.ungrant_cur s r))

/-! ### Outcomes -/

theorem Going.out (hs : Going me s) : OutSettles me (.next s) := fun h => absurd h hs.notParked

theorem OutSettles.trapReq {q} : OutSettles me (.next (s.trapReq q)) := nofun

theorem OutSettles.trapAt {c info lanes} : OutSettles me (.next (s.trapAt c info lanes)) := .trapReq

theorem OutSettles.trap {c} : OutSettles me (.next (s.trap c)) := .trapAt

theorem OutSettles.trapNext {c info extn} : OutSettles me (.next (s.trapNext c info extn)) := .trapReq

theorem OutSettles.stopAt {b t cause cmp} : OutSettles me (.next (s.stopAt b t cause cmp)) := nofun

/-- A team that has been given a stall reason has it, and so has all that is named as it. -/
theorem settled_of_updTeam {r : TRef} {f : Team → Team} {why : Reason} (hf : ∀ t, (f t).idx = t.idx ∧ (f t).reason = why)
    (hb : v.blocks = (s.updTeam r f).blocks) : Settled r v := by
  have hall : ∀ b ∈ v.blocks, b.id = r.b → ∀ x ∈ b.teams, x.idx = r.t → x.reason = why := by
    rw [hb]
    refine forall_mem_updWhere.2 fun b _ => ?_
    split
    · refine fun _ => forall_mem_updWhere.2 fun t _ => ?_
      split
      · exact fun _ => (hf t).2
      · next h => exact fun e => absurd e (by simpa using h)
    · next h => exact fun e => absurd e (by simpa using h)
  intro c u hu
  obtain ⟨hblock, hteam⟩ := State.team?_eq_some.1 hu
  have huw := hall c (List.mem_of_find?_eq_some hblock) (State.block?_id hblock) u (List.mem_of_find?_eq_some hteam) (Block.team?_idx hteam)
  exact .inr fun b hb hid x hx hidx => (hall b hb hid x hx hidx).trans huw.symm

theorem Going.park (hs : Going me s) {why} : OutSettles me (.next (s.park why)) := fun _ =>
  settled_of_updTeam (s := s) (f := fun t => { t with reason := why, parked := true }) (fun _ => ⟨rfl, rfl⟩) (by rw [← hs.ref]; rfl)

theorem Going.parkFor (hs : Going me s) {why w} : OutSettles me (.next (s.parkFor why w)) := fun _ =>
  settled_of_updTeam (s := s) (f := fun t => { t with reason := why, parked := true, want := w, granted := false }) (fun _ => ⟨rfl, rfl⟩)
    (by rw [← hs.ref]; rfl)

theorem Block.ended_endTeam {b : Block} {i : Nat} {u : Team} (h : (b.endTeam i).team? i = some u) : u.ended = true := by
  unfold Block.endTeam at h
  split at h
  · next hn => rw [hn] at h; cases h
  · next t ht =>
    split at h
    · next he =>
      rw [ht] at h
      obtain rfl := Option.some.inj h
      exact he
    · rw [Block.team?_barCheck] at h
      have hfin : (b.updTeam i Team.finish).team? i = some u := h
      rw [Block.team?_updTeam b i Team.finish fun _ => rfl, ht] at hfin
      obtain rfl := Option.some.inj hfin
      rfl

/-- A team that ends is found ended. -/
theorem State.ended_endTeam {r : TRef} {c : Block} {u : Team} (h : (s.endTeam r).team? r = some (c, u)) : u.ended = true := by
  unfold State.endTeam at h
  split at h
  · next hn => rw [hn] at h; cases h
  · obtain ⟨hblock, hteam⟩ := State.team?_eq_some.1 h
    rw [State.block?_updBlock _ _ _ fun x => x.endTeam_id r.t] at hblock
    obtain ⟨b, -, rfl⟩ := Option.map_eq_some_iff.1 hblock
    exact Block.ended_endTeam hteam

theorem Going.scorePark (hs : Going me s) {b t rs} : OutSettles me (.next (s.scorePark b t rs)) := by
  unfold State.scorePark
  split
  · dsimp only
    have h1 : Going me (if t.counted then s else (s.countPoint b).updTeam s.cur.r fun u => { u with counted := true }) :=
      .ite hs hs.same
    have href := hs.ref
    generalize (if t.counted then s else (s.countPoint b).updTeam s.cur.r fun u => { u with counted := true }) = s1 at h1
    split
    · intro _ c u hu
      rw [← href] at hu
      exact .inl (State.ended_endTeam (s := s1) ((State.team?_congr rfl _).symm.trans hu))
    · exact h1.park
  · exact hs.park

theorem Going.chk (hs : Going me s) {reads writes : List RegName} {scored : Bool} {f : Block → Team → Out}
    (hf : ∀ b t, OutSettles me (f b t)) : OutSettles me (s.chk reads writes scored f) := by
  rcases s.chk_cases reads writes scored f with ⟨-, e⟩ | ⟨b, t, -, ⟨-, e⟩ | ⟨-, e⟩ | ⟨-, e⟩ | ⟨-, e⟩⟩
  · rw [e]; trivial
  · rw [e]; exact .trap
  · rw [e]; exact hs.scorePark
  · rw [e]; exact hs.park
  · rw [e]; exact hf b t

/-- The word issues. -/
theorem Going.issue (hs : Going me s) {h switch f} : Going me (s.issue h switch f) := ⟨hs.ref, nofun⟩

theorem OutSettles.issue {h switch f} : OutSettles me (.next (s.issue h switch f)) := nofun

theorem Going.atPoint (hs : Going me s) {h : Hd} {b : Block} {f : Out} (hf : OutSettles me f) : OutSettles me (s.atPoint h b f) :=
  .ite (Going.out <| Going.endTeam <| Going.issue hs.same) hf

/-! ### Reads at issue -/

theorem Going.legalVa (hs : Going me s) {b need n va} : Going me (s.legalVa b need n va).2 := by
  unfold State.legalVa
  dsimp only
  split
  · exact hs
  · split
    · next e => exact hs.xlate.of_eq e
    · next e => exact hs.xlate.of_eq e
    · next e => exact hs.xlate.of_eq e

theorem Going.getVa (hs : Going me s) {b n va} : GotGoes me (s.getVa b n va) := by
  unfold State.getVa
  split
  · trivial
  · trivial
  · next e => exact .ite trivial ((hs.legalVa.of_eq e).memRd (n := n))

theorem Going.getList (hs : Going me s) {b : Block} {n va k : Nat} : GotGoes me (s.getList b n va k) := by
  induction k generalizing s va with
  | zero => exact hs
  | succ k ih =>
    unfold State.getList
    split
    · trivial
    · trivial
    · next e =>
      have h2 := ih (hs.getVa.of_ok e) (va := va + n)
      split
      · trivial
      · trivial
      · next e2 => exact (h2.of_ok e2 :)

theorem Going.withGot {α : Type} (hs : Going me s) {b : Block} {g : Got α} {f : α → State → Out} (hg : GotGoes me g)
    (hf : ∀ a v, Going me v → OutSettles me (f a v)) : OutSettles me (s.withGot b g f) := by
  cases g with
  | ok a v => exact hf a v hg
  | bad c => exact .trap
  | absent va => exact hs.absence.park

theorem OutSettles.withChk {α : Type} {e : Except Cause α} {f : α → Out} (hf : ∀ a, OutSettles me (f a)) :
    OutSettles me (s.withChk e f) := by
  cases e with
  | ok a => exact hf a
  | error c => exact .trap

end

end Sys2Proof.Machine
end

section
/-! PROOFS. The words of the memory, scratchpad, bench, lane, network, copy, tile, drawer, launch and barrier classes settle their team where
they park (R129 to R150, R198 to R240, R242 to R285, R304 to R328). -/

namespace Sys2Proof.Machine
open Sys2Proof.Claims

set_option Elab.async false

section
variable {me : TRef} {s v : State}

/-! ### Memory and scratchpad -/

theorem Going.legalX (hs : Going me s) {b x need n o} : Going me (s.legalX b x need n o).2.2 := by
  unfold State.legalX
  dsimp only
  split
  · exact hs
  · split
    · exact hs
    · split
      · exact hs
      · have hx := hs.xlate (b := b) (va := wrapInt 56 (x.vbase.toNat + o))
        generalize s.xlate b (wrapInt 56 (x.vbase.toNat + o)) = walk at hx ⊢
        obtain ⟨w, u⟩ := walk
        cases w with
        | unmapped => exact hx
        | absent => exact hx
        | page p => exact hx

theorem Going.checkX (hs : Going me s) {b : Block} {x : XReg} {need : Need} {n : Nat} {off : Nat → Int} {val cmp : Nat → Nat}
    {ls : List Nat} : Going me (s.checkX b x need n off val cmp ls).2 := by
  induction ls generalizing s with
  | nil => exact hs
  | cons l ls ih =>
    unfold State.checkX
    dsimp only
    split
    · exact ih hs.legalX
    · exact ih hs.legalX
    · exact ih hs.legalX

theorem Going.recordIf (hs : Going me s) {b r ev bit} : Going me (s.recordIf b r ev bit) := .ite hs.same hs

theorem Going.dataHits (hs : Going me s) {b t rd wr size acc} : Going me (s.dataHits b t rd wr size acc).1 := by
  refine .ite_fst hs (Going.foldl_fst hs fun p i hp => ?_)
  exact .ite_fst hp.recordIf hp

theorem Going.countWord (hs : Going me s) {b t} : Going me (s.countWord b t).2 :=
  .ite_snd hs (.ite_snd hs (.ite_snd (hs.updCore (f := fun x => { x with mwords := _ })) hs))

theorem Going.sampleRecord (hs : Going me s) {b t pc time phase replays sp sec acc} :
    Going me (s.sampleRecord b t pc time phase replays sp sec acc) := Going.recordIf hs.same

/-- A word on the lanes that passed their checks. -/
theorem OutSettles.onLanes {t : Team} {lane : Option (BitVec 3)} {c : Checked} {f : List LaneAcc → (Team → Team) → Out}
    (hf : ∀ ls upd, OutSettles me (f ls upd)) : OutSettles me (s.onLanes t lane c f) := by
  unfold State.onLanes
  split
  · exact hf _ _
  · split
    · exact .ite (hf _ _) .trapAt
    · exact .trapAt

theorem Going.spTest (hs : Going me s) {b : Block} {t : Team} {lane : Option (BitVec 3)} {rd wr : Bool} {size : Nat}
    {ls : List LaneAcc} {f : Bool → State → Out} (hf : ∀ smp v, Going me v → OutSettles me (f smp v)) :
    OutSettles me (s.spTest b t lane rd wr size ls f) := by
  unfold State.spTest
  split
  · exact .stopAt
  · next e => exact hf _ _ ((hs.dataHits.of_fst e).countWord (b := b) (t := t)).same

theorem Going.spWord (hs : Going me s) {h : Hd} {b : Block} {t : Team} {lane : Option (BitVec 3)} {m : MSpec} {ls : List LaneAcc}
    {upd : Team → Team} {now : State → Out} (hf : ∀ v, Going me v → OutSettles me (now v)) :
    OutSettles me (s.spWord h b t lane m ls upd now) :=
  .ite (hs.spTest fun _ _ _ => .issue) (hs.spTest fun _ _ h => hf _ (.ite h.sampleRecord h))

theorem Going.spLoad (hs : Going me s) {h b lane e z dest ls upd} : OutSettles me (s.spLoad h b lane e z dest ls upd) := by
  unfold State.spLoad
  cases s.team? s.cur.r with
  | none => trivial
  | some p => exact hs.spWord fun _ _ => .ite .issue .issue

theorem Going.emptyAll (hs : Going me s) {gs} : Going me (s.emptyAll gs) := hs.foldl fun _ _ h => h.same

theorem Going.wakeConsume (hs : Going me s) {r} : Going me (s.wakeConsume r) := by
  unfold State.wakeConsume
  split
  · split
    · refine .ite ?_ hs
      have h1 : ∀ c gs, Going me (if c = true then s.emptyAll gs else s) := fun _ _ => .ite hs.emptyAll hs
      dsimp only
      split
      · exact (h1 _ _).sampleRecord.same
      · exact (h1 _ _).same
    · exact hs
  · exact hs

theorem Going.memGo (hs : Going me s) {h b t lane m ls upd} : OutSettles me (s.memGo h b t lane m ls upd) := by
  unfold State.memGo
  refine .ite hs.park ?_
  split
  · exact .stopAt
  · exact .ite hs.park (.ite .issue .issue)

theorem Going.memLanes (hs : Going me s) {h k x o need reads writes m val cmp} :
    OutSettles me (s.memLanes h k x o need reads writes m val cmp) := by
  refine hs.chk fun b t => ?_
  split
  next e => exact .onLanes fun _ _ => (hs.checkX.of_eq e).memGo

theorem Going.memUni (hs : Going me s) {h x o need reads writes m val} :
    OutSettles me (s.memUni h x o need reads writes m val) := by
  refine hs.chk fun b t => ?_
  split
  next e => exact .onLanes fun _ _ => (hs.checkX.of_eq e).memGo

theorem Going.consume (hs : Going me s) {h k d o e z empty} : OutSettles me (s.consume h k d o e z empty) := by
  refine hs.chk fun b t => hs.atPoint <| .onLanes fun ls upd => hs.spTest fun smp v hv => ?_
  exact .ite .issue (Going.out <| Going.wakeConsume <| Going.issue hv.same)

theorem Going.atomWord (hs : Going me s) {h p k d x o sp ret} : OutSettles me (s.atomWord h p k d x o sp ret) :=
  .ite (hs.chk fun _ _ => .onLanes fun _ _ => hs.spWord fun _ _ => .ite .issue .issue) hs.memLanes

theorem Going.execLds (hs : Going me s) {h k d o e z} : OutSettles me (execLds h k d o e z s) :=
  hs.chk fun _ _ => .onLanes fun _ _ => hs.spLoad

theorem Going.execLdws (hs : Going me s) {h d o e z} : OutSettles me (execLdws h d o e z s) :=
  hs.chk fun _ _ => .onLanes fun _ _ => hs.spLoad

theorem Going.execSts (hs : Going me s) {h k d o z} : OutSettles me (execSts h k d o z s) :=
  hs.chk fun _ _ => .onLanes fun _ _ => hs.spWord fun _ _ => .issue

theorem Going.execStws (hs : Going me s) {h d o z} : OutSettles me (execStws h d o z s) :=
  hs.chk fun _ _ => .onLanes fun _ _ => hs.spWord fun _ _ => .issue

theorem Going.feRange (hs : Going me s) {h d o kind} : OutSettles me (s.feRange h d o kind) := by
  refine hs.chk fun b t => .ite .trap (.ite .trap ?_)
  split
  · exact .trap
  · exact .ite .issue .issue

theorem Going.execFence (hs : Going me s) {h} : OutSettles me (execFence h s) :=
  hs.chk fun _ _ => .ite hs.park (.ite hs.park .issue)

theorem Going.execXfence (hs : Going me s) {h q p} : OutSettles me (execXfence h q p s) := hs.chk fun _ _ => .ite hs.park .issue

theorem Going.execSpfence (hs : Going me s) {h} : OutSettles me (execSpfence h s) := hs.chk fun _ _ => .ite hs.park .issue

/-! ### Benches and sharing groups -/

theorem Going.execBinit (hs : Going me s) {h d o} : OutSettles me (execBinit h d o s) := by
  refine hs.chk fun b t => ?_
  split
  · exact .trap
  · exact .ite .trap (.ite .issue .issue)

theorem Going.execBarrive (hs : Going me s) {h o} : OutSettles me (execBarrive h o s) := by
  refine hs.chk fun b t => ?_
  split
  · exact .trap
  · exact .ite .issue .issue

theorem Going.wakeBench (hs : Going me s) {r} : Going me (s.wakeBench r) := by
  unfold State.wakeBench
  split
  · split
    · exact .ite hs.same hs
    · exact hs
  · exact hs

theorem Going.execBwait (hs : Going me s) {h d o} : OutSettles me (execBwait h d o s) := by
  refine hs.chk fun b t => hs.atPoint ?_
  split
  · exact .trap
  · exact Going.out (Going.wakeBench (Going.issue hs.same))

theorem Going.wakeSg (hs : Going me s) {r} : Going me (s.wakeSg r) := by
  unfold State.wakeSg
  split
  · split
    · exact .ite hs.same hs
    · exact hs
  · exact hs

theorem Going.execSgjoin (hs : Going me s) {h d} : OutSettles me (execSgjoin h d s) :=
  hs.chk fun _ _ => hs.atPoint <| .ite .trap (.ite hs.park (Going.out (Going.wakeSg (Going.issue hs.same))))

/-! ### Scatters, intersections and network reductions -/

theorem Going.execScatc (hs : Going me s) {h k d x o y q} : OutSettles me (execScatc h k d x o y q s) := by
  refine .ite (hs.chk fun b t => .onLanes fun ls upd => ?_) (hs.chk fun b t => ?_)
  · split
    · exact .stopAt
    · exact .ite .issue .issue
  · split
    next e => exact .onLanes fun _ _ => (hs.checkX.of_eq e).memGo

theorem Going.isectWord (hs : Going me s) {h d b z out} : OutSettles me (s.isectWord h d b z out) := by
  refine hs.chk fun b t => ?_
  dsimp only
  split
  · exact .trap
  · exact .trap
  · exact .trap
  · exact .ite .trap .issue

theorem Going.nredWord (hs : Going me s) {h u b o r ord} : OutSettles me (s.nredWord h u b o r ord) :=
  hs.chk fun _ _ => .ite .trap (.ite .trap (.ite .issue .issue))

/-! ### Copies -/

theorem Going.tileCount (hs : Going me s) {c} : Going me (s.tileCount c) := by
  unfold State.tileCount
  split
  · exact hs.same
  · exact hs

theorem Going.copyPost (hs : Going me s) {c} : Going me (s.copyPost c) := by
  unfold State.copyPost
  split
  · exact hs.same
  · exact hs

theorem Going.copyTell (hs : Going me s) {c} : Going me (s.copyTell c) := by
  unfold State.copyTell
  split
  · exact hs.same
  · exact hs

theorem Going.finishCopy (hs : Going me s) {c} : Going me (s.finishCopy c) := by
  unfold State.finishCopy
  refine .ite hs.copyPost.same ?_
  have h1 : Going me ((s.tileCount c).choice 2).2 := hs.tileCount.same
  dsimp only
  split
  · next e => exact (h1.of_eq e).copyPost.copyTell.same
  · next e => exact (h1.of_eq e).copyTell.same

theorem Going.copyGo (hs : Going me s) {h t c} : OutSettles me (s.copyGo h t c) := by
  unfold State.copyGo
  extract_lets ready
  split
  · exact hs.parkFor
  · refine Going.out ?_
    dsimp only
    have h4 : ∀ {c1 : Copy} {x : State}, Going me x → Going me (if c.bytes = 0 then x.finishCopy c1 else x) := fun hx =>
      .ite hx.finishCopy hx
    refine h4 (Going.issue ?_)
    cases c.chip with
    | drawer d r => exact hs.same
    | none => exact hs.same
    | spad => exact hs.same
    | reg => exact hs.same

theorem Going.copyWord (hs : Going me s) {h : Hd} {u b : BitVec 6} {k : BitVec 3} {n : Nat} {f : Block → Team → Out}
    (hf : ∀ b t, OutSettles me (f b t)) : OutSettles me (s.copyWord h u b k n f) := hs.chk fun _ _ => .ite .issue (hf _ _)

theorem Going.execCpy (hs : Going me s) {h u b k tk dir} : OutSettles me (execCpy h u b k tk dir s) :=
  hs.copyWord fun _ _ => .ite .trap <| .withChk fun _ => .withChk fun _ => .ite .trap hs.copyGo

theorem Going.execTcpy (hs : Going me s) {h u b k tk dir} : OutSettles me (execTcpy h u b k tk dir s) :=
  hs.copyWord fun _ _ => hs.withGot hs.getVa fun _ _ hv => .withChk fun _ => .withChk fun _ =>
    .ite .trap (hv.withGot hv.getList fun _ _ hx => hx.copyGo)

theorem Going.rowsWord (hs : Going me s) {h kind u b k tk dir} : OutSettles me (s.rowsWord h kind u b k tk dir) :=
  hs.copyWord fun _ _ => .ite hs.park <| hs.withGot hs.getVa fun _ _ hv => .withChk fun _ => .withChk fun _ => .withChk fun _ =>
    .ite .trap hv.copyGo

/-! ### Tile operations, Chest and drawers -/

theorem Going.execMpair (hs : Going me s) {h d} : OutSettles me (execMpair h d s) := by
  refine hs.chk fun b t => ?_
  split
  · exact .issue
  · exact .issue

theorem Going.mmaWord (hs : Going me s) {h z b p n k u zero} : OutSettles me (s.mmaWord h z b p n k u zero) := by
  refine hs.chk fun b t => .ite .trap (.ite .trap (.ite .trap (.ite .trap (.ite .issue ?_))))
  split
  · exact .trap
  · exact hs.parkFor
  · exact .issue

theorem Going.tileMove (hs : Going me s) {h z b p kind} : OutSettles me (s.tileMove h z b p kind) :=
  hs.chk fun _ _ => .ite .trap (.ite .trap (.ite .trap (.ite .trap (.withChk fun _ => .issue))))

theorem Going.execMzero (hs : Going me s) {h z p} : OutSettles me (execMzero h z p s) :=
  hs.chk fun _ _ => .ite .trap (.ite .trap .issue)

theorem Going.execMstat (hs : Going me s) {h d z l} : OutSettles me (execMstat h d z l s) := by
  refine hs.chk fun b t => ?_
  split
  · exact .trap
  · exact .issue

theorem Going.execMperm (hs : Going me s) {h b} : OutSettles me (execMperm h b s) := hs.chk fun _ _ => .ite .trap (.ite .trap .issue)

theorem Going.execCclaim (hs : Going me s) {h d b} : OutSettles me (execCclaim h d b s) := by
  refine hs.chk fun b t => .ite .trap ?_
  split
  · exact .trap
  · exact .issue

theorem Going.execCrelease (hs : Going me s) {h b} : OutSettles me (execCrelease h b s) :=
  hs.chk fun _ _ => .ite .trap (.ite hs.park .issue)

theorem Going.execDinit (hs : Going me s) {h n b} : OutSettles me (execDinit h n b s) :=
  hs.chk fun _ _ => .ite .trap (.ite hs.park .issue)

/-! ### Levels and launches -/

theorem Going.closeIfCancelled (hs : Going me s) {tag slot} : Going me (s.closeIfCancelled tag slot) := .ite hs.same hs

theorem Going.scoreNow (hs : Going me s) {h d v switch} : Going me (s.scoreNow h d v switch) := Going.issue hs.same

theorem Going.slotGen (hs : Going me s) {c slot} : Going me (s.slotGen c slot).2 := by
  unfold State.slotGen
  split
  · exact hs
  · exact hs.same

theorem Going.newLevel (hs : Going me s) {tag kind lk parent n phase auto die} :
    Going me (s.newLevel tag kind lk parent n phase auto die).2 := by
  unfold State.newLevel
  split
  next e =>
    have h1 := Going.of_eq (p := s.choice levelSlots) hs.same e
    split
    · exact h1
    · exact h1.slotGen.updCtx

theorem Going.newPhase (hs : Going me s) {tag die} : Going me (s.newPhase tag die).2 := by
  unfold State.newPhase
  split
  · exact hs
  · exact hs.newLevel.updCtx

theorem Going.newLaunch (hs : Going me s) {tag src ng np lk n die} : Going me (s.newLaunch tag src ng np lk n die).2.2 := by
  unfold State.newLaunch
  split
  · exact hs
  · dsimp only
    split
    · exact hs.newPhase.newLevel.newLevel
    · split
      · exact hs.newLevel.newLevel
      · exact hs.newLevel

theorem Going.launchWord (hs : Going me s) {d a : BitVec 6} {p g : BitVec 1} {f : Block → Nat → State → Out}
    (hf : ∀ b r v, Going me v → OutSettles me (f b r v)) : OutSettles me (s.launchWord d a p g f) :=
  hs.chk fun _ _ => .ite hs.park (hs.withGot hs.getVa fun _ _ hv => .ite .trap (hf _ _ _ hv))

theorem Going.execLaunchFlat (hs : Going me s) {h d a p g} : OutSettles me (execLaunchFlat h d a p g s) := by
  refine hs.launchWord fun b r v hv => .ite .trap (Going.out ?_)
  exact Going.ite hv.newLaunch.newId.scoreNow.closeIfCancelled hv.newLaunch.newId.scoreNow.same

theorem Going.execLaunchTree (hs : Going me s) {h d a p g} : OutSettles me (execLaunchTree h d a p g s) :=
  hs.launchWord fun _ _ _ hv => Going.out (Going.ite hv.newLaunch.scoreNow.closeIfCancelled hv.newLaunch.scoreNow.same)

theorem Going.execLaunchBin (hs : Going me s) {h d a p g} : OutSettles me (execLaunchBin h d a p g s) := by
  refine hs.launchWord fun b r v hv => .ite .trap ?_
  split
  · exact .trap
  · exact Going.out (Going.ite hv.newLaunch.scoreNow.closeIfCancelled hv.newLaunch.scoreNow.same)

theorem Going.execLvlwaitPoll (hs : Going me s) {h d a} : OutSettles me (execLvlwaitPoll h d a s) :=
  hs.chk fun _ _ => .withChk fun _ => .ite .trap .issue

/-! ### Barriers and tree launches -/

theorem Going.execBar (hs : Going me s) {h} : OutSettles me (execBar h s) :=
  hs.chk fun _ _ => hs.atPoint <| Going.out <| Going.same (Going.issue (h := h) (switch := true) hs.same) (State.wakeBar_cur _ _)

theorem Going.execNres (hs : Going me s) {h a w} : OutSettles me (execNres h a w s) := by
  refine hs.chk fun b t => ?_
  split
  · exact .trap
  · exact .issue

theorem Going.execNresK (hs : Going me s) {h a p w} : OutSettles me (execNresK h a p w s) := by
  refine hs.chk fun b t => ?_
  split
  · exact .trap
  · exact .issue

theorem Going.execNchild (hs : Going me s) {h d p w} : OutSettles me (execNchild h d p w s) := by
  refine hs.chk fun b t => ?_
  split
  · exact .trap
  · exact .issue

theorem Going.execNparent (hs : Going me s) {h d w} : OutSettles me (execNparent h d w s) := by
  refine hs.chk fun b t => ?_
  split
  · exact .trap
  · exact .issue

end

end Sys2Proof.Machine
end

section
/-! PROOFS. The task, message, queue, translation and control words settle their team where they park, and so every word does (R86 to R95,
R105 to R112, R329 to R359, R388 to R397). -/

namespace Sys2Proof.Machine
open Sys2Proof.Claims

set_option Elab.async false

section
variable {me : TRef} {s v : State}

/-! ### Futures -/

theorem Going.futWrite (hs : Going me s) {f} : Going me (s.futWrite f) := by
  unfold State.futWrite
  split
  next e =>
    split at e
    · cases e; exact hs.unitWr
    · cases e; exact Going.unitWr hs.same

theorem Going.futEnd (hs : Going me s) {f st value pcount} : Going me (s.futEnd f st value pcount) := by
  unfold State.futEnd
  split
  · exact hs
  · split
    · exact hs
    · exact .ite (hs.updDie.futWrite.updDie) hs

theorem Going.futLower (hs : Going me s) {die fut} : Going me (s.futLower die fut).2 := by
  unfold State.futLower
  split
  · exact hs
  · have h1 : ∀ x f g, Going me ((s.updFuture die x f).futWrite g) := fun _ _ _ => hs.updDie.futWrite
    exact .ite_snd hs (.ite_snd (h1 _ _ _).updDie.updDie (h1 _ _ _))

theorem Going.dropDispatch (hs : Going me s) {d} : Going me (s.dropDispatch d) := Going.futEnd hs.same

theorem Going.reclaimTask (hs : Going me s) {die fut} : Going me (s.reclaimTask die fut).2 := by
  unfold State.reclaimTask
  split
  · exact Going.dropDispatch hs.same
  · split
    · exact hs.same
    · exact hs

theorem Going.futDrops (hs : Going me s) {fuel : Nat} {l : List (Nat × Nat)} : Going me (State.futDrops fuel s l) := by
  induction fuel generalizing s l with
  | zero => cases l <;> exact hs
  | succ fuel ih =>
    cases l with
    | nil => exact hs
    | cons p rest =>
      unfold State.futDrops
      split
      · next e => exact ih (hs.futLower.of_eq e)
      · next e => exact ih (hs.futLower.of_eq e).reclaimTask

theorem Going.takeGen (hs : Going me s) {g} : Going me (s.takeGen g).2 := by
  cases g with
  | none => exact hs.same
  | some x => exact hs

theorem Going.startTask (hs : Going me s) {d} : Going me (s.startTask d) := .ite hs.closeIfCancelled.futEnd hs.same

theorem Going.spawnWord (hs : Going me s) {d b : BitVec 6} {f : Block → Team → Nat → List Dword → State → Out}
    (hf : ∀ b t r l v, Going me v → OutSettles me (f b t r l v)) : OutSettles me (s.spawnWord d b f) := by
  refine hs.chk fun b t => .ite hs.park (hs.withGot hs.getList fun l v hv => ?_)
  split
  · exact .ite .trap (hf _ _ _ _ _ hv)
  · exact hv.out

theorem Going.execSpawn (hs : Going me s) {h d b} : OutSettles me (execSpawn h d b s) :=
  hs.spawnWord fun _ _ _ _ _ hv => .ite .trap <| hv.withGot hv.getList fun _ _ hw =>
    .ite .trap <| .ite .trap <| .ite hw.park <| Going.out <| Going.startTask <| Going.scoreNow hw.newLaunch.newId

theorem Going.execSpawnf (hs : Going me s) {h d b} : OutSettles me (execSpawnf h d b s) := by
  refine hs.spawnWord fun bl t r args v hv => ?_
  dsimp only
  split
  · exact .trap
  · next e => exact (hv.legalVa.of_eq e).absence.park
  · next s2 e =>
    have h2 := hv.legalVa.of_eq e
    refine .ite h2.park (.ite .trap (.ite .trap (Going.out (Going.startTask (Going.scoreNow ?_)))))
    have h4 : Going me ((s2.newLaunch bl.tag bl.slot (taskNg r) (taskNp r) .task 1 (coreDie bl.core)).2.2.choice 65536).2 :=
      Going.same h2.newLaunch
    exact Going.updBlock (Going.futWrite (Going.updDie (Going.same h4.takeGen)))

theorem OutSettles.withFut {b : Block} {h : Dword} {f : Nat → Future → Out} (hf : ∀ e x, OutSettles me (f e x)) :
    OutSettles me (s.withFut b h f) := by
  unfold State.withFut
  split
  · exact hf _ _
  · exact .trap

theorem Going.execFref (hs : Going me s) {h b} : OutSettles me (execFref h b s) := hs.chk fun _ _ => .withFut fun _ _ => .ite .trap .issue

theorem Going.execFdrop (hs : Going me s) {h b} : OutSettles me (execFdrop h b s) :=
  hs.chk fun _ _ => .withFut fun _ _ => Going.out <| Going.futDrops <| Going.issue hs.updBlock

theorem Going.wakeFuture (hs : Going me s) {r} : Going me (s.wakeFuture r) := by
  unfold State.wakeFuture
  split
  · split
    · split
      · exact hs
      · split
        · exact hs
        · exact hs.same
        · exact Going.raise hs.same
    · exact hs
  · exact hs

theorem Going.execFwait (hs : Going me s) {h d b} : OutSettles me (execFwait h d b s) :=
  hs.chk fun _ _ => hs.atPoint <| .withFut fun _ _ => .ite .trap (Going.out (Going.wakeFuture (Going.issue hs.same)))

theorem Going.execFpoll (hs : Going me s) {h d b} : OutSettles me (execFpoll h d b s) := hs.chk fun _ _ => .withFut fun _ _ => .issue

theorem Going.execRpoint (hs : Going me s) {h} : OutSettles me (execRpoint h s) := hs.chk fun _ _ => hs.atPoint .issue

/-! ### Bins -/

theorem Going.binDispatch (hs : Going me s) {e x n} : Going me (s.binDispatch e x n) := .ite hs.same hs.same

theorem Going.binAccept (hs : Going me s) {e x r last} : Going me (s.binAccept e x r last) := by
  unfold State.binAccept
  extract_lets x1 s1
  have h1 : Going me s1 := .ite hs.binDispatch hs.same
  refine .ite h1 ?_
  split
  · exact h1
  · refine .ite h1.same ?_
    extract_lets s2
    split
    · exact Going.same h1.binDispatch
    · exact h1.binDispatch

theorem Going.execBinpost (hs : Going me s) {h wh b n l} : OutSettles me (execBinpost h wh b n l s) := by
  refine hs.chk fun b t => ?_
  split
  · exact .trap
  · exact .ite hs.park (.ite hs.park hs.issue.binAccept.out)

/-! ### Ports, patterns and queues -/

theorem Going.execPortopen (hs : Going me s) {h d b} : OutSettles me (execPortopen h d b s) := hs.chk fun _ _ => .ite .trap .issue

theorem Going.execSend (hs : Going me s) {h p b} : OutSettles me (execSend h p b s) := by
  refine hs.chk fun b t => ?_
  split
  · exact .trap
  · exact .ite hs.park (.ite .trap (.ite hs.park hs.issue.acceptMsg.out))

theorem Going.execSendt (hs : Going me s) {h d b} : OutSettles me (execSendt h d b s) := by
  refine hs.chk fun b t => ?_
  split
  · exact .trap
  · exact .ite hs.park (.ite .issue (.ite hs.park hs.scoreNow.acceptMsg.out))

theorem Going.wakeRecv (hs : Going me s) {r} : Going me (s.wakeRecv r) := by
  unfold State.wakeRecv
  split
  · split
    · exact hs.serve
    · exact hs
  · exact hs

theorem Going.execRecv (hs : Going me s) {h d p} : OutSettles me (execRecv h d p s) := by
  refine hs.chk fun b t => hs.atPoint ?_
  split
  · exact .trap
  · exact .ite .trap <| Going.out <| Going.wakeRecv <| Going.updDie <| Going.issue hs.same

theorem Going.execPatset (hs : Going me s) {h d b} : OutSettles me (execPatset h d b s) := by
  refine hs.chk fun b t => .ite hs.park (hs.withGot hs.getVa fun r v hv => .ite .trap (.ite hv.scorePark ?_))
  split
  · exact .trap
  · exact .ite hv.park .issue

theorem Going.updQueue (hs : Going me s) {e i f} : Going me (s.updQueue e i f) := hs.same

theorem Going.execQcreate (hs : Going me s) {h d b} : OutSettles me (execQcreate h d b s) := hs.chk fun _ _ => .ite .trap .issue

theorem Going.execQcreateFree (hs : Going me s) {h b} : OutSettles me (execQcreateFree h b s) := by
  refine hs.chk fun b t => ?_
  split
  · exact .trap
  · exact .ite .trap .issue

theorem Going.entryLegal (hs : Going me s) {b : Block} {need : Need} {l : List Nat} : GotGoes me (s.entryLegal b need l) := by
  induction l generalizing s with
  | nil => exact hs
  | cons va vs ih =>
    unfold State.entryLegal
    split
    · trivial
    · trivial
    · next e =>
      have h2 := ih (hs.legalVa.of_eq e)
      refine .ite trivial ?_
      split
      · next e2 => exact (h2.of_ok e2 :)
      · exact h2

theorem Going.servePop (hs : Going me s) {e i} : Going me (s.servePop e i) := by
  unfold State.servePop
  split
  · exact hs
  · split
    · exact hs
    · refine .ite hs ?_
      split
      · exact hs
      · split
        · split
          · exact Going.same hs.absence
          · exact Going.raise hs.same
          · next e =>
            have h1 := hs.entryLegal.of_ok e
            exact Going.same (h1.foldl_fst fun _ _ h => h.memRd (n := 8))
        · exact hs

theorem Going.wakePop (hs : Going me s) {r} : Going me (s.wakePop r) := by
  unfold State.wakePop
  split
  · split
    · exact hs.servePop
    · exact hs
  · exact hs

theorem Going.execQpush (hs : Going me s) {h a b} : OutSettles me (execQpush h a b s) := by
  refine hs.chk fun b t => ?_
  split
  · exact .trap
  · refine .ite .trap (.ite .trap (.ite hs.scorePark (hs.withGot hs.entryLegal fun as v hv => ?_)))
    refine .ite (Going.parkFor (.ite hv hv.updQueue)) (.ite hv.park ?_)
    exact Going.out <| Going.servePop <| Going.issue <| Going.updQueue <| Going.foldl hv fun _ _ h => h.memWr

theorem Going.execQpop (hs : Going me s) {h d b} : OutSettles me (execQpop h d b s) := by
  refine hs.chk fun b t => hs.atPoint ?_
  split
  · exact .trap
  · exact .ite .trap <| .ite .trap <| .ite hs.scorePark <| .ite hs.park <| Going.out <| Going.wakePop <|
      Going.updQueue (Going.issue hs.same)

/-! ### Translation words -/

theorem Going.execXlat (hs : Going me s) {h d a} : OutSettles me (execXlat h d a s) := hs.chk fun _ _ => .ite hs.park .issue

theorem Going.retryLane (hs : Going me s) {b o l} : Going me (s.retryLane b o l).2 := by
  unfold State.retryLane
  refine .ite_snd hs ?_
  split
  · next e => exact hs.legalVa.of_eq e
  · next e => exact (hs.legalVa.of_eq e).absence
  · next e => exact (hs.legalVa.of_eq e).postAbsent

theorem Going.retryLanes (hs : Going me s) {b : Block} {o : MemOp} {ls : List LaneAcc} : Going me (s.retryLanes b o ls).2 := by
  induction ls generalizing s with
  | nil => exact hs
  | cons l ls ih => exact ih hs.retryLane

theorem Going.retryOp (hs : Going me s) {b r o} : Going me (s.retryOp b r o) := Going.same hs.retryLanes

theorem Going.retryRange (hs : Going me s) {tag g} : Going me (s.retryRange tag g) := hs.foldl fun _ _ h => h.retryOp

theorem Going.retryCopies (hs : Going me s) {tag g} : Going me (s.retryCopies tag g) := hs.same

theorem Going.invalidate (hs : Going me s) {tag g} : Going me (s.invalidate tag g) :=
  Going.retryCopies (Going.retryRange hs.same)

theorem Going.execXinv (hs : Going me s) {h a b} : OutSettles me (execXinv h a b s) :=
  hs.chk fun _ _ => .ite hs.park (.ite .issue (Going.out (Going.same hs.issue.invalidate)))

/-! ### Control words -/

theorem Going.execRgive (hs : Going me s) {h k} : OutSettles me (execRgive h k s) :=
  hs.chk fun _ _ => .ite nofun (.ite .trap (.ite hs.park (.ite hs.park .issue)))

theorem Going.execRclaim (hs : Going me s) {h k} : OutSettles me (execRclaim h k s) :=
  hs.chk fun _ _ => .ite .trap (.ite hs.park (.ite .issue hs.updBlock.parkFor))

theorem Going.wakeLevel (hs : Going me s) {r} : Going me (s.wakeLevel r) := by
  unfold State.wakeLevel
  split
  · split
    · split
      · exact hs.same
      · exact hs
    · exact hs
  · exact hs

theorem Going.execLvlwait (hs : Going me s) {h d a} : OutSettles me (execLvlwait h d a s) :=
  hs.chk fun _ _ => hs.atPoint <| .withChk fun _ => .ite .trap (Going.out (Going.wakeLevel (Going.issue hs.same)))

theorem Going.execLvlcancel (hs : Going me s) {h a} : OutSettles me (execLvlcancel h a s) := hs.chk fun _ _ => .withChk fun _ => .issue

theorem Going.execExit (hs : Going me s) {h} : OutSettles me (execExit h s) := hs.chk fun _ _ => Going.out <| Going.endTeam <| Going.issue hs.updBlock

theorem Going.tretGo (hs : Going me s) {b : Block} {t : Team} {f : Nat} {stay : State → State}
    {go : State → BitVec 56 → List RegWrite → State} (hstay : ∀ v, OutSettles me (.next (stay v)))
    (hgo : ∀ v r ws, OutSettles me (.next (go v r ws))) : OutSettles me (s.tretGo b t f stay go) := by
  unfold State.tretGo
  extract_lets va
  split
  · next e => exact (hs.xlate.of_eq e).absence.park
  · exact .trap
  · next s1 e =>
    have h1 := hs.xlate.of_eq e
    extract_lets pa win gone r ws s2
    have h2 : Going me s2 := h1.touchAll
    clear_value r
    exact .ite .trap <| .ite h1.park <| .ite (hstay _) <| .ite h1.park <| .ite .trap <| .ite h2.scorePark (hgo _ _ _)

theorem Going.execTret (hs : Going me s) {h} : OutSettles me (execTret h s) := by
  refine hs.chk fun b t => ?_
  split
  · exact .trap
  · exact hs.tretGo (fun _ => .issue) fun _ _ _ => nofun

theorem Going.execWfi (hs : Going me s) {h} : OutSettles me (execWfi h s) := by
  refine hs.chk fun b t => ?_
  split
  · exact .trap
  · exact .ite .issue .issue

theorem Going.execBrk (hs : Going me s) : OutSettles me (execBrk s) := hs.chk fun _ _ => .ite .stopAt .trapNext

/-- A word of the sequencer (R395). -/
theorem Going.moveWord (hs : Going me s) {d a : BitVec 6} {n : Nat} {f : Nat → State → Out}
    (hf : ∀ x v, Going me v → OutSettles me (f x v)) : OutSettles me (s.moveWord d a n f) := by
  refine hs.chk fun b t => ?_
  split
  · exact .trap
  · extract_lets s1 va
    have h1 : Going me s1 := .ite hs hs.same
    exact .ite h1.park (.ite .trap (hf _ _ h1))

theorem Going.execCswap (hs : Going me s) {h d a} : OutSettles me (execCswap h d a s) :=
  hs.moveWord fun _ _ hv => .ite .trap (.ite (Going.park hv.same) .issue)

theorem Going.execDusk (hs : Going me s) {h d a} : OutSettles me (execDusk h d a s) :=
  hs.moveWord fun _ _ hv => .ite .trap (.ite (Going.park hv.same) .issue)

theorem Going.execDuskRet (hs : Going me s) {h d a} : OutSettles me (execDuskRet h d a s) := hs.moveWord fun _ _ _ => .issue

/-! ### Flow words -/

theorem OutSettles.flow {h frozen target f} : OutSettles me (.next (s.flow h frozen target f)) := nofun

theorem Going.execVbr (hs : Going me s) {h k o} : OutSettles me (execVbr h k o s) := hs.chk fun _ _ => .ite .trap (.ite .flow nofun)

theorem Going.execRecon (hs : Going me s) {h} : OutSettles me (execRecon h s) := by
  refine hs.chk fun b t => ?_
  split
  · exact .trap
  · exact .ite .flow .flow

/-- Every word settles its team where it parks. -/
theorem Going.exec (hs : Going me s) {i : Instr} (hi : i.word.isSome = true) : OutSettles me (Machine.exec i s) := by
  cases i with
  | nop | sample | uadd | usub | umul | umulh | uand | uor | uxor | ushl | ushr | usar | umin | umax | ucmp
    | ubfx | ubfi | uaddImm | uandImm | uorImm | uxorImm | ushlImm | ushrImm | usarImm | umulImm | ului | mand
    | mor | mxor | mandn | mlead | mfirst | mcount | mgetw | cvt | vcmpEq | vcmpNe | vcmpLt | vcmpLe | vcmpGt
    | vcmpGe | vcmpUn | vcmpOrd | vtest | vred | vsel | pref | vconf | vcompress | rdc | rdcV | wrc | trig | sgleave | dstat =>
    exact hs.chk fun _ _ => .issue
  | vadd | vsub | vmul | vmulh | vand | vor | vxor | vshl | vshr | vsar | vmin | vmax | vabs | vbfx | vbfi
    | vaddImm | vandImm | vorImm | vxorImm | vshlImm | vshrImm | vsarImm | vmulImm | vmovImm | fadd | fsub
    | fmul | ffma | fmin | fmax | fabs | frcp | frsq | fsqrt | fdiv | fexp2 | flog2 | fneg | dadd | dsub | dmul
    | dfma | dmin | dmax | ddiv | dsqrt | hadd2 | hsub2 | hmul2 | hfma2 | hmin2 | hmax2 | vdot4 | vshuf | vbcast
    | vscan | vmov | vmovw | mpath | vsegred | vsegscan | vexpand => exact hs.chk fun _ _ => .issue
  | trap | extn => exact hs.chk fun _ _ => .trapNext
  | msetw => exact hs.chk fun _ _ => .ite .issue .issue
  | jmp | call | brmAny | brmAll | brmNone | bruZ | bruNz | bruNeg | bruNneg => exact hs.chk fun _ _ => .flow
  | ret => exact hs.chk fun _ _ => .ite .trap .flow
  | vbr => exact hs.execVbr
  | recon => exact hs.execRecon
  | tret => exact hs.execTret
  | wfi => exact hs.execWfi
  | brk => exact hs.execBrk
  | cswap => exact hs.execCswap
  | dusk => exact hs.execDusk
  | duskRet => exact hs.execDuskRet
  | ldg | stg => exact hs.memLanes
  | lds => exact hs.execLds
  | ldsFe | ldsFk => exact hs.consume
  | ldw | stw => exact hs.memUni
  | ldws => exact hs.execLdws
  | sts => exact hs.execSts
  | stws => exact hs.execStws
  | feset | feclr => exact hs.feRange
  | atom | red => exact hs.atomWord
  | fence => exact hs.execFence
  | xfence => exact hs.execXfence
  | spfence => exact hs.execSpfence
  | binit => exact hs.execBinit
  | barrive => exact hs.execBarrive
  | bwait => exact hs.execBwait
  | sgjoin => exact hs.execSgjoin
  | cpy => exact hs.execCpy
  | tcpy => exact hs.execTcpy
  | gcpy | scpy => exact hs.rowsWord
  | isect | isectn => exact hs.isectWord
  | scatc => exact hs.execScatc
  | nredOrd | nredAny => exact hs.nredWord
  | mma | mmaZ => exact hs.mmaWord
  | mzero => exact hs.execMzero
  | mload | mdrain => exact hs.tileMove
  | mpair => exact hs.execMpair
  | mstat => exact hs.execMstat
  | mperm => exact hs.execMperm
  | cclaim => exact hs.execCclaim
  | crelease => exact hs.execCrelease
  | dinit => exact hs.execDinit
  | spawn => exact hs.execSpawn
  | spawnf => exact hs.execSpawnf
  | fref => exact hs.execFref
  | fdrop => exact hs.execFdrop
  | fwait => exact hs.execFwait
  | fpoll => exact hs.execFpoll
  | rpoint => exact hs.execRpoint
  | binpost => exact hs.execBinpost
  | send => exact hs.execSend
  | sendt => exact hs.execSendt
  | recv => exact hs.execRecv
  | patset => exact hs.execPatset
  | portopen => exact hs.execPortopen
  | qcreate => exact hs.execQcreate
  | qcreateFree => exact hs.execQcreateFree
  | qpush => exact hs.execQpush
  | qpop => exact hs.execQpop
  | nres => exact hs.execNres
  | nresK => exact hs.execNresK
  | nchild => exact hs.execNchild
  | nparent => exact hs.execNparent
  | rgive => exact hs.execRgive
  | rclaim => exact hs.execRclaim
  | bar => exact hs.execBar
  | launchFlat => exact hs.execLaunchFlat
  | launchTree => exact hs.execLaunchTree
  | launchBin => exact hs.execLaunchBin
  | lvlwait => exact hs.execLvlwait
  | lvlwaitPoll => exact hs.execLvlwaitPoll
  | lvlcancel => exact hs.execLvlcancel
  | exit => exact hs.execExit
  | xlat => exact hs.execXlat
  | xinv => exact hs.execXinv
  | _ => cases hi

end

end Sys2Proof.Machine
end

section
/-! PROOFS. The chain of one word, prefixes and target: what is gathered at its address is what it decodes to (R86, R101 to R103). -/

namespace Sys2Proof.Machine
open Sys2Proof.Claims

set_option Elab.async false

/-! ### What the decoder reads -/

/-- The decoder's tables hold words alone. -/
theorem decBody_isWord {md : Option ModPfx} {im : Option (BitVec 23)} {w : Word} {i : Instr} (h : decBody md im w = some i) :
    i.word.isSome = true := by
  unfold decBody at h
  dsimp only at h
  split at h
  all_goals
    simp only [decSys, decUalu, decUimm, decUlong, decFlow, decMask, decVint, decVimm, decVf32, decVf64, decVh16, decVcvt, decVcmp, decVlane,
      decLoad, decStore, decAtom, decFence, decSpad, decCopy, decSparse, decNred, decMma, decChest, decTask, decMsg, decQueue, decTree,
      decCtrl, decXlat, decExtn, reduceCtorEq] at h
    repeat' split at h
    all_goals (cases h <;> rfl)

theorem Decoded.ite_bad_ne_ok {c : Prop} [Decidable c] {r q : Reject} {i : Instr} : (if c then Decoded.bad r else .bad q) ≠ .ok i := by
  split
  · nofun
  · nofun

/-- What a target decodes to: BRK, or what the tables give. -/
theorem decTarget_ok {md : Option ModPfx} {im : Option (BitVec 23)} {w : Word} {i : Instr} (h : decTarget md im w = .ok i) :
    (w = brkWord ∧ md = none ∧ im = none ∧ i = .brk) ∨ (w ≠ brkWord ∧ isPfx w = false ∧ decBody md im w = some i ∧ i.wf = true) := by
  unfold decTarget at h
  by_cases hb : w = brkWord
  · rw [if_pos hb] at h
    split at h
    · next hn =>
      obtain ⟨hmd, him⟩ : md = none ∧ im = none := by simpa using hn
      cases h
      exact .inl ⟨hb, hmd, him, rfl⟩
    · cases h
  · rw [if_neg hb] at h
    by_cases hp : isPfx w = true
    · rw [if_pos hp] at h; cases h
    · rw [if_neg hp] at h
      cases hj : decBody md im w with
      | none => rw [hj] at h; cases h
      | some j =>
        rw [hj] at h
        dsimp only at h
        by_cases hwf : j.wf = true
        · rw [if_pos hwf] at h
          cases h
          exact .inr ⟨hb, by simpa using hp, rfl, hwf⟩
        · rw [if_neg hwf] at h
          by_cases hc : wordClass w = 31#5
          · rw [if_pos hc] at h; cases h
          · rw [if_neg hc] at h; exact absurd h Decoded.ite_bad_ne_ok

/-- What a target decodes to is a word. -/
theorem decTarget_isWord {md : Option ModPfx} {im : Option (BitVec 23)} {w : Word} {i : Instr} (h : decTarget md im w = .ok i) :
    i.word.isSome = true := by
  obtain ⟨-, -, -, rfl⟩ | ⟨-, -, hb, -⟩ := decTarget_ok h
  · rfl
  · exact decBody_isWord hb

theorem decTarget_notPfx {md : Option ModPfx} {im : Option (BitVec 23)} {w : Word} {i : Instr} (h : decTarget md im w = .ok i) :
    isPfx w = false := by
  obtain ⟨rfl, -, -, -⟩ | ⟨-, hp, -, -⟩ := decTarget_ok h
  · rfl
  · exact hp

/-- A word of class 31 takes no prefixes (R107). -/
theorem decTarget_alone {md : Option ModPfx} {im : Option (BitVec 23)} {w : Word} {i : Instr} (h : decTarget md im w = .ok i)
    (hw : w = brkWord ∨ wordClass w = 31#5) : md = none ∧ im = none := by
  obtain ⟨-, hmd, him, -⟩ | ⟨hb, -, he, hwf⟩ := decTarget_ok h
  · exact ⟨hmd, him⟩
  · have hx : decBody md im w = decExtn ⟨wordC w, wordS w, md, im⟩ (splitX w) := by
      unfold decBody
      rw [hw.resolve_left hb]
      rfl
    rw [hx] at he
    unfold decExtn at he
    split at he
    · cases he
      simp only [Instr.wf, Bool.and_eq_true, Option.isNone_iff_eq_none] at hwf
      exact ⟨hwf.1.2, hwf.2⟩
    · cases he

theorem decodeWords_cons {md : Option ModPfx} {im : Option (BitVec 23)} {w x : Word} {ws : List Word} {i : Instr}
    (h : decodeWords md im (w :: (ws ++ [x])) = .ok i) : isPfx w = true ∧ wordC w = false ∧ wordS w = false ∧
      ((∃ m, decPfx w = some (.mod m) ∧ md = none ∧ decodeWords (some m) im (ws ++ [x]) = .ok i) ∨
        ∃ k, decPfx w = some (.imm k) ∧ im = none ∧ decodeWords md (some k) (ws ++ [x]) = .ok i) := by
  obtain ⟨y, ys, e⟩ : ∃ y ys, ws ++ [x] = y :: ys := by
    cases ws with
    | nil => exact ⟨x, [], rfl⟩
    | cons y ys => exact ⟨y, ys ++ [x], rfl⟩
  rw [e] at h ⊢
  unfold decodeWords at h
  split at h
  · next hp =>
    split at h
    · cases h
    · next hcs =>
      obtain ⟨hc, hs⟩ : wordC w = false ∧ wordS w = false := by simpa using hcs
      refine ⟨hp, hc, hs, ?_⟩
      split at h
      · split at h
        · cases h
        · exact absurd h Decoded.ite_bad_ne_ok
      · next m hm =>
        split at h
        · cases h
        · next hn => exact .inl ⟨m, hm, by simpa using hn, h⟩
      · next k hk =>
        split at h
        · cases h
        · next hn => exact .inr ⟨k, hk, by simpa using hn, h⟩
  · cases h

/-- What is decoded is a word. -/
theorem decodeWords_isWord {md : Option ModPfx} {im : Option (BitVec 23)} {ws : List Word} {w : Word} {i : Instr}
    (h : decodeWords md im (ws ++ [w]) = .ok i) : i.word.isSome = true := by
  induction ws generalizing md im with
  | nil => exact decTarget_isWord h
  | cons x ws ih =>
    obtain ⟨-, -, -, ⟨m, -, -, hd⟩ | ⟨k, -, -, hd⟩⟩ := decodeWords_cons h
    · exact ih hd
    · exact ih hd

theorem decodeWords_of_decode {ws : List Word} {i : Instr} (h : decode (wordsBytes ws) = .ok i) : decodeWords none none ws = .ok i := by
  unfold decode at h
  rwa [bytesWords_wordsBytes] at h

/-! ### What is gathered -/

/-- Prefixes of which none is defective, and that are there where they supply something. -/
structure Prefixes.Sound (p : Prefixes) : Prop where
  bad : p.bad = Option.none
  any : p.any = (p.md.isSome || p.im.isSome)

theorem Prefixes.add_mod {p : Prefixes} {w : Word} {m : ModPfx} (hp : p.Sound) (va : BitVec 56) (hw : decPfx w = some (.mod m))
    (hn : p.md = Option.none) : ∃ q : Prefixes, p.add va w = some q ∧ q.Sound ∧ q.md = some m ∧ q.im = p.im := by
  unfold Prefixes.add
  rw [hw]
  exact ⟨_, if_neg (by simp [hn]), ⟨hp.bad, rfl⟩, rfl, rfl⟩

theorem Prefixes.add_imm {p : Prefixes} {w : Word} {k : BitVec 23} (hp : p.Sound) (va : BitVec 56) (hw : decPfx w = some (.imm k))
    (hn : p.im = Option.none) : ∃ q : Prefixes, p.add va w = some q ∧ q.Sound ∧ q.md = p.md ∧ q.im = some k := by
  unfold Prefixes.add
  rw [hw]
  exact ⟨_, if_neg (by simp [hn]), ⟨hp.bad, by simp⟩, rfl, rfl⟩

/-- The address of a word behind `n` others. -/
def wordAt (va : BitVec 56) (n : Nat) : BitVec 56 := va + BitVec.ofNat 56 (4 * n)

theorem wordAt_zero (va : BitVec 56) : wordAt va 0 = va := by simp [wordAt]

theorem wordAt_succ (va : BitVec 56) (n : Nat) : wordAt va (n + 1) = wordAt (va + 4#56) n := by
  unfold wordAt
  bv_omega

/-- A target is gathered as the one member. -/
theorem gather_target {s v : State} {b : Block} {p : Prefixes} {left : Nat} {va : BitVec 56} {w : Word} {i : Instr}
    (hc : wordC w = false ∨ w = brkWord) (hf : s.fetchWord b va.toNat = (.ok w, v)) (hp : p.Sound) (hd : decTarget p.md p.im w = .ok i) :
    ∃ md im, s.gather b p [] (left + 1) va = (.members [⟨va, w, .ok i, none, md, im⟩] (va + 4#56), v) := by
  unfold State.gather
  rw [hf]
  dsimp only
  by_cases hx : w = brkWord ∨ wordClass w = 31#5
  · obtain ⟨hmd, him⟩ := decTarget_alone hd hx
    have hany : p.any = false := by rw [hp.any, hmd, him]; rfl
    rw [hmd, him] at hd
    refine ⟨none, none, ?_⟩
    rw [if_pos (by simpa using hx), if_neg (by simpa [hany, Decidable.imp_iff_not_or, or_comm] using hc), hd]
  · have hwc : wordC w = false := hc.resolve_right fun e => hx (.inl e)
    refine ⟨p.md, p.im, ?_⟩
    rw [if_neg (by simpa using hx), if_neg (by simp [decTarget_notPfx hd]), hd, hp.bad, hwc]
    rfl

/-- Prefixes that the decoder takes are gathered one after another. -/
theorem gather_prefix {s u : State} {b : Block} {p q : Prefixes} {left : Nat} {va : BitVec 56} {w : Word}
    (hf : s.fetchWord b va.toNat = (.ok w, u)) (hl : left ≠ 0) (hp : isPfx w = true) (hc : wordC w = false) (hs : wordS w = false)
    (hq : p.add va w = some q) : s.gather b p [] (left + 1) va = u.gather b q [] left (va + 4#56) := by
  have hcl : wordClass w = 30#5 := by simpa [isPfx] using hp
  have hx : ¬(w = brkWord ∨ wordClass w = 31#5) := by
    rintro (rfl | h)
    · cases hp
    · rw [hcl] at h; cases h
  rw [State.gather, hf]
  dsimp only
  rw [if_neg (by simpa using hx), if_pos hp, if_neg (by simp [hl, hc, hs]), hq]

/-- The words of an instruction are gathered as its one member. -/
theorem gather_of_decodeWords {b : Block} {i : Instr} {w : Word} (hc : wordC w = false ∨ w = brkWord) {ws : List Word} {s v : State}
    {p : Prefixes} {left : Nat} {va : BitVec 56} (hf : fetched s b va (ws ++ [w]) v) (hl : ws.length < left) (hp : p.Sound)
    (hd : decodeWords p.md p.im (ws ++ [w]) = .ok i) :
    ∃ md im, s.gather b p [] left va =
      (.members [⟨wordAt va ws.length, w, .ok i, none, md, im⟩] (wordAt va ws.length + 4#56), v) := by
  obtain ⟨left, rfl⟩ : ∃ n, left = n + 1 := ⟨left - 1, by omega⟩
  induction ws generalizing s p left va with
  | nil =>
    obtain ⟨u, hu, rfl⟩ := hf
    rw [List.length_nil, wordAt_zero]
    exact gather_target hc hu hp hd
  | cons x ws ih =>
    obtain ⟨u, hu, hrest⟩ := hf
    rw [List.length_cons] at hl
    obtain ⟨left, rfl⟩ : ∃ n, left = n + 1 := ⟨left - 1, by omega⟩
    obtain ⟨hx, hxc, hxs, hadd⟩ := decodeWords_cons hd
    obtain ⟨q, hq, hqs, hqd⟩ : ∃ q : Prefixes, p.add va x = some q ∧ q.Sound ∧ decodeWords q.md q.im (ws ++ [w]) = .ok i := by
      obtain ⟨m, hm, hn, hd⟩ | ⟨k, hk, hn, hd⟩ := hadd
      · obtain ⟨q, hq, hqs, hqm, hqi⟩ := Prefixes.add_mod hp va hm hn
        exact ⟨q, hq, hqs, by rw [hqm, hqi]; exact hd⟩
      · obtain ⟨q, hq, hqs, hqm, hqi⟩ := Prefixes.add_imm hp va hk hn
        exact ⟨q, hq, hqs, by rw [hqm, hqi]; exact hd⟩
    rw [gather_prefix hu (Nat.succ_ne_zero _) hx hxc hxs hq, List.length_cons, wordAt_succ]
    exact ih hrest hqs hqd left (by omega)

end Sys2Proof.Machine
end

section
/-! PROOFS. A turn in which nothing but the team's own word comes first runs the instruction decoded at its pc (R86 to R95, R387, R393). -/

namespace Sys2Proof.Machine
open Sys2Proof.Claims

set_option Elab.async false

/-! ### The fetch leaves the comparators alone -/

section
variable (s : State)

@[simp] theorem State.l2Room_cores (line : Nat) : (s.l2Room line).cores = s.cores := by
  unfold State.l2Room
  split
  · rfl
  · dsimp only [State.choice]
    split
    · rfl
    · split
      · rfl
      · rfl

@[simp] theorem State.fill_cores (tag : Option (BitVec 12)) (line : Nat) : (s.fill tag line).cores = s.cores := by
  unfold State.fill
  split
  · rfl
  · rfl

@[simp] theorem State.l2Access_cores (tag : Option (BitVec 12)) (line : Nat) (write : Bool) : (s.l2Access tag line write).cores = s.cores := by
  unfold State.l2Access
  split
  · rfl
  · exact s.l2Room_cores line

@[simp] theorem State.memRd_cores (tag : Option (BitVec 12)) (pa n : Nat) : (s.memRd tag pa n).2.cores = s.cores := by
  simp [State.memRd]

@[simp] theorem State.walked_cores (c : Ctx) (va : Nat) : (s.walked c va).2.cores = s.cores := by
  have h : ∀ (l : List Nat) (z : State), (l.foldl (fun s a => (s.memRd (some c.tag) a 8).2) z).cores = z.cores := by
    intro l
    induction l with
    | nil => exact fun _ => rfl
    | cons a l ih => exact fun z => (ih _).trans (z.memRd_cores _ _ _)
  exact h _ s

@[simp] theorem State.tlb_cores (c : Ctx) (core va : Nat) : (s.tlb c core va).2.cores = s.cores := by
  unfold State.tlb
  dsimp only
  split
  · rfl
  · split
    · rfl
    · have hw : (if s.tablesHeld c (va % 2 ^ 56) then (Walk.absent, s) else s.walked c (va % 2 ^ 56)).2.cores = s.cores := by
        split
        · rfl
        · exact s.walked_cores c _
      split
      · next e => rw [e] at hw; exact hw
      · exact hw

@[simp] theorem State.xlate_cores (b : Block) (va : Nat) : (s.xlate b va).2.cores = s.cores := by
  unfold State.xlate
  split
  · rfl
  · split
    · exact s.tlb_cores _ _ _
    · rfl

end

theorem State.fetchWord_cores {s v : State} {b : Block} {va : Nat} {w : Word} (h : s.fetchWord b va = (.ok w, v)) : v.cores = s.cores := by
  unfold State.fetchWord at h
  split at h
  · cases h
  · have hx := s.xlate_cores b va
    split at h
    · cases h
    · cases h
    · next e =>
      rw [e] at hx
      dsimp only at h hx
      split at h
      · cases h
      · split at h
        · split at h
          · cases h
          · split at h
            · cases h
            · cases h
              exact (State.memRd_cores _ _ _ _).trans hx
        · split at h
          · cases h; exact hx
          · cases h

theorem fetched_cores {b : Block} {ws : List Word} {s v : State} {a : BitVec 56} (h : fetched s b a ws v) : v.cores = s.cores := by
  induction ws generalizing s a with
  | nil => exact congrArg State.cores h
  | cons w ws ih =>
    obtain ⟨u, hu, hrest⟩ := h
    exact (ih hrest).trans (State.fetchWord_cores hu)

theorem unwatched_of_cores {s v : State} {b : Block} (h : unwatched s b) (hc : v.cores = s.cores) : unwatched v b := by
  have e : v.core b.core = s.core b.core := by unfold State.core; rw [hc]
  intro i
  rw [e]
  exact h i

/-! ### A chain of one word -/

theorem allDistinct_vName (wide : Bool) (r : BitVec 6) : allDistinct (vName wide r) = true := by
  cases wide
  · rfl
  · simp [vName, allDistinct]

theorem allDistinct_ite {c : Prop} [Decidable c] {n : RegName} : allDistinct (if c then [] else [n]) = true := by
  split
  · rfl
  · rfl

/-- An instruction names no register twice. -/
theorem allDistinct_destsOf (i : Instr) : allDistinct (destsOf i) = true := by
  cases i with
  | vadd | vsub | vmul | vmulh | vand | vor | vxor | vshl | vshr | vsar | vmin | vmax | scatc | vsegred | vsegscan | dadd | dsub | dmul
    | dfma | dmin | dmax | ddiv | dsqrt | cvt | vshuf | vbcast | vsel | vmov | vmovw | vcompress | vexpand | vscan | ldg | lds | ldsFe
    | ldsFk | atom => exact allDistinct_vName _ _
  | cpy | tcpy | gcpy | scpy => exact allDistinct_ite
  | nredOrd | nredAny | fpoll => simp [destsOf, allDistinct]
  | _ => rfl

theorem chainBad_single {m : Member} {i : Instr} (hc : wordC m.word = false ∨ m.word = brkWord) (hd : m.dec = .ok i) :
    chainBad [m] = false := by
  have hdests : allDistinct m.dests = true := by
    unfold Member.dests
    dsimp only
    split
    · rfl
    · split
      · exact allDistinct_destsOf _
      · rfl
  have hend : (wordC m.word && m.word != brkWord && endsChain m.word) = false := by
    obtain h | h := hc
    · simp [h]
    · simp [h]
  simp [chainBad, hend, hd, hdests, allDistinct]

section
variable {s : State} {b : Block} {iss : Issue} {m : Member} {i : Instr}

/-- A member that is an instruction of the team's is that instruction's meaning. -/
theorem runMember_of_dec (hp : m.badPfx = none) (hd : m.dec = .ok i) (hr : mayRun b m.word) :
    s.runMember iss b.bureau.isSome m = exec i { s with cur := { iss with addr := m.addr } } := by
  have hill : m.illop? b.bureau.isSome = none := by
    unfold Member.illop?
    rw [hp, hd]
    obtain h | h := hr
    · simp [h]
    · simp [h]
  have hins : m.instr? = some i := by
    unfold Member.instr?
    rw [hp, hd]
  unfold State.runMember
  rw [hill, hins]

/-- No comparator of an unwatched core hits. -/
theorem pcHits_unwatched {t : Team} {lanes : List Nat} (hw : unwatched s b) : s.pcHits b t lanes = (s, none) := by
  have hno : ∀ i : Nat, cmpArmed ((s.core b.core).cmp.getD i (0#64, 0#64)).1 b.tag = false := fun i => by
    unfold cmpArmed
    rw [hw i]
    rfl
  unfold State.pcHits
  split
  · rfl
  · exact List.foldl_fixed' (fun i => by simp only [hno i]; rfl) _

theorem updWhere_eq_self {α : Type} {p : α → Bool} {f : α → α} {l : List α} (h : ∀ x ∈ l, p x = true → f x = x) : updWhere p f l = l := by
  unfold updWhere
  conv_rhs => rw [← List.map_id l]
  refine List.map_congr_left fun x hx => ?_
  split
  · next hp => exact h x hx hp
  · rfl

theorem Reason.max_self (a : Reason) : a.max a = a := by
  unfold Reason.max
  split
  · rfl
  · rfl

/-- A parked team whose stall reason is already the highest. -/
theorem updTeam_reason_self {v : State} {r : TRef} {why : Reason}
    (h : ∀ b ∈ v.blocks, b.id = r.b → ∀ x ∈ b.teams, x.idx = r.t → x.reason = why) :
    (v.updTeam r fun x => { x with reason := x.reason.max why }) = v := by
  unfold State.updTeam State.updBlock
  rw [updWhere_eq_self fun b hb hid => ?_]
  unfold Block.updTeam
  rw [updWhere_eq_self fun x hx hidx => ?_]
  have hx := h b hb (by simpa using hid) x hx (by simpa using hidx)
  rw [hx, Reason.max_self, ← hx]

/-! ### Its turn -/

/-- What a turn comes to whose chain is one instruction, in the state in which it issues. -/
def State.chainOf (v : State) (iss : Issue) (b : Block) (last : BitVec 56) : State :=
  if v.cur.res = .issued then v.chainDone iss b last else v

section
variable {r : TRef} {t : Team} {next : BitVec 56} {v : State}

theorem Member.rank_cases (m : Member) (give : Bool) : m.rank give = 0 ∨ m.rank give = 1 ∨ m.rank give = 2 := by
  unfold Member.rank
  split
  all_goals simp
  all_goals cases give <;> simp

theorem effectOrder_single (m : Member) : effectOrder [m] = [m] := by
  unfold effectOrder
  dsimp only
  generalize [m].any Member.gives = give
  obtain h | h | h := m.rank_cases give
  · simp [h]
  · simp [h]
  · simp [h]

theorem chainHits_unwatched (hw : unwatched s b) : s.chainHits iss b t [m] = ({ s with cur := { iss with addr := m.addr } }, none) := by
  simp only [State.chainHits]
  rw [pcHits_unwatched (s := { s with cur := { iss with addr := m.addr } }) hw]

/-- A chain of one member is its instruction: issued, stopped by its trap, or parked. -/
theorem issueChain_single (hp : m.badPfx = none) (hd : m.dec = .ok i) (hr : mayRun b m.word) (hw : unwatched s b)
    (hv : exec i { s with cur := { s.issueOf r t next with addr := m.addr } } = .next v)
    (hres : v.cur.res = .issued ∨ v.cur.res = .trapped ∨ v.cur.res = .parked) :
    s.issueChain r b t [m] next = .next (v.chainOf (s.issueOf r t next) b m.addr) := by
  have hrun := (runMember_of_dec (s := s) (iss := s.issueOf r t next) hp hd hr).trans hv
  unfold State.issueChain State.chainOf
  simp only [State.checkAll, hrun]
  obtain h | h | h := hres
  · have hrun2 := (runMember_of_dec (s := { s with cur := { s.issueOf r t next with addr := m.addr } }) (iss := s.issueOf r t next)
      hp hd hr).trans hv
    simp only [h, chainHits_unwatched hw, Option.or_none, effectOrder_single, State.runAll, hrun2, if_true]
    rfl
  · simp only [h]
    unfold State.parkAll
    rw [h]
    rfl
  · simp only [h]
    unfold State.parkAll
    rw [h]
    rfl

/-- The words at a team's pc, prefixes and target, issue as the instruction that they decode to. -/
theorem chainTurn_word {s1 : State} {ws : List Word} {w : Word} (hlen : ws.length < wordsLeft t.pc) (hdec : decode (wordsBytes (ws ++ [w])) = .ok i)
    (hc : wordC w = false ∨ w = brkWord) (hr : mayRun b w) (hf : fetched s b t.pc (ws ++ [w]) s1) (hw : unwatched s b)
    (hv : exec i { s1 with cur := { s1.issueOf r t (wordAt t.pc ws.length + 4#56) with addr := wordAt t.pc ws.length } } = .next v)
    (hres : v.cur.res = .issued ∨ v.cur.res = .trapped ∨ v.cur.res = .parked) :
    s.chainTurn r b t =
      .next (v.chainOf (s1.issueOf r t (wordAt t.pc ws.length + 4#56)) b (wordAt t.pc ws.length)) := by
  obtain ⟨md, im, hg⟩ : ∃ md im, s.gather b Prefixes.none [] (wordsLeft t.pc) t.pc =
      (.members [⟨wordAt t.pc ws.length, w, .ok i, none, md, im⟩] (wordAt t.pc ws.length + 4#56), s1) :=
    gather_of_decodeWords hc hf hlen ⟨rfl, rfl⟩ (decodeWords_of_decode hdec)
  have hbad : chainBad [⟨wordAt t.pc ws.length, w, .ok i, none, md, im⟩] = false := chainBad_single (i := i) hc rfl
  unfold State.chainTurn
  rw [hg]
  dsimp only
  rw [hbad]
  exact issueChain_single (m := ⟨_, w, .ok i, none, md, im⟩) rfl rfl hr (unwatched_of_cores hw (fetched_cores hf)) hv hres

/-- With no retries of an XINV, no run that has ended, no interrupt and no trap that waits for a boundary, a team runs its chain. -/
theorem runTurn_of_calm (hint : s.interrupts r b t = false) (hdefer : t.defer = none) (hxinv : t.xinv = none) (hrun : t.run.ended = false) :
    s.runTurn r b t = s.chainTurn r b t := by
  have ht : ({ t with xinv := none } : Team) = t := by rw [← hxinv]
  have hbusy : s.xinvBusy b t = false := by unfold State.xinvBusy; rw [hxinv]
  unfold State.runTurn
  simp only [hbusy, hrun, hint, Bool.false_and, Bool.and_false, Bool.false_or, Bool.false_eq_true, if_false, ht]
  simp only [hxinv, hdefer, Option.isSome_none, Bool.false_eq_true, if_false]
  cases decide (t.run.count = 0)
  · rfl
  · rfl

theorem interrupts_of_calm (h : b.bureau = none ∨ ∃ e, b.bureau = some e ∧ (s.die e).istat = 0#17 ∧ (s.die e).evstat = 0#4) :
    s.interrupts r b t = false := by
  unfold State.interrupts
  obtain hb | ⟨e, hb, hist, hev⟩ := h
  · rw [hb]
  · rw [hb]
    simp [Die.interrupt, hist, hev]

/-- Where nothing but its chain comes first, a team's turn is its chain's. -/
theorem issueTurn_of_issues (hi : Issues s r b t)
    (hv : ({ s with cur := { s.cur with res := .none } } : State).chainTurn r b t = .next v) : s.issueTurn r = .next v := by
  obtain ⟨hteam, hlive, ⟨hended, htrap, hwait, hdefer, hxinv, hrun⟩, hcalm, hslot, -⟩ := hi
  obtain ⟨⟨hplace, -⟩, -⟩ : (b.place = .resident ∧ b.stopped = false) ∧ b.halt = false := by simpa [Block.live] using hlive
  have hturn := (runTurn_of_calm (s := { s with cur := { s.cur with res := .none } }) (r := r) (interrupts_of_calm hcalm) hdefer hxinv
    hrun).trans hv
  unfold State.issueTurn State.throttled
  simp [hteam, hended, htrap, hwait, hplace, hlive, hturn, hslot]

end

end

/-! ### A step -/

theorem step_of_move {s v : State} {x : Turn} {ts : List Turn} (hs : s.schedule = x :: ts)
    (hv : ({ s with schedule := ts } : State).move x = .next v) : step s = .next v.after := by
  unfold step
  rw [hs]
  dsimp only
  rw [hv]

theorem isStep_unitMove {s : State} {i : Instr} (hw : i.word = none) (hi : ∀ r, takesAt i r = false ∧ i ≠ .interruptEntry r) :
    isStep i = true ∧ s.unitMove i = exec i s := by
  cases i with
  | mmaTake q | drawerReservation q => simpa [takesAt] using (hi q).1
  | interruptEntry q => exact absurd rfl (hi q).2
  | dawn | i3cRequest | blockPlacement | blockEnd | census | shelfReservation | nodeDispatch | sweepEnd | stealRequest | stealReply
    | donatedDispatchArrival | resultArrival | trapEntry | logRetry | copyCompletion | tileOpPerform | cclaimGrant | rclaimGrant
    | nredContributionArrival | patternFiring | heldMessageAppend | binTimerExpiry | pageMigrationLine | hostAccess | fabricRemoteAccess
    | post | pagerdy | termq | termack | invlen | invalidationDone | routingTableWrite | modid | sensorSample | tickExpiry | tick | alert
    | istat | throt | evstat | termb | signctl | signComplete | part | uncorrectableError | vctl | sampctl | blkid1Stop | blkid1Resume
    | stopComplete | hangWatchdogExpiry | duskResume | registerWrite | contextCreation | contextEnd | runBoundWrite | accessPerformed =>
    exact ⟨rfl, rfl⟩
  | _ => cases hw

theorem step_of_stepOf {s z v : State} {i : Instr} (h : stepOf s z i) (hi : isStep i = true) (hv : z.unitMove i = .next v) :
    step s = .next v.after := by
  obtain ⟨ts, ⟨hs, rfl⟩ | ⟨q, hs, rfl⟩⟩ := h
  · exact step_of_move hs ((if_pos hi).trans hv)
  · exact step_of_move hs ((if_pos hi).trans hv)

/-! ### What follows a move that leaves nothing to be written -/

/-- Nothing waits to be written, and no fill has met an error. -/
theorem State.after_idle {s : State} (hh : s.hurt = []) (hq : s.unitQ = []) :
    s.after.mem = s.mem ∧ s.after.blocks = s.blocks ∧ s.after.clock = s.clock := by
  have hflush : s.flushUnits = s := by unfold State.flushUnits; rw [hq]; rfl
  have hsettle : s.settleHurt = { s with hurt := [] } := by unfold State.settleHurt; rw [hh]; rfl
  have hforget : ∀ z : State, z.forgetPast.mem = z.mem ∧ z.forgetPast.blocks = z.blocks ∧ z.forgetPast.clock = z.clock := by
    intro z
    unfold State.forgetPast
    split
    · exact ⟨rfl, rfl, rfl⟩
    · exact ⟨rfl, rfl, rfl⟩
  unfold State.after
  rw [hflush, hsettle]
  exact hforget { s with hurt := [] }

/-- Two states with the same memory, clock, writes that wait and errors that a fill has met. -/
structure State.Idles (s v : State) : Prop where
  mem : v.mem = s.mem
  clock : v.clock = s.clock
  unitQ : v.unitQ = s.unitQ
  hurt : v.hurt = s.hurt

theorem State.Idles.trans {s u v : State} (h : s.Idles u) (k : u.Idles v) : s.Idles v :=
  ⟨k.mem.trans h.mem, k.clock.trans h.clock, k.unitQ.trans h.unitQ, k.hurt.trans h.hurt⟩

theorem State.Idles.foldl {α : Type} {f : State → α → State} (hf : ∀ (s : State) x, s.Idles (f s x)) (l : List α) (s : State) : s.Idles (l.foldl f s) := by
  induction l generalizing s with
  | nil => exact ⟨rfl, rfl, rfl, rfl⟩
  | cons x l ih => exact (hf s x).trans (ih _)

theorem State.Idles.updCore (s : State) (c : Nat) (f : Core → Core) : s.Idles (s.updCore c f) := by
  unfold State.updCore
  split
  · exact ⟨rfl, rfl, rfl, rfl⟩
  · exact ⟨rfl, rfl, rfl, rfl⟩

theorem State.Idles.countStalls (s : State) : s.Idles s.countStalls := by
  refine .foldl (fun z b => ?_) s.blocks s
  dsimp only
  split
  · exact (State.Idles.updCore _ _ _).trans ⟨rfl, rfl, rfl, rfl⟩
  · exact ⟨rfl, rfl, rfl, rfl⟩

theorem State.Idles.measureAll (s : State) : s.Idles s.measureAll := by
  unfold State.measureAll
  refine .foldl (fun z e => ?_) _ s
  exact ⟨rfl, rfl, rfl, rfl⟩

theorem State.cycle_idle (s : State) :
    s.cycle.mem = s.mem ∧ s.cycle.clock = s.clock + 1 ∧ s.cycle.unitQ = s.unitQ ∧ s.cycle.hurt = s.hurt := by
  have hc := State.Idles.countStalls s
  have hm := State.Idles.measureAll { s.countStalls with
    clock := s.countStalls.clock + 1
    ctxs := s.countStalls.ctxs.map s.countStalls.tickAlive
    blocks := s.countStalls.blocks.map s.countStalls.tickBlock }
  exact ⟨hm.mem.trans hc.mem, hm.clock.trans (congrArg (· + 1) hc.clock), hm.unitQ.trans hc.unitQ, hm.hurt.trans hc.hurt⟩

end Sys2Proof.Machine
end

section
/-! PROOFS. A step runs the instruction decoded at the team's pc, or the step that the schedule names (R86, R88, R387, R392, R393). -/

namespace Sys2Proof.Machine
open Sys2Proof.Claims

set_option Elab.async false

section
variable {s s1 v : State} {r : TRef} {ts : List Turn} {b : Block} {t : Team} {ws : List Word} {w : Word} {i : Instr}

/-- The step of a team whose words issue, trap or park. -/
theorem step_of_words (hs : s.schedule = .issue r :: ts) (hi : Issues s r b t) (hlen : ws.length < wordsLeft t.pc)
    (hdec : decode (wordsBytes (ws ++ [w])) = .ok i) (hc : wordC w = false ∨ w = brkWord) (hr : mayRun b w)
    (hf : fetched { s with schedule := ts, cur := { s.cur with res := .none } } b t.pc (ws ++ [w]) s1)
    (hv : exec i { s1 with cur := { s1.issueOf r t (wordAt t.pc ws.length + 4#56) with addr := wordAt t.pc ws.length } } = .next v)
    (hres : v.cur.res = .issued ∨ v.cur.res = .trapped ∨ v.cur.res = .parked) :
    step s = .next (v.chainOf (s1.issueOf r t (wordAt t.pc ws.length + 4#56)) b (wordAt t.pc ws.length)).after :=
  step_of_move hs (issueTurn_of_issues (s := { s with schedule := ts }) ⟨hi.team, hi.live, hi.running, hi.calm, hi.slot, hi.watch⟩
    (chainTurn_word hlen hdec hc hr hf hi.watch hv hres))

/-- A team that has parked on its words and not ended has its stall reason already. -/
theorem updTeam_of_parked {next : BitVec 56} {c : Block} {u : Team} (hdec : decode (wordsBytes (ws ++ [w])) = .ok i)
    (hv : exec i { s1 with cur := { s1.issueOf r t next with addr := wordAt t.pc ws.length } } = .next v) (hres : v.cur.res = .parked)
    (hu : v.team? r = some (c, u)) (he : u.ended = false) : (v.updTeam r fun x => { x with reason := x.reason.max u.reason }) = v := by
  have hgo : Going r { s1 with cur := { s1.issueOf r t next with addr := wordAt t.pc ws.length } } := ⟨rfl, nofun⟩
  have hout := hgo.exec (decodeWords_isWord (decodeWords_of_decode hdec))
  rw [hv] at hout
  obtain h | h := hout hres c u hu
  · rw [he] at h; cases h
  · exact updTeam_reason_self h

end

/-! ### The other moves -/

theorem State.move_apart {z v : State} {r : TRef} (hv : ({ z with apart := true } : State).issueTurn r = .next v) :
    z.move (.apart r) = .next { v with apart := false } := by
  unfold State.move
  dsimp only
  rw [hv]

theorem takesAt_eq_true {i : Instr} {r : TRef} (h : takesAt i r = true) : i = .mmaTake r ∨ i = .drawerReservation r := by
  cases i with
  | mmaTake q => exact .inl (congrArg _ (by simpa [takesAt] using h))
  | drawerReservation q => exact .inr (congrArg _ (by simpa [takesAt] using h))
  | _ => cases h

/-- A step that takes what a team waits for is followed by that team's turn (R88). -/
theorem unitMove_of_takesAt {z : State} {i : Instr} {r : TRef} (h : takesAt i r = true) :
    isStep i = true ∧ z.unitMove i = z.takeTurn r (exec i z) := by
  obtain rfl | rfl := takesAt_eq_true h
  · exact ⟨rfl, rfl⟩
  · exact ⟨rfl, rfl⟩

theorem takeTurn_of_notDue {z v : State} {r : TRef} (hd : v.due ≠ some r) : z.takeTurn r (.next v) = .next v := if_neg hd

theorem takeTurn_of_due {z v x : State} {r : TRef} (hd : v.due = some r) (hx : v.issueTurn r = .next x) :
    z.takeTurn r (.next v) = if x.due.isNone then .next x else z.issueTurn r := by
  refine (if_pos hd).trans ?_
  rw [hx]

theorem unitMove_interruptEntry {z : State} {r : TRef} {b : Block} {t : Team} (ht : z.team? r = some (b, t)) :
    z.unitMove (.interruptEntry r) = if z.interruptDue b t && t.wait.isNone then z.issueTurn r else exec (.interruptEntry r) z := by
  show z.interruptTurn r = _
  unfold State.interruptTurn
  rw [ht]
  rfl

theorem stepOf_team? {s z : State} {i : Instr} (h : stepOf s z i) (r : TRef) : z.team? r = s.team? r := by
  obtain ⟨ts, ⟨-, rfl⟩ | ⟨q, -, rfl⟩⟩ := h
  · rfl
  · rfl

/-- What a cache does by itself. -/
theorem State.cacheMove_idle (s : State) (m : CacheMove) : (s.cacheMove m).mem = s.mem ∧ (s.cacheMove m).blocks = s.blocks ∧
    (s.cacheMove m).clock = s.clock ∧ (s.cacheMove m).hurt = s.hurt ∧ (s.cacheMove m).unitQ = s.unitQ := by
  cases m with
  | l1Drop core line => exact ⟨rfl, rfl, rfl, rfl, rfl⟩
  | l2Back line => exact ⟨rfl, rfl, rfl, rfl, rfl⟩
  | l2Drop line => exact ⟨rfl, rfl, rfl, rfl, rfl⟩

/-- Settles O55: a turn gathers the words that the decoder reads as one member (`gather_of_decodeWords`), whose meaning is the chain's
(`issueChain_single`); a team that parks is settled (`Going.exec`), so that its stall reason stays; the other moves are what the schedule
names. -/
theorem stepRunsTheDecodedInstruction : Obligations.StepRunsTheDecodedInstruction := by
  unfold Obligations.StepRunsTheDecodedInstruction
  refine ⟨?words, ?apart, ?unit, ?takes, ?interrupt, ?cache, ?tick⟩
  case words =>
    intro s s1 r ts b t ws w i hs hi hlen _ hdec hc hr hf last iss s2
    have hstep := fun {v : State} => step_of_words (v := v) hs hi hlen hdec hc hr hf
    refine ⟨fun v hv hres => ?_, fun v hv hres => ?_, fun v c u hv hres hu => ⟨fun _ => ?_, fun he => ?_⟩⟩
    · exact (hstep hv (.inl hres)).trans (congrArg (fun z : State => Host.Outcome.next z.after) (if_pos hres))
    · exact (hstep hv (.inr (.inl hres))).trans (congrArg (fun z : State => Host.Outcome.next z.after) (if_neg (by simp [hres])))
    · exact (hstep hv (.inr (.inr hres))).trans (congrArg (fun z : State => Host.Outcome.next z.after) (if_neg (by simp [hres])))
    · rw [updTeam_of_parked hdec hv hres hu he]
      exact (hstep hv (.inr (.inr hres))).trans (congrArg (fun z : State => Host.Outcome.next z.after) (if_neg (by simp [hres])))
  case apart => exact fun s v ts r hs hv => step_of_move hs (State.move_apart hv)
  case unit =>
    intro s z v i h hw hi hv
    obtain ⟨hstep, hmove⟩ := isStep_unitMove (s := z) hw hi
    exact step_of_stepOf h hstep (hmove.trans hv)
  case takes =>
    intro s z v i r h hi hv
    obtain ⟨hstep, hmove⟩ := unitMove_of_takesAt (z := z) hi
    rw [hv] at hmove
    refine ⟨fun hd => step_of_stepOf h hstep (hmove.trans (takeTurn_of_notDue hd)), fun hd x hx => ?_⟩
    have hturn := hmove.trans (takeTurn_of_due hd hx)
    refine ⟨fun hx0 => step_of_stepOf h hstep (hturn.trans (if_pos (by simp [hx0]))), fun hx1 y hy => ?_⟩
    exact step_of_stepOf h hstep (hturn.trans ((if_neg (by simpa using hx1)).trans hy))
  case interrupt =>
    intro s z v r b t h ht
    have hmove := unitMove_interruptEntry ((stepOf_team? h r).trans ht)
    refine ⟨fun hdue hwait hv => ?_, fun hor hv => ?_⟩
    · exact step_of_stepOf h rfl (hmove.trans ((if_pos (by simp [hdue, hwait])).trans hv))
    · refine step_of_stepOf h rfl (hmove.trans ((if_neg ?_).trans hv))
      obtain hd | hw := hor
      · simp [hd]
      · simp [hw]
  case cache =>
    intro s ts m hs hh hq
    obtain ⟨hmem, hblocks, hclock, hhurt, hunit⟩ := State.cacheMove_idle { s with schedule := ts } m
    obtain ⟨amem, ablocks, aclock⟩ := State.after_idle (hhurt.trans hh) (hunit.trans hq)
    exact ⟨_, step_of_move hs rfl, amem.trans hmem, ablocks.trans hblocks, aclock.trans hclock⟩
  case tick =>
    intro s ts hs hh hq
    obtain ⟨hmem, hclock, hunit, hhurt⟩ := State.cycle_idle { s with schedule := ts }
    obtain ⟨amem, -, aclock⟩ := State.after_idle (hhurt.trans hh) (hunit.trans hq)
    exact ⟨_, step_of_move hs rfl, aclock.trans hclock, amem.trans hmem⟩

end Sys2Proof.Machine
end

section
/-! PROOFS. Uniform arithmetic (R117 to R119): each operation of the model is the one of R117's table, and a word of the table writes it. -/

namespace Sys2Proof.Machine
open Sys2Proof.Claims

set_option Elab.async false

/-! ### The operations of R117, on exact integers -/

theorem uadd_eq (x y : Dword) : uadd x y = addR x y := BitVec.eq_of_toNat_eq (by simp [uadd, addR])

theorem usub_eq (x y : Dword) : usub x y = subR x y :=
  BitVec.eq_of_toInt_eq (by simp [usub, subR, BitVec.toInt_sub, BitVec.toInt_ofInt])

theorem umul_eq (x y : Dword) : umul x y = mulR x y := BitVec.eq_of_toNat_eq (by simp [umul, mulR])

theorem ushl_eq (x y : Dword) : ushl x y = shlR x y :=
  BitVec.eq_of_toNat_eq (by simp [ushl, shlR, shamt, cnt, Nat.shiftLeft_eq])

theorem ushr_eq (x y : Dword) : ushr x y = shrR x y := by
  have h : x.toNat / 2 ^ (y.toNat % 64) < 2 ^ 64 := (Nat.div_le_self _ _).trans_lt x.isLt
  apply BitVec.eq_of_toNat_eq
  rw [shrR, cnt, BitVec.toNat_ofNat, Nat.mod_eq_of_lt h]
  simp [ushr, shamt, Nat.shiftRight_eq_div_pow]

theorem usar_eq (x y : Dword) : usar x y = sarR x y := by
  have h : (x.sshiftRight (shamt y)).toInt = x.toInt / 2 ^ cnt y := by
    simp [BitVec.toInt_sshiftRight, Int.shiftRight_eq_div_pow, shamt, cnt]
  rw [sarR, ← h, BitVec.ofInt_toInt]
  rfl

/-- The high half of a product of 128 bits. -/
theorem toNat_extractHigh (z : BitVec 128) : (z.extractLsb' 64 64).toNat = z.toNat / 2 ^ 64 := by
  have h : z.toNat / 2 ^ 64 < 2 ^ 64 := Nat.div_lt_of_lt_mul z.isLt
  rw [BitVec.extractLsb'_toNat, Nat.shiftRight_eq_div_pow, Nat.mod_eq_of_lt h]

theorem extractHigh_eq_ofInt (z : BitVec 128) : z.extractLsb' 64 64 = BitVec.ofInt 64 (z.toInt / 2 ^ 64) := by
  apply BitVec.eq_of_toNat_eq
  rw [toNat_extractHigh, BitVec.toNat_ofInt, BitVec.toInt_eq_toNat_cond]
  have := z.isLt
  split <;> omega

theorem toInt_mul_signExtend (x y : Dword) : (x.signExtend 128 * y.signExtend 128).toInt = x.toInt * y.toInt := by
  have hle := BitVec.toInt_mul_toInt_le (x := x) (y := y)
  have hge := BitVec.le_toInt_mul_toInt (x := x) (y := y)
  rw [BitVec.toInt_mul, BitVec.toInt_signExtend_of_le (by decide), BitVec.toInt_signExtend_of_le (by decide)]
  refine Int.bmod_eq_of_le_mul_two ?_ ?_
  · norm_num at hge ⊢
    omega
  · norm_num at hle ⊢
    omega

theorem umulh_eq (u : BitVec 1) (x y : Dword) : umulh (isS u) x y = mulhR u x y := by
  by_cases hu : u = 0#1
  · rw [mulhR, if_pos hu, ← toInt_mul_signExtend, ← extractHigh_eq_ofInt, isS, decide_eq_true hu]
    rfl
  · have h : x.toNat * y.toNat < 2 ^ 128 := (Nat.mul_lt_mul_of_lt_of_lt x.isLt y.isLt).trans_eq (by norm_num)
    rw [mulhR, if_neg hu, isS, decide_eq_false hu]
    apply BitVec.eq_of_toNat_eq
    have hlt : x.toNat * y.toNat / 2 ^ 64 < 2 ^ 64 := Nat.div_lt_of_lt_mul h
    simp only [umulh, Bool.false_eq_true, if_false, toNat_extractHigh, BitVec.toNat_mul, BitVec.toNat_setWidth, BitVec.toNat_ofNat]
    have hx := x.isLt
    have hy := y.isLt
    rw [Nat.mod_eq_of_lt (show x.toNat < 2 ^ 128 by omega), Nat.mod_eq_of_lt (show y.toNat < 2 ^ 128 by omega), Nat.mod_eq_of_lt h,
      Nat.mod_eq_of_lt hlt]

theorem umin_eq (u : BitVec 1) (x y : Dword) : umin (isS u) x y = minR u x y := by
  by_cases hu : u = 0#1
  · simp only [umin, minR, isS, hu, if_true, decide_true, BitVec.slt_eq_decide, decide_eq_true_eq]
    split
    · rw [min_eq_right (by omega), BitVec.ofInt_toInt]
    · rw [min_eq_left (by omega), BitVec.ofInt_toInt]
  · simp only [umin, minR, isS, hu, if_false, decide_false, Bool.false_eq_true, BitVec.ult_eq_decide, decide_eq_true_eq]
    split
    · rw [min_eq_right (by omega), BitVec.ofNat_toNat, BitVec.setWidth_eq]
    · rw [min_eq_left (by omega), BitVec.ofNat_toNat, BitVec.setWidth_eq]

theorem umax_eq (u : BitVec 1) (x y : Dword) : umax (isS u) x y = maxR u x y := by
  by_cases hu : u = 0#1
  · simp only [umax, maxR, isS, hu, if_true, decide_true, BitVec.slt_eq_decide, decide_eq_true_eq]
    split
    · rw [max_eq_right (by omega), BitVec.ofInt_toInt]
    · rw [max_eq_left (by omega), BitVec.ofInt_toInt]
  · simp only [umax, maxR, isS, hu, if_false, decide_false, Bool.false_eq_true, BitVec.ult_eq_decide, decide_eq_true_eq]
    split
    · rw [max_eq_right (by omega), BitVec.ofNat_toNat, BitVec.setWidth_eq]
    · rw [max_eq_left (by omega), BitVec.ofNat_toNat, BitVec.setWidth_eq]

theorem cmp3_eq (u : BitVec 1) (x y : Dword) : cmp3 (isS u) x y = cmpR u x y := by
  have hlt : (if isS u then x.slt y else x.ult y) = (if u = 0#1 then decide (x.toInt < y.toInt) else decide (x.toNat < y.toNat)) := by
    simp only [isS, decide_eq_true_eq, BitVec.slt_eq_decide, BitVec.ult_eq_decide]
  rw [cmp3, cmpR, hlt]
  by_cases h : x = y
  · subst h
    simp
  · simp only [h, if_false]
    generalize (if u = 0#1 then decide (x.toInt < y.toInt) else decide (x.toNat < y.toNat)) = lt
    cases lt <;> rfl

theorem bfPos_eq (y : Dword) : bfPos y = posR y := by simp [bfPos, posR]

theorem bfLen_eq (y : Dword) : bfLen y = lenR y := by simp [bfLen, lenR, Nat.shiftRight_eq_div_pow]

theorem ubfx_eq (u : BitVec 1) (x y : Dword) : ubfx (isS u) x y = bfxR u x y := by
  have hget : bfGet 64 x.toNat (bfPos y) (lenR y) = x.toNat / 2 ^ posR y % 2 ^ lenR y := by
    rw [bfGet, natBits, bfPos_eq, Nat.mod_eq_of_lt x.isLt]
  simp only [ubfx, bfxR, bfLen_eq, hget, sextNat, Nat.mod_mod, isS, decide_eq_true_eq]
  by_cases hl : lenR y = 0
  · rw [if_pos hl, if_pos hl]
  rw [if_neg hl, if_neg hl]
  by_cases hu : u = 0#1
  · by_cases hf : 2 ^ lenR y ≤ 2 * (x.toNat / 2 ^ posR y % 2 ^ lenR y)
    · rw [if_pos hu, if_neg (Nat.not_lt.2 hf), if_pos ⟨hu, hf⟩]
      push_cast
      rfl
    · rw [if_pos hu, if_pos (Nat.lt_of_not_le hf), if_neg fun h => hf h.2, BitVec.ofInt_natCast]
  · rw [if_neg hu, if_neg fun h => hu h.1]

theorem testBit_bfPut {n old a p l j : Nat} (hj : j < n) : (bfPut n old a p l).testBit j =
    if j < p then old.testBit j else if j < p + l then a.testBit (j - p) else old.testBit j := by
  have hsum : old % 2 ^ p + a % 2 ^ l * 2 ^ p + old / 2 ^ (p + l) * 2 ^ (p + l) =
      2 ^ p * (2 ^ l * (old / 2 ^ (p + l)) + a % 2 ^ l) + old % 2 ^ p := by ring
  have hp : old % 2 ^ p < 2 ^ p := Nat.mod_lt _ (Nat.two_pow_pos p)
  have hl : a % 2 ^ l < 2 ^ l := Nat.mod_lt _ (Nat.two_pow_pos l)
  rw [bfPut, hsum, Nat.testBit_mod_two_pow, Nat.testBit_two_pow_mul_add _ hp, Nat.testBit_two_pow_mul_add _ hl]
  simp only [hj, decide_true, Bool.true_and, Nat.testBit_mod_two_pow, Nat.testBit_div_two_pow]
  by_cases h1 : j < p
  · simp [h1]
  · by_cases h2 : j < p + l
    · simp [h1, h2, show j - p < l by omega]
    · simp [h1, h2, show ¬ j - p < l by omega, show j - p - l + (p + l) = j by omega]

theorem ubfi_eq (o x y : Dword) : ubfi o x y = bfiR o x y := by
  ext j hj
  have hput : (ubfi o x y).getLsbD j = (bfPut 64 o.toNat x.toNat (bfPos y) (bfLen y)).testBit j := by
    rw [ubfi, BitVec.getLsbD_ofNat, decide_eq_true hj, Bool.true_and]
  rw [← BitVec.getLsbD_eq_getElem, ← BitVec.getLsbD_eq_getElem, hput, testBit_bfPut hj, bfPos_eq, bfLen_eq]
  simp only [bfiR, BitVec.getLsbD_or, BitVec.getLsbD_and, BitVec.getLsbD_not, BitVec.getLsbD_shiftLeft, BitVec.getLsbD_ofNat,
    Nat.testBit_two_pow_sub_one]
  by_cases h1 : j < posR y
  · simp [h1, hj, BitVec.getLsbD]
  · by_cases h2 : j < posR y + lenR y
    · simp [h1, h2, hj, BitVec.getLsbD, show j - posR y < lenR y by omega, show j - posR y < 64 by omega]
    · simp [h1, h2, hj, BitVec.getLsbD, show ¬ j - posR y < lenR y by omega]

theorem signExtend_shiftLeft {n : Nat} (x : BitVec n) : x.signExtend 64 <<< 24 = BitVec.ofInt 64 (x.toInt * 2 ^ 24) := by
  rw [BitVec.ofInt_mul, BitVec.shiftLeft_eq_mul_twoPow]
  rfl

theorem uluiValue_eq (h : Hd) (i : BitVec 19) : uluiValue h i =
    BitVec.ofInt 64 ((match h.im with | none => i.toInt | some p => (p ++ i).toInt) * 2 ^ 24) := by
  unfold uluiValue
  cases h.im with
  | none => exact signExtend_shiftLeft i
  | some p => exact signExtend_shiftLeft (p ++ i)

/-! ### The words -/

section
variable {s : State} {b : Block} {t : Team} {q : ScalarRow} {i : Instr}

theorem scalarIssues_uBin {h : Hd} {d a c : BitVec 6} {f g : Dword → Dword → Dword} (hq : bin h d a c g = some q) (hfg : ∀ x y, f x y = g x y)
    (hi : exec i s = s.uBin h d a c f) (hf : s.Free (q.srcs.map fun r => .w r.toNat) [.w q.d.toNat] false b t) : scalarIssues i q s t := by
  obtain rfl := Option.some.inj hq
  refine hi.trans ((State.chk_free hf _).trans ?_)
  simp only [hfg]
  rfl

theorem scalarIssues_uImm {h : Hd} {d a : BitVec 6} {v : BitVec 9} {f g : Dword → Dword → Dword} (hq : imm h d a v g = some q)
    (hfg : ∀ x y, f x y = g x y) (hi : exec i s = s.uImm h d a v f)
    (hf : s.Free (q.srcs.map fun r => .w r.toNat) [.w q.d.toNat] false b t) : scalarIssues i q s t := by
  obtain rfl := Option.some.inj hq
  refine hi.trans ((State.chk_free hf _).trans ?_)
  simp only [hfg]
  rfl

theorem aluRow_issues (hq : aluRow i = some q) (hf : s.Free (q.srcs.map fun r => .w r.toNat) [.w q.d.toNat] false b t) :
    scalarIssues i q s t := by
  cases i with
  | uadd h d a c => exact scalarIssues_uBin hq uadd_eq rfl hf
  | usub h d a c => exact scalarIssues_uBin hq usub_eq rfl hf
  | umul h d a c => exact scalarIssues_uBin hq umul_eq rfl hf
  | umulh h u d a c => exact scalarIssues_uBin hq (umulh_eq u) rfl hf
  | uand h d a c => exact scalarIssues_uBin (f := fun x y => x &&& y) hq (fun _ _ => rfl) rfl hf
  | uor h d a c => exact scalarIssues_uBin (f := fun x y => x ||| y) hq (fun _ _ => rfl) rfl hf
  | uxor h d a c => exact scalarIssues_uBin (f := fun x y => x ^^^ y) hq (fun _ _ => rfl) rfl hf
  | ushl h d a c => exact scalarIssues_uBin hq ushl_eq rfl hf
  | ushr h d a c => exact scalarIssues_uBin hq ushr_eq rfl hf
  | usar h d a c => exact scalarIssues_uBin hq usar_eq rfl hf
  | umin h u d a c => exact scalarIssues_uBin hq (umin_eq u) rfl hf
  | umax h u d a c => exact scalarIssues_uBin hq (umax_eq u) rfl hf
  | ucmp h u d a c => exact scalarIssues_uBin hq (cmp3_eq u) rfl hf
  | ubfx h u d a c => exact scalarIssues_uBin hq (ubfx_eq u) rfl hf
  | ubfi h d a c =>
    obtain rfl := Option.some.inj hq
    refine (State.chk_free hf _).trans ?_
    rw [ubfi_eq]
    rfl
  | _ => cases hq

theorem immRow_issues (hq : immRow i = some q) (hf : s.Free (q.srcs.map fun r => .w r.toNat) [.w q.d.toNat] false b t) :
    scalarIssues i q s t := by
  cases i with
  | uaddImm h d a v => exact scalarIssues_uImm hq uadd_eq rfl hf
  | uandImm h d a v => exact scalarIssues_uImm (f := fun x y => x &&& y) hq (fun _ _ => rfl) rfl hf
  | uorImm h d a v => exact scalarIssues_uImm (f := fun x y => x ||| y) hq (fun _ _ => rfl) rfl hf
  | uxorImm h d a v => exact scalarIssues_uImm (f := fun x y => x ^^^ y) hq (fun _ _ => rfl) rfl hf
  | ushlImm h d a v => exact scalarIssues_uImm hq ushl_eq rfl hf
  | ushrImm h d a v => exact scalarIssues_uImm hq ushr_eq rfl hf
  | usarImm h d a v => exact scalarIssues_uImm hq usar_eq rfl hf
  | umulImm h d a v => exact scalarIssues_uImm hq umul_eq rfl hf
  | ului h d v =>
    obtain rfl := Option.some.inj hq
    refine (State.chk_free hf _).trans ?_
    rw [uluiValue_eq]
    rfl
  | _ => cases hq

end

/-- Settles O1: each operation of the model has the value that R117 gives in exact integers, and the words of class 2 have it too. -/
theorem uniformWordsWriteTheirRow : Obligations.UniformWordsWriteTheirRow :=
  ⟨fun _ _ _ _ _ hq hf => aluRow_issues hq hf, fun _ _ _ _ _ hq hf => immRow_issues hq hf⟩

end Sys2Proof.Machine
end

section
/-! PROOFS. Reconvergence (R123): the team after VBR and after RECON, from which the entries of its stack, its pc and its new m0 are read. -/

namespace Sys2Proof.Machine
open Sys2Proof.Claims

set_option Elab.async false

section
variable {s : State} {b : Block} {t : Team}

/-- What a flow word leaves of its team. -/
theorem issuesWith_flow_team {i : Instr} {h : Hd} {fz : Bool} {x : Option (BitVec 56)} {f : Team → Team}
    (ht : s.team? s.cur.r = some (b, t)) (he : exec i s = .next (s.flow h fz x f)) (hf : ∀ u, (f u).idx = u.idx) :
    issuesWith i s fun _ u => u = ((f t).retire h true s.cur.next).goto fz s.cur.addr x :=
  ⟨_, _, _, he, rfl, State.team?_updTeam _ (fun _ => rfl) (State.team?_issue h true f hf ht), rfl⟩

/-- The address of the packet after the one of a word. -/
theorem nextPacket_eq (a : BitVec 56) : packetOf a + 12#56 = BitVec.ofNat 56 (packetR a + 12) := by
  rw [packetOf_eq, BitVec.ofNat_add]

/-! ### VBR -/

/-- VBR pushes one entry, and m0 narrows to the lanes that go on now. -/
theorem Team.vbr_eq (u : Team) (now : Nat) (yes no : Mask) (pc : BitVec 56) : u.vbr now yes no pc =
    Team.addRun { u with stack := u.stack ++ [{ outer := u.rm 0#3, pending := if yes = 0#1024 then 0#1024 else no, pc := pc }] } now
      [.m 0 (if yes = 0#1024 then no else yes)] := by
  unfold Team.vbr
  by_cases h : yes = 0#1024
  · rw [if_neg (not_not_intro h), if_pos h, if_pos h]
  · rw [if_pos h, if_neg h, if_neg h]

theorem Team.vbr_idx (u : Team) (now : Nat) (yes no : Mask) (pc : BitVec 56) : (u.vbr now yes no pc).idx = u.idx := by
  rw [Team.vbr_eq]
  rfl

theorem Team.vbr_stack (u : Team) (now : Nat) (yes no : Mask) (pc : BitVec 56) : (u.vbr now yes no pc).stack =
    u.stack ++ [{ outer := u.rm 0#3, pending := if yes = 0#1024 then 0#1024 else no, pc := pc }] := by
  rw [Team.vbr_eq]
  rfl

theorem Team.vbr_writes (u : Team) (now : Nat) (yes no : Mask) (pc : BitVec 56) : (u.vbr now yes no pc).run.writes =
    u.run.writes ++ [{ write := .m 0 (if yes = 0#1024 then no else yes), at' := now }] := by
  rw [Team.vbr_eq]
  rfl

/-- A full stack takes no entry more. -/
theorem vbr_traps {h : Hd} {k : BitVec 3} {o : BitVec 18} (hf : s.Free [.m k.toNat, .m 0] [] false b t) (hl : t.stack.length = 32) :
    exec (.vbr h k o) s = .next (s.trap .rstack) := (State.chk_free hf _).trans (if_pos hl)

theorem vbr_goes {h : Hd} {k : BitVec 3} {o : BitVec 18} (hf : s.Free [.m k.toNat, .m 0] [] false b t) (hl : t.stack.length ≠ 32) :
    let yes := t.rm 0#3 &&& t.rm k
    let no := t.rm 0#3 &&& ~~~(t.rm k)
    let fall := BitVec.ofNat 56 (packetR s.cur.addr + 12)
    issuesWith (.vbr h k o) s fun _ u =>
      u.run.ended = true ∧
      u.stack = t.stack ++ [{ outer := t.rm 0#3, pending := if yes = 0#1024 then 0#1024 else no, pc := fall }] ∧
      u.pc = (if yes = 0#1024 then fall else targetR s.cur.addr o) ∧
      u.run.writes = t.run.writes ++ [{ write := .m 0 (if yes = 0#1024 then no else yes), at' := s.clock }] := by
  intro yes no fall
  have hexec : exec (.vbr h k o) s = _ := (State.chk_free hf _).trans (if_neg hl)
  rw [nextPacket_eq, targetOf_eq] at hexec
  have hidx : ∀ u : Team, (u.vbr s.clock yes no fall).idx = u.idx := fun u => u.vbr_idx _ _ _ _
  have hissue := State.team?_issue h true (fun u => u.vbr s.clock yes no fall) hidx hf.team
  by_cases hy : yes = 0#1024
  · have hgo := State.team?_updTeam (fun u => { u with pc := fall }) (fun _ => rfl)
      (State.team?_updTeam (fun u => u.goto (s.frozen b.tag) s.cur.addr none) (fun _ => rfl) hissue)
    exact ⟨_, _, _, hexec.trans (if_neg (not_not_intro hy)), rfl, hgo, Run.word_ended _ _, Team.vbr_stack _ _ _ _ _, (if_pos hy).symm,
      (Run.word_writes _ _ _).trans (Team.vbr_writes _ _ _ _ _)⟩
  · refine issuesWith_imp (issuesWith_flow_team hf.team (hexec.trans (if_pos hy)) hidx) ?_
    rintro _ _ rfl
    exact ⟨Run.word_ended _ _, Team.vbr_stack _ _ _ _ _, (if_neg hy).symm, (Run.word_writes _ _ _).trans (Team.vbr_writes _ _ _ _ _)⟩

/-! ### RECON -/

theorem recon_traps {h : Hd} (hf : s.Free [] [] false b t) (hs : t.stack = []) : exec (.recon h) s = .next (s.trap .rstack) := by
  refine (State.chk_free hf _).trans ?_
  rw [hs]
  rfl

/-- RECON with an entry `e` on top of the stack. -/
theorem exec_recon_top {h : Hd} {l : List Recon} {e : Recon} (hf : s.Free [] [] false b t) (hs : t.stack = l ++ [e]) : exec (.recon h) s =
    if e.pending ≠ 0#1024 then
      .next (s.flow h (s.frozen b.tag) (some e.pc) fun u =>
        Team.addRun { u with stack := u.stack.dropLast ++ [{ e with pending := 0#1024 }] } s.clock [.m 0 e.pending])
    else
      .next (s.flow h (s.frozen b.tag) none fun u => Team.addRun { u with stack := u.stack.dropLast } s.clock [.m 0 e.outer]) := by
  refine (State.chk_free hf _).trans ?_
  rw [hs, List.getLast?_concat]

/-- The other path of a divergence is taken. -/
theorem recon_switches {h : Hd} {l : List Recon} {e : Recon} (hf : s.Free [] [] false b t) (hs : t.stack = l ++ [e]) (hp : e.pending ≠ 0#1024) :
    issuesWith (.recon h) s fun _ u =>
      u.run.ended = true ∧ u.stack = l ++ [{ e with pending := 0#1024 }] ∧ u.pc = e.pc ∧
      u.run.writes = t.run.writes ++ [{ write := .m 0 e.pending, at' := s.clock }] := by
  refine issuesWith_imp (issuesWith_flow_team hf.team ((exec_recon_top hf hs).trans (if_pos hp)) fun _ => rfl) ?_
  rintro _ _ rfl
  refine ⟨Run.word_ended _ _, ?_, rfl, Run.word_writes _ _ _⟩
  show t.stack.dropLast ++ _ = _
  rw [hs, List.dropLast_concat]

/-- Both paths are done: the outer mask is in force again, and the entry is gone. -/
theorem recon_pops {h : Hd} {l : List Recon} {e : Recon} (hf : s.Free [] [] false b t) (hs : t.stack = l ++ [e]) (hp : e.pending = 0#1024) :
    issuesWith (.recon h) s fun _ u =>
      u.run.ended = true ∧ u.stack = l ∧ u.pc = s.cur.next ∧
      u.run.writes = t.run.writes ++ [{ write := .m 0 e.outer, at' := s.clock }] := by
  refine issuesWith_imp (issuesWith_flow_team hf.team ((exec_recon_top hf hs).trans (if_neg (not_not_intro hp))) fun _ => rfl) ?_
  rintro _ _ rfl
  refine ⟨Run.word_ended _ _, ?_, rfl, Run.word_writes _ _ _⟩
  show t.stack.dropLast = _
  rw [hs, List.dropLast_concat]

end

/-- Settles O3: VBR by `vbr_traps` and `vbr_goes`; RECON by the entry on top of the stack (`exec_recon_top`), or by there being none. -/
theorem reconvergenceSwitchesAndPops : Obligations.ReconvergenceSwitchesAndPops :=
  ⟨fun _ _ _ _ _ _ hf => ⟨vbr_traps hf, vbr_goes hf⟩,
    fun _ _ _ _ hf => ⟨recon_traps hf, fun _ _ => recon_switches hf, fun _ _ => recon_pops hf⟩, fun _ _ _ => rfl⟩

end Sys2Proof.Machine
end

section
/-! PROOFS. Mask words (R125): what they compute, lane by lane. -/

namespace Sys2Proof.Machine
open Sys2Proof.Claims

set_option Elab.async false

/-! ### The lowest lane of a mask -/

theorem maskFirst_eq_some {m : Mask} {n l : Nat} : maskFirst m n = some l ↔ lowest m n l := by
  simp only [maskFirst, List.find?_range_eq_some, lowest, List.mem_range, Bool.not_eq_true']
  exact ⟨fun ⟨h1, h2, h3⟩ => ⟨h2, h1, h3⟩, fun ⟨h2, h1, h3⟩ => ⟨h1, h2, h3⟩⟩

theorem maskFirst_eq_none {m : Mask} {n : Nat} : maskFirst m n = none ↔ ∀ l, l < n → m.getLsbD l = false := by
  simp [maskFirst, List.find?_eq_none]

theorem lowest_unique {m : Mask} {n k l : Nat} (hk : lowest m n k) (hl : lowest m n l) : k = l :=
  Option.some.inj ((maskFirst_eq_some.2 hk).symm.trans (maskFirst_eq_some.2 hl))

theorem getLsbD_maskOf_single {l k : Nat} (h : l < 1024) : (maskOf [l]).getLsbD k = decide (k = l) := by
  have hk : maskOf [l] = BitVec.twoPow 1024 l := by simp [maskOf, BitVec.twoPow]
  rw [hk, BitVec.getLsbD_twoPow, decide_eq_true h, Bool.true_and]
  exact decide_eq_decide.2 eq_comm

/-- The mask that MLEAD gives. -/
def maskLead (m : Mask) (n : Nat) : Mask := match maskFirst m n with | some l => maskOf [l] | none => 0#1024

theorem getLsbD_maskLead {m : Mask} {n : Nat} (hn : n ≤ 1024) (l : Nat) : (maskLead m n).getLsbD l = true ↔ lowest m n l := by
  unfold maskLead
  cases hfirst : maskFirst m n with
  | none =>
    have hnone := maskFirst_eq_none.1 hfirst
    simp only [BitVec.getLsbD_zero, Bool.false_eq_true, false_iff]
    exact fun ⟨hl, hm, _⟩ => by simp [hnone l hl] at hm
  | some k =>
    have hk := maskFirst_eq_some.1 hfirst
    rw [getLsbD_maskOf_single (hk.1.trans_le hn), decide_eq_true_eq]
    exact ⟨fun h => h ▸ hk, fun h => lowest_unique h hk⟩

/-- The value that MFIRST gives. -/
def maskFirstValue (m : Mask) (n : Nat) : Dword := match maskFirst m n with | some l => BitVec.ofNat 64 l | none => BitVec.allOnes 64

theorem maskFirstValue_spec (m : Mask) (n : Nat) : (∀ l, lowest m n l → maskFirstValue m n = BitVec.ofNat 64 l) ∧
    ((∀ l, l < n → m.getLsbD l = false) → maskFirstValue m n = BitVec.allOnes 64) := by
  unfold maskFirstValue
  exact ⟨fun l hl => by rw [maskFirst_eq_some.2 hl], fun h => by rw [maskFirst_eq_none.2 h]⟩

/-! ### Lane words and the summary word -/

theorem toNat_maskWord (m : Mask) (j : Nat) : (maskWord m j).toNat = laneWord m j := by
  rw [maskWord, laneWord, BitVec.extractLsb'_toNat, Nat.shiftRight_eq_div_pow]

/-- The sum of 2 ^ j over the numbers below `n` that `p` accepts. -/
def sumTwoPow (p : Nat → Bool) (n : Nat) : Nat := ((List.range n).filter p).foldl (fun s j => s + 2 ^ j) 0

theorem sumTwoPow_succ (p : Nat → Bool) (n : Nat) : sumTwoPow p (n + 1) = if p n then 2 ^ n + sumTwoPow p n else sumTwoPow p n := by
  unfold sumTwoPow
  rw [List.range_succ, List.filter_append, List.foldl_append]
  cases hp : p n with
  | true => simp [hp, Nat.add_comm]
  | false => simp [hp]

theorem sumTwoPow_lt (p : Nat → Bool) (n : Nat) : sumTwoPow p n < 2 ^ n := by
  induction n with
  | zero => exact Nat.one_pos
  | succ n ih =>
    rw [sumTwoPow_succ, Nat.pow_succ]
    split <;> omega

theorem testBit_sumTwoPow (p : Nat → Bool) (n j : Nat) : (sumTwoPow p n).testBit j = (decide (j < n) && p j) := by
  induction n with
  | zero => simp [sumTwoPow]
  | succ n ih =>
    have hlt := sumTwoPow_lt p n
    have hsum : sumTwoPow p (n + 1) = 2 ^ n * (if p n then 1 else 0) + sumTwoPow p n := by
      rw [sumTwoPow_succ]
      split <;> simp
    rw [hsum, Nat.testBit_two_pow_mul_add _ hlt]
    obtain h | rfl | h := Nat.lt_trichotomy j n
    · simp [h, ih, Nat.lt_succ_of_lt h]
    · cases p j <;> simp
    · have hbit : (if p n = true then 1 else 0) < 2 ^ (j - n) := by
        have := Nat.one_lt_two_pow (show j - n ≠ 0 by omega)
        split <;> omega
      rw [if_neg (by omega), Nat.testBit_lt_two_pow hbit, decide_eq_false (by omega), Bool.false_and]

theorem toNat_maskSummary (m : Mask) : (maskSummary m).toNat = sumTwoPow (fun j => maskWord m j != 0#32) 32 := by
  rw [maskSummary, BitVec.toNat_ofNat, Nat.mod_eq_of_lt]
  · rfl
  · exact sumTwoPow_lt _ 32

theorem summaryR_maskSummary (m : Mask) : summaryR m (maskSummary m).toNat := by
  refine ⟨(maskSummary m).isLt, fun j hj => ?_⟩
  rw [toNat_maskSummary, testBit_sumTwoPow, ← toNat_maskWord, decide_eq_true hj, Bool.true_and, bne_iff_ne]
  exact not_congr BitVec.toNat_inj.symm

/-! ### The words -/

section
variable {s : State} {b : Block} {t : Team}

/-- A word of the table that works on whole masks. -/
theorem mBin_issues {h : Hd} {l : BitVec 1} {d x y : BitVec 3} (f : Mask → Mask → Mask)
    (hf : s.Free ((if l = 1#1 then [] else [.m x.toNat]) ++ [.m y.toNat]) [.m d.toNat] false b t) : s.mBin h l d x y f =
      .next (s.issue h false fun u => u.addRun (s.clock + 2) [.m d.toNat (f (if l = 1#1 then maskAll t.lanes else t.rm x) (t.rm y))]) :=
  State.chk_free hf _

theorem mlead_issues {h : Hd} {e a : BitVec 3} (hf : s.Free [.m a.toNat] [.m e.toNat] false b t) : exec (.mlead h e a) s =
    .next (s.issue h false fun u => u.addRun (s.clock + 2) [.m e.toNat (maskLead (t.rm a) t.lanes)]) := State.chk_free hf _

theorem mfirst_issues {h : Hd} {d : BitVec 6} {a : BitVec 3} (hf : s.Free [.m a.toNat] [.w d.toNat] false b t) : exec (.mfirst h d a) s =
    .next (s.issue h false fun u => u.addRun (s.clock + 2) [.w d.toNat (maskFirstValue (t.rm a) t.lanes)]) := State.chk_free hf _

theorem mcount_issues {h : Hd} {d : BitVec 6} {a : BitVec 3} (hf : s.Free [.m a.toNat] [.w d.toNat] false b t) : exec (.mcount h d a) s =
    .next (s.issue h false fun u => u.addRun (s.clock + 2)
      [.w d.toNat (BitVec.ofNat 64 ((List.range t.lanes).countP fun l => (t.rm a).getLsbD l))]) := by
  rw [List.countP_eq_length_filter]
  exact State.chk_free hf _

theorem msetw_issues {h : Hd} {e : BitVec 3} {p q : BitVec 6} (hf : s.Free [.w p.toNat, .w q.toNat] [.m e.toNat] false b t) :
    exec (.msetw h e p q) s = .next (s.issue h false fun u =>
      if (t.rw q).toNat < ceilDiv t.lanes 32 then
        u.addRun (s.clock + 2) [.mw e.toNat (t.rw q).toNat (BitVec.ofNat 32 (t.rw p).toNat)]
      else u) := by
  refine (State.chk_free hf _).trans ?_
  by_cases hq : (t.rw q).toNat < ceilDiv t.lanes 32
  · simp only [Team.words, hq, if_true]
    rfl
  · simp only [Team.words, hq, if_false]
    rfl

/-- The value that MGETW gives of a mask of `n` lanes. -/
def maskGet (m : Mask) (n j : Nat) : Dword :=
  if j < ceilDiv n 32 then (maskWord m j).setWidth 64 else if j = 32 then (maskSummary m).setWidth 64 else 0#64

theorem toNat_setWidth_word (x : Word) : (x.setWidth 64).toNat = x.toNat := by
  rw [BitVec.toNat_setWidth, Nat.mod_eq_of_lt (x.isLt.trans (by decide))]

theorem maskGet_spec (m : Mask) (n j : Nat) : (j < ceilDiv n 32 → (maskGet m n j).toNat = laneWord m j) ∧
    (ceilDiv n 32 ≤ j → j ≠ 32 → maskGet m n j = 0#64) ∧
    (ceilDiv n 32 ≤ 32 → j = 32 → summaryR m (maskGet m n j).toNat) := by
  unfold maskGet
  refine ⟨fun h => ?_, fun h hj => ?_, fun h hj => ?_⟩
  · rw [if_pos h, toNat_setWidth_word, toNat_maskWord]
  · rw [if_neg (Nat.not_lt.2 h), if_neg hj]
  · rw [if_neg (by omega), if_pos hj, toNat_setWidth_word]
    exact summaryR_maskSummary m

theorem mgetw_issues {h : Hd} {d : BitVec 6} {a : BitVec 3} {q : BitVec 6} (hf : s.Free [.m a.toNat, .w q.toNat] [.w d.toNat] false b t) :
    exec (.mgetw h d a q) s =
      .next (s.issue h false fun u => u.addRun (s.clock + 2) [.w d.toNat (maskGet (t.rm a) t.lanes (t.rw q).toNat)]) := State.chk_free hf _

end

/-- Settles O4, word by word; what MLEAD, MFIRST and MGETW give is told by `getLsbD_maskLead`, `maskFirstValue_spec` and `maskGet_spec`. -/
theorem maskWordsFollowTheirTable : Obligations.MaskWordsFollowTheirTable := by
  unfold Obligations.MaskWordsFollowTheirTable
  refine ⟨fun h l d a b s bl t hf => ?_, fun h d e a s bl t hn => ?_, fun h d e a p q s bl t => ?_⟩
  · exact ⟨mBin_issues (fun x y => x &&& y) hf, mBin_issues (fun x y => x ||| y) hf, mBin_issues (fun x y => x ^^^ y) hf,
      mBin_issues (fun x y => x &&& ~~~y) hf⟩
  · exact ⟨fun hf => ⟨_, mlead_issues hf, getLsbD_maskLead hn⟩,
      fun hf => ⟨⟨_, mfirst_issues hf, maskFirstValue_spec _ _⟩, mcount_issues hf⟩⟩
  · exact ⟨msetw_issues, fun hf => ⟨_, mgetw_issues hf, maskGet_spec _ _ _⟩⟩

end Sys2Proof.Machine
end

section
/-! PROOFS. Control registers (R127, R128) and register slabs (R129): what RDC and WRC come to, and RGIVE of a team that has ended. -/

namespace Sys2Proof.Machine
open Sys2Proof.Claims

set_option Elab.async false

/-! ### Control registers -/

section
variable {s : State} {b : Block} {t : Team}

theorem rdc_issues {h : Hd} {d a : BitVec 6} (hf : s.Free [] [.w d.toNat] false b t) : exec (.rdc h d a) s =
    .next (s.issue h false fun u => u.addRun (s.clock + 2) [.w d.toNat (s.ctlRead b t a.toNat)]) := State.chk_free hf _

theorem rdcV_issues {h : Hd} {d a : BitVec 6} (hf : s.Free [.m 0] [.v d.toNat] false b t) : exec (.rdcV h d a) s =
    .next (s.issue h false fun u => u.addRun (s.clock + 2)
      [.v d.toNat ((List.range t.lanes).map fun l => if (t.rm 0#3).getLsbD l then
        some (if a = 0#6 then BitVec.ofNat 32 l else (s.ctlRead b t a.toNat).setWidth 32) else none)]) := State.chk_free hf _

/-- The control registers that take writes, by number (R128). -/
theorem ctlWritable_iff (d : BitVec 6) : ctlWritable d.toNat = true ↔ d = 9#6 ∨ d = 10#6 ∨ d = 24#6 ∨ d = 25#6 := by
  simp only [ctlWritable, Bool.or_eq_true, decide_eq_true_eq, ← BitVec.toNat_inj, BitVec.toNat_ofNat, or_assoc]

theorem wrc_issues {h : Hd} {d a : BitVec 6} (hf : s.Free [.w a.toNat] [] false b t) : exec (.wrc h d a) s =
    .next (s.issue h false fun u =>
      if d = 9#6 ∨ d = 10#6 ∨ d = 24#6 ∨ d = 25#6 then u.addRun (s.clock + 2) [.ctl d.toNat (t.rw a)] else u) := by
  refine (State.chk_free hf _).trans ?_
  simp only [ctlWritable_iff]
  rfl

end

/-- Settles O12: the words by `rdc_issues`, `rdcV_issues` and `wrc_issues`; the registers of a team's own state are read as they stand. -/
theorem controlRegistersAreReadAndWritten : Obligations.ControlRegistersAreReadAndWritten :=
  fun _ _ _ _ _ _ => ⟨rdc_issues, rdcV_issues, wrc_issues, rfl, rfl, rfl, rfl, rfl, rfl, rfl, rfl, rfl, rfl, rfl, rfl, rfl, rfl, rfl, rfl⟩

/-! ### Register slabs -/

/-- A block of one team, which has ended in the chain of its RGIVE: a consuming load before it was a reclamation point (R336). -/
def giverEnded : State := (State.reset.startBlock Dispatch.probe 0 0 0 none).endTeam ⟨0, 0⟩

/-- Its slabs are the pool's already, and RGIVE gives nothing. -/
theorem rgive_giverEnded (h : Hd) (k : BitVec 6) :
    exec (.rgive h k) giverEnded = .next { giverEnded with cur := { giverEnded.cur with res := .issued } } := rfl

/-- Refutes O13: its first clause has RGIVE of as many registers as the team has, or more, raise REGPOOL; but a team that a consuming load of
the same chain has ended (R336) has no registers any more, and its RGIVE issues without effect. -/
theorem not_slabsMoveBetweenTeamAndPool : ¬ Obligations.SlabsMoveBetweenTeamAndPool := by
  rintro ⟨hwords, -⟩
  obtain ⟨b, t, hteam, hregs, hpend⟩ : ∃ b t, giverEnded.team? giverEnded.cur.r = some (b, t) ∧ t.regs = 0 ∧ t.pend = [] :=
    ⟨_, _, rfl, rfl, rfl⟩
  have hfree : giverEnded.Free [] [] false b t := ⟨hteam, rfl, by simp [Team.pending, hpend], rfl⟩
  obtain ⟨htrap, -⟩ := hwords ⟨false, false, none, none⟩ 1#6 _ _ _ hfree
  have hsame := (rgive_giverEnded _ _).symm.trans (htrap (by simp [hregs]))
  have hres := congrArg (fun v : State => v.cur.res) (Host.Outcome.next.inj hsame)
  rw [State.trap_res] at hres
  cases hres

end Sys2Proof.Machine
end

section
/-! PROOFS. The handover words (R142 to R145): which entry of the Shelf each of them reaches, and the dword that it writes or reads there. -/

namespace Sys2Proof.Machine
open Sys2Proof.Claims

set_option Elab.async false

/-! ### The checks of R144 -/

section
variable {s : State} {b : Block} {T : Tree} {x : Node} {down : Bool} {w : BitVec 3}

theorem State.treeOf_of_no_tree (h : b.tree = none) : s.treeOf b = none := by
  unfold State.treeOf
  rw [h]

theorem State.treeOf_of_nodeBlock (h : nodeBlock s b T x) : s.treeOf b = some (T, x) := by
  obtain ⟨l, n, htree, hnode, hT, hx⟩ := h
  unfold State.treeOf nodeOf
  simp only [htree, hnode, hT, hx]

theorem State.treeArg_of_no_tree (h : b.tree = none) (pos : Option (BitVec 4)) : s.treeArg b down pos w = none := by
  unfold State.treeArg
  rw [State.treeOf_of_no_tree h]

section
variable (h : nodeBlock s b T x) (hw : w.toNat ≤ T.rsz) (hd : T.down = down)
include h hw hd

/-- A dword that an entry has, in the sweep that the word needs. -/
theorem State.treeArg_own : s.treeArg b down none w = some (T, x) := by
  unfold State.treeArg
  rw [State.treeOf_of_nodeBlock h]
  exact if_neg (by simp [hd, hw])

/-- The same, at a position that the node has a child at. -/
theorem State.treeArg_child {p : BitVec 4} (hp : p.toNat < x.children.length) : s.treeArg b down (some p) w = some (T, x) := by
  unfold State.treeArg
  rw [State.treeOf_of_nodeBlock h]
  exact (if_neg (by simp [hd, hw])).trans (if_pos hp)

end

theorem State.treeArg_none (h : nodeBlock s b T x) (hbad : T.rsz < w.toNat ∨ T.down ≠ down) (pos : Option (BitVec 4)) :
    s.treeArg b down pos w = none := by
  have hbad' : (T.rsz < w.toNat || T.down != down) = true := by simpa using hbad
  unfold State.treeArg
  rw [State.treeOf_of_nodeBlock h]
  exact if_pos hbad'

theorem State.treeArg_far (h : nodeBlock s b T x) {p : BitVec 4} (hp : x.children.length ≤ p.toNat) : s.treeArg b down (some p) w = none := by
  unfold State.treeArg
  rw [State.treeOf_of_nodeBlock h]
  dsimp only
  split
  · rfl
  · exact if_neg (Nat.not_lt.2 hp)

end

/-! ### A dword of an entry -/

section
variable {T : Tree} {e : Nat}

theorem shelfAt_wrEntry (h : hasEntry T e) (w : BitVec 3) (v : Dword) (f z : Nat) :
    shelfAt (T.wrEntry (some e) w v) f z = if f = e ∧ z = w.toNat then v else shelfAt T f z := by
  obtain ⟨l, hl, hlen⟩ := h
  have hw : w.toNat < l.length := by rw [hlen]; exact w.isLt
  obtain ⟨he, -⟩ := List.getElem?_eq_some_iff.1 hl
  unfold shelfAt
  by_cases hf : f = e
  · have hset : (T.wrEntry (some e) w v).shelf.getD f [] = l.set w.toNat v := by
      rw [hf]
      refine (getD_updAt_same (fun d => d.set w.toNat v) T.shelf e [] he).trans ?_
      rw [List.getD_eq_getElem?_getD, hl, Option.getD_some]
    rw [hset, List.getD_eq_getElem?_getD, List.getElem?_set]
    by_cases hz : w.toNat = z
    · simp [hf, ← hz, hw]
    · simp [hf, hz, Ne.symm hz, hl]
  · rw [if_neg fun h => hf h.1]
    exact congrArg (fun l => l.getD z 0#64) (getD_updAt_ne (fun d => d.set w.toNat v) T.shelf e f [] hf)

theorem putR_wrEntry (h : hasEntry T e) (w : BitVec 3) (v : Dword) : putR T (T.wrEntry (some e) w v) e w.toNat v := by
  refine ⟨(shelfAt_wrEntry h w v e w.toNat).trans (if_pos ⟨rfl, rfl⟩), fun f z hne => (shelfAt_wrEntry h w v f z).trans (if_neg ?_)⟩
  rintro ⟨rfl, rfl⟩
  exact hne rfl

/-! ### The entry of a child in a downward sweep (R76) -/

/-- The launch whose node `x` has given entry `e` to its child at position `k`. -/
def Tree.giveEntry (t : Tree) (x : Node) (k e : Nat) : Tree := t.upd x.idx fun y => { y with entries := y.entries.set k (some e) }

/-- The launch with an entry zeroed, and taken from those that are free. -/
def Tree.takeEntry (t : Tree) (e : Nat) (l : List Nat) : Tree := { t with free := l, shelf := t.shelf.set e shelfZero }

theorem givenR_giveEntry {x : Node} (hx : nodeOf T.nodes x.idx = some x) (k e : Nat) : givenR (T.giveEntry x k e) x k e := by
  refine ⟨{ x with entries := x.entries.set k (some e) }, ?_, rfl⟩
  refine (T.nodeOf_upd (f := fun y => { y with entries := y.entries.set k (some e) }) (fun _ => rfl) x.idx x.idx).trans ?_
  rw [hx, Option.map_some, if_pos (beq_self_eq_true _)]

theorem hasEntry_takeEntry (h : hasEntry T e) (l : List Nat) : hasEntry (T.takeEntry e l) e := by
  obtain ⟨r, hr, -⟩ := h
  obtain ⟨he, -⟩ := List.getElem?_eq_some_iff.1 hr
  exact ⟨shelfZero, List.getElem?_set_self he, rfl⟩

theorem shelfAt_takeEntry_self (h : hasEntry T e) (l : List Nat) (z : Nat) : shelfAt (T.takeEntry e l) e z = 0#64 := by
  obtain ⟨r, hr, -⟩ := h
  obtain ⟨he, -⟩ := List.getElem?_eq_some_iff.1 hr
  have hset : (T.takeEntry e l).shelf.getD e [] = shelfZero := by
    rw [List.getD_eq_getElem?_getD]
    exact congrArg (fun o => o.getD []) (List.getElem?_set_self he)
  rw [shelfAt, hset, shelfZero, List.getD_eq_getElem?_getD, List.getElem?_replicate]
  split <;> rfl

theorem shelfAt_takeEntry_ne (l : List Nat) {f : Nat} (hf : f ≠ e) (z : Nat) : shelfAt (T.takeEntry e l) f z = shelfAt T f z := by
  have hset : (T.takeEntry e l).shelf.getD f [] = T.shelf.getD f [] := by
    rw [List.getD_eq_getElem?_getD, List.getD_eq_getElem?_getD]
    exact congrArg (fun o : Option (List Dword) => o.getD []) (List.getElem?_set_ne hf.symm)
  rw [shelfAt, hset, shelfAt]

section
variable {x : Node} {k : Nat}

theorem Tree.childEntry_of_given (h : x.entries[k]? = some (some e)) : T.childEntry x k = (some e, T) := by
  unfold Tree.childEntry
  rw [List.getD_eq_getElem?_getD, h]
  rfl

/-- The child that is first in the opening order takes over its node's entry. -/
theorem Tree.childEntry_of_first (h : x.entries[k]? = some none) (ho : x.order.head? = x.children[k]?) (he : x.entry = some e) :
    T.childEntry x k = (some e, T.giveEntry x k e) := by
  unfold Tree.childEntry
  rw [List.getD_eq_getElem?_getD, h, he]
  exact if_pos ho

/-- Another child takes a free entry. -/
theorem Tree.childEntry_of_other (h : x.entries[k]? = some none) (ho : x.order.head? ≠ x.children[k]?) {l : List Nat} (hl : T.free = e :: l) :
    T.childEntry x k = (some e, (T.giveEntry x k e).takeEntry e l) := by
  unfold Tree.childEntry
  rw [List.getD_eq_getElem?_getD, h, hl]
  exact if_neg ho

end

end

/-! ### The words -/

section
variable {s : State} {b : Block} {t : Team} {T : Tree} {x : Node} {h : Hd} {a d : BitVec 6} {p : BitVec 4} {w : BitVec 3} {e : Nat}

/-- A word that has changed a launch. -/
theorem issuesWith_putTree {i : Instr} {T' : Tree} {P : Tree → Prop} (ht : s.team? s.cur.r = some (b, t)) (hT : ∃ y ∈ s.trees, y.id = T.id)
    (he : exec i s = .next ((s.putTree T').issue h false fun u => u)) (hid : T'.id = T.id) (hp : P T') :
    issuesWith i s fun v _ => launchIs v T.id P :=
  have hteam : (s.putTree T').team? s.cur.r = some (b, t) := ht
  ⟨_, _, _, he, rfl, State.team?_issue (s := s.putTree T') h false (fun u => u) (fun _ => rfl) hteam,
    launchIs_of_trees rfl (launchIs_putTree hT hid hp)⟩

/-- A word whose result is ready at once. -/
theorem issuesWith_scoreNow {i : Instr} {v : Dword} (ht : s.team? s.cur.r = some (b, t)) (he : exec i s = .next (s.scoreNow h d v)) :
    issuesWith i s fun _ u => givesW t u d v :=
  have hteam : (s.newId.2).team? s.cur.r = some (b, t) := ht
  ⟨_, _, _, he, rfl, State.team?_issue (s := s.newId.2) h false
    (fun u => u.addPend s.nextId [.w d.toNat] (some [.w d.toNat v]) false) (fun _ => rfl) hteam, s.nextId, rfl⟩

theorem tree_of_nodeBlock (hn : nodeBlock s b T x) : ∃ y ∈ s.trees, y.id = T.id := by
  obtain ⟨l, n, -, -, hT, -⟩ := hn
  exact ⟨T, List.mem_of_find?_eq_some hT, rfl⟩

theorem nres_traps (hf : s.Free [.w a.toNat] [] false b t) (harg : s.treeArg b false none w = none) :
    exec (.nres h a w) s = .next (s.trap .treearg) := by
  refine (State.chk_free hf _).trans ?_
  rw [harg]

theorem nresK_traps (hf : s.Free [.w a.toNat] [] false b t) (harg : s.treeArg b true (some p) w = none) :
    exec (.nresK h a p w) s = .next (s.trap .treearg) := by
  refine (State.chk_free hf _).trans ?_
  rw [harg]

theorem nchild_traps (hf : s.Free [] [.w d.toNat] true b t) (harg : s.treeArg b false (some p) w = none) :
    exec (.nchild h d p w) s = .next (s.trap .treearg) := by
  refine (State.chk_free hf _).trans ?_
  rw [harg]

theorem nparent_traps (hf : s.Free [] [.w d.toNat] true b t) (harg : s.treeArg b true none w = none) :
    exec (.nparent h d w) s = .next (s.trap .treearg) := by
  refine (State.chk_free hf _).trans ?_
  rw [harg]

theorem nres_writes (hf : s.Free [.w a.toNat] [] false b t) (hn : nodeBlock s b T x) (hw : w.toNat ≤ T.rsz) (hd : T.down = false)
    (he : x.entry = some e) (hhas : hasEntry T e) :
    issuesWith (.nres h a w) s fun v _ => launchIs v T.id fun T' => putR T T' e w.toNat (t.rw a) := by
  refine issuesWith_putTree (h := h) (T' := T.wrEntry (some e) w (t.rw a)) hf.team (tree_of_nodeBlock hn) ?_ rfl (putR_wrEntry hhas w _)
  refine (State.chk_free hf _).trans ?_
  rw [State.treeArg_own hn hw hd]
  simp only [he]

/-- NRES.k, the child's entry being `e` in a launch that is then `T1`. -/
theorem exec_nresK (hf : s.Free [.w a.toNat] [] false b t) (hn : nodeBlock s b T x) (hw : w.toNat ≤ T.rsz) (hd : T.down = true)
    (hp : p.toNat < x.children.length) {T1 : Tree} (hc : T.childEntry x p.toNat = (some e, T1)) : exec (.nresK h a p w) s =
      .next ((s.putTree (T1.wrEntry (some e) w (t.rw a))).issue h false fun u => u) := by
  refine (State.chk_free hf _).trans ?_
  rw [State.treeArg_child hn hw hd hp]
  simp only [hc]

theorem nresK_writes_given (hf : s.Free [.w a.toNat] [] false b t) (hn : nodeBlock s b T x) (hw : w.toNat ≤ T.rsz) (hd : T.down = true)
    (hp : p.toNat < x.children.length) (he : x.entries[p.toNat]? = some (some e)) (hhas : hasEntry T e) :
    issuesWith (.nresK h a p w) s fun v _ => launchIs v T.id fun T' => putR T T' e w.toNat (t.rw a) :=
  issuesWith_putTree hf.team (tree_of_nodeBlock hn) (exec_nresK hf hn hw hd hp (Tree.childEntry_of_given he)) rfl (putR_wrEntry hhas w _)

theorem nresK_writes_first (hf : s.Free [.w a.toNat] [] false b t) (hn : nodeBlock s b T x) (hw : w.toNat ≤ T.rsz) (hd : T.down = true)
    (hp : p.toNat < x.children.length) (hnone : x.entries[p.toNat]? = some none) (ho : x.order.head? = x.children[p.toNat]?)
    (he : x.entry = some e) (hhas : hasEntry T e) :
    issuesWith (.nresK h a p w) s fun v _ => launchIs v T.id fun T' =>
      putR T T' e w.toNat (t.rw a) ∧ T'.free = T.free ∧ givenR T' x p.toNat e :=
  issuesWith_putTree hf.team (tree_of_nodeBlock hn) (exec_nresK hf hn hw hd hp (Tree.childEntry_of_first hnone ho he)) rfl
    ⟨putR_wrEntry (T := T.giveEntry x p.toNat e) hhas w _, rfl, givenR_giveEntry (nodeOf_of_nodeBlock hn) p.toNat e⟩

theorem nresK_writes_other (hf : s.Free [.w a.toNat] [] false b t) (hn : nodeBlock s b T x) (hw : w.toNat ≤ T.rsz) (hd : T.down = true)
    (hp : p.toNat < x.children.length) (hnone : x.entries[p.toNat]? = some none) (ho : x.order.head? ≠ x.children[p.toNat]?)
    {l : List Nat} (hl : T.free = e :: l) (hhas : hasEntry T e) :
    issuesWith (.nresK h a p w) s fun v _ => launchIs v T.id fun T' => T'.free = l ∧ givenR T' x p.toNat e ∧
      (∀ z, z < 8 → shelfAt T' e z = if z = w.toNat then t.rw a else 0#64) ∧ ∀ f z, f ≠ e → shelfAt T' f z = shelfAt T f z := by
  have hgive : hasEntry (T.giveEntry x p.toNat e) e := hhas
  have hwrite := shelfAt_wrEntry (hasEntry_takeEntry hgive l) w (t.rw a)
  refine issuesWith_putTree hf.team (tree_of_nodeBlock hn) (exec_nresK hf hn hw hd hp (Tree.childEntry_of_other hnone ho hl)) rfl
    ⟨rfl, givenR_giveEntry (nodeOf_of_nodeBlock hn) p.toNat e, fun z _ => ?_, fun f z hf => ?_⟩
  · rw [hwrite, shelfAt_takeEntry_self hgive]
    simp only [true_and]
  · rw [hwrite, if_neg fun h => hf h.1, shelfAt_takeEntry_ne l hf]
    rfl

theorem nchild_reads (hf : s.Free [] [.w d.toNat] true b t) (hn : nodeBlock s b T x) (hw : w.toNat ≤ T.rsz) (hd : T.down = false)
    (hp : p.toNat < x.children.length) {y : Node} (hy : T.nodes.find? (fun z => z.idx == x.children.getD p.toNat 0) = some y)
    (he : y.entry = some e) : issuesWith (.nchild h d p w) s fun _ u => givesW t u d (shelfAt T e w.toNat) := by
  refine issuesWith_scoreNow (h := h) hf.team ((State.chk_free hf _).trans ?_)
  rw [State.treeArg_child hn hw hd hp]
  simp only [nodeOf, hy, he]
  rfl

theorem nparent_reads (hf : s.Free [] [.w d.toNat] true b t) (hn : nodeBlock s b T x) (hw : w.toNat ≤ T.rsz) (hd : T.down = true)
    (he : x.entry = some e) : issuesWith (.nparent h d w) s fun _ u => givesW t u d (shelfAt T e w.toNat) := by
  refine issuesWith_scoreNow (h := h) hf.team ((State.chk_free hf _).trans ?_)
  rw [State.treeArg_own hn hw hd]
  simp only [he]
  rfl

/-- In a node's block, what is refused: a dword that the entries do not have, or the wrong sweep; and a position without a child. -/
theorem State.treeArg_refuses (hn : nodeBlock s b T x) {down : Bool} (hbad : T.rsz < w.toNat ∨ T.down = !down ∨ x.children.length ≤ p.toNat) :
    s.treeArg b down (some p) w = none := by
  obtain hw | hd | hp := hbad
  · exact State.treeArg_none hn (.inl hw) _
  · exact State.treeArg_none hn (.inr (by simp [hd])) _
  · exact State.treeArg_far hn hp

end

/-- Settles O41, word by word: the checks by `State.treeArg`'s lemmas, a write by `shelfAt_wrEntry`, the entry of NRES.k's child by
`Tree.childEntry`'s. -/
theorem handoverWordsReachTheShelf : Obligations.HandoverWordsReachTheShelf := by
  intro h a d p w s b t
  refine ⟨fun hb => ?_, fun T x hn => ⟨fun hf => ⟨fun hbad => ?_, fun hw hd e he hhas => nres_writes hf hn hw hd he hhas, fun hbad => ?_,
      fun hw hd hp => ⟨fun e he hhas => nresK_writes_given hf hn hw hd hp he hhas,
        fun hnone ho e he hhas => nresK_writes_first hf hn hw hd hp hnone ho he hhas,
        fun hnone ho e l hl hhas => nresK_writes_other hf hn hw hd hp hnone ho hl hhas⟩⟩,
    fun hf => ⟨fun hbad => ?_, fun hw hd hp y e hy he => nchild_reads hf hn hw hd hp hy he, fun hbad => ?_,
      fun hw hd e he => nparent_reads hf hn hw hd he⟩⟩⟩
  · have hnone {down : Bool} (pos : Option (BitVec 4)) : s.treeArg b down pos w = none := State.treeArg_of_no_tree hb pos
    exact ⟨fun hf => ⟨nres_traps hf (hnone _), nresK_traps hf (hnone _)⟩, fun hf => ⟨nchild_traps hf (hnone _), nparent_traps hf (hnone _)⟩⟩
  · exact nres_traps hf (State.treeArg_none hn (hbad.imp_right fun hd => by simp [hd]) _)
  · exact nresK_traps hf (State.treeArg_refuses hn hbad)
  · exact nchild_traps hf (State.treeArg_refuses hn hbad)
  · exact nparent_traps hf (State.treeArg_none hn (hbad.imp_right fun hd => by simp [hd]) _)

end Sys2Proof.Machine
end

section
/-! PROOFS. LAUNCH in a new phase of a context that names as its latest phase a level that is not there (R37, R40, R136). -/

namespace Sys2Proof.Machine
open Sys2Proof.Claims

set_option Elab.async false

/-! ### A new level (R37, R38) -/

/-- The context with one more in the counter of a level's parent, where that is there. -/
def Ctx.countChild (c : Ctx) (parent : Option Nat) : Ctx :=
  match parent.bind c.level? with | some q => c.putLevel { q with counter := q.counter + 1 } | none => c

/-- A new level of a context, in a slot with its generation. -/
def Ctx.child (c : Ctx) (slot : Nat) (gen : BitVec 32) (kind : Nat) (lk : LKind) (parent : Option Nat) (n phase : Nat) (auto : Bool)
    (die : Nat) : Level :=
  { slot := slot, gen := gen, kind := kind, lkind := lk, parent := parent, counter := n, complete := false, status := 0#64
    cancelled := (parent.bind c.level?).elim false Level.cancelled, ndone := 0, bad := 0, low := none, pfault := false, phase := phase
    auto := auto, die := die }

/-- The context with a new level that its parent counts. -/
def Ctx.withChild (c : Ctx) (l : Level) : Ctx := { c.countChild l.parent with levels := (c.countChild l.parent).levels ++ [l] }

theorem Ctx.withChild_tag (c : Ctx) (l : Level) : (c.withChild l).tag = c.tag := by
  show (c.countChild l.parent).tag = c.tag
  unfold Ctx.countChild
  split
  · rfl
  · rfl

/-- A context put in the place of the one of its tag. -/
theorem State.ctx?_putCtx {s : State} {tag : BitVec 12} {c d : Ctx} (hc : s.ctx? tag = some c) (hd : d.tag = tag) :
    (s.updCtx tag fun _ => d).ctx? tag = some d :=
  (find?_updWhere_same (fun x : Ctx => x.tag == tag) (fun _ => d) s.ctxs fun _ _ => beq_iff_eq.2 hd).trans
    (congrArg (Option.map fun _ => d) hc)

theorem State.slotGen_ctxs (s : State) (c : Ctx) (slot : Nat) : (s.slotGen c slot).2.ctxs = s.ctxs := by
  unfold State.slotGen
  split
  · rfl
  · rfl

section
variable {s : State} {tag : BitVec 12} {c : Ctx} (hc : s.ctx? tag = some c) (kind : Nat) (lk : LKind) (parent : Option Nat) (n phase : Nat)
  (auto : Bool) (die : Nat)
include hc

theorem State.newLevel_eq {slot : Nat} (hslot : slot = c.freeSlot (Config.freeChoice s.free % levelSlots)) :
    (s.newLevel tag kind lk parent n phase auto die).2 = ((s.choice levelSlots).2.slotGen c slot).2.updCtx tag fun _ =>
      c.withChild (c.child slot ((s.choice levelSlots).2.slotGen c slot).1 kind lk parent n phase auto die) := by
  have hchoice : (s.choice levelSlots).2.ctx? tag = some c := hc
  unfold State.newLevel
  simp only [hchoice, hslot]
  unfold Ctx.withChild Ctx.countChild Ctx.child
  cases parent with
  | none => rfl
  | some p =>
    simp only [Option.bind_some]
    cases c.level? p with
    | none => rfl
    | some q => rfl

/-- The context that has the new level, in the slot that was found free. -/
theorem State.newLevel_ctx? : ∃ g, (s.newLevel tag kind lk parent n phase auto die).2.ctx? tag =
    some (c.withChild (c.child (c.freeSlot (Config.freeChoice s.free % levelSlots)) g kind lk parent n phase auto die)) := by
  have hslot : ((s.choice levelSlots).2.slotGen c (c.freeSlot (Config.freeChoice s.free % levelSlots))).2.ctx? tag = some c := by
    rw [State.ctx?, State.slotGen_ctxs]
    exact hc
  have htag : c.tag = tag := by simpa using List.find?_some hc
  rw [State.newLevel_eq hc kind lk parent n phase auto die rfl]
  exact ⟨_, State.ctx?_putCtx hslot ((c.withChild_tag _).trans htag)⟩

end

/-! ### Levels none of which is a phase or cancelled -/

/-- A level is no phase, and is not cancelled. -/
def Level.Plain (l : Level) : Prop := l.kind ≠ 3 ∧ l.cancelled = false

theorem Ctx.plain_of_level? {c : Ctx} (h : ∀ l ∈ c.levels, l.Plain) {slot : Nat} {l : Level} (hl : c.level? slot = some l) : l.Plain :=
  h l (List.mem_of_find?_eq_some hl)

theorem Ctx.plain_countChild {c : Ctx} (h : ∀ l ∈ c.levels, l.Plain) (parent : Option Nat) : ∀ l ∈ (c.countChild parent).levels, l.Plain := by
  unfold Ctx.countChild
  split
  · next q hq =>
    obtain ⟨p, -, hp⟩ := Option.bind_eq_some_iff.1 hq
    obtain ⟨hkind, hcancel⟩ := Ctx.plain_of_level? h hp
    refine forall_mem_updWhere.2 fun l hl => ?_
    split
    · exact ⟨hkind, hcancel⟩
    · exact h l hl
  · exact h

/-- A new level of another kind than a phase leaves them so. -/
theorem State.newLevel_plain {s : State} {tag : BitVec 12} {c : Ctx} (hc : s.ctx? tag = some c) (h : ∀ l ∈ c.levels, l.Plain) {kind : Nat}
    (hk : kind ≠ 3) (lk : LKind) (parent : Option Nat) (n phase : Nat) (auto : Bool) (die : Nat) :
    ∃ c', (s.newLevel tag kind lk parent n phase auto die).2.ctx? tag = some c' ∧ ∀ l ∈ c'.levels, l.Plain := by
  obtain ⟨g, hnew⟩ := State.newLevel_ctx? hc kind lk parent n phase auto die
  refine ⟨_, hnew, fun l hl => ?_⟩
  obtain hl | hl := List.mem_append.1 hl
  · exact Ctx.plain_countChild h parent l hl
  · obtain rfl := List.mem_singleton.1 hl
    refine ⟨hk, ?_⟩
    show (parent.bind c.level?).elim false Level.cancelled = false
    cases hq : parent.bind c.level? with
    | none => rfl
    | some q =>
      obtain ⟨p, -, hp⟩ := Option.bind_eq_some_iff.1 hq
      exact (Ctx.plain_of_level? h hp).2

theorem State.levelCancelled_of_plain {s : State} {tag : BitVec 12} {c : Ctx} (hc : s.ctx? tag = some c) (h : ∀ l ∈ c.levels, l.Plain)
    (slot : Nat) : s.levelCancelled tag slot = false := by
  unfold State.levelCancelled
  simp only [hc]
  cases hl : c.level? slot with
  | none => rfl
  | some l => exact (Ctx.plain_of_level? h hl).2

/-! ### A phase that takes the slot of the latest one -/

/-- A context without levels, which names a slot as its job's and as its latest phase's. -/
structure Ctx.Orphan (c : Ctx) (slot : Nat) : Prop where
  empty : c.levels = []
  job : c.job = slot
  latest : c.latest = slot

/-- With no level there, a slot is found where the search begins. -/
theorem Ctx.freeSlot_of_empty {c : Ctx} (h : c.levels = []) {start : Nat} (hs : start < levelSlots) : c.freeSlot start = start := by
  obtain ⟨k, hk⟩ : ∃ k, levelSlots - start = k + 1 := Nat.exists_eq_succ_of_ne_zero (Nat.sub_ne_zero_of_lt hs)
  have hnone : (c.level? start).isNone = true := by rw [Ctx.level?, h]; rfl
  unfold Ctx.freeSlot
  rw [hk]
  simp only [findFrom, hnone, if_true]

/-- A level alone in its context, its own parent, is freed as it completes. -/
theorem Ctx.close_alone {c : Ctx} {l : Level} (hc : c.levels = [l]) (hp : l.parent = some l.slot) (hl : l.complete = false)
    (ha : l.auto = false) : (c.close l.slot none).levels = [] := by
  have hlevel : c.level? l.slot = some l := by simp [Ctx.level?, hc]
  have hput (q : Level) (hq : q.slot = l.slot) : (c.putLevel q).levels = [q] := by simp [Ctx.putLevel, updWhere, hc, hq]
  have hgone (m : Level) (hm : m.slot = l.slot) (hmp : m.parent = some l.slot) : ((c.putLevel m).freeBelow l.slot l).levels = [] := by
    simp only [Ctx.freeBelow, ha, Bool.false_eq_true, if_false, Ctx.dropSlots, hput m hm]
    simp [hmp]
  have hnone (m : Level) (hm : m.slot = l.slot) (hmp : m.parent = some l.slot) :
      ((c.putLevel m).freeBelow l.slot l).level? l.slot = none := by simp [Ctx.level?, hgone m hm hmp]
  rw [Ctx.close, Ctx.finish_succ _ none hlevel hl]
  simp only [hp]
  split
  · exact hgone _ rfl rfl
  · next q hq => cases hq.symm.trans (hnone _ (by rfl) (by rfl))

/-- Where all its members leave a level alone in its context, its own parent, it completes, and is freed. -/
theorem Ctx.moveOut_alone {c : Ctx} {l : Level} (hc : c.levels = [l]) (hp : l.parent = some l.slot) (hl : l.complete = false)
    (ha : l.auto = false) : (c.moveOut l.slot l.counter).levels = [] := by
  have hlevel : c.level? l.slot = some l := by simp [Ctx.level?, hc]
  have hput : (c.putLevel { l with counter := 0 }).levels = [{ l with counter := 0 }] := by simp [Ctx.putLevel, updWhere, hc]
  have hclose := Ctx.close_alone hput hp hl ha
  unfold Ctx.moveOut
  simpa [hlevel, hl] using hclose

theorem Ctx.moveOut_tag (c : Ctx) (slot n : Nat) : (c.moveOut slot n).tag = c.tag := by
  unfold Ctx.moveOut
  split
  · rfl
  · dsimp only
    split
    · exact Ctx.finish_tag _ _ _ _
    · rfl

/-- The context once a level in slot `p` is its latest phase, and `n` members have left the one before (R40). -/
def Ctx.nextPhase (c : Ctx) (old p n : Nat) : Ctx := Ctx.moveOut { c with latest := p, phases := c.phases + 1 } old n

theorem Ctx.nextPhase_tag (c : Ctx) (old p n : Nat) : (c.nextPhase old p n).tag = c.tag := Ctx.moveOut_tag _ old n

/-- The new phase takes the slot of the latest one: the patterns, its only members, leave it at once, and it is freed. -/
theorem State.newPhase_orphan {s : State} {tag : BitVec 12} {c : Ctx} (hc : s.ctx? tag = some c)
    (ho : c.Orphan (Config.freeChoice s.free % levelSlots)) (die : Nat) :
    ∃ c', (s.newPhase tag die).2.ctx? tag = some c' ∧ c'.levels = [] := by
  obtain ⟨hempty, hjob, hlatest⟩ := ho
  obtain ⟨g, hnew⟩ := State.newLevel_ctx? hc 3 .group (some c.job) (s.patternCount tag) c.phases false die
  have hphase : (s.newPhase tag die).2 = (s.newLevel tag 3 .group (some c.job) (s.patternCount tag) c.phases false die).2.updCtx tag
      fun x => x.nextPhase c.latest (s.newLevel tag 3 .group (some c.job) (s.patternCount tag) c.phases false die).1 (s.patternCount tag) := by
    unfold State.newPhase
    simp only [hc]
    rfl
  rw [hphase, State.ctx?_updCtx _ _ _ fun x => x.nextPhase_tag _ _ _, hnew, Ctx.freeSlot_of_empty hempty (Nat.mod_lt _ (by decide)), hjob,
    hlatest]
  refine ⟨_, rfl, Ctx.moveOut_alone (l := c.child (Config.freeChoice s.free % levelSlots) g 3 .group
    (some (Config.freeChoice s.free % levelSlots)) (s.patternCount tag) c.phases false die) ?_ rfl rfl rfl⟩
  simp [Ctx.withChild, Ctx.countChild, Ctx.child, Ctx.level?, hempty]

/-- The launch makes a graph and a launch, and its phase is gone. -/
theorem State.newLaunch_orphan {s : State} {tag : BitVec 12} {c : Ctx} (hc : s.ctx? tag = some c)
    (ho : c.Orphan (Config.freeChoice s.free % levelSlots)) (src : Nat) (ng : Bool) (lk : LKind) (n die : Nat) :
    ∃ c', (s.newLaunch tag src ng true lk n die).2.2.ctx? tag = some c' ∧ ∀ l ∈ c'.levels, l.Plain := by
  obtain ⟨c1, hc1, hempty⟩ := State.newPhase_orphan hc ho die
  obtain ⟨c2, hc2, hplain2⟩ := State.newLevel_plain hc1 (by simp [hempty]) (kind := 2) (by decide) .group (some (s.newPhase tag die).1) 0
    c.phases false die
  unfold State.newLaunch
  simp only [hc]
  exact State.newLevel_plain hc2 hplain2 (by decide) lk _ n c.phases false die

/-! ### The state -/

/-- The slot that the next new level takes in a context without levels. -/
def orphanSlot : Nat := Config.freeChoice 0 % levelSlots

/-- Such a context. -/
def orphanCtx : Ctx := { Ctx.probe with job := orphanSlot, latest := orphanSlot }

/-- A team of it that issues at address 0. -/
def orphanLaunch : State := { State.reset.withProgram [] with ctxs := [orphanCtx] }

theorem launchReady_orphanLaunch : ∃ b t r s1, LaunchReady orphanLaunch b t 0#6 0#6 1#1 0#1 r s1 ∧ s1.ctx? b.tag = some orphanCtx ∧
    s1.free = 0 := ⟨_, _, _, _, ⟨⟨rfl, rfl, rfl, rfl⟩, rfl, rfl, rfl, rfl⟩, rfl, rfl⟩

/-- LAUNCH.tree that nothing holds back, of a launch that is not cancelled. -/
theorem exec_launchTree {s s1 : State} {b : Block} {t : Team} {h : Hd} {d a : BitVec 6} {p g : BitVec 1} {r : Nat}
    (hr : LaunchReady s b t d a p g r s1) {slot new : Nat} {s2 : State}
    (hn : s1.newLaunch b.tag b.slot (g = 1#1) (p = 1#1) .tree 1 (coreDie b.core) = (slot, new, s2))
    (hc : s2.levelCancelled b.tag slot = false) : exec (.launchTree h d a p g) s =
      .next ((s2.scoreNow h d (s2.handleAt b.tag new)).newTree b.tag slot (coreDie b.core) r) := by
  obtain ⟨hfree, hsent, hteam, hread, hroom⟩ := hr
  have hroom' : (!s1.slotsFree b.tag (slotsNeeded (g = 1#1) (p = 1#1)) || b.bureau.isSome) = false := by
    simp only [slotsNeeded, decide_eq_true_eq, hroom, hteam]
    rfl
  refine (State.chk_free hfree _).trans ?_
  simp only [hsent, Bool.false_eq_true, if_false, hread, State.withGot, hroom', hn]
  exact congrArg Host.Outcome.next (if_neg (Bool.eq_false_iff.1 hc))

theorem launchOpen_orphan {s : State} {tag : BitVec 12} {p : BitVec 1} {c : Ctx} (hc : s.ctx? tag = some c) (hempty : c.levels = []) :
    launchOpen s tag p := by
  intro d hd
  obtain rfl := Option.some.inj (hc.symm.trans hd)
  refine ⟨by simp [hempty], fun _ l hl => ?_⟩
  rw [Ctx.level?, hempty] at hl
  cases hl

/-- Refutes O15: nothing says that the context's latest phase is there. In `orphanLaunch` the phase that LAUNCH.tree makes takes the slot that
the context names as its latest one, its members leave it as it takes them over (R40), and it is freed: no phase is there that the handle in
w[d] could name. -/
theorem not_launchesHandInTheirWork : ¬ Obligations.LaunchesHandInTheirWork := by
  intro hall
  obtain ⟨b, t, r, s1, hready, hc, hfree⟩ := launchReady_orphanLaunch
  have horphan : orphanCtx.Orphan (Config.freeChoice s1.free % levelSlots) := by
    rw [hfree]
    exact ⟨rfl, rfl, rfl⟩
  obtain ⟨c, hc2, hplain⟩ := State.newLaunch_orphan hc horphan b.slot false .tree 1 (coreDie b.core)
  have hexec := exec_launchTree (h := ⟨false, false, none, none⟩) hready rfl (State.levelCancelled_of_plain hc2 hplain _)
  obtain ⟨-, -, hopen, -⟩ := hall ⟨false, false, none, none⟩ _ _ _ _ _ _ _ _ _ hready
  obtain ⟨-, ⟨v, b', u, hv, -, -, y, q, ⟨c', x, hc', hx, -, -, hkind, -⟩, -⟩, -⟩ := hopen (launchOpen_orphan hc rfl)
  obtain rfl := Host.Outcome.next.inj (hexec.symm.trans hv)
  obtain rfl := Option.some.inj (hc'.symm.trans hc2)
  exact (Ctx.plain_of_level? hplain hx).1 hkind

end Sys2Proof.Machine
end
